-- ==== Sys2Proof/Word.lean ====
section
/-! DEFINITION. Sys2Proof/Word.lean: the word types of the EL4 model and the two plain containers it keeps them in. -/

namespace Sys2Proof

/-- One byte. All multi-byte data is little-endian (00_scope, Conventions). -/
abbrev Byte := BitVec 8
/-- 16 bits: bfloat16 codes, tags, status codes. -/
abbrev Half := BitVec 16
/-- 32 bits: BAR0 words, binary32 patterns. -/
abbrev Word := BitVec 32
/-- 64 bits: addresses, identifiers, inline arguments. -/
abbrev Dword := BitVec 64
/-- 128 bits: an engine command word (R231). -/
abbrev QWord := BitVec 128
/-- A run of bytes, lowest address first. -/
abbrev Bytes := List Byte

/-- A finite map with number keys: a list of pairs with strictly rising keys. -/
abbrev NMap (α : Type) := List (Nat × α)

/-- A byte memory: the listed cells, with strictly rising addresses and no entry equal to what an unlisted address reads as. -/
abbrev Mem := List Host.Cell

end Sys2Proof
end

