-- ==== Sys2Proof/Syntax.lean ====
section
/-! DEFINITION. Sys2Proof/Syntax.lean: the commands of the EL4, one constructor per row of spec/opcode_table.json.
Every row names a rule of spec/ that its meaning follows. A row that stands for a moment in time carries that moment
`t` in ns of system time; a row in which the device reads something outside itself carries what the read gave. -/

namespace Sys2Proof

/-- What a read on an outside bus gave: the bytes, or `none` for a bus error, timeout or poisoned completion (R372). -/
abbrev BusRead := Option Bytes

/-- A fetched command, named by its queue pair and its tag (R365, R366). -/
structure CmdRef where
  q   : Nat
  tag : Half
deriving DecidableEq, Repr

/-- The engines that walk streams of words (R196, R197): a fetch and an execute engine per array, and the hub
collective and stream engines, which walk one sequence per plan handle and schedule. -/
inductive EngineId where
  | fetch (a : Nat)
  | exec  (a : Nat)
  | coll  (h sc : Nat)
  | strm  (h sc : Nat)
deriving DecidableEq, Repr

/-- What the analogue side reports of a SELFTEST 0x01 (R510). -/
structure AnalogueResult where
  failed    : BitVec 5
  ports     : Byte
  /-- sub-banks served by a failed sense reference, as (1,024 x array + cell) x 9 + sub-bank -/
  subbanks  : List Nat
deriving DecidableEq, Repr

/-- What Bedrock and the boot self-test meet at a boot (R437-R442): pins, training, self-test and failed checks. -/
structure BootEnv where
  recoveryLow : Bool
  roleHigh    : Bool
  /-- cells failed by the boot set, as 1,024 x array + cell; 65,536 + array where the array's own logic failed (R508) -/
  bistFail    : List Nat
  /-- the analogue checks of the boot (R442, R509): the loop-backs, and what each failed check names -/
  analogue    : AnalogueResult
  /-- channels that fail training at 8,533, 7,500 and 6,400 MT/s -/
  fail8533    : List Nat
  fail7500    : List Nat
  fail6400    : List Nat
  /-- density code and ranks of the memory fitted (R409, R414) -/
  density     : BitVec 2
  ranks2      : Bool
  tjHot       : Bool
  /-- the firmware sets `mbx` within 1 s of being started (R441) -/
  mbxSet      : Bool
  /-- sub-banks of either stack whose record line of mirror A, of mirror B, the mount cannot read (R177) -/
  unreadA     : List Nat
  unreadB     : List Nat
deriving DecidableEq, Repr

/-- A Spar flit as it reaches a port (R339). `fecBad` and `crcBad` are the receiver's own checks of it. -/
structure Flit where
  typ      : BitVec 4
  seq      : BitVec 12
  ack      : BitVec 12
  dst      : BitVec 6
  src      : BitVec 6
  len      : Nat
  chanSeq  : Half
  eom      : Bool
  resBits  : Bool
  payload  : Bytes
  /-- it lies in an FEC codeword that was corrected, or could not be -/
  fecFixed : Bool
  fecBad   : Bool
  crcBad   : Bool
deriving DecidableEq, Repr

/-- The operation a SYNC flit carries (R349). -/
structure SyncOp where
  index : Nat
  reset : Bool
  value : Nat
  /-- bits [15:0] of the step number of the counter's schedule -/
  step  : Half
deriving DecidableEq, Repr

/-- What a CTRL flit carries that no other row names (R286, R339, R342). A block is counted from the channel's last clearing. -/
inductive CtrlMsg where
  | resendBlock (block : Nat)
  | slotEmptied (slot : Nat)
  /-- the group plans halt (R354) -/
  | halt
  /-- the words of a collective of a plan disagree (R347) -/
  | mismatch (handle : Nat)
  /-- pages lent to this device (R300) -/
  | lend (lend pages : Nat)
  | other
deriving DecidableEq, Repr

/-- An accumulator ECC condition met while entries are read (R125). -/
structure EccHit where
  cell   : Nat
  entry  : Nat
  double : Bool
deriving DecidableEq, Repr

/-- An accumulator ECC condition that a sweep meets before it applies the line of that ordinal (R125). -/
structure SweepEcc where
  line : Nat
  hit  : EccHit
deriving DecidableEq, Repr

/-- What a sweep meets as it reads: the cells with a parity error (R139), and the accumulator errors (R125). -/
structure SweepMet where
  parity : List Nat
  ecc    : List SweepEcc
deriving DecidableEq, Repr

/-- The next word of an array's stream: does its copy in the array store have an error that cannot be corrected (R266)? -/
structure WordCopy where
  array : Nat
  ue    : Bool
deriving DecidableEq, Repr

/-- The sender of a codec block and the port that it arrives on (R267). -/
structure BlockFrom where
  src  : Nat
  port : Nat
deriving DecidableEq, Repr

/-- A codec block as it arrives, and the header of the source's copy of it (R286). -/
structure CodecBlock where
  bytes : Bytes
  copy  : Word
deriving DecidableEq, Repr

/-- A borrower's report on a lend: how many of its pages were dropped (R301). -/
structure LendRep where
  lend    : Nat
  dropped : Nat
deriving DecidableEq, Repr

/-- The two transports of SPDM (R465). -/
inductive Transport where
  | doe
  | smbus
deriving DecidableEq, Repr

/-- The resets that act as PERST_N (R397). -/
inductive PerstKind where
  | pin
  | hotReset
  | linkDown
deriving DecidableEq, Repr

/-- The causes of a warm restart (R437, R441, R456, R457). -/
inductive WarmCause where
  | activation
  | recoveryRequest
  | recoveryActivation
  | watchdog
deriving DecidableEq, Repr

/-- A member's report during a stage session (R319, R321). -/
inductive StageRep where
  | missing (layer : Nat) (indices : List Nat)
  | staged
  /-- the session has failed here; for want of a free block above the floor (R171)? -/
  | failed (floor : Bool)
deriving DecidableEq, Repr

/-- A member's answer during a commit (R322). -/
inductive CommitRep where
  | acknowledge
  | durable
deriving DecidableEq, Repr

/-- A member's answer to a join request (R334). -/
inductive JoinRep where
  | ready (isS isM : Bool) (cablingOk : Bool)
  | otherManager
  | stageOpen
  | entering
  | joined
deriving DecidableEq, Repr

/-- What kind of read found a line (R148). -/
inductive ReadKind where
  | plan
  | maint
  | stripe
deriving DecidableEq, Repr

/-- One command of the EL4. -/
inductive Instr where
  -- Iarik commands (R378-R393)
  | nop (r : CmdRef)
  | identify (r : CmdRef)
  | timeSet (r : CmdRef)
  | powerSet (r : CmdRef)
  | modelCreate (r : CmdRef)
  | modelStageBegin (r : CmdRef) (pay : BusRead)
  | modelShard (r : CmdRef) (pay : BusRead)
  | modelStageEnd (r : CmdRef)
  | modelCommit (r : CmdRef)
  | modelAbort (r : CmdRef)
  | modelRepair (r : CmdRef) (pay : BusRead)
  | modelDelete (r : CmdRef)
  | adapterLoad (r : CmdRef) (pay : BusRead)
  | adapterDrop (r : CmdRef)
  | tuneStart (r : CmdRef) (pay : BusRead)
  | tuneStop (r : CmdRef)
  | streamOpen (r : CmdRef) (pay : BusRead)
  | streamClose (r : CmdRef)
  | streamSubmit (r : CmdRef) (pay : BusRead)
  | submitPayloadPlaced (stream : Nat) (t : Nat)
  | planLoad (r : CmdRef) (pay : BusRead)
  | planStart (r : CmdRef)
  | planStop (r : CmdRef)
  | objectPlaceAlloc (r : CmdRef)
  | objectPlaceFree (r : CmdRef)
  | objectMigrate (r : CmdRef)
  | pageCopyComplete (obj : Nat)
  | maintStart (r : CmdRef)
  | maintStatus (r : CmdRef)
  | groupForm (r : CmdRef) (pay : BusRead)
  | groupFormDissolve (r : CmdRef)
  | groupLend (r : CmdRef)
  | groupLendReclaim (r : CmdRef)
  | groupStatus (r : CmdRef)
  | fwStage (r : CmdRef) (pay : BusRead)
  | fwDelta (r : CmdRef) (pay : BusRead)
  | fwVerify (r : CmdRef)
  | fwActivate (r : CmdRef)
  | attest (r : CmdRef) (pay : BusRead)
  | lifecycleSet (r : CmdRef) (pay : BusRead)
  | selftest (r : CmdRef)
  -- mailbox and register accesses
  | commandFetch (entry : BusRead)
  | forwardedCommand (src : Nat) (entry : Bytes) (pay : BusRead)
  | sqTailDoorbell (q : Nat) (value : Word)
  | cqHeadDoorbell (q : Nat) (value : Word)
  | qpEnable (q : Nat) (value : Word)
  | qpDisable (q : Nat) (value : Word)
  | sqFetchRetry (q : Nat) (entry : BusRead)
  | coalesceTimerExpiry (q : Nat)
  | registerWrite (offset : Nat) (size : Nat) (value : Dword)
  | clearCounters (value : Word)
  | tbuNowRead (t : Nat)
  | bar2BaseHiWrite (value : Word)
  | bar2Resize (sizeLog2 : Nat)
  | errHeadWrite (value : Word)
  | hostBar2Access (write : Bool) (offset : Nat) (len : Nat) (data : Bytes)
  | poisonedWriteTlp (bar : Nat) (offset : Nat)
  | msixUnmask (vector : Nat)
  | dmaEnable (e : Nat) (value : Word)
  | dmaDisable (e : Nat) (value : Word)
  | dmaTailDoorbell (e : Nat) (value : Word)
  | dmaDescriptor (e : Nat) (desc : BusRead) (data : BusRead)
  | dmaBusError (e : Nat)
  -- resets, boot, activation
  | flr
  | perstN (kind : PerstKind) (env : BootEnv)
  | powerOnReset (env : BootEnv)
  | warmRestart (cause : WarmCause) (env : BootEnv)
  | bootWatchdog (env : BootEnv)
  | activation (t : Nat) (env : BootEnv)
  | activationReturnTimeout (member : Nat) (t : Nat)
  -- sideband
  | smbusTelemetryRequest
  | smbusRecoveryRequest (env : BootEnv)
  | mctpControlMessage (msg : Bytes)
  | smbusAddressMatch (addr : BitVec 7) (inLatchWindow : Bool)
  | getVersion (tr : Transport) (req : Bytes)
  | getCapabilities (tr : Transport) (req : Bytes)
  | negotiateAlgorithms (tr : Transport) (req : Bytes)
  | getDigests (tr : Transport) (req : Bytes)
  | getCertificate (tr : Transport) (req : Bytes)
  | challenge (tr : Transport) (req : Bytes)
  | getMeasurements (tr : Transport) (req : Bytes)
  | wakeNLow
  | prochotNAssert
  | prochotNRelease
  | cadPpsEdge (t : Nat) (rising : Bool)
  | ppsHoldoverTimeout (t : Nat)
  | cadRefPresent
  | cadRefLost
  | thermtrip
  | thermalLimitTick (tj : Int)
  | supplyFault
  -- power
  | entryBlockReady (elapsedNs : Nat)
  | entryDelayExpired
  | wakeExit (domain : Nat)
  | powerArbiterTick (power : Nat)
  | pstateChangeComplete
  -- steps and engine words
  | stepStart (h sc : Nat) (t : Nat)
  | atTimeRelease (e : EngineId) (t : Nat)
  | stepEnd (h sc : Nat) (t : Nat)
  | stepStalled (h sc : Nat) (t : Nat)
  | queueCopy (w : WordCopy)
  | engineNop (e : EngineId)
  | wait (e : EngineId)
  | waitSatisfied (e : EngineId)
  | signal (e : EngineId)
  | resetCounter (e : EngineId)
  | atTime (e : EngineId)
  | endStep (a : Nat)
  | fence (w : WordCopy)
  | fetchList (w : WordCopy)
  | multicast (w : WordCopy)
  | kvFetch (w : WordCopy)
  | regulate (w : WordCopy)
  | bucketRequestIssue (a : Nat) (run entry : Nat) (waitedUs : Nat)
  | fetchEntryArrival (a : Nat) (run entry : Nat) (t : Nat)
  | fetchEntryError (a : Nat) (run entry : Nat)
  | fallbackDeadline (a : Nat) (run entry : Nat) (t : Nat)
  | lateEntryDrop (a : Nat) (run entry : Nat)
  | streamPortLineWrite (a : Nat)
  | sweep (a : Nat) (parity : List Nat) (ecc : List SweepEcc)
  | veinSweep (a : Nat) (met : SweepMet)
  | transposeSweep (a : Nat) (met : SweepMet)
  | drain (a : Nat) (ecc : List EccHit)
  | post (a : Nat)
  | normStatCombine (h : Nat) (slot : Nat)
  | quant (a : Nat)
  | quantSegmentRelease (a : Nat)
  | send (a : Nat)
  | recv (a : Nat)
  | collective (h sc : Nat)
  | streamIo (h sc : Nat)
  | wordCompletion (e : EngineId) (index : Nat)
  -- Slate
  | slateSlotStart (a k : Nat)
  | lineReadComplete (a cell k lblock line : Nat) (kind : ReadKind) (errs : Nat) (misdirected : Bool)
  | latchPositionFree (a : Nat)
  | reconstructionComplete (a cell k lblock line : Nat) (bad : List Nat)
  | blockProgramComplete (a cell k pblock : Nat) (ok : Bool)
  | blockEraseComplete (a cell k pblock : Nat) (ok : Bool)
  | slateDescriptor (a : Nat) (ok : Bool)
  | parityPass (a cell lblock : Nat) (bad : List Nat)
  | checkpointInterval (stack : Nat)
  | checkpointCommit (stack : Nat) (mirrorB : Bool)
  | readCountThreshold (a k lblock : Nat)
  | relocationSwitch (a : Nat)
  | scrubPass (a cell lblock line : Nat) (errs : List Nat)
  | wearCheck (a cell k : Nat)
  | gcErase (a cell k pblock : Nat)
  -- commit, load, tuning
  | commitDecision (tc : Nat) (epoch : Nat) (slot : Nat)
  | commitAckTimeout (t : Nat)
  | commitSwitch (a : Nat) (t : Nat)
  | commitDurable
  | shardReceived (shard : Bytes)
  | tuneUpdateComplete (session : Nat)
  -- board, codec, Spar
  | boardRetrain (channel : Nat) (ok : Bool)
  | boardPatrol (unit : Nat) (corrected : Bool) (uncorrectable : Bool)
  | poisonRewriteComplete (unit : Nat) (backing : BusRead)
  | codecBlockReceived (came : BlockFrom) (block : CodecBlock)
  | dataFlit (port : Nat) (f : Flit)
  | badFlit (port : Nat) (f : Flit)
  | ackFlit (port : Nat) (f : Flit)
  | nakFlit (port : Nat) (f : Flit)
  | syncFlit (port : Nat) (f : Flit) (op : SyncOp)
  | timeFlit (port : Nat) (f : Flit) (managerNow : Nat) (delayNs : Nat)
  | timeFlitSend
  | statusFlit (port : Nat) (f : Flit) (epochs : List Nat) (t : Nat)
  | statusFlitSend
  | ctrlFlit (port : Nat) (f : Flit) (msg : CtrlMsg)
  | joinRequest (manager member : Nat) (serial : Dword)
  | joinConfirm (manager member size : Nat) (torus : Bool) (rows cols : Nat)
  | portDown (port : Nat) (laneFail : Option Nat)
  | retrainComplete (port : Nat) (ok : Bool) (peer : Nat)
  | routeTableApply (routes : NMap Nat) (hops : Nat)
  | managerLost (t : Nat)
  | memberLost (member : Nat) (t : Nat)
  | reclaimNotice (lend : Nat)
  | reclaimLimit (lend : Nat)
  -- ROM routines and code flash
  | flErase (core : Nat) (lr : Nat) (addr count : Nat) (flags : Word) (ok : Bool)
  | flProgram (core : Nat) (lr : Nat) (addr src count : Nat) (flags : Word) (ok : Bool)
  | flWord (core : Nat) (lr : Nat) (addr : Nat) (value : Dword) (flags : Word) (ok : Bool)
  | flPoll (core : Nat) (bank : Nat)
  | sltRing (core : Nat) (a : Nat) (ring count : Nat)
  | sltPoll (core : Nat) (a : Nat)
  | flashOpComplete (bank : Nat) (ok : Bool) (failAddr : Nat)
  | flashBusyRead (core : Nat) (addr : Nat) (kind : Nat)
  | controllerWriteFault (core : Nat) (reg : Nat) (value : Word)
  -- errors, maintenance, self-test
  | followUp
  | maintJobStart (job : Nat) (power : Nat)
  | bistRoundComplete (cells : List Nat) (logic : List Nat)
  -- group and forwarding answers, timeouts, faults, JTAG
  | forwardedResult (member : Nat) (r : CmdRef) (status : Half) (result : Dword) (output : Bytes)
  | stageReport (member : Nat) (rep : StageRep)
  | commitAcknowledge (member : Nat) (rep : CommitRep)
  | reclaimReport (member : Nat) (rep : LendRep)
  | joinReply (member : Nat) (rep : JoinRep)
  | memberReachTimeout (member : Nat)
  | timeSetPpsTimeout (t : Nat)
  | slewComplete
  | powerLoss
  | clockFault
  | fwFault
  | mgmtUe
  | analogueChecksDone (res : AnalogueResult)
  | jtagInstruction (ir : Nat)
deriving DecidableEq, Repr

end Sys2Proof
end

