-- ==== Sys2Proof/WellFormed.lean ====
section
/-! DEFINITION. Sys2Proof/WellFormed.lean: the operands that name a thing of the device name one it has: pairs, arrays,
cells, blocks, lines, handles, ports, members. Values that software chooses are not restricted here: the meanings check them. -/

namespace Sys2Proof

/-- An engine names an array 0-63, or a handle 0-31 and a schedule 0-15 (R193, R196, R197). -/
def EngineId.wf : EngineId → Bool
  | .fetch a => decide (a < 64)
  | .exec a => decide (a < 64)
  | .coll h sc => decide (h < 32) && decide (sc < 16)
  | .strm h sc => decide (h < 32) && decide (sc < 16)

/-- A flit carries at most 240 bytes of payload (R339). -/
def Flit.wf (f : Flit) : Bool := decide (f.payload.length ≤ 240)

/-- Does every operand name a thing the device has? -/
def Instr.wf (i : Instr) : Bool :=
  match i with
  | .nop r => decide (r.q < 64)
  | .identify r => decide (r.q < 64)
  | .timeSet r => decide (r.q < 64)
  | .powerSet r => decide (r.q < 64)
  | .modelCreate r => decide (r.q < 64)
  | .modelStageBegin r _ => decide (r.q < 64)
  | .modelShard r _ => decide (r.q < 64)
  | .modelStageEnd r => decide (r.q < 64)
  | .modelCommit r => decide (r.q < 64)
  | .modelAbort r => decide (r.q < 64)
  | .modelRepair r _ => decide (r.q < 64)
  | .modelDelete r => decide (r.q < 64)
  | .adapterLoad r _ => decide (r.q < 64)
  | .adapterDrop r => decide (r.q < 64)
  | .tuneStart r _ => decide (r.q < 64)
  | .tuneStop r => decide (r.q < 64)
  | .streamOpen r _ => decide (r.q < 64)
  | .streamClose r => decide (r.q < 64)
  | .streamSubmit r _ => decide (r.q < 64)
  | .submitPayloadPlaced stream _ => decide (stream < 256)
  | .planLoad r _ => decide (r.q < 64)
  | .planStart r => decide (r.q < 64)
  | .planStop r => decide (r.q < 64)
  | .objectPlaceAlloc r => decide (r.q < 64)
  | .objectPlaceFree r => decide (r.q < 64)
  | .objectMigrate r => decide (r.q < 64)
  | .pageCopyComplete _ => true
  | .maintStart r => decide (r.q < 64)
  | .maintStatus r => decide (r.q < 64)
  | .groupForm r _ => decide (r.q < 64)
  | .groupFormDissolve r => decide (r.q < 64)
  | .groupLend r => decide (r.q < 64)
  | .groupLendReclaim r => decide (r.q < 64)
  | .groupStatus r => decide (r.q < 64)
  | .fwStage r _ => decide (r.q < 64)
  | .fwDelta r _ => decide (r.q < 64)
  | .fwVerify r => decide (r.q < 64)
  | .fwActivate r => decide (r.q < 64)
  | .attest r _ => decide (r.q < 64)
  | .lifecycleSet r _ => decide (r.q < 64)
  | .selftest r => decide (r.q < 64)
  | .commandFetch _ => true
  | .forwardedCommand src _ _ => decide (src < 64)
  | .sqTailDoorbell q _ => decide (q < 64)
  | .cqHeadDoorbell q _ => decide (q < 64)
  | .qpEnable q _ => decide (q < 64)
  | .qpDisable q _ => decide (q < 64)
  | .sqFetchRetry q _ => decide (q < 64)
  | .coalesceTimerExpiry q => decide (q < 64)
  | .registerWrite _ size _ => decide (1 ≤ size) && decide (size ≤ 8)
  | .clearCounters _ => true
  | .tbuNowRead _ => true
  | .bar2BaseHiWrite _ => true
  | .bar2Resize _ => true
  | .errHeadWrite _ => true
  | .hostBar2Access _ _ _ _ => true
  | .poisonedWriteTlp bar _ => decide (bar < 6)
  | .msixUnmask vector => decide (vector < 2048)
  | .dmaEnable e _ => decide (e < 4)
  | .dmaDisable e _ => decide (e < 4)
  | .dmaTailDoorbell e _ => decide (e < 4)
  | .dmaDescriptor e _ _ => decide (e < 4)
  | .dmaBusError e => decide (e < 4)
  | .flr => true
  | .perstN _ _ => true
  | .powerOnReset _ => true
  | .warmRestart _ _ => true
  | .bootWatchdog _ => true
  | .activation _ _ => true
  | .activationReturnTimeout member _ => decide (member < 64)
  | .smbusTelemetryRequest => true
  | .smbusRecoveryRequest _ => true
  | .mctpControlMessage _ => true
  | .smbusAddressMatch _ _ => true
  | .getVersion _ _ => true
  | .getCapabilities _ _ => true
  | .negotiateAlgorithms _ _ => true
  | .getDigests _ _ => true
  | .getCertificate _ _ => true
  | .challenge _ _ => true
  | .getMeasurements _ _ => true
  | .wakeNLow => true
  | .prochotNAssert => true
  | .prochotNRelease => true
  | .cadPpsEdge _ _ => true
  | .ppsHoldoverTimeout _ => true
  | .cadRefPresent => true
  | .cadRefLost => true
  | .thermtrip => true
  | .thermalLimitTick _ => true
  | .supplyFault => true
  | .entryBlockReady _ => true
  | .entryDelayExpired => true
  | .wakeExit _ => true
  | .powerArbiterTick _ => true
  | .pstateChangeComplete => true
  | .stepStart h sc _ => decide (h < 32) && decide (sc < 16)
  | .atTimeRelease e _ => e.wf
  | .stepEnd h sc _ => decide (h < 32) && decide (sc < 16)
  | .stepStalled h sc _ => decide (h < 32) && decide (sc < 16)
  | .queueCopy w => decide (w.array < 64)
  | .engineNop e => e.wf
  | .wait e => e.wf
  | .waitSatisfied e => e.wf
  | .signal e => e.wf
  | .resetCounter e => e.wf
  | .atTime e => e.wf
  | .endStep a => decide (a < 64)
  | .fence w => decide (w.array < 64)
  | .fetchList w => decide (w.array < 64)
  | .multicast w => decide (w.array < 64)
  | .kvFetch w => decide (w.array < 64)
  | .regulate w => decide (w.array < 64)
  | .bucketRequestIssue a _ _ _ => decide (a < 64)
  | .fetchEntryArrival a _ _ _ => decide (a < 64)
  | .fetchEntryError a _ _ => decide (a < 64)
  | .fallbackDeadline a _ _ _ => decide (a < 64)
  | .lateEntryDrop a _ _ => decide (a < 64)
  | .streamPortLineWrite a => decide (a < 64)
  | .sweep a parity ecc => decide (a < 64) && parity.all (fun c => decide (c < 1024)) && ecc.all (fun x => decide (x.hit.cell < 1024) && decide (x.hit.entry < 512))
  | .veinSweep a met => decide (a < 64) && met.parity.all (fun c => decide (c < 1024)) && met.ecc.all (fun x => decide (x.hit.cell < 1024) && decide (x.hit.entry < 512))
  | .transposeSweep a met => decide (a < 64) && met.parity.all (fun c => decide (c < 1024)) && met.ecc.all (fun x => decide (x.hit.cell < 1024) && decide (x.hit.entry < 512))
  | .drain a ecc => decide (a < 64) && ecc.all (fun x => decide (x.cell < 1024) && decide (x.entry < 512))
  | .post a => decide (a < 64)
  | .normStatCombine h slot => decide (h < 32) && decide (slot < 4096)
  | .quant a => decide (a < 64)
  | .quantSegmentRelease a => decide (a < 64)
  | .send a => decide (a < 64)
  | .recv a => decide (a < 64)
  | .collective h sc => decide (h < 32) && decide (sc < 16)
  | .streamIo h sc => decide (h < 32) && decide (sc < 16)
  | .wordCompletion e _ => e.wf
  | .slateSlotStart a k => decide (a < 64) && decide (k < 9)
  | .lineReadComplete a cell k lblock line _ _ _ => decide (a < 64) && decide (cell < 1024) && decide (k < 9) && decide (lblock < 32) && decide (line < 256)
  | .latchPositionFree a => decide (a < 64)
  | .reconstructionComplete a cell k lblock line _ => decide (a < 64) && decide (cell < 1024) && decide (k < 9) && decide (lblock < 32) && decide (line < 256)
  | .blockProgramComplete a cell k pblock _ => decide (a < 64) && decide (cell < 1024) && decide (k < 9) && decide (pblock < 36)
  | .blockEraseComplete a cell k pblock _ => decide (a < 64) && decide (cell < 1024) && decide (k < 9) && decide (pblock < 36)
  | .slateDescriptor a _ => decide (a < 64)
  | .parityPass a cell lblock _ => decide (a < 64) && decide (cell < 1024) && decide (lblock < 32)
  | .checkpointInterval stack => decide (stack < 2)
  | .checkpointCommit stack _ => decide (stack < 2)
  | .readCountThreshold a k lblock => decide (a < 64) && decide (k < 9) && decide (lblock < 32)
  | .relocationSwitch a => decide (a < 64)
  | .scrubPass a cell lblock line _ => decide (a < 64) && decide (cell < 1024) && decide (lblock < 32) && decide (line < 256)
  | .wearCheck a cell k => decide (a < 64) && decide (cell < 1024) && decide (k < 9)
  | .gcErase a cell k pblock => decide (a < 64) && decide (cell < 1024) && decide (k < 9) && decide (pblock < 36)
  | .commitDecision _ _ _ => true
  | .commitAckTimeout _ => true
  | .commitSwitch a _ => decide (a < 64)
  | .commitDurable => true
  | .shardReceived _ => true
  | .tuneUpdateComplete session => decide (session < 16)
  | .boardRetrain channel _ => decide (channel < 32)
  | .boardPatrol _ _ _ => true
  | .poisonRewriteComplete _ _ => true
  | .codecBlockReceived came _ => decide (came.src < 64) && decide (came.port < 8)
  | .dataFlit port f => decide (port < 8) && f.wf
  | .badFlit port f => decide (port < 8) && f.wf
  | .ackFlit port f => decide (port < 8) && f.wf
  | .nakFlit port f => decide (port < 8) && f.wf
  | .syncFlit port f _ => decide (port < 8) && f.wf
  | .timeFlit port f _ _ => decide (port < 8) && f.wf
  | .timeFlitSend => true
  | .statusFlit port f _ _ => decide (port < 8) && f.wf
  | .statusFlitSend => true
  | .ctrlFlit port f _ => decide (port < 8) && f.wf
  | .joinRequest manager member _ => decide (manager < 64) && decide (member < 64)
  | .joinConfirm manager member _ _ _ _ => decide (manager < 64) && decide (member < 64)
  | .portDown port _ => decide (port < 8)
  | .retrainComplete port _ _ => decide (port < 8)
  | .routeTableApply _ _ => true
  | .managerLost _ => true
  | .memberLost member _ => decide (member < 64)
  | .reclaimNotice lend => decide (lend < 2 ^ 32)
  | .reclaimLimit lend => decide (lend < 2 ^ 32)
  | .flErase core lr _ _ _ _ => decide (core < 4) && decide (lr < 2 ^ 32)
  | .flProgram core lr _ src _ _ _ => decide (core < 4) && decide (lr < 2 ^ 32) && decide (src < 2 ^ 48)
  | .flWord core lr _ _ _ _ => decide (core < 4) && decide (lr < 2 ^ 32)
  | .flPoll core bank => decide (core < 4) && decide (bank < 2)
  | .sltRing core a ring _ => decide (core < 4) && decide (a < 64) && decide (ring < 2 ^ 32)
  | .sltPoll core a => decide (core < 4) && decide (a < 64)
  | .flashOpComplete bank _ _ => decide (bank < 2)
  | .flashBusyRead core _ _ => decide (core < 4)
  | .controllerWriteFault core _ _ => decide (core < 4)
  | .followUp => true
  | .maintJobStart _ _ => true
  | .bistRoundComplete _ _ => true
  | .forwardedResult member r _ _ _ => decide (member < 64) && decide (r.q < 64)
  | .stageReport member _ => decide (member < 64)
  | .commitAcknowledge member _ => decide (member < 64)
  | .reclaimReport member rep => decide (member < 64) && decide (rep.lend < 2 ^ 32)
  | .joinReply member _ => decide (member < 64)
  | .memberReachTimeout member => decide (member < 64)
  | .timeSetPpsTimeout _ => true
  | .slewComplete => true
  | .powerLoss => true
  | .clockFault => true
  | .fwFault => true
  | .mgmtUe => true
  | .analogueChecksDone _ => true
  | .jtagInstruction _ => true

end Sys2Proof
end

