-- ==== Sys2Proof/Decode.lean ====
section
/-! DEFINITION. Sys2Proof/Decode.lean: the command a word of the opcode table spells. No row of the table gives bits: the
EL4's commands arrive as mailbox entries, register accesses, flits and events, and none of them is spelt by a table word. -/

namespace Sys2Proof

/-- The command that a word of the opcode table's bits spells: none, since no row gives bits. -/
def decodeTableWord (_nbits _w : Nat) : Option Instr := none

end Sys2Proof
end

