-- ==== Sys2Proof/Config.lean ====
section
/-! DEFINITION. Sys2Proof/Config.lean: what an implementation fixes and the free values.
Nothing here has a body: no proof can see what a value is, so a claim holds whatever it is. -/

namespace Sys2Proof.Config

/-- FREE VALUE, UNVERIFIED. A byte the spec calls undefined, drawn with a counter of the state and an address (log 6). -/
opaque freeByte : Nat → Nat → BitVec 8
/-- FREE VALUE, UNVERIFIED. A 32-bit value the spec leaves open, drawn with a counter of the state (log 6). -/
opaque freeWord : Nat → BitVec 32
/-- FREE VALUE, UNVERIFIED. Entry `k` of a run of 32-bit values the spec leaves open, drawn with a counter of the state (log 6). -/
opaque freeEntry : Nat → Nat → BitVec 32
/-- FREE VALUE, UNVERIFIED. A fresh number from the entropy source (R103, R461), drawn with a counter of the state. -/
opaque entropy : Nat → BitVec 32
/-- FREE VALUE, UNVERIFIED. The ten BCH check bytes over 72 (or 76) stored bytes (R142, R144): the spec names the code, not its polynomial. -/
opaque bchCheck : Bytes → Bytes

/-- FREE VALUE, UNVERIFIED. e^x of the post unit, within its error bound (R130). -/
opaque postExp : BitVec 32 → BitVec 32
/-- FREE VALUE, UNVERIFIED. The quotient e / sum of SOFTMAX, within its error bound (R130). -/
opaque postSoftmaxDiv : BitVec 32 → BitVec 32 → BitVec 32
/-- FREE VALUE, UNVERIFIED. SILU between its exact ends (R130). -/
opaque postSilu : BitVec 32 → BitVec 32
/-- FREE VALUE, UNVERIFIED. GELU between its exact ends (R130). -/
opaque postGelu : BitVec 32 → BitVec 32
/-- FREE VALUE, UNVERIFIED. y of NORM_APPLY from x, mu, sigma squared, epsilon, gamma and beta, within its error bound (R130). -/
opaque postNorm : BitVec 32 → BitVec 32 → BitVec 32 → BitVec 32 → BitVec 16 → BitVec 16 → BitVec 32
/-- FREE VALUE, UNVERIFIED. The rotated pair of ROTARY from x_p, x_q, position and omega, within its error bound (R130). -/
opaque postRotary : BitVec 32 → BitVec 32 → Nat → BitVec 32 → BitVec 32 × BitVec 32
/-- FREE VALUE, UNVERIFIED. The bit pattern of a NaN result of the post unit (R133), drawn with the input element. -/
opaque postNan : BitVec 32 → BitVec 32
/-- FREE VALUE, UNVERIFIED. b^t in binary32 (R327). -/
opaque tunePow : BitVec 32 → Nat → BitVec 32

/-- FREE VALUE, UNVERIFIED. A quotient by zero in the tuning unit (R327): the spec states none. -/
opaque tuneDivZero : BitVec 32 → BitVec 32

/-- FREE VALUE, UNVERIFIED. The encoder's own choice of 256 code lengths for a histogram (R276). -/
opaque codecLengths : Bytes → List Nat

/-- FREE VALUE, UNVERIFIED. The items of an activation-store preload image (section 10): array, store byte offset and
bytes of each; `none` where the section is malformed. The spec gives no layout of an item's head (R191, R262; log 8). -/
opaque preloadItems : Bytes → Option (List (Nat × Nat × Bytes))

/-- FREE VALUE, UNVERIFIED. The bytes of a message that carries data over Spar: what it is, its place and the data (R343).
The spec gives flits and no layout of a message (log 32). -/
opaque wireMessage : Nat → Nat → Bytes → Bytes
/-- FREE VALUE, UNVERIFIED. What a received message is (modulo 8: data for a DVA, a collective contribution, a lent page's
bytes, the sums of a statistic, rows appended to a KV set, a read of a lent page, its answer, nothing), its place, and its data
(log 32). -/
opaque readMessage : Bytes → Nat × Nat × Bytes
/-- FREE VALUE, UNVERIFIED. Where a coded transfer of a link channel goes, in the terms of `readMessage`, with what stands before
its data in the message, by source and number of the transfer (log 32). -/
opaque codedPlace : Nat → Nat → Nat × Nat × Bytes
/-- FREE VALUE, UNVERIFIED. The order in which `n` contributions reach the collective engine (R129, R345), drawn with a counter. -/
opaque arrivalOrder : Nat → Nat → List Nat
/-- FREE VALUE, UNVERIFIED. Where the segment records stand in a row of `n` bytes that STREAM_IO writes for a stream without
input, and the `end_blk` of each: the spec gives their scale and neither place nor number (R256; log 33). -/
opaque idleRecords : Nat → List (Nat × Nat)

/-- FREE VALUE, UNVERIFIED. Does a physical block, by its key, fail a program, an erase or a read-back of `SELFTEST` 0x03
(R512)? Drawn with a counter of the state. -/
opaque patternFails : Nat → Nat → Bool

/-- UNINTERPRETED. SHA-384 (a named standard; R444, R445). -/
opaque sha384 : Bytes → Bytes
/-- UNINTERPRETED. SHA-256 (a named standard; R443, R444). -/
opaque sha256 : Bytes → Bytes
/-- UNINTERPRETED. ECDSA P-384 verification of a digest: public key, digest, signature (R444). -/
opaque ecdsaVerify : Bytes → Bytes → Bytes → Bool
/-- UNINTERPRETED. LMS verification of a 32-byte message: public key, message, signature (R444). -/
opaque lmsVerify : Bytes → Bytes → Bytes → Bool
/-- FREE VALUE, UNVERIFIED. An ECDSA signature by the identity key (R465), drawn with a counter of the state. -/
opaque ecdsaSign : Nat → Bytes → Bytes
/-- FREE VALUE, UNVERIFIED. The HSS signature of a message under an index (R464, R466). -/
opaque hssSign : Nat → Bytes → Bytes
/-- UNINTERPRETED. The body of an SPDM 1.2 response the standard fixes (R465): request code, request bytes, transcript. -/
opaque spdmBody : Nat → Bytes → Bytes → Bytes
/-- UNINTERPRETED. The Bedrock ROM, which the spec does not print (R420, R465). -/
opaque romImage : Bytes
/-- UNINTERPRETED. The vendor's certificate chain of a device, by its serial (R461). -/
opaque certificate : Nat → Bytes
/-- FREE VALUE, UNVERIFIED. The body of an MCTP control response the standard fixes (R407). -/
opaque mctpBody : Bytes → Bytes

end Sys2Proof.Config
end

