-- ==== Sys2Proof/Machine/State.lean ====
section
/-! DEFINITION. Sys2Proof/Machine/State.lean: the state of the EL4, as plain data, and the machine right after reset.
State is grouped by block; each field's docstring names the rule of spec/ that gives it. Numbers that the spec only
counts or indexes are Nat, registers that software reads as bits are bit vectors or named flags. -/

namespace Sys2Proof.Machine

/-- The three parts of the family (R1). -/
inductive Variant where
  | x
  | m
  | s
deriving DecidableEq, Repr

/-- The status codes (R373). -/
inductive Status where
  | ok | badOpcode | badField | wrongState | noResource | busyMaint | unsupported | auth | rollback
  | selfBank | notMonotonic | tableBusy | lost | aborted | badPlan | erasePending | deviceFault
deriving DecidableEq, Repr

/-- What the part is and holds from manufacture: part number, OTP and configuration store (R1, R380, R407, R445, R454). -/
structure Part where
  variant    : Variant
  serial     : Dword
  stepping   : Byte
  /-- SMBus address in the configuration store (R407) -/
  smbusAddr  : BitVec 7
  /-- hashes of the two firmware-signing keys in OTP (R445): SHA-384 of the ECDSA key, SHA-256 of the LMS key -/
  fwEcdsaHash : Bytes
  fwLmsHash   : Bytes
  /-- hashes of the owner keys in OTP (R458) -/
  ownEcdsaHash : Bytes
  ownLmsHash   : Bytes
  /-- VDD_CORE offset in mV, 0-50 (R517) -/
  vddOffset  : Nat
deriving DecidableEq, Repr

/-! ## Mailbox -/

/-- A 64-byte submission, decoded (R365). -/
structure Submission where
  opcode  : Half
  tag     : Half
  flags   : Half
  res     : Half
  seq     : Word
  payLen  : Nat
  payAddr : Dword
  a0 : Dword
  a1 : Dword
  a2 : Dword
  a3 : Dword
  a4 : Dword
deriving DecidableEq, Repr

/-- Where a command came from, and so where its completion goes (R368, R377). -/
inductive Origin where
  | host (q : Nat)
  | spar (member : Nat)
deriving DecidableEq, Repr

/-- A fetched command that has not ended (R364). `id` rises in fetch order (R371). -/
structure Cmd where
  id      : Nat
  origin  : Origin
  sub     : Submission
  /-- begun and waiting for its effect to take hold -/
  running : Bool
  /-- its completion is discarded, because its pair was disabled after the fetch (R362) -/
  discard : Bool
  /-- sent to a member, whose result is awaited (R377) -/
  fwdTo   : Option Nat
deriving DecidableEq, Repr

/-- One queue pair (R361-R370). -/
structure QPair where
  sqBase   : Dword
  cqBase   : Dword
  enable   : Bool
  sizeLog2 : BitVec 4
  sqDva    : Bool
  cqDva    : Bool
  vector   : BitVec 11
  irqEn    : Bool
  coalN    : BitVec 4
  coalUs   : Byte
  ready    : Bool
  badDb    : Bool
  ringErr  : Bool
  sqTail   : Nat
  sqHead   : Nat
  /-- the CQ slot the device writes next, and the phase it writes (R368) -/
  cqTail   : Nat
  phase    : Bool
  cqHead   : Nat
  /-- tags of fetched commands not yet posted -/
  tagsRun  : List Half
  /-- tags posted and not yet consumed by cq_head, oldest first (R364) -/
  tagsPosted : List Half
  /-- completions posted since the pair's last interrupt (R370) -/
  unsig    : Nat
  /-- the entry at sq_head failed to read and is fetched again (R363) -/
  retry    : Bool
deriving DecidableEq, Repr

/-- A queue pair's reset values (R361). -/
def QPair.reset : QPair :=
  { sqBase := 0, cqBase := 0, enable := false, sizeLog2 := 0, sqDva := false, cqDva := false, vector := 0,
    irqEn := false, coalN := 0, coalUs := 0, ready := false, badDb := false, ringErr := false, sqTail := 0,
    sqHead := 0, cqTail := 0, phase := true, cqHead := 0, tagsRun := [], tagsPosted := [], unsig := 0, retry := false }

structure Mbx where
  /-- pairs 0-63; a pair not listed is at its reset values -/
  pairs   : NMap QPair
  /-- the pair fetched from last (R364) -/
  lastServed : Nat
  /-- fetched commands not ended, in fetch order -/
  cmds    : List Cmd
  /-- number of the next fetched command -/
  nextId  : Nat
  /-- the mailbox has accepted a low-power entry: nothing is fetched (R478) -/
  quiet   : Bool
deriving DecidableEq, Repr

/-! ## What the device sends -/

/-- A message the device sends over Spar (R339, R320-R322, R334, R377). The spec gives flits and no layout of what they
carry, so a message is kept as what it says (log 32). -/
inductive SparMsg where
  /-- bytes of a channel's message, at most 240 to a flit -/
  | data (piece : Bytes)
  | sync (op : SyncOp)
  | time (now : Nat)
  | status (epochs : List Nat)
  | nak (seq : Nat)
  | forward (r : CmdRef) (entry : Bytes) (pay : Bytes)
  | result (status : Half) (res : Dword)
  /-- output of a forwarded command, for the named buffer at this address -/
  | output (addr : Nat) (data : Bytes)
  | joinRequest (serial : Dword) (member : Nat)
  | joinAnswer (rep : JoinRep)
  | joinConfirm (member size : Nat) (torus : Bool) (rows cols : Nat)
  | shard (bytes : Bytes)
  | stageReport (rep : StageRep)
  | decision (tc epoch slot : Nat)
  | commitReport (rep : CommitRep)
  | reclaimNotice (lend : Nat)
  /-- a borrower holds no page of a lend any more, having dropped so many of them (R301) -/
  | reclaimDone (lend dropped : Nat)
  | lend (lend pages : Nat)
  /-- the block of a channel to send again, counted from the channel's last clearing (R286) -/
  | resend (block : Nat)
  /-- the slot of a channel that a lost TABLE block leaves empty (R286) -/
  | slotEmptied (slot : Nat)
  /-- the group plans halt (R354), or the one whose collective's words disagree (R347) -/
  | halt
  | mismatch (handle : Nat)
deriving DecidableEq, Repr

/-- A flit the device sends: the header fields of R339 that are not the port's own, and what it carries. -/
structure TxFlit where
  typ     : Nat
  dst     : Nat
  src     : Nat
  chanSeq : Nat
  eom     : Bool
  msg     : SparMsg
deriving DecidableEq, Repr

/-- What the device drives onto its interfaces, oldest first (log 4). -/
inductive Out where
  | hostWrite (addr : Nat) (data : Bytes)
  | readData (data : Bytes)
  | msix (vector : Nat)
  | aerPoisoned
  | aerInternal
  | smbus (data : Bytes)
  | smbusNak
  | spdm (tr : Transport) (data : Bytes)
  /-- a flit on a port, with its link sequence number and the last flit received in order (R339) -/
  | spar (port seq ack : Nat) (f : TxFlit)
  | coreFault (core : Nat) (cause : Nat)
  | romReturn (core : Nat) (status : Half) (result : Dword)
  | stall (core : Nat)
  | unsupportedRequest
  | vddCore (mv : Nat)
  | thermtripLow
  | linkDown
deriving DecidableEq, Repr

/-! ## Host interface -/

/-- One DMA engine of the host (R403). -/
structure DmaEngine where
  ring     : Dword
  enable   : Bool
  sizeLog2 : BitVec 4
  vector   : BitVec 11
  tail     : Nat
  head     : Nat
  halted   : Bool
  busErr   : Bool
deriving DecidableEq, Repr

def DmaEngine.reset : DmaEngine :=
  { ring := 0, enable := false, sizeLog2 := 0, vector := 0, tail := 0, head := 0, halted := false, busErr := false }

structure HostIf where
  /-- the base in force, and the low word held until the high word is written (R399) -/
  bar2Base   : Nat
  bar2Lo     : Word
  bar2SizeLog2 : Nat
  /-- MSI-X Enable, unmasked vectors and pending bits (R400) -/
  msixEnable : Bool
  unmasked   : List Nat
  pba        : List Nat
  /-- DMA engines 0-3 (R403) -/
  dma        : NMap DmaEngine
  /-- Poisoned TLP Received and Uncorrectable Internal Error of AER (R397) -/
  aerPoisoned : Bool
  aerInternal : Bool
deriving DecidableEq, Repr

/-! ## Timebase -/

structure Tbu where
  /-- system time in ns (R227) -/
  now      : Nat
  hiLatch  : Word
  locked   : Bool
  holdover : Bool
  source   : BitVec 2
  refPresent : Bool
  slewing  : Bool
  holdoverSeen : Bool
  ppsPol   : Bool
  refEn    : Bool
  ppsDelay : Half
  ppsRejects : Nat
  /-- correction still to be slewed, in ns (R209) -/
  slewLeft : Int
  /-- `TBU_NOW` when the slew began -/
  slewFrom : Nat
  /-- `TBU_NOW` is held at this value after a backward correction (R209; log 103) -/
  holdTo   : Option Nat
  /-- system time of the last captured edge, and of the last accepted one (R415, R379) -/
  lastEdge : Option Nat
  lastAccepted : Option Nat
  /-- successive qualifying edges, up to 3 (R415) -/
  goodEdges : Nat
  /-- the next edge is the phase reference (R415) -/
  takePhase : Bool
  /-- `TIME_SET`s with at_pps waiting for their edge: command, value, acceptance time (R379) -/
  ppsSet   : List (Nat × Nat × Nat)
deriving DecidableEq, Repr

/-! ## Power -/

/-- The power states (R468); `entering` is the handshake. -/
inductive PowerState where
  | run | idle | sleep | deepSleep | off
deriving DecidableEq, Repr

/-- An entry handshake in progress (R475-R478). -/
structure Entry where
  cmd     : Nat
  target  : PowerState
  /-- the block being asked, 1-9 -/
  block   : Nat
  /-- ns of delay used so far (R476) -/
  delayNs : Nat
  /-- the final checkpoints have been started (R475) -/
  final   : Bool
deriving DecidableEq, Repr

/-- A host access that the device holds while it leaves IDLE or SLEEP (R471). -/
inductive HostAcc where
  /-- a write of BAR0 -/
  | write (off size value : Nat)
  | bar2 (write : Bool) (off len : Nat) (data : Bytes)
  | poisoned (bar off : Nat)
  /-- a read of `TBU_NOW_LO` -/
  | timeRead
deriving DecidableEq, Repr

structure Pwr where
  state    : PowerState
  entry    : Option Entry
  pstate   : Nat
  pFast    : Nat
  waking   : Bool
  /-- domains returned so far in an exit (R480) -/
  wakeStep : Nat
  capLimit : Nat
  thermLimit : Nat
  /-- PROCHOT_N is low; after release it bounds the P-state until 1 ms has passed (R418) -/
  prochot  : Bool
  wakeN    : Bool
  thermtrip : Bool
  capExceeded : Bool
  capW     : Nat
  entBlock : Byte
  entReason : Byte
  entTarget : BitVec 3
  entAborted : Bool
  power    : Half
  tj       : Half
  /-- the P-state change in progress: the P-state it moves to (R484) -/
  ramp     : Option Nat
  /-- times the pulse admission rate was halved, 8 meaning none is admitted (R485) -/
  halvings : Nat
  /-- no further BIST round is started (R485) -/
  bistHeld : Bool
  /-- arbiter ticks since the cap limit last moved, and since the average last reached 95 % of the cap -/
  sinceMove : Nat
  belowTicks : Nat
  /-- ms at or below 95 degrees since the thermal limit last moved -/
  coolMs   : Nat
  /-- arbiter ticks of the current ms, and what bounded the P-state or the pulses in it (R488) -/
  tick     : Nat
  capSeen  : Bool
  hotSeen  : Bool
  pulseSeen : Bool
  /-- host requests refused in DEEP_SLEEP, recorded once exit is complete: BAR, offset, value (R472) -/
  refused  : List (Nat × Nat × Nat)
  /-- host accesses held until the exit is complete, in order (R471) -/
  held     : List HostAcc
  /-- maintenance that fell due in DEEP_SLEEP: activity and stack (R474) -/
  due      : List (Nat × Nat)
deriving DecidableEq, Repr

/-! ## Errors -/

/-- The error classes (R489). -/
inductive ErrClass where
  | ce | ct | dg | ft
deriving DecidableEq, Repr

/-- One entry of the error ring (R491). -/
structure ErrEntry where
  recSeq : Nat
  cls    : ErrClass
  cont   : Bool
  prior  : Bool
  scope  : Nat
  code   : Nat
  time   : Nat
  planId : Dword
  cmdSeq : Word
  status : Nat
  count  : Nat
  detail : Bytes
deriving DecidableEq, Repr

/-- A follow-up of firmware (R500): an error's class, code, detail, and the work it queues. -/
structure FollowUp where
  cls    : ErrClass
  code   : Nat
  detail : Bytes
deriving DecidableEq, Repr

structure Err where
  fatalDev   : Bool
  fatalW     : Bool
  fatalE     : Bool
  fatalSlot  : Bool
  fatalGroup : Bool
  overrun    : Bool
  dgSeen     : Bool
  ctSeen     : Bool
  vector     : BitVec 11
  irqEn      : Bool
  irqMin     : BitVec 2
  head       : Nat
  tail       : Nat
  entries    : Nat
  ring       : NMap ErrEntry
  recSeq     : Nat
  /-- the newest fatal record, kept in the configuration store (R497) -/
  kept       : Option ErrEntry
  /-- follow-ups waiting, in order of detection (R500) -/
  waiting    : List FollowUp
deriving DecidableEq, Repr

/-! ## Slate -/

/-- A stored line: payload and metadata as programmed (R142-R144), 72 bytes (76 in the parity sub-bank). -/
structure SLine where
  bytes : Bytes
deriving DecidableEq, Repr

/-- The live map of one sub-bank (R173). -/
structure SbSt where
  /-- logical block to physical block; a block not listed is unmapped -/
  map     : NMap Nat
  retired : List Nat
  failed  : Bool
  /-- lost lines, as logical block x 256 + line, at most four (R158) -/
  lost    : List Nat
deriving DecidableEq, Repr

def SbSt.reset : SbSt := { map := [], retired := [], failed := false, lost := [] }

/-- A physical block (R143, R165-R167). -/
structure PbSt where
  erases   : Nat
  /-- from the first erase pulse until the erase completes (R167) -/
  erasing  : Bool
  /-- a program of the block is in progress -/
  programming : Bool
  /-- pulses that the program or erase in progress has had (R166) -/
  pulses   : Nat
deriving DecidableEq, Repr

def PbSt.reset : PbSt := { erases := 0, erasing := false, programming := false, pulses := 0 }

/-- One mirror of a stack's checkpoints: its system blocks SA or SB (R173-R176). The lines of its highest sequence are
kept as the 64 payload bytes that each holds. -/
structure Mirror where
  /-- highest sequence found in its lines; 0 when it holds none -/
  seq      : Nat
  /-- record lines of `seq` by sub-bank (R173); a sub-bank not listed has the record line of an empty map -/
  recs     : NMap Bytes
  /-- disturb lines of cell 0 by array x 9 + sub-bank (R174); one not listed is all zeros -/
  disturb  : NMap Bytes
  /-- commit lines at `seq` by array x 4 + cell, cells 0-3 of each array (R175); empty while it is being written -/
  commits  : NMap Bytes
  /-- sub-banks whose record line at `seq` cannot be read (R177) -/
  unread   : List Nat
  /-- checkpoints since the system blocks were last erased, at most 80, and how often they have been (R176) -/
  count    : Nat
  erases   : Nat
deriving DecidableEq, Repr

def Mirror.reset : Mirror := { seq := 0, recs := [], disturb := [], commits := [], unread := [], count := 0, erases := 0 }

/-- A checkpoint in progress (R175): who waits for it. -/
structure Ckpt where
  seq    : Nat
  final  : Bool
  /-- mirror A is complete, mirror B is being written -/
  aDone  : Bool
  /-- maps and disturb counts taken when it began: both mirrors record the same (R175) -/
  snap   : NMap SbSt
  disturb : NMap Bytes
  /-- commands that complete with it, with their results -/
  cmds   : List (Nat × Nat)
  /-- re-initialise the translation layer first (R178) -/
  reinit : Bool
  /-- a checkpoint asked for after mirror A was written: `final`, and who waits for it -/
  again  : Option (Bool × List (Nat × Nat))
  /-- sub-banks, as array x 9 + k, whose cells have had their pulse for the mirror being written (R504) -/
  pulsed : List Nat
deriving DecidableEq, Repr

/-- One Slate stack (R177, R188). -/
structure Stack where
  mounted  : Bool
  readOnly : Bool
  noMount  : Bool
  mirrorB  : Bool
  unclean  : Bool
  mirA     : Mirror
  mirB     : Mirror
  ckpt     : Option Ckpt
deriving DecidableEq, Repr

def Stack.reset : Stack :=
  { mounted := false, readOnly := false, noMount := false, mirrorB := false, unclean := false,
    mirA := Mirror.reset, mirB := Mirror.reset, ckpt := none }

/-- Why a block is relocated (R181). -/
inductive RelocCause where
  | recon | repair | parity | table | disturb | scrub | wear
deriving DecidableEq, Repr

/-- A relocation queued or in progress (R181). `cell` is none for a whole group. -/
structure Reloc where
  pri    : Nat
  /-- what has asked for it: requests for a block whose copy has not begun merge -/
  causes : List RelocCause
  array  : Nat
  cell   : Option Nat
  k      : Nat
  lblock : Nat
  /-- target physical blocks by cell, once allocated -/
  target : NMap Nat
  /-- lines of the old block read so far, by cell, and pulses that the program of the copy has had (R147, R166) -/
  lines  : NMap Nat
  pulses : NMap Nat
  /-- cells whose copy is programmed; once all are, the switch waits for the step barrier -/
  copied : List Nat
  /-- replacement lines by line number (R159) -/
  repl   : NMap Bytes
  cmd    : Option Nat
deriving DecidableEq, Repr

/-- A reconstruction in progress (R149), for a plan read or a maintenance read (R153). -/
structure Recon where
  array  : Nat
  cell   : Nat
  k      : Nat
  lblock : Nat
  line   : Nat
  plan   : Bool
  /-- T on the Slate's clock, moved on by an earlier reconstruction of the cell (R149, R150) -/
  t      : Nat
  /-- system time at which the read proved uncorrectable (R116) -/
  found  : Nat
  /-- sub-banks whose stripe read has been issued -/
  read   : List Nat
deriving DecidableEq, Repr

/-- A descriptor ring handed to an array's Slate controller (R435). -/
structure SRing where
  addr   : Nat
  count  : Nat
  done   : Nat
  firstFail : Option Nat
deriving DecidableEq, Repr

/-- A line of a sweep, read in lockstep over an array: in flight, in its sub-bank's read register, or in a latch position
(R23, R115, R116). Times are on the Slate's clock. -/
structure SweepLine where
  /-- word index of its sweep -/
  idx   : Nat
  /-- data sub-bank -/
  k     : Nat
  /-- sweep-local line sequence number -/
  seqL  : Nat
  /-- when its slot ends, or its last reconstructed copy comes -/
  comes : Nat
  /-- when its slot ends -/
  ends  : Nat
  /-- its slot has ended -/
  ended : Bool
  /-- cells whose copy of it is being reconstructed, and those whose copy was, with the bytes -/
  waits : List Nat
  fixed : NMap Bytes
  /-- when its last product completes, once it is being applied -/
  fin   : Option Nat
deriving DecidableEq, Repr

structure Slate where
  lines   : NMap SLine
  sbs     : NMap SbSt
  pbs     : NMap PbSt
  /-- slot counter (R145): counted from the first mount -/
  slot    : Nat
  /-- the Slate's clock: time since slot 0 began, in 1/208 ns, as the events of the Slate have shown it (R145) -/
  clock   : Nat
  stackW  : Stack
  stackE  : Stack
  threshE8  : BitVec 10
  relocBits : BitVec 4
  periodH   : Byte
  ckptS     : Byte
  /-- read-count groups: (array x 9 + k) x 32 + logical block (R180) -/
  groups  : NMap Nat
  relocs  : List Reloc
  recons  : List Recon
  /-- slot in which each group was last read: reads of one slot count once (R180) -/
  lastRead : NMap Nat
  /-- reconstructions used in the step, as (array x 8 + sub-bank index) x 2^48 + slot (R151) -/
  recUsed : List Nat
  rings   : NMap SRing
  /-- lines that stay lost after a `MODEL_REPAIR` in progress, by command (R159) -/
  repairLost : NMap (List Nat)
  /-- groups recorded at 1.5 times the threshold and not relocated since (R183) -/
  blocked : List Nat
  /-- reconstructed content that a relocation of the block has still to copy, by stored line (R153, R154) -/
  rebuilt : NMap Bytes
  /-- lines that a scrub found uncorrectable at the shifted reference and rereads: sub-bank x 8192 + line (R184) -/
  rereads : List Nat
deriving DecidableEq, Repr

/-! ## Plans -/

/-- A schedule entry (R192, R261). -/
structure Sched where
  period   : Nat
  offset   : Nat
  deadline : Nat
  wcStep   : Nat
  inLead   : Nat
  rt       : Bool
  fetchEp  : NMap Nat
  execEp   : NMap Nat
  collEp   : Option Nat
  strmEp   : Option Nat
deriving DecidableEq, Repr

/-- A sync-counter declaration (R205, R262). -/
structure CtrDecl where
  number : Nat
  group  : Bool
  planKind : Bool
  sched  : Nat
  init   : Nat
deriving DecidableEq, Repr

/-- A block-list entry (R258). -/
structure Blk where
  tier     : Nat
  coded    : Bool
  sym      : Nat
  offset   : Nat
  length   : Nat
  deadline : Nat
  fallback : Nat
  table    : Nat
deriving DecidableEq, Repr

/-- A fallback entry (R260). -/
structure Fallb where
  action    : Nat
  subSym    : Nat
  subOffset : Nat
deriving DecidableEq, Repr

/-- A quant point (R75, R263). -/
structure QPoint where
  qp       : Nat
  format   : Nat
  carried  : Bool
  stochastic : Bool
  segBlocks : Nat
  windowK  : Nat
  headroomN : Nat
  underU   : Nat
  satLimit : Nat
  allowance : Nat
  seedMaxabs : Half
  model    : Nat
  vein     : List Nat
deriving DecidableEq, Repr

/-- A symbol (R264). -/
structure Symb where
  kind  : Nat
  ident : Dword
deriving DecidableEq, Repr

/-- A store region (R262): kind 0 GENERAL, 1 HOLD, 2 STREAMS. -/
structure Region where
  array  : Nat
  kind   : Nat
  offset : Nat
  length : Nat
deriving DecidableEq, Repr

/-- An activation-store preload item (R191, R262). -/
structure Preload where
  array  : Nat
  offset : Nat
  data   : Bytes
deriving DecidableEq, Repr

/-- A checked plan (R190-R192, R258-R264). -/
structure Plan where
  el3       : Bool
  group     : Bool
  seed      : Option Word
  length    : Nat
  arrays    : BitVec 64
  maintM    : Nat
  pSched    : Nat
  planId    : Dword
  scheds    : List Sched
  counters  : List CtrDecl
  /-- regulator records: (B, D) at index 5 x array + class (R262) -/
  regs      : List (Nat × Nat)
  regions   : List Region
  blocks    : List Blk
  fallbacks : List Fallb
  qpoints   : List QPoint
  symbols   : List Symb
  preload   : List Preload
  fetchW    : NMap (List QWord)
  execW     : NMap (List QWord)
  collW     : List QWord
  strmW     : List QWord
deriving DecidableEq, Repr

/-- Plan states (R193). -/
inductive PState where
  | loaded | running | stopping | halted
deriving DecidableEq, Repr

/-- A step in progress of one schedule (R210-R213). -/
structure Step where
  k        : Nat
  nominal  : Nat
  seed     : Word
  /-- arrays that have completed END_STEP for it -/
  ended    : List Nat
  collDone : Bool
  strmDone : Bool
  /-- batch row to stream, for the streams that take part (R204) -/
  rows     : NMap Nat
  /-- completion reason bits 1-6 by stream, as in cflags (R369) -/
  flags    : NMap Half
  /-- pending maxima: stream x 1024 + quant point to a binary32 magnitude (R95) -/
  pend     : NMap Word
  /-- model slot to the epoch fixed at the start (R27), and to the epoch vector of a MIXED swap, where one was in progress -/
  epochs   : NMap Nat
  vectors  : NMap Nat
  /-- streams whose step fails with ST_LOST (R157) -/
  lostSt   : List Nat
  /-- codec refusals already recorded: table-store entries (R285), and off-tier entries (R259) -/
  busyRec  : List Nat
  offRec   : Bool
  stallRec : Bool
deriving DecidableEq, Repr

/-- A line delivered by the stream port to participating ranks (R118, R239). -/
structure PortLine where
  /-- byte offset of the consuming sweep's descriptor -/
  desc  : Nat
  index : Nat
  rep   : Nat
  data  : Bytes
  /-- the line of a skipped entry: it adds nothing (R219, R220) -/
  absent : Bool
  /-- a key line: one output column of the consuming sweep is its token (R119, R220) -/
  key : Bool
  /-- word index of the fetch that delivered it -/
  run : Nat
deriving DecidableEq, Repr

/-- A word that has issued and not completed (R257). -/
structure InProg where
  index : Nat
  word  : QWord
  /-- a sweep: lines issued so far by sub-bank, and the lines or rounds applied so far, in order (R115, R118, R129) -/
  issued : NMap Nat
  order : List Nat
  /-- indices whose last block did not end a segment, with the scale they wait to be folded under (R121) -/
  open_ : NMap Half
  /-- accumulator errors that the sweep's own reads meet: before which of its lines, and where (R125) -/
  ecc   : List SweepEcc
  /-- a stream-port sweep: the lines it has received, in order (R239), and the rounds whose position has freed (R118); an all-reduce
  between members: the rounds of its messages that it has taken (R345) -/
  recv  : List PortLine
  freed : Nat
  /-- the bytes that a word which moves data took as it issued, and the reasons they carry -/
  data  : Bytes
  flags : Half
deriving DecidableEq, Repr

/-- A hub engine's place in its sequence (R197). -/
structure HubCtx where
  pc      : Nat
  /-- it waits at a WAIT or an AT_TIME -/
  waiting : Bool
  prog    : List InProg
deriving DecidableEq, Repr

/-- A loaded plan (R193-R195). -/
structure PlanRt where
  plan     : Plan
  st       : PState
  stalled  : Bool
  anchor   : Nat
  /-- freed once the stop has taken effect (R194, R225) -/
  freeOnStop : Bool
  /-- PLAN_STOP commands that wait for the stop, with unload set or not (R226) -/
  stopCmds : List (Nat × Bool)
  nextK    : NMap Nat
  steps    : NMap Step
  /-- values of the plan's counters (R206) -/
  ctr      : NMap Nat
  /-- group-scope counters: number in the plan to device index (R348) -/
  gidx     : NMap Nat
  /-- key tables of codec words: engine and word index to 256 lengths (R279) -/
  keys     : NMap (List Nat)
  coll     : NMap HubCtx
  strm     : NMap HubCtx
  /-- counts of scope 1 collectives issued in the step, by schedule (R347) -/
  collIdx  : NMap Nat
  /-- the µs before which waits for tokens have been counted (R230) -/
  waitTo   : Nat
  /-- board pages that hold the image (R193) -/
  frames   : List Nat
deriving DecidableEq, Repr

/-! ## Arrays -/

/-- A row of binary32 elements between drain, post unit and quantiser, with the reason bits and absent marks it carries. -/
structure RowD where
  elems  : List Word
  absent : List Nat
  flags  : Half
deriving DecidableEq, Repr

/-- How an entry of a fetch run stands (R221, R239). -/
inductive EntrySt where
  | queued | issued | arrived | landed | fellBack
deriving DecidableEq, Repr

/-- An entry of a fetch run (R202, R242). -/
structure FEntry where
  blk    : Blk
  /-- device virtual address at issue (R259) -/
  dva    : Nat
  st     : EntrySt
  /-- bytes requested so far (R200) -/
  sent   : Nat
  /-- the bytes as stored that the requests have read -/
  data   : Bytes
  /-- a poisoned unit of a shared object reads as zeros in it (R303) -/
  tainted : Bool
  /-- the reasons that the bytes read carry -/
  marks  : Half
  /-- what lands once it arrives or falls back -/
  lands  : Bytes
  /-- tokens it covers: first and count (KV_FETCH) -/
  tok    : Nat
  ntok   : Nat
  /-- its tokens are skipped (R220) -/
  skipped : Bool
deriving DecidableEq, Repr

/-- A fetch word in progress (R238-R242). -/
structure FRun where
  index  : Nat
  word   : QWord
  /-- KV_FETCH: 1 for key rows, 2 for value lines; 0 for the other words -/
  kv     : Nat
  row    : Nat
  dests  : List Nat
  toPort : Bool
  /-- store byte offset at which the next landed entry goes, or the consuming sweep's descriptor offset in bytes -/
  off    : Nat
  rep    : Nat
  /-- lines delivered to the port so far -/
  lines  : Nat
  /-- leading entries that have landed or fallen back -/
  done   : Nat
  entries : List FEntry
  /-- when it began, or when its last request issued (R230) -/
  since  : Nat
deriving DecidableEq, Repr

/-- A coded segment waiting for its release (R91). -/
structure SegRel where
  index  : Nat
  word   : QWord
  /-- store writes that become visible at the release: byte offset and bytes -/
  writes : List (Nat × Bytes)
  /-- the reasons that the written bytes carry -/
  flags  : Half
  /-- the stream and quant point whose pending maximum it enters, and its max-abs (R95) -/
  pend   : Option (Nat × Nat × Word)
  last   : Bool
  /-- the array cycle of its release, counted from when the quantiser was last idle (R91) -/
  time   : Nat
deriving DecidableEq, Repr

/-- One array (R13, R52). -/
structure Arr where
  /-- the step that holds the array: plan handle and schedule (R211) -/
  cur      : Option (Nat × Nat)
  /-- fetch engine: word index, and whether it waits at its word (WAIT or AT_TIME) -/
  fpc      : Nat
  fwaiting : Bool
  /-- execute copy: next word to copy, and whether the step's END_STEP has been copied -/
  epc      : Nat
  copied   : Bool
  ewaiting : Bool
  queue    : List (Nat × QWord)
  prog     : List InProg
  runs     : List FRun
  /-- entries that fell back with data in flight: plan handle, word index, entry (R221) -/
  late     : List (Nat × Nat × Nat)
  /-- accumulator entries by cell x 512 + entry; one not listed is +0 (R120) -/
  acc      : NMap Word
  /-- the free value that unlisted entries draw from, after a halt has left them undefined (R224) -/
  accUndef : Option Nat
  /-- entries written and not yet drained, with the reason bits they carry (R124) -/
  pend     : NMap Half
  /-- the window of the last TRANSPOSE_SWEEP, by descriptor offset: columns (R136) -/
  twin     : NMap Nat
  /-- the element stream of the preceding DRAIN or POST, and the one sent to the quantiser (R248) -/
  drained  : List RowD
  posted   : List RowD
  /-- absent columns of the sums that a stream-port sweep left, by descriptor offset (R242) -/
  absent   : NMap (List Nat)
  /-- the row scale a cell keeps, by cell x 512 + first entry of the output row (R119) -/
  rowScale : NMap Half
  port     : List PortLine
  /-- fetch words of the step whose consuming sweep has had all it applies: what else they deliver is discarded (R239) -/
  spent    : List Nat
  rel      : List SegRel
  /-- the quantiser: the cycle in which the next block may enter, the runs of cycles in which none may, and the end of the last
  emission, counted from when it was last idle (R91) -/
  qNext    : Nat
  qBusy    : List (Nat × Nat)
  qFree    : Nat
  /-- tokens and budget per regulator class, and when the tokens were last brought up to date (R200, R201) -/
  tokens   : NMap Nat
  budget   : NMap Nat
  filled   : NMap Nat
  gen      : Word
  /-- weight latch: the lines held, first the one being applied (R23), and the lines in flight or in a read register -/
  latch    : List SweepLine
  io       : List SweepLine
  /-- when the DPU completed its last product, on the Slate's clock -/
  idleFrom : Nat
  maintM   : Nat
  excl     : List Nat
  exclPend : List Nat
  /-- cells with one double-bit accumulator error, and the step number it fell in (R139) -/
  ueOnce   : NMap Nat
  recUnmapped : Bool
deriving DecidableEq, Repr

def Arr.reset : Arr :=
  { cur := none, fpc := 0, fwaiting := false, epc := 0, copied := false, ewaiting := false, queue := [], prog := [],
    runs := [], late := [], acc := [], accUndef := none, pend := [], twin := [], drained := [], posted := [], absent := [], rowScale := [], port := [], spent := [],
    rel := [], qNext := 0, qBusy := [], qFree := 0, tokens := [], budget := [], filled := [], gen := 0, latch := [], io := [], idleFrom := 0, maintM := 1, excl := [],
    exclPend := [], ueOnce := [], recUnmapped := false }

/-! ## Memory tiers -/

/-- The tier and frame beneath one 64 KiB page of an object (R292, R302). -/
inductive PageAt where
  | hub (frame : Nat)
  | board (frame : Nat)
  | neigh (lend frame : Nat)
  | store (a off : Nat)
  | dropped
deriving DecidableEq, Repr

/-- A placed object (R292, R297). -/
structure Obj where
  dva     : Nat
  kind    : Nat
  size    : Nat
  kvC     : Nat
  kvH     : Nat
  pages   : List PageAt
  backing : Nat
deriving DecidableEq, Repr

/-- A migration in progress (R296). -/
structure Migr where
  obj     : Nat
  tier    : Nat
  /-- pages left to switch, in ascending order, with the target frame of each -/
  left    : List (Nat × PageAt)
  copies  : Nat
  dirty   : Bool
  switched : Nat
  cmd     : Option Nat
  /-- the lend being reclaimed (R301) -/
  lend    : Option Nat
deriving DecidableEq, Repr

/-- A lend of whole pages (R300, R301). -/
structure Lend where
  id       : Nat
  lender   : Nat
  /-- borrower, or none for every member -/
  borrower : Option Nat
  hubPool  : Bool
  frames   : List Nat
  reclaiming : Bool
  /-- borrowers whose report has come, and the pages that those reports say were dropped (R301) -/
  reported : List Nat
  dropped  : Nat
  cmd      : Option Nat
  /-- the lender refuses every access (R301) -/
  closed   : Bool
deriving DecidableEq, Repr

structure Tiers where
  objs    : List Obj
  /-- frames of hub SRAM and board memory taken by objects, lends and migrations -/
  hubUsed   : List Nat
  boardUsed : List Nat
  migrs   : List Migr
  lends   : List Lend
  nextLend : Nat
  /-- poisoned 64-byte units, by DVA in the board view (R303) -/
  poison  : List Nat
  /-- poisoned units whose object a record has named (R303) -/
  named   : List Nat
  /-- page rewrites of shared objects in progress: unit (R303) -/
  rewrites : List Nat
  /-- poisoned units whose rewrite was abandoned: they wait for the host (R303) -/
  abandoned : List Nat
  /-- Brd registers (R414) -/
  trained : Bool
  unavailable : Bool
  rate    : BitVec 2
  density : BitVec 2
  ranks2  : Bool
  channels : Nat
  chFail  : Word
  /-- stored training: rate, density, ranks, channels (R412) -/
  stored  : Option (BitVec 2 × BitVec 2 × Bool × Nat)
deriving DecidableEq, Repr

/-! ## Models and streams -/

/-- Slot states (R305, R306). -/
inductive SlotSt where
  | empty | created | serving | staging | committing | partialSwap | broken
deriving DecidableEq, Repr

/-- A Slate object of a model (R382). -/
structure SObj where
  number : Nat
  kind   : Nat
  line   : Nat
  inLen  : Nat
  outLen : Nat
deriving DecidableEq, Repr

/-- A model slot's record (R305). -/
structure Slot where
  st       : SlotSt
  count    : Nat
  epoch    : Nat
  e4m3     : Bool
  layers   : Nat
  halt     : Bool
  mixed    : Bool
  /-- policy of the swap in progress, if it overrides -/
  polMixed : Option Bool
  /-- layer tags: (array x 8 + sub-bank) x 32 + logical block to layer -/
  tags     : NMap Nat
  commitSeq : Nat
  objs     : List SObj
  /-- units committed in a LAYERED swap, old epoch and layers of a unit (R323, R324) -/
  units    : Nat
  unitLayers : Nat
  oldEpoch : Nat
  /-- protected tables lost, by object number, those found lost by a scrub and not yet taken as lost, and verified contents
  (R163, R164) -/
  lostTab  : List Nat
  lostSoon : List Nat
  tables   : NMap Bytes
  /-- a loss is recorded against the model (R157) -/
  lost     : Bool
deriving DecidableEq, Repr

def Slot.reset : Slot :=
  { st := .empty, count := 0, epoch := 0, e4m3 := false, layers := 0, halt := false, mixed := false, polMixed := none,
    tags := [], commitSeq := 0, objs := [], units := 0, unitLayers := 0, oldEpoch := 0, lostTab := [], lostSoon := [], tables := [],
    lost := false }

/-- A LAYER_END in progress: command, layer, round, members not yet reported, and missing (member, index) pairs (R320). -/
structure LayerEnd where
  cmd     : Nat
  layer   : Nat
  round   : Nat
  waiting : List Nat
  missing : List (Nat × Nat)
deriving DecidableEq, Repr

/-- A staged block: sub-bank number, logical and physical block, and its layer (R318, R319). -/
structure StagedBlk where
  sb    : Nat
  lb    : Nat
  pb    : Nat
  layer : Nat
  /-- the shard that supplied it: layer x 65536 + index; 2^32 for a parity block -/
  shard : Nat
deriving DecidableEq, Repr

/-- The stage session (R317-R321). -/
structure Stage where
  id      : Nat
  slot    : Nat
  members : BitVec 64
  reader  : Nat
  layered : Bool
  unitLayers : Nat
  mixed   : Bool
  prior   : SlotSt
  objs    : List SObj
  /-- shards held on this device: layer x 65536 + index -/
  held    : List Nat
  /-- lines that the parity passes have read so far, by data sub-bank x 32 + logical block (R170) -/
  parity  : NMap Nat
  /-- layers that have had a LAYER_END with no pairs missing, and the last round seen -/
  clean   : List Nat
  round   : NMap Nat
  ending  : Option LayerEnd
  blocks  : List StagedBlk
  /-- units committed (R323) -/
  committed : Nat
  failed  : Bool
  /-- it failed for want of a free block above the floor (R171) -/
  floor   : Bool
  /-- members that have reported STAGED, and the MODEL_STAGE_END that waits -/
  staged  : List Nat
  endCmd  : Option Nat
deriving DecidableEq, Repr

/-- A commit in progress (R322). -/
structure Commit where
  cmd     : Option Nat
  slot    : Nat
  tc      : Nat
  epoch   : Nat
  unit    : Option Nat
  acked   : List Nat
  durable : List Nat
  /-- past the decision: switching -/
  decided : Bool
  switched : List Nat
  /-- the checkpoint follows -/
  ckpt    : Bool
  seq     : Nat
  lostMember : Bool
deriving DecidableEq, Repr

/-- A resident adapter (R310). -/
structure Adapter where
  dva     : Nat
  model   : Dword
  rank    : Nat
  targets : List (Dword × Nat × Nat)
deriving DecidableEq, Repr

/-- A held submission (R314, R386). -/
structure Held where
  cmd     : Nat
  data    : Bytes
  placed  : Option Nat
deriving DecidableEq, Repr

/-- A stream context (R312-R315). -/
structure Stream where
  slot    : Nat
  handle  : Nat
  sched   : Nat
  row     : Nat
  pair    : Nat
  adapter : Option Nat
  period  : Nat
  deadline : Nat
  pos     : Nat
  /-- KV set symbol to the object's DVA -/
  kv      : NMap Nat
  outAddr : Nat
  outLen  : Nat
  outDva  : Bool
  held    : List Held
  /-- tokens appended in the current step, by KV set (R298) -/
  appended : NMap Nat
  /-- bytes of its output buffer written in the current step (R256) -/
  outPos : Nat
  closing : Option Nat
  /-- the plan it is bound to has been freed (R194) -/
  orphan  : Bool
  /-- the input it took in the current step -/
  input   : Option Held
  /-- scale-history records by quant point: eight bfloat16 codes (R93) -/
  hist    : NMap (List Half)
deriving DecidableEq, Repr

/-- A tuning session (R326-R329). -/
structure Tune where
  stream  : Nat
  adapter : Nat
  mse     : Bool
  bias    : Bool
  lossHead : Dword
  saved   : Nat
  grad    : Nat
  b1 : Word
  b2 : Word
  lr : Word
  eps : Word
  wd : Word
  n       : Nat
  /-- steps accumulated, and optimiser steps taken -/
  steps   : Nat
  stepT   : Nat
  /-- the binary32 sum of gradients; empty while nothing has been added -/
  sum     : List Word
  /-- the objects of the bfloat16 masters, m and the root of v, by DVA (R326, R375) -/
  master  : Nat
  mom     : Nat
  var     : Nat
  /-- sums of the updates in progress, oldest first (R328) -/
  work    : List (List Word)
  /-- a finished copy waits for the end of the stream's step (R328) -/
  apply   : Bool
  stopping : Option (Nat × Bool)
deriving DecidableEq, Repr

structure Models where
  slots    : NMap Slot
  /-- slot records written COMMITTING: the sequence of the commit's checkpoint, and the record that holds below it and from
  it on (R322) -/
  records  : NMap (Nat × Slot × Slot)
  created  : Nat
  stage    : Option Stage
  nextStage : Nat
  commit   : Option Commit
  adapters : List Adapter
  streams  : NMap Stream
  tunes    : NMap Tune
  /-- the tuning unit's generator (R103) -/
  tuneGen  : Word
deriving DecidableEq, Repr

/-! ## Codec -/

/-- A table-store entry (R284): 256 lengths, or none, and the holders of its references. -/
structure TabSt where
  table : Option (List Nat)
  /-- board objects that hold a reference, by DVA -/
  objs  : List Nat
deriving DecidableEq, Repr

/-- A board-tier transfer under way in the codec (R267, R284): a write by a SEND word of an array, or a read of a fetch run's
entry. -/
structure CdcXfer where
  array : Nat
  fetch : Bool
  /-- word index, and for a read the entry in its run -/
  index : Nat
  entry : Nat
  inst  : Nat
  bytes : Nat
  /-- the table-store entry, and whether the transfer holds a reference on it -/
  tab   : Nat
  holds : Bool
  /-- a write: the table it codes with, and whether that is one it is to install -/
  build : Bool
  table : Option (List Nat)
deriving DecidableEq, Repr

/-- The slots of a link channel (R280, R281): the tables, and the slot installed least recently first. -/
structure ChanSt where
  slots : NMap (List Nat)
  order : List Nat
  /-- source: the blocks sent since the channel was cleared, kept for a resend (R286) -/
  sent  : List Bytes
  /-- destination: blocks accepted or lost since then, and failed expansions of the one now awaited (R286) -/
  got   : Nat
  tries : Nat
  /-- destination: transfers ended since then, what the current one has expanded to, and its lost runs -/
  xfer  : Nat
  buf   : Bytes
  lost  : List (Nat × Nat)
deriving DecidableEq, Repr

def ChanSt.reset : ChanSt :=
  { slots := [], order := [], sent := [], got := 0, tries := 0, xfer := 0, buf := [], lost := [] }

structure Codec where
  store : NMap TabSt
  xfers : List CdcXfer
  rx    : NMap ChanSt
  tx    : NMap ChanSt
deriving DecidableEq, Repr

/-! ## Spar -/

/-- A Spar port (R339-R341, R359). -/
structure Port where
  /-- 0 DOWN, 1 TRAINING, 2 UP, 3 FAILED -/
  st       : Nat
  peer     : Nat
  lanesOk  : BitVec 4
  failRow  : Nat
  txSeq    : Nat
  rxSeq    : Nat
  /-- flits sent and not acknowledged, oldest first, at most 512 (R340) -/
  replay   : List (Nat × TxFlit)
  discarding : Bool
  /-- when replays were sent, newest first (R341) -/
  replayT  : List Nat
  /-- the flit replayed last, and how often its replay has failed (R341) -/
  lastReplay : Option Nat
  sameReplay : Nat
deriving DecidableEq, Repr

def Port.reset : Port :=
  { st := 0, peer := 0, lanesOk := 0, failRow := 0, txSeq := 0, rxSeq := 0, replay := [], discarding := false,
    replayT := [], lastReplay := none, sameReplay := 0 }

/-- A member as the manager knows it (R392): state 0 ABSENT, 1 UP, 2 LOST, 3 ORPHANED. -/
structure Member where
  serial : Dword
  st     : Nat
  epochs : List Nat
  lastStatus : Nat
deriving DecidableEq, Repr

/-- A contribution to a `scope` 1 collective (R347): handle x 16 + schedule, step and index, member, the words' descriptor
with the bytes, and the runs of them that carry reasons: offset, length, bits. -/
structure Contrib where
  key    : Nat
  num    : Nat
  member : Nat
  bytes  : Bytes
  marks  : List (Nat × Nat × Half)
deriving DecidableEq, Repr

/-- A formation in progress (R334). -/
structure Forming where
  cmd     : Nat
  torus   : Bool
  rows    : Nat
  cols    : Nat
  members : List (Nat × Dword)
  /-- members that have answered the request and the confirmation -/
  ready   : List Nat
  joined  : List Nat
deriving DecidableEq, Repr

structure Spar where
  /-- 0 ungrouped, 1 manager, 2 worker, 3 ORPHANED (R358) -/
  st       : Nat
  member   : Nat
  manager  : Nat
  size     : Nat
  torus    : Bool
  rows     : Nat
  cols     : Nat
  routeLong : Bool
  memberLost : Bool
  roleWorker : Bool
  ports    : NMap Port
  members  : NMap Member
  routes   : NMap Nat
  chanRx   : NMap Nat
  chanTx   : NMap Nat
  /-- messages that wait for an earlier one of their channel: source, `chan_seq`, bytes (R343) -/
  early    : List (Nat × Nat × Bytes)
  /-- messages whose last flit has not come, by source x 65536 + `chan_seq` -/
  partMsg  : NMap Bytes
  /-- flits that wait for a route or for room in a replay buffer (R342) -/
  waiting  : List TxFlit
  heldSync : List SyncOp
  lastTime : Nat
  /-- a join that is reported once the member is locked to the manager's time (R334) -/
  joinAck  : Bool
  forming  : Option Forming
  /-- the time of the last group activation: until a member is heard after it, its loss is not looked for (R452) -/
  suspended : Option Nat
  /-- group-scope counter indices in use (R348) -/
  gused    : List Nat
  /-- contributions of `scope` 1 collectives (R347), and members' sums of statistics (R131), oldest first -/
  contrib  : List Contrib
  /-- members whose answer a group-wide command awaits, by command (R376), and its result -/
  waits    : NMap (List Nat)
  results  : NMap Nat
deriving DecidableEq, Repr

/-! ## Security, firmware, flash -/

/-- The SPDM connection of one transport (R465, R466). -/
structure Spdm where
  stage      : Nat
  transcript : Bytes
  hashes     : List Bytes
deriving DecidableEq, Repr

def Spdm.reset : Spdm := { stage := 0, transcript := [], hashes := [] }

structure Sec where
  /-- 0 BLANK to 6 SCRAPPED (R380) -/
  lifecycle : Nat
  /-- lifecycle read at boot, which gates JTAG (R419, R460) -/
  bootLifecycle : Nat
  floor     : Nat
  transitions : Nat
  identity  : Bool
  counter   : Nat
  recovery  : Bool
  /-- Bedrock has started the firmware, which has not set `mbx` yet (R441) -/
  started   : Bool
  bootedCopy : Bool
  secVersion : Nat
  fwVersion : Dword
  lastReset : Nat
  activeBad : Bool
  stagingBad : Bool
  rollback  : Bool
  copyResumed : Bool
  watchdog  : Bool
  stagingOk : Bool
  /-- scheduled activation time, and whether it is deferred (R450) -/
  actTime   : Option Nat
  actDeferred : Bool
  /-- an activation record is pending in the journal (R451) -/
  actRecord : Bool
  recoveryReq : Bool
  /-- STAGING run: `first` seen, ranges written, delta bytes received (R447) -/
  stageRun  : Bool
  written   : List (Nat × Nat)
  delta     : Bytes
  isDelta   : Bool
  /-- LMS reservation blocks used, and the next index (R463, R464) -/
  lmsBlocks : Nat
  lmsNext   : Nat
  lmsLeft   : Nat
  doe       : Spdm
  smbus     : Spdm
  /-- selected JTAG instruction (R419; log 57) -/
  jtag      : Nat
deriving DecidableEq, Repr

/-- A flash operation in progress (R421-R436): area start and length, and what a program writes. -/
structure FlashOp where
  start  : Nat
  length : Nat
  erase  : Bool
  data   : Bytes
  word   : Bool
deriving DecidableEq, Repr

/-- A bank of the code flash. `report` is 0 IDLE, 2 DONE_OK, 3 DONE_FAIL with the failing address (R432). -/
structure Bank where
  op     : Option FlashOp
  report : Nat
  failAddr : Nat
deriving DecidableEq, Repr

structure Flash where
  mem    : Mem
  /-- word index to programs since its erase, 1 or 2; 3 is the invalid marker (R427) -/
  marks  : NMap Nat
  /-- areas with undefined content: start and length (R429) -/
  undef  : List (Nat × Nat)
  bank0  : Bank
  bank1  : Bank
  /-- buffered lines by core: prefetch buffer, branch cache (R423) -/
  prefetch : NMap (List Nat)
  branch   : NMap (List Nat)
deriving DecidableEq, Repr

/-! ## Readiness and maintenance -/

/-- HUB_READY (R406). -/
structure Ready where
  mbx : Bool
  time : Bool
  slateW : Bool
  slateE : Bool
  arraysW : Bool
  arraysE : Bool
  boardMem : Bool
  spar : Bool
  codec : Bool
  tune : Bool
  attest : Bool
deriving DecidableEq, Repr

def Ready.reset : Ready :=
  { mbx := false, time := false, slateW := false, slateE := false, arraysW := false, arraysE := false,
    boardMem := false, spar := false, codec := false, tune := false, attest := false }

/-- A maintenance job (R390, R503): state 0 QUEUED, 1 RUNNING, 2 DONE, 3 CANCELLED, 4 FAILED. -/
structure Job where
  id       : Nat
  activity : Nat
  st       : Nat
  progress : Nat
  scope    : Nat
  seq      : Word
  start    : Nat
  finish   : Nat
  cmd      : Option Nat
  paused   : Bool
deriving DecidableEq, Repr

/-- A `SELFTEST` 0x00 in progress (R509, R510): its command, its arrays still to run, how many it named, and the failures so far. -/
structure BistRun where
  cmd   : Nat
  left  : List Nat
  total : Nat
  cells : Nat
  logic : Nat
deriving DecidableEq, Repr

/-- A `SELFTEST` 0x01 in progress (R510): its command, checks and ports. -/
structure AnalogRun where
  cmd    : Nat
  checks : BitVec 5
  ports  : Byte
deriving DecidableEq, Repr

structure Maint where
  /-- the last 64 jobs, newest first (R390) -/
  jobs    : List Job
  nextJob : Nat
  /-- self-tests of arrays, oldest first, and the arrays of the round in progress, which the oldest runs (R509) -/
  bist      : List BistRun
  bistRound : List Nat
  /-- analogue checks in progress, oldest first -/
  analog  : List AnalogRun
deriving DecidableEq, Repr

/-! ## The whole -/

/-- One array's partial sums of a normalisation statistic for one row (R131). -/
structure NormPart where
  array : Nat
  row   : Nat
  sx    : Word
  sq    : Word
deriving DecidableEq, Repr

/-- The EL4. -/
structure State where
  part   : Part
  ready  : Ready
  fmtSticky : BitVec 7
  /-- every counter block, by BAR0 offset of the word; a word not listed is 0 (R69, R106, R141, R189, R230, R288, R304, R331, R360, R488, R499) -/
  cnt    : NMap Nat
  /-- hub SRAM, activation stores and board memory, by DVA of their fixed views (R289) -/
  ram    : Mem
  /-- runs of `ram` whose content is undefined: first key, length, and the free value they draw from (R76, R224; log 6) -/
  ramUndef : List (Nat × Nat × Nat)
  /-- management SRAM, by byte offset (R25, R431) -/
  mgmt   : Mem
  mbx    : Mbx
  host   : HostIf
  tbu    : Tbu
  pwr    : Pwr
  err    : Err
  slate  : Slate
  plans  : NMap PlanRt
  arrs   : NMap Arr
  /-- stored exclusion mask (configuration store): global cell numbers (R138) -/
  exclStored : List Nat
  /-- norm statistic slots: handle x 4096 + slot to partials by array and row (R131, R250) -/
  norm   : NMap (List NormPart)
  /-- combined statistics: handle x 4096 + slot to (mu numerator, q numerator) sums by row -/
  normSum : NMap (NMap (Word × Word))
  /-- bytes of RAM that hold rows carrying reason bits: key, length, bits (log 30) -/
  taint  : List (Nat × Nat × Half)
  tiers  : Tiers
  models : Models
  codec  : Codec
  spar   : Spar
  sec    : Sec
  flash  : Flash
  maint  : Maint
  out    : List Out
  /-- MODEL FIELD: the number of free values drawn so far (log 6) -/
  free   : Nat
  /-- commands waiting, first in, first out -/
  pending : List Instr
deriving DecidableEq, Repr

/-- Why a command stops the model. No command of this model does; the type keeps one named reason
for a constructor that would act on a unit the spec gives no behaviour. -/
inductive Fault where
  /-- Raised by no meaning of this model. It would be safe: the run stops. -/
  | noBehaviour
deriving DecidableEq, Repr

/-- Why a command is refused. -/
inductive Refusal where
  /-- Raised by an arm of `exec` whose command has no meaning yet. Safe: the run stops. -/
  | notModelled (mnemonic : String)
deriving DecidableEq, Repr

def Mbx.reset : Mbx := { pairs := [], lastServed := 63, cmds := [], nextId := 0, quiet := false }

def HostIf.reset : HostIf :=
  { bar2Base := 0, bar2Lo := 0, bar2SizeLog2 := 30, msixEnable := false, unmasked := [], pba := [], dma := [],
    aerPoisoned := false, aerInternal := false }

def Tbu.reset : Tbu :=
  { now := 0, hiLatch := 0, locked := false, holdover := false, source := 0, refPresent := false, slewing := false,
    holdoverSeen := false, ppsPol := false, refEn := false, ppsDelay := 0, ppsRejects := 0, slewLeft := 0, slewFrom := 0,
    holdTo := none, lastEdge := none, lastAccepted := none, goodEdges := 0, takePhase := false, ppsSet := [] }

/-- The power controller at POR for a part of the given TDP (R482, R485, R486). -/
def Pwr.reset (tdp : Nat) : Pwr :=
  { state := .run, entry := none, pstate := 0, pFast := 0, waking := false, wakeStep := 0, capLimit := 0,
    thermLimit := 0, prochot := false, wakeN := false, thermtrip := false, capExceeded := false, capW := tdp,
    entBlock := 0, entReason := 0, entTarget := 0, entAborted := false, power := 0, tj := 0, ramp := none,
    halvings := 0, bistHeld := false, sinceMove := 10, belowTicks := 0, coolMs := 0, tick := 0, capSeen := false, hotSeen := false, pulseSeen := false,
    refused := [], held := [], due := [] }

def Err.reset : Err :=
  { fatalDev := false, fatalW := false, fatalE := false, fatalSlot := false, fatalGroup := false, overrun := false,
    dgSeen := false, ctSeen := false, vector := 0, irqEn := false, irqMin := 2, head := 0, tail := 0, entries := 0,
    ring := [], recSeq := 0, kept := none, waiting := [] }

def Slate.reset : Slate :=
  { lines := [], sbs := [], pbs := [], slot := 0, clock := 0, stackW := Stack.reset, stackE := Stack.reset, threshE8 := 600,
    relocBits := 5, periodH := 24, ckptS := 60, groups := [], relocs := [], recons := [], lastRead := [], recUsed := [], rings := [],
    repairLost := [], blocked := [], rebuilt := [], rereads := [] }

def Tiers.reset : Tiers :=
  { objs := [], hubUsed := [], boardUsed := [], migrs := [], lends := [], nextLend := 1, poison := [], named := [], rewrites := [], abandoned := [],
    trained := false, unavailable := false, rate := 0, density := 0, ranks2 := false, channels := 0, chFail := 0,
    stored := none }

def Models.reset : Models :=
  { slots := [], records := [], created := 0, stage := none, nextStage := 1, commit := none, adapters := [], streams := [], tunes := [], tuneGen := 0 }

def Codec.reset : Codec := { store := [], xfers := [], rx := [], tx := [] }

def Spar.reset : Spar :=
  { st := 0, member := 0, manager := 0, size := 0, torus := false, rows := 0, cols := 0, routeLong := false,
    memberLost := false, roleWorker := false, ports := [], members := [], routes := [], chanRx := [], chanTx := [],
    early := [], partMsg := [], waiting := [], heldSync := [], lastTime := 0, joinAck := false, forming := none, suspended := none, gused := [],
    contrib := [], waits := [], results := [] }

def Sec.reset : Sec :=
  { lifecycle := 0, bootLifecycle := 0, floor := 0, transitions := 0, identity := false, counter := 0,
    recovery := false, started := false, bootedCopy := false, secVersion := 0, fwVersion := 0, lastReset := 0, activeBad := false,
    stagingBad := false, rollback := false, copyResumed := false, watchdog := false, stagingOk := false,
    actTime := none, actDeferred := false, actRecord := false, recoveryReq := false, stageRun := false, written := [],
    delta := [], isDelta := false, lmsBlocks := 0, lmsNext := 0, lmsLeft := 0, doe := Spdm.reset, smbus := Spdm.reset,
    jtag := 1 }

def Bank.reset : Bank := { op := none, report := 0, failAddr := 0 }

def Flash.reset : Flash :=
  { mem := [], marks := [], undef := [], bank0 := Bank.reset, bank1 := Bank.reset, prefetch := [], branch := [] }

def Maint.reset : Maint :=
  { jobs := [], nextJob := 0, bist := [], bistRound := [], analog := [] }

/-- The part modelled at reset: an EL4-X; its manufacture values are DESIGN CHOICES (log 3). -/
def Part.reset : Part :=
  { variant := .x, serial := 0, stepping := 0, smbusAddr := 0x4E, fwEcdsaHash := [], fwLmsHash := [],
    ownEcdsaHash := [], ownLmsHash := [], vddOffset := 0 }

/-- The machine right after reset: power has been applied and no boot has run; every register is at its reset value. -/
def State.reset : State :=
  { part := Part.reset, ready := Ready.reset, fmtSticky := 0, cnt := [], ram := [], ramUndef := [], mgmt := [], mbx := Mbx.reset,
    host := HostIf.reset, tbu := Tbu.reset, pwr := Pwr.reset 300, err := Err.reset, slate := Slate.reset, plans := [],
    arrs := [], exclStored := [], norm := [], normSum := [], taint := [], tiers := Tiers.reset, models := Models.reset,
    codec := Codec.reset, spar := Spar.reset, sec := Sec.reset, flash := Flash.reset, maint := Maint.reset, out := [],
    free := 0, pending := [] }

end Sys2Proof.Machine
end

