-- ==== Sys2Proof/Machine/Ops.lean ====
section
/-! DEFINITION. Sys2Proof/Machine/Ops.lean: the plain containers of the state (number-keyed maps and byte memories), byte
order, checksums, and the named operations over the state that every family uses: outputs, counters, free values, time. -/

namespace Sys2Proof.Machine

/-! ## Number-keyed maps -/

/-- The value at a key. -/
def mget {α : Type} : NMap α → Nat → Option α
  | [], _ => none
  | (i, v) :: m, k => if i = k then some v else mget m k

/-- The value at a key, or the given one where the key is not listed. -/
def mgetD {α : Type} (m : NMap α) (k : Nat) (d : α) : α := (mget m k).getD d

/-- The map with the key at the value, keys kept in rising order. -/
def mset {α : Type} : NMap α → Nat → α → NMap α
  | [], k, v => [(k, v)]
  | (i, w) :: m, k, v => if k < i then (k, v) :: (i, w) :: m else if i = k then (k, v) :: m else (i, w) :: mset m k v

/-- The map without the key. -/
def mdel {α : Type} : NMap α → Nat → NMap α
  | [], _ => []
  | (i, w) :: m, k => if i = k then m else (i, w) :: mdel m k

/-- The map with the value at a listed key changed. -/
def mupd {α : Type} : NMap α → Nat → (α → α) → NMap α
  | [], _, _ => []
  | (i, w) :: m, k, f => if i = k then (i, f w) :: m else (i, w) :: mupd m k f

/-- Is the key listed? -/
def mhas {α : Type} (m : NMap α) (k : Nat) : Bool := (mget m k).isSome

/-- Every value changed by a function of key and value. -/
def mmap {α β : Type} (f : Nat → α → β) (m : NMap α) : NMap β := m.map (fun p => (p.1, f p.1 p.2))

/-- The lowest number below a bound, counted from `i`, that a test accepts. -/
def lowestFrom (p : Nat → Bool) : Nat → Nat → Option Nat
  | 0, _ => none
  | n + 1, i => if p i then some i else lowestFrom p n (i + 1)

/-- The lowest number below `n` that a test accepts. -/
def lowest (p : Nat → Bool) (n : Nat) : Option Nat := lowestFrom p n 0

/-- A number put into a list once. -/
def addOnce {α : Type} [DecidableEq α] (l : List α) (x : α) : List α := if x ∈ l then l else l ++ [x]

/-! ## Byte memories -/

/-- What a byte of RAM that nothing has written reads as. DESIGN CHOICE, unsafe (log 2): the spec gives no content. -/
def ramFill : Byte := 0x00
/-- An erased byte of the code flash (R421). -/
def flashFill : Byte := 0xFF

/-- A memory of this fill keeps its canonical form: rising addresses, no entry equal to the fill. -/
def Memory.wf (fill : Byte) : Mem → Bool
  | [] => true
  | [c] => c.2 != fill
  | c :: d :: m => (c.2 != fill) && decide (c.1 < d.1) && Memory.wf fill (d :: m)

/-- One byte. -/
def memGet (fill : Byte) : Mem → Nat → Byte
  | [], _ => fill
  | c :: m, a => if c.1 = a then c.2 else if a < c.1 then fill else memGet fill m a

/-- One byte written; writing the fill removes the entry. -/
def memSet (fill : Byte) : Mem → Nat → Byte → Mem
  | [], a, b => if b = fill then [] else [(a, b)]
  | c :: m, a, b =>
    if a < c.1 then (if b = fill then c :: m else (a, b) :: c :: m)
    else if c.1 = a then (if b = fill then m else (a, b) :: m)
    else c :: memSet fill m a b

/-- `n` bytes from an address on. -/
def memRead (fill : Byte) (m : Mem) (a : Nat) : Nat → Bytes
  | 0 => []
  | n + 1 => memGet fill m a :: memRead fill m (a + 1) n

/-- A run of bytes written from an address on. -/
def memWrite (fill : Byte) : Mem → Nat → Bytes → Mem
  | m, _, [] => m
  | m, a, b :: bs => memWrite fill (memSet fill m a b) (a + 1) bs

/-! ## Bytes and numbers -/

/-- The number that bytes spell, least significant first (00_scope, Conventions). -/
def leNat : Bytes → Nat
  | [] => 0
  | b :: bs => b.toNat + 256 * leNat bs

/-- A number as `n` bytes, least significant first. -/
def toLE : Nat → Nat → Bytes
  | 0, _ => []
  | n + 1, v => BitVec.ofNat 8 v :: toLE n (v / 256)

/-- `n` bytes at an offset of a byte string; bytes beyond its end read 0. -/
def slice (b : Bytes) (off n : Nat) : Bytes :=
  let t := (b.drop off).take n
  t ++ List.replicate (n - t.length) 0

/-- The little-endian number in `n` bytes at an offset. -/
def u (b : Bytes) (off n : Nat) : Nat := leNat (slice b off n)

/-- Bits `hi` down to `lo` of a number. -/
def bits (v hi lo : Nat) : Nat := (v >>> lo) % 2 ^ (hi + 1 - lo)
/-- One bit of a number. -/
def bit (v i : Nat) : Bool := Nat.testBit v i
/-- A flag as a number at a bit position. -/
def flag (b : Bool) (i : Nat) : Nat := if b then 2 ^ i else 0
/-- Do two's-complement fields of `w` bits read as this integer? -/
def sext (w v : Nat) : Int := if v < 2 ^ (w - 1) then (v : Int) else (v : Int) - 2 ^ w
/-- The two's-complement field of `w` bits of an integer. -/
def twos (w : Nat) (i : Int) : Nat := (i % (2 ^ w : Int)).toNat

/-- Division rounded up. -/
def cdiv (a b : Nat) : Nat := (a + b - 1) / b
/-- The next multiple of `b` at or above `a`. -/
def alignUp (a b : Nat) : Nat := cdiv a b * b

/-- One byte into a reflected CRC register of 32 bits. -/
def crcByte (poly : Word) (c : Word) (b : Byte) : Word :=
  (List.range 8).foldl (fun x _ => if x.getLsbD 0 then (x >>> 1) ^^^ poly else x >>> 1) (c ^^^ b.setWidth 32)

/-- A reflected 32-bit CRC, initial value and final exclusive-or all ones. -/
def crc (poly : Word) (b : Bytes) : Word := ~~~ (b.foldl (crcByte poly) 0xFFFFFFFF)
/-- CRC-32C (00_scope, Conventions). -/
def crc32c (b : Bytes) : Word := crc 0x82F63B78 b
/-- The CRC-32 of IEEE 802.3, as SLPF packages use it (R443). -/
def crc32 (b : Bytes) : Word := crc 0xEDB88320 b

/-- Bytes combined by exclusive or, position by position. -/
def xorBytes (a b : Bytes) : Bytes := List.zipWith (· ^^^ ·) a b

/-! ## Outputs, counters, free values, time -/

/-- A message leaves the device (log 4). -/
def emit (o : Out) (s : State) : State := { s with out := s.out ++ [o] }

/-- A counter word rises by `n` and saturates (R69, R106, R141, R189, R230, R288, R304, R331, R360, R488, R499). -/
def countBy (off n : Nat) (s : State) : State :=
  if n = 0 then s else { s with cnt := mset s.cnt off (min (mgetD s.cnt off 0 + n) 0xFFFFFFFF) }

/-- A counter word rises by one. -/
def count (off : Nat) (s : State) : State := countBy off 1 s

/-- Draws a free 32-bit value (log 6). -/
def drawWord (s : State) : Word × State := (Config.freeWord s.free, { s with free := s.free + 1 })

/-- Draws a number from the entropy source (R103). -/
def drawEntropy (s : State) : Word × State := (Config.entropy s.free, { s with free := s.free + 1 })

/-- `n` bytes the spec calls undefined (log 6). -/
def drawBytes (n : Nat) (s : State) : Bytes × State :=
  ((List.range n).map (Config.freeByte s.free), { s with free := s.free + 1 })

/-- System time has reached `t` (log 5): it never goes back. While `TBU_NOW` is held it does not go on either (R209). -/
def reachTime (t : Nat) (s : State) : State :=
  { s with tbu := { s.tbu with now := if s.tbu.holdTo.isSome then s.tbu.now else max s.tbu.now t } }

/-- A change of the state made at every number below `n`, lowest first. -/
def forUpto (n : Nat) (f : Nat → State → State) (s : State) : State := (List.range n).foldl (fun x i => f i x) s

/-- A change of the state made for every member of a list, in order. -/
def forEach {α : Type} (l : List α) (f : α → State → State) (s : State) : State := l.foldl (fun x a => f a x) s

/-! ## Waking -/

/-- R474, R480: a wake event starts an exit: from IDLE and SLEEP, and from DEEP_SLEEP where the event is one of its own. -/
def wakeEvent (deep : Bool) (s : State) : State :=
  if s.pwr.state = .idle ∨ s.pwr.state = .sleep ∨ (deep = true ∧ s.pwr.state = .deepSleep) then
    { s with pwr := { s.pwr with state := .run, waking := true, wakeStep := 0 } }
  else s

/-! ## The part -/

/-- TDP in watts (R1, R2). -/
def Variant.tdp : Variant → Nat
  | .x => 300
  | .m => 260
  | .s => 220

/-- Spar ports fitted (R1). -/
def Variant.ports : Variant → Nat
  | .x => 8
  | .m => 4
  | .s => 0

/-- Board-memory channels fitted (R1). -/
def Variant.channels : Variant → Nat
  | .x => 32
  | _ => 16

/-- User blocks of a sub-bank (R17). -/
def Variant.userBlocks : Variant → Nat
  | .x => 32
  | _ => 16

/-- Reserve blocks of a sub-bank (R17). -/
def Variant.reserveBlocks : Variant → Nat
  | .x => 4
  | _ => 2

/-- Code of the `variant` field (R2). -/
def Variant.code : Variant → Nat
  | .x => 1
  | .m => 2
  | .s => 3

/-- Is the tuning unit fitted (R2)? -/
def Variant.tune (v : Variant) : Bool := v = .x

/-- `codec_tiers`: bit 0 Spar, bit 1 board (R2). -/
def Variant.codecTiers : Variant → Nat
  | .s => 2
  | _ => 3

end Sys2Proof.Machine
end

