-- ==== Sys2Proof/Machine/Num.lean ====
section
/-! DEFINITION. Sys2Proof/Machine/Num.lean: the narrow codes, binary32, bfloat16 and their roundings, computed exactly on
numbers m x 2^e with integers m and e (chapters 02 and 03). -/

namespace Sys2Proof.Machine

/-- An exact number, m x 2^e. -/
structure Dy where
  m : Int
  e : Int
deriving DecidableEq, Repr

/-- An integer as an exact number. -/
def dy (m : Int) : Dy := ⟨m, 0⟩
/-- Exact sum. -/
def Dy.add (a b : Dy) : Dy :=
  let e := min a.e b.e
  ⟨a.m * 2 ^ (a.e - e).toNat + b.m * 2 ^ (b.e - e).toNat, e⟩
/-- Exact product. -/
def Dy.mul (a b : Dy) : Dy := ⟨a.m * b.m, a.e + b.e⟩
/-- Exact negation. -/
def Dy.neg (a : Dy) : Dy := ⟨-a.m, a.e⟩
/-- Exact magnitude. -/
def Dy.abs (a : Dy) : Dy := ⟨a.m.natAbs, a.e⟩
/-- Exact comparison. -/
def Dy.le (a b : Dy) : Bool := decide (0 ≤ (b.add a.neg).m)
/-- Exact strict comparison. -/
def Dy.lt (a b : Dy) : Bool := !(b.le a)
/-- The largest integer not above a magnitude. -/
def Dy.floor (a : Dy) : Nat :=
  if 0 ≤ a.e then a.m.natAbs * 2 ^ a.e.toNat else a.m.natAbs / 2 ^ (-a.e).toNat

/-- Bits in a number: 0 for 0. -/
def size (n : Nat) : Nat := if n = 0 then 0 else Nat.log2 n + 1

/-- n x 2^e rounded to nearest, ties to even, with `p` significant bits and no bit below 2^emin. -/
def rne (p : Nat) (emin : Int) (n : Nat) (e : Int) : Nat × Int :=
  let sh := max (size n - p) (emin - e).toNat
  if sh = 0 then (n, e)
  else
    let q := n >>> sh
    let r := n % 2 ^ sh
    let half := 2 ^ (sh - 1)
    (if half < r || (r = half && q % 2 = 1) then q + 1 else q, e + sh)

/-- n x 2^e rounded upward to `p` significant bits. -/
def ceilTo (p n : Nat) (e : Int) : Nat × Int :=
  let sh := size n - p
  (cdiv n (2 ^ sh), e + sh)

/-- The magnitude of a / b, with a last bit that is 1 when the quotient goes on: enough bits for one rounding. -/
def quot (a b : Dy) : Nat × Int :=
  let k := 28 + size b.m.natAbs
  let n := a.m.natAbs * 2 ^ k
  (2 * (n / b.m.natAbs) + (if n % b.m.natAbs = 0 then 0 else 1), a.e - b.e - k - 1)

/-! ## binary32 and bfloat16 patterns -/

/-- Sign bit of a binary32 pattern. -/
def fSign (w : Word) : Bool := w.getLsbD 31
/-- Exponent field. -/
def fExp (w : Word) : Nat := bits w.toNat 30 23
/-- Fraction field. -/
def fFrac (w : Word) : Nat := bits w.toNat 22 0
/-- NaN? -/
def fNan (w : Word) : Bool := fExp w = 255 && fFrac w != 0
/-- Infinity? -/
def fInf (w : Word) : Bool := fExp w = 255 && fFrac w = 0
/-- Finite? -/
def fFinite (w : Word) : Bool := fExp w != 255
/-- Zero of either sign? -/
def fZero (w : Word) : Bool := w.toNat % 2 ^ 31 = 0
/-- The magnitude pattern. -/
def fAbs (w : Word) : Word := w &&& 0x7FFFFFFF
/-- A zero of the given sign. -/
def fZeroOf (neg : Bool) : Word := if neg then 0x80000000 else 0

/-- The exact value of a finite pattern. -/
def fVal (w : Word) : Dy :=
  let mag : Nat := if fExp w = 0 then fFrac w else 2 ^ 23 + fFrac w
  ⟨if fSign w then -(mag : Int) else mag, if fExp w = 0 then -149 else (fExp w : Int) - 150⟩

/-- The exact value of a finite bfloat16 pattern. -/
def bVal (h : Half) : Dy := fVal (h.setWidth 32 <<< 16)
/-- A bfloat16 pattern widened to binary32. -/
def bWide (h : Half) : Word := h.setWidth 32 <<< 16

/-- The binary32 pattern of a rounded nonzero magnitude at or above 2^-126 and below 2^128. -/
def fPack (neg : Bool) (n : Nat) (e : Int) : Word :=
  let l := Nat.log2 n
  let frac := (if l ≤ 23 then n <<< (23 - l) else n >>> (l - 23)) % 2 ^ 23
  BitVec.ofNat 32 (flag neg 31 + (e + l + 127).toNat * 2 ^ 23 + frac)

/-- Is the magnitude below 2^-126? -/
def belowMin (n : Nat) (e : Int) : Bool := Dy.lt ⟨n, e⟩ ⟨1, -126⟩

/-- R59: an exact sum or product stored as a binary32 result, with the mark of a saturation. `zneg` is the sign of a zero. -/
def accRes (zneg : Bool) (x : Dy) : Word × Bool :=
  if x.m = 0 then (fZeroOf zneg, false)
  else
    let neg := decide (x.m < 0)
    if Dy.le ⟨2 ^ 25 - 1, 103⟩ x.abs then (if neg then 0xFF7FFFFF else 0x7F7FFFFF, true)
    else
      let r := rne 24 (-149) x.m.natAbs x.e
      if belowMin r.1 r.2 then (fZeroOf neg, false) else (fPack neg r.1 r.2, false)

/-- R59, R61: a binary32 pattern plus an exact product. A product of zero is +0. -/
def accAdd (w : Word) (p : Dy) : Word × Bool := accRes false ((fVal w).add p)

/-- R59, R61: the sum of two binary32 patterns; only two negative zeros give a negative zero. -/
def fAdd (a b : Word) : Word × Bool :=
  accRes (fSign a && fSign b) ((fVal a).add (fVal b))

/-- R59: the product of a binary32 pattern and a scale; a zero keeps the sign of the exact value in the IEEE manner. -/
def fMulBy (a : Word) (s : Dy) : Word × Bool :=
  accRes (Bool.xor (fSign a) (decide (s.m < 0))) ((fVal a).mul s)

/-- R62: binary32 to bfloat16, with the mark of a saturation counted in `bf16_sat`. -/
def toBf16 (w : Word) : Half × Bool :=
  let sg : Nat := flag (fSign w) 15
  if fNan w then (BitVec.ofNat 16 (sg + 0x7FC0), false)
  else if fInf w then (BitVec.ofNat 16 (sg + 0x7F7F), true)
  else
    let m := (fAbs w).toNat
    let r := (m + 0x7FFF + m / 65536 % 2) / 65536
    if r < 0x80 then (BitVec.ofNat 16 sg, false)
    else if 0x7F7F < r then (BitVec.ofNat 16 (sg + 0x7F7F), true)
    else (BitVec.ofNat 16 (sg + r), false)

/-- R79, R80, R99: the smallest bfloat16 value not less than a positive quotient, at least 2^-126. -/
def bf16Up (a b : Dy) : Half :=
  let q := quot a b
  let c := ceilTo 8 q.1 q.2
  if belowMin c.1 c.2 then 0x0080
  else
    let l := Nat.log2 c.1
    BitVec.ofNat 16 ((c.2 + l + 127).toNat * 128 + (if l ≤ 7 then c.1 <<< (7 - l) else c.1 >>> (l - 7)) % 128)

/-- R94: a magnitude rounded upward to the next bfloat16 value and limited to 0x7F7F. -/
def bf16MaxUp (w : Word) : Half := BitVec.ofNat 16 (min (((fAbs w).toNat + 0xFFFF) / 65536) 0x7F7F)

/-- R52: is a bfloat16 code a valid row scale? -/
def validScale (h : Half) : Bool := decide (0x0080 ≤ h.toNat) && decide (h.toNat ≤ 0x7F7F)

/-! ## Element and scale codes -/

/-- R38: an INT4 code. -/
def int4Val (c : Nat) : Int := sext 4 (c % 16)
/-- R41: twice the value of an F4 code. -/
def f4Val2 (c : Nat) : Int :=
  let mag : Int := match c % 8 with
    | 0 => 0 | 1 => 1 | 2 => 2 | 3 => 3 | 4 => 4 | 5 => 6 | 6 => 8 | _ => 12
  if 8 ≤ c % 16 then -mag else mag
/-- R44: a W2 code. -/
def w2Val (c : Nat) : Int := sext 2 (c % 4)
/-- R44: a T2 code; the reserved code is used as 0. -/
def t2Val (c : Nat) : Int := match c % 4 with | 1 => 1 | 3 => -1 | _ => 0
/-- R54: an INT8 code; 0x80 is used as -127. -/
def int8Val (c : Nat) : Int := if c % 256 = 0x80 then -127 else sext 8 (c % 256)

/-- The DPU integer of an operand code of a 4-bit format (R38, R41). -/
def act4 (f4 : Bool) (c : Nat) : Int := if f4 then f4Val2 c else int4Val c

/-- R49: a UE8M0 code; `none` is NaN. -/
def ue8m0 (b : Byte) : Option Dy := if b = 0xFF then none else some ⟨1, (b.toNat : Int) - 127⟩

/-- R50: an E4M3 code; `none` is NaN. A zero of either sign is 0. -/
def e4m3 (b : Byte) : Option Dy :=
  let v := b.toNat % 128
  if v = 127 then none
  else
    let mag : Dy := if v < 8 then ⟨v, -9⟩ else ⟨8 + (v % 8 : Nat), (v / 8 : Nat) - 10⟩
    some (if 128 ≤ b.toNat then mag.neg else mag)

/-- R37: the block scale of a model's format. -/
def blockScale (isE4m3 : Bool) (b : Byte) : Option Dy := if isE4m3 then e4m3 b else ue8m0 b

/-- R46: code `j` of `w` bits packed from the least significant end. -/
def codeAt (w : Nat) (b : Bytes) (j : Nat) : Nat :=
  ((b.getD (j * w / 8) 0).toNat >>> (j * w % 8)) % 2 ^ w

/-- R46, R48: codes of `w` bits packed into bytes from the least significant end. -/
def packCodes4 : List Nat → Bytes
  | [] => []
  | [a] => [BitVec.ofNat 8 (a % 16)]
  | a :: b :: l => BitVec.ofNat 8 (a % 16 + 16 * (b % 16)) :: packCodes4 l

/-! ## Rounding to codes -/

/-- A quantised element: its code and what it was counted as (R84, R86). -/
structure QElem where
  code : Nat
  sat  : Bool
  inf  : Bool
  nan  : Bool
deriving DecidableEq, Repr

/-- R84 step 3: the quotient x / s rounded to binary32, as a magnitude; `none` is infinite. -/
def quot32 (x s : Dy) : Option Dy :=
  let q := quot x s
  let r := rne 24 (-149) q.1 q.2
  if Dy.le ⟨1, 128⟩ ⟨r.1, r.2⟩ then none
  else if belowMin r.1 r.2 then some ⟨0, 0⟩
  else some ⟨r.1, r.2⟩

/-- R85: F4 code magnitude of a quotient below 7, nearest with ties away from zero. -/
def f4Nearest (q : Dy) : Nat :=
  let t := ((dy 4).mul q).floor
  if t < 1 then 0 else if t < 3 then 1 else if t < 5 then 2 else if t < 7 then 3
  else if t < 10 then 4 else if t < 14 then 5 else if t < 20 then 6 else 7

/-- The nearest integer to a magnitude, ties away from zero. -/
def nearestAway (q : Dy) : Nat := (q.add ⟨1, -1⟩).floor

/-- A signed code of a magnitude in a two's-complement format of `w` bits (R85). -/
def twosCode (w : Nat) (neg : Bool) (m : Nat) : Nat := if neg then (2 ^ w - m) % 2 ^ w else m
/-- A signed F4 code; a zero magnitude is always code 0x0 (R42). -/
def f4Code (neg : Bool) (m : Nat) : Nat := if m = 0 then 0 else if neg then 8 + m else m

/-- R84 for integer codes of `w` bits with magnitude at most `qmax` (7 for INT4, 127 for Vein). -/
def quantInt (w qmax : Nat) (x : Word) (s : Dy) : QElem :=
  if fNan x then ⟨0, false, false, true⟩
  else if fInf x then ⟨twosCode w (fSign x) qmax, false, true, false⟩
  else match quot32 (fVal x) s with
    | none => ⟨twosCode w (fSign x) qmax, true, false, false⟩
    | some q =>
      if Dy.le ⟨2 * (qmax : Int) + 1, -1⟩ q then ⟨twosCode w (fSign x) qmax, true, false, false⟩
      else ⟨twosCode w (fSign x) (nearestAway q), false, false, false⟩

/-- R84 for F4 codes. -/
def quantF4 (x : Word) (s : Dy) : QElem :=
  if fNan x then ⟨0, false, false, true⟩
  else if fInf x then ⟨f4Code (fSign x) 7, false, true, false⟩
  else match quot32 (fVal x) s with
    | none => ⟨f4Code (fSign x) 7, true, false, false⟩
    | some q =>
      if Dy.le (dy 7) q then ⟨f4Code (fSign x) 7, true, false, false⟩
      else ⟨f4Code (fSign x) (f4Nearest q), false, false, false⟩

/-- R77: the largest magnitude pattern among finite elements; 0 where there is none. -/
def maxAbs (l : List Word) : Word :=
  l.foldl (fun m x => if fFinite x && decide (m.toNat < (fAbs x).toNat) then fAbs x else m) 0

/-! ## Stochastic rounding and tuning codes -/

/-- R103: one step of a generator. -/
def xorshift (st : Word) : Word :=
  let a := st ^^^ (st <<< 13)
  let b := a ^^^ (a >>> 17)
  b ^^^ (b <<< 5)

/-- R103: the seed of a unit's generator. -/
def seedUnit (seed : Word) (unit : Nat) : Word :=
  let st := seed ^^^ (0x9E3779B9 * BitVec.ofNat 32 (unit + 1))
  if st = 0 then 1 else st

/-- R103: the 16-bit draw of a generator's new state. -/
def drawOf (st : Word) : Nat := st.toNat / 65536

/-- R102: between the code magnitudes `a` and `b`, does a draw round the quotient up? -/
def roundsUp (q a b : Dy) (r : Nat) : Bool :=
  Dy.le b (q.add ((b.add a.neg).mul ⟨r, -16⟩))

/-- The value of an F4 magnitude code. -/
def f4Mag (c : Nat) : Dy := ⟨f4Val2 (c % 8), -1⟩

/-- R102 for F4 codes: the code and the generator's state after it. -/
def stochF4 (x : Word) (s : Dy) (gen : Word) : QElem × Word :=
  if fNan x then (⟨0, false, false, true⟩, gen)
  else if fInf x then (⟨f4Code (fSign x) 7, false, true, false⟩, gen)
  else match quot32 (fVal x) s with
    | none => (⟨f4Code (fSign x) 7, true, false, false⟩, gen)
    | some q =>
      if Dy.le (dy 7) q then (⟨f4Code (fSign x) 7, true, false, false⟩, gen)
      else
        let a := ((List.range 8).filter (fun c => Dy.le (f4Mag c) q)).getLastD 0
        if Dy.le q (f4Mag a) then (⟨f4Code (fSign x) a, false, false, false⟩, gen)
        else
          let g := xorshift gen
          -- above 6 and below 7 the grid ends; the saturation rule keeps 6 there
          let up := decide (a < 7) && roundsUp q (f4Mag a) (f4Mag (a + 1)) (drawOf g)
          (⟨f4Code (fSign x) (if up then a + 1 else a), false, false, false⟩, g)

/-- The value of an E4M3 magnitude code below 0x7F. -/
def e4m3Mag (c : Nat) : Dy := (e4m3 (BitVec.ofNat 8 (c % 128))).getD ⟨0, 0⟩

/-- The largest E4M3 magnitude code, at most `n`, whose value is not above q. -/
def e4m3Below (q : Dy) : Nat → Nat
  | 0 => 0
  | n + 1 => if Dy.le (e4m3Mag (n + 1)) q then n + 1 else e4m3Below q n

/-- R102, R64 for E4M3 elements: the code, whether it saturated, and the generator's state. A quotient between 448 and 464 has no
upper neighbour in the grid: it takes a draw and stays at 448, uncounted: DESIGN CHOICE (log 17). -/
def stochE4m3 (x : Word) (s : Dy) (gen : Word) : QElem × Word :=
  let sg : Nat := flag (fSign x) 7
  if fNan x then (⟨0, false, false, true⟩, gen)
  else if fInf x then (⟨sg + 0x7E, false, true, false⟩, gen)
  else match quot32 (fVal x) s with
    | none => (⟨sg + 0x7E, true, false, false⟩, gen)
    | some q =>
      if Dy.le (dy 464) q then (⟨sg + 0x7E, true, false, false⟩, gen)
      else
        let a := e4m3Below q 0x7E
        let put (c : Nat) : Nat := if c = 0 then 0 else sg + c
        if Dy.le q (e4m3Mag a) then (⟨put a, false, false, false⟩, gen)
        else
          let g := xorshift gen
          let up := decide (a < 0x7E) && roundsUp q (e4m3Mag a) (e4m3Mag (a + 1)) (drawOf g)
          (⟨put (if up then a + 1 else a), false, false, false⟩, g)

/-- R101: the UE8M0 code of the smallest power of two not less than max-abs / qmax; 0 gives 0x7F. -/
def pow2Scale (mx : Word) (qmax : Nat) : Byte :=
  if fZero mx then 0x7F
  else
    let q := quot (fVal mx) (dy qmax)
    let c := ceilTo 1 q.1 q.2
    let e := c.2 + Nat.log2 c.1 + 127
    BitVec.ofNat 8 (min e.toNat 0xFE)

/-- R101: the E4M3 code of the smallest value not less than max-abs / 7, limited to 0x01-0x7E; 0 gives 0x38. -/
def e4m3Scale (mx : Word) : Byte :=
  if fZero mx then 0x38
  else BitVec.ofNat 8 (((List.range 0x7E).map (· + 1)).find? (fun c => Dy.le (fVal mx) ((e4m3Mag c).mul (dy 7))) |>.getD 0x7E)

end Sys2Proof.Machine
end

