-- ==== Sys2Proof/Machine/Bounds.lean ====
section
/-! DEFINITION. Sys2Proof/Machine/Bounds.lean: the exact functions of the post unit in fixed point, against which the error
bounds of its free results are imposed (R130). -/

namespace Sys2Proof.Machine

/-! ## Fixed point -/

/-- Fraction bits: far more than any bound of R130 asks. -/
def fixBits : Nat := 320
/-- 1.0 -/
def fixOne : Int := 2 ^ fixBits
/-- An exact number in fixed point, rounded down. -/
def fixOf (x : Dy) : Int :=
  let e := x.e + fixBits
  if 0 ≤ e then x.m * 2 ^ e.toNat else x.m / 2 ^ (-e).toNat
/-- A fixed-point number as an exact one. -/
def fixDy (a : Int) : Dy := ⟨a, -(fixBits : Int)⟩
/-- A product. -/
def fixMul (a b : Int) : Int := a * b / fixOne
/-- A quotient. -/
def fixDiv (a b : Int) : Int := a * fixOne / b
/-- 2 pi. -/
def fixTwoPi : Int := 13420802360424337830311681948440006481608388178854297901454212848703426437343610760199000777828079

/-- Terms r^k / k! for k below `n`. -/
def powerTerms (r : Int) : Nat → Nat → Int → List Int
  | 0, _, _ => []
  | n + 1, k, t => t :: powerTerms r n (k + 1) (fixMul t r / (k + 1))

/-- e^x, for x between -100 and 100: e^(x/1024), squared ten times. -/
def fixExp (x : Int) : Int :=
  (List.range 10).foldl (fun s _ => fixMul s s) ((powerTerms (x / 1024) 40 0 fixOne).foldl (· + ·) 0)

/-- sin x and cos x. -/
def fixSinCos (x : Int) : Int × Int :=
  let t := powerTerms (x % fixTwoPi) 128 0 fixOne
  let sum (j : Nat) : Int := (((List.range t.length).zip t).filter (fun p => decide (p.1 % 4 = j))).foldl (fun s p => s + p.2) 0
  (sum 1 - sum 3, sum 0 - sum 2)

/-- Terms of the series of the normal distribution function: x^(2k+1) / (2^k k! (2k+1)) with alternating sign. -/
def normalTerms (x2 : Int) : Nat → Nat → Int → List Int
  | 0, _, _ => []
  | n + 1, k, t => (if k % 2 = 0 then t / (2 * k + 1) else -(t / (2 * k + 1))) :: normalTerms x2 n (k + 1) (fixMul t x2 / (2 * (k + 1)))

/-- The normal distribution function, for x between -8 and 8. -/
def fixNormal (x : Int) : Int :=
  let c : Int := Nat.sqrt (2 ^ (2 * fixBits) / fixTwoPi.toNat * 2 ^ fixBits)
  fixOne / 2 + fixMul c ((normalTerms (fixMul x x) 200 0 x).foldl (· + ·) 0)

/-- a / sqrt(d) for a positive d, to 190 bits. -/
def overRoot (a d : Dy) : Dy :=
  let k : Nat := 400 + if d.e % 2 = 0 then 0 else 1
  let r := Nat.sqrt (d.m.natAbs * 2 ^ k)
  ⟨a.m * 2 ^ 400 / (r : Int), a.e - 400 - (d.e - k) / 2⟩

/-! ## A free result within a bound -/

/-- What fixed point itself may err by. -/
def fixErr : Dy := ⟨1, -290⟩

/-- A free result that lies within `tol` of the exact value; where it does not, the exact value rounded (R130; log 61). -/
def nearTo (free : Word) (exact_ tol : Dy) : Word :=
  if fFinite free && Dy.le ((fVal free).add exact_.neg).abs (tol.add fixErr) then free else (accRes false exact_).1

/-- A number times 2^-n, as a magnitude: a relative bound. -/
def Dy.part (x : Dy) (n : Nat) : Dy := ⟨x.abs.m, x.e - n⟩

/-- e^d within 2^-16 of it, for d from -87 to 0; below that the bound does not hold (R130). -/
def nearExp (free : Word) (d : Dy) : Word :=
  if Dy.lt d (dy (-87)) then free else let t := fixDy (fixExp (fixOf d)); nearTo free t (t.part 16)

/-- e^d / sum within 2^-14 of it. -/
def nearSoftmax (free : Word) (d : Dy) (sum : Word) : Word :=
  if Dy.lt d (dy (-87)) || fZero sum then free
  else let t := fixDy (fixDiv (fixExp (fixOf d)) (fixOf (fVal sum))); nearTo free t (t.part 14)

/-- The absolute bound of SILU and GELU: 2^-14 x max(1, |x|). -/
def unitBound (x : Dy) : Dy := if Dy.le (dy 1) x.abs then x.part 14 else ⟨1, -14⟩

/-- x / (1 + e^-x), for x between -20 and 16. -/
def nearSilu (free : Word) (x : Dy) : Word :=
  let e := fixExp (-(fixOf x.abs))
  let t := if 0 ≤ x.m then fixDiv (fixOf x) (fixOne + e) else fixDiv (fixMul (fixOf x) e) (fixOne + e)
  nearTo free (fixDy t) (unitBound x)

/-- x times the normal distribution function of x, for x between -8 and 8. -/
def nearGelu (free : Word) (x : Dy) : Word :=
  let v := fixOf x
  nearTo free (fixDy (fixMul v (fixNormal v))) (unitBound x)

/-- (x - mu) gamma / sqrt(v) + beta within 2^-20 of it. -/
def nearNorm (free : Word) (prod v beta : Dy) : Word :=
  let p := overRoot prod v
  let t := p.add beta
  nearTo free t ((t.part 20).add (p.part 150))

/-- A rotated element, x cos t + y sin t: the bound on sin t and cos t holds for positions below 2^24 (R130); one rounding of each
product and of the sum is allowed beside it. DEDUCED (log 61). -/
def nearRotated (free : Word) (pos : Nat) (om x y : Dy) : Word :=
  if 2 ^ 24 ≤ pos then free
  else
    let sc := fixSinCos (fixOf ((dy pos).mul om))
    let t := (x.mul (fixDy sc.2)).add (y.mul (fixDy sc.1))
    nearTo free t (((x.abs.add y.abs).part 20).add ((x.abs.add y.abs).part 22))

end Sys2Proof.Machine
end

