-- ==== Sys2Proof/Machine/Report.lean ====
section
/-! DEFINITION. Sys2Proof/Machine/Report.lean: how the device reports: interrupts (R400), error records (R489-R499),
and the location kinds of their details (R492). -/

namespace Sys2Proof.Machine

/-! ## Interrupts -/

/-- R400: an interrupt is raised on a vector; masked or disabled, it stays in the PBA. -/
def raiseVector (v : Nat) (s : State) : State :=
  if s.host.msixEnable && decide (v ∈ s.host.unmasked) then emit (.msix v) s
  else { s with host := { s.host with pba := addOnce s.host.pba v } }

/-! ## Location kinds (R492) -/

/-- `detail` padded with zeros to its 32 bytes. -/
def detail32 (b : Bytes) : Bytes := slice b 0 32
/-- LINE: line address, model slot, sub-bank 0-8, Slate object identifier. -/
def detLine (addr slot k objId : Nat) : Bytes :=
  detail32 (toLE 4 addr ++ toLE 1 slot ++ toLE 1 k ++ toLE 2 0 ++ toLE 8 objId)
/-- SUBBANK: array, cell, sub-bank, physical and logical block (0xFF for none). -/
def detSubbank (a c k pb lb : Nat) : Bytes := detail32 (toLE 1 a ++ toLE 2 c ++ toLE 1 k ++ toLE 1 pb ++ toLE 1 lb)
/-- GROUP: array, sub-bank index, logical block. -/
def detGroup (a k lb : Nat) : Bytes := detail32 (toLE 1 a ++ toLE 1 k ++ toLE 1 lb)
/-- CELL: array, cell, accumulator entry (0xFFFF for none). -/
def detCell (a c e : Nat) : Bytes := detail32 (toLE 1 a ++ toLE 2 c ++ toLE 2 e)
/-- ENGINE: engine, word or entry index, plan handle. -/
def detEngine (e idx h : Nat) : Bytes := detail32 (toLE 1 e ++ toLE 3 0 ++ toLE 4 idx ++ toLE 1 h)
/-- OBJECT: identifier, DVA, units or pages. -/
def detObject (id dva n : Nat) : Bytes := detail32 (toLE 8 id ++ toLE 8 dva ++ toLE 4 n)
/-- CHANNEL: source and destination member, port, codec instance (0xFF for none). -/
def detChannel (src dst port inst : Nat) : Bytes := detail32 (toLE 1 src ++ toLE 1 dst ++ toLE 1 port ++ toLE 1 inst)
/-- ACCESS: offset and BAR, value, DVA. -/
def detAccess (bar off value dva : Nat) : Bytes :=
  detail32 (toLE 4 (off % 2 ^ 28 + bar * 2 ^ 28) ++ toLE 4 value ++ toLE 8 dva)

/-! ## Error records -/

/-- Class code (R489). -/
def ErrClass.code : ErrClass → Nat
  | .ce => 0
  | .ct => 1
  | .dg => 2
  | .ft => 3

/-- What a record says besides its class and code; fields left out are 0. -/
structure RecInfo where
  detail : Bytes := []
  scope  : Nat := 0
  planId : Dword := 0
  cmdSeq : Word := 0
  status : Nat := 0
  /-- details of continuation entries -/
  conts  : List Bytes := []
  /-- detection time, where it is earlier than the record (R116) -/
  time   : Option Nat := none

/-- The counter word of a class (R499). -/
def errCnt (i : Nat) : Nat := 0x40020 + 4 * i

/-- The index of the newest entry. -/
def Err.newest (e : Err) : Nat := (e.tail + 255) % 256

/-- R500: a follow-up waits, merged into a waiting one of the same code and location. -/
def addFollowUp (f : FollowUp) (l : List FollowUp) : List FollowUp :=
  if l.any (fun g => decide (g.code = f.code) && decide (g.detail = f.detail)) then l else l ++ [f]

/-- Entries written at the tail, in order. -/
def Err.push : Err → List ErrEntry → Err
  | e, [] => e
  | e, x :: l => Err.push { e with ring := mset e.ring e.tail x, tail := (e.tail + 1) % 256, entries := e.entries + 1 } l

/-- R494: may a corrected-class record merge into the newest entry? -/
def Err.merges (e : Err) (cls : ErrClass) (code : Nat) (det : Bytes) (now : Nat) : Bool :=
  decide (cls = .ce) && decide (0 < e.entries) &&
  match mget e.ring e.newest with
  | some x => decide (x.code = code) && decide (x.detail = det) && !x.cont && decide (now ≤ x.time + 1000000)
  | none => false

/-- R494: one more occurrence in the newest entry. -/
def Err.merge (e : Err) : Err :=
  { e with ring := mupd e.ring e.newest (fun x => { x with count := min (x.count + 1) 0xFFFF }) }

/-- R495, R496: is a new record of a class written: is an entry free, or the newest entry of no higher class? -/
def Err.takes (e : Err) (cls : ErrClass) : Bool :=
  decide (e.entries < 256) || match mget e.ring e.newest with | some y => decide (y.cls.code ≤ cls.code) | none => false

/-- R495, R496: where the entries of a new record go, with the mark of a lost record. -/
def Err.place (e : Err) (x : ErrEntry) (conts : List ErrEntry) : Err × Bool :=
  let free := 256 - e.entries
  if free = 0 then
    match mget e.ring e.newest with
    | some y => if y.cls.code ≤ x.cls.code then ({ e with ring := mset e.ring e.newest x }, true) else (e, true)
    | none => (e, true)
  else if conts.length < free then (e.push (x :: conts), false)
  else (e.push [x], false)

/-- R491-R500: an error record is written, with its counters, sticky bits, interrupt, AER report and follow-up. -/
def record (cls : ErrClass) (code : Nat) (i : RecInfo) (s : State) : State :=
  let det := detail32 i.detail
  let s := count (errCnt cls.code) s
  if s.err.merges cls code det s.tbu.now then
    count (errCnt 6) { s with err := s.err.merge }
  else
    let x : ErrEntry :=
      { recSeq := s.err.recSeq, cls := cls, cont := false, prior := false, scope := if cls = .ft then i.scope else 0,
        code := code, time := i.time.getD s.tbu.now, planId := i.planId, cmdSeq := i.cmdSeq, status := i.status, count := 1, detail := det }
    let ct (d : Bytes) : ErrEntry :=
      { recSeq := s.err.recSeq, cls := cls, cont := true, prior := false, scope := 0, code := 0, time := 0, planId := 0,
        cmdSeq := 0, status := 0, count := 0, detail := detail32 d }
    let p := s.err.place x (i.conts.map ct)
    let e : Err :=
      { p.1 with
        recSeq := (s.err.recSeq + 1) % 2 ^ 32
        overrun := p.1.overrun || p.2
        dgSeen := p.1.dgSeen || (decide (cls = .dg) && s.err.takes cls)
        ctSeen := p.1.ctSeen || (decide (cls = .ct) && s.err.takes cls)
        kept := if cls = .ft then some x else p.1.kept
        waiting := addFollowUp ⟨cls, code, det⟩ p.1.waiting }
    let s := { s with err := e }
    let s := if p.2 then count 0x40010 s else s
    let s := if e.irqEn && (decide (e.irqMin.toNat ≤ cls.code) || decide (cls = .ft)) then raiseVector e.vector.toNat s else s
    if cls = .ft then emit .aerInternal { s with host := { s.host with aerInternal := true } } else s

/-- Record 0x0504 `HOST_ACCESS` (R493). -/
def hostAccess (bar off value dva : Nat) (s : State) : State :=
  record .ce 0x0504 { detail := detAccess bar off value dva } s

/-- R450, R451: has the time of an activation that no stage session defers come? -/
def State.activating (s : State) : Bool :=
  match s.sec.actTime with
  | some t => decide (t ≤ s.tbu.now) && !s.sec.actDeferred && s.models.stage.isNone
  | none => false

/-- R438: is the device in a warm restart: Bedrock has started the firmware, which has not set `mbx` yet? The rest of the restart
is one row (log 102). -/
def State.restarting (s : State) : Bool := s.sec.started && !s.ready.mbx && decide (2 ≤ s.sec.lastReset)

/-- R471: a host access is held until the exit is complete. -/
def holdAccess (x : HostAcc) (s : State) : State := { s with pwr := { s.pwr with held := s.pwr.held ++ [x] } }

/-- R438: an access during a warm restart: a write is discarded and logged, and a read of BAR0 returns 0. -/
def restartAccess (x : HostAcc) (bar off value : Nat) (k : State → State) (s : State) : State :=
  match x with
  | .write _ _ _ => hostAccess bar off value 0 s
  | .bar2 true _ _ _ => hostAccess bar off value 0 s
  | .bar2 false _ _ _ => k s
  | .poisoned _ _ => k s
  | .timeRead => emit (.readData (toLE 4 0)) s

/-- R471, R472: a host access to BAR0 or BAR2 that needs the device awake. In IDLE and SLEEP it wakes the device and is
held until the exit is complete, as every access during an exit is (log 65); in DEEP_SLEEP it is refused and recorded later; in OFF
the link is down (R473). `x` is the access, `k` what it does. -/
def busAccess (x : HostAcc) (bar off value : Nat) (k : State → State) (s : State) : State :=
  match s.pwr.state with
  | .run => if s.pwr.waking then holdAccess x s else if s.restarting then restartAccess x bar off value k s else k s
  | .idle => holdAccess x (wakeEvent false s)
  | .sleep => holdAccess x (wakeEvent false s)
  | .deepSleep => emit .unsupportedRequest { s with pwr := { s.pwr with refused := s.pwr.refused ++ [(bar, off, value)] } }
  | .off => s

end Sys2Proof.Machine
end

