-- ==== Sys2Proof/Machine/Link.lean ====
section
/-! DEFINITION. Sys2Proof/Machine/Link.lean: Spar routes and the link layer of a port (R339-R342): which port a flit takes,
the replay buffer, and what waits for a route. -/

namespace Sys2Proof.Machine

/-! ## Ports -/

/-- A port. -/
def State.port (s : State) (p : Nat) : Port := mgetD s.spar.ports p Port.reset
/-- A change of a port. -/
def updPort (p : Nat) (f : Port → Port) (s : State) : State :=
  { s with spar := { s.spar with ports := mset s.spar.ports p (f (s.port p)) } }
/-- Port states (R359). -/
def portDown : Nat := 0
def portTraining : Nat := 1
def portUp : Nat := 2
def portFailed : Nat := 3
/-- The ports that are UP. -/
def State.upPorts (s : State) : List Nat := (List.range s.part.variant.ports).filter (fun p => decide ((s.port p).st = portUp))
/-- Counter word `w` of a port (R360). -/
def sprCnt (p w : Nat) : Nat := 0x60100 + 32 * p + 4 * w

/-- The members of the group in ascending order, this device among them (R332). -/
def State.groupList (s : State) : List Nat := (List.range 64).filter (fun m => decide (m = s.spar.member) || mhas s.spar.members m)
/-- The other members of the group that are not LOST. -/
def State.otherMembers (s : State) : List Nat := (s.spar.members.filter (fun m => decide (m.1 ≠ s.spar.member) && decide (m.2.st ≠ 2))).map (·.1)

/-! ## Routes (R338, R342) -/

/-- R342: one hop along a ring of n: the shorter way, + on a tie. -/
def ringHop (x y n : Nat) : Nat := if 2 * ((y + n - x) % n) ≤ n then (x + 1) % n else (x + n - 1) % n
/-- Hops along a ring of n. -/
def ringDist (x y n : Nat) : Nat := min ((y + n - x) % n) ((x + n - y) % n)

/-- R338, R342: the neighbour on the way from a member to another in an unbroken topology: x first, then y. -/
def State.nextHop (s : State) (me dst : Nat) : Nat :=
  if s.spar.torus then
    let c := s.spar.cols
    let x := me % c
    let y := me / c
    if x ≠ dst % c then ringHop x (dst % c) c + y * c
    else if y ≠ dst / c then x + ringHop y (dst / c) s.spar.rows * c
    else dst
  else dst

/-- Hops from a member to another in an unbroken topology. -/
def State.hopsTo (s : State) (a b : Nat) : Nat :=
  if s.spar.torus then
    let c := s.spar.cols
    ringDist (a % c) (b % c) c + ringDist (a / c) (b / c) s.spar.rows
  else if a = b then 0 else 1

/-- The UP ports that lead on to a member: those to the neighbour that the manager's route table names, else to the next hop. -/
def State.portsTo (s : State) (dst : Nat) : List Nat :=
  let hop := match mget s.spar.routes dst with
    | some p => (s.port p).peer
    | none => s.nextHop s.spar.member dst
  s.upPorts.filter (fun p => decide ((s.port p).peer = hop))

/-- R342: the port of a flit; messages alternate between the ports of a pair, by `chan_seq`. DEDUCED (log 45). -/
def State.portFor (s : State) (f : TxFlit) : Option Nat :=
  let l := s.portsTo f.dst
  l[f.chanSeq % l.length]?

/-! ## Sending (R339, R340) -/

/-- The replay buffer's flits (R340). -/
def replayFlits : Nat := 512

/-- R339: the last flit that a port has received in order. -/
def Port.lastIn (x : Port) : Nat := (x.rxSeq + 4095) % 4096

/-- A flit leaves on a port: it takes the port's next sequence number and is kept until it is acknowledged. -/
def portSend (p : Nat) (f : TxFlit) (s : State) : State :=
  let n := (s.port p).txSeq
  emit (.spar p n (s.port p).lastIn f) (updPort p (fun x => { x with txSeq := (n + 1) % 4096, replay := x.replay ++ [(n, f)] }) s)

/-- R339: is a flit a priority flit? -/
def TxFlit.prio (f : TxFlit) : Bool := decide (f.typ ≠ 1)

/-- A flit is sent, or waits for its route, for room in the replay buffer, or behind an earlier flit for the same member. A priority
flit goes ahead of DATA that waits (R339). -/
def routeFlit (f : TxFlit) (s : State) : State :=
  let wait (s : State) : State := { s with spar := { s.spar with waiting := s.spar.waiting ++ [f] } }
  match s.portFor f with
  | none => wait s
  | some p =>
    if decide (replayFlits ≤ (s.port p).replay.length) || s.spar.waiting.any (fun g => decide (g.dst = f.dst) && (g.prio || !f.prio)) then wait s
    else portSend p f s

/-- What waits is tried again, in order, priority flits first (R339). -/
def flushWaiting (s : State) : State :=
  forEach (s.spar.waiting.filter TxFlit.prio ++ s.spar.waiting.filter (fun f => !f.prio)) routeFlit { s with spar := { s.spar with waiting := [] } }

/-- The `type` of the flit that carries a message (R339). -/
def SparMsg.typ : SparMsg → Nat
  | .data _ => 1
  | .nak _ => 3
  | .sync _ => 4
  | .time _ => 5
  | .status _ => 6
  | _ => 7

/-- A flit of this device with a message that is not channel data. -/
def State.flitOf (s : State) (dst : Nat) (m : SparMsg) : TxFlit :=
  { typ := m.typ, dst := dst, src := s.spar.member, chanSeq := 0, eom := false, msg := m }

/-- A message to a member. Outside a group no route is known, and it goes out on every UP port (log 45). -/
def sendTo (m : Nat) (x : SparMsg) (s : State) : State :=
  let f := s.flitOf m x
  if s.spar.st = 0 ∨ s.spar.st = 3 then forEach s.upPorts (fun p s => portSend p f s) s else routeFlit f s

/-- A message to every other member of the group, if there is one. -/
def toOthers (x : SparMsg) (s : State) : State :=
  if s.spar.st = 1 ∨ s.spar.st = 2 then forEach s.otherMembers (fun m s => sendTo m x s) s else s

/-- The flits of a message's bytes: 240 to a flit, the last with `eom` (R339). -/
def cutFlits (b : Bytes) : List (Bytes × Bool) :=
  let n := max 1 (cdiv b.length 240)
  (List.range n).map (fun i => ((b.drop (240 * i)).take 240, decide (i + 1 = n)))

/-- A channel message to a member (R280, R343). -/
def sendMsg (m : Nat) (b : Bytes) (s : State) : State :=
  let n := mgetD s.spar.chanTx m 0
  forEach (cutFlits b) (fun x s => routeFlit { typ := 1, dst := m, src := s.spar.member, chanSeq := n, eom := x.2, msg := .data x.1 } s)
    { s with spar := { s.spar with chanTx := mset s.spar.chanTx m ((n + 1) % 65536) } }

end Sys2Proof.Machine
end

