-- ==== Sys2Proof/Machine/Slate.lean ====
section
/-! DEFINITION. Sys2Proof/Machine/Slate.lean: the Slate's stored lines, its translation layer, lost lines, relocations,
maintenance jobs and checkpoints (chapter 05, R500-R505). -/

namespace Sys2Proof.Machine

/-! ## Addresses and stored lines -/

/-- Sub-bank number: array, cell, sub-bank 0-8. -/
def sbKey (a c k : Nat) : Nat := (a * 1024 + c) * 9 + k
/-- Number of a physical block. -/
def pbKey (sb pb : Nat) : Nat := sb * 64 + pb
/-- Number of a physical line. -/
def lnKey (sb pb line : Nat) : Nat := pbKey sb pb * 256 + line

/-- A line address (R18). -/
structure LineAddr where
  a  : Nat
  c  : Nat
  k  : Nat
  lb : Nat
  ln : Nat
deriving DecidableEq, Repr

/-- The fields of a line address (R18). -/
def lineAddr (v : Nat) : LineAddr := ⟨bits v 31 26, bits v 25 16, bits v 15 13, bits v 12 8, bits v 7 0⟩
/-- A line address from its fields (R18). For the parity sub-bank the field is that of sub-bank 0. -/
def lineAddrOf (a c k lb ln : Nat) : Nat := a * 2 ^ 26 + c * 2 ^ 16 + k % 8 * 2 ^ 13 + lb * 2 ^ 8 + ln

/-- Physical blocks of a sub-bank (R17, R173). -/
def physBlocks (v : Variant) : Nat := v.userBlocks + v.reserveBlocks

/-- The live map of a sub-bank. -/
def State.sb (s : State) (sb : Nat) : SbSt := mgetD s.slate.sbs sb SbSt.reset
/-- A change of the live map of a sub-bank. -/
def updSb (sb : Nat) (f : SbSt → SbSt) (s : State) : State :=
  { s with slate := { s.slate with sbs := mset s.slate.sbs sb (f (s.sb sb)) } }
/-- A physical block. -/
def State.pb (s : State) (pb : Nat) : PbSt := mgetD s.slate.pbs pb PbSt.reset
/-- A change of a physical block. -/
def updPb (pb : Nat) (f : PbSt → PbSt) (s : State) : State :=
  { s with slate := { s.slate with pbs := mset s.slate.pbs pb (f (s.pb pb)) } }

/-- The counter word `i` of an array in `SLT_CNT` (R189). -/
def sltCnt (a i : Nat) : Nat := 0x50800 + 32 * a + 4 * i

/-- The metadata word (R143). -/
def metaWord (lblock slot kind erases : Nat) : Bytes :=
  toLE 4 (lblock % 64 + slot % 16 * 64 + kind % 8 * 1024 + erases % 65536 * 65536)
/-- The metadata of a stored line; a parity line's own metadata follows its 72 bytes (R144). -/
def SLine.meta (l : SLine) (k : Nat) : Nat := u l.bytes (if k = 8 then 72 else 68) 4
/-- R148: does the metadata name another logical block, a reserved kind, or the wrong kind for the sub-bank? -/
def misdirected (m k lb : Nat) : Bool :=
  decide (bits m 5 0 ≠ lb) || decide (6 ≤ bits m 12 10) || (decide (bits m 12 10 = 3) != decide (k = 8))

/-- The fill line of a logical block (R143). -/
def fillLine (lb slot erases : Nat) : SLine := ⟨List.replicate 68 0 ++ metaWord lb slot 5 erases⟩

/-- The substitute line of R156: a row-scaled line keeps a scale of 1.0. -/
def substitute (rowScaled : Bool) : Bytes :=
  List.replicate 64 0 ++ (if rowScaled then [0x80, 0x3F, 0, 0] else [0, 0, 0, 0])

/-- The stored line at a logical position, where its block is mapped and the line programmed. -/
def State.stored (s : State) (a c k lb ln : Nat) : Option SLine :=
  match mget (s.sb (sbKey a c k)).map lb with
  | some pb => mget s.slate.lines (lnKey (sbKey a c k) pb ln)
  | none => none

/-- What a read of a line delivers to a latch (R148, R156, R533). -/
inductive Delivered where
  /-- the 68 bytes of the line -/
  | line (b : Bytes)
  /-- the substitute of a lost line -/
  | lost
  /-- the substitute of a line whose logical block is unmapped -/
  | unmapped
deriving DecidableEq, Repr

/-- Bytes 0-71 of a line that a stripe read gets (R149): none where the sub-bank has failed, the line is lost, its block is
unmapped, or its metadata fails R148. A line that no program has written carries no metadata. DEDUCED (log 21). -/
def State.lineOk (s : State) (a c k lb ln : Nat) : Option Bytes :=
  let b := s.sb (sbKey a c k)
  if b.failed || decide (lb * 256 + ln ∈ b.lost) then none
  else match s.stored a c k lb ln with
    | some l => if misdirected (l.meta k) k lb then none else some (slice l.bytes 0 72)
    | none => none

/-- R158: has any sub-bank of a cell failed? -/
def State.cellFailed (s : State) (a c : Nat) : Bool := (List.range 9).any (fun k => (s.sb (sbKey a c k)).failed)

/-- R149, R155: a data line rebuilt from the other eight lines of its stripe; `bad` names sub-banks whose stripe read
proved uncorrectable or misdirected. -/
def State.rebuilt (s : State) (a c k lb ln : Nat) (bad : List Nat) : Option Bytes :=
  let others := ((List.range 9).filter (· ≠ k)).map (fun j => if j ∈ bad then none else s.lineOk a c j lb ln)
  if s.cellFailed a c || others.any (·.isNone) then none
  else
    let x := others.foldl (fun acc b => xorBytes acc (b.getD [])) (List.replicate 72 0)
    if misdirected (u x 68 4) k lb then none else some x

/-- Bytes 0-71 that a read of a line serves: the line, or what its stripe gives; none where it is lost (R148, R149, R158). -/
def State.served (s : State) (a c k lb ln : Nat) : Option Bytes :=
  let b := s.sb (sbKey a c k)
  if b.failed || decide (lb * 256 + ln ∈ b.lost) then none
  else match s.lineOk a c k lb ln with
    | some l => some l
    | none => s.rebuilt a c k lb ln []

/-- R148, R149, R156, R158, R533: what a plan read delivers. -/
def State.delivered (s : State) (a c k lb ln : Nat) : Delivered :=
  if !mhas (s.sb (sbKey a c k)).map lb then .unmapped
  else match s.served a c k lb ln with
    | some l => .line (l.take 68)
    | none => .lost

/-! ## The Slate's clock (R145) -/

/-- Units of the Slate's clock in a nanosecond: with 208, every slot phase and array cycle is a whole number. -/
def clockNs : Nat := 208
/-- A slot (R145). -/
def slotLen : Nat := 200 * clockNs
/-- When slot `n` of sub-bank `k` begins: the parity sub-bank's 12.5 ns after that of sub-bank 0 (R145). -/
def slotStart (n k : Nat) : Nat := n * slotLen + if k = 8 then 25 * clockNs / 2 else k * 25 * clockNs
/-- An array cycle at a P-state: 1.6, 1.3, 1.0 and 0.8 GHz (R15). -/
def arrayCycle (p : Nat) : Nat :=
  match p with
  | 0 => 130
  | 1 => 160
  | 2 => 208
  | _ => 260
/-- The Slate's clock has reached a time. -/
def reachClock (t : Nat) (s : State) : State := { s with slate := { s.slate with clock := max s.slate.clock t } }

/-- Is the array's stack mounted normally (R178)? -/
def State.mountedAt (s : State) (a : Nat) : Bool := if a < 32 then s.slate.stackW.mounted else s.slate.stackE.mounted

/-- One of the two stacks: 0 West, 1 East. -/
def State.stack (s : State) (i : Nat) : Stack := if i = 0 then s.slate.stackW else s.slate.stackE
/-- A change of one of the two stacks. -/
def updStack (i : Nat) (f : Stack → Stack) (s : State) : State :=
  if i = 0 then { s with slate := { s.slate with stackW := f s.slate.stackW } }
  else { s with slate := { s.slate with stackE := f s.slate.stackE } }
/-- Does a sub-bank belong to a stack? -/
def inStack (i sb : Nat) : Bool := decide (sb / (9 * 1024 * 32) = i)

/-- The model slot whose committed layout holds a logical block (R305); 0xFF where none does. -/
def State.ownerOf (s : State) (a k lb : Nat) : Nat :=
  match s.models.slots.find? (fun p => mhas p.2.tags ((a * 8 + k) * 32 + lb)) with
  | some p => p.1
  | none => 0xFF

/-- A change of a model slot. -/
def updSlot (i : Nat) (f : Slot → Slot) (s : State) : State :=
  { s with models := { s.models with slots := mset s.models.slots i (f (mgetD s.models.slots i Slot.reset)) } }

/-- R157: a loss is recorded against a model slot. -/
def slotLoses (i : Nat) (s : State) : State := if i < 16 then updSlot i (fun m => { m with lost := true }) s else s

/-! ## Maintenance jobs (R390, R503) -/

/-- Is an instance of an activity queued or running in a scope? -/
def State.jobActive (s : State) (act scope : Nat) : Bool :=
  s.maint.jobs.any (fun j => decide (j.activity = act) && decide (j.scope = scope) && decide (j.st < 2))

/-- Is an instance of an activity running in a scope? -/
def State.jobRunning (s : State) (act scope : Nat) : Bool :=
  s.maint.jobs.any (fun j => decide (j.activity = act) && decide (j.scope = scope) && decide (j.st = 1))

/-- The last 64 jobs, newest first, and the older ones that have not ended (R390, R503). -/
def keepJobs (l : List Job) : List Job := l.take 64 ++ (l.drop 64).filter (fun j => decide (j.st < 2))

/-- Jobs QUEUED or RUNNING. -/
def State.activeJobs (s : State) : Nat := s.maint.jobs.countP (fun j => decide (j.st < 2))

/-- A job is added, newest first: the last 64 are kept (R390), and older ones until they end (R503). -/
def addJob (act scope : Nat) (running : Bool) (seq : Word) (cmd : Option Nat) (s : State) : State :=
  let j : Job := { id := s.maint.nextJob % 0xFFFF, activity := act, st := if running then 1 else 0, progress := 0,
                   scope := scope, seq := seq, start := if running then s.tbu.now else 0, finish := 0, cmd := cmd,
                   paused := false }
  { s with maint := { s.maint with jobs := keepJobs (j :: s.maint.jobs), nextJob := s.maint.nextJob + 1 } }

/-- A device-started activity: merged into a running instance of its scope (R503). -/
def deviceJob (act scope : Nat) (s : State) : State :=
  if s.jobActive act scope then s else addJob act scope true 0 none s

/-- Every active job of an activity and scope ends in a state: 2 DONE, 3 CANCELLED, 4 FAILED. -/
def endJobs (p : Job → Bool) (st : Nat) (s : State) : State :=
  { s with maint := { s.maint with jobs := s.maint.jobs.map (fun j =>
      if p j && decide (j.st < 2) then { j with st := st, finish := s.tbu.now, progress := if st = 2 then 100 else j.progress } else j) } }

/-- Every active job of an activity and scope ends. -/
def endJob (act scope st : Nat) (s : State) : State :=
  endJobs (fun j => decide (j.activity = act) && decide (j.scope = scope)) st s

/-! ## Free blocks and relocations (R171, R172, R181) -/

/-- Does any programmed line lie in a physical block? -/
def State.programmed (s : State) (pbk : Nat) : Bool := s.slate.lines.any (fun p => decide (p.1 / 256 = pbk))

/-- Is a physical block a relocation target or staged, and so spoken for? -/
def State.reserved (s : State) (sb pb : Nat) : Bool :=
  s.slate.relocs.any (fun r => r.target.any (fun t => decide (sbKey r.array t.1 r.k = sb) && decide (t.2 = pb))) ||
  match s.models.stage with
  | some g => g.blocks.any (fun b => decide (b.sb = sb) && decide (b.pb = pb))
  | none => false

/-- A free physical block that can be programmed: unmapped, unretired, erased, not spoken for. -/
def State.freeBlock (s : State) (sb pb : Nat) : Bool :=
  let b := s.sb sb
  !b.failed && !(b.map.any (fun p => decide (p.2 = pb))) && !decide (pb ∈ b.retired) && !s.programmed (pbKey sb pb) &&
  !(s.pb (pbKey sb pb)).erasing && !(s.pb (pbKey sb pb)).programming && !s.reserved sb pb

/-- The free block taken: the lowest one. DESIGN CHOICE (log 22). -/
def State.takeBlock (s : State) (sb : Nat) : Option Nat := lowest (s.freeBlock sb) (physBlocks s.part.variant)
/-- How many free blocks a sub-bank has. -/
def State.freeBlocks (s : State) (sb : Nat) : Nat :=
  ((List.range (physBlocks s.part.variant)).filter (s.freeBlock sb)).length

/-- The cells of an array whose sub-bank maps a logical block and has not failed (R158). -/
def State.cellsMapping (s : State) (a k lb : Nat) : List Nat :=
  (s.slate.sbs.filter (fun p => decide (p.1 / 9 / 1024 = a) && decide (p.1 % 9 = k) && mhas p.2.map lb && !p.2.failed)).map
    (fun p => p.1 / 9 % 1024)

/-- R501: the cells whose block a relocation copies. -/
def Reloc.cells (r : Reloc) (s : State) : List Nat :=
  match r.cell with
  | some c => [c]
  | none => s.cellsMapping r.array r.k r.lblock

/-- Target blocks are allocated for a relocation; a cell with none free leaves it queued (R172). -/
def allocTargets (r : Reloc) (s : State) : Reloc × List Nat :=
  (r.cells s).foldl
    (fun (p : Reloc × List Nat) c =>
      if mhas p.1.target c then p
      else match s.takeBlock (sbKey r.array c r.k) with
        | some pb => ({ p.1 with target := mset p.1.target c pb }, p.2)
        | none => (p.1, p.2 ++ [c])) (r, [])

/-- R172: a sub-bank that cannot relocate for want of a free block is recorded. -/
def noBlockLeft (a c k lb : Nat) (s : State) : State := record .dg 0x0108 { detail := detSubbank a c k 0xFF lb } s

/-- R181: a relocation is queued. One already queued for the block, whose copy has not begun, takes the higher priority and
serves both causes; a sub-bank that has failed takes none (R158). -/
def queueReloc (pri : Nat) (cause : RelocCause) (a : Nat) (cell : Option Nat) (k lb : Nat) (cmd : Option Nat) (s : State) : State :=
  let same (r : Reloc) : Bool := decide (r.array = a) && decide (r.cell = cell) && decide (r.k = k) && decide (r.lblock = lb) &&
    r.copied.isEmpty && r.lines.isEmpty
  if (match cell with | some c => (s.sb (sbKey a c k)).failed | none => false) then s
  else if s.slate.relocs.any same then
    { s with slate := { s.slate with relocs := s.slate.relocs.map (fun r =>
        if same r then { r with pri := min r.pri pri, causes := addOnce r.causes cause } else r) } }
  else
    let r0 : Reloc := { pri := pri, causes := [cause], array := a, cell := cell, k := k, lblock := lb, target := [], lines := [],
                        pulses := [], copied := [], repl := [], cmd := cmd }
    let p := allocTargets r0 s
    let s := { s with slate := { s.slate with relocs := s.slate.relocs ++ [p.1] } }
    deviceJob 1 2 (forEach p.2 (fun c s => noBlockLeft a c k lb s) s)

/-- Relocations that a test picks are dropped; their targets are left to GC. -/
def dropRelocs (p : Reloc → Bool) (s : State) : State :=
  { s with slate := { s.slate with relocs := s.slate.relocs.filter (fun r => !p r) } }

/-- Does a relocation repair the sub-bank (R501)? -/
def Reloc.repairs (r : Reloc) (a c k : Nat) : Bool :=
  decide (r.array = a) && decide (r.k = k) && (decide (r.cell = some c) || (decide (r.cell = none) && mhas r.target c))

/-- R157: every model with a line in a sub-bank has lost data. -/
def subbankLoses (a c k : Nat) (s : State) : State :=
  forEach (s.sb (sbKey a c k)).map (fun p s => slotLoses (s.ownerOf a k p.1) s) s

/-- R158: a sub-bank is marked failed, with the record named: every line of it is lost to the models that hold any; its jobs and
relocations end (R507). -/
def failSubbank (a c k : Nat) (code lb : Nat) (s : State) : State :=
  let s := subbankLoses a c k (updSb (sbKey a c k) (fun b => { b with failed := true }) s)
  let s := dropRelocs (fun r => decide (r.array = a) && decide (r.cell = some c) && decide (r.k = k)) s
  let s := { s with slate := { s.slate with relocs := s.slate.relocs.map (fun r =>
             if decide (r.array = a) && decide (r.cell = none) && decide (r.k = k) then { r with target := mdel r.target c } else r) } }
  record .dg code { detail := detSubbank a c k 0xFF lb } s

/-- R501: an error of class CT or above in a sub-bank aborts a repair in progress there. -/
def abortRepair (a c k lb : Nat) (s : State) : State :=
  if s.slate.relocs.any (fun r => r.repairs a c k) && !(s.sb (sbKey a c k)).failed then
    count (errCnt 5) (failSubbank a c k 0x0A01 lb s)
  else s

/-- R155, R156, R158: a data or parity line is lost. `own` says that the repair's own read found it (R501). -/
def loseLine (a c k lb ln : Nat) (own : Bool) (s : State) : State :=
  let sb := sbKey a c k
  let b := s.sb sb
  if b.failed || decide (lb * 256 + ln ∈ b.lost) then s
  else
    let s := count (sltCnt a 3) s
    let owner := s.ownerOf a k lb
    let s := record .ct 0x0102 { detail := detLine (lineAddrOf a c k lb ln) owner k 0 } s
    let s := if b.lost.length < 4 then updSb sb (fun b => { b with lost := b.lost ++ [lb * 256 + ln] }) s
             else failSubbank a c k 0x0107 lb s
    let s := slotLoses owner s
    if own then s else abortRepair a c k lb s

/-! ## Copies (R159, R160, R181) -/

/-- The metadata of a line moved to a block with other erase count. -/
def withErases (l : Bytes) (k erases : Nat) : SLine :=
  let off := if k = 8 then 72 else 68
  ⟨l.take (off + 2) ++ toLE 2 (erases % 65536)⟩

/-- R144, R160: the parity bytes of a stripe as its eight data lines stand. -/
def State.parityOf (s : State) (a c lb ln : Nat) : Bytes :=
  (List.range 8).foldl
    (fun acc k => match s.stored a c k lb ln with
      | some l => xorBytes acc (slice l.bytes 0 72)
      | none => acc) (List.replicate 72 0)

/-- The content that a relocation's copy takes for one line (R153, R154, R159-R161): its replacement where the command brought
one, parity formed anew, the reconstructed content where a read has been reconstructed, the old block's line, or what its stripe
gives; none where the line is lost or cannot be formed. -/
def State.copySource (s : State) (r : Reloc) (c ln : Nat) : Option Bytes :=
  match mget r.repl ln with
  | some b => some b
  | none =>
    if r.k = 8 && (decide (.parity ∈ r.causes) || (s.lineOk r.array c 8 r.lblock ln).isNone) then
      some (s.parityOf r.array c r.lblock ln ++ metaWord r.lblock 0 3 0)
    else
      let kept := match mget (s.sb (sbKey r.array c r.k)).map r.lblock with
        | some pb => mget s.slate.rebuilt (lnKey (sbKey r.array c r.k) pb ln)
        | none => none
      match kept with
      | some b => some b
      | none =>
        if r.k = 8 then (s.stored r.array c 8 r.lblock ln).map (·.bytes)
        else match s.lineOk r.array c r.k r.lblock ln with
          | some l => some l
          | none => if decide (r.lblock * 256 + ln ∈ (s.sb (sbKey r.array c r.k)).lost) then none
                    else s.rebuilt r.array c r.k r.lblock ln []

/-- The line a relocation's copy writes into a physical block. A lost line leaves a fill line: it is read no more (R156). -/
def State.copyLine (s : State) (r : Reloc) (c pb ln : Nat) : SLine :=
  let erases := (s.pb (pbKey (sbKey r.array c r.k) pb)).erases
  match s.copySource r c ln with
  | some b => withErases b r.k erases
  | none => fillLine r.lblock 0 erases

/-- The lines that a relocation's copy finds lost (R155, R159). -/
def State.copyLoses (s : State) (r : Reloc) (c : Nat) : List Nat :=
  (List.range 256).filter (fun ln => (s.copySource r c ln).isNone)

/-- 256 lines are programmed into a physical block in ascending order (R165). -/
def programBlock (sb pb : Nat) (f : Nat → SLine) (s : State) : State :=
  { s with slate := { s.slate with lines := (List.range 256).foldl (fun m ln => mset m (lnKey sb pb ln) (f ln)) s.slate.lines } }

/-- R166, R172: a program or erase has failed: its block is retired, counted and recorded. -/
def retireBlock (a c k pb lb : Nat) (s : State) : State :=
  let s := updSb (sbKey a c k) (fun b => { b with retired := addOnce b.retired pb }) s
  record .ce 0x0106 { detail := detSubbank a c k pb lb } (count (sltCnt a 7) s)

/-- R181: relocations in the order in which they are served: by priority, the older first. -/
def byPriority (l : List Reloc) : List Reloc :=
  (List.range 5).flatMap (fun p => l.filter (fun r => decide (r.pri = p)))

/-- R172: relocations that lack a target take the free blocks there now are, in order of priority; the others stay queued. -/
def retryTargets (s : State) : State :=
  forEach (byPriority s.slate.relocs)
    (fun r s =>
      let p := allocTargets r s
      { s with slate := { s.slate with relocs := s.slate.relocs.map (fun x => if x = r then p.1 else x) } }) s

/-! ## Checkpoints (R173-R178) -/

/-- The 64 payload bytes of a sub-bank's record line (R173). -/
def recordLine (v : Variant) (b : SbSt) (seq : Nat) : Bytes :=
  let map := (List.range 32).foldl (fun t l => t + (if l < v.userBlocks then mgetD b.map l 63 else 63) * 2 ^ (6 * l)) 0
  let lost := (List.range 4).flatMap (fun i => toLE 2 (match b.lost[i]? with | some x => 2 ^ 15 + x | none => 0))
  let head := toLE 24 map ++ toLE 5 (b.retired.foldl (fun t p => t + 2 ^ p) 0) ++ toLE 1 (flag b.failed 0) ++ toLE 2 0 ++ lost ++ toLE 8 seq
  head ++ toLE 4 (crc32c head).toNat ++ toLE 12 0

/-- The map that a record line holds; none where the line is unreadable (R173). -/
def parseRecord (v : Variant) (b : Bytes) : Option SbSt :=
  let map := u b 0 24
  let at_ (l : Nat) : Nat := map / 2 ^ (6 * l) % 64
  let named := ((List.range 32).filter (fun l => decide (at_ l ≠ 63))).map (fun l => (l, at_ l))
  let retired := (List.range 40).filter (fun p => bit (u b 24 5) p)
  let lost := (List.range 4).map (fun i => u b (32 + 2 * i) 2)
  if decide ((crc32c (slice b 0 48)).toNat = u b 48 4) &&
     named.all (fun p => decide (p.2 < physBlocks v) && decide (p.1 < v.userBlocks) && !decide (p.2 ∈ retired)) &&
     decide ((named.map (·.2)).Nodup) && retired.all (fun p => decide (p < 36)) && decide (u b 29 1 < 2) && decide (u b 30 2 = 0) &&
     lost.all (fun x => decide (bits x 14 13 = 0)) && decide (u b 52 12 = 0) then
    some { map := named, retired := retired, failed := bit (u b 29 1) 0,
           lost := (lost.filter (fun x => bit x 15)).map (fun x => bits x 12 0) }
  else none

/-- The 64 payload bytes of a commit line (R175). -/
def commitLine (seq : Nat) (final : Bool) (now : Nat) : Bytes :=
  let head := toLE 8 seq ++ toLE 4 294912 ++ toLE 1 (flag final 0) ++ toLE 3 0 ++ toLE 8 now ++ toLE 24 0
  head ++ toLE 4 (crc32c head).toNat ++ toLE 12 0

/-- R177: is a commit line valid at a sequence? -/
def commitOk (seq : Nat) (b : Bytes) : Bool :=
  decide ((crc32c (slice b 0 48)).toNat = u b 48 4) && decide (u b 0 8 = seq) && decide (u b 12 1 < 2) && decide (u b 13 3 = 0) &&
  decide (u b 24 24 = 0) && decide (u b 52 12 = 0)

/-- R174: a disturb line: the counts of 32 groups in units of 2 x 10^6 reads. -/
def State.disturbLine (s : State) (ak : Nat) : Bytes :=
  (List.range 32).flatMap (fun l => toLE 2 (min (cdiv (mgetD s.slate.groups (ak * 32 + l) 0) 2000000) 0xFFFF))

/-- R174: the disturb lines of a stack's arrays that count any read, by array x 9 + sub-bank. -/
def State.disturbOf (s : State) (i : Nat) : NMap Bytes :=
  ((List.range (32 * 9)).map (· + i * (32 * 9))).filterMap (fun ak =>
    if s.slate.groups.any (fun p => decide (p.1 / 32 = ak) && decide (0 < p.2)) then some (ak, s.disturbLine ak) else none)

/-- The checkpoint sequence after every one that a mirror of either stack holds. The two stacks share it, so that one
sequence names a commit's checkpoint on both. DEDUCED (log 37). -/
def State.nextSeq (s : State) : Nat :=
  max (max s.slate.stackW.mirA.seq s.slate.stackW.mirB.seq) (max s.slate.stackE.mirA.seq s.slate.stackE.mirB.seq) + 1

/-- R178: the translation layer of a stack is re-initialised: every block unmapped. -/
def clearMaps (i : Nat) (s : State) : State :=
  { s with slate := { s.slate with
      sbs := s.slate.sbs.map (fun p => if inStack i p.1 then (p.1, { p.2 with map := [], lost := [] }) else p)
      relocs := s.slate.relocs.filter (fun r => decide (r.array / 32 ≠ i)) } }

/-- R175, R176: the lines of a checkpoint begin to be written into a mirror: its highest sequence is now this one, with no commit
line yet. Before the 81st, its system blocks are erased, and the other mirror alone holds the map until the lines are written. -/
def Mirror.begin (m : Mirror) (seq : Nat) : Mirror :=
  if 80 ≤ m.count then { Mirror.reset with erases := m.erases + 1 } else { m with seq := seq, commits := [], unread := [] }

/-- R175: a checkpoint of a stack starts, its first lines going into mirror A. One already in progress serves the request too
while mirror A is not yet written; after that, a request that must record the map of now (`must`) waits for another one. -/
def askCkpt (i : Nat) (must final reinit : Bool) (cmd : Option (Nat × Nat)) (s : State) : State :=
  let s := if reinit then clearMaps i s else s
  match (s.stack i).ckpt with
  | some c =>
    let c' : Ckpt :=
      if c.aDone && must then
        { c with again := some (final || (match c.again with | some x => x.1 | none => false),
                                (match c.again with | some x => x.2 | none => []) ++ cmd.toList) }
      else if c.aDone then c
      else { c with final := c.final || final, cmds := c.cmds ++ cmd.toList, reinit := c.reinit || reinit,
                    snap := s.slate.sbs.filter (fun p => inStack i p.1), disturb := s.disturbOf i }
    updStack i (fun t => { t with ckpt := some c' }) s
  | none =>
    let k : Ckpt := { seq := s.nextSeq, final := final, aDone := false, snap := s.slate.sbs.filter (fun p => inStack i p.1),
                      disturb := s.disturbOf i, cmds := cmd.toList, reinit := reinit, again := none, pulsed := [] }
    deviceJob 7 i (updStack i (fun t => { t with ckpt := some k, mirA := t.mirA.begin k.seq }) s)

/-- R175: a checkpoint of a stack starts, or takes another waiting command. -/
def startCkpt (i : Nat) (final reinit : Bool) (cmd : Option (Nat × Nat)) (s : State) : State :=
  askCkpt i (final || reinit || cmd.isSome) final reinit cmd s

/-- R173-R175: every line of a checkpoint stands in a mirror of stack `i`. -/
def Mirror.write (m : Mirror) (v : Variant) (i : Nat) (k : Ckpt) (now : Nat) : Mirror :=
  let line := commitLine k.seq k.final now
  { seq := k.seq, recs := mmap (fun _ b => recordLine v b k.seq) k.snap, disturb := k.disturb,
    commits := (List.range 128).map (fun j => (i * 128 + j, line)), unread := [], count := m.count + 1, erases := m.erases }

/-- R177: the first valid commit line of a mirror. -/
def Mirror.commit (m : Mirror) : Option Bytes := (m.commits.find? (fun p => commitOk m.seq p.2)).map (·.2)

/-- R177: is a mirror complete: a commit line valid and every record line readable? -/
def Mirror.complete (m : Mirror) (v : Variant) : Bool :=
  m.commit.isSome && m.unread.isEmpty && m.recs.all (fun p => (parseRecord v p.2).isSome)

/-- The map of a sub-bank as a mirror records it. -/
def Mirror.mapOf (m : Mirror) (v : Variant) (sb : Nat) : SbSt := ((mget m.recs sb).bind (parseRecord v)).getD SbSt.reset

/-- R177: the mirror a stack mounts from: `some false` A, `some true` B; `none` neither. -/
def mountChoice (v : Variant) (a b : Mirror) : Option Bool :=
  if a.complete v then (if b.complete v && decide (a.seq < b.seq) then some true else some false)
  else if b.complete v then some true else none

/-- R177: does the stack mount read-only, both mirrors complete at one sequence with a differing record? -/
def mountConflict (v : Variant) (a b : Mirror) : Bool :=
  a.complete v && b.complete v && decide (a.seq = b.seq) && !decide (a.recs = b.recs)

/-- The relocation threshold in reads (R181, R187). -/
def State.threshold (s : State) : Nat := s.slate.threshE8.toNat * 100000000

/-- The key of a read-count group (R180). -/
def groupKey (a k lb : Nat) : Nat := (a * 9 + k) * 32 + lb

/-- R183: a group whose count stands at 1.5 times the threshold or more without having been relocated is counted and recorded,
once until it is. -/
def noteBlocked (g : Nat) (s : State) : State :=
  if decide (g ∈ s.slate.blocked) || decide (2 * mgetD s.slate.groups g 0 < 3 * s.threshold) then s
  else record .dg 0x0109 { detail := detGroup (g / 32 / 9) (g / 32 % 9) (g % 32) }
    (count (errCnt 4) { s with slate := { s.slate with blocked := s.slate.blocked ++ [g] } })

/-- R183: every group is looked at: the threshold or the counts have changed. -/
def noteAllBlocked (s : State) : State := forEach (s.slate.groups.map (·.1)) noteBlocked s

/-- R180: `n` reads of a group, each in a slot of its own. -/
def countReads (a k lb n : Nat) (s : State) : State :=
  let g := groupKey a k lb
  noteBlocked g { s with slate := { s.slate with groups := mset s.slate.groups g (mgetD s.slate.groups g 0 + n) } }

/-- R180: a read of a group in the current slot; reads of one slot count once. -/
def countGroup (a k lb : Nat) (s : State) : State :=
  let g := groupKey a k lb
  if mget s.slate.lastRead g = some s.slate.slot then s
  else countReads a k lb 1 { s with slate := { s.slate with lastRead := mset s.slate.lastRead g s.slate.slot } }

/-! ## Reconstruction and reads made at once (R149-R161, R163, R291) -/

/-- R160, R161: a parity line differs or cannot be read: counted and recorded; the follow-up queues the rebuild. -/
def parityFix (a c lb ln : Nat) (s : State) : State :=
  record .ce 0x0103 { detail := detLine (lineAddrOf a c 0 lb ln) (s.ownerOf a 0 lb) 8 0 } (count (sltCnt a 4) s)

/-- R501: does a relocation of this very block read the line? -/
def State.ownRead (s : State) (a c k lb : Nat) : Bool := s.slate.relocs.any (fun r => r.repairs a c k && decide (r.lblock = lb))

/-- R155-R158: a line that a plan or maintenance read was to give is lost. -/
def lineLost (a c k lb ln : Nat) (plan : Bool) (s : State) : State := loseLine a c k lb ln (!plan && s.ownRead a c k lb) s

/-- R149, R154: a line has been reconstructed. Its content is kept for the relocation that the record's follow-up queues. -/
def reconstructed (a c k lb ln : Nat) (x : Bytes) (found : Nat) (s : State) : State :=
  let s := match mget (s.sb (sbKey a c k)).map lb with
    | some pb => { s with slate := { s.slate with rebuilt := mset s.slate.rebuilt (lnKey (sbKey a c k) pb ln) x } }
    | none => s
  record .ce 0x0101 { detail := detLine (lineAddrOf a c k lb ln) (s.ownerOf a k lb) k 0, time := some found } (count (sltCnt a 1) s)

/-- R155, R161: a reconstruction has failed: the line is lost, and so are the data lines of its stripe whose stripe read proved
uncorrectable or misdirected; of the parity line's the block is rebuilt. -/
def reconFails (a c k lb ln : Nat) (bad : List Nat) (plan : Bool) (s : State) : State :=
  let worse := (List.range 9).filter (fun j => decide (j ≠ k) && (decide (j ∈ bad) ||
    (match s.stored a c j lb ln with | some l => misdirected (l.meta j) j lb | none => false)))
  lineLost a c k lb ln plan (forEach worse (fun j s => if j = 8 then parityFix a c lb ln s else lineLost a c j lb ln plan s) s)

/-- What reconstruction makes of a line: its content, or its loss. -/
def endRecon (a c k lb ln : Nat) (bad : List Nat) (plan : Bool) (found : Nat) (s : State) : State :=
  match s.rebuilt a c k lb ln bad with
  | some x => reconstructed a c k lb ln x found s
  | none => reconFails a c k lb ln bad plan s

/-- A line that a view of the Slate or a table check reads: a maintenance read, reconstructed where needed (R153, R163, R291). The
bit errors that it meets and BCH corrects are those that LINE_READ_COMPLETE reports (log 34). -/
def touchLine (a c k lb ln : Nat) (s : State) : State :=
  let b := s.sb (sbKey a c k)
  if !mhas b.map lb || b.failed || decide (lb * 256 + ln ∈ b.lost) then s
  else
    let s := countReads a k lb 1 s
    if (s.lineOk a c k lb ln).isSome then s
    else if k = 8 then parityFix a c lb ln s
    else if s.cellFailed a c then lineLost a c k lb ln false s
    else endRecon a c k lb ln [] false s.tbu.now s

/-! ## Mounting (R177-R182) -/

/-- The counts that a disturb line restores (R182). -/
def disturbCounts (ak : Nat) (line : Bytes) : NMap Nat := (List.range 32).map (fun l => (ak * 32 + l, u line (2 * l) 2 * 2000000))

/-- R177, R182: a stack mounts. -/
def mountStack (i : Nat) (s : State) : State :=
  let t := s.stack i
  let v := s.part.variant
  if mountConflict v t.mirA t.mirB then
    let s := updStack i (fun t => { t with mounted := false, readOnly := true, noMount := false, mirrorB := false }) s
    record .ft 0x010A { scope := 2 + i, detail := detail32 (toLE 1 i ++ toLE 1 2) } s
  else match mountChoice v t.mirA t.mirB with
  | none =>
    let s := updStack i (fun t => { t with mounted := false, readOnly := false, noMount := true }) s
    record .ft 0x010B { scope := 2 + i, detail := detail32 (toLE 1 i ++ toLE 1 4) } s
  | some useB =>
    let m := if useB then t.mirB else t.mirA
    let unclean := match m.commit with | some c => decide (u c 12 1 = 0) | none => true
    let add := if unclean then 10 * s.slate.ckptS.toNat * 5000000 else 0
    let other := s.slate.groups.filter (fun p => decide (p.1 / (9 * 32) / 32 ≠ i))
    let read := m.disturb.flatMap (fun p => disturbCounts p.1 p.2)
    let own := if unclean then
        ((List.range (32 * 9 * 32)).filter (fun j => decide (j % 32 < s.part.variant.userBlocks))).map
          (fun j => (i * (32 * 9 * 32) + j, mgetD read (i * (32 * 9 * 32) + j) 0 + add))
      else read.filter (fun p => decide (0 < p.2))
    let groups := if i = 0 then own ++ other else other ++ own
    let maps := mmap (fun sb _ => m.mapOf v sb) m.recs
    let s := { s with slate := { s.slate with
      sbs := maps.foldl (fun x p => mset x p.1 p.2) (s.slate.sbs.filter (fun p => !inStack i p.1))
      groups := groups
      blocked := s.slate.blocked.filter (fun g => decide (g / (9 * 32) / 32 ≠ i))
      relocs := s.slate.relocs.filter (fun r => decide (r.array / 32 ≠ i))
      recons := s.slate.recons.filter (fun r => decide (r.array / 32 ≠ i)) } }
    let k : Ckpt := { seq := max t.mirA.seq t.mirB.seq + 1, final := false, aDone := false, snap := maps, disturb := m.disturb,
                      cmds := [], reinit := false, again := none, pulsed := [] }
    let copy (x : Mirror) : Mirror := (x.begin k.seq).write v i k s.tbu.now
    noteAllBlocked (updStack i (fun t => { t with
      mounted := true, readOnly := false, noMount := false, mirrorB := useB, unclean := unclean, ckpt := none,
      mirA := if useB then copy t.mirA else t.mirA, mirB := if useB then t.mirB else copy t.mirB }) s)

end Sys2Proof.Machine
end

