-- ==== Sys2Proof/Machine/Dva.lean ====
section
/-! DEFINITION. Sys2Proof/Machine/Dva.lean: the device virtual address range, objects, tiers and the accesses that reach
them (chapter 09). -/

namespace Sys2Proof.Machine

/-! ## The fixed views (R289) -/

def hubBytes : Nat := 0x4000000
def storeBase : Nat := 0x10000000
def storeBytes : Nat := 0x300000
def boardBase : Nat := 0x8000000000
def codeBase : Nat := 0x100000000000
def scaleBase : Nat := 0x104000000000
def objBase : Nat := 0x400000000000
def pageBytes : Nat := 65536
/-- Where this model keeps the bytes of a lend, beyond the 48-bit range (log 23). -/
def lendBase (lend : Nat) : Nat := 2 ^ 56 + lend * 2 ^ 40

/-- The DVA of a byte of an activation store. -/
def storeDva (a off : Nat) : Nat := storeBase + a * 0x400000 + off

/-- GiB per channel of a density code (R409, R414). -/
def densityGib (d : BitVec 2) : Nat := if d = 0 then 4 else if d = 1 then 8 else 16

/-- `board_bytes`: 15/16 of the trained capacity, 0 while the tier is unavailable (R2, R410, R412). -/
def State.boardBytes (s : State) : Nat :=
  if s.tiers.trained && !s.tiers.unavailable then s.tiers.channels * densityGib s.tiers.density * 2 ^ 30 * 15 / 16 else 0

/-- Where a byte of the range lies. -/
inductive Loc where
  /-- a byte of this device's RAM or of a lend, by its key in `ram` -/
  | ram (key : Nat)
  /-- a byte of a hub SRAM page that holds the device's own structures (R290) -/
  | own (key : Nat)
  /-- byte 0-67 of a Slate line -/
  | slate (line byte : Nat)
  /-- a dropped page, or a lend whose lender cannot be reached -/
  | gone
  | unmapped
deriving DecidableEq, Repr

/-- The object whose pages hold an address. -/
def State.objAt (s : State) (a : Nat) : Option Obj :=
  s.tiers.objs.find? (fun o => decide (o.dva ≤ a) && decide (a < o.dva + o.pages.length * pageBytes))

/-- The object with a base address. -/
def State.obj (s : State) (dva : Nat) : Option Obj := s.tiers.objs.find? (fun o => decide (o.dva = dva))

/-- R302: can the lender of a lend be reached? Every route to it is lost at the latest when no port of this device is UP; which
routes others still have, the manager knows (log 45). -/
def State.lendReachable (s : State) (lend : Nat) : Bool :=
  match s.tiers.lends.find? (fun l => decide (l.id = lend)) with
  | some l => !l.closed && !s.upPorts.isEmpty &&
    (match mget s.spar.members l.lender with
     | some m => decide (m.st ≠ 2)
     | none => true)
  | none => false

/-- The byte beneath one page. -/
def State.pageLoc (s : State) (p : PageAt) (off : Nat) : Loc :=
  match p with
  | .hub f => .ram (f * pageBytes + off)
  | .board f => if f * pageBytes + off < s.boardBytes then .ram (boardBase + f * pageBytes + off) else .gone
  | .neigh l f => if s.lendReachable l then .ram (lendBase l + f * pageBytes + off) else .gone
  | .store a o => .ram (storeDva a (o + off))
  | .dropped => .gone

/-- A Slate-view byte is mapped only where the translation layer maps its block, in a stack mounted normally (R289, R178). -/
def State.slateLoc (s : State) (line byte : Nat) : Loc :=
  let l := lineAddr line
  if line < 2 ^ 32 && decide (l.lb < s.part.variant.userBlocks) && s.mountedAt l.a && mhas (s.sb (sbKey l.a l.c l.k)).map l.lb
  then .slate line byte else .unmapped

/-- The scale-history records, by stream and quant point (R93). -/
def State.histories (s : State) : List (List Half) := s.models.streams.flatMap (fun p => p.2.hist.map (·.2))

/-- Hub SRAM pages that the device holds for its own structures, at the top of hub SRAM: scale-history records, the hub streams
of started plans (R195), inputs taken (R204) and statistic slots (R131). DESIGN CHOICE (log 24): the spec names the structures
and neither their place nor, but for a history record, their size. -/
def State.hubReserved (s : State) : Nat :=
  let plans := s.plans.foldl (fun n p =>
    if p.2.st = .running ∨ p.2.st = .stopping then n + 16 * (p.2.plan.collW.length + p.2.plan.strmW.length) else n) 0
  let inputs := s.models.streams.foldl (fun n p => p.2.held.foldl (fun n h => n + h.data.length) n) 0
  let slots := s.norm.foldl (fun n p => n + 8 * p.2.length) 0
  cdiv (16 * s.histories.length + plans + inputs + slots) pageBytes

/-- R93: the bytes of the history records, one after another up to the top of hub SRAM: entry j of a record at 2j,
little-endian. None where the byte is no record's. -/
def State.histByte (s : State) (a : Nat) : Option Byte :=
  let base := hubBytes - 16 * s.histories.length
  if a < base then none
  else (s.histories[(a - base) / 16]?).map (fun r => (toLE 2 (r.getD ((a - base) % 16 / 2) 0).toNat).getD ((a - base) % 2) 0)

/-- A byte of the hub SRAM view: the device's own in the pages it reserves, where no object or lend holds the page (R290). -/
def State.hubLoc (s : State) (a : Nat) : Loc :=
  if decide (hubBytes ≤ a + s.hubReserved * pageBytes) && !decide (a / pageBytes ∈ s.tiers.hubUsed) then .own a else .ram a

/-- R289, R295: where an address lies at this moment. -/
def State.loc (s : State) (a : Nat) : Loc :=
  if a < hubBytes then s.hubLoc a
  else if storeBase ≤ a && decide (a < storeBase + 0x10000000) then
    if (a - storeBase) % 0x400000 < storeBytes then .ram a else .unmapped
  else if boardBase ≤ a && decide (a < 0x10000000000) then
    if a - boardBase < s.boardBytes then .ram a else .unmapped
  else if codeBase ≤ a && decide (a < scaleBase) then s.slateLoc ((a - codeBase) / 64) ((a - codeBase) % 64)
  else if scaleBase ≤ a && decide (a < 0x104400000000) then s.slateLoc ((a - scaleBase) / 4) (64 + (a - scaleBase) % 4)
  else if objBase ≤ a && decide (a < 2 ^ 48) then
    match s.objAt a with
    | some o => match o.pages[(a - o.dva) / pageBytes]? with
      | some p => s.pageLoc p ((a - o.dva) % pageBytes)
      | none => .unmapped
    | none => .unmapped
  else .unmapped

/-! ## One byte read -/

/-- What reading one byte meets. -/
inductive ByteRes where
  | ok (b : Byte)
  | unmapped
  /-- data that is an uncorrectable tier error (R535, R302, R291) -/
  | bad
  /-- a poisoned board unit, by its address in the board view (R303) -/
  | poison (unit : Nat)
deriving DecidableEq, Repr

/-- One byte of RAM by its key. A run left undefined reads as a free value until it is written (log 6). -/
def State.ramAt (s : State) (k : Nat) : Byte :=
  match s.ramUndef.find? (fun r => decide (r.1 ≤ k) && decide (k < r.1 + r.2.1)) with
  | some r => Config.freeByte r.2.2 k
  | none => memGet ramFill s.ram k

/-- A run taken out of the undefined runs. -/
def cutRuns (a n : Nat) (l : List (Nat × Nat × Nat)) : List (Nat × Nat × Nat) :=
  l.flatMap (fun r =>
    [(r.1, min r.2.1 (a - r.1), r.2.2), (max r.1 (a + n), r.1 + r.2.1 - max r.1 (a + n), r.2.2)].filter (fun x => decide (x.2.1 ≠ 0)))

/-- One byte of RAM written. -/
def ramPut (k : Nat) (b : Byte) (s : State) : State :=
  { s with ram := memSet ramFill s.ram k b, ramUndef := if s.ramUndef = [] then [] else cutRuns k 1 s.ramUndef }

/-- A run of RAM becomes undefined (R76, R224). -/
def undefine (k n : Nat) (s : State) : State :=
  if n = 0 then s
  else { s with ramUndef := (k, n, s.free) :: cutRuns k n s.ramUndef, free := s.free + 1 }

/-- One byte at its place. -/
def State.readLoc (s : State) (l : Loc) : ByteRes :=
  match l with
  | .ram k =>
    if boardBase ≤ k && decide (k < 2 ^ 56) && decide (k / 64 * 64 ∈ s.tiers.poison) then .poison (k / 64 * 64)
    else .ok (s.ramAt k)
  | .own k => .ok (match s.histByte k with | some b => b | none => Config.freeByte s.free k)
  | .slate line byte =>
    let l := lineAddr line
    match s.delivered l.a l.c l.k l.lb l.ln with
    | .line b => .ok (b.getD byte 0)
    | _ => .bad
  | .gone => .bad
  | .unmapped => .unmapped

/-- One byte of the range. -/
def State.readByte (s : State) (a : Nat) : ByteRes := s.readLoc (s.loc a)

/-- R291, R535: does a Slate line serve metadata that names the model slot wanted of it, where one is? -/
def State.slotOk (s : State) (want : Nat → Option Nat) (l : Loc) : Bool :=
  match l with
  | .slate line _ =>
    let l := lineAddr line
    match want line, s.served l.a l.c l.k l.lb l.ln with
    | some m, some x => decide (bits (u x 68 4) 9 6 = m)
    | _, _ => true
  | _ => true

/-- One byte of the range, of a Slate line that names another model slot bad. -/
def State.readWant (s : State) (want : Nat → Option Nat) (a : Nat) : ByteRes :=
  if s.slotOk want (s.loc a) then s.readByte a else .bad

/-- The Slate lines that a run of the range meets. -/
def State.linesOf (s : State) (a n : Nat) : List Nat :=
  (List.range n).foldl (fun l i => match s.loc (a + i) with | .slate line _ => addOnce l line | _ => l) []

/-- R291: each line that a view read meets takes a maintenance read. -/
def touchLines (l : List Nat) (s : State) : State :=
  forEach l (fun line s => let l := lineAddr line; touchLine l.a l.c l.k l.lb l.ln s) s

/-- A run of bytes of the range. -/
def State.readRun (s : State) (a n : Nat) : List ByteRes := (List.range n).map (fun i => s.readByte (a + i))

/-- A read by the device for itself (rings, payloads): the bytes, or `none` where any is not readable (R372). -/
def State.devRead (s : State) (a n : Nat) : Option Bytes :=
  (s.readRun a n).foldr
    (fun r acc => match r, acc with
      | .ok b, some l => some (b :: l)
      | _, _ => none) (some [])

/-! ## Poison (R303) -/

/-- Counter word `i` of `HUB_MEM_CNT` (R304). -/
def memCnt (i : Nat) : Nat := 0x260 + 4 * i

/-- The object whose page lies on a board unit, whichever view reaches it. -/
def State.objOnBoard (s : State) (unit : Nat) : Option Obj :=
  s.tiers.objs.find? (fun o => o.pages.any (fun p => match p with
    | .board f => decide (f = (unit - boardBase) / pageBytes)
    | _ => false))

/-- Is a kind code a KV object (R264)? -/
def kvKind : Nat := 0x03

/-- The DVA at which an object holds a board unit. -/
def Obj.dvaOf (o : Obj) (unit : Nat) : Nat :=
  let f := (unit - boardBase) / pageBytes
  o.dva + o.pages.findIdx (fun p => match p with | .board g => decide (g = f) | _ => false) * pageBytes + (unit - boardBase) % pageBytes

/-- R303: one record names each object that has a poisoned unit; each unit under no object has one of its own. -/
def namePoison (unit : Nat) (s : State) : State :=
  let o := s.objOnBoard unit
  let same (u : Nat) : Bool := decide (u = unit) || (o.isSome && decide ((s.objOnBoard u).map (·.dva) = o.map (·.dva)))
  if s.tiers.named.any same then s
  else
    record .ct 0x0502 { detail := match o with | some o => detObject o.dva (o.dvaOf unit) 1 | none => detObject 0 unit 1 }
      { s with tiers := { s.tiers with named := s.tiers.named ++ [unit] } }

/-- The poisoned units that are left. -/
def setPoison (l : List Nat) (s : State) : State :=
  { s with tiers := { s.tiers with
      poison := l
      named := s.tiers.named.filter (fun u => decide (u ∈ l))
      abandoned := s.tiers.abandoned.filter (fun u => decide (u ∈ l)) } }

/-- R303: a poisoned unit is read: counted by its object's kind, recorded, and a backed shared page starts its rewrite, unless
one of the unit was abandoned and the host has not rewritten it since. -/
def poisonRead (unit : Nat) (s : State) : State :=
  match s.objOnBoard unit with
  | some o =>
    let s := namePoison unit s
    if o.kind = kvKind then count (memCnt 6) s
    else
      let s := count (memCnt 5) s
      if decide (o.backing ≠ 0) && !decide (unit ∈ s.tiers.abandoned) then { s with tiers := { s.tiers with rewrites := addOnce s.tiers.rewrites unit } } else s
  | none => namePoison unit s

/-- The distinct poisoned units a run of reads met, in order. -/
def poisonsOf (l : List ByteRes) : List Nat :=
  l.foldl (fun acc r => match r with | .poison u => addOnce acc u | _ => acc) []

/-! ## Writes -/

/-- Where this model keeps the bytes of a page. -/
def PageAt.key : PageAt → Option Nat
  | .hub f => some (f * pageBytes)
  | .board f => some (boardBase + f * pageBytes)
  | .neigh l f => some (lendBase l + f * pageBytes)
  | .store a off => some (storeDva a off)
  | .dropped => none

/-- Does a byte of RAM lie in the page that a migration copies? -/
def Migr.copies_ (m : Migr) (s : State) (k : Nat) : Bool :=
  match m.left.head?, s.obj m.obj with
  | some p, some o => match (o.pages.getD p.1 .dropped).key with
    | some d => decide (d ≤ k) && decide (k < d + pageBytes)
    | none => false
  | _, _ => false

/-- R296: a write that reaches a page being copied, by whichever view, marks it for recopy. -/
def markDirty (k : Nat) (s : State) : State :=
  if s.tiers.migrs = [] then s
  else { s with tiers := { s.tiers with migrs := s.tiers.migrs.map (fun m => if m.copies_ s k then { m with dirty := true } else m) } }

/-- One byte written at an address, where memory is there to take it. -/
def putByte (a : Nat) (b : Byte) (s : State) : State :=
  match s.loc a with
  | .ram k => markDirty k (ramPut k b s)
  | _ => s

/-- A run of bytes written from an address on, unmapped bytes discarded. -/
def putBytes : Nat → Bytes → State → State
  | _, [], s => s
  | a, b :: bs, s => putBytes (a + 1) bs (putByte a b s)

/-- R303: units that a write covers in full are poisoned no more. -/
def clearPoison (a n : Nat) (s : State) : State :=
  let keys := (List.range n).filterMap (fun i => match s.loc (a + i) with | .ram k => some k | _ => none)
  setPoison (s.tiers.poison.filter (fun p => !(List.range 64).all (fun i => decide (p + i ∈ keys)))) s

/-- A run cut at page boundaries: address and length of each piece. -/
def pieces (a n : Nat) : List (Nat × Nat) :=
  (List.range ((a + n - 1) / pageBytes + 1 - a / pageBytes)).map (fun i =>
    let lo := max a ((a / pageBytes + i) * pageBytes)
    (lo, min (a + n) ((a / pageBytes + i + 1) * pageBytes) - lo))

/-! ## Bytes that carry reasons (log 30) -/

/-- Marks on a run of RAM are replaced: what is written there carries these reasons. -/
def setTaint (k n : Nat) (fl : Half) (s : State) : State :=
  let t := s.taint.flatMap (fun r =>
    [(r.1, min r.2.1 (k - r.1), r.2.2), (max r.1 (k + n), r.1 + r.2.1 - max r.1 (k + n), r.2.2)].filter (fun x => decide (x.2.1 ≠ 0)))
  if s.taint = [] ∧ fl = 0 then s else { s with taint := if fl = 0 ∨ n = 0 then t else (k, n, fl) :: t }

/-- The reasons that a run of RAM carries. -/
def State.taintOf (s : State) (k n : Nat) : Half :=
  s.taint.foldl (fun f r => if decide (r.1 < k + n) && decide (k < r.1 + r.2.1) then f ||| r.2.2 else f) 0

/-- The parts of a run of RAM that carry reasons: offset in it, length, bits. -/
def State.marksIn (s : State) (k n : Nat) : List (Nat × Nat × Half) :=
  (s.taint.map (fun r => (max k r.1 - k, min (k + n) (r.1 + r.2.1) - max k r.1, r.2.2))).filter (fun m => decide (m.2.1 ≠ 0))

/-- Marks are added on a run of RAM. -/
def addTaint (k n : Nat) (fl : Half) (s : State) : State :=
  if fl = 0 ∨ n = 0 then s else { s with taint := (k, n, fl) :: s.taint }

/-- Marks on what RAM a run of the range meets, by `f` over its key and length. -/
def overRam (a n : Nat) (f : Nat → Nat → State → State) (s : State) : State :=
  if n = 0 then s else forEach (pieces a n) (fun p s => match s.loc p.1 with | .ram k => f k p.2 s | _ => s) s

/-- The reasons that a run of the range carries. -/
def State.marksOf (s : State) (a n : Nat) : Half :=
  if s.taint = [] ∨ n = 0 then 0
  else (pieces a n).foldl (fun f p => match s.loc p.1 with | .ram k => f ||| s.taintOf k p.2 | _ => f) 0

/-- A write by the device or a plan: unmapped bytes are discarded (R290, R302), and what is written carries no reasons. -/
def writeDva (a : Nat) (b : Bytes) (s : State) : State :=
  let s := putBytes a b s
  let s := if s.taint = [] then s else overRam a b.length (fun k n s => setTaint k n 0 s) s
  if s.tiers.poison = [] then s else clearPoison a b.length s

/-! ## Neighbour accesses (R300) -/

/-- What a message over Spar is, in the terms of `Config.wireMessage` (log 32). -/
def msgAddr : Nat := 0
def msgContrib : Nat := 1
def msgLent : Nat := 2
def msgStat : Nat := 3
def msgAppend : Nat := 4
def msgLentRead : Nat := 5
def msgLentData : Nat := 6
def msgBlock : Nat := 7

/-- The parts of a run that lie in lent pages: lender, place in its lend, offset in the run and length. -/
def State.lentRuns (s : State) (a n : Nat) : List (Nat × Nat × Nat × Nat) :=
  if n = 0 ∨ s.tiers.lends = [] then []
  else (pieces a n).filterMap (fun p => match s.loc p.1 with
    | .ram k =>
      if k < 2 ^ 56 then none
      else (s.tiers.lends.find? (fun l => decide (l.id = (k - 2 ^ 56) / 2 ^ 40))).map (fun l => (l.lender, k - 2 ^ 56, p.1 - a, p.2))
    | _ => none)

/-- R300: reads of lent pages travel over Spar. -/
def askLent (a n : Nat) (s : State) : State :=
  forEach (s.lentRuns a n) (fun x s => sendMsg x.1 (Config.wireMessage msgLentRead x.2.1 (toLE 8 x.2.2.2)) s) s

/-- R300: writes of lent pages travel over Spar. -/
def tellLent (a : Nat) (b : Bytes) (s : State) : State :=
  forEach (s.lentRuns a b.length) (fun x s => sendMsg x.1 (Config.wireMessage msgLent x.2.1 (slice b x.2.2.1 x.2.2.2)) s) s

/-- R290: does a write of a run meet an unmapped or reserved address, or a read-only view? -/
def State.strays (s : State) (a n : Nat) : Bool :=
  (List.range n).any (fun i => match s.loc (a + i) with | .unmapped => true | .slate _ _ => true | _ => false)

/-- R290, R300: a plan's write: what meets no memory is discarded, and counted once. -/
def planWrite (a : Nat) (b : Bytes) (s : State) : State :=
  let s' := tellLent a b (writeDva a b s)
  if s.strays a b.length then count (memCnt 2) s' else s'

/-- Can every byte of a run be written? -/
def State.writable (s : State) (a n : Nat) : Bool :=
  (List.range n).all (fun i => match s.loc (a + i) with | .ram _ => true | _ => false)

/-! ## Host accesses (R290, R535) -/

/-- The model slot that a line must name: the one whose committed layout holds its block, if one does (R291, R305). -/
def State.slotOfLine (s : State) (line : Nat) : Option Nat :=
  let l := lineAddr line
  let m := s.ownerOf l.a l.k l.lb
  if m < 16 then some m else none

/-- A host read of the range: 0xFF where nothing can be read, with its counts and records. -/
def hostRead (bar off a n : Nat) (s : State) : Bytes × State :=
  let rs := (List.range n).map (fun i => s.readWant s.slotOfLine (a + i))
  let bytes := rs.map (fun r => match r with | .ok b => b | _ => 0xFF)
  let s := forEach (poisonsOf rs) poisonRead (askLent a n (touchLines (s.linesOf a n) s))
  let s := if rs.any (fun r => decide (r = .unmapped)) then hostAccess bar off 0 a (count (memCnt 2) s) else s
  let s := if rs.any (fun r => decide (r = .bad)) then hostAccess bar off 0 a s else s
  (bytes, s)

/-- A host write of the range: bytes that meet no writable memory are discarded, counted once and logged (R290). -/
def hostWrite (bar off a : Nat) (b : Bytes) (s : State) : State :=
  let bad := (List.range b.length).any (fun i => match s.loc (a + i) with | .ram _ => false | .gone => false | _ => true)
  let s' := tellLent a b (writeDva a b s)
  if bad then hostAccess bar off (leNat (b.take 4)) a (count (memCnt 2) s') else s'

/-! ## Plan fetches -/

/-- The regulator class of a byte: 0 HUB, 1 BOARD, 2 NEIGHBOUR, 3 SLATE_VIEW (R200, R295). -/
def State.tierOf (s : State) (a : Nat) : Option Nat :=
  match s.loc a with
  | .ram k => some (if k < storeBase + 0x10000000 then 0 else if k < 2 ^ 56 then 1 else 2)
  | .own _ => some 0
  | .slate _ _ => some 3
  | .gone => match s.objAt a with
    | some o => match o.pages[(a - o.dva) / pageBytes]? with
      | some (.board _) => some 1
      | _ => some 2
    | none => some 2
  | .unmapped => none

/-- What a plan's fetch of an entry meets. -/
inductive FetchRes where
  /-- the bytes, and whether a poisoned unit of a shared object reads as zeros in them (R303) -/
  | ok (b : Bytes) (tainted : Bool)
  /-- an uncorrectable tier error: the fallback applies (R221); `kv` for a poisoned KV object -/
  | error
deriving DecidableEq, Repr

/-- R290, R291, R303: a plan's fetch of `n` bytes. `slot` is the model slot a Slate line must belong to, if any. -/
def planFetch (a n : Nat) (slot : Option Nat) (s : State) : FetchRes × State :=
  let rs := (List.range n).map (fun i => s.readWant (fun _ => slot) (a + i))
  let ps := poisonsOf rs
  let s' := forEach ps poisonRead (askLent a n (touchLines (s.linesOf a n) s))
  let s' := if rs.any (fun r => decide (r = .unmapped)) then count (memCnt 2) s' else s'
  -- R412: a page of an unavailable board tier is handled as poisoned
  let s' := match s.objAt a with
    | some o => if (List.range n).any (fun i => decide (s.loc (a + i) = .gone) && decide (s.tierOf (a + i) = some 1)) then
        count (memCnt (if o.kind = kvKind then 6 else 5)) s' else s'
    | none => s'
  let private_ := ps.any (fun p => match s.objOnBoard p with | some o => decide (o.kind = kvKind) | none => true)
  if private_ || rs.any (fun r => decide (r = .unmapped) || decide (r = .bad)) then (.error, s')
  else (.ok (rs.map (fun r => match r with | .ok b => b | _ => 0)) (!ps.isEmpty), s')

/-! ## Lends (R300) -/

/-- A lend that another member grants becomes known to this device. -/
def addLend (id lender pages : Nat) (s : State) : State :=
  if s.tiers.lends.any (fun l => decide (l.id = id)) then s
  else { s with tiers := { s.tiers with lends := s.tiers.lends ++
    [{ id := id, lender := lender, borrower := some s.spar.member, hubPool := false, frames := List.range pages, reclaiming := false,
       reported := [], dropped := 0, cmd := none, closed := false }] } }

/-! ## Pools (R292) -/

/-- Frames of hub SRAM that can be taken. -/
def State.hubFrames (s : State) : Nat := 1024 - s.hubReserved
/-- Frames of board memory. -/
def State.boardFrames (s : State) : Nat := s.boardBytes / pageBytes

/-- Free frames counted from `i`, `n` of them at most, `fuel` frames looked at. -/
def freeFrom (used : List Nat) (total : Nat) : Nat → Nat → Nat → List Nat
  | 0, _, _ => []
  | _, 0, _ => []
  | fuel + 1, n + 1, i =>
    if total ≤ i then []
    else if i ∈ used then freeFrom used total fuel (n + 1) (i + 1)
    else i :: freeFrom used total fuel n (i + 1)

/-- The lowest `n` free frames of a pool of `total`; `none` if it has too few. DESIGN CHOICE (log 25): lowest first. -/
def takeFrames (used : List Nat) (total n : Nat) : Option (List Nat) :=
  let l := freeFrom used total (n + used.length) n 0
  if l.length = n then some l else none

/-- R293: the pages return to their pools. -/
def freePages (ps : List PageAt) (s : State) : State :=
  let t := ps.foldl (fun (t : Tiers) p => match p with
    | .hub f => { t with hubUsed := t.hubUsed.filter (· ≠ f) }
    | .board f => { t with boardUsed := t.boardUsed.filter (· ≠ f) }
    | _ => t) s.tiers
  { s with tiers := t }

end Sys2Proof.Machine
end

