-- ==== Sys2Proof/Machine/Mailbox.lean ====
section
/-! DEFINITION. Sys2Proof/Machine/Mailbox.lean: queue pairs, submissions, completions, the checks every Iarik command
shares, and the mailbox rows themselves (chapter 12). -/

namespace Sys2Proof.Machine

/-! ## Codes -/

/-- Status code (R373). -/
def Status.code : Status → Nat
  | .ok => 0x0000
  | .badOpcode => 0x0001
  | .badField => 0x0002
  | .wrongState => 0x0003
  | .noResource => 0x0004
  | .busyMaint => 0x0005
  | .unsupported => 0x0006
  | .auth => 0x0007
  | .rollback => 0x0008
  | .selfBank => 0x0009
  | .notMonotonic => 0x000A
  | .tableBusy => 0x000B
  | .lost => 0x000C
  | .aborted => 0x000D
  | .badPlan => 0x000E
  | .erasePending => 0x000F
  | .deviceFault => 0x00FF

/-- The opcodes (R378). -/
def opcodes : List Nat :=
  [0x0000, 0x0001, 0x0002, 0x0003, 0x0100, 0x0101, 0x0102, 0x0103, 0x0104, 0x0105, 0x0106, 0x0107, 0x0200, 0x0201, 0x0202,
   0x0203, 0x0300, 0x0301, 0x0302, 0x0400, 0x0401, 0x0402, 0x0500, 0x0501, 0x0600, 0x0601, 0x0700, 0x0701, 0x0702, 0x0800,
   0x0801, 0x0802, 0x0803, 0x0900, 0x0901, 0x0A00]

/-- A submission entry of 64 bytes (R365). -/
def parseSub (b : Bytes) : Submission :=
  { opcode := BitVec.ofNat 16 (u b 0 2), tag := BitVec.ofNat 16 (u b 2 2), flags := BitVec.ofNat 16 (u b 4 2),
    res := BitVec.ofNat 16 (u b 6 2), seq := BitVec.ofNat 32 (u b 8 4), payLen := u b 12 4,
    payAddr := BitVec.ofNat 64 (u b 16 8), a0 := BitVec.ofNat 64 (u b 24 8), a1 := BitVec.ofNat 64 (u b 32 8),
    a2 := BitVec.ofNat 64 (u b 40 8), a3 := BitVec.ofNat 64 (u b 48 8), a4 := BitVec.ofNat 64 (u b 56 8) }

/-- The Spar ports of a mask. -/
def portsIn (m : Nat) : List Nat := (List.range 8).filter (fun p => bit m p)

/-- Opcode number of a command. -/
def Cmd.op (c : Cmd) : Nat := c.sub.opcode.toNat
/-- Inline argument word `i` (R365). -/
def Cmd.arg (c : Cmd) (i : Nat) : Nat :=
  match i with
  | 0 => c.sub.a0.toNat
  | 1 => c.sub.a1.toNat
  | 2 => c.sub.a2.toNat
  | 3 => c.sub.a3.toNat
  | _ => c.sub.a4.toNat
/-- Bits [h:l] of inline argument word `i`. -/
def Cmd.fld (c : Cmd) (i h l : Nat) : Nat := bits (c.arg i) h l
/-- `BARRIER`, `FWD`, `PAY_DVA` (R365). -/
def Cmd.barrier (c : Cmd) : Bool := c.sub.flags.getLsbD 0
def Cmd.fwd (c : Cmd) : Bool := c.sub.flags.getLsbD 1
def Cmd.payDva (c : Cmd) : Bool := c.sub.flags.getLsbD 2
/-- The `member` field. -/
def Cmd.member (c : Cmd) : Nat := bits c.sub.flags.toNat 13 8

/-- R11, R365: is a bit set that the entry's head reserves? -/
def Cmd.headReserved (c : Cmd) : Bool :=
  decide (bits c.sub.flags.toNat 7 3 ≠ 0) || decide (bits c.sub.flags.toNat 15 14 ≠ 0) || decide (c.sub.res ≠ 0) ||
  (!c.fwd && decide (c.member ≠ 0))

/-- R365: is an inline bit set that the command's layout does not name? `m0`-`m4` are the named bits of A0-A4. -/
def Cmd.argReserved (c : Cmd) (m0 m1 m2 m3 m4 : Nat) : Bool :=
  [(0, m0), (1, m1), (2, m2), (3, m3), (4, m4)].any (fun p => decide (Nat.land (c.arg p.1) (2 ^ 64 - 1 - p.2) ≠ 0))

/-- All 64 bits of an argument word. -/
def all64 : Nat := 2 ^ 64 - 1
/-- The low 32 bits of an argument word. -/
def low32 : Nat := 2 ^ 32 - 1

/-! ## Queue pairs -/

/-- A queue pair. -/
def State.pair (s : State) (q : Nat) : QPair := mgetD s.mbx.pairs q QPair.reset
/-- A change of a queue pair. -/
def updPair (q : Nat) (f : QPair → QPair) (s : State) : State :=
  { s with mbx := { s.mbx with pairs := mset s.mbx.pairs q (f (s.pair q)) } }
/-- N, the entries of each ring (R361). -/
def QPair.n (p : QPair) : Nat := 2 ^ p.sizeLog2.toNat
/-- Commands outstanding on a pair (R364). -/
def QPair.outstanding (p : QPair) : Nat := p.tagsRun.length + p.tagsPosted.length
/-- Is a tag in use (R366)? -/
def QPair.inUse (p : QPair) (t : Half) : Bool := decide (t ∈ p.tagsRun) || decide (t ∈ p.tagsPosted)

/-- R368: a completion entry. -/
def cqEntry (tag : Half) (st cflags sqHead result : Nat) (phase : Bool) : Bytes :=
  toLE 2 tag.toNat ++ toLE 2 st ++ toLE 2 (cflags + flag phase 15) ++ toLE 2 sqHead ++ toLE 8 result

/-- R370: after a completion, the pair's interrupt is raised once `coal_n` + 1 wait, or at once with no delay set. -/
def pairIrq (q : Nat) (s : State) : State :=
  let p := s.pair q
  if p.irqEn && (decide (p.coalN.toNat < p.unsig) || decide (p.coalUs = 0)) then
    raiseVector p.vector.toNat (updPair q (fun p => { p with unsig := 0 }) s)
  else s

/-- R363, R368, R370: a completion is posted on a pair; on a disabled pair it is discarded (R362). -/
def postCq (q : Nat) (tag : Half) (st cflags result : Nat) (dup : Bool) (s : State) : State :=
  let p := s.pair q
  if !p.enable then s
  else
    let a := p.cqBase.toNat + 16 * p.cqTail
    let e := cqEntry tag st cflags p.sqHead result p.phase
    let run := if dup then p.tagsRun else p.tagsRun.erase tag
    if p.cqDva && !s.writable a 16 then
      -- R363: the completion is lost and the tag is freed
      updPair q (fun p => { p with ringErr := true, tagsRun := run }) s
    else
      let s := if p.cqDva then writeDva a e s else emit (.hostWrite a e) s
      let wrap := decide (p.cqTail + 1 = p.n)
      pairIrq q (updPair q (fun p => { p with
        cqTail := if wrap then 0 else p.cqTail + 1
        phase := if wrap then !p.phase else p.phase
        tagsRun := run
        tagsPosted := p.tagsPosted ++ [tag]
        unsig := p.unsig + 1 }) s)

/-! ## Starting and ending commands -/

/-- The command with an id. -/
def State.cmd (s : State) (id : Nat) : Option Cmd := s.mbx.cmds.find? (fun c => decide (c.id = id))

/-- A command is taken off the list. -/
def dropCmd (id : Nat) (s : State) : State :=
  { s with mbx := { s.mbx with cmds := s.mbx.cmds.filter (fun c => decide (c.id ≠ id)) } }

/-- R367: has every command fetched earlier from the pair completed? -/
def State.barrierClear (s : State) (c : Cmd) : Bool :=
  !c.barrier || !s.mbx.cmds.any (fun d => decide (d.origin = c.origin) && decide (d.id < c.id))

/-- A completion of a command, posted where it came from (R368, R377). -/
def postFor (c : Cmd) (st : Nat) (cflags result : Nat) (s : State) : State :=
  match c.origin with
  | .host q => if c.discard then s else postCq q c.sub.tag st cflags result false s
  | .spar m => sendTo m (.result (BitVec.ofNat 16 st) (BitVec.ofNat 64 result)) s

/-- Reserved opcodes that waited for a `BARRIER` complete once it clears (R367, R378). -/
def flushReserved (s : State) : State :=
  forEach (s.mbx.cmds.map (·.id))
    (fun id s => match s.cmd id with
      | some c => if decide (c.op ∉ opcodes) && s.barrierClear c
                  then postFor c Status.badOpcode.code 0 0 (dropCmd id s) else s
      | none => s) s

/-- A command ends: it leaves the list and its completion is posted. -/
def finishWith (id : Nat) (st cflags result : Nat) (s : State) : State :=
  match s.cmd id with
  | some c => flushReserved (postFor c st cflags result (dropCmd id s))
  | none => s

/-- A command ends with a status and a result. -/
def finish (id : Nat) (st : Status) (result : Nat) (s : State) : State := finishWith id st.code 0 result s
/-- A command ends if it is named. -/
def finishOpt (id : Option Nat) (st : Status) (result : Nat) (s : State) : State :=
  match id with
  | some i => finish i st result s
  | none => s

/-- A command has begun and its effect is awaited. -/
def setRunning (id : Nat) (s : State) : State :=
  { s with mbx := { s.mbx with cmds := s.mbx.cmds.map (fun c => if c.id = id then { c with running := true } else c) } }

/-- The things a command names whose commands are carried out one after another (R371): a space and a number. -/
def Cmd.names (c : Cmd) : List (Nat × Nat) :=
  match c.op with
  | 0x0101 | 0x0106 | 0x0107 => [(0, c.fld 0 3 0)]
  | 0x0102 | 0x0103 | 0x0105 => [(1, c.fld 0 15 0)]
  | 0x0104 => [(1, c.fld 1 15 0)]
  | 0x0201 => [(4, c.arg 0)]
  | 0x0202 => [(3, c.fld 0 7 0), (4, c.arg 1), (4, c.arg 2), (4, c.arg 3)]
  | 0x0203 => [(5, c.fld 0 3 0)]
  | 0x0300 => [(0, c.fld 0 3 0), (2, c.fld 0 8 4)] ++ (if c.fld 0 27 27 = 1 then [(4, c.arg 1)] else [])
  | 0x0301 | 0x0302 => [(3, c.fld 0 7 0)]
  | 0x0400 => if c.fld 0 5 5 = 1 then [(2, c.fld 0 4 0)] else []
  | 0x0401 | 0x0402 => [(2, c.fld 0 4 0)]
  | 0x0500 => if c.fld 0 3 0 = 1 then [(4, c.arg 1)] else []
  | 0x0501 => [(4, c.arg 1)]
  | _ => []

/-- R371: `PLAN_STOP` now does not wait behind an earlier command of its handle. -/
def Cmd.stopNow (c : Cmd) : Bool := decide (c.op = 0x0402) && decide (c.fld 0 9 8 = 1)

/-- R377: is the command one for another member? -/
def State.fwdMember (s : State) (c : Cmd) : Option Nat :=
  if c.fwd && decide (c.member ≠ s.spar.member) then some c.member else none

/-- R376: does the command act on more members than one? -/
def State.groupWide (s : State) (c : Cmd) : Bool :=
  decide (s.spar.st = 1) && (decide (c.op ∈ [0x0101, 0x0102, 0x0103, 0x0104, 0x0105, 0x0107]) ||
    (decide (c.op ∈ [0x0401, 0x0402]) && match mget s.plans (c.fld 0 4 0) with | some p => p.plan.group | none => false))

/-- R371: does an earlier command of a shared name, on the same member, hold this one back? A submission that is queued holds nothing
back. -/
def State.blocked (s : State) (c : Cmd) : Bool :=
  !c.stopNow && s.mbx.cmds.any (fun d => decide (d.id < c.id) && !(d.running && decide (d.op = 0x0302)) &&
    (decide (s.fwdMember d = s.fwdMember c) || s.groupWide d || s.groupWide c) && d.names.any (fun n => decide (n ∈ c.names)))

/-- The fetched command of an opcode that a row names and that may start now. -/
def State.startable (s : State) (r : CmdRef) (op : Nat) : Option Cmd :=
  s.mbx.cmds.find? (fun c => decide (c.origin = .host r.q) && decide (c.sub.tag = r.tag) && decide (c.op = op) &&
    !c.running && s.barrierClear c && !s.blocked c)

/-! ## Checks that every command shares (R372) -/

/-- Commands a device-scope fatal leaves (R490). -/
def servedInFatal (c : Cmd) : Bool :=
  decide (c.op ∈ [0x0000, 0x0001, 0x0702, 0x0601, 0x0900]) || (decide (c.op = 0x0A00) && decide (c.fld 0 7 0 = 2))

/-- Commands that recovery mode serves (R455). -/
def servedInRecovery (c : Cmd) : Bool :=
  decide (c.op ∈ [0x0000, 0x0001, 0x0800, 0x0802]) || (decide (c.op = 0x0803) && decide (c.fld 1 0 0 = 0))

/-- R372 check 1: is the opcode accepted in the device's role? -/
def State.roleRefuses (s : State) (c : Cmd) : Bool :=
  (s.err.fatalDev && !servedInFatal c) || (s.sec.recovery && !servedInRecovery c) ||
  (match c.origin with
   | .host _ => decide (s.spar.st = 2) && decide (c.op ∉ [0x0000, 0x0001, 0x0702, 0x0A00])
   | .spar _ => false)

/-- The forwardable commands (R376). `PLAN_STOP` of a group plan is group-wide. -/
def State.forwardable (s : State) (c : Cmd) : Bool :=
  decide (c.op ∈ [0x0000, 0x0001, 0x0003, 0x0106, 0x0200, 0x0201, 0x0500, 0x0501, 0x0400, 0x0600, 0x0601, 0x0701, 0x0800,
                  0x0801, 0x0802, 0x0900, 0x0901, 0x0A00]) ||
  (decide (c.op = 0x0402) && match mget s.plans (c.fld 0 4 0) with | some p => !p.plan.group | none => true)

/-- What a command does once the shared checks have passed. -/
inductive Reply where
  /-- it ends with a status and a result -/
  | done (st : Status) (result : Nat) (s : State)
  /-- it has begun; a later event ends it -/
  | running (s : State)

/-- The status of the first check that fails, in the order given (R372). -/
def firstFail (l : List (Bool × Status)) : Option Status := (l.find? (·.1)).map (·.2)

/-- R372: rejected with the status of the first check that fails, otherwise carried out. `absent` is check 2; the
reserved fields of the entry's head come first among the checks 3. -/
def checked (c : Cmd) (absent : Bool) (l : List (Bool × Status)) (s : State) (k : Reply) : Reply :=
  match firstFail ((absent, .unsupported) :: (c.headReserved, .badField) :: l) with
  | some st => .done st 0 s
  | none => k

/-- R503: a refusal by the maintenance arbiter is counted: an instance in the scope, or no room for a job. -/
def refused (r : Reply) : Reply :=
  match r with
  | .done .busyMaint n s => .done .busyMaint n (count (errCnt 7) s)
  | .done .noResource n s => .done .noResource n (count (errCnt 7) s)
  | r => r

/-- R3, R372 check 2: does the command's entry need a unit that this part lacks: the tuning unit, a NEIGHBOUR tier, Spar, or
a Spar port that it names? -/
def State.absentUnit (s : State) (c : Cmd) : Bool :=
  match c.op with
  | 0x0202 | 0x0203 => !s.part.variant.tune
  | 0x0500 => decide (c.fld 0 3 0 ≠ 1) && decide (c.fld 0 15 12 = 2) && decide (s.part.variant.ports = 0)
  | 0x0501 => decide (c.fld 0 3 0 = 2) && decide (s.part.variant.ports = 0)
  | 0x0600 => decide (c.fld 0 3 0 = 9) && decide (s.part.variant.ports ≤ c.fld 0 10 8)
  | 0x0700 | 0x0701 => decide (s.part.variant.ports = 0)
  | 0x0A00 => decide (c.fld 0 7 0 = 1) && bit (c.arg 1) 0 &&
      (portsIn (c.fld 1 15 8)).any (fun p => decide (s.part.variant.ports ≤ p))
  | _ => false

/-- R376, R377: is `FWD` set on a command that is not forwardable (every command is local on an ungrouped device), or with a
member outside the group? -/
def State.fwdBad (s : State) (c : Cmd) : Bool :=
  !s.forwardable c || (decide (s.spar.st ≠ 1) && decide (s.spar.st ≠ 2)) ||
  (!mhas s.spar.members c.member && decide (c.member ≠ s.spar.member))

/-- R377: the outcome of a command with `FWD` set that no member can be sent, by the checks of R372 in their order. -/
def State.fwdCheck (s : State) (c : Cmd) : Option Status :=
  if !c.fwd then none
  else firstFail
    [((s.fwdBad c || decide (s.spar.st ≠ 1)) && s.absentUnit c, .unsupported),
     (s.fwdBad c || (decide (s.spar.st ≠ 1) && c.headReserved), .badField),
     (decide (s.spar.st ≠ 1), .wrongState)]

/-- Is a member LOST, as this manager knows it (R356)? -/
def State.isLost (s : State) (m : Nat) : Bool := match mget s.spar.members m with | some x => decide (x.st = 2) | none => false

/-- Is a command's payload one that the device reads (R379-R393)? -/
def Cmd.takesPay (c : Cmd) : Bool :=
  decide (c.op ∈ [0x0101, 0x0102, 0x0106, 0x0200, 0x0202, 0x0300, 0x0302, 0x0400, 0x0700, 0x0800, 0x0801, 0x0900, 0x0901])

/-- The input payload of a command as it was read; `none` is unreadable (R372). -/
def State.payload (s : State) (c : Cmd) (pay : BusRead) : BusRead :=
  if c.sub.payLen = 0 || !c.takesPay then some []
  else match c.origin with
    | .host _ => if c.payDva then s.devRead c.sub.payAddr.toNat c.sub.payLen else pay.map (fun b => slice b 0 c.sub.payLen)
    | .spar _ => pay

/-- Output of a command into the buffer at an address: host memory, a DVA, or back to the manager (R377). -/
def putOut (c : Cmd) (dva : Bool) (addr : Nat) (b : Bytes) (s : State) : State :=
  if b = [] then s
  else match c.origin with
    | .host _ => if dva then writeDva addr b s else emit (.hostWrite addr b) s
    | .spar m => sendTo m (.output addr b) s

/-- Output into the command's payload buffer. -/
def putPay (c : Cmd) (b : Bytes) (s : State) : State := putOut c c.payDva c.sub.payAddr.toNat b s

/-- A command is carried out: R372 check 1, then its own checks and effect. -/
def carryOut (c : Cmd) (body : Cmd → State → Reply) (s : State) : State :=
  if s.roleRefuses c then finish c.id .wrongState 0 s
  else match body c s with
    | .done st res t => finish c.id st res t
    | .running t => setRunning c.id t

/-- A submission entry again, as it is sent to a member (R377). -/
def subBytes (x : Submission) : Bytes :=
  toLE 2 x.opcode.toNat ++ toLE 2 x.tag.toNat ++ toLE 2 x.flags.toNat ++ toLE 2 x.res.toNat ++ toLE 4 x.seq.toNat ++
  toLE 4 x.payLen ++ toLE 8 x.payAddr.toNat ++ toLE 8 x.a0.toNat ++ toLE 8 x.a1.toNat ++ toLE 8 x.a2.toNat ++
  toLE 8 x.a3.toNat ++ toLE 8 x.a4.toNat

/-- R377: a command is sent to a member and its result awaited. -/
def forward (c : Cmd) (m : Nat) (pay : Bytes) (s : State) : State :=
  let q := match c.origin with | .host q => q | .spar _ => 0
  let s := sendTo m (.forward ⟨q, c.sub.tag⟩ (subBytes c.sub) pay) s
  { s with mbx := { s.mbx with cmds := s.mbx.cmds.map (fun d => if d.id = c.id then { d with running := true, fwdTo := some m } else d) } }

/-- An Iarik command's row: the fetched command named is carried out, forwarded, or rejected; with none that may start,
nothing happens (log 7). -/
def iarik (op : Nat) (r : CmdRef) (pay : BusRead) (body : Cmd → State → Reply) (s : State) : State :=
  match s.startable r op with
  | none => s
  | some c =>
    if s.roleRefuses c then finish c.id .wrongState 0 s
    else match s.fwdCheck c with
      | some st => finish c.id st 0 s
      | none => match s.fwdMember c with
        | some m =>
          match s.payload c pay with
          | none => finish c.id .badField 0 s
          | some b =>
            if s.isLost m then finish c.id (if c.headReserved then .badField else .wrongState) 0 s else forward c m b s
        | none => carryOut c body s

/-- A row that is one operation of an opcode: the command named is its own only where its operation field says so. -/
def iarikIf (op : Nat) (r : CmdRef) (sel : Cmd → Bool) (body : Cmd → State → Reply) (s : State) : State :=
  match s.startable r op with
  | some c => if sel c then iarik op r none body s else s
  | none => s

/-! ## Fetching (R363, R364) -/

/-- May the device fetch from a pair now (R362-R364)? -/
def State.fetchable (s : State) (q : Nat) : Bool :=
  let p := s.pair q
  p.enable && s.ready.mbx && !s.mbx.quiet && decide (s.pwr.state = .run) && decide (p.sqTail ≠ p.sqHead) &&
  decide (p.outstanding < p.n) && !p.retry && (!s.sec.recovery || decide (q = 0))

/-- R364: the pair served next, in ascending order after the pair served last. -/
def State.nextPair (s : State) : Option Nat :=
  ((List.range 64).map (fun i => (s.mbx.lastServed + 1 + i) % 64)).find? s.fetchable

/-- What the device reads at a pair's `sq_head`: a DVA or what the bus gave. -/
def State.sqEntry (s : State) (q : Nat) (entry : BusRead) : BusRead :=
  let p := s.pair q
  if p.sqDva then s.devRead (p.sqBase.toNat + 64 * p.sqHead) 64 else entry.map (fun b => slice b 0 64)

/-- R364, R366, R378: a fetched entry is taken in. -/
def acceptEntry (q : Nat) (b : Bytes) (s : State) : State :=
  let x := parseSub b
  let p := s.pair q
  let s := { s with mbx := { s.mbx with lastServed := q } }
  let s := updPair q (fun p => { p with sqHead := (p.sqHead + 1) % p.n, retry := false }) s
  if p.inUse x.tag then postCq q x.tag Status.badField.code (flag true 14) 0 true s
  else
    let c : Cmd := { id := s.mbx.nextId, origin := .host q, sub := x, running := false, discard := false, fwdTo := none }
    let s := updPair q (fun p => { p with tagsRun := p.tagsRun ++ [x.tag] }) s
    flushReserved { s with mbx := { s.mbx with cmds := s.mbx.cmds ++ [c], nextId := s.mbx.nextId + 1 } }

/-- A fetch from a pair: the entry is taken in, or its read has failed (R363). -/
def fetchFrom (q : Nat) (entry : BusRead) (s : State) : State :=
  match s.sqEntry q entry with
  | some b => acceptEntry q b s
  | none => updPair q (fun p => { p with ringErr := true, retry := true }) { s with mbx := { s.mbx with lastServed := q } }

/-- COMMAND_FETCH (R364). -/
def execCommandFetch (entry : BusRead) (s : State) : Host.Outcome State Fault Refusal :=
  .next (match s.nextPair with
    | some q => fetchFrom q entry s
    | none => s)

/-- SQ_FETCH_RETRY (R363): 10 us after a failed read the entry is fetched again. -/
def execSqFetchRetry (q : Nat) (entry : BusRead) (s : State) : Host.Outcome State Fault Refusal :=
  .next (if (s.pair q).enable && (s.pair q).retry && decide (q < 64) then fetchFrom q entry s else s)

/-! ## Doorbells and enables -/

/-- The BAR0 offset of a pair's register. -/
def qpOff (q o : Nat) : Nat := 0x10000 + 64 * q + o

/-- R363, R10: a write of an SQ tail doorbell. -/
def sqTailWrite (q v : Nat) (s : State) : State :=
  if 64 ≤ q then s
  else if 1024 ≤ v then hostAccess 0 (qpOff q 0x14) v 0 s
  else if (s.pair q).n ≤ v then hostAccess 0 (qpOff q 0x14) v 0 (updPair q (fun p => { p with badDb := true }) s)
  else updPair q (fun p => { p with sqTail := v }) s

/-- SQ_TAIL_DOORBELL (R363). -/
def execSqTailDoorbell (q : Nat) (value : Word) (s : State) : Host.Outcome State Fault Refusal :=
  .next (busAccess (.write (qpOff q 0x14) 4 value.toNat) 0 (qpOff q 0x14) value.toNat (sqTailWrite q value.toNat) s)

/-- R363, R364: a write of a CQ head doorbell: completions up to the new head are consumed and their tags freed. -/
def cqHeadWrite (q v : Nat) (s : State) : State :=
  if 64 ≤ q then s
  else if 1024 ≤ v then hostAccess 0 (qpOff q 0x18) v 0 s
  else if (s.pair q).n ≤ v then hostAccess 0 (qpOff q 0x18) v 0 (updPair q (fun p => { p with badDb := true }) s)
  else updPair q (fun p => { p with cqHead := v, tagsPosted := p.tagsPosted.drop ((v + p.n - p.cqHead) % p.n) }) s

/-- CQ_HEAD_DOORBELL (R363, R364). -/
def execCqHeadDoorbell (q : Nat) (value : Word) (s : State) : Host.Outcome State Fault Refusal :=
  .next (busAccess (.write (qpOff q 0x18) 4 value.toNat) 0 (qpOff q 0x18) value.toNat (cqHeadWrite q value.toNat) s)

/-- The fields of a pair's word 0x10 (R361). -/
def QPair.withCtrl (p : QPair) (v : Nat) : QPair :=
  { p with enable := bit v 0, sizeLog2 := BitVec.ofNat 4 (bits v 4 1), sqDva := bit v 5, cqDva := bit v 6,
           vector := BitVec.ofNat 11 (bits v 18 8), irqEn := bit v 19, coalN := BitVec.ofNat 4 (bits v 23 20),
           coalUs := BitVec.ofNat 8 (bits v 31 24) }

/-- R362: would a write of word 0x10 change a field that is fixed while the pair is in service? -/
def QPair.changesFixed (p : QPair) (v : Nat) : Bool :=
  decide (bits v 4 1 ≠ p.sizeLog2.toNat) || (bit v 5 != p.sqDva) || (bit v 6 != p.cqDva)

/-- R362: a write of word 0x10 with `enable` 1. The indices are set to 0 when the pair comes into service; a write of 1 to a
pair in service changes its other fields only. DEDUCED (log 26). -/
def qpEnableWrite (q v : Nat) (s : State) : State :=
  let p := s.pair q
  if 64 ≤ q || !bit v 0 then s
  else if bit v 7 || decide (bits v 4 1 < 4) || decide (10 < bits v 4 1) || (p.enable && p.changesFixed v) then
    hostAccess 0 (qpOff q 0x10) v 0 s
  else if p.enable then updPair q (fun p => p.withCtrl v) s
  else updPair q (fun p => { p.withCtrl v with
    sqTail := 0, sqHead := 0, cqTail := 0, cqHead := 0, phase := true, tagsRun := [], tagsPosted := [], unsig := 0,
    retry := false, ready := s.ready.mbx && (!s.sec.recovery || decide (q = 0)) }) s

/-- QP_ENABLE (R362). -/
def execQpEnable (q : Nat) (value : Word) (s : State) : Host.Outcome State Fault Refusal :=
  .next (busAccess (.write (qpOff q 0x10) 4 value.toNat) 0 (qpOff q 0x10) value.toNat (qpEnableWrite q value.toNat) s)

/-- R362: a pair goes out of service: nothing more is fetched and later completions are discarded. -/
def disablePair (q : Nat) (s : State) : State :=
  let s := updPair q (fun p => { p with enable := false, ready := false, retry := false }) s
  { s with mbx := { s.mbx with cmds := s.mbx.cmds.map (fun c => if c.origin = .host q then { c with discard := true } else c) } }

/-- R362: a write of word 0x10 with `enable` 0 is accepted whatever its other fields; a reserved bit set discards it (R10). -/
def qpDisableWrite (q v : Nat) (s : State) : State :=
  if 64 ≤ q || bit v 0 then s
  else if bit v 7 then hostAccess 0 (qpOff q 0x10) v 0 s
  else updPair q (fun p => { p.withCtrl v with ready := false }) (if (s.pair q).enable then disablePair q s else s)

/-- QP_DISABLE (R362). -/
def execQpDisable (q : Nat) (value : Word) (s : State) : Host.Outcome State Fault Refusal :=
  .next (busAccess (.write (qpOff q 0x10) 4 value.toNat) 0 (qpOff q 0x10) value.toNat (qpDisableWrite q value.toNat) s)

/-- COALESCE_TIMER_EXPIRY (R370). -/
def execCoalesceTimerExpiry (q : Nat) (s : State) : Host.Outcome State Fault Refusal :=
  .next (let p := s.pair q
    if p.irqEn && decide (0 < p.unsig) then
      raiseVector p.vector.toNat (updPair q (fun p => { p with unsig := 0 }) s)
    else s)

/-- R362, R363: when `mbx` sets, enabled pairs become ready. -/
def pairsReady (s : State) : State :=
  { s with mbx := { s.mbx with pairs := mmap (fun q p => { p with ready := p.enable && (!s.sec.recovery || decide (q = 0)) }) s.mbx.pairs } }

end Sys2Proof.Machine
end

