-- ==== Sys2Proof/Machine/Operands.lean ====
section
/-! DEFINITION. Sys2Proof/Machine/Operands.lean: the operand forms of engine command words, and the structures in the
activation stores that they name (chapter 07, R112-R114, R246, R250). -/

namespace Sys2Proof.Machine

/-- Bits [h:l] of a command word. -/
def wf (w : QWord) (h l : Nat) : Nat := bits w.toNat h l
/-- `opcode` (R231). -/
def wOp (w : QWord) : Nat := wf w 127 120
/-- `SIG` (R232). -/
def wSig (w : QWord) : Bool := w.getLsbD 112
/-- `FILL` (R232). -/
def wFill (w : QWord) : Bool := w.getLsbD 113
/-- `ACC_CLEAR` (R232). -/
def wClear (w : QWord) : Bool := w.getLsbD 114
/-- `RST` (R232). -/
def wRst (w : QWord) : Bool := w.getLsbD 115
/-- `X`: NOW, KEEP or SEG by opcode (R232). -/
def wX (w : QWord) : Bool := w.getLsbD 116
/-- `ctr` (R231). -/
def wCtr (w : QWord) : Nat := wf w 109 96

/-- The kinds of stream (R233). -/
inductive SKind where
  | f | e | c | s | el3
deriving DecidableEq, Repr

/-- R233: may a stream carry an opcode? -/
def opIn (k : SKind) (op : Nat) : Bool :=
  let fs : List Nat := [0x00, 0x01, 0x02, 0x03, 0x10, 0x11, 0x12, 0x13]
  let es : List Nat := [0x00, 0x01, 0x02, 0x04, 0x20, 0x21, 0x22, 0x23, 0x24, 0x25, 0x26, 0x27]
  match k with
  | .f => decide (op ∈ fs)
  | .e => decide (op ∈ es)
  | .c => decide (op ∈ [0x00, 0x01, 0x02, 0x03, 0x30])
  | .s => decide (op ∈ [0x00, 0x01, 0x02, 0x03, 0x31])
  | .el3 => decide (op ∈ fs) || decide (op ∈ es) || decide (op = 0x05)

/-- R257: does the completion table list an opcode? -/
def takesTime (op : Nat) : Bool :=
  decide (op ∈ [0x10, 0x11, 0x12, 0x20, 0x21, 0x22, 0x23, 0x24, 0x25, 0x26, 0x27, 0x30, 0x31])

/-- R232: the flags an opcode permits. -/
def flagsOk (k : SKind) (w : QWord) : Bool :=
  let op := wOp w
  (!wSig w || takesTime op) &&
  (!wFill w || decide (op ∈ [0x20, 0x21, 0x23, 0x24, 0x25]) || (decide (op = 0) && (decide (k = .e) || decide (k = .el3)))) &&
  (!wClear w || decide (op ∈ [0x20, 0x22])) && (!wRst w || decide (op = 0x02)) &&
  (!wX w || decide (op ∈ [0x02, 0x23, 0x25])) && decide (wf w 119 117 = 0)

/-- The numbers with ones in bits [h:l]. -/
def ones (h l : Nat) : Nat := 2 ^ (h + 1) - 2 ^ l

/-- The operand bits an opcode names (R234). -/
def namedBits (op : Nat) : Nat :=
  match op with
  | 0x01 => ones 31 0
  | 0x02 => ones 15 0
  | 0x03 => ones 35 0
  | 0x04 => ones 3 0
  | 0x10 => ones 59 0
  | 0x11 => ones 75 0
  | 0x12 => ones 28 0 + ones 79 30
  | 0x13 => ones 18 0
  | 0x20 => ones 95 0
  | 0x21 => ones 95 0
  | 0x22 => ones 95 0
  | 0x23 => ones 58 0
  | 0x24 => ones 95 0
  | 0x25 => ones 95 0
  | 0x26 => ones 73 0
  | 0x27 => ones 59 0
  | 0x30 => ones 4 0 + ones 13 8 + ones 95 16
  | 0x31 => ones 56 0
  | _ => 0

/-- R234: a counter is named by WAIT, SIGNAL and every word with `SIG`. -/
def namesCtr (w : QWord) : Bool := decide (wOp w = 1) || decide (wOp w = 2) || wSig w

/-- R231-R234: reserved bits, flags and the counter field. -/
def formOk (k : SKind) (w : QWord) : Bool :=
  opIn k (wOp w) && flagsOk k w && decide (Nat.land (wf w 95 0) (2 ^ 96 - 1 - namedBits (wOp w)) = 0) &&
  decide (wf w 111 110 = 0) && (namesCtr w || decide (wCtr w = 0))

/-! ## Sliver descriptors (R112-R114) -/

/-- A sliver descriptor (R112). -/
structure Desc where
  base    : Nat
  sb0     : Nat
  rows    : Nat
  chunks  : Nat
  elem    : Nat
  scale   : Nat
  form    : Nat
  kLog    : Nat
  nPart   : Nat
  accBase : Nat
  outBase : Nat
  maskOff : Nat
  groups  : Nat
deriving DecidableEq, Repr

/-- The 32 bytes of a descriptor. -/
def parseDesc (b : Bytes) : Desc :=
  { base := u b 0 2 % 8192, sb0 := u b 0 2 / 8192, rows := u b 2 2, chunks := u b 4 2, elem := u b 6 1 % 16,
    scale := bits (u b 6 1) 5 4, form := bits (u b 6 1) 7 6, kLog := u b 7 1, nPart := u b 8 2, accBase := u b 10 2,
    outBase := u b 12 4, maskOff := u b 16 4, groups := u b 20 2 }

/-- k (R112). -/
def Desc.k (d : Desc) : Nat := 2 ^ d.kLog
/-- Lines each participating cell holds (R113). -/
def Desc.lines (d : Desc) : Nat := d.rows * d.chunks / d.k
/-- Lines of one output row in one cell (R114). -/
def Desc.perRow (d : Desc) : Nat := d.chunks / d.k
/-- Holders (R114). -/
def Desc.holders (d : Desc) : Nat := d.nPart / d.k
/-- Output columns of one batch row. -/
def Desc.cols (d : Desc) : Nat := d.rows * d.holders
/-- N2 mode (R245)? -/
def Desc.n2 (d : Desc) : Bool := decide (d.elem = 2) || decide (d.elem = 3)
/-- SCALED form (R120)? -/
def Desc.scaled (d : Desc) : Bool := decide (d.form = 1)
/-- Bytes of codes a chunk consumes of an activation row (R114, R117). -/
def Desc.chunkBytes (d : Desc) : Nat := if d.n2 then 128 else 64

/-- R112, R113: fields in range, reserved bytes 0, the last line index in the user range. -/
def descOk (v : Variant) (b : Bytes) : Bool :=
  let d := parseDesc b
  decide (1 ≤ d.rows) && decide (d.rows ≤ 512) && decide (1 ≤ d.chunks) && decide (d.chunks ≤ 4096) && decide (d.kLog ≤ 10) &&
  decide (d.chunks % d.k = 0) && decide (d.elem ≤ 4) && decide (d.scale ≤ 2) && decide (d.form ≤ 1) &&
  decide (32 ≤ d.nPart) && decide (d.nPart ≤ 1024) && decide (d.nPart % d.k = 0) && decide (d.accBase ≤ 511) &&
  decide (d.outBase < 2 ^ 24) && decide (d.maskOff < 2 ^ 22) && decide (d.maskOff % 128 = 0) && decide (1 ≤ d.groups) &&
  decide (d.groups ≤ 256) && decide (leNat (slice b 22 10) = 0) && decide (bits (u b 6 1) 7 6 ≤ 1) &&
  decide (d.base < v.userBlocks * 256) && decide (d.base + (d.sb0 + d.lines - 1) / 8 < v.userBlocks * 256) &&
  (!decide (d.elem = 4) || decide (d.chunks = 1))

/-- The participating cells in rank order, from the 128 bytes of a mask (R113). -/
def maskCells (b : Bytes) : List Nat :=
  (List.range 1024).filter (fun c => bit (b.getD (c / 8) 0).toNat (c % 8))

/-- R113: the data sub-bank and line index of a cell's line L. -/
def Desc.place (d : Desc) (l : Nat) : Nat × Nat := ((d.sb0 + l) % 8, d.base + (d.sb0 + l) / 8)
/-- R114: the output row of line L. -/
def Desc.rowOf (d : Desc) (l : Nat) : Nat := l / d.perRow
/-- R114: the chunk of line L in the m-th cell of a holder. -/
def Desc.chunkOf (d : Desc) (m l : Nat) : Nat := m * d.perRow + l % d.perRow
/-- R120: the entry of output row i and batch row b. -/
def Desc.entry (d : Desc) (i b : Nat) : Nat := d.accBase + i * d.groups + b

/-- R120: the limit of a sweep's form. -/
def Desc.fits (d : Desc) : Bool := decide (d.accBase + d.rows * d.groups ≤ if d.scaled then 256 else 512)

/-! ## Segment records (R246) -/

/-- Store bytes of `n` bytes rounded up to whole store units. -/
def units (n : Nat) : Nat := cdiv n 64 * 64

/-- A segment record: scale, last block, reserved bits. -/
structure SegRec where
  scale : Half
  last  : Nat
  res   : Nat
deriving DecidableEq, Repr

/-- The records of one row. -/
def segRecs (b : Bytes) (n : Nat) : List SegRec :=
  (List.range n).map (fun i => let v := u b (4 * i) 4; ⟨BitVec.ofNat 16 v, bits v 27 16, bits v 31 28⟩)

/-- R246: do the last blocks ascend, with every reserved bit 0? -/
def segRecsOk : List SegRec → Bool
  | [] => true
  | [r] => decide (r.res = 0)
  | r :: q :: l => decide (r.res = 0) && decide (r.last < q.last) && segRecsOk (q :: l)

/-- The segment a block lies in: its index among the records. -/
def segOf (l : List SegRec) (blk : Nat) : Option SegRec := l.find? (fun r => decide (blk ≤ r.last))

/-! ## Parameter records (R250) -/

/-- R249: the parameter fields an operation uses: tab, eps, slot, n_len. -/
def prmUses (op : Nat) : Bool × Bool × Bool × Bool :=
  match op with
  | 0x1 => (false, false, true, false)
  | 0x2 => (true, true, true, true)
  | 0x3 => (true, true, true, true)
  | 0x9 => (true, false, false, false)
  | 0xA => (true, false, false, false)
  | _ => (false, false, false, false)

/-- R249: does an operation read a parameter record? -/
def usesPrm (op : Nat) : Bool := decide (op ∈ [0x1, 0x2, 0x3, 0x9, 0xA])

/-- R132: a positive normal binary32 value. -/
def posNormal (v : Nat) : Bool := decide (0x00800000 ≤ v) && decide (v ≤ 0x7F7FFFFF)

/-- R250: is a parameter record right for an operation? `kind` gives the kind of a symbol. -/
def prmOk (op : Nat) (kind : Nat → Option Nat) (b : Bytes) : Bool :=
  let (tab, eps, slot, len) := prmUses op
  (if tab then decide (kind (u b 0 4) = some 6) else decide (u b 0 4 = 0)) &&
  (if eps then posNormal (u b 4 4) else decide (u b 4 4 = 0)) &&
  (if slot then decide (u b 8 2 ≤ 4095) else decide (u b 8 2 = 0)) && decide (u b 10 2 = 0) &&
  (if len then decide (1 ≤ u b 12 4) && decide (u b 12 4 ≤ 2 ^ 24) else decide (u b 12 4 = 0))

/-! ## Checks of one word in its plan (R244-R256, R265, R266) -/

/-- R262: a run of a store lies wholly in one declared region of the array. -/
def Plan.covers (p : Plan) (a off len : Nat) : Bool :=
  decide (off + len ≤ storeBytes) &&
  p.regions.any (fun r => decide (r.array = a) && decide (r.offset ≤ off) && decide (off + len ≤ r.offset + r.length))

/-- The kind of a symbol (R264). -/
def Plan.symKind (p : Plan) (i : Nat) : Option Nat := (p.symbols[i]?).map (·.kind)
/-- Is a counter declared, and is it group-scope (R205)? -/
def Plan.ctr (p : Plan) (n : Nat) : Option CtrDecl := p.counters.find? (fun c => decide (c.number = n))
/-- Is an array used by the plan? -/
def Plan.uses (p : Plan) (a : Nat) : Bool := p.arrays.getLsbD a
/-- The quant-point entries of a number (R73). -/
def Plan.qps (p : Plan) (n : Nat) : List QPoint := p.qpoints.filter (fun q => decide (q.qp = n))

/-- Segments of a part of `n` blocks (R74). -/
def segCount (segBlocks n : Nat) : Nat := if segBlocks = 0 then 1 else cdiv n segBlocks

/-- A reader of bytes of an array's store: the preload image at load, the store itself at run time (R534). -/
abbrev StoreRd := Nat → Nat → Nat → Bytes

/-- R112, R113, R534: the descriptor and mask at a byte offset hold. -/
def descAt (v : Variant) (p : Plan) (rd : StoreRd) (a off : Nat) : Bool :=
  let b := rd a off 32
  p.covers a off 32 && descOk v b && p.covers a (parseDesc b).maskOff 128 &&
  decide ((maskCells (rd a (parseDesc b).maskOff 128)).length = (parseDesc b).nPart)

/-- R244, R245, R57: a sweep word. -/
def sweepOk (v : Variant) (p : Plan) (rd : StoreRd) (a : Nat) (w : QWord) : Bool :=
  let op := wOp w
  let off := wf w 16 0 * 32
  let d := parseDesc (rd a off 32)
  let act := wf w 32 17 * 64
  let stride := wf w 48 33 * 64
  let seg := wf w 64 49 * 64
  let segN := wf w 73 65 + 1
  let port := wf w 74 74 = 1
  let f4 := wf w 75 75 = 1
  let w0 := wf w 87 76 * 32
  let wn := (wf w 95 88 + 1) * 32
  let rowB := if op = 0x21 then 128 else if op = 0x22 then cdiv (d.outBase + d.cols) 32 * 16 else d.chunks * d.chunkBytes
  descAt v p rd a off && decide (1 ≤ wf w 48 33) && decide (wf w 48 33 ≤ 49151) &&
  p.covers a act ((d.groups - 1) * stride + rowB) &&
  (if port then true else decide ((d.scale = 2) = (d.elem = 4))) &&
  (match op with
   | 0x20 => decide (d.elem ≤ 3) && d.fits && decide (wf w 95 76 = 0) && p.covers a seg (d.groups * units (4 * segN))
   | 0x21 => decide (d.elem = 4) && decide (d.chunks = 1) && !f4 && decide (wf w 73 49 = 0) && d.scaled && d.fits &&
             decide (wf w 95 76 = 0)
   | _ => f4 && decide (segN = 1) && p.covers a seg ((d.groups - 1) * (cdiv (wf w 48 33) 16 * 64) + cdiv (d.outBase + d.cols) 32) &&
          decide (w0 + wn ≤ d.chunks * (if d.n2 then 256 else if d.elem = 4 then 64 else 128)) &&
          decide (d.accBase + wn * d.groups ≤ 512) && (decide (d.kLog = 0) || d.scaled))

/-- R247: a DRAIN word. -/
def drainOk (v : Variant) (p : Plan) (rd : StoreRd) (a : Nat) (w : QWord) : Bool :=
  let off := wf w 16 0 * 32
  let d := parseDesc (rd a off 32)
  let seg := wf w 32 17 * 64
  let x := wf w 58 58 = 1
  descAt v p rd a off && decide (wf w 41 33 = 0) &&
  (if d.scaled || x then decide (seg = 0) else p.covers a seg (d.groups * 64)) &&
  (if wX w then (if x then p.covers a (wf w 57 42 * 64) 64 else p.covers a (wf w 57 42 * 64) (d.groups * units (4 * d.cols)))
   else decide (wf w 57 42 = 0))

/-- R248-R250: a POST word. -/
def postOk (p : Plan) (rd : StoreRd) (a : Nat) (w : QWord) : Bool :=
  let op := wf w 3 0
  let rows := wf w 15 8 + 1
  let n := wf w 31 16 * 32
  let opnd := wf w 63 48 * 64
  let fmt := wf w 4 4
  decide (op ≤ 0xD) && decide (1 ≤ wf w 31 16) && decide (wf w 31 16 ≤ 2048) &&
  (if usesPrm op then p.covers a (wf w 47 32 * 64) 16 && prmOk op p.symKind (rd a (wf w 47 32 * 64) 16) else true) &&
  (if wf w 5 5 = 1 then p.covers a (wf w 79 64 * 64) (rows * n * 4) else decide (wf w 79 64 = 0)) &&
  (if wf w 6 6 = 1 then p.covers a (wf w 95 80 * 64) (rows * n * 4) else decide (wf w 95 80 = 0)) && decide (wf w 7 7 = 0) &&
  (match op with
   | 0x6 => decide (fmt = 0) && p.covers a opnd (rows * n * 4)
   | 0xC => decide (fmt = 0) && p.covers a opnd (rows * n * 4)
   | 0x8 => decide (fmt = 0) && p.covers a opnd (rows * 8)
   | 0xB => decide (fmt = 1) && p.covers a opnd (n * 2)
   | 0xD => p.covers a opnd (n * (if fmt = 1 then 2 else 4))
   | _ => decide (fmt = 0) && decide (opnd = 0))

/-- R251: a QUANT word. -/
def quantOk (p : Plan) (a : Nat) (w : QWord) : Bool :=
  let rows := wf w 17 10 + 1
  let n := wf w 36 26 + 1
  let vein := wf w 95 80 * 64
  !(p.qps (wf w 9 0)).isEmpty && decide (wf w 25 18 + rows ≤ 256) && decide (wf w 47 37 + n ≤ 2048) &&
  p.covers a (wf w 63 48 * 64) (rows * units (n * 16)) &&
  (p.qps (wf w 9 0)).all (fun q =>
    p.covers a (wf w 79 64 * 64) (rows * units (if q.format = 2 then n else 4 * segCount q.segBlocks n)) &&
    (if q.vein = [] then decide (vein = 0) else p.covers a vein (rows * 128)))

/-- R235, R253, R283, R299: a SEND word. -/
def sendOk (p : Plan) (a : Nat) (w : QWord) : Bool :=
  let len := wf w 37 16
  let remote := wf w 50 50 = 1
  let codec := wf w 51 51 = 1
  let kind := wf w 53 52
  decide (16 ≤ len) && decide (len ≤ 3145728) && decide (len % 16 = 0) && p.covers a (wf w 15 0 * 64) len &&
  decide (kind ≤ 2) && (!remote || p.group) && (!codec || remote || decide (kind = 2)) &&
  (!(remote && wSig w) || (match p.ctr (wCtr w) with | some c => c.group | none => false)) &&
  (match kind with
   | 0 => if remote then decide (wf w 73 54 * 64 + len ≤ storeBytes) else p.covers (wf w 43 38) (wf w 73 54 * 64) len
   | 1 => decide (wf w 73 54 * 64 + len ≤ hubBytes)
   | _ => match p.blocks[wf w 73 54]? with
     | some e => (!codec || remote || e.coded) && (decide (p.symKind e.sym ≠ some 3) || decide (e.offset = 0))
     | none => false)

/-- R255, R344: a COLLECTIVE word. -/
def collectiveOk (p : Plan) (w : QWord) : Bool :=
  let op := wf w 1 0
  decide (op ≤ 2) && (decide (op ≠ 2) || decide (wf w 2 2 = 1)) && (decide (wf w 3 3 = 0) || decide (op = 0)) && (decide (wf w 4 4 = 0) || decide (op = 1)) &&
  (decide (wf w 13 8 = 0) || decide (op = 2)) && decide (wf w 41 16 % 64 = 0) && decide (wf w 67 42 % 64 = 0) &&
  decide (wf w 95 68 % 64 = 0) && decide (0 < wf w 95 68) && decide (wf w 41 16 + wf w 95 68 ≤ hubBytes) &&
  decide (wf w 67 42 + wf w 95 68 ≤ hubBytes) && (decide (wf w 2 2 = 0) || p.group)

/-- R256: a STREAM_IO word. -/
def streamIoOk (p : Plan) (w : QWord) : Bool :=
  let rows := wf w 24 17 + 1
  let len := rows * units (wf w 56 41 * 16)
  let off := wf w 40 25 * 64
  decide (wf w 1 0 ≤ 1) && (decide (wf w 8 8 = 0) || decide (wf w 7 2 = 0)) && decide (1 ≤ wf w 56 41) &&
  decide (wf w 16 9 + rows ≤ 256) &&
  (if wf w 8 8 = 1 then (List.range 64).all (fun a => !p.uses a || p.covers a off len)
   else p.uses (wf w 7 2) && p.covers (wf w 7 2) off len)

/-- Stored bytes of a run of entries. -/
def Plan.runBytes (p : Plan) (first n : Nat) : Nat := ((p.blocks.drop first).take n).foldl (fun t b => t + b.length) 0

/-- R283: an entry that a fetch word reads has no write mode. -/
def Blk.reads (e : Blk) : Bool := !bit e.table 11

/-- R238-R242: a fetch word that moves entries. -/
def fetchOk (v : Variant) (p : Plan) (rd : StoreRd) (a : Nat) (w : QWord) : Bool :=
  let first := wf w 20 0
  let n := wf w 36 21
  let dst := wf w 38 37
  wSig w && decide (1 ≤ n) && decide (first + n ≤ p.blocks.length) && ((p.blocks.drop first).take n).all Blk.reads && decide (dst ≤ 1) &&
  (if dst = 0 then decide (wf w 55 55 = 0) && decide (wf w 59 56 = 0) else
     decide (wf w 59 56 ≤ 10) && descAt v p rd a (wf w 55 39 * 32)) &&
  (if wOp w = 0x11 then
     let m := u (rd a (wf w 75 60 * 64) 8) 0 8
     decide (dst = 0) && p.covers a (wf w 75 60 * 64) 8 && decide (m ≠ 0) && decide (Nat.land m p.arrays.toNat = m) &&
     (List.range 64).all (fun i => !bit m i || p.covers i (wf w 54 39 * 64) (p.runBytes first n))
   else if dst = 0 then p.covers a (wf w 54 39 * 64) (p.runBytes first n) else true)

/-- R241, R242: a KV_FETCH word. -/
def kvFetchOk (v : Variant) (p : Plan) (rd : StoreRd) (a : Nat) (w : QWord) : Bool :=
  wSig w && decide (p.symKind (wf w 27 8) = some 3) && (match p.blocks[wf w 50 30]? with | some e => e.reads | none => false) &&
  decide (wf w 71 68 ≤ 10) &&
  descAt v p rd a (wf w 67 51 * 32)

/-- R265, R266: the checks of a word that do not depend on other words. `sc` is the schedule whose sequence holds it. -/
def wordOk (v : Variant) (p : Plan) (k : SKind) (rd : StoreRd) (a sc : Nat) (w : QWord) : Bool :=
  formOk k w && (!namesCtr w || (p.ctr (wCtr w)).isSome) &&
  (match wOp w with
   | 0x02 => if wRst w then decide (wf w 15 0 = 0) else decide (1 ≤ wf w 15 0)
   | 0x03 => decide (wf w 3 0 = sc) && (match p.scheds[sc]? with | some s => decide (wf w 35 4 < s.deadline) | none => false)
   | 0x04 => decide (wf w 3 0 = sc)
   | 0x05 => p.el3
   | 0x10 => fetchOk v p rd a w
   | 0x11 => fetchOk v p rd a w
   | 0x12 => kvFetchOk v p rd a w
   | 0x13 => decide (wf w 2 0 ≤ 4)
   | 0x20 => sweepOk v p rd a w
   | 0x21 => sweepOk v p rd a w
   | 0x22 => sweepOk v p rd a w
   | 0x23 => drainOk v p rd a w
   | 0x24 => postOk p rd a w
   | 0x25 => quantOk p a w
   | 0x26 => sendOk p a w
   | 0x27 => decide (16 ≤ wf w 37 16) && decide (wf w 37 16 ≤ 3145728) && decide (wf w 37 16 % 16 = 0) &&
             p.covers (wf w 43 38) (wf w 15 0 * 64) (wf w 37 16) && p.covers a (wf w 59 44 * 64) (wf w 37 16)
   | 0x30 => collectiveOk p w
   | 0x31 => streamIoOk p w
   | _ => true)

/-- R4, R265: does a word use a unit the variant does not have? -/
def wordAbsent (v : Variant) (w : QWord) : Bool :=
  let op := wOp w
  (!v.tune && (decide (op = 0x22) || (decide (op = 0x23) && decide (wf w 58 58 = 1)))) ||
  (decide (v.ports = 0) && ((decide (op = 0x26) && decide (wf w 50 50 = 1)) ||
    (decide (op = 0x30) && (decide (wf w 2 2 = 1) || decide (wf w 4 4 = 1)))))

end Sys2Proof.Machine
end

