-- ==== Sys2Proof/Machine/Plan.lean ====
section
/-! DEFINITION. Sys2Proof/Machine/Plan.lean: the plan image, its tables, and every check that `PLAN_LOAD` makes of it
(R190-R192, R217-R219, R231-R266, R534). -/

namespace Sys2Proof.Machine

/-! ## The container (R190, R191) -/

/-- Section `i` of `dir`: offset, length, item count. -/
def secOf (b : Bytes) (i : Nat) : Nat × Nat × Nat := (u b (64 + 16 * i) 4, u b (68 + 16 * i) 4, u b (72 + 16 * i) 4)
/-- The bytes of a section. -/
def secBytes (b : Bytes) (i : Nat) : Bytes := slice b (secOf b i).1 (secOf b i).2.1
/-- The first `k` items of `n` bytes of a run. -/
def cutItems (n : Nat) : Nat → Bytes → List Bytes
  | 0, _ => []
  | k + 1, b => slice b 0 n :: cutItems n k (b.drop n)
/-- A run of bytes cut into items of `n` bytes. -/
def items (n : Nat) (b : Bytes) : List Bytes := cutItems n (b.length / n) b

/-- R190: the header's fields. -/
def headerOk (b : Bytes) : Bool :=
  decide (256 ≤ b.length) && decide (b.length ≤ 0x4000000) && decide (b.length % 16 = 0) && decide (u b 0 4 = 0x4C504C45) &&
  (decide (u b 4 2 = 0x0401) || decide (u b 4 2 = 0x0301)) && decide (bits (u b 6 2) 15 2 = 0) &&
  decide (u b 8 4 = b.length) && decide (u b 12 4 = (crc32c (b.take 12 ++ [0, 0, 0, 0] ++ b.drop 16)).toNat) &&
  decide (u b 24 1 = 1 ∨ u b 24 1 = 2 ∨ u b 24 1 = 4) && decide (u b 25 1 ≤ 3) && decide (1 ≤ u b 26 1) &&
  decide (u b 26 1 ≤ 16) && decide (u b 27 1 = 0) && decide (leNat (slice b 40 24) = 0)

/-- EL3 fence mode (R199)? -/
def isEl3 (b : Bytes) : Bool := decide (u b 4 2 = 0x0301)

/-- Do two sections lie apart? An absent one overlaps nothing. -/
def apart (x y : Nat × Nat × Nat) : Bool :=
  decide (x.2.1 = 0) || decide (y.2.1 = 0) || decide (x.1 + x.2.1 ≤ y.1) || decide (y.1 + y.2.1 ≤ x.1)

/-- R191: is a section required? -/
def secRequired (el3 : Bool) (i : Nat) : Bool := decide (i ∈ [0, 3, 5, 6, 7, 11]) || (decide (i = 1) && !el3)

/-- Bytes of an item of a section of fixed-size items; 0 for the sections without. -/
def itemSize (i : Nat) : Nat :=
  match i with
  | 0 | 1 => 8
  | 2 | 3 | 5 | 8 | 11 => 16
  | 4 => 32
  | 6 => 560
  | 9 => 160
  | _ => 0

/-- R191: the directory. The items of section 7 are its records: DEDUCED (log 8). -/
def dirOk (b : Bytes) : Bool :=
  let secs := (List.range 12).map (secOf b)
  let decl := secBytes b 7
  decide ((secOf b 7).2.2 = u decl 0 4 + 320 + u decl 4 4) &&
  (List.range 12).all (fun i =>
    let s := secOf b i
    decide (u b (76 + 16 * i) 4 = 0) &&
    (if s.2.1 = 0 then !secRequired (isEl3 b) i
     else decide (s.1 % 16 = 0) && decide (256 ≤ s.1) && decide (s.1 + s.2.1 ≤ b.length) &&
          (decide (itemSize i = 0) || decide (s.2.1 = s.2.2 * itemSize i)) && !(isEl3 b && decide (i = 1)) &&
          (!decide (i < 2) || decide (s.2.2 = 64)) && (!decide (i = 6) || decide (s.2.2 = u b 26 1)))) &&
  (List.range 12).all (fun i => (List.range i).all (fun j => apart (secs.getD i (0, 0, 0)) (secs.getD j (0, 0, 0))))

/-! ## Items -/

/-- A command word (R231). -/
def wordOf (b : Bytes) : QWord := BitVec.ofNat 128 (leNat b)
/-- The words of a section. -/
def secWords (b : Bytes) (i : Nat) : List QWord := (items 16 (secBytes b i)).map wordOf

/-- The stream of an array in section 0 or 1: word offset and count into section 11. -/
def streamAt (b : Bytes) (i a : Nat) : Nat × Nat :=
  let s := (items 8 (secBytes b i)).getD a []
  (u s 0 4, u s 4 4)

/-- An entry point: 0xFFFF_FFFF where the schedule does not use the stream (R261). -/
def entryPoint (b : Bytes) (off : Nat) : Option Nat := if u b off 4 = 0xFFFFFFFF then none else some (u b off 4)

/-- The entry points of the 64 arrays. -/
def entryPoints (b : Bytes) (off : Nat) : NMap Nat :=
  ((List.range 64).zip (items 4 (slice b off 256))).filterMap (fun x => (entryPoint x.2 0).map (fun e => (x.1, e)))

/-- A schedule entry (R261). -/
def parseSched (b : Bytes) : Sched :=
  { period := u b 0 4, offset := u b 4 4, deadline := u b 8 4, wcStep := u b 12 4, inLead := u b 16 4, rt := bit (u b 20 1) 0,
    fetchEp := entryPoints b 32, execEp := entryPoints b 288, collEp := entryPoint b 544, strmEp := entryPoint b 548 }

/-- R192, R261: a schedule entry's ranges and reserved bytes. -/
def schedOk (b : Bytes) : Bool :=
  let s := parseSched b
  decide (10000 ≤ s.period) && decide (s.period ≤ 4000000000) && decide (s.offset < s.period) && decide (1 ≤ s.wcStep) &&
  decide (s.wcStep ≤ s.deadline) && decide (s.deadline ≤ s.period) && decide (s.inLead ≤ s.period) &&
  decide (u b 20 1 ≤ 1) && decide (leNat (slice b 21 11) = 0) && decide (leNat (slice b 552 8) = 0)

/-- A counter record (R262). -/
def parseCtr (b : Bytes) : CtrDecl :=
  { number := bits (u b 0 2) 13 0, group := bit (u b 0 2) 14, planKind := bit (u b 0 2) 15, sched := bits (u b 2 1) 3 0,
    init := u b 4 4 }
/-- R262: a counter record's fields. -/
def ctrOk (nSched : Nat) (b : Bytes) : Bool :=
  let c := parseCtr b
  decide (bits (u b 2 1) 7 4 = 0) && decide (u b 3 1 = 0) &&
  (if c.planKind then decide (c.sched = 0) else decide (c.sched < nSched))

/-- A region record (R262). -/
def parseRegion (b : Bytes) : Region := { array := u b 0 1, kind := u b 1 1, offset := u b 4 4, length := u b 8 4 }
/-- R262: a region record's fields. -/
def regionOk (b : Bytes) : Bool :=
  decide (u b 0 1 < 64) && decide (u b 1 1 ≤ 2) && decide (u b 2 2 = 0) && decide (u b 4 4 % 64 = 0) &&
  decide (u b 8 4 % 64 = 0) && decide (u b 12 4 = 0)

/-- A block-list entry (R258). -/
def parseBlk (b : Bytes) : Blk :=
  { tier := bits (u b 0 1) 3 0, coded := bit (u b 1 1) 0, sym := u b 4 4, offset := u b 8 8, length := u b 16 4,
    deadline := u b 20 4, fallback := u b 24 2, table := u b 26 2 }
/-- R258, R283: a block-list entry's fields. -/
def blkOk (nSym : Nat) (b : Bytes) : Bool :=
  let e := parseBlk b
  decide (u b 0 1 ≤ 3) && decide (u b 1 1 ≤ 1) && decide (u b 2 2 = 0) && decide (e.sym < nSym) && decide (e.sym < 2 ^ 20) &&
  !bit e.table 10 && decide (e.offset % 16 = 0) && decide (e.offset < 2 ^ 48) && decide (16 ≤ e.length) && decide (e.length ≤ 4194304) &&
  decide (e.length % 16 = 0) && decide (e.table < 4096) && (e.coded || decide (e.table = 0)) && decide (u b 28 4 = 0)

/-- A fallback entry (R260). -/
def parseFallb (b : Bytes) : Fallb := { action := u b 0 1, subSym := u b 4 4, subOffset := u b 8 8 }
/-- R260: a fallback entry's fields. -/
def fallbOk (kind : Nat → Option Nat) (b : Bytes) : Bool :=
  decide (u b 0 1 ≤ 2) && decide (leNat (slice b 1 3) = 0) &&
  (if u b 0 1 = 1 then decide (kind (u b 4 4) = some 5) else decide (u b 4 4 = 0) && decide (u b 8 8 = 0))

/-- A symbol entry (R264). -/
def parseSym (b : Bytes) : Symb := { kind := u b 0 1, ident := BitVec.ofNat 64 (u b 8 8) }
/-- R264, R375: a symbol entry's kind, reserved bytes and identifier space. -/
def symOk (b : Bytes) : Bool := decide (u b 0 1 ≤ 6) && decide (leNat (slice b 1 7) = 0) && decide (u b 15 1 ≤ 2)

/-- A quant-point entry (R263). -/
def parseQp (b : Bytes) : QPoint :=
  { qp := u b 0 2, format := bits (u b 2 1) 1 0, carried := bit (u b 2 1) 2, stochastic := bit (u b 2 1) 3,
    segBlocks := u b 4 2, windowK := u b 6 1, headroomN := bits (u b 7 1) 3 0, underU := bits (u b 7 1) 5 4,
    satLimit := u b 8 1, allowance := u b 9 1, seedMaxabs := BitVec.ofNat 16 (u b 10 2), model := u b 12 4,
    vein := (List.range (u b 16 1)).map (fun i => u b (32 + 2 * i) 2) }
/-- R75, R76, R263: a quant-point entry's fields. -/
def qpOk (kind : Nat → Option Nat) (b : Bytes) : Bool :=
  let q := parseQp b
  decide (q.qp < 1024) && decide (q.format ≤ 2) && decide (u b 2 1 < 16) && decide (u b 3 1 = 0) && decide (q.segBlocks ≤ 2048) &&
  decide (1 ≤ q.windowK) && decide (q.windowK ≤ 8) && decide (q.underU ≤ 2) && decide (u b 7 1 < 64) &&
  (decide (q.seedMaxabs = 0) || validScale q.seedMaxabs) && decide (kind q.model = some 0) && decide (q.model < 2 ^ 20) && decide (u b 16 1 ≤ 64) &&
  decide (leNat (slice b 17 15) = 0) && decide (leNat (slice b (32 + 2 * u b 16 1) (128 - 2 * u b 16 1)) = 0) &&
  !(q.carried && decide (q.format = 2)) && !(q.stochastic && !decide (q.format = 2)) &&
  (decide (q.vein = []) || !decide (q.format = 2)) && decide q.vein.Nodup

/-! ## The parsed plan -/

/-- How many counter and region records section 7 holds. -/
def declCounts (b : Bytes) : Nat × Nat := let s := secBytes b 7; (u s 0 4, u s 4 4)

/-- The plan an image holds; `none` where the container or its preload section does not parse. The words of the hub streams are
those of sections 2 and 3 themselves: DESIGN CHOICE (log 95), as R191 gives those sections 128-bit words and no indices. -/
def parsePlan (b : Bytes) : Option Plan :=
  let words := secWords b 11
  let decl := secBytes b 7
  let (nc, nr) := declCounts b
  let stream (i a : Nat) : List QWord := let s := streamAt b i a; (words.drop s.1).take s.2
  let pre := if (secOf b 10).2.1 = 0 then some [] else Config.preloadItems (secBytes b 10)
  if headerOk b && dirOk b && decide (decl.length = 16 + 8 * nc + 1280 + 16 * nr) then
    (pre.filter (fun pre => decide (pre.length = if (secOf b 10).2.1 = 0 then 0 else (secOf b 10).2.2))).map (fun pre =>
      { el3 := isEl3 b, group := bit (u b 6 2) 0, seed := if bit (u b 6 2) 1 then some (BitVec.ofNat 32 (u b 28 4)) else none,
        length := b.length, arrays := BitVec.ofNat 64 (u b 16 8), maintM := u b 24 1, pSched := u b 25 1,
        planId := BitVec.ofNat 64 (u b 32 8), scheds := (items 560 (secBytes b 6)).map parseSched,
        counters := (items 8 (slice decl 16 (8 * nc))).map parseCtr,
        regs := (items 4 (slice decl (16 + 8 * nc) 1280)).map (fun r => (bits (u r 0 4) 15 0, bits (u r 0 4) 21 16)),
        regions := (items 16 (slice decl (1296 + 8 * nc) (16 * nr))).map parseRegion,
        blocks := (items 32 (secBytes b 4)).map parseBlk, fallbacks := (items 16 (secBytes b 8)).map parseFallb,
        qpoints := (items 160 (secBytes b 9)).map parseQp, symbols := (items 16 (secBytes b 5)).map parseSym,
        preload := pre.map (fun i => ⟨i.1, i.2.1, i.2.2⟩),
        fetchW := (List.range 64).filterMap (fun a => if stream 0 a = [] then none else some (a, stream 0 a)),
        execW := (List.range 64).filterMap (fun a => if stream 1 a = [] then none else some (a, stream 1 a)),
        collW := secWords b 2, strmW := secWords b 3 })
  else none

/-- The arrays of a plan, ascending. -/
def Plan.arrayList (p : Plan) : List Nat := (List.range 64).filter p.uses
/-- The fetch words of an array. -/
def Plan.fetchOf (p : Plan) (a : Nat) : List QWord := mgetD p.fetchW a []
/-- The execute words of an array. -/
def Plan.execOf (p : Plan) (a : Nat) : List QWord := mgetD p.execW a []
/-- The words that run on an array's execute engine: in fence mode they share the single stream. -/
def Plan.execStream (p : Plan) (a : Nat) : List QWord := if p.el3 then p.fetchOf a else p.execOf a

/-- Entry points of one stream by schedule. -/
def Plan.eps (p : Plan) (f : Sched → Option Nat) : List (Nat × Nat) :=
  (List.range p.scheds.length).filterMap (fun i => ((p.scheds[i]?).bind f).map (fun e => (i, e)))
/-- Entry points of an array's fetch stream. -/
def Plan.fetchEps (p : Plan) (a : Nat) : List (Nat × Nat) := p.eps (fun s => mget s.fetchEp a)
/-- Entry points of an array's execute stream. -/
def Plan.execEps (p : Plan) (a : Nat) : List (Nat × Nat) := p.eps (fun s => mget s.execEp a)
/-- Entry points of the hub streams. -/
def Plan.collEps (p : Plan) : List (Nat × Nat) := p.eps (·.collEp)
def Plan.strmEps (p : Plan) : List (Nat × Nat) := p.eps (·.strmEp)

/-- Where the sequence that begins at an entry point ends: the next entry point above it, or the stream's end. -/
def seqEnd (eps : List (Nat × Nat)) (n ep : Nat) : Nat :=
  eps.foldl (fun e x => if ep < x.2 ∧ x.2 < e then x.2 else e) n

/-- The schedule whose sequence holds a word: the last entry point at or before it; 16 where there is none. -/
def seqOwner (eps : List (Nat × Nat)) (i : Nat) : Nat :=
  ((eps.foldl (fun (best : Option (Nat × Nat)) x =>
    if x.2 ≤ i then match best with
      | some y => if y.2 < x.2 then some x else some y
      | none => some x
    else best) none).map (·.1)).getD 16

/-- A stream's words with their indices. -/
def indexed (l : List QWord) : List (Nat × QWord) := (List.range l.length).zip l

/-! ## Checks of the plan as a whole -/

/-- The preload image as an array's store holds it, other bytes zero (R534). -/
def Plan.image (p : Plan) : StoreRd := fun a off n =>
  let its := p.preload.filter (fun i => decide (i.array = a) && decide (i.offset < off + n) && decide (off < i.offset + i.data.length))
  (List.range n).map (fun j =>
    its.foldl (fun v i => if i.offset ≤ off + j ∧ off + j < i.offset + i.data.length then i.data.getD (off + j - i.offset) 0 else v) 0)

/-- R197, R233, R265: every word of one stream, by its own checks. -/
def Plan.streamOk (v : Variant) (p : Plan) (k : SKind) (a : Nat) (eps : List (Nat × Nat)) (ws : List QWord) : Bool :=
  eps.all (fun e => decide (e.2 < ws.length)) &&
  (indexed ws).all (fun x => wordOk v p k p.image a (seqOwner eps x.1) x.2)

/-- R197: a sequence begins with `AT_TIME`. -/
def beginsAtTime (eps : List (Nat × Nat)) (ws : List QWord) : Bool :=
  eps.all (fun e => match ws[e.2]? with | some w => decide (wOp w = 0x03) && decide (wf w 3 0 = e.1) | none => false)
/-- R197: a sequence ends with `END_STEP`. -/
def endsEndStep (eps : List (Nat × Nat)) (ws : List QWord) : Bool :=
  eps.all (fun e => match ws[seqEnd eps ws.length e.2 - 1]? with
    | some w => decide (wOp w = 0x04) && decide (wf w 3 0 = e.1)
    | none => false)

/-- R252: POST words to the quantiser and QUANT words come in pairs of equal size. -/
def pairsOk : Option QWord → List QWord → Bool
  | none, [] => true
  | some _, [] => false
  | p, w :: l =>
    if wOp w = 0x24 && decide (wf w 6 6 = 0) then decide (p = none) && pairsOk (some w) l
    else if wOp w = 0x25 then
      match p with
      | some q => decide (wf w 17 10 = wf q 15 8) && decide (wf w 36 26 + 1 = wf q 31 16) && pairsOk none l
      | none => false
    else pairsOk p l

/-- The store runs that a QUANT word writes (R246, R251). -/
def Plan.quantRuns (p : Plan) (w : QWord) : List (Nat × Nat) :=
  let rows := wf w 17 10 + 1
  let n := wf w 36 26 + 1
  (wf w 63 48 * 64, rows * units (n * 16)) ::
  ((p.qps (wf w 9 0)).map (fun q => (wf w 79 64 * 64, rows * units (if q.format = 2 then n else 4 * segCount q.segBlocks n))) ++
   (p.qps (wf w 9 0)).filterMap (fun q => if q.vein = [] then none else some (wf w 95 80 * 64, rows * 128)))

/-- R76: after a QUANT, does no SEND read what it writes before a WAIT on its counter? -/
def Plan.sendsAfter (p : Plan) (runs : List (Nat × Nat)) (ctr : Option Nat) : List QWord → Bool
  | [] => true
  | w :: l =>
    if wOp w = 0x01 && decide (some (wCtr w) = ctr) then true
    else if wOp w = 0x26 && runs.any (fun r => decide (wf w 15 0 * 64 < r.1 + r.2) && decide (r.1 < wf w 15 0 * 64 + wf w 37 16)) then false
    else p.sendsAfter runs ctr l

/-- R76: the rule of `sendsAfter` for every QUANT of a stream. -/
def Plan.releasesOk (p : Plan) : List QWord → Bool
  | [] => true
  | w :: l =>
    (if wOp w = 0x25 then p.sendsAfter (p.quantRuns w) (if wSig w then some (wCtr w) else none) l else true) && p.releasesOk l

/-- R120: the entries of PLAIN sweeps of an array, and of Vein sweeps, as runs. -/
def Plan.sweepRuns (p : Plan) (a : Nat) (vein : Bool) : List (Nat × Nat) :=
  (p.execStream a).flatMap (fun w =>
    let d := parseDesc (p.image a (wf w 16 0 * 32) 32)
    if vein then (if wOp w = 0x21 then [(d.accBase, d.rows * d.groups), (d.accBase + 256, d.rows * d.groups)] else [])
    else if wOp w = 0x20 && !d.scaled then [(d.accBase, d.rows * d.groups)]
    else if wOp w = 0x22 && !d.scaled then [(d.accBase, (wf w 95 88 + 1) * 32 * d.groups)] else [])

/-- Do two runs overlap? -/
def overlaps (x y : Nat × Nat) : Bool := decide (x.1 < y.1 + y.2) && decide (y.1 < x.1 + x.2)

/-- R19, R113: does a descriptor that a word names take in an excluded cell? -/
def Plan.namesExcluded (p : Plan) (excl : Nat → List Nat) (a : Nat) : Bool :=
  (p.fetchOf a ++ p.execOf a).any (fun w =>
    let off := match wOp w with
      | 0x20 | 0x21 | 0x22 | 0x23 => some (wf w 16 0 * 32)
      | 0x10 => if wf w 38 37 = 1 then some (wf w 55 39 * 32) else none
      | 0x12 => some (wf w 67 51 * 32)
      | _ => none
    match off with
    | some o => (excl a).any (fun c => decide (c ∈ maskCells (p.image a (parseDesc (p.image a o 32)).maskOff 128)))
    | none => false)

/-- The first and last line address that an entry names in a Slate view: code bytes 64 a line, or scale bytes 4 a line
(R289). -/
def viewLines (e : Blk) : Nat × Nat :=
  if e.offset < 2 ^ 38 then (e.offset / 64, (e.offset + e.length - 1) / 64)
  else ((e.offset - 2 ^ 38) / 4, (e.offset - 2 ^ 38 + e.length - 1) / 4)

/-- R19: the lines that Slate-view entries name lie in logical blocks of the variant and in no excluded cell. -/
def Plan.viewsOk (p : Plan) (v : Variant) (excl : Nat → List Nat) : Bool :=
  p.blocks.all (fun e =>
    let slate := match p.symbols[e.sym]? with | some y => decide (y.ident.toNat / 2 ^ 56 = 2) | none => false
    let l := viewLines e
    let beyond (n : Nat) : Bool := decide (v.userBlocks ≤ n / 256 % 32)
    !slate ||
    (!(beyond l.1 || beyond l.2 || (decide (v.userBlocks < 32) && decide (4096 ≤ l.2 - l.1))) &&
     (List.range (l.2 / 65536 - l.1 / 65536 + 1)).all (fun i =>
       let c := l.1 / 65536 + i
       !decide (c % 1024 ∈ excl (c / 1024)))))

/-- The block-list entries that a fetch word uses: first and count. -/
def entriesOf (w : QWord) : Option (Nat × Nat) :=
  match wOp w with
  | 0x10 | 0x11 => some (wf w 20 0, wf w 36 21)
  | 0x12 => some (wf w 50 30, 1)
  | _ => none

/-- The fetch words of the plan with array and schedule. -/
def Plan.fetchUses (p : Plan) : List (Nat × Nat × QWord) :=
  p.arrayList.flatMap (fun a => ((indexed (p.fetchOf a)).filter (fun x => (entriesOf x.2).isSome)).map
    (fun x => (a, seqOwner (p.fetchEps a) x.1, x.2)))

/-- The schedules whose sequences fetch an entry. -/
def Plan.usersOf (p : Plan) (i : Nat) : List (Nat × QWord) :=
  (p.fetchUses.filter (fun x => match entriesOf x.2.2 with
    | some e => decide (e.1 ≤ i) && decide (i < e.1 + e.2)
    | none => false)).map (fun x => x.2)

/-- Is an object held wholly in hub SRAM or an activation store (R219)? -/
def State.subHeld (s : State) (p : Plan) (sym off len : Nat) : Bool :=
  match p.symbols[sym]? with
  | some y => match s.obj y.ident.toNat with
    | some o => o.pages.all (fun g => match g with | .hub _ => true | .store _ _ => true | _ => false) && decide (off + len ≤ o.size)
    | none => false
  | none => false

/-- The bytes that a substitute stands in for: the entry's, or a KV block's 128 lines (R298). -/
def subLength (e : Blk) (users : List (Nat × QWord)) : Nat :=
  if users.any (fun x => decide (wOp x.2 = 0x12)) then max e.length 8704 else e.length

/-- R218, R219: one entry's deadline and fallback; one that no fetch names replaces none. -/
def State.entryOk (s : State) (p : Plan) (i : Nat) (e : Blk) : Bool :=
  let us := p.usersOf i
  decide (p.symKind e.sym ≠ some 0) &&
  (if e.tier = 0 then decide (e.deadline = 0) && decide (e.fallback = 0)
   else match p.fallbacks[e.fallback]? with
    | none => false
    | some f =>
      decide (1 ≤ e.deadline) &&
      (if us = [] then p.scheds.any (fun c => decide (e.deadline ≤ c.deadline))
       else us.all (fun x => match p.scheds[x.1]? with | some c => decide (e.deadline ≤ c.deadline) | none => false)) &&
      !(decide (f.action = 2) && us.any (fun x => match p.scheds[x.1]? with | some c => c.rt | none => false)) &&
      (!decide (f.action = 1) || decide (us = []) || s.subHeld p f.subSym f.subOffset (subLength e us)))

/-- R219: the object of every SUBSTITUTE entry of the fallback table is held, named by a block-list entry or not. -/
def State.fallbsHeld (s : State) (p : Plan) : Bool :=
  p.fallbacks.all (fun f => decide (f.action ≠ 1) || s.subHeld p f.subSym f.subOffset 0)

/-- R283: an object that a SEND writes through the codec has room for its blocks, where it is placed as yet. -/
def State.codedRoom (s : State) (p : Plan) : Bool :=
  p.arrayList.all (fun a => (p.execStream a).all (fun w =>
    !(decide (wOp w = 0x26) && decide (wf w 51 51 = 1) && decide (wf w 50 50 = 0) && decide (wf w 53 52 = 2)) ||
    (match p.blocks[wf w 73 54]? with
     | some e => match (p.symbols[e.sym]?).bind (fun y => s.obj y.ident.toNat) with
       | some o => decide (e.offset + cdiv (wf w 37 16) 4096 * 4160 ≤ o.size)
       | none => true
     | none => false)))

/-- R201: the traffic classes that an array's words use. -/
def Plan.classes (p : Plan) (a : Nat) : List Nat :=
  (p.fetchOf a ++ p.execOf a).flatMap (fun w => match entriesOf w with
    | some e => ((p.blocks.drop e.1).take e.2).map (·.tier)
    | none => if wOp w = 0x26 && decide (wf w 50 50 = 1) then [4] else [])

/-- R201, R262: the regulator records of an array. -/
def Plan.regsOk (p : Plan) (raw : Nat → Nat) (a : Nat) : Bool :=
  (List.range 5).all (fun c =>
    let r := p.regs.getD (5 * a + c) (0, 0)
    let w := raw (5 * a + c)
    if !p.uses a then decide (w = 0)
    else
      decide (w / 2 ^ 22 = 0) && (decide (w = 0) || (decide (1 ≤ r.2) && decide (r.2 ≤ 64))) &&
      (if c ∈ p.classes a then
        decide (1 ≤ r.2) && decide (256 ≤ r.1 * r.2) &&
        (p.fetchOf a).all (fun x => !(decide (wOp x = 0x13) && decide (wf x 2 0 = c)) || decide (256 ≤ wf x 18 3 * r.2))
       else true))

/-- R262: regions of an array lie apart; one STREAMS region holds its streams; one HOLD region where a CARRIED point is. -/
def Plan.regionsOk (p : Plan) (a : Nat) : Bool :=
  let rs := p.regions.filter (fun r => decide (r.array = a))
  let need := 16 * ((p.fetchOf a).length + (p.execOf a).length)
  let carried := (p.execStream a).any (fun w => decide (wOp w = 0x25) && (p.qps (wf w 9 0)).any (·.carried))
  (List.range rs.length).all (fun i => (List.range i).all (fun j =>
    match rs[i]?, rs[j]? with
    | some x, some y => !overlaps (x.offset, x.length) (y.offset, y.length)
    | _, _ => true)) &&
  (match rs.filter (fun r => decide (r.kind = 2)) with
   | [r] => decide (need ≤ r.length)
   | [] => !p.uses a
   | _ => !p.uses a) &&
  (!carried || decide ((rs.filter (fun r => decide (r.kind = 1))).length = 1))

/-- The STREAMS region of an array (R262). -/
def Plan.streamsAt (p : Plan) (a : Nat) : Nat :=
  match p.regions.find? (fun r => decide (r.array = a) && decide (r.kind = 2)) with
  | some r => r.offset
  | none => 0

/-- R262: a preload item lies in the array's declared regions and not over the streams. -/
def Plan.preloadOk (p : Plan) (i : Preload) : Bool :=
  p.covers i.array i.offset i.data.length &&
  !overlaps (i.offset, i.data.length) (p.streamsAt i.array, 16 * ((p.fetchOf i.array).length + (p.execOf i.array).length))

/-- The QUANT words of a quant point, each with its schedule. -/
def Plan.quantWords (p : Plan) (qp : Nat) : List (Nat × QWord) :=
  p.arrayList.flatMap (fun a =>
    let eps := if p.el3 then p.fetchEps a else p.execEps a
    ((indexed (p.execStream a)).filter (fun x => decide (wOp x.2 = 0x25) && decide (wf x.2 9 0 = qp))).map (fun x => (seqOwner eps x.1, x.2)))

/-- Do two QUANT words code parts of one row: in one schedule, with a batch row in common? -/
def sameRow (x y : Nat × QWord) : Bool :=
  decide (x.1 = y.1) && overlaps (wf x.2 25 18, wf x.2 17 10 + 1) (wf y.2 25 18, wf y.2 17 10 + 1)

/-- R76: the Vein list of a quant point against the rows that its QUANT words code: within the row's length, and in each part that
meets it within one segment. Where no word names the quant point, against the segments of a row that one array drains completely
(R74). -/
def Plan.veinOk (p : Plan) (q : QPoint) : Bool :=
  let ws := p.quantWords q.qp
  let first (w : QWord) : Nat := wf w 47 37
  let n (w : QWord) : Nat := wf w 36 26 + 1
  let meets (w : QWord) : Bool := q.vein.any (fun c => decide (first w * 32 ≤ c) && decide (c < (first w + n w) * 32))
  decide (q.vein = []) ||
  (decide (ws = []) && (decide (q.segBlocks = 0) ||
    q.vein.all (fun c => decide (c / (32 * q.segBlocks) = q.vein.headD 0 / (32 * q.segBlocks))))) ||
  (!decide (ws = []) && ws.all (fun x =>
    let row := ws.filter (sameRow x)
    let len := row.foldl (fun m y => max m ((first y.2 + n y.2) * 32)) 0
    let sb := if q.segBlocks = 0 then n x.2 else q.segBlocks
    q.vein.all (fun c => decide (c < len)) && row.any (fun y => meets y.2) &&
    (!meets x.2 || (List.range (segCount q.segBlocks (n x.2))).any (fun g =>
      q.vein.all (fun c => decide ((first x.2 + g * sb) * 32 ≤ c) && decide (c < (first x.2 + min ((g + 1) * sb) (n x.2)) * 32))))))

/-- R261: arrays outside `arrays` have no streams and no entry points; every array used is fetched in some schedule. -/
def Plan.arraysOk (p : Plan) : Bool :=
  (List.range 64).all (fun a =>
    if p.uses a then !(p.fetchEps a).isEmpty
    else decide (p.fetchOf a = []) && decide (p.execOf a = []) && (p.fetchEps a).isEmpty && (p.execEps a).isEmpty) &&
  (!p.el3 || p.scheds.all (fun c => c.execEp.isEmpty))

/-- R4, R5, R76, R265: does an image use a unit the part does not have? It is read as far as its places can be read. -/
def planAbsent (v : Variant) (b : Bytes) : Bool :=
  let words := secWords b 11 ++ secWords b 2 ++ secWords b 3
  (bit (u b 6 2) 0 && decide (v.ports = 0)) || words.any (wordAbsent v) ||
  (!v.tune && (items 160 (secBytes b 9)).any (fun q => decide ((parseQp q).format = 2))) ||
  (decide (v.ports = 0) && (items 32 (secBytes b 4)).any (fun e => decide ((parseBlk e).tier = 2)))

/-- R190-R192, R205, R217-R219, R258-R266: the checks whose failure is `ST_BAD_PLAN`. -/
def State.planOk (s : State) (b : Bytes) (p : Plan) : Bool :=
  let v := s.part.variant
  let decl := secBytes b 7
  let (nc, nr) := declCounts b
  let words := secWords b 11
  let nSym := p.symbols.length
  decide (u decl 8 8 = 0) &&
  (List.range 64).all (fun a => let x := streamAt b 0 a; let y := streamAt b 1 a
    decide (x.1 + x.2 ≤ words.length) && decide (y.1 + y.2 ≤ words.length) && (decide (x.2 ≠ 0) || decide (x.1 = 0)) &&
    (decide (y.2 ≠ 0) || decide (y.1 = 0))) &&
  words.all (fun w => if p.el3 then formOk .el3 w else formOk .f w || formOk .e w) &&
  (items 560 (secBytes b 6)).all schedOk &&
  (items 8 (slice decl 16 (8 * nc))).all (ctrOk p.scheds.length) && (items 16 (slice decl (1296 + 8 * nc) (16 * nr))).all regionOk &&
  (items 32 (secBytes b 4)).all (blkOk nSym) && (items 16 (secBytes b 8)).all (fallbOk p.symKind) &&
  (items 160 (secBytes b 9)).all (qpOk p.symKind) && (items 16 (secBytes b 5)).all symOk &&
  decide (p.counters.map (·.number)).Nodup && decide (p.counters.length ≤ 16384) &&
  decide ((p.counters.filter (·.group)).length ≤ 4096) &&
  decide (p.qpoints.map (fun q => (q.model, q.qp))).Nodup && p.arraysOk &&
  (List.range 64).all (fun a => p.regsOk (fun i => leNat ((items 4 (slice decl (16 + 8 * nc) 1280)).getD i [])) a && p.regionsOk a) &&
  p.preload.all p.preloadOk &&
  p.arrayList.all (fun a =>
    (if p.el3 then
      p.streamOk v .el3 a (p.fetchEps a) (p.fetchOf a) && beginsAtTime (p.fetchEps a) (p.fetchOf a) &&
      endsEndStep (p.fetchEps a) (p.fetchOf a)
     else
      p.streamOk v .f a (p.fetchEps a) (p.fetchOf a) && beginsAtTime (p.fetchEps a) (p.fetchOf a) &&
      p.streamOk v .e a (p.execEps a) (p.execOf a) && endsEndStep (p.execEps a) (p.execOf a)) &&
    pairsOk none (p.execStream a) && p.releasesOk (p.execStream a) &&
    !(p.sweepRuns a true).any (fun x => (p.sweepRuns a false).any (overlaps x)) &&
    !p.namesExcluded (fun a => match mget s.arrs a with | some r => r.excl | none => []) a) &&
  p.viewsOk v (fun a => match mget s.arrs a with | some r => r.excl | none => []) &&
  p.streamOk v .c 64 p.collEps p.collW && p.streamOk v .s 64 p.strmEps p.strmW && p.qpoints.all p.veinOk &&
  (List.range p.blocks.length).all (fun i => match p.blocks[i]? with | some e => s.entryOk p i e | none => true) &&
  s.fallbsHeld p && s.codedRoom p

/-- Codec words of a plan: the keys it reserves (R279). -/
def Plan.codecKeys (p : Plan) : Nat :=
  (p.arrayList.flatMap p.execStream).countP (fun w => decide (wOp w = 0x26) && decide (wf w 51 51 = 1)) +
  p.collW.countP (fun w => decide (wOp w = 0x30) && decide (wf w 4 4 = 1))

/-- R76: the most scale-history bytes one stream of the plan would need. -/
def Plan.historyBytes (p : Plan) : Nat :=
  (List.range p.symbols.length).foldl (fun m i => max m (16 * (p.qpoints.filter (fun q => q.carried && decide (q.model = i))).length)) 0

/-- R193, R205, R279, R76: does the device have room for the plan? -/
def State.planRoom (s : State) (p : Plan) : Bool :=
  let all := s.plans.map (·.2.plan)
  decide ((all.map (fun q => q.counters.length)).sum + p.counters.length ≤ 16384) &&
  decide ((all.map (fun q => (q.counters.filter (·.group)).length)).sum + (p.counters.filter (·.group)).length ≤ 4096) &&
  decide ((all.map Plan.codecKeys).sum + p.codecKeys ≤ 2048) &&
  decide (p.historyBytes ≤ (s.hubFrames - s.tiers.hubUsed.length) * pageBytes)

/-- A plan just loaded (R193). -/
def PlanRt.fresh (p : Plan) (frames : List Nat) : PlanRt :=
  { plan := p, st := .loaded, stalled := false, anchor := 0, freeOnStop := false, stopCmds := [], nextK := [], steps := [],
    ctr := [], gidx := [], keys := [], coll := [], strm := [], collIdx := [], waitTo := 0, frames := frames }

/-- Counter word `i` of a handle in `HUB_PLAN_CNT` (R230). -/
def planCnt (h i : Nat) : Nat := 0x800 + 32 * h + 4 * i

end Sys2Proof.Machine
end

