-- ==== Sys2Proof/Machine/Flags.lean ====
section
/-! DEFINITION. Sys2Proof/Machine/Flags.lean: the flags that results carry: completion reasons (R369), the sticky bits of
`HUB_FMT_STICKY` (R68) and the event counters beside them (R69, R106, R141). -/

namespace Sys2Proof.Machine

/-! ## Completion reasons, bits 1-6 of cflags (R369) -/

def weightLost : Half := 0x02
def kvFallback : Half := 0x04
def tierFallback : Half := 0x08
def scaleSat : Half := 0x10
def nanSeen : Half := 0x20
def scaleNan : Half := 0x40

/-- R369: cflags of a step's completion from its reasons: DEGRADED with any of them, `mixed` at bit 7, `late` at bit 8. -/
def stepCflags (reasons : Nat) (mixed late : Bool) : Nat := (if reasons = 0 then 0 else reasons + 1) + flag mixed 7 + flag late 8

/-! ## Sticky bits and counters -/

/-- Counter word `i` of an array in `HUB_FMT_CNT` (R69). -/
def fmtCnt (a i : Nat) : Nat := 0x1000 + 32 * a + 4 * i
/-- Counter word `i` of an array in `HUB_QNT_CNT` (R106). -/
def qntCnt (a i : Nat) : Nat := 0x1800 + 32 * a + 4 * i
/-- Counter word `i` of an array in `HUB_CELL_CNT` (R141). -/
def cellCnt (a i : Nat) : Nat := 0x2000 + 16 * a + 4 * i
/-- A sticky bit is set (R68). -/
def stick (b : Bool) (i : Nat) (s : State) : State := if b then { s with fmtSticky := s.fmtSticky ||| BitVec.ofNat 7 (2 ^ i) } else s

/-- R59, R67: `n` results of an array saturated. -/
def accSats (a n : Nat) (s : State) : State := stick (decide (n ≠ 0)) 2 (countBy (fmtCnt a 4) n s)
/-- R53, R67: an invalid row scale was used in an array. -/
def badScale (a : Nat) (s : State) : State := stick true 0 (count (fmtCnt a 1) s)
/-- R62, R67: `n` conversions to bfloat16 saturated in an array. -/
def bf16Sats (a n : Nat) (s : State) : State := stick (decide (n ≠ 0)) 5 (countBy (fmtCnt a 5) n s)

end Sys2Proof.Machine
end

