-- ==== Sys2Proof/Machine/Tuning.lean ====
section
/-! DEFINITION. Sys2Proof/Machine/Tuning.lean: the tuning unit: the tensors of a session, the gradient sum, the optimiser
and the applied copy (R63-R65, R101-R103, R327-R329). -/

namespace Sys2Proof.Machine

/-! ## binary32 arithmetic of the optimiser -/

/-- A product, rounded as R59 gives. -/
def fMul (a b : Word) : Word := (accRes (Bool.xor (fSign a) (fSign b)) ((fVal a).mul (fVal b))).1
/-- A sum. -/
def fSum (a b : Word) : Word := (fAdd a b).1
/-- A difference. -/
def fSub (a b : Word) : Word := fSum a (b ^^^ 0x80000000)

/-- The exact magnitude `n` x 2^e with a sign, as the sum or product it is. -/
def signedDy (neg : Bool) (x : Nat × Int) : Dy := ⟨if neg then -(x.1 : Int) else x.1, x.2⟩

/-- A quotient, rounded as R59 gives; by zero it is a free value (log 6). -/
def fDiv (a b : Word) : Word :=
  if fZero b then Config.tuneDivZero a
  else
    let neg := Bool.xor (fSign a) (fSign b)
    if fZero a then fZeroOf neg else (accRes neg (signedDy neg (quot (fVal a) (fVal b)))).1

/-- A square root of a non-negative value, rounded to nearest with ties to even. -/
def fSqrt (a : Word) : Word :=
  if fZero a then 0
  else
    let x := fVal a
    let k : Nat := if x.e % 2 = 0 then 60 else 61
    let n := x.m.natAbs * 2 ^ k
    let r := Nat.sqrt n
    (accRes false ⟨2 * r + (if r * r = n then 0 else 1), (x.e - k) / 2 - 1⟩).1

/-! ## Tensors (R63, R310) -/

/-- The adapter with a DVA. -/
def State.adapter (s : State) (dva : Nat) : Option Adapter := s.models.adapters.find? (fun a => decide (a.dva = dva))

/-- The rows of an adapter, A then B of each target, as counts of 32-element blocks (R310). -/
def Adapter.rows (a : Adapter) : List Nat :=
  a.targets.flatMap (fun t => List.replicate a.rank (t.2.1 / 32) ++ List.replicate t.2.2 (cdiv a.rank 32))
/-- Blocks of an adapter. -/
def Adapter.blocks (a : Adapter) : Nat := a.rows.sum
/-- The line and scale group of each block: rows begin on a line (R310). -/
def placeBlocks : List Nat → Nat → List (Nat × Nat)
  | [], _ => []
  | q :: l, line => (List.range q).map (fun j => (line + j / 4, j % 4)) ++ placeBlocks l (line + cdiv q 4)
/-- Where an adapter's lines begin (R310). -/
def Adapter.linesAt (a : Adapter) : Nat := a.dva + 16 + 16 * a.targets.length
/-- The address of line `i` of an adapter. -/
def Adapter.lineAt (a : Adapter) (i : Nat) : Nat := a.linesAt + 68 * i

/-- Bytes of an object, 0 where nothing is readable. -/
def State.bytesAt (s : State) (dva n : Nat) : Bytes := (s.readRun dva n).map (fun r => match r with | .ok b => b | _ => 0)

/-- Codes of a tensor come first, one scale byte per block after them, in block order. DESIGN CHOICE (log 40). -/
def tensorBytes (codeBytes blocks : Nat) : Nat := (codeBytes + 1) * blocks

/-- An element of `w` bytes' worth of an E4M3 tensor: NaN counts as 0 in `elem_nan`; the sign of a root is dropped (R64). -/
def e4m3Elem (root : Bool) (b : Byte) : Dy × Nat :=
  match e4m3 b with
  | none => (⟨0, 0⟩, 1)
  | some x => (if root then x.abs else x, 0)

/-- The binary32 value of an exact one. -/
def toF32 (x : Dy) : Word := (accRes false x).1

/-- The gradient as the object holds it: the F4 codes of every block, then the UE8M0 scales straight behind them: DESIGN CHOICE
(log 40), as R63 puts the scales apart and gives no place. A NaN scale makes its block zero (R51). -/
def State.gradient (s : State) (dva blocks : Nat) : List Word :=
  let codes := s.bytesAt dva (16 * blocks)
  let scales := s.bytesAt (dva + 16 * blocks) blocks
  (List.range blocks).flatMap (fun i =>
    let sc := (ue8m0 (scales.getD i 0)).getD ⟨0, 0⟩
    (List.range 32).map (fun j => toF32 ((⟨f4Val2 (codeAt 4 codes (32 * i + j)), -1⟩ : Dy).mul sc)))

/-- How many of the block scales of a tensor of `n`-byte blocks are NaN. -/
def State.nanScales (s : State) (dva n blocks : Nat) : Nat :=
  (s.bytesAt (dva + n * blocks) blocks).countP (fun b => (ue8m0 b).isNone)

/-- R51, R67, R101: the tuning unit has read `scales` NaN block scales and `elems` NaN elements. It is no array, and counts in array
0's words: DEDUCED (log 98). -/
def tuneNans (scales elems : Nat) (s : State) : State :=
  let s := stick (decide (scales ≠ 0)) 0 (countBy (fmtCnt 0 0) scales s)
  stick (decide (scales + elems ≠ 0)) 6 (countBy (fmtCnt 0 7) (scales + elems) s)

/-- A moment as its object holds it, with the NaN elements counted (R63, R64). -/
def State.moment (s : State) (root : Bool) (dva blocks : Nat) : List Word × Nat :=
  let codes := s.bytesAt dva (32 * blocks)
  let scales := s.bytesAt (dva + 32 * blocks) blocks
  let xs := (List.range blocks).flatMap (fun i =>
    let sc := (ue8m0 (scales.getD i 0)).getD ⟨0, 0⟩
    (List.range 32).map (fun j =>
      let e := e4m3Elem root (codes.getD (32 * i + j) 0)
      (toF32 (e.1.mul sc), e.2)))
  (xs.map (·.1), (xs.map (·.2)).sum)

/-! ## One element (R327) -/

/-- An element's gradient, moments and master. -/
structure Elem where
  g : Word
  m : Word
  sv : Word
  w : Word
deriving DecidableEq, Repr

/-- 1.0 -/
def fOne : Word := 0x3F800000

/-- R327: one element's update; `x.g` is the sum of its gradients and `stepT` counts this update. A master that is not finite stays
as it is: DEDUCED (log 98). -/
def Tune.update (t : Tune) (stepT : Nat) (x : Elem) : Elem :=
  let n : Word := (accRes false (dy t.n)).1
  let g := fDiv x.g n
  let m := fSum (fMul t.b1 x.m) (fMul (fSub fOne t.b1) g)
  let sv := fSqrt (fSum (fMul (fMul t.b2 x.sv) x.sv) (fMul (fMul (fSub fOne t.b2) g) g))
  let mh := if t.bias then fDiv m (fSub fOne (Config.tunePow t.b1 stepT)) else m
  let sh := if t.bias then fDiv sv (fSqrt (fSub fOne (Config.tunePow t.b2 stepT))) else sv
  let w := if fFinite x.w then fSub x.w (fMul t.lr (fSum (fDiv mh (fSum sh t.eps)) (fMul t.wd x.w))) else x.w
  { g := 0, m := m, sv := sv, w := w }

/-- Runs of `n` elements. -/
def chunks (n : Nat) (l : List Word) : List (List Word) := (List.range (l.length / n)).map (fun i => (l.drop (n * i)).take n)

/-- R101, R102: a block as E4M3 codes rounded stochastically, its scale, the elements saturated, and the generator. -/
def stochBlock (l : List Word) (gen : Word) : Bytes × Byte × Nat × Word :=
  let sc := pow2Scale (maxAbs l) 448
  let x := (ue8m0 sc).getD ⟨1, 0⟩
  let r := l.foldl (fun (acc : Bytes × Nat × Word) w =>
    let e := stochE4m3 w x acc.2.2
    (acc.1 ++ [BitVec.ofNat 8 e.1.code], acc.2.1 + (if e.1.sat then 1 else 0), e.2)) ([], 0, gen)
  (r.1, sc, r.2.1, r.2.2)

/-- Both moments stored, block by block, m before the root. DESIGN CHOICE (log 40). -/
def stochMoments : List (List Word) → List (List Word) → Word → (Bytes × Bytes) × (Bytes × Bytes) × Nat × Word
  | m :: ms, v :: vs, gen =>
    let a := stochBlock m gen
    let b := stochBlock v a.2.2.2
    let r := stochMoments ms vs b.2.2.2
    ((a.1 ++ r.1.1, a.2.1 :: r.1.2), (b.1 ++ r.2.1.1, b.2.1 :: r.2.1.2), a.2.2.1 + b.2.2.1 + r.2.2.1, r.2.2.2)
  | _, _, gen => (([], []), ([], []), 0, gen)

/-! ## The session (R326-R329) -/

/-- Is an update in progress? -/
def Tune.updating (t : Tune) : Bool := !t.work.isEmpty

/-- A change of a tuning session. -/
def updTune (i : Nat) (f : Tune → Tune) (s : State) : State := { s with models := { s.models with tunes := mupd s.models.tunes i f } }

/-- R327: at a step's end the gradient is added to the sum; after every N-th step an update begins. -/
def addGradient (i : Nat) (s : State) : State :=
  match mget s.models.tunes i with
  | none => s
  | some t => match s.adapter t.adapter with
    | none => s
    | some a =>
      let g := s.gradient t.grad a.blocks
      let s := tuneNans (s.nanScales t.grad 16 a.blocks) 0 s
      let sum := if t.sum = [] then g else List.zipWith fSum t.sum g
      if t.steps + 1 < t.n then updTune i (fun t => { t with sum := sum, steps := t.steps + 1 }) s
      else updTune i (fun t => { t with sum := [], steps := 0, work := t.work ++ [sum] }) s

/-- R62, R326, R327: the masters as their object holds them. -/
def State.masters (s : State) (dva blocks : Nat) : List Word :=
  let b := s.bytesAt dva (64 * blocks)
  (List.range (32 * blocks)).map (fun j => bWide (BitVec.ofNat 16 (u b (2 * j) 2)))

/-- R101: the applied copy of a block of masters: INT4 codes, an E4M3 scale, and the NaN masters among them. -/
def applyBlock (l : List Word) : Bytes × Byte × Nat :=
  let sc := e4m3Scale (maxAbs l)
  let x := (e4m3 sc).getD ⟨1, 0⟩
  let q := l.map (fun w => quantInt 4 7 w x)
  (packCodes4 (q.map (·.code)), sc, q.countP (·.nan))

/-- R328: the applied copy is written into the adapter's lines, its scale bytes in bytes 64-67 of each: DESIGN CHOICE (log 40), as
R63 stores the scales apart and R310 gives the adapter 68-byte lines. -/
def applyCopy (i : Nat) (s : State) : State :=
  match mget s.models.tunes i with
  | none => s
  | some t => match s.adapter t.adapter with
    | none => s
    | some a =>
      let bl := chunks 32 (s.masters t.master a.blocks)
      let s := forEach (bl.zip (placeBlocks a.rows 0)) (fun x s =>
        let c := applyBlock x.1
        let at_ := a.lineAt x.2.1
        tuneNans 0 c.2.2 (writeDva (at_ + 64 + x.2.2) [c.2.1] (writeDva (at_ + 16 * x.2.2) c.1 s))) s
      updTune i (fun t => { t with apply := false }) s

/-- Is a step of a stream in progress? -/
def State.inStep (s : State) (st : Stream) : Bool :=
  !st.orphan && (match mget s.plans st.handle with | some p => mhas p.steps st.sched | none => false)

/-- R327, R328: the oldest update of a session completes: masters and moments are written, and the copy takes effect with
the stream's next step. -/
def finishUpdate (i : Nat) (s : State) : State :=
  match mget s.models.tunes i with
  | none => s
  | some t => match s.adapter t.adapter, t.work with
    | some a, sum :: rest =>
      let n := a.blocks
      let m := s.moment false t.mom n
      let v := s.moment true t.var n
      let ws := s.masters t.master n
      let new := (List.range (32 * n)).map (fun j =>
        t.update (t.stepT + 1) { g := sum.getD j 0, m := m.1.getD j 0, sv := v.1.getD j 0, w := ws.getD j 0 })
      let q := stochMoments (chunks 32 (new.map (·.m))) (chunks 32 (new.map (·.sv))) s.models.tuneGen
      let bf := new.map (fun e => toBf16 e.w)
      let s := writeDva t.master (bf.flatMap (fun h => toLE 2 h.1.toNat)) s
      let s := writeDva t.mom (q.1.1 ++ q.1.2) s
      let s := writeDva t.var (q.2.1.1 ++ q.2.1.2) s
      let s := tuneNans (s.nanScales t.mom 32 n + s.nanScales t.var 32 n) (m.2 + v.2 + ws.countP fNan) s
      let s := stick (decide (q.2.2.1 ≠ 0)) 6 (countBy (fmtCnt 0 6) q.2.2.1 s)
      let s := bf16Sats 0 (bf.countP (·.2)) { s with models := { s.models with tuneGen := q.2.2.2 } }
      let s := updTune i (fun t => { t with work := rest, stepT := t.stepT + 1, apply := true }) s
      match mget s.models.streams t.stream with
      | some st => if s.inStep st then s else applyCopy i s
      | none => applyCopy i s
    | _, _ => s

/-- R284: an object is freed: its references on table-store entries are released. -/
def dropRefs (obj : Nat) (s : State) : State :=
  { s with codec := { s.codec with store := mmap (fun _ t => { t with objs := t.objs.filter (· ≠ obj) }) s.codec.store } }

/-- A placed object is unmapped and its pages returned (R284, R293). -/
def dropObject (dva : Nat) (s : State) : State :=
  match s.obj dva with
  | some o =>
    let s := freePages o.pages (dropRefs dva s)
    { s with tiers := { s.tiers with objs := s.tiers.objs.filter (fun x => decide (x.dva ≠ dva)) } }
  | none => s

/-- R329: a session ends; without `keep` its masters and moments are freed. -/
def endTune (i : Nat) (keep : Bool) (s : State) : State :=
  match mget s.models.tunes i with
  | none => s
  | some t =>
    let s := if t.apply then applyCopy i s else s
    let s := { s with models := { s.models with tunes := mdel s.models.tunes i } }
    let s := if keep then s else dropObject t.var (dropObject t.mom (dropObject t.master s))
    match t.stopping with
    | some (id, k) =>
      let s := match s.cmd id with
        | some c => if k then putPay c (toLE 8 t.master ++ toLE 8 t.mom ++ toLE 8 t.var) s else s
        | none => s
      finish id .ok (if k then 3 else 0) s
    | none => s

/-- R328, R329: what waited for a step barrier of a stream takes hold. -/
def tuneBarrier (stream : Nat) (s : State) : State :=
  forEach (s.models.tunes.filter (fun x => decide (x.2.stream = stream))) (fun x s =>
    let s := if x.2.apply then applyCopy x.1 s else s
    match x.2.stopping with
    | some y => endTune x.1 y.2 s
    | none => s) s

/-- R327: the sessions of a stream that took part in a step add its gradient. -/
def tuneStep (stream : Nat) (s : State) : State :=
  forEach (s.models.tunes.filter (fun x => decide (x.2.stream = stream))) (fun x s => addGradient x.1 s) s

/-- TUNE_UPDATE_COMPLETE (R328). -/
def execTuneUpdateComplete (session : Nat) (s : State) : Host.Outcome State Fault Refusal := .next (finishUpdate session s)

end Sys2Proof.Machine
end

