-- ==== Sys2Proof/Machine/Cadence.lean ====
section
/-! DEFINITION. Sys2Proof/Machine/Cadence.lean: loaded plans, their steps, sync counters, starts, stops and halts, and the
commands and moments that move them (R193-R230). -/

namespace Sys2Proof.Machine

/-! ## Plans, arrays and steps -/

/-- A loaded plan by handle. -/
def State.plan (s : State) (h : Nat) : Option PlanRt := mget s.plans h
/-- A change of a loaded plan. -/
def updPlan (h : Nat) (f : PlanRt → PlanRt) (s : State) : State := { s with plans := mupd s.plans h f }
/-- An array. -/
def State.arr (s : State) (a : Nat) : Arr := mgetD s.arrs a Arr.reset
/-- A change of an array. -/
def updArr (a : Nat) (f : Arr → Arr) (s : State) : State := { s with arrs := mset s.arrs a (f (s.arr a)) }
/-- A step in progress. -/
def State.stepOf (s : State) (h sc : Nat) : Option Step := (s.plan h).bind (fun p => mget p.steps sc)
/-- A change of a step in progress. -/
def updStep (h sc : Nat) (f : Step → Step) (s : State) : State := updPlan h (fun p => { p with steps := mupd p.steps sc f }) s
/-- Does a plan run (R193)? -/
def PlanRt.active (p : PlanRt) : Bool := decide (p.st = .running) || decide (p.st = .stopping)

/-- Store bytes of an array. -/
def State.storeRd (s : State) (a off n : Nat) : Bytes := (List.range n).map (fun i => s.ramAt (storeDva a (off + i)))
/-- Store bytes of an array written. -/
def storeWr (a : Nat) : Nat → Bytes → State → State
  | _, [], s => s
  | off, b :: bs, s => storeWr a (off + 1) bs (ramPut (storeDva a off) b s)

/-! ## Reasons of a step's streams (R369) -/

/-- A stream's step carries reasons. -/
def flagStream (h sc st : Nat) (bits : Half) (s : State) : State :=
  if bits = 0 then s else updStep h sc (fun x => { x with flags := mset x.flags st (mgetD x.flags st 0 ||| bits) }) s

/-- The stream bound to a batch row in a step (R204). -/
def State.rowStream (s : State) (h sc b : Nat) : Option Nat := (s.stepOf h sc).bind (fun x => mget x.rows b)

/-- The stream of a batch row carries reasons. -/
def flagRow (h sc b : Nat) (bits : Half) (s : State) : State :=
  match s.rowStream h sc b with
  | some st => flagStream h sc st bits s
  | none => s

/-- Every stream of a step carries reasons. -/
def flagAll (h sc : Nat) (bits : Half) (s : State) : State :=
  match s.stepOf h sc with
  | some x => forEach x.rows (fun r s => flagStream h sc r.2 bits s) s
  | none => s

/-! ## Sync counters (R205-R208, R348) -/

/-- A counter's value. -/
def State.ctrVal (s : State) (h n : Nat) : Nat := match s.plan h with | some p => mgetD p.ctr n 0 | none => 0

/-- R206: a SIGNAL adds and saturates. -/
def addCtr (h n v : Nat) (s : State) : State :=
  let x := s.ctrVal h n + v
  let s := updPlan h (fun p => { p with ctr := mset p.ctr n (min x 0xFFFFFFFF) }) s
  if 0xFFFFFFFF < x then count (planCnt h 7) s else s

/-- R206: a RESET writes 0. -/
def clearCtr (h n : Nat) (s : State) : State := updPlan h (fun p => { p with ctr := mset p.ctr n 0 }) s

/-- The step number a SYNC flit of a counter carries (R349). -/
def State.syncStep (s : State) (h : Nat) (c : CtrDecl) : Half :=
  if c.planKind then 0 else match s.stepOf h c.sched with | some x => BitVec.ofNat 16 x.k | none => 0

/-- R206, R348: a SIGNAL or RESET on a counter; a group counter's goes to every other member as well. -/
def signalCtr (h n v : Nat) (reset : Bool) (s : State) : State :=
  let s' := if reset then clearCtr h n s else addCtr h n v s
  match s.plan h with
  | some p => match p.plan.ctr n with
    | some c => if c.group then toOthers (.sync ⟨mgetD p.gidx n 0, reset, v, s.syncStep h c⟩) s' else s'
    | none => s'
  | none => s'

/-! ## Streams' completions -/

/-- A submission's completion, posted on the pair its stream is bound to (R386), its tag freed where it was fetched. -/
def finishStream (pair id st cflags result : Nat) (s : State) : State :=
  match s.cmd id with
  | some c =>
    let s := dropCmd id s
    let s := match c.origin with
      | .host q => if q = pair then s else updPair q (fun p => { p with tagsRun := p.tagsRun.erase c.sub.tag }) s
      | .spar _ => s
    flushReserved (if c.discard then s else postCq pair c.sub.tag st cflags result false s)
  | none => s

/-- A change of a stream context. -/
def updStream (i : Nat) (f : Stream → Stream) (s : State) : State :=
  { s with models := { s.models with streams := mupd s.models.streams i f } }

/-- R194, R315: a stream's held submissions complete with `ST_ABORTED`. -/
def abortHeld (i : Nat) (s : State) : State :=
  match mget s.models.streams i with
  | some st =>
    let s := forEach st.held (fun x s => finishStream st.pair x.cmd Status.aborted.code 0 0 s) s
    updStream i (fun st => { st with held := [] }) s
  | none => s

/-- R315, R329: a stream closes: held submissions abort, its sessions end, its records and context are freed. -/
def closeStream (i : Nat) (s : State) : State :=
  match mget s.models.streams i with
  | some st =>
    let s := abortHeld i s
    let s := forEach (s.models.tunes.filter (fun x => decide (x.2.stream = i))) (fun x s => endTune x.1 false s) s
    let s := { s with models := { s.models with streams := mdel s.models.streams i } }
    finishOpt st.closing .ok 0 s
  | none => s

/-! ## Freeing and halting -/

/-- R194, R225: a plan's handle, region and counters are freed; streams bound to it abort their submissions. -/
def freePlan (h : Nat) (s : State) : State :=
  match s.plan h with
  | some p =>
    let s := { s with
      plans := mdel s.plans h
      tiers := { s.tiers with boardUsed := s.tiers.boardUsed.filter (fun f => !decide (f ∈ p.frames)) }
      spar := { s.spar with
        gused := s.spar.gused.filter (fun i => !p.gidx.any (fun x => decide (x.2 = i)))
        contrib := s.spar.contrib.filter (fun c => decide (c.key / 4096 ≠ 2 ^ 20 + h)) }
      norm := s.norm.filter (fun x => decide (x.1 / 4096 ≠ h))
      normSum := s.normSum.filter (fun x => decide (x.1 / 4096 ≠ h)) }
    forEach (s.models.streams.filter (fun x => decide (x.2.handle = h) && !x.2.orphan))
      (fun x s => abortHeld x.1 (updStream x.1 (fun st => { st with orphan := true }) s)) s
  | none => s

/-- An answer of one party to a group-wide command: the last one ends it (R376). Party 64 is this device. -/
def waitDone (id who st : Nat) (s : State) : State :=
  let res := mgetD s.spar.results id 0
  let ended (s : State) : State := { s with spar := { s.spar with waits := mdel s.spar.waits id, results := mdel s.spar.results id } }
  match mget s.spar.waits id with
  | none => finishWith id st 0 res (ended s)
  | some l =>
    let l' := l.filter (· ≠ who)
    if st ≠ 0 then finishWith id st 0 0 (ended s)
    else if l' = [] then finishWith id st 0 res (ended s)
    else { s with spar := { s.spar with waits := mset s.spar.waits id l' } }

/-- R139: excluded cells leave service at the array's step barrier, and the stored mask takes them. -/
def applyExcl (a : Nat) (s : State) : State :=
  let r := s.arr a
  if r.exclPend = [] then s
  else
    let s := { s with exclStored := r.exclPend.foldl (fun l c => addOnce l (a * 1024 + c)) s.exclStored }
    updArr a (fun r => { r with excl := r.exclPend.foldl addOnce r.excl, exclPend := [] }) s

/-- R146: the largest maintenance share that a running plan which uses an array declares; at least 1. -/
def State.shareOf (s : State) (a : Nat) : Nat :=
  s.plans.foldl (fun m p => if decide (p.2.st = .running) && p.2.plan.uses a then max m p.2.plan.maintM else m) 1

/-- R146: a plan has stopped or halted: the share falls on its arrays that run no step; on the others at their barriers. -/
def lowerShares (arrays : List Nat) (s : State) : State :=
  forEach arrays (fun a s => if (s.arr a).cur.isNone then updArr a (fun r => { r with maintM := min r.maintM (s.shareOf a) }) s else s) s

/-- R163: the tables of the models of an array's plan that a scrub found lost are lost from its step barrier on. -/
def tablesBarrier (a : Nat) (s : State) : State :=
  match (s.arr a).cur.bind (fun c => s.plan c.1) with
  | some p => forEach (s.models.slots.filter (fun m => !m.2.lostSoon.isEmpty &&
        p.plan.symbols.any (fun y => decide (y.kind = 0) && decide (y.ident.toNat % 16 = m.1))))
      (fun m s => updSlot m.1 (fun m => { m with lostTab := m.lostTab ++ m.lostSoon, lostSoon := [], lost := true }) s) s
  | none => s

/-- R224, R284: an array's board-tier transfers through the codec end with the step, and release their references. -/
def dropXfers (a : Nat) (s : State) : State :=
  { s with codec := { s.codec with xfers := s.codec.xfers.filter (fun x => decide (x.array ≠ a)) } }

/-- An array's step barrier: it is free of the step, and what waited for the barrier takes hold (R139, R146, R163, R211). Entries not
yet drained stay pending (R124). -/
def arrayBarrier (a : Nat) (s : State) : State :=
  let s := tablesBarrier a (dropXfers a s)
  let m := s.shareOf a
  let s := { s with slate := { s.slate with recUsed := s.slate.recUsed.filter (fun x => decide (x / 2 ^ 48 / 8 ≠ a)) } }
  applyExcl a (updArr a (fun r => { r with
    cur := none, fwaiting := false, ewaiting := false, queue := [], prog := [], runs := [], twin := [],
    drained := [], posted := [], absent := [], port := [], spent := [], rel := [], qNext := 0, qBusy := [], qFree := 0, latch := [], io := [], maintM := m }) s)

/-- R224: an array of a halted plan: its accumulator entries become undefined, and none is pending any more (log 93); a step of the
plan that it runs ends. One that runs another plan's step is not affected (R225). -/
def haltArray (h a : Nat) (s : State) : State :=
  let undef (s : State) : State :=
    let n := s.free
    updArr a (fun r => { r with acc := [], accUndef := some n, pend := [] }) { s with free := s.free + 1 }
  match (s.arr a).cur with
  | none => undef s
  | some c => if c.1 = h then arrayBarrier a (undef s) else s

/-- R194, R224-R226: the stop commands of a halted plan end, and the plan is HALTED, its counters undefined, or freed. -/
def endHalted (h : Nat) (s : State) : State :=
  match s.plan h with
  | some p =>
    let unload := p.freeOnStop || s.tiers.unavailable
    let s := forEach p.stopCmds (fun c s => waitDone c.1 64 (if c.2 then Status.ok.code else Status.aborted.code) s) s
    let n := s.free
    let s := updPlan h (fun p => { p with st := .halted, steps := [], stopCmds := [], freeOnStop := false, coll := [], strm := [],
                                          ctr := p.plan.counters.map (fun c => (c.number, (Config.freeEntry n c.number).toNat)) }) { s with free := s.free + 1 }
    let s := lowerShares p.plan.arrayList s
    if unload then freePlan h s else s
  | none => s

/-- R224: a plan halts on every array and hub stream at once. A step cut off so counts neither as run nor as late: DESIGN CHOICE
(log 94), as R213 lets PLAN_STOP end it and R230 counts steps that completed. -/
def haltPlan (h : Nat) (s : State) : State :=
  match s.plan h with
  | some p =>
    if !p.active then s
    else
      let s := forEach (p.steps.flatMap (fun x => x.2.rows.map (·.2)))
        (fun i s => match mget s.models.streams i with
          | some st =>
            let s := updStream i (fun st => { st with input := none, appended := [] }) s
            match st.input with
            | some x => finishStream st.pair x.cmd Status.aborted.code 0 0 s
            | none => s
          | none => s) s
      let s := forEach p.plan.arrayList (haltArray h) s
      let s := forEach p.plan.regions (fun r s => undefine (storeDva r.array r.offset) (min r.length (storeBytes - r.offset)) s) s
      let s := endHalted h s
      forEach (s.models.streams.filter (fun x => decide (x.2.handle = h) && x.2.closing.isSome)) (fun x s => closeStream x.1 s) s
      |> forEach (s.models.streams.filter (fun x => decide (x.2.handle = h))) (fun x s => tuneBarrier x.1 s)
  | none => s

/-- R224, R266: an engine fault halts a plan and is recorded. `e` is the engine number of location kind ENGINE. -/
def engineFault (h e idx : Nat) (s : State) : State :=
  match s.plan h with
  | some p => haltPlan h (record .ct 0x0301 { detail := detEngine e idx h, planId := p.plan.planId } s)
  | none => s

/-- R223, R225: a plan whose last step has ended is LOADED or freed, and the commands that waited end. -/
def endStopped (h : Nat) (s : State) : State :=
  match s.plan h with
  | some p =>
    let free := p.freeOnStop || s.tiers.unavailable
    let s := updPlan h (fun p => { p with st := .loaded, stopCmds := [], freeOnStop := false }) s
    let s := lowerShares p.plan.arrayList s
    let s := if free then freePlan h s else s
    forEach p.stopCmds (fun c s => waitDone c.1 64 Status.ok.code s) s
  | none => s

/-! ## PLAN_LOAD (R193, R265, R387) -/

/-- The handle a `PLAN_LOAD` takes: the requested one or the lowest free. -/
def State.loadHandle (s : State) (c : Cmd) : Option Nat :=
  if c.fld 0 5 5 = 1 then (if (s.plan (c.fld 0 4 0)).isNone then some (c.fld 0 4 0) else none)
  else lowest (fun i => (s.plan i).isNone) 32

/-- The bytes of an image written to the board frames that hold it. -/
def writeFrames (fs : List Nat) (b : Bytes) (s : State) : State :=
  forEach ((List.range fs.length).zip fs) (fun x s => writeDva (boardBase + x.2 * pageBytes) ((b.drop (x.1 * pageBytes)).take pageBytes) s) s
/-- The image as the frames hold it now. -/
def State.imageOf (s : State) (p : PlanRt) : Bytes :=
  (p.frames.flatMap (fun f => (List.range pageBytes).map (fun i => s.ramAt (boardBase + f * pageBytes + i)))).take p.plan.length

/-- The body of `PLAN_LOAD`. -/
def planLoad (pay : BusRead) (c : Cmd) (s : State) : Reply :=
  let b := (s.payload c pay).getD []
  let p := parsePlan b
  let bad := match p with | some p => !s.planOk b p | none => true
  let room := match p with | some p => s.planRoom p | none => false
  let frames := takeFrames s.tiers.boardUsed s.boardFrames (cdiv b.length pageBytes)
  checked c (planAbsent s.part.variant b)
    [(c.argReserved 0x3F 0 0 0 0 || (s.payload c pay).isNone || (decide (c.fld 0 5 5 = 0) && decide (c.fld 0 4 0 ≠ 0)) ||
        decide (b = []), .badField),
     (bad, .badPlan),
     (decide (c.fld 0 5 5 = 1) && (s.loadHandle c).isNone, .wrongState),
     ((s.loadHandle c).isNone || frames.isNone || !room || !s.ready.boardMem, .noResource)] s
    (match s.loadHandle c, p, frames with
     | some h, some p, some fs =>
       let s := { s with
         plans := mset s.plans h (PlanRt.fresh p fs)
         tiers := { s.tiers with boardUsed := fs ++ s.tiers.boardUsed }
         cnt := s.cnt.filter (fun x => !(decide (planCnt h 0 ≤ x.1) && decide (x.1 ≤ planCnt h 7))) }
       .done .ok (h + p.planId.toNat % 2 ^ 56 * 256) (writeFrames fs b s)
     | _, _, _ => .done .noResource 0 s)

/-- PLAN_LOAD. -/
def execPlanLoad (r : CmdRef) (pay : BusRead) (s : State) : Host.Outcome State Fault Refusal :=
  .next (iarik 0x0400 r pay (planLoad pay) s)

/-! ## PLAN_START (R195) -/

/-- R195, R375: does a symbol name something resident? A KV set names no object of its own (R297). -/
def State.resident (s : State) (y : Symb) : Bool :=
  let id := y.ident.toNat
  match y.kind with
  | 0 => match mget s.models.slots (id % 16) with
    | some m => decide (id / 2 ^ 56 = 1) && decide (id / 16 % 2 ^ 52 = m.count) && decide (m.epoch ≠ 0) &&
                decide (m.st ∈ [SlotSt.serving, .staging, .committing, .partialSwap])
    | none => false
  | 3 => true
  | 4 => s.models.adapters.any (fun a => decide (a.dva = id))
  | k => if id / 2 ^ 56 = 2 then
      (match mget s.models.slots (id / 2 ^ 16 % 16) with
       | some m => m.objs.any (fun o => decide (o.number = id % 65536) && decide (o.kind = k))
       | none => false)
    else match s.obj id with | some o => decide (o.kind = k) | none => false

/-- Do two regions of one array overlap (R195)? -/
def Region.meets (x y : Region) : Bool := decide (x.array = y.array) && overlaps (x.offset, x.length) (y.offset, y.length)

/-- R195, R292: do a plan's regions fit beside those of running plans and ASTORE pages? -/
def State.regionsFree (s : State) (p : Plan) : Bool :=
  p.regions.all (fun r =>
    decide (r.offset + r.length ≤ storeBytes) &&
    !s.plans.any (fun q => q.2.active && q.2.plan.regions.any (r.meets ·)) &&
    !s.tiers.objs.any (fun o => o.pages.any (fun g => match g with
      | .store a off => decide (a = r.array) && overlaps (off, pageBytes) (r.offset, r.length)
      | _ => false)))

/-- R215: the utilisation of an array as a fraction: over all schedules of each plan that uses it. -/
def utilisation (ps : List Plan) (a : Nat) : Nat × Nat :=
  (ps.filter (fun p => p.uses a)).foldl (fun acc p =>
    p.scheds.foldl (fun x c => (x.1 * c.period + c.wcStep * x.2, x.2 * c.period)) acc) (0, 1)

/-- R215: does every array keep its utilisation at most 1 with the plan added? -/
def State.utilOk (s : State) (p : Plan) : Bool :=
  p.arrayList.all (fun a =>
    let x := utilisation (p :: (s.plans.filter (fun q => q.2.active)).map (·.2.plan)) a
    decide (x.1 ≤ x.2))

/-- R294: does a hub SRAM run lie in a HUB object that the plan's symbols name? -/
def State.inHubObject (s : State) (p : Plan) (off len : Nat) : Bool :=
  p.symbols.any (fun y => match s.obj y.ident.toNat with
    | some o => (List.range (cdiv (off % pageBytes + len) pageBytes)).all (fun i =>
        o.pages.any (fun g => decide (g = .hub (off / pageBytes + i))))
    | none => false)

/-- R294: every hub SRAM run that SEND and COLLECTIVE words name lies in a named HUB object. -/
def State.hubRunsOk (s : State) (p : Plan) : Bool :=
  p.arrayList.all (fun a => (p.execStream a).all (fun w =>
    !(decide (wOp w = 0x26) && decide (wf w 53 52 = 1) && decide (wf w 50 50 = 0)) || s.inHubObject p (wf w 73 54 * 64) (wf w 37 16))) &&
  p.collW.all (fun w => decide (wOp w ≠ 0x30) ||
    (s.inHubObject p (wf w 41 16) (wf w 95 68 * if wf w 2 2 = 0 then p.arrayList.length else 1) &&
     s.inHubObject p (wf w 67 42) (wf w 95 68 *
       if wf w 1 0 ≠ 1 then 1 else if wf w 2 2 = 0 then p.arrayList.length else s.groupList.length)))

/-- R195, R219: the substitutes are still held, and long enough for the fetches they replace. -/
def State.subsHeld (s : State) (p : Plan) : Bool :=
  s.fallbsHeld p &&
  (List.range p.blocks.length).all (fun i => match p.blocks[i]? with
    | some e => decide (e.tier = 0) || decide (p.usersOf i = []) ||
      (match p.fallbacks[e.fallback]? with
       | some f => decide (f.action ≠ 1) || s.subHeld p f.subSym f.subOffset (subLength e (p.usersOf i))
       | none => true)
    | none => true)

/-- R322: do all members of the group hold one epoch of every model the plan names? -/
def State.epochsAgree (s : State) (p : Plan) : Bool :=
  p.symbols.all (fun y => decide (y.kind ≠ 0) || decide (s.spar.st ≠ 1) ||
    s.spar.members.all (fun m => decide (m.1 = s.spar.member) ||
      decide (m.2.epochs.getD (y.ident.toNat % 16) 0 = (mgetD s.models.slots (y.ident.toNat % 16) Slot.reset).epoch)))

/-- R348: device indices for a plan's group counters: the lowest free ones. DESIGN CHOICE (log 27). -/
def groupIndices (used : List Nat) : List CtrDecl → NMap Nat
  | [] => []
  | c :: l => match lowest (fun i => decide (i ∉ used)) 4096 with
    | some i => mset (groupIndices (i :: used) l) c.number i
    | none => groupIndices used l

/-- R195: the copies that a start makes, and the plan's state after it. -/
def startPlan (h anchor : Nat) (s : State) : State :=
  match s.plan h with
  | some p =>
    let q := (parsePlan (s.imageOf p)).getD p.plan
    let s := forEach p.plan.arrayList (fun a s =>
      storeWr a (p.plan.streamsAt a) ((q.fetchOf a ++ q.execOf a).flatMap (fun w => toLE 16 w.toNat)) s) s
    let s := forEach q.preload (fun i s => storeWr i.array i.offset i.data s) s
    let g := if p.plan.group then groupIndices (s.spar.gused.filter (fun i => !p.gidx.any (fun x => decide (x.2 = i)))) (p.plan.counters.filter (·.group)) else []
    let s := { s with
      spar := { s.spar with gused := g.map (·.2) ++ s.spar.gused.filter (fun i => !p.gidx.any (fun x => decide (x.2 = i))) }
      codec := if p.plan.group then { s.codec with rx := [], tx := [] } else s.codec }
    updPlan h (fun p => { p with
      plan := { p.plan with collW := q.collW, strmW := q.strmW }
      st := .running, anchor := anchor, freeOnStop := false, stopCmds := [], nextK := [], steps := [],
      ctr := p.plan.counters.foldl (fun m c => mset m c.number c.init) [], gidx := g, keys := [], coll := [], strm := [],
      collIdx := [] }) s
  | none => s

/-- R376: a group-wide command is sent to every other member and awaits each answer; party 64 is this device. -/
def sendGroup (c : Cmd) (self : Bool) (s : State) : State :=
  let q := match c.origin with | .host q => q | .spar _ => 0
  let s := forEach s.otherMembers (fun m s => sendTo m (.forward ⟨q, c.sub.tag⟩ (subBytes c.sub) []) s) s
  { s with spar := { s.spar with waits := mset s.spar.waits c.id (s.otherMembers ++ if self then [64] else []) } }

/-- Does a group-wide plan command go to other members: the manager's own, of a plan with `group` set? -/
def State.wide (s : State) (c : Cmd) (p : PlanRt) : Bool :=
  p.plan.group && decide (s.spar.st = 1) && !s.otherMembers.isEmpty && (match c.origin with | .host _ => true | .spar _ => false)

/-- The checks of `PLAN_START` (R195, R507). -/
def State.startChecks (s : State) (c : Cmd) : List (Bool × Status) :=
  match s.plan (c.fld 0 4 0) with
  | none => [(true, .wrongState)]
  | some p =>
    [(p.active, .wrongState),
     (p.plan.arrayList.any (fun a => if a < 32 then !(s.ready.arraysW && s.ready.slateW) else !(s.ready.arraysE && s.ready.slateE)), .wrongState),
     (!p.plan.symbols.all s.resident, .wrongState),
     (p.plan.group && (decide (s.spar.st ≠ 1) && decide (s.spar.st ≠ 2)), .wrongState),
     (p.plan.group && !s.epochsAgree p.plan, .wrongState),
     (!s.subsHeld p.plan || !s.hubRunsOk p.plan, .wrongState),
     (p.plan.arrayList.any (fun a => decide (a ∈ s.maint.bistRound) || s.maint.bist.any (fun r => decide (a ∈ r.left))), .busyMaint),
     (!s.regionsFree p.plan, .noResource),
     (!s.utilOk p.plan, .noResource)]

/-! ## PLAN_STOP (R223-R226) -/

/-- R226: the effect of a stop on this device. `mode`: 0 at barrier, 1 now, 2 unload. -/
def stopPlan (h mode id : Nat) (s : State) : State :=
  match s.plan h with
  | none => s
  | some p =>
    if mode = 1 then waitDone id 64 0 (haltPlan h s)
    else if !p.active then waitDone id 64 0 (if mode = 2 then freePlan h s else s)
    else
      let s := updPlan h (fun p => { p with st := .stopping, freeOnStop := p.freeOnStop || decide (mode = 2), stopCmds := p.stopCmds ++ [(id, decide (mode = 2))] }) s
      if p.steps = [] then endStopped h s else s

/-- The body of `PLAN_STOP`. It ends through `waitDone`. -/
def planStop (c : Cmd) (s : State) : Reply :=
  checked c false
    [(c.argReserved 0x31F 0 0 0 0 || decide (c.sub.payLen ≠ 0) || decide (c.fld 0 9 8 = 3), .badField),
     ((s.plan (c.fld 0 4 0)).isNone, .wrongState)] s
    (match s.plan (c.fld 0 4 0) with
     | some p => .running (stopPlan (c.fld 0 4 0) (c.fld 0 9 8) c.id (if s.wide c p then sendGroup c true s else s))
     | none => .done .wrongState 0 s)

/-- PLAN_STOP. -/
def execPlanStop (r : CmdRef) (s : State) : Host.Outcome State Fault Refusal :=
  .next (iarik 0x0402 r none planStop s)

/-! ## Steps (R204, R207, R210-R213) -/

/-- The nominal start of step k (R210). -/
def PlanRt.nominal (p : PlanRt) (c : Sched) (k : Nat) : Nat := p.anchor + c.offset + k * c.period

/-- R324: is the model part-way through a LAYERED swap? -/
def Slot.midSwap (m : Slot) : Bool := decide (0 < m.units)
/-- R305, R317: the swap policy in force. -/
def Slot.isMixed (m : Slot) : Bool := m.polMixed.getD m.mixed

/-- R306, R324: do steps run for the model's streams? -/
def Slot.serves (m : Slot) : Bool :=
  decide (m.epoch ≠ 0) && decide (m.st ∈ [SlotSt.serving, .staging, .committing, .partialSwap]) && (!m.midSwap || m.isMixed)

/-- R157, R306: does the step that would consume a submission fail it with `ST_LOST`? -/
def Slot.failsSteps (m : Slot) : Bool := decide (m.st = .broken) || (m.halt && m.lost)

/-- The stream's oldest submission, if it was placed by the cutoff (R204). -/
def Stream.due (st : Stream) (cutoff : Nat) : Option Held :=
  match st.held with
  | x :: _ => match x.placed with | some t => if t ≤ cutoff then some x else none | none => none
  | [] => none

/-- R324: the epoch vector of a MIXED swap in progress: the old epoch and how many layers stand at the new one. -/
def Slot.vector (m : Slot) : Option Nat :=
  if m.midSwap && m.isMixed then some (m.oldEpoch * 2 ^ 16 + min 0xFFFF (m.units * m.unitLayers) * 2 ^ 32) else none

/-- R314: the result of a stream's step. -/
def stepResult (epoch : Nat) (vec : Option Nat) (k : Nat) : Nat := epoch + vec.getD 0 + k % 65536 * 2 ^ 48

/-- R204, R314: one stream at the start of a step: it consumes its oldest submission, or takes no part. -/
def joinStep (h sc cutoff : Nat) (x : Nat × Stream) (s : State) : State :=
  let st := x.2
  let k := match s.stepOf h sc with | some y => y.k | none => 0
  if st.handle = h && decide (st.sched = sc) && !st.orphan && st.closing.isNone then
    match st.due cutoff with
    | none => s
    | some held =>
      let m := mgetD s.models.slots st.slot Slot.reset
      let take (s : State) : State := updStream x.1 (fun st => { st with held := st.held.drop 1 }) s
      if m.failsSteps then finishStream st.pair held.cmd Status.lost.code 0 (stepResult m.epoch m.vector k) (take s)
      else if !m.serves then (if m.midSwap then count 0x258 s else s)
      else
        let s := take s
        let s := if s.models.tunes.any (fun y => decide (y.2.stream = x.1) && y.2.updating) then count 0x25C s else s
        updStep h sc (fun k => { k with rows := mset k.rows st.row x.1 })
          (updStream x.1 (fun st => { st with input := some held, appended := [], outPos := 0 }) s)
  else s

/-- A SYNC operation on the local replica of a counter (R349). -/
def applySync (h n : Nat) (op : SyncOp) (s : State) : State := if op.reset then clearCtr h n s else addCtr h n op.value s

/-- R349: held SYNC flits of the step just started are applied after its reset. -/
def releaseSync (h sc k : Nat) (s : State) : State :=
  match s.plan h with
  | some p =>
    let mine (op : SyncOp) : Option Nat := (p.plan.counters.find? (fun c =>
      c.group && !c.planKind && decide (c.sched = sc) && decide (mget p.gidx c.number = some op.index))).map (·.number)
    let now := s.spar.heldSync.filter (fun op => (mine op).isSome && decide (op.step = BitVec.ofNat 16 k))
    let s := { s with spar := { s.spar with heldSync := s.spar.heldSync.filter (fun op => !decide (op ∈ now)) } }
    forEach now (fun op s => match mine op with | some n => applySync h n op s | none => s) s
  | none => s

/-- A model's identifier (R375). -/
def modelId (slot count : Nat) : Nat := slot % 16 + count % 2 ^ 52 * 16 + 2 ^ 56

/-- R322: the arrays of this device that hold lines of the model, in either epoch. -/
def State.commitArrays (s : State) (g : Stage) (c : Commit) : List Nat :=
  (List.range 64).filter (fun a => g.blocks.any (fun b => decide (b.sb / 9 / 1024 = a)) ||
    (mgetD s.models.slots c.slot Slot.reset).tags.any (fun x => decide (x.1 / 256 = a)))

/-- R27, R322: has a decided commit still to switch an array, for a step at or after its time of a plan that uses an array that
switches or names the model? -/
def State.holdForSwitch (s : State) (p : Plan) (nominal : Nat) : Bool :=
  match s.models.commit, s.models.stage with
  | some c, some g =>
    let id := modelId c.slot (mgetD s.models.slots c.slot Slot.reset).count
    c.decided && decide (c.tc ≤ nominal) && decide (c.switched.length < 64) &&
    ((s.commitArrays g c).any p.uses || p.symbols.any (fun y => decide (y.kind = 0) && decide (y.ident.toNat = id)))
  | _, _ => false

/-- A step starts (R103, R204, R207, R210, R27). -/
def startStep (h sc : Nat) (p : PlanRt) (c : Sched) (s : State) : State :=
  let k := mgetD p.nextK sc 0
  let t := p.nominal c k
  let (seed, s) := match p.plan.seed with
    | some x => (x, s)
    | none => drawEntropy s
  let ended := p.plan.arrayList.filter (fun a => !mhas c.fetchEp a && !mhas c.execEp a)
  let x : Step := { k := k, nominal := t, seed := seed, ended := ended, collDone := c.collEp.isNone, strmDone := c.strmEp.isNone,
                    rows := [], flags := [], pend := [], epochs := mmap (fun _ m => m.epoch) s.models.slots,
                    vectors := s.models.slots.filterMap (fun m => m.2.vector.map (fun v => (m.1, v))), lostSt := [],
                    busyRec := [], offRec := false, stallRec := false }
  let s := updPlan h (fun p => { p with
    nextK := mset p.nextK sc (k + 1), steps := mset p.steps sc x, collIdx := mset p.collIdx sc 0,
    ctr := (p.plan.counters.filter (fun d => !d.planKind && decide (d.sched = sc))).foldl (fun m d => mset m d.number d.init) p.ctr
    coll := match c.collEp with | some e => mset p.coll sc ⟨e, false, []⟩ | none => p.coll
    strm := match c.strmEp with | some e => mset p.strm sc ⟨e, false, []⟩ | none => p.strm }) s
  let s := releaseSync h sc k { s with models := { s.models with tuneGen := seedUnit seed 64 } }
  forEach s.models.streams (joinStep h sc (t - c.inLead)) s

/-- STEP_START (R210): the step starts once its nominal start has come and the step before it has ended. -/
def execStepStart (h sc : Nat) (t : Nat) (s : State) : Host.Outcome State Fault Refusal :=
  .next (
    let s := reachTime t s
    match s.plan h with
    | some p => match p.plan.scheds[sc]? with
      | some c =>
        let nom := p.nominal c (mgetD p.nextK sc 0)
        if decide (p.st = .running) && !mhas p.steps sc && decide (nom ≤ s.tbu.now) && !s.holdForSwitch p.plan nom && !s.activating && decide (s.pwr.state = .run)
        then startStep h sc p c s else s
      | none => s
    | none => s)

/-- R93-R95: a record takes a pending maximum as its newest entry. -/
def pushHist (code : Half) (r : List Half) : List Half := (code :: r).take 8

/-- R95: the scale-history update at a step's end, for the streams that took part. -/
def updateHistory (x : Step) (s : State) : State :=
  forEach x.pend (fun p s =>
    let st := p.1 / 1024
    if x.rows.any (fun r => decide (r.2 = st)) then
      updStream st (fun v => { v with hist := mupd v.hist (p.1 % 1024) (pushHist (bf16MaxUp p.2)) }) s
    else s) s

/-- R212, R313, R369: one stream's completion at a step's end. -/
def completeStream (x : Step) (late : Bool) (i : Nat) (s : State) : State :=
  match mget s.models.streams i with
  | none => s
  | some st =>
    let m := mgetD s.models.slots st.slot Slot.reset
    let fl := (mgetD x.flags i 0).toNat
    let lost := decide (i ∈ x.lostSt) || m.failsSteps
    let cflags := stepCflags fl (mhas x.vectors st.slot) late
    let s := updStream i (fun st => { st with input := none, appended := [], pos := st.pos + 1 }) s
    match st.input with
    | some held => finishStream st.pair held.cmd (if lost then Status.lost.code else 0) cflags (stepResult (mgetD x.epochs st.slot 0) (mget x.vectors st.slot) x.k) s
    | none => s

/-- R212: has every engine of the plan finished the step? -/
def PlanRt.stepDone (p : PlanRt) (x : Step) : Bool := p.plan.arrayList.all (fun a => decide (a ∈ x.ended)) && x.collDone && x.strmDone

/-- A step ends (R95, R212, R223, R315). -/
def endStep (h sc : Nat) (p : PlanRt) (c : Sched) (x : Step) (s : State) : State :=
  let late := decide (x.nominal + c.deadline < s.tbu.now)
  let s := updateHistory x s
  let s := countBy (planCnt h 1) (if late then 1 else 0) (count (planCnt h 0) s)
  let s := updPlan h (fun p => { p with steps := mdel p.steps sc, coll := mdel p.coll sc, strm := mdel p.strm sc }) s
  let s := forEach p.plan.arrayList (fun a s => if (s.arr a).cur = some (h, sc) then arrayBarrier a s else s) s
  let s := forEach x.rows (fun r s => tuneStep r.2 (completeStream x late r.2 s)) s
  let s := forEach (s.models.streams.filter (fun y => decide (y.2.handle = h) && decide (y.2.sched = sc))) (fun y s => tuneBarrier y.1 s) s
  let s := forEach (s.models.streams.filter (fun y => decide (y.2.handle = h) && decide (y.2.sched = sc) && y.2.closing.isSome))
    (fun y s => closeStream y.1 s) s
  match s.plan h with
  | some q => if decide (q.st = .stopping) && decide (q.steps = []) then endStopped h s else s
  | none => s

/-- STEP_END (R212). -/
def execStepEnd (h sc : Nat) (t : Nat) (s : State) : Host.Outcome State Fault Refusal :=
  .next (
    let s := reachTime t s
    match s.plan h with
    | some p => match p.plan.scheds[sc]?, mget p.steps sc with
      | some c, some x => if p.stepDone x then endStep h sc p c x s else s
      | _, _ => s
    | none => s)

/-- R213: the engines of a plan's step blocked at a `WAIT`, with their counters, in ascending engine order. The two engines of an
array have one number; where both wait, the counter named is the execute engine's: DESIGN CHOICE (log 92). -/
def State.blockedAt (s : State) (h sc : Nat) (p : PlanRt) : List (Nat × Nat) :=
  p.plan.arrayList.filterMap (fun a =>
    let r := s.arr a
    if r.cur ≠ some (h, sc) then none
    else if r.ewaiting then (match r.queue with | x :: _ => if wOp x.2 = 1 then some (a, wCtr x.2) else none | [] => none)
    else if r.fwaiting then
      let w := wordOf (s.storeRd a (p.plan.streamsAt a + 16 * r.fpc) 16)
      if wOp w = 1 then some (a, wCtr w) else none
    else none) ++
  (match mget p.coll sc with
   | some x => (match p.plan.collW[x.pc]? with | some w => if x.waiting && decide (wOp w = 1) then [(64, wCtr w)] else [] | none => [])
   | none => []) ++
  (match mget p.strm sc with
   | some x => (match p.plan.strmW[x.pc]? with | some w => if x.waiting && decide (wOp w = 1) then [(65, wCtr w)] else [] | none => [])
   | none => [])

/-- The counters of up to `n` blocked engines, 0xFFFF where there is none. -/
def stallCounters (n : Nat) (l : List (Nat × Nat)) : Bytes :=
  (List.range n).flatMap (fun i => toLE 2 (match l[i]? with | some x => x.2 | none => 0xFFFF))

/-- STEP_STALLED (R213): once for a step. -/
def execStepStalled (h sc : Nat) (t : Nat) (s : State) : Host.Outcome State Fault Refusal :=
  .next (
    let s := reachTime t s
    match s.plan h with
    | some p => match p.plan.scheds[sc]?, mget p.steps sc with
      | some c, some x =>
        if x.stallRec || decide (s.tbu.now < x.nominal + 4 * c.period) then s
        else
          let l := s.blockedAt h sc p
          let mask := l.foldl (fun m e => m + 2 ^ e.1) 0
          let conts := (List.range (cdiv (l.length - 11) 16)).map (fun i => stallCounters 16 (l.drop (11 + 16 * i)))
          let s := updStep h sc (fun x => { x with stallRec := true }) (updPlan h (fun p => { p with stalled := true }) s)
          record .ce 0x0302 { detail := toLE 9 mask ++ [0] ++ stallCounters 11 l, planId := p.plan.planId, conts := conts } s
      | _, _ => s
    | none => s)

end Sys2Proof.Machine
end

