-- ==== Sys2Proof/Machine/Engine.lean ====
section
/-! DEFINITION. Sys2Proof/Machine/Engine.lean: how an engine stands at its current word, and the ordering words
(R196-R201, R206, R207, R210, R211, R236, R237, R243, R257, R266). -/

namespace Sys2Proof.Machine

/-- An engine's current word with its place. -/
structure At where
  h     : Nat
  sc    : Nat
  idx   : Nat
  w     : QWord
  kind  : SKind
  /-- the array, 64 for a hub stream -/
  a     : Nat
  p     : PlanRt

/-- The number of an engine in location kind ENGINE (R492). -/
def engNum : EngineId → Nat
  | .fetch a => a
  | .exec a => a
  | .coll _ _ => 64
  | .strm _ _ => 65

/-- A word of an array's copies in its STREAMS region (R262). -/
def State.copyWord (s : State) (p : Plan) (a i : Nat) : QWord := wordOf (s.storeRd a (p.streamsAt a + 16 * i) 16)

/-- The step an array runs, with its plan. -/
def State.holder (s : State) (a : Nat) : Option (Nat × Nat × PlanRt) :=
  match (s.arr a).cur with
  | some c => match s.plan c.1 with
    | some p => if p.active then some (c.1, c.2, p) else none
    | none => none
  | none => none

/-- Where the fetch sequence of a schedule ends on an array. -/
def Plan.fetchEnd (p : Plan) (a sc : Nat) : Nat :=
  match ((p.scheds[sc]?).bind (fun c => mget c.fetchEp a)) with
  | some e => seqEnd (p.fetchEps a) (p.fetchOf a).length e
  | none => 0
/-- Where the execute sequence of a schedule ends on an array. -/
def Plan.execEnd (p : Plan) (a sc : Nat) : Nat :=
  match ((p.scheds[sc]?).bind (fun c => mget c.execEp a)) with
  | some e => seqEnd (p.execEps a) (p.execOf a).length e
  | none => 0
/-- Where the sequences of a schedule end in the hub streams. -/
def Plan.collEnd (p : Plan) (sc : Nat) : Nat :=
  match ((p.scheds[sc]?).bind (·.collEp)) with | some e => seqEnd p.collEps p.collW.length e | none => 0
def Plan.strmEnd (p : Plan) (sc : Nat) : Nat :=
  match ((p.scheds[sc]?).bind (·.strmEp)) with | some e => seqEnd p.strmEps p.strmW.length e | none => 0

/-- The word an engine stands at, if it has one in a running step. -/
def State.at (s : State) (e : EngineId) : Option At :=
  match e with
  | .fetch a => match s.holder a with
    | some (h, sc, p) =>
      let i := (s.arr a).fpc
      if i < p.plan.fetchEnd a sc then some ⟨h, sc, i, s.copyWord p.plan a i, if p.plan.el3 then .el3 else .f, a, p⟩ else none
    | none => none
  | .exec a => match s.holder a, (s.arr a).queue with
    | some (h, sc, p), x :: _ => some ⟨h, sc, x.1, x.2, if p.plan.el3 then .el3 else .e, a, p⟩
    | _, _ => none
  | .coll h sc => match s.plan h with
    | some p => match mget p.coll sc with
      | some x => if x.pc < p.plan.collEnd sc && p.active then (p.plan.collW[x.pc]?).map (fun w => ⟨h, sc, x.pc, w, .c, 64, p⟩) else none
      | none => none
    | none => none
  | .strm h sc => match s.plan h with
    | some p => match mget p.strm sc with
      | some x => if x.pc < p.plan.strmEnd sc && p.active then (p.plan.strmW[x.pc]?).map (fun w => ⟨h, sc, x.pc, w, .s, 64, p⟩) else none
      | none => none
    | none => none

/-- R266: does the word pass the checks made as it issues? -/
def At.ok (x : At) (s : State) : Bool :=
  !wordAbsent s.part.variant x.w && wordOk s.part.variant x.p.plan x.kind s.storeRd x.a x.sc x.w

/-- An engine row: the engine's current word, if malformed, halts the plan (R224, R266); one of another opcode is left alone (log 7). -/
def withWord (e : EngineId) (op : Nat) (k : At → State → State) (s : State) : State :=
  match s.at e with
  | none => s
  | some x => if !x.ok s then engineFault x.h (engNum e) x.idx s else if wOp x.w = op then k x s else s

/-- A row of an array's fetch engine. `ue`: the store returns the word's copy with an uncorrectable ECC error, and the word is
malformed (R266). -/
def withCopy (a : Nat) (ue : Bool) (op : Nat) (k : At → State → State) (s : State) : State :=
  if ue then
    match s.at (.fetch a) with
    | some x => engineFault x.h a x.idx s
    | none => s
  else withWord (.fetch a) op k s

/-! ## Moving past words -/

/-- An array's part of a step has ended. -/
def endArray (h sc a : Nat) (s : State) : State := updStep h sc (fun x => { x with ended := addOnce x.ended a }) s

/-- Marks the part of an array with no execute sequence as ended once its fetch sequence is (R212). DEDUCED (log 28). -/
def settleFetch (a : Nat) (s : State) : State :=
  match s.holder a with
  | some (h, sc, p) =>
    let r := s.arr a
    if !p.plan.el3 && decide (p.plan.execEnd a sc = 0) && decide (p.plan.fetchEnd a sc ≤ r.fpc) && r.runs.isEmpty
    then endArray h sc a s else s
  | none => s

/-- Marks a hub stream's part of a step as complete once its last word has completed (R212). -/
def settleHub (h sc : Nat) (s : State) : State :=
  match s.plan h with
  | some p =>
    let c := match mget p.coll sc with | some x => decide (p.plan.collEnd sc ≤ x.pc) && x.prog.isEmpty | none => false
    let t := match mget p.strm sc with | some x => decide (p.plan.strmEnd sc ≤ x.pc) && x.prog.isEmpty | none => false
    updStep h sc (fun x => { x with collDone := x.collDone || c, strmDone := x.strmDone || t }) s
  | none => s

/-- A change of a hub engine's place. -/
def updColl (h sc : Nat) (f : HubCtx → HubCtx) (s : State) : State := updPlan h (fun p => { p with coll := mupd p.coll sc f }) s
def updStrm (h sc : Nat) (f : HubCtx → HubCtx) (s : State) : State := updPlan h (fun p => { p with strm := mupd p.strm sc f }) s

/-- The engine goes on to its next word. -/
def advance (e : EngineId) (s : State) : State :=
  match e with
  | .fetch a => settleFetch a (updArr a (fun r => { r with fpc := r.fpc + 1, fwaiting := false }) s)
  | .exec a => updArr a (fun r => { r with queue := r.queue.drop 1, ewaiting := false }) s
  | .coll h sc => settleHub h sc (updColl h sc (fun x => { x with pc := x.pc + 1, waiting := false }) s)
  | .strm h sc => settleHub h sc (updStrm h sc (fun x => { x with pc := x.pc + 1, waiting := false }) s)

/-- The engine stays at its word and waits. -/
def hold (e : EngineId) (s : State) : State :=
  match e with
  | .fetch a => updArr a (fun r => { r with fwaiting := true }) s
  | .exec a => updArr a (fun r => { r with ewaiting := true }) s
  | .coll h sc => updColl h sc (fun x => { x with waiting := true }) s
  | .strm h sc => updStrm h sc (fun x => { x with waiting := true }) s

/-- Does the engine wait at its word? -/
def State.waitingAt (s : State) (e : EngineId) : Bool :=
  match e with
  | .fetch a => (s.arr a).fwaiting
  | .exec a => (s.arr a).ewaiting
  | .coll h sc => match (s.plan h).bind (fun p => mget p.coll sc) with | some x => x.waiting | none => false
  | .strm h sc => match (s.plan h).bind (fun p => mget p.strm sc) with | some x => x.waiting | none => false

/-- A word that takes time has issued (R257): the engine goes on, and the word stays in progress. -/
def issue (e : EngineId) (i : InProg) (s : State) : State :=
  let s := match e with
    | .fetch _ => s
    | .exec a => updArr a (fun r => { r with prog := r.prog ++ [i] }) s
    | .coll h sc => updColl h sc (fun x => { x with prog := x.prog ++ [i] }) s
    | .strm h sc => updStrm h sc (fun x => { x with prog := x.prog ++ [i] }) s
  advance e s

/-- A word in progress that keeps nothing besides itself. -/
def InProg.plain (x : At) : InProg := { index := x.idx, word := x.w, issued := [], order := [], open_ := [], ecc := [], recv := [], freed := 0, data := [], flags := 0 }

/-- Words of an engine that have issued and not completed. -/
def State.progOf (s : State) (e : EngineId) : List InProg :=
  match e with
  | .fetch _ => []
  | .exec a => (s.arr a).prog
  | .coll h sc => match (s.plan h).bind (fun p => mget p.coll sc) with | some x => x.prog | none => []
  | .strm h sc => match (s.plan h).bind (fun p => mget p.strm sc) with | some x => x.prog | none => []

/-- R237: has every earlier word of the engine's own stream completed? A fence-mode stream feeds both engines (R199). -/
def State.earlierDone (s : State) (e : EngineId) : Bool :=
  match e with
  | .fetch a =>
    let r := s.arr a
    r.runs.isEmpty && (match s.holder a with | some (_, _, p) => !p.plan.el3 || (r.queue.isEmpty && r.prog.isEmpty && r.rel.isEmpty) | none => true)
  | .exec a => (s.arr a).prog.isEmpty && (s.arr a).rel.isEmpty
  | e => (s.progOf e).isEmpty

/-- A word's completion signal (R257). -/
def sigOf (h : Nat) (w : QWord) (s : State) : State := if wSig w then signalCtr h (wCtr w) 1 false s else s

/-! ## The ordering words -/

/-- ENGINE_NOP (R236): completes on issue. -/
def execEngineNop (e : EngineId) (s : State) : Host.Outcome State Fault Refusal :=
  .next (withWord e 0x00 (fun _ s => advance e s) s)

/-- WAIT (R206, R236). -/
def execWait (e : EngineId) (s : State) : Host.Outcome State Fault Refusal :=
  .next (withWord e 0x01 (fun x s => if wf x.w 31 0 ≤ s.ctrVal x.h (wCtr x.w) then advance e s else hold e s) s)

/-- WAIT_SATISFIED (R206): the counter has reached the value of a `WAIT` that an engine waits at. -/
def execWaitSatisfied (e : EngineId) (s : State) : Host.Outcome State Fault Refusal :=
  .next (withWord e 0x01 (fun x s =>
    if s.waitingAt e && decide (wf x.w 31 0 ≤ s.ctrVal x.h (wCtr x.w)) then advance e s else s) s)

/-- SIGNAL (R206, R237): without NOW it waits until every earlier word of its stream has completed. -/
def execSignal (e : EngineId) (s : State) : Host.Outcome State Fault Refusal :=
  .next (withWord e 0x02 (fun x s =>
    if wRst x.w then s
    else if wX x.w || s.earlierDone e then advance e (signalCtr x.h (wCtr x.w) (wf x.w 15 0) false s) else s) s)

/-- RESET_COUNTER (R206, R237): a SIGNAL word with RST. -/
def execResetCounter (e : EngineId) (s : State) : Host.Outcome State Fault Refusal :=
  .next (withWord e 0x02 (fun x s =>
    if !wRst x.w then s
    else if wX x.w || s.earlierDone e then advance e (signalCtr x.h (wCtr x.w) 0 true s) else s) s)

/-- AT_TIME (R236): within a sequence the engine waits for its release; a free array waits at the words that start steps. -/
def execAtTime (e : EngineId) (s : State) : Host.Outcome State Fault Refusal :=
  .next (withWord e 0x03 (fun _ s => hold e s) s)

/-- The steps that could start on a free array: nominal start, handle, schedule, fetch entry point, in the order of R211. An array that
only executes takes the step as it starts, its fetch engine having nothing to do (R212). -/
def State.startable? (s : State) (a : Nat) : List (Nat × Nat × Nat × Nat) :=
  s.plans.flatMap (fun q =>
    if !q.2.active then []
    else (q.2.steps.filterMap (fun x =>
      if a ∈ x.2.ended then none
      else match (q.2.plan.scheds[x.1]?).bind (fun c => mget c.fetchEp a) with
        | some ep =>
          let w := s.copyWord q.2.plan a ep
          let ready := decide (wOp w ≠ 0x03) || decide (x.2.nominal + wf w 35 4 ≤ s.tbu.now)
          if ready then some (x.2.nominal, q.1, x.1, ep) else none
        | none => ((q.2.plan.scheds[x.1]?).bind (fun c => mget c.execEp a)).map (fun _ => (x.2.nominal, q.1, x.1, 0)))))

/-- The first of them (R211). -/
def firstStep : List (Nat × Nat × Nat × Nat) → Option (Nat × Nat × Nat × Nat)
  | [] => none
  | x :: l => match firstStep l with
    | some y => if y.1 < x.1 ∨ (y.1 = x.1 ∧ (y.2.1 < x.2.1 ∨ (y.2.1 = x.2.1 ∧ y.2.2.1 < x.2.2.1))) then some y else some x
    | none => some x

/-- The regulator record of an array and class: B and D. -/
def Plan.reg (p : Plan) (a c : Nat) : Nat × Nat := p.regs.getD (5 * a + c) (0, 0)

/-- R103, R200, R201, R210, R211: an array takes a step, its buckets full, its budgets as declared, its generator seeded; its step
barrier has come, and the maintenance share changes (R146). -/
def bindStep (a h sc ep : Nat) (p : PlanRt) (x : Step) (s : State) : State :=
  let exep := (p.plan.scheds[sc]?).bind (fun c => mget c.execEp a)
  updArr a (fun r => { r with
    cur := some (h, sc), fpc := ep, fwaiting := false, epc := exep.getD 0, copied := exep.isNone, ewaiting := false,
    budget := (List.range 5).map (fun c => (c, (p.plan.reg a c).1)),
    tokens := (List.range 5).map (fun c => (c, (p.plan.reg a c).1 * (p.plan.reg a c).2 * 1000)),
    filled := (List.range 5).map (fun c => (c, s.tbu.now)),
    gen := seedUnit x.seed a, maintM := s.shareOf a, recUnmapped := false }) s

/-- AT_TIME_RELEASE (R210, R211, R236): an engine waiting at an `AT_TIME` goes on at t_k + delay; a free array takes the
first releasable step. -/
def execAtTimeRelease (e : EngineId) (t : Nat) (s : State) : Host.Outcome State Fault Refusal :=
  .next (
    let s := reachTime t s
    let s := match e with
      | .fetch a =>
        if (s.arr a).cur.isNone then
          match firstStep (s.startable? a) with
          | some (_, h, sc, ep) => match s.plan h, s.stepOf h sc with
            | some p, some x => hold e (bindStep a h sc ep p x s)
            | _, _ => s
          | none => s
        else s
      | _ => s
    withWord e 0x03 (fun x s => match s.stepOf x.h x.sc with
      | some k => if s.waitingAt e && decide (k.nominal + wf x.w 35 4 ≤ s.tbu.now) then advance e s else s
      | none => s) s)

/-- END_STEP (R207): the array's part of the step ends once its earlier words and fetches have completed. -/
def execEndStep (a : Nat) (s : State) : Host.Outcome State Fault Refusal :=
  .next (withWord (.exec a) 0x04 (fun x s =>
    if s.earlierDone (.exec a) && (s.arr a).runs.isEmpty && decide (x.p.plan.fetchEnd a x.sc ≤ (s.arr a).fpc)
    then endArray x.h x.sc a (advance (.exec a) s) else s) s)

/-- FENCE (R199): the fetch engine goes on once the queue is empty and every word placed before has completed. -/
def execFence (w : WordCopy) (s : State) : Host.Outcome State Fault Refusal :=
  .next (withCopy w.array w.ue 0x05 (fun _ s =>
    let r := s.arr w.array
    if r.queue.isEmpty && r.prog.isEmpty && r.rel.isEmpty then advance (.fetch w.array) s else s) s)

/-- Opcodes that only an execute engine runs (R233). -/
def executeOnly (op : Nat) : Bool := decide (op = 0x04) || (decide (0x20 ≤ op) && decide (op ≤ 0x27))

/-- QUEUE_COPY (R196, R199): the fetch engine puts the next execute word into the queue while it has room. In fence mode
the words that either engine may carry are the fetch engine's own. DEDUCED (log 29). `ue` as in `withCopy`. -/
def execQueueCopy (w : WordCopy) (s : State) : Host.Outcome State Fault Refusal :=
  .next (match s.holder w.array with
    | some (h, sc, p) =>
      let r := s.arr w.array
      if 64 ≤ r.queue.length then s
      else if p.plan.el3 then
        match s.at (.fetch w.array) with
        | some x => if w.ue then engineFault h w.array x.idx s
          else if x.ok s && executeOnly (wOp x.w) then advance (.fetch w.array) (updArr w.array (fun r => { r with queue := r.queue ++ [(x.idx, x.w)] }) s) else s
        | none => s
      else if r.copied then s
      else if w.ue then engineFault h w.array r.epc s
      else
        let cw := s.copyWord p.plan w.array ((p.plan.fetchOf w.array).length + r.epc)
        updArr w.array (fun r => { r with
          queue := r.queue ++ [(r.epc, cw)], epc := r.epc + 1,
          copied := decide (wOp cw = 0x04) || decide (p.plan.execEnd w.array sc ≤ r.epc + 1) }) s
    | none => s)

/-! ## The bandwidth regulator (R200, R201) -/

/-- A remote SEND whose data has not left yet (R200, R253). -/
def InProg.unsent (i : InProg) : Bool := decide (wOp i.word = 0x26) && decide (wf i.word 50 50 = 1) && decide (i.order = [])

/-- A class's tokens, in thousandths of a byte, at a time. While a SEND waits, its requests of at most 256 bytes take the FABRIC
class's tokens as they come, so that the bucket does not fill up meanwhile: here they are taken when its last request goes. -/
def Arr.tokensAt (r : Arr) (c d now : Nat) : Nat :=
  let b := mgetD r.budget c 0
  let n := mgetD r.tokens c 0 + b * (now - mgetD r.filled c 0)
  if decide (c = 4) && r.prog.any InProg.unsent then n else min (b * d * 1000) n

/-- When a class's bucket holds `n` thousandths of a byte. -/
def Arr.fullAt (r : Arr) (c n : Nat) : Nat := mgetD r.filled c 0 + cdiv (n - mgetD r.tokens c 0) (mgetD r.budget c 0)

/-- R230: the µs of a wait for tokens, from one time to another, those not counted before. -/
def countWait (h from_ to_ : Nat) (s : State) : State :=
  match s.plan h with
  | some p =>
    if to_ ≤ from_ then s
    else
      let lo := max p.waitTo (from_ / 1000)
      let hi := (to_ - 1) / 1000 + 1
      countBy (planCnt h 6) (hi - lo) (updPlan h (fun p => { p with waitTo := max p.waitTo hi }) s)
  | none => s

/-- The tokens of a class brought up to date. -/
def refill (a c d : Nat) (s : State) : State :=
  updArr a (fun r => { r with tokens := mset r.tokens c (r.tokensAt c d s.tbu.now), filled := mset r.filled c s.tbu.now }) s

/-- REGULATE (R201, R243). -/
def execRegulate (w : WordCopy) (s : State) : Host.Outcome State Fault Refusal :=
  .next (withCopy w.array w.ue 0x13 (fun x s =>
    let c := wf x.w 2 0
    let d := (x.p.plan.reg w.array c).2
    let b := wf x.w 18 3
    advance (.fetch w.array) (updArr w.array (fun r => { r with
      budget := mset r.budget c b, tokens := mset r.tokens c (min (b * d * 1000) (mgetD r.tokens c 0)) }) (refill w.array c d s))) s)

end Sys2Proof.Machine
end

