-- ==== Sys2Proof/Machine/Codec.lean ====
section
/-! DEFINITION. Sys2Proof/Machine/Codec.lean: the activation codec: tables, blocks, link channels and stored blocks
(chapter 08). -/

namespace Sys2Proof.Machine

/-! ## Tables (R273, R274, R276) -/

/-- R273: is a list of 256 code lengths a valid table? Lengths are weighed in units of 2^-12. -/
def tableOk (t : List Nat) : Bool :=
  let used := t.filter (· ≠ 0)
  decide (t.length = 256) && t.all (fun l => decide (l ≤ 12)) && !used.isEmpty &&
  decide ((used.map (fun l => 2 ^ (12 - l))).sum ≤ 4096) && (decide (used.length ≠ 1) || decide (used = [1]))

/-- The lengths in a TABLE payload: symbol s in byte s / 2 (R273). -/
def tableOf (b : Bytes) : List Nat := (List.range 256).map (fun s => codeAt 4 b s)
/-- A table as 128 bytes. -/
def tableBytes (t : List Nat) : Bytes := packCodes4 t

/-- How many symbols have a length. -/
def lenCount (t : List Nat) (n : Nat) : Nat := t.countP (fun l => decide (l = n))
/-- The first code of a length (R274). -/
def firstCode (t : List Nat) : Nat → Nat
  | 0 => 0
  | n + 1 => (firstCode t n + if n = 0 then 0 else lenCount t n) * 2
/-- The code of a symbol (R274). -/
def codeOfSym (t : List Nat) (s : Nat) : Nat :=
  let l := t.getD s 0
  firstCode t l + lenCount (t.take s) l
/-- The symbol that a code of a length stands for. -/
def symOfCode (t : List Nat) (len code : Nat) : Option Nat :=
  (List.range 256).find? (fun s => decide (t.getD s 0 = len) && decide (len ≠ 0) && decide (codeOfSym t s = code))

/-- R276: the table the encoder builds; its choice of lengths is free among tables that code every symbol. -/
def buildTable (data : Bytes) : List Nat :=
  let t := Config.codecLengths data
  if tableOk t && t.all (· ≠ 0) then t else List.replicate 256 8

/-! ## Bitstreams (R275) -/

/-- A code's bits, most significant first. -/
def codeBits (len code : Nat) : List Bool := (List.range len).map (fun i => Nat.testBit code (len - 1 - i))
/-- Bits packed into bytes from bit 0 upwards. -/
def packBits (l : List Bool) : Bytes :=
  (List.range (cdiv l.length 8)).map (fun i =>
    BitVec.ofNat 8 ((List.range 8).foldl (fun v j => v + flag (l.getD (8 * i + j) false) j) 0))
/-- The bits of bytes, bit 0 first. -/
def unpackBits (b : Bytes) : List Bool := b.flatMap (fun x => (List.range 8).map (fun j => x.getLsbD j))

/-- The symbols of `n` codes; `none` where no code matches, the stream ends early, or a padding bit is set. -/
def decodeBits (t : List Nat) : List Bool → Nat → Nat → Nat → Bytes → Option Bytes
  | l, _, _, 0, acc => if l.any id then none else some acc.reverse
  | [], _, _, _ + 1, _ => none
  | b :: l, len, code, n + 1, acc =>
    let code := 2 * code + if b then 1 else 0
    match symOfCode t (len + 1) code with
    | some s => decodeBits t l 0 0 n (BitVec.ofNat 8 s :: acc)
    | none => if 12 ≤ len + 1 then none else decodeBits t l (len + 1) code (n + 1) acc

/-! ## Blocks (R269-R272) -/

/-- A block's header (R269). -/
structure BlockHead where
  typ   : Nat
  last  : Bool
  table : Nat
  units : Nat
  words : Nat
deriving DecidableEq, Repr

/-- The header in the first four bytes. -/
def blockHead (b : Bytes) : BlockHead :=
  let v := u b 0 4
  { typ := bits v 1 0, last := bit v 2, table := bits v 12 3, units := bits v 20 13, words := bits v 31 21 }
/-- A header as a number. -/
def BlockHead.num (h : BlockHead) : Nat := h.typ + flag h.last 2 + h.table * 8 + h.units * 2 ^ 13 + h.words * 2 ^ 21
/-- Bytes of a whole block. -/
def BlockHead.size (h : BlockHead) : Nat := 8 + 4 * h.words

/-- A block from header and payload, with its CRC (R271). -/
def sealBlock (h : BlockHead) (pay : Bytes) : Bytes :=
  let b := toLE 4 h.num ++ pay
  b ++ toLE 4 (crc32c b).toNat

/-- R272: a data block: ZERO, CODED under the table where it codes every symbol and is no longer, else RAW. -/
def encodeBlock (t : Option (List Nat)) (tnum : Nat) (last : Bool) (raw : Bytes) : Bytes × Nat :=
  let units := raw.length / 16 - 1
  let rawBlock := (sealBlock ⟨0, last, 0, units, 4 * (units + 1)⟩ raw, 0)
  if raw.all (· = 0) then (sealBlock ⟨2, last, 0, units, 0⟩ [], 2)
  else match t with
    | none => rawBlock
    | some t =>
      let stream := packBits (raw.flatMap (fun b => codeBits (t.getD b.toNat 0) (codeOfSym t b.toNat)))
      let words := cdiv stream.length 4
      if raw.all (fun b => decide (t.getD b.toNat 0 ≠ 0)) && decide (4 * words ≤ raw.length) then
        (sealBlock ⟨1, last, tnum, units, words⟩ (slice stream 0 (4 * words)), 1)
      else rawBlock

/-- R269: the raw blocks of a transfer, each with the mark of the last. -/
def cutBlocks (data : Bytes) : List (Bytes × Bool) :=
  let n := cdiv data.length 4096
  (List.range n).map (fun i => ((data.drop (4096 * i)).take 4096, decide (i + 1 = n)))

/-- R269-R271, R275: what a block expands to; `tab` is the table its number names. `none` is damaged: one before the last of
4,096 raw bytes is short of what R269 cuts. -/
def expandBlock (tab : Nat → Option (List Nat)) (link : Bool) (b : Bytes) : Option Bytes :=
  let h := blockHead b
  let pay := slice b 4 (4 * h.words)
  if b.length < h.size || (!h.last && decide (h.typ ≠ 3) && decide (h.units ≠ 255)) || decide (u b (4 + 4 * h.words) 4 ≠ (crc32c (b.take (4 + 4 * h.words))).toNat) then none
  else match h.typ with
    | 0 => if decide (h.table = 0) && decide (h.words = 4 * (h.units + 1)) then some pay else none
    | 1 =>
      if decide (1 ≤ h.words) && decide (h.words ≤ 4 * (h.units + 1)) && (!link || decide (h.table ≤ 3)) then
        match tab h.table with
        | some t => decodeBits t (unpackBits pay) 0 0 (16 * (h.units + 1)) []
        | none => none
      else none
    | 2 => if decide (h.table = 0) && decide (h.words = 0) then some (List.replicate (16 * (h.units + 1)) 0) else none
    | _ => if link && decide (h.words = 32) && decide (h.units = 0) && decide (h.table ≤ 3) && tableOk (tableOf pay) then some [] else none

/-! ## Instances and counters (R267, R288) -/

/-- Counter word `w` of instance `i` in `HUB_CDC_CNT`. -/
def cdcCnt (i w : Nat) : Nat := 0x400 + 32 * i + 4 * w
/-- The board-tier instances of a variant. -/
def boardInsts : Variant → List Nat
  | .x => [8, 9]
  | .m => [4, 5, 6, 7, 8, 9]
  | .s => List.range 10
/-- Bytes queued at an instance. -/
def State.queuedAt (s : State) (i : Nat) : Nat :=
  ((s.codec.xfers.filter (fun x => decide (x.inst = i))).map (·.bytes)).sum
/-- The board-tier instance that takes a transfer: the one with the fewest bytes queued. Among equals the lowest: DESIGN CHOICE
(log 31). -/
def State.boardInst (s : State) : Nat :=
  let l := boardInsts s.part.variant
  l.foldl (fun b i => if s.queuedAt i < s.queuedAt b then i else b) (l.headD 0)
/-- The Spar instance that codes a message to a member: that of the port on which it leaves; 0 while there is no route. -/
def State.linkInst (s : State) (m : Nat) : Nat :=
  (s.portFor { typ := 1, dst := m, src := s.spar.member, chanSeq := mgetD s.spar.chanTx m 0, eom := false, msg := .data [] }).getD 0

/-- R288: blocks emitted are counted by type. -/
def countBlocks (i : Nat) (types : List Nat) (s : State) : State :=
  countBy (cdcCnt i 0) (types.countP (· = 1)) (countBy (cdcCnt i 1) (types.countP (· = 0)) (countBy (cdcCnt i 2) (types.countP (· = 2)) s))

/-! ## The table store and stored blocks (R283-R287) -/

/-- A table-store entry. -/
def State.tab (s : State) (e : Nat) : TabSt := mgetD s.codec.store e ⟨none, []⟩
/-- A change of a table-store entry. -/
def updTab (e : Nat) (f : TabSt → TabSt) (s : State) : State :=
  { s with codec := { s.codec with store := mset s.codec.store e (f (s.tab e)) } }
/-- An entry's reference count (R284): objects, reads, USE writes and BUILDs in progress. -/
def State.tabCount (s : State) (e : Nat) : Nat :=
  (s.tab e).objs.length + s.codec.xfers.countP (fun x => x.holds && decide (x.tab = e))

/-- A transfer enters the codec. -/
def addXfer (x : CdcXfer) (s : State) : State := { s with codec := { s.codec with xfers := s.codec.xfers ++ [x] } }
/-- Which transfer of an array: a read of an entry of a fetch run, or the write of a SEND. -/
def CdcXfer.is (x : CdcXfer) (a : Nat) (fetch : Bool) (index entry : Nat) : Bool :=
  decide (x.array = a) && decide (x.fetch = fetch) && decide (x.index = index) && decide (x.entry = entry)
/-- A transfer leaves the codec and releases what it held. -/
def endXfer (a : Nat) (fetch : Bool) (index entry : Nat) (s : State) : State :=
  { s with codec := { s.codec with xfers := s.codec.xfers.filter (fun x => !x.is a fetch index entry) } }
/-- A transfer in progress. -/
def State.xfer (s : State) (a : Nat) (fetch : Bool) (index entry : Nat) : Option CdcXfer :=
  s.codec.xfers.find? (fun x => x.is a fetch index entry)

/-- Where the block after one of `n` bytes at `pos` begins, in a transfer at an address that is `m` modulo 64 (R283). -/
def nextBlock (m pos n : Nat) : Nat := alignUp (m + pos + n) 64 - m

/-- R283, R287: the bytes that stored blocks hold from `pos` on; `none` where a block is damaged. `m` is the address modulo 64. -/
def readStored (t : Option (List Nat)) (entry m : Nat) (b : Bytes) : Nat → Nat → Option Bytes
  | 0, _ => some []
  | fuel + 1, pos =>
    if b.length ≤ pos then some []
    else
      let h := blockHead (b.drop pos)
      if h.typ = 3 || (decide (h.typ = 1) && decide (h.table ≠ entry)) then none
      else match expandBlock (fun _ => t) false (slice (b.drop pos) 0 h.size) with
        | none => none
        | some x => if h.last then some x else (readStored t entry m b fuel (nextBlock m pos h.size)).map (x ++ ·)

/-- R283: what of a coded entry of `len` bytes is to be read next, given the bytes read so far: a block's first 64 bytes, then
the rest that its header gives, then the next block. -/
def codedNext (m len : Nat) (b : Bytes) : Nat → Nat → Option (Nat × Nat)
  | 0, _ => none
  | fuel + 1, pos =>
    let first := min (pos + 64) len
    if len ≤ pos then none
    else if b.length < first then some (max b.length pos, first)
    else
      let h := blockHead (b.drop pos)
      let stop := min (pos + h.size) len
      if b.length < stop then some (b.length, stop)
      else if h.last then none
      else codedNext m len b fuel (nextBlock m pos h.size)

/-- R287: a coded entry's data expanded under its table-store entry; a damaged block counts in the instance that expands it. -/
def expandEntry (table m inst : Nat) (b : Bytes) (s : State) : Option Bytes × State :=
  let e := table % 1024
  match readStored (s.tab e).table e m b (cdiv b.length 64) 0 with
  | some x => (some x, s)
  | none => (none, count (cdcCnt inst 6) s)

/-- R284: an object's reference on an entry, taken at its first block coded with the entry. -/
def takeRef (e obj : Nat) (s : State) : State := updTab e (fun t => { t with objs := addOnce t.objs obj }) s

/-- R284, R285: a board-tier write through the codec starts: it selects its table-store entry, for a step of a plan. -/
def startCoded (h sc a index table : Nat) (data : Bytes) (s : State) : State :=
  let e := table % 1024
  let i := s.boardInst
  let use := bit table 11
  let t := (s.tab e).table
  let refused := !use && decide (0 < s.tabCount e)
  let planId := match s.plan h with | some p => p.plan.planId | none => 0
  let x : CdcXfer :=
    { array := a, fetch := false, index := index, entry := 0, inst := i, bytes := data.length, tab := e,
      holds := !refused && (!use || t.isSome), build := !use && !refused,
      table := if refused then none else if use then t else some (buildTable data) }
  let s := addXfer x s
  if refused then
    let s := count (cdcCnt i 4) s
    match s.stepOf h sc with
    | some y => if e ∈ y.busyRec then s else
        record .ce 0x0401 { detail := toLE 2 e, planId := planId, status := Status.tableBusy.code } (updStep h sc (fun y => { y with busyRec := e :: y.busyRec }) s)
    | none => s
  else if use && t.isNone then count (cdcCnt i 7) s
  else s

/-- R283-R285: the blocks of a board-tier write at `dva` within an object: its table is installed, its blocks are written, and
what it held is released. -/
def finishCoded (a index obj dva : Nat) (data : Bytes) (put : Nat → Bytes → State → State) (s : State) : State :=
  match s.xfer a false index 0 with
  | none => s
  | some x =>
    let s := if x.build then count (cdcCnt x.inst 3) (updTab x.tab (fun t => { t with table := x.table }) s) else s
    let blocks := (cutBlocks data).map (fun b => encodeBlock x.table x.tab b.2 b.1)
    let s := if blocks.any (fun b => decide (b.2 = 1)) then takeRef x.tab obj s else s
    let s := countBlocks x.inst (blocks.map (·.2)) s
    endXfer a false index 0 (blocks.foldl (fun (acc : Nat × State) b => (alignUp (acc.1 + b.1.length) 64, put acc.1 b.1 acc.2)) (dva, s)).2

/-! ## Link channels (R278-R282) -/

/-- A channel's slots at one end. -/
def chanOf (m : NMap ChanSt) (d : Nat) : ChanSt := mgetD m d ChanSt.reset

/-- The slot installed least recently: the lowest never installed, else the oldest (R281). -/
def ChanSt.oldest (c : ChanSt) : Nat := ((List.range 4).find? (fun i => !decide (i ∈ c.order))).getD (c.order.headD 0)
/-- A table goes into a slot. -/
def ChanSt.install (c : ChanSt) (slot : Nat) (t : List Nat) : ChanSt :=
  { c with slots := mset c.slots slot t, order := c.order.filter (· ≠ slot) ++ [slot] }
/-- The slot that holds a table. -/
def ChanSt.slotOf (c : ChanSt) (t : List Nat) : Option Nat := (c.slots.find? (fun x => decide (x.2 = t))).map (·.1)

/-- R278, R279: the table that a word's link transfer is coded with: its key table, else one built from its data. -/
def State.keyTable (s : State) (h key : Nat) (data : Bytes) : List Nat :=
  ((s.plan h).bind (fun p => mget p.keys key)).getD (buildTable data)
/-- R278, R279: the transfer has ended: the table of its own data is the key table. -/
def setKey (h key : Nat) (data : Bytes) (s : State) : State := updPlan h (fun p => { p with keys := mset p.keys key (buildTable data) }) s

/-- R281: the blocks of a link transfer to a member under a table, with the TABLE block that installs it where it must. -/
def linkBlocks (t : List Nat) (dst inst : Nat) (data : Bytes) (s : State) : List Bytes × State :=
  let coded := (cutBlocks data).any (fun x => decide ((encodeBlock (some t) 0 x.2 x.1).2 = 1))
  let c := chanOf s.codec.tx dst
  let (c', slot, tableBlock) :=
    if !coded then (c, 0, [])
    else match c.slotOf t with
      | some i => (c, i, [])
      | none => (c.install c.oldest t, c.oldest, [sealBlock ⟨3, false, c.oldest, 0, 32⟩ (tableBytes t)])
  let blocks := (cutBlocks data).map (fun x => encodeBlock (some t) slot x.2 x.1)
  let out := tableBlock ++ blocks.map (·.1)
  let s := { s with codec := { s.codec with tx := mset s.codec.tx dst { c' with sent := c'.sent ++ out } } }
  (out, countBlocks inst (blocks.map (·.2)) s)

end Sys2Proof.Machine
end

