-- ==== Sys2Proof/Machine/Fetch.lean ====
section
/-! DEFINITION. Sys2Proof/Machine/Fetch.lean: the fetch words and what becomes of their entries: requests under the
regulator, arrival, landing in list order, and fallbacks (R118, R198-R203, R218-R222, R238-R242, R259, R295, R298). -/

namespace Sys2Proof.Machine

/-- Bytes written into a store with the reasons they carry. -/
def putStore (a off : Nat) (b : Bytes) (fl : Half) (s : State) : State :=
  setTaint (storeDva a off) b.length fl (storeWr a off b s)

/-! ## Runs and entries -/

/-- Where a symbol's object begins in the DVA range (R259, R291). -/
def Plan.symDva (p : Plan) (i : Nat) : Nat :=
  match p.symbols[i]? with
  | some y => if y.ident.toNat / 2 ^ 56 = 0 then y.ident.toNat else codeBase
  | none => 0

/-- The model slot a Slate-view read of a symbol must find (R291). -/
def Plan.symSlot (p : Plan) (i : Nat) : Option Nat :=
  match p.symbols[i]? with
  | some y => if y.ident.toNat / 2 ^ 56 = 2 then some (bits y.ident.toNat 19 16) else none
  | none => none

/-- An entry not yet requested. -/
def FEntry.fresh (b : Blk) (dva tok ntok : Nat) : FEntry :=
  { blk := b, dva := dva, st := .queued, sent := 0, data := [], tainted := false, marks := 0, lands := [], tok := tok, ntok := ntok, skipped := false }

/-- A change of an array's fetch run of a word. -/
def updRun (a idx : Nat) (f : FRun → FRun) (s : State) : State :=
  updArr a (fun r => { r with runs := r.runs.map (fun x => if x.index = idx then f x else x) }) s
/-- An array's fetch run of a word. -/
def State.run (s : State) (a idx : Nat) : Option FRun := (s.arr a).runs.find? (fun x => decide (x.index = idx))
/-- A change of an entry of a run. -/
def FRun.setEntry (r : FRun) (i : Nat) (f : FEntry → FEntry) : FRun :=
  { r with entries := (List.range r.entries.length).zip r.entries |>.map (fun x => if x.1 = i then f x.2 else x.2) }

/-- R298: the 128 value lines of a block: each dimension's codes for the token slots, with a row scale of 1.0. -/
def valueLines (n : Nat) (rows : Bytes) : Bytes :=
  (List.range 128).flatMap (fun d =>
    packCodes4 ((List.range 128).map (fun t => if t < n then codeAt 4 (rows.drop (64 * t)) d else 0)) ++ [0x80, 0x3F, 0, 0])

/-- R298: the value scales of an entry's tokens go to the store after the sweep's descriptor. -/
def putScales (a desc tok : Nat) (b : Bytes) (s : State) : State := putStore a (desc + 32 + 2 * tok) b 0 s

/-- R239: bytes as 68-byte stream-port lines from a line number on. -/
def portLines (r : FRun) (b : Bytes) (skipped : Bool) : List PortLine :=
  (List.range (b.length / 68)).map (fun j =>
    { desc := r.off, index := r.lines + j, rep := r.rep, data := slice b (68 * j) 68, absent := skipped, key := decide (r.kv = 1), run := r.index })

/-- An entry of a run lands (R203, R239, R298). A port entry that is no whole number of lines is malformed (R239). -/
def landEntry (a : Nat) (h : Nat) (r : FRun) (e : FEntry) (s : State) : State :=
  if r.toPort then
    if e.lands.length % 68 ≠ 0 then engineFault h a r.index s
    else
      let ls := portLines r e.lands e.skipped
      let s := if r.kv = 2 then
          let sc := if e.skipped then (List.replicate e.ntok [(0x80 : Byte), 0x3F]).flatten else slice e.data (64 * e.ntok) (2 * e.ntok)
          putScales a r.off e.tok sc s
        else s
      updRun a r.index (fun r => { r with lines := r.lines + ls.length, done := r.done + 1 })
        (updArr a (fun x => { x with port := x.port ++ ls }) s)
  else
    updRun a r.index (fun r => { r with off := r.off + e.lands.length, done := r.done + 1 })
      (forEach r.dests (fun d s => putStore d r.off e.lands e.marks s) s)

/-- Entries land in list order, each once every earlier one has landed or fallen back (R239). -/
def landAll (a h idx : Nat) : Nat → State → State
  | 0, s => s
  | n + 1, s => match s.run a idx with
    | some r => match r.entries[r.done]? with
      | some e => if e.st = .arrived || e.st = .fellBack then landAll a h idx n (landEntry a h r e s) else s
      | none => s
    | none => s

/-- A run whose entries have all landed or fallen back is complete, and its counter is signalled (R202, R257). -/
def settleRun (a h idx : Nat) (s : State) : State :=
  let s := match s.run a idx with
    | some r => landAll a h idx (r.entries.length - r.done) s
    | none => s
  match s.run a idx with
  | some r =>
    if r.entries.length ≤ r.done then
      settleFetch a (sigOf h r.word (updArr a (fun x => { x with runs := x.runs.filter (fun y => decide (y.index ≠ idx)) }) s))
    else s
  | none => s

/-! ## Fallbacks (R219-R222) -/

/-- The fallback action of an entry: 0 SKIP, 1 SUBSTITUTE, 2 WAIT; an entry of the HUB tier has none. -/
def Plan.fallbackOf (p : Plan) (b : Blk) : Option Fallb := if b.tier = 0 then none else p.fallbacks[b.fallback]?

/-- Bytes that an entry lands as: a KV entry lands as lines. -/
def FRun.landLen (r : FRun) (e : FEntry) : Nat := if r.kv = 1 then 68 * e.ntok else if r.kv = 2 then 8704 else e.blk.length

/-- The address of the substitute of an entry, where its fallback's action is SUBSTITUTE (R219). -/
def Plan.substitute (p : Plan) (e : FEntry) : Option Nat :=
  match p.fallbackOf e.blk with
  | some f => if f.action = 1 then (p.symbols[f.subSym]?).map (fun y => y.ident.toNat + f.subOffset) else none
  | none => none

/-- What lands in place of an entry, counted: the substitute's bytes, or none where there is no substitute or it cannot be read: a SKIP
(R220-R222). -/
def fallbackData (h : Nat) (sub : Option Nat) (n : Nat) (s : State) : Option Bytes × State :=
  match sub with
  | none => (none, count (planCnt h 2) s)
  | some dva =>
    let r := planFetch dva n none s
    match r.1 with
    | .ok b _ => (some b, count (planCnt h 3) r.2)
    | .error => (none, count (planCnt h 2) r.2)

/-- An entry takes its fallback: SKIP, or SUBSTITUTE where that is its action (R219-R222). -/
def takeFallback (h sc a idx i : Nat) (s : State) : State :=
  match s.plan h, s.run a idx with
  | some p, some r => match r.entries[i]? with
    | some e =>
      let n := r.landLen e
      let d := fallbackData h (p.plan.substitute e) n s
      let s := if r.kv = 0 then flagAll h sc tierFallback d.2 else flagRow h sc r.row kvFallback d.2
      let s := if 0 < e.sent then updArr a (fun x => { x with late := x.late ++ [(h, idx, i)] }) s else s
      let data := if d.1.isNone then [] else (List.replicate (64 * e.ntok) (0 : Byte)) ++ (List.replicate e.ntok [(0x80 : Byte), 0x3F]).flatten
      settleRun a h idx (updRun a idx (fun r => r.setEntry i (fun e => { e with
        st := .fellBack, lands := d.1.getD (List.replicate n 0), skipped := d.1.isNone, data := data, marks := 0 })) (endXfer a true idx i s))
    | none => s
  | _, _ => s

/-! ## Issue of the fetch words -/

/-- A fetch word issues: its run begins, and the engine goes on (R198, R202). -/
def beginRun (a h : Nat) (r : FRun) (s : State) : State :=
  settleRun a h r.index (advance (.fetch a) (updArr a (fun x => { x with runs := x.runs ++ [r] }) s))

/-- The entries of a run of block-list entries. -/
def Plan.runEntries (p : Plan) (first n : Nat) : List FEntry :=
  ((p.blocks.drop first).take n).map (fun b => FEntry.fresh b (p.symDva b.sym + b.offset) 0 0)

/-- FETCH_LIST (R202, R238, R239). -/
def execFetchList (w : WordCopy) (s : State) : Host.Outcome State Fault Refusal :=
  .next (withCopy w.array w.ue 0x10 (fun x s =>
    let port := decide (wf x.w 38 37 = 1)
    beginRun w.array x.h { index := x.idx, word := x.w, kv := 0, row := 0, dests := [w.array], toPort := port,
                           off := if port then wf x.w 55 39 * 32 else wf x.w 54 39 * 64, rep := 2 ^ wf x.w 59 56, lines := 0, done := 0,
                           entries := x.p.plan.runEntries (wf x.w 20 0) (wf x.w 36 21), since := s.tbu.now } s) s)

/-- MULTICAST (R203, R240). -/
def execMulticast (w : WordCopy) (s : State) : Host.Outcome State Fault Refusal :=
  .next (withCopy w.array w.ue 0x11 (fun x s =>
    let m := u (s.storeRd w.array (wf x.w 75 60 * 64) 8) 0 8
    beginRun w.array x.h { index := x.idx, word := x.w, kv := 0, row := 0, dests := (List.range 64).filter (bit m), toPort := false,
                           off := wf x.w 54 39 * 64, rep := 1, lines := 0, done := 0,
                           entries := x.p.plan.runEntries (wf x.w 20 0) (wf x.w 36 21), since := s.tbu.now } s) s)

/-- R298: the tokens written of a stream's KV set: those below its position and those appended in the step. -/
def Stream.written (st : Stream) (sym : Nat) : Nat := st.pos + mgetD st.appended sym 0

/-- R242: the tier of a run of an object as its pages are placed: that of its first page outside hub SRAM and the stores. -/
def Obj.tierAt (o : Obj) (off n : Nat) : Nat :=
  let ps := (o.pages.drop (off / pageBytes)).take ((off + n - 1) / pageBytes + 1 - off / pageBytes)
  (ps.findSome? (fun g => match g with | .board _ => some 1 | .neigh _ _ => some 2 | .dropped => some 2 | _ => none)).getD 0

/-- R242, R297, R298: the entries of a KV fetch: one per block that holds written tokens, with tier and address from the object's
placement and the rest from the template. -/
def kvEntries (o : Obj) (tmpl : Blk) (head part total : Nat) : List FEntry :=
  (List.range (cdiv total 128)).map (fun i =>
    let n := min 128 (total - 128 * i)
    let off := i * o.kvH * 17152 + head * 17152 + if part = 0 then 0 else 8704
    let len := if part = 0 then 68 * n else 66 * n
    FEntry.fresh { tmpl with tier := o.tierAt off (if part = 0 then len else 8192 + 2 * n), length := len } (o.dva + off) (128 * i) n)

/-- KV_FETCH (R241, R242, R298). -/
def execKvFetch (w : WordCopy) (s : State) : Host.Outcome State Fault Refusal :=
  .next (withCopy w.array w.ue 0x12 (fun x s =>
    let part := wf x.w 28 28
    let run (es : List FEntry) : FRun :=
      { index := x.idx, word := x.w, kv := part + 1, row := wf x.w 7 0, dests := [w.array], toPort := true, off := wf x.w 67 51 * 32,
        rep := 2 ^ wf x.w 71 68, lines := 0, done := 0, entries := es, since := s.tbu.now }
    match s.rowStream x.h x.sc (wf x.w 7 0) with
    | none => beginRun w.array x.h (run []) s
    | some i => match mget s.models.streams i, x.p.plan.blocks[wf x.w 50 30]? with
      | some st, some tmpl => match (mget st.kv (wf x.w 27 8)).bind s.obj with
        | some o =>
          if o.kvH ≤ wf x.w 79 72 then engineFault x.h w.array x.idx s
          else beginRun w.array x.h (run (kvEntries o tmpl (wf x.w 79 72) part (min (st.written (wf x.w 27 8)) o.kvC))) s
        | none => beginRun w.array x.h (run []) s
      | _, _ => beginRun w.array x.h (run []) s) s)

/-! ## Requests, arrivals, fallbacks -/

/-- Where byte `off` of an entry's data lies: a value entry takes its scales from the block's last part (R297, R298). -/
def FRun.addr (r : FRun) (e : FEntry) (off : Nat) : Nat :=
  if r.kv = 2 && !e.blk.coded && decide (64 * e.ntok ≤ off) then e.dva + 8192 + (off - 64 * e.ntok) else e.dva + off

/-- The next run of an entry's data: where it begins and ends; a coded entry follows its blocks (R283). -/
def FRun.nextRun (r : FRun) (e : FEntry) : Option (Nat × Nat) :=
  if e.blk.coded then codedNext (e.dva % 64) e.blk.length e.data (e.blk.length / 64 + 2) 0
  else if e.blk.length ≤ e.sent then none
  else some (e.sent, if r.kv = 2 && decide (e.sent < 64 * e.ntok) then 64 * e.ntok else e.blk.length)

/-- An entry's next request, offset and length: at most 256 bytes, within one page (R200, R295). -/
def FRun.request (r : FRun) (e : FEntry) : Option (Nat × Nat) :=
  (r.nextRun e).map (fun x => (x.1, min (min 256 (x.2 - x.1)) (pageBytes - r.addr e x.1 % pageBytes)))

/-- An entry that a request has read `b` for, at an offset; once nothing is left to request it only waits for its data. -/
def FRun.took (r : FRun) (e : FEntry) (off : Nat) (b : Bytes) (tainted : Bool) (fl : Half) : FEntry :=
  let e := { e with sent := off + b.length, data := e.data ++ List.replicate (off - e.data.length) 0 ++ b,
                    tainted := e.tainted || tainted, marks := e.marks ||| fl }
  { e with st := if (r.nextRun e).isNone then .issued else .queued }

/-- R284: the first request of a coded entry starts its read in the codec. -/
def startRead (a run entry : Nat) (e : FEntry) (s : State) : State :=
  if e.blk.coded && decide (e.sent = 0) then
    addXfer { array := a, fetch := true, index := run, entry := entry, inst := s.boardInst, bytes := e.blk.length, tab := e.blk.table % 1024,
              holds := true, build := false, table := none } s
  else s

/-- The block-list entry that an entry of a run comes from: a KV entry's is its template (R242). -/
def FRun.listIndex (r : FRun) (i : Nat) : Nat := if r.kv = 0 then wf r.word 20 0 + i else wf r.word 50 30

/-- BUCKET_REQUEST_ISSUE (R200, R259, R295): after `waitedUs` the next request of an entry issues, once its class's bucket holds its
length. The time from when the request was next until then counts in `reg_wait_us` (R230). -/
def execBucketRequestIssue (a : Nat) (run entry : Nat) (waitedUs : Nat) (s : State) : Host.Outcome State Fault Refusal :=
  .next (match s.holder a, s.run a run with
    | some (h, sc, p), some r => match r.entries[entry]? with
      | some e => match r.request e with
        | none => s
        | some (off, n) =>
        let ahead := (r.entries.take entry).all (fun x => decide (x.st ≠ .queued))
        if e.st ≠ .queued || !ahead then s
        else
          let s := reachTime (s.tbu.now + 1000 * waitedUs) s
          let at_ := r.addr e off
          let cls := (s.tierOf at_).getD e.blk.tier
          let d := (p.plan.reg a cls).2
          let have_ := (s.arr a).tokensAt cls d s.tbu.now
          let s := countWait h (max r.since (mgetD (s.arr a).filled cls 0)) (min s.tbu.now ((s.arr a).fullAt cls (n * 1000))) s
          if have_ < n * 1000 then s
          else
            let s := refill a cls d s
            let s := updArr a (fun x => { x with tokens := mset x.tokens cls (have_ - n * 1000) }) s
            let s := updRun a run (fun r => { r with since := s.tbu.now }) (startRead a run entry e s)
            let s := if decide (e.blk.tier = 0) && decide (cls ≠ 0) && !(match s.stepOf h sc with | some k => k.offRec | none => true) then
                record .ce 0x0303 { detail := detEngine a (r.listIndex entry) h, planId := p.plan.planId }
                  (updStep h sc (fun k => { k with offRec := true }) s)
              else s
            match planFetch at_ n (p.plan.symSlot e.blk.sym) s with
            | (.error, s) => takeFallback h sc a run entry (updRun a run (fun r => r.setEntry entry (fun e => { e with sent := off + n })) s)
            | (.ok b t, s) => updRun a run (fun r => r.setEntry entry (fun e => r.took e off b t (s.marksOf at_ n))) s
      | none => s
    | _, _ => s)

/-- The moment t_k + d at which an entry takes its fallback (R221). -/
def State.deadlineOf (s : State) (h sc : Nat) (e : FEntry) : Nat :=
  match s.stepOf h sc with | some x => x.nominal + e.blk.deadline | none => 0

/-- Is an entry's action WAIT, so that its deadline does not apply (R219)? -/
def Plan.waits (p : Plan) (e : FEntry) : Bool := match p.fallbackOf e.blk with | some f => decide (f.action = 2) | none => false

/-- FETCH_ENTRY_ARRIVAL (R221, R239, R287): an entry's data has wholly arrived; it lands in list order. One whose deadline
has passed takes its fallback, and its data is dropped and counted in `fb_late_drop`. -/
def execFetchEntryArrival (a : Nat) (run entry : Nat) (t : Nat) (s : State) : Host.Outcome State Fault Refusal :=
  .next (
    let s := reachTime t s
    match s.holder a, s.run a run with
    | some (h, sc, p), some r => match r.entries[entry]? with
      | some e =>
        if e.st ≠ .issued then s
        else
          let past := decide (s.deadlineOf h sc e < s.tbu.now) && decide (e.blk.tier ≠ 0)
          let waits := p.plan.waits e
          if past && !waits then
            count (planCnt h 5) (updArr a (fun x => { x with late := x.late.erase (h, run, entry) }) (takeFallback h sc a run entry s))
          else
            let s := if past then count (planCnt h 4) s else s
            let inst := match s.xfer a true run entry with | some x => x.inst | none => 0
            let (data, s) := if e.blk.coded then expandEntry e.blk.table (e.dva % 64) inst e.data s else (some e.data, s)
            match data with
            | none => takeFallback h sc a run entry s
            | some b =>
              let lands := if r.kv = 2 then valueLines e.ntok (b.take (64 * e.ntok)) else b
              let s := if e.tainted then flagAll h sc tierFallback s else s
              let s := if !r.toPort then s else if r.kv = 0 then flagAll h sc e.marks s else flagRow h sc r.row e.marks s
              settleRun a h run (updRun a run (fun r => r.setEntry entry (fun e => { e with st := .arrived, data := b, lands := lands }))
                (endXfer a true run entry s))
      | none => s
    | _, _ => s)

/-- FETCH_ENTRY_ERROR (R221): an entry that meets an uncorrectable tier error takes its fallback at once, a WAIT entry SKIP. -/
def execFetchEntryError (a : Nat) (run entry : Nat) (s : State) : Host.Outcome State Fault Refusal :=
  .next (match s.holder a, s.run a run with
    | some (h, sc, _), some r => match r.entries[entry]? with
      | some e => if (e.st = .queued && decide (0 < e.sent)) || e.st = .issued then takeFallback h sc a run entry s else s
      | none => s
    | _, _ => s)

/-- FALLBACK_DEADLINE (R221): at t_k + d an entry that has not arrived takes its fallback, unless its action is WAIT. -/
def execFallbackDeadline (a : Nat) (run entry : Nat) (t : Nat) (s : State) : Host.Outcome State Fault Refusal :=
  .next (
    let s := reachTime t s
    match s.holder a, s.run a run with
    | some (h, sc, p), some r => match r.entries[entry]? with
      | some e =>
        if (e.st = .queued || e.st = .issued) && decide (e.blk.tier ≠ 0) && !p.plan.waits e && decide (s.deadlineOf h sc e ≤ s.tbu.now)
        then takeFallback h sc a run entry s else s
      | none => s
    | _, _ => s)

/-- LATE_ENTRY_DROP (R221): data that arrives after its entry's fallback is discarded and counted. -/
def execLateEntryDrop (a : Nat) (run entry : Nat) (s : State) : Host.Outcome State Fault Refusal :=
  .next (match (s.arr a).late.find? (fun x => decide (x.2.1 = run) && decide (x.2.2 = entry)) with
    | some x => count (planCnt x.1 5) (updArr a (fun r => { r with late := r.late.erase x }) s)
    | none => s)

end Sys2Proof.Machine
end

