-- ==== Sys2Proof/Machine/Sweep.lean ====
section
/-! DEFINITION. Sys2Proof/Machine/Sweep.lean: the cells' arithmetic: SWEEP, VEIN_SWEEP and TRANSPOSE_SWEEP
(R36-R61, R108-R123, R129, R135, R140, R156, R245, R246, R533). -/

namespace Sys2Proof.Machine

/-! ## What a sweep gathers -/

/-- A sweep's results so far: entries, the reasons they carry, kept row scales, the segment scale each index still waits to
be folded under, and the format events counted. -/
structure SwSt where
  acc   : NMap Word
  pend  : NMap Half
  scale : NMap Half
  open_ : NMap Half
  nan   : Nat
  bad   : Nat
  t2    : Nat
  clip  : Nat
  sat   : Nat

/-- One activation row of a row group as a sweep sees it. -/
structure ActRow where
  codes : Bytes
  recs  : List SegRec
  /-- used as zeros: its records break R120 or R246 -/
  bad   : Bool
  /-- reasons that its bytes carry -/
  flags : Half

/-- An accumulator entry, +0 if nothing was written, a free value if a halt left it undefined (R120, R224). -/
def accAt (m : NMap Word) (und : Option Nat) (key : Nat) : Word :=
  match mget m key with
  | some w => w
  | none => match und with
    | some n => Config.freeEntry n key
    | none => 0

/-- An entry's key: cell and index. -/
def accKey (c e : Nat) : Nat := c * 512 + e

/-- An exact product added into an entry, with one rounding (R59, R109). -/
def SwSt.add (st : SwSt) (und : Option Nat) (key : Nat) (p : Dy) (fl : Half) : SwSt :=
  let r := accAdd (accAt st.acc und key) p
  { st with acc := mset st.acc key r.1, pend := mset st.pend key (mgetD st.pend key 0 ||| fl), sat := st.sat + if r.2 then 1 else 0 }

/-- The integer of a weight code (R38, R41, R44). -/
def weightInt (elem c : Nat) : Int :=
  match elem with
  | 0 => int4Val c
  | 1 => f4Val2 c
  | 2 => w2Val c
  | _ => t2Val c

/-- The integer sum of one array cycle: `n` weights from element `w0` of the line, activations from element `a0` (R108, R109). -/
def blockSum (elem : Nat) (f4 : Bool) (line codes : Bytes) (w0 a0 n : Nat) : Int :=
  let wb := if elem ≤ 1 then 4 else 2
  (List.range n).foldl (fun acc j => acc + weightInt elem (codeAt wb line (w0 + j)) * act4 f4 (codeAt 4 codes (a0 + j))) 0

/-- How many reserved T2 codes a group holds (R44, R45). -/
def t2Count (elem : Nat) (line : Bytes) (w0 n : Nat) : Nat :=
  if elem = 3 then ((List.range n).filter (fun j => decide (codeAt 2 line (w0 + j) = 2))).length else 0

/-- The multiplier's power of two for F4 operands (R43, R108). -/
def f4Shift (elem : Nat) (f4 : Bool) : Int := -((if elem = 1 then 1 else 0) + (if f4 then 1 else 0))

/-- R53, R120, R246: is a row used as zeros for its records? `nb` blocks are consumed. In N2 the blocks 2g and 2g + 1 of a row, counted
from 0, share scale group g (R108), so a segment that ends on an even `end_blk` ends inside a group and is misplaced: DEDUCED
(log 86), as R120 names an odd block and an even boundary. -/
def rowBad (plain n2 : Bool) (nb : Nat) (l : List SegRec) : Bool :=
  let last := (l.map (·.last)).getLastD 0
  !segRecsOk l || decide (last + 1 < nb) || (plain && l.any (fun r => decide (r.last + 1 < nb))) ||
  (n2 && l.any (fun r => decide (r.last % 2 = 0) && decide (r.last < nb) && decide (r.last ≠ last)))

/-- The fold of an index: total + partial x s_seg x s_w, rounded once; the partial becomes +0 (R121). A zero partial keeps its sign
through the positive scales, so that -0 folded into -0 leaves -0 (R61). -/
def SwSt.fold (st : SwSt) (und : Option Nat) (key : Nat) (seg : Half) (sw : Dy) : SwSt :=
  let part := accAt st.acc und key
  let total := accAt st.acc und (key + 256)
  let r := accRes (fSign total && fSign part) ((fVal total).add (((fVal part).mul (bVal seg)).mul sw))
  { st with acc := mset (mset st.acc (key + 256) r.1) key 0, open_ := mdel st.open_ key, sat := st.sat + (if r.2 then 1 else 0),
            pend := mset st.pend (key + 256) (mgetD st.pend (key + 256) 0 ||| mgetD st.pend key 0) }

/-- The row scale a cell keeps for an output row (R119); 1.0 where its lines carry block scales. -/
def SwSt.sw (st : SwSt) (d : Desc) (c i : Nat) : Dy :=
  if d.scale = 2 then bVal (mgetD st.scale (accKey c (d.accBase + i * d.groups)) 0x3F80) else dy 1

/-- What one scale group or block does to the entry of one batch row. The block scale is read in the descriptor's `scale_fmt`, also
where that is not the format its model was created with: DESIGN CHOICE (log 87), as R37 names no check of it. -/
def applyGroup (und : Option Nat) (d : Desc) (f4 : Bool) (c i ch b q : Nat) (line : Bytes) (zeroW : Bool) (fl : Half)
    (r : ActRow) (st : SwSt) : SwSt :=
  let n := if d.n2 then 64 else 32
  let blk := if d.n2 then ch * 8 + 2 * q else ch * 4 + q
  let endBlk := if d.n2 then blk + 1 else blk
  let key := accKey c (d.accBase + i * d.groups + b)
  let seg := segOf r.recs blk
  let segBad := match seg with | some x => !validScale x.scale | none => true
  let sc := if d.scale = 2 then some (dy 1) else blockScale (decide (d.scale = 1)) (line.getD (64 + q) 0)
  let zero := r.bad || segBad || zeroW
  let sum := if zero then 0 else blockSum d.elem f4 line r.codes (n * q) (blk * 32) n
  let p := match sc with
    | some x => (x.mul ⟨sum, f4Shift d.elem f4⟩)
    | none => dy 0
  let fl := fl ||| r.flags ||| (if r.bad || segBad || sc.isNone then scaleNan else 0)
  let st := st.add und key p fl
  let st := { st with nan := st.nan + (if sc.isNone then 1 else 0), t2 := st.t2 + t2Count d.elem line (n * q) n }
  if !d.scaled then st
  else match seg with
    | some x =>
      let good := if segBad || r.bad then 0x3F80 else x.scale
      if x.last = endBlk then st.fold und key good (st.sw d c i) else { st with open_ := mset st.open_ key good }
    | none => { st with open_ := mset st.open_ key 0x3F80 }

/-- One line applied in one cell to every row of the row group (R109, R115). -/
def applyLine (und : Option Nat) (d : Desc) (f4 : Bool) (rows : List ActRow) (c m l : Nat) (line : Bytes) (fl : Half) (st : SwSt) : SwSt :=
  let i := d.rowOf l
  let ch := d.chunkOf m l
  let sw := BitVec.ofNat 16 (u line 64 2)
  let badW := decide (d.scale = 2) && !validScale sw
  let st := if d.scale = 2 then
      { st with scale := mset st.scale (accKey c (d.accBase + i * d.groups)) (if badW then 0x3F80 else sw), bad := st.bad + if badW then 1 else 0 }
    else st
  let fl := fl ||| (if badW then scaleNan else 0)
  ((List.range rows.length).zip rows).foldl
    (fun st x => (List.range 4).foldl (fun st q => applyGroup und d f4 c i ch x.1 q line badW fl x.2 st) st) st

/-- The scaled sum of a Vein line and row: with a row scale over all 64 codes; with block scales, which a stream-port line may
have (R245), 32 codes under each of the scales in bytes 64 and 65: DEDUCED (log 96). `none` is a NaN block scale. -/
def veinSum (d : Desc) (codes line : Bytes) (q : Nat) : Option Dy :=
  let sum (j0 n : Nat) : Int := (List.range n).foldl (fun acc j =>
    acc + int8Val (codes.getD (j0 + j) 0).toNat * int8Val (line.getD (j0 + j) 0).toNat) (0 : Int)
  if d.scale = 2 then (if q = 0 then some ((dy (sum 0 64)).mul (bVal (BitVec.ofNat 16 (u line 64 2)))) else some (dy 0))
  else (blockScale (decide (d.scale = 1)) (line.getD (64 + q) 0)).map (fun x => x.mul (dy (sum (32 * q) 32)))

/-- One Vein line applied in one cell to every Vein row, with one rounding for each (R54, R110). -/
def applyVein (und : Option Nat) (d : Desc) (rows : List ActRow) (c l : Nat) (line : Bytes) (fl : Half) (st : SwSt) : SwSt :=
  let i := d.rowOf l
  let badW := decide (d.scale = 2) && !validScale (BitVec.ofNat 16 (u line 64 2))
  let st := { st with bad := st.bad + if badW then 1 else 0 }
  ((List.range rows.length).zip rows).foldl
    (fun st x =>
      let r := x.2
      let sa := BitVec.ofNat 16 (u r.codes 64 2)
      let sums := [veinSum d r.codes line 0, veinSum d r.codes line 1]
      let nans := sums.countP (·.isNone)
      let clips := ((List.range 64).filter (fun j => decide (r.codes.getD j 0 = 0x80))).length + ((List.range 64).filter (fun j => decide (line.getD j 0 = 0x80))).length
      let p := if r.bad || badW then dy 0 else (sums.foldl (fun t y => t.add (y.getD (dy 0))) (dy 0)).mul (bVal sa)
      let st := { st with clip := st.clip + clips, nan := st.nan + nans }
      st.add und (accKey c (d.accBase + i * d.groups + x.1) + 256) p (fl ||| r.flags ||| (if r.bad || badW || decide (nans ≠ 0) then scaleNan else 0))) st

/-- A gradient value: an F4 code and its UE8M0 block scale (R135); `none` for a NaN scale. -/
def gradAt (codes scales : Bytes) (j : Nat) : Option Dy :=
  (ue8m0 (scales.getD (j / 32) 0)).map (fun s => s.mul ⟨f4Val2 (codeAt 4 codes j), -1⟩)

/-- Weights of a line (R46). -/
def Desc.perLine (d : Desc) : Nat := if d.elem = 4 then 64 else if d.n2 then 256 else 128

/-- Does a column lie in a window? -/
def inWindow (w0 wn col : Nat) : Bool := decide (w0 ≤ col) && decide (col < w0 + wn)

/-- One weight of a line times a gradient value, added into the entry of its column (R135). -/
def transposeAdd (und : Option Nat) (d : Desc) (w0 c b : Nat) (line : Bytes) (ch j : Nat) (p : Option Dy) (fl : Half) (st : SwSt) : SwSt :=
  let w : Int := if d.elem = 4 then int8Val (line.getD j 0).toNat else weightInt d.elem (codeAt (if d.elem ≤ 1 then 4 else 2) line j)
  let x := match p with | some v => v.mul ⟨w, if d.elem = 1 then -1 else 0⟩ | none => dy 0
  let rsv := decide (d.elem = 3) && decide (codeAt 2 line j = 2)
  let clip := decide (d.elem = 4) && decide (line.getD j 0 = 0x80)
  let st := { st with t2 := st.t2 + (if rsv then 1 else 0), clip := st.clip + (if clip then 1 else 0) }
  st.add und (accKey c (d.accBase + (ch * d.perLine + j - w0) * d.groups + b)) x fl

/-- One line applied in transpose mode in one cell (R135). Rows hold gradient codes; `scales` their scale bytes. A NaN block scale
counts once for each use of its scale group, the line's with one row or the gradient block's with one line (R51; log 88). -/
def applyTranspose (und : Option Nat) (d : Desc) (w0 wn : Nat) (rows : List (ActRow × Bytes)) (c rank l : Nat) (line : Bytes) (fl : Half)
    (st : SwSt) : SwSt :=
  let ch := d.chunkOf (rank % d.k) l
  let oc := d.outBase + d.rowOf l * d.holders + rank / d.k
  let sw := BitVec.ofNat 16 (u line 64 2)
  let rowScaled := decide (d.scale = 2)
  let badW := rowScaled && !validScale sw
  let size := if rowScaled then d.perLine else if d.n2 then 64 else 32
  let cols (g : Nat) : List Nat := ((List.range size).map (· + g * size)).filter (fun j => inWindow w0 wn (ch * d.perLine + j))
  let groups := (List.range (d.perLine / size)).filter (fun g => !(cols g).isEmpty)
  if groups.isEmpty then st
  else ((List.range rows.length).zip rows).foldl (fun st x =>
    let gv := gradAt x.2.1.codes x.2.2 oc
    groups.foldl (fun st g =>
      let mult := if rowScaled then some (if badW then dy 0 else bVal sw) else blockScale (decide (d.scale = 1)) (line.getD (64 + g) 0)
      let p := match mult, gv with | some m, some v => some (m.mul v) | _, _ => none
      let fl := fl ||| x.2.1.flags ||| (if p.isNone || badW then scaleNan else 0)
      (cols g).foldl (fun st j => transposeAdd und d w0 c x.1 line ch j p fl st) { st with nan := st.nan + (if mult.isNone then 1 else 0) })
      { st with nan := st.nan + (if gv.isNone then 1 else 0) }) { st with bad := st.bad + if badW then 1 else 0 }

/-! ## The operands of a sweep word -/

/-- The descriptor a word names, as the store holds it. -/
def State.descOf (s : State) (a off : Nat) : Desc := parseDesc (s.storeRd a off 32)
/-- Participating cells by rank. -/
def State.cellsOf (s : State) (a : Nat) (d : Desc) : List Nat := maskCells (s.storeRd a d.maskOff 128)
/-- A sweep word's descriptor offset in bytes. -/
def wDesc (w : QWord) : Nat := wf w 16 0 * 32

/-- The rows of the row group that a SWEEP or VEIN_SWEEP reads (R117, R246, R251). -/
def State.actRows (s : State) (a : Nat) (w : QWord) (d : Desc) : List ActRow :=
  let act := wf w 32 17 * 64
  let stride := wf w 48 33 * 64
  let segN := wf w 73 65 + 1
  let nb := if d.n2 then d.chunks * 8 else d.chunks * 4
  (List.range d.groups).map (fun b =>
    if wOp w = 0x21 then
      let codes := s.storeRd a (act + b * stride) 66
      { codes := codes, recs := [], bad := !validScale (BitVec.ofNat 16 (u codes 64 2)), flags := s.taintOf (storeDva a (act + b * stride)) 66 }
    else
      let n := d.chunks * d.chunkBytes
      let soff := wf w 64 49 * 64 + b * units (4 * segN)
      let recs := segRecs (s.storeRd a soff (4 * segN)) segN
      { codes := s.storeRd a (act + b * stride) n, recs := recs, bad := rowBad (!d.scaled) d.n2 nb recs,
        flags := s.taintOf (storeDva a (act + b * stride)) n ||| s.taintOf (storeDva a soff) (4 * segN) })

/-- The gradient rows of a TRANSPOSE_SWEEP with their scale bytes (R244-R246). -/
def State.gradRows (s : State) (a : Nat) (w : QWord) (d : Desc) : List (ActRow × Bytes) :=
  let act := wf w 32 17 * 64
  let stride := wf w 48 33 * 64
  let nb := cdiv (d.outBase + d.cols) 32
  (List.range d.groups).map (fun b =>
    let soff := wf w 64 49 * 64 + b * (cdiv (wf w 48 33) 16 * 64)
    ({ codes := s.storeRd a (act + b * stride) (nb * 16), recs := [], bad := false,
       flags := s.taintOf (storeDva a (act + b * stride)) (nb * 16) ||| s.taintOf (storeDva a soff) nb },
     s.storeRd a soff nb))

/-- Invalid row scales and segment records of a row group, counted once for each row or segment (R53). -/
def badRows (rows : List ActRow) : Nat :=
  (rows.map (fun r => if r.bad then 1 else (r.recs.filter (fun x => !validScale x.scale)).length)).sum

/-- What a cell's latch receives for line L of a Slate sweep, with the reason it brings (R156, R533). -/
def State.latchLine (s : State) (a c : Nat) (d : Desc) (l : Nat) : Bytes × Half :=
  let p := d.place l
  match s.delivered a c p.1 (p.2 / 256) (p.2 % 256) with
  | .line b => (b, 0)
  | _ => (substitute (decide (d.scale = 2)), weightLost)

/-- The lines of a stream-port sweep that a cell of a rank receives, in order (R239). -/
def portLinesOf (nPart rank : Nat) (l : List PortLine) : List PortLine :=
  l.filter (fun x => decide ((rank + nPart - x.index * x.rep % nPart) % nPart < x.rep))

/-- A line that a stream-port sweep applies: an absent one adds nothing (R219, R220). -/
def portData (x : PortLine) : Bytes := if x.absent then substitute true else x.data

/-- The lines that a Slate sweep reads, by sequence number: those of a TRANSPOSE_SWEEP hold chunks of its window (R135). -/
def sweepLines (w : QWord) (d : Desc) : List Nat :=
  if wOp w = 0x22 then
    let w0 := wf w 87 76 * 32
    let wn := (wf w 95 88 + 1) * 32
    (List.range d.lines).filter (fun l => (List.range d.k).any (fun m =>
      let c0 := d.chunkOf m l * d.perLine
      decide (c0 < w0 + wn) && decide (w0 < c0 + d.perLine)))
  else List.range d.lines

/-- The entries a sweep word uses in one cell, as runs of indices (R120, R135). -/
def sweepEntries (w : QWord) (d : Desc) : List (Nat × Nat) :=
  if wOp w = 0x22 then [(d.accBase, (wf w 95 88 + 1) * 32 * d.groups)]
  else if wOp w = 0x21 then [(d.accBase + 256, d.rows * d.groups)]
  else if d.scaled then [(d.accBase, d.rows * d.groups), (d.accBase + 256, d.rows * d.groups)]
  else [(d.accBase, d.rows * d.groups)]

/-- The keys of those entries over cells. -/
def sweepKeys (w : QWord) (d : Desc) (cells : List Nat) : List Nat :=
  cells.flatMap (fun c => (sweepEntries w d).flatMap (fun r => (List.range r.2).map (fun i => accKey c (r.1 + i))))

/-! ## Running a sweep, line by line -/

/-- R121: indices whose last block did not end a segment are folded at the sweep's end. -/
def SwSt.close (st : SwSt) (und : Option Nat) (d : Desc) : SwSt :=
  st.open_.foldl (fun st x => st.fold und x.1 x.2 (st.sw d (x.1 / 512) ((x.1 % 512 - d.accBase) / d.groups))) { st with open_ := [] }

/-- Does a sweep take its lines from the stream port (R118)? -/
def wPort (w : QWord) : Bool := decide (wf w 74 74 = 1)

/-- The participating cells in service, with their ranks (R113, R140). -/
def State.rankedCells (s : State) (a : Nat) (d : Desc) : List (Nat × Nat) :=
  let cells := s.cellsOf a d
  ((List.range cells.length).zip cells).filter (fun x => !decide (x.2 ∈ (s.arr a).excl))

/-- The arithmetic of a sweep word over the lines that its cells apply together: `pick` gives a rank's and cell's line, with its
sequence number and reasons (R108-R123, R135, R140). -/
def State.applyLines (s : State) (a : Nat) (i : InProg) (pick : Nat → Nat → Option (Nat × Bytes × Half)) : SwSt :=
  let w := i.word
  let d := s.descOf a (wDesc w)
  let r := s.arr a
  let rows := if wOp w = 0x22 then [] else s.actRows a w d
  let grads := if wOp w = 0x22 then s.gradRows a w d else []
  let st0 : SwSt := { acc := r.acc, pend := r.pend, scale := r.rowScale, open_ := i.open_, nan := 0, bad := 0, t2 := 0, clip := 0, sat := 0 }
  (s.rankedCells a d).foldl (fun st x =>
    match pick x.1 x.2 with
    | none => st
    | some y => match wOp w with
      | 0x21 => applyVein r.accUndef d rows x.2 y.1 y.2.1 y.2.2 st
      | 0x22 => applyTranspose r.accUndef d (wf w 87 76 * 32) ((wf w 95 88 + 1) * 32) grads x.2 x.1 y.1 y.2.1 y.2.2 st
      | _ => applyLine r.accUndef d (decide (wf w 75 75 = 1)) rows x.2 (x.1 % d.k) y.1 y.2.1 y.2.2 st) st0

/-- R67-R69: a sweep's format events are counted and its sticky bits set. -/
def countFmt (a : Nat) (st : SwSt) (s : State) : State :=
  let s := countBy (fmtCnt a 0) st.nan (countBy (fmtCnt a 1) st.bad (countBy (fmtCnt a 2) st.t2 (countBy (fmtCnt a 3) st.clip (countBy (fmtCnt a 4) st.sat s))))
  stick (decide (st.nan + st.bad ≠ 0)) 0 (stick (decide (st.sat ≠ 0)) 2 (stick (decide (st.t2 ≠ 0)) 3 (stick (decide (st.clip ≠ 0)) 4 s)))

/-- R141: array cycles of a wait whose length the spec does not fix; a free count (log 34). -/
def waitCycles (a : Nat) (s : State) : State := let p := drawWord s; countBy (cellCnt a 3) p.1.toNat p.2

/-- A change of a word in progress of an array. -/
def updProg (a idx : Nat) (f : InProg → InProg) (s : State) : State :=
  updArr a (fun r => { r with prog := r.prog.map (fun x => if x.index = idx then f x else x) }) s

/-- What one line or round of a sweep leaves in the array; a sweep's last one also folds what is still open (R121). -/
def putSweep (a : Nat) (i : InProg) (l : Nat) (last : Bool) (st : SwSt) (s : State) : State :=
  let d := s.descOf a (wDesc i.word)
  let st := if last && decide (wOp i.word = 0x20) && d.scaled then st.close (s.arr a).accUndef d else st
  countFmt a st (updProg a i.index (fun x => { x with order := x.order ++ [l], open_ := st.open_ })
    (updArr a (fun r => { r with acc := st.acc, pend := st.pend, rowScale := st.scale }) s))

/-- Is a word one of the three sweeps? -/
def isSweep (w : QWord) : Bool := decide (wOp w ∈ [0x20, 0x21, 0x22])

/-- Has a Slate sweep applied every line it reads? -/
def State.sweepApplied (s : State) (a : Nat) (i : InProg) : Bool :=
  !wPort i.word && decide ((sweepLines i.word (s.descOf a (wDesc i.word))).length ≤ i.order.length)

/-- The earliest sweep of an array that has lines still to apply: lines are applied sweep by sweep (R115, R129). -/
def State.applying (s : State) (a : Nat) : Option InProg := (s.arr a).prog.find? (fun i => isSweep i.word && !s.sweepApplied a i)

/-- R139: a cell is excluded at run time: it leaves service at the array's next step barrier. -/
def excludeCell (a c : Nat) (s : State) : State :=
  let r := s.arr a
  if decide (c ∈ r.excl) || decide (c ∈ r.exclPend) then s
  else record .dg 0x0202 { detail := detCell a c 0xFFFF } (count (cellCnt a 2) (updArr a (fun r => { r with exclPend := r.exclPend ++ [c] }) s))

/-- What marks one step among all: its nominal start, plan and schedule (R139). -/
def State.stepMark (s : State) (h sc : Nat) : Nat :=
  match s.stepOf h sc with | some x => x.nominal * 512 + h * 16 + sc | none => 0

/-- The plan identifier of the step that holds an array. -/
def State.planIdAt (s : State) (a : Nat) : Dword := match s.holder a with | some (_, _, p) => p.plan.planId | none => 0

/-- R125, R139: an ECC condition met while one of the entries `runs` of the cells of a descriptor is read. -/
def eccHit (a : Nat) (d : Desc) (runs : List (Nat × Nat)) (hit : EccHit) (s : State) : State :=
  let read := decide (hit.cell ∈ s.cellsOf a d) && !decide (hit.cell ∈ (s.arr a).excl) &&
    runs.any (fun x => decide (x.1 ≤ hit.entry) && decide (hit.entry < x.1 + x.2))
  if !read then s
  else if !hit.double then count (cellCnt a 0) s
  else
    let key := accKey hit.cell hit.entry
    let s := updArr a (fun r => { r with acc := mset r.acc key 0, pend := mset r.pend key (mgetD r.pend key 0 ||| weightLost) }) s
    let s := record .ct 0x0201 { detail := detCell a hit.cell hit.entry, planId := s.planIdAt a } (count (cellCnt a 1) s)
    let mark := match s.holder a with | some (h, sc, _) => s.stepMark h sc | none => 0
    match mget (s.arr a).ueOnce hit.cell with
    | none => updArr a (fun r => { r with ueOnce := mset r.ueOnce hit.cell mark }) s
    | some m => if m = mark then s else excludeCell a hit.cell s

/-- R125: the errors that a sweep's reads of its entries meet before the line or round it applies next. -/
def sweepEcc (a : Nat) (i : InProg) (s : State) : State :=
  let d := s.descOf a (wDesc i.word)
  forEach (i.ecc.filter (fun e => decide (e.line = i.order.length))) (fun e s => eccHit a d (sweepEntries i.word d) e.hit s) s

/-! ## Lines from the Slate through the latch (R22, R23, R115, R116) -/

/-- Array cycles in which a line is applied to its rows: a quarter of a line per cycle and row in N4 and N2, an eighth in V8, four for
each 32-weight block of a window, and one for each fold (R108, R121, R135). -/
def State.lineCycles (s : State) (a : Nat) (w : QWord) (l : Nat) : Nat :=
  let d := s.descOf a (wDesc w)
  if wOp w = 0x21 then 8 * d.groups
  else if wOp w = 0x22 then
    4 * d.groups * ((List.range (d.perLine / 32)).filter (fun g => (List.range d.k).any (fun m =>
      inWindow (wf w 87 76 * 32) ((wf w 95 88 + 1) * 32) (d.chunkOf m l * d.perLine + 32 * g)))).length
  else
    let folds (m : Nat) : Nat := ((s.actRows a w d).map (fun r => ((List.range 4).filter (fun q =>
      r.recs.any (fun x => decide (x.last = if d.n2 then d.chunkOf m l * 8 + 2 * q + 1 else d.chunkOf m l * 4 + q)))).length)).sum
    4 * d.groups + if d.scaled then (List.range d.k).foldl (fun t m => max t (folds m)) 0 else 0

/-- When a line's first product begins, in a DPU that completes its last one at `idle`: at once behind another line, 8 cycles after
its arrival in an idle DPU (R22, R111). -/
def firstProduct (cycle idle comes : Nat) : Nat := if idle ≤ comes then comes + 8 * cycle else idle

/-- R533: a line that meets an unmapped block is recorded, once per array per step. -/
def recordUnmapped (a : Nat) (w : QWord) (l : Nat) (s : State) : State :=
  let p := (s.descOf a (wDesc w)).place l
  match if (s.arr a).recUnmapped then none
    else (s.rankedCells a (s.descOf a (wDesc w))).find? (fun x => decide (s.delivered a x.2 p.1 (p.2 / 256) (p.2 % 256) = .unmapped)) with
  | some x => record .ct 0x0102 { detail := detLine (lineAddrOf a x.2 p.1 (p.2 / 256) (p.2 % 256)) 0xFF p.1 0, planId := s.planIdAt a }
      (updArr a (fun r => { r with recUnmapped := true }) s)
  | none => s

/-- What a cell applies for a line: what its reconstruction gave, or what its read delivered. -/
def State.lineFor (s : State) (a c : Nat) (w : QWord) (e : SweepLine) : Bytes × Half :=
  match mget e.fixed c with
  | some b => (b, 0)
  | none => s.latchLine a c (s.descOf a (wDesc w)) e.seqL

/-- One line of a Slate sweep is applied in every cell. -/
def applySlateLine (a : Nat) (i : InProg) (e : SweepLine) (s : State) : State :=
  let s := sweepEcc a i (recordUnmapped a i.word e.seqL s)
  let n := (sweepLines i.word (s.descOf a (wDesc i.word))).length
  putSweep a i e.seqL (decide (n ≤ i.order.length + 1)) (s.applyLines a i (fun _ c => let x := s.lineFor a c i.word e; some (e.seqL, x.1, x.2))) s

/-- R116, R141: array cycles in which the DPU idles for a reconstructed line, up to its first product. -/
def reconWait (a cycle idle first : Nat) (e : SweepLine) (s : State) : State :=
  if e.ends < e.comes then countBy (cellCnt a 3) ((first - max idle e.ends) / cycle) s else s

/-- The head of the latch is applied once every cell has it and the sweeps before its own have applied their lines. -/
def applyHead (a : Nat) (s : State) : State :=
  match (s.arr a).latch, s.applying a with
  | e :: _, some i =>
    if e.fin.isSome || !e.waits.isEmpty || decide (i.index ≠ e.idx) then s
    else
      let cycle := arrayCycle s.pwr.pstate
      let idle := (s.arr a).idleFrom
      let first := firstProduct cycle idle e.comes
      let fin := first + s.lineCycles a i.word e.seqL * cycle
      updArr a (fun r => { r with idleFrom := fin, latch := r.latch.map (fun x => if x = e then { x with fin := some fin } else x) })
        (reconWait a cycle idle first e (applySlateLine a i e s))
  | _, _ => s

/-- R116: the line applied leaves its position and the earliest one that waits in a read register enters the latch. -/
def freeHead (a : Nat) (s : State) : State :=
  updArr a (fun r =>
    match r.latch with
    | [] => r
    | _ :: rest => match r.io.find? (·.ended) with
      | some e => { r with latch := rest ++ [e], io := r.io.filter (· ≠ e) }
      | none => { r with latch := rest }) s

/-- Positions whose line's last product is complete by a time free, and lines behind them are applied; at most `n` of them. -/
def settleLatch (a t : Nat) : Nat → State → State
  | 0, s => s
  | n + 1, s =>
    let s := applyHead a s
    match (s.arr a).latch with
    | e :: _ => match e.fin with
      | some f => if f ≤ t then settleLatch a t n (freeHead a s) else s
      | none => s
    | [] => s

/-- The lines that the latch holds are applied, one after another, with no word before them to wait for; at most `n` of them. -/
def flushLatch (a : Nat) : Nat → State → State
  | 0, s => s
  | n + 1, s =>
    let s := applyHead a s
    match (s.arr a).latch with
    | e :: _ => if e.fin.isSome then flushLatch a n (freeHead a s) else s
    | [] => s

/-- R115, R116: when each of the lines held or coming completes its last product, if it comes as it stands; none while a
reconstruction holds its position. -/
def State.completions (s : State) (a : Nat) : Nat → List SweepLine → List (Option Nat)
  | _, [] => []
  | idle, e :: l =>
    match e.fin with
    | some f => some f :: s.completions a f l
    | none =>
      if !e.waits.isEmpty then none :: l.map (fun _ => none)
      else match (s.arr a).prog.find? (fun i => decide (i.index = e.idx)) with
        | none => some idle :: s.completions a idle l
        | some i =>
          let cycle := arrayCycle s.pwr.pstate
          let f := firstProduct cycle idle e.comes + s.lineCycles a i.word e.seqL * cycle
          some f :: s.completions a f l

/-- R23, R115: will a latch position be free at a time, the end of the slot to be issued? -/
def State.positionFree (s : State) (a t : Nat) : Bool :=
  let r := s.arr a
  let ls := s.completions a r.idleFrom (r.latch ++ r.io.filter (·.ended) ++ r.io.filter (fun e => !e.ended))
  decide ((ls.filter (fun f => match f with | some f => decide (t < f) | none => true)).length < 2)

/-! ## Lines from the stream port, round by round (R118, R239) -/

/-- The lines that each rank has received. -/
def InProg.received (i : InProg) (nPart rank : Nat) : List PortLine := portLinesOf nPart rank i.recv

/-- Has every participating cell received all that a stream-port sweep applies (R239)? -/
def InProg.portFull (i : InProg) (d : Desc) : Bool := (List.range d.nPart).all (fun k => decide (d.lines ≤ (i.received d.nPart k).length))

/-- One round of a stream-port sweep is applied in the cells that have received its line. -/
def applyRound (a : Nat) (i : InProg) (last : Bool) (s : State) : State :=
  let d := s.descOf a (wDesc i.word)
  let n := i.order.length
  let s := waitCycles a (sweepEcc a i s)
  putSweep a i n last (s.applyLines a i (fun rank _ => ((i.received d.nPart rank)[n]?).map (fun x => (n, portData x, 0)))) s

/-- The next round of a stream-port sweep is applied once every participating cell has its line and the round before it has left
the latch. -/
def portPump (a : Nat) (s : State) : State :=
  match s.applying a with
  | some i =>
    let d := s.descOf a (wDesc i.word)
    if wPort i.word && decide (i.order.length = i.freed) && decide (i.order.length < d.lines) &&
       (List.range d.nPart).all (fun k => decide (i.order.length < (i.received d.nPart k).length)) then
      applyRound a i (decide (d.lines ≤ i.order.length + 1)) s
    else s
  | none => s

/-- R118: may the cells that a line is bound for take it: each has a latch position free, or wants no more lines? -/
def InProg.takes (i : InProg) (d : Desc) (l : PortLine) : Bool :=
  (List.range d.nPart).all (fun k =>
    let n := (i.received d.nPart k).length
    (portLinesOf d.nPart k [l]).isEmpty || decide (d.lines ≤ n) || decide (n < i.freed + 2))

/-- Does a fetch word deliver lines under a descriptor? -/
def feeds (off : Nat) (w : QWord) : Bool :=
  (decide (wOp w = 0x10) && decide (wf w 38 37 = 1) && decide (wf w 55 39 * 32 = off)) || (decide (wOp w = 0x12) && decide (wf w 67 51 * 32 = off))

/-- The words of the step's fetch sequence that deliver lines under a descriptor and that the engine has passed, or not yet. -/
def State.feeders (s : State) (a off : Nat) (passed : Bool) : List Nat :=
  match s.holder a with
  | some (_, sc, p) =>
    let ep := (((p.plan.scheds[sc]?).bind (fun c => mget c.fetchEp a))).getD 0
    let pc := (s.arr a).fpc
    ((List.range (p.plan.fetchEnd a sc)).filter (fun j => if passed then decide (ep ≤ j) && decide (j < pc) else decide (pc ≤ j))).filter
      (fun j => feeds off (s.copyWord p.plan a j))
  | none => []

/-- The fetch words passed that delivered no line, as those of a row without a stream (R242), and whose sweep has not ended. -/
def State.emptyFetches (s : State) (a off : Nat) : List Nat :=
  let r := s.arr a
  (s.feeders a off true).filter (fun j =>
    !decide (j ∈ r.spent) && !r.runs.any (fun x => decide (x.index = j)) && !r.port.any (fun l => decide (l.run = j)) &&
    !r.prog.any (fun i => i.recv.any (fun l => decide (l.run = j))))

/-- STREAM_PORT_LINE_WRITE (R118, R239): the next line goes to the latches of its cells, for the sweep that consumes it. It holds the
port until that sweep is in progress and a latch position of each of its cells is free; once the sweep has all it applies, what its
fetches still deliver is discarded. -/
def execStreamPortLineWrite (a : Nat) (s : State) : Host.Outcome State Fault Refusal :=
  .next (match (s.arr a).port with
    | [] => s
    | l :: rest =>
      let full (i : InProg) : Bool := i.portFull (s.descOf a (wDesc i.word))
      let mine (i : InProg) : Bool := isSweep i.word && wPort i.word && decide (wDesc i.word = l.desc) &&
        (!full i || i.recv.any (fun x => decide (x.run = l.run))) &&
        (!i.recv.isEmpty || (s.emptyFetches a l.desc).all (fun j => decide (l.run ≤ j)))
      if l.run ∈ (s.arr a).spent then updArr a (fun r => { r with port := rest }) s
      else match (s.arr a).prog.find? mine with
        | some i =>
          if full i then updArr a (fun r => { r with port := rest }) s
          else if i.takes (s.descOf a (wDesc i.word)) l then
            portPump a (updProg a i.index (fun x => { x with recv := x.recv ++ [l] }) (updArr a (fun r => { r with port := rest }) s))
          else s
        | none => s)

/-- The rounds that some cell has still to apply at a stream-port sweep's end, no line being left to come. -/
def portRest (a idx : Nat) : Nat → State → State
  | 0, s => s
  | n + 1, s => match (s.arr a).prog.find? (fun i => decide (i.index = idx)) with
    | none => s
    | some i =>
      let d := s.descOf a (wDesc i.word)
      if (List.range d.nPart).any (fun k => decide (i.order.length < min d.lines (i.received d.nPart k).length)) then
        portRest a idx n (applyRound a i false s)
      else s

/-- The absent columns that a stream-port sweep of key lines leaves, by output column (R220, R242): those of skipped tokens
and those beyond the lines delivered. -/
def absentCols (d : Desc) (recv : List PortLine) : List Nat :=
  if recv.any (·.key) then
    (List.range d.cols).filter (fun col =>
      let i := col / d.holders
      let rank := col % d.holders * d.k
      match (portLinesOf d.nPart rank recv)[i * d.perRow]? with
      | some x => x.absent
      | none => true)
  else []

/-- Has a stream-port sweep received all it will: its full count in every cell, no fetch for it left, or a fetch that had nothing to
deliver (R239, R242)? -/
def State.portDone (s : State) (a : Nat) (i : InProg) : Bool :=
  let r := s.arr a
  i.portFull (s.descOf a (wDesc i.word)) ||
  (!r.runs.any (fun x => x.toPort && decide (x.off = wDesc i.word) && !decide (x.index ∈ r.spent)) &&
   !r.port.any (fun l => decide (l.desc = wDesc i.word) && !decide (l.run ∈ r.spent)) &&
   (!i.recv.isEmpty || (s.feeders a (wDesc i.word) false).isEmpty)) ||
  (i.recv.isEmpty && !(s.emptyFetches a (wDesc i.word)).isEmpty &&
   !r.port.any (fun l => decide (l.desc = wDesc i.word) && decide (l.run < (s.emptyFetches a (wDesc i.word)).headD 0)))

/-- A stream-port sweep ends: the rounds left are applied, what is open is folded, the columns without a token are absent, and what
its fetches still deliver is discarded (R121, R239, R242). -/
def portSweep (a : Nat) (i : InProg) (s : State) : State :=
  let d := s.descOf a (wDesc i.word)
  let none_ := if i.recv.isEmpty then (s.emptyFetches a (wDesc i.word)).take 1 else []
  let s := portRest a i.index d.lines s
  let und := (s.arr a).accUndef
  let s := match (s.arr a).prog.find? (fun x => decide (x.index = i.index)) with
    | some x =>
      let st : SwSt := { acc := (s.arr a).acc, pend := (s.arr a).pend, scale := (s.arr a).rowScale, open_ := x.open_, nan := 0, bad := 0, t2 := 0, clip := 0, sat := 0 }
      let st := if wOp i.word = 0x20 && d.scaled then st.close und d else st
      countFmt a st (updArr a (fun r => { r with acc := st.acc, pend := st.pend }) s)
    | none => s
  updArr a (fun r => { r with absent := mset r.absent (wDesc i.word) (absentCols d i.recv), spent := r.spent ++ i.recv.map (·.run) ++ none_ }) s

/-! ## Issue -/

/-- Do two words of the array use a common entry? -/
def State.sharesEntries (s : State) (a : Nat) (w v : QWord) : Bool :=
  let d := s.descOf a (wDesc w)
  let e := s.descOf a (wDesc v)
  (sweepEntries w d).any (fun x => (sweepEntries v e).any (overlaps x))

/-- R196: has a sweep finished issuing its reads, or taking its lines from the stream port? -/
def State.readsIssued (s : State) (a : Nat) (i : InProg) : Bool :=
  let d := s.descOf a (wDesc i.word)
  if wPort i.word then i.portFull d else decide ((sweepLines i.word d).length ≤ (i.issued.map (·.2)).sum)

/-- R124: does a sweep meet an entry that is pending, or that a sweep before it has still to write? -/
def State.sweepStalls (s : State) (a : Nat) (w : QWord) : Bool :=
  let r := s.arr a
  let d := s.descOf a (wDesc w)
  wClear w && ((sweepKeys w d (s.cellsOf a d)).any (mhas r.pend) ||
    r.prog.any (fun i => isSweep i.word && !s.sweepApplied a i && s.sharesEntries a w i.word))

/-- R124, R196: may a sweep issue? -/
def State.sweepFree (s : State) (a : Nat) (w : QWord) : Bool :=
  (s.arr a).prog.all (fun i => !isSweep i.word || s.readsIssued a i) && !s.sweepStalls a w

/-- R140, R157: a sweep that names an excluded cell is a loss under its model's policy: the model that owns its lines or, for a
sweep from the stream port, every model that the step runs on. -/
def exclLoss (a : Nat) (w : QWord) (s : State) : State :=
  let d := s.descOf a (wDesc w)
  if (s.cellsOf a d).any (fun c => decide (c ∈ (s.arr a).excl)) then
    if wPort w then match s.holder a with
      | some (h, sc, _) => match s.stepOf h sc with
        | some x => forEach (x.epochs.map (·.1)) slotLoses s
        | none => s
      | none => s
    else slotLoses (s.ownerOf a d.sb0 (d.base / 256)) s
  else s

/-- R139: a parity error in a cell's latch or sequencer: the cell leaves service at the barrier, and its rows are flagged. -/
def cellParity (a : Nat) (w : QWord) (cells : List Nat) (s : State) : State :=
  let d := s.descOf a (wDesc w)
  forEach cells (fun c s =>
    let r := s.arr a
    if !decide (c ∈ s.cellsOf a d) || decide (c ∈ r.excl) || decide (c ∈ r.exclPend) then s
    else excludeCell a c (updArr a (fun r => { r with
      pend := (sweepKeys w d [c]).foldl (fun m k => mset m k (mgetD m k 0 ||| weightLost)) r.pend }) s)) s

/-- R123: the entries of a sweep that clears are +0 before its first add. -/
def clearEntries (a : Nat) (w : QWord) (s : State) : State :=
  if wClear w then
    let d := s.descOf a (wDesc w)
    updArr a (fun r => { r with acc := (sweepKeys w d ((s.rankedCells a d).map (·.2))).foldl (fun m k => mset m k 0) r.acc }) s
  else s

/-- R53, R67: the invalid row scales and records of a row group are counted as the sweep takes it up. -/
def countBadRows (a : Nat) (w : QWord) (s : State) : State :=
  let n := if wOp w = 0x22 then 0 else badRows (s.actRows a w (s.descOf a (wDesc w)))
  stick (decide (n ≠ 0)) 0 (countBy (fmtCnt a 1) n s)

/-- A sweep issues: its entries are cleared where it asks for it, and its lines are read or awaited from then on. -/
def beginSweep (a : Nat) (x : At) (parity : List Nat) (ecc : List SweepEcc) (s : State) : State :=
  let s := countBadRows a x.w (clearEntries a x.w (exclLoss a x.w s))
  let s := updArr a (fun r => { r with
    twin := if wOp x.w = 0x22 then mset r.twin (wDesc x.w) ((wf x.w 95 88 + 1) * 32) else r.twin
    absent := mset r.absent (wDesc x.w) [] }) s
  issue (.exec a) { InProg.plain x with ecc := ecc } (cellParity a x.w parity s)

/-- A sweep word is carried out, or stalls (R124). -/
def sweepWord (a : Nat) (parity : List Nat) (ecc : List SweepEcc) (x : At) (s : State) : State :=
  if s.sweepFree a x.w then beginSweep a x parity ecc s else if s.sweepStalls a x.w then waitCycles a s else s

/-- SWEEP (R115, R120-R123, R244-R246). `parity` are cells that meet a parity error (R139), `ecc` the accumulator errors that the
sweep's reads meet (R125). -/
def execSweep (a : Nat) (parity : List Nat) (ecc : List SweepEcc) (s : State) : Host.Outcome State Fault Refusal :=
  .next (withWord (.exec a) 0x20 (sweepWord a parity ecc) s)

/-- VEIN_SWEEP (R110). -/
def execVeinSweep (a : Nat) (met : SweepMet) (s : State) : Host.Outcome State Fault Refusal :=
  .next (withWord (.exec a) 0x21 (sweepWord a met.parity met.ecc) s)

/-- TRANSPOSE_SWEEP (R135). -/
def execTransposeSweep (a : Nat) (met : SweepMet) (s : State) : Host.Outcome State Fault Refusal :=
  .next (withWord (.exec a) 0x22 (sweepWord a met.parity met.ecc) s)

end Sys2Proof.Machine
end

