-- ==== Sys2Proof/Machine/Drain.lean ====
section
/-! DEFINITION. Sys2Proof/Machine/Drain.lean: DRAIN: accumulator entries through the reduction tree and the scales to the
post unit (R122-R128, R136, R139, R140, R247). -/

namespace Sys2Proof.Machine

/-! ## The reduction tree (R127, R136) -/

/-- One level of the tree over cells in ascending order: the lower one is the left operand; a cell out of service is none. The last of
an odd number goes up unchanged: DESIGN CHOICE (log 91), as R136 gives no shape for a count that is no power of two. Counts the
results that saturated. -/
def treePass : List (Option Word) → List (Option Word) × Nat
  | a :: b :: l =>
    let r := treePass l
    match a, b with
    | some x, some y => (some (fAdd x y).1 :: r.1, r.2 + if (fAdd x y).2 then 1 else 0)
    | some x, none => (some x :: r.1, r.2)
    | none, y => (y :: r.1, r.2)
  | l => (l, 0)

/-- The tree's sum; +0 where no cell is in service. -/
def treeSum : Nat → List (Option Word) → Word × Nat
  | 0, l => ((l.head?.join).getD 0, 0)
  | n + 1, l =>
    if l.length ≤ 1 then ((l.head?.join).getD 0, 0)
    else
      let r := treePass l
      let t := treeSum n r.1
      (t.1, t.2 + r.2)

/-! ## What a DRAIN reads -/

/-- `xpose` (R247). -/
def wXpose (w : QWord) : Bool := w.getLsbD 58

/-- The columns that the last TRANSPOSE_SWEEP on a descriptor left (R136). -/
def State.windowOf (s : State) (a : Nat) (w : QWord) : Nat := mgetD (s.arr a).twin (wDesc w) 0

/-- The entries that a drain reads in each cell: first index and count (R120, R135). -/
def State.drainRun (s : State) (a : Nat) (w : QWord) : Nat × Nat :=
  let d := s.descOf a (wDesc w)
  if wXpose w then (d.accBase, s.windowOf a w * d.groups)
  else (d.accBase + (if d.scaled then 256 else 0), d.rows * d.groups)

/-- The entries that a drain names, and so leaves no longer pending (R124): in SCALED form both of each index. -/
def State.drainNames (s : State) (a : Nat) (w : QWord) : List (Nat × Nat) :=
  let d := s.descOf a (wDesc w)
  if d.scaled && !wXpose w then [s.drainRun a w, (d.accBase, d.rows * d.groups)] else [s.drainRun a w]

/-- R124: does an earlier sweep still have an add or fold outstanding to the drain's entries? -/
def State.drainBlocked (s : State) (a : Nat) (w : QWord) : Bool :=
  (s.arr a).prog.any (fun i => isSweep i.word && !s.sweepApplied a i &&
    (sweepEntries i.word (s.descOf a (wDesc i.word))).any (fun x => (s.drainNames a w).any (overlaps x)))

/-! ## Elements and rows -/

/-- The sum over cells of the entry at one index, with the reasons it carries and the saturations (R127, R136, R140). -/
def Arr.reduce (r : Arr) (cells : List Nat) (e : Nat) : Word × Half × Nat :=
  let vals := cells.map (fun c => if c ∈ r.excl then none else some (accAt r.acc r.accUndef (accKey c e)))
  let fl := cells.foldl (fun f c => f ||| if c ∈ r.excl then weightLost else mgetD r.pend (accKey c e) 0) 0
  let t := treeSum cells.length vals
  (t.1, fl, t.2)

/-- The row scale that the cells of a holder keep for an output row (R119). -/
def Arr.keptScale (r : Arr) (d : Desc) (cells : List Nat) (i : Nat) : Half :=
  match cells.find? (fun c => !decide (c ∈ r.excl)) with
  | some c => mgetD r.rowScale (accKey c (d.accBase + i * d.groups)) 0x3F80
  | none => 0x3F80

/-- R53, R247: the activation scale of row b: valid, or the row is zeros. -/
def State.drainScale (s : State) (a : Nat) (w : QWord) (b : Nat) : Option Half :=
  let rec_ := u (s.storeRd a (wf w 32 17 * 64 + b * 64) 4) 0 4
  let sc := BitVec.ofNat 16 rec_
  if decide (bits rec_ 31 28 = 0) && validScale sc then some sc else none

/-- One element of an output row (R121, R122, R126, R127). -/
def Arr.drainElem (r : Arr) (d : Desc) (cells : List Nat) (sa : Option Half) (b col : Nat) : Word × Half × Nat :=
  let i := col / d.holders
  let cs := (cells.drop (col % d.holders * d.k)).take d.k
  let t := r.reduce cs (d.entry i b + if d.scaled then 256 else 0)
  if d.scaled then t
  else match sa with
    | none => (0, t.2.1, t.2.2)
    | some sa =>
      let sw := if d.scale = 2 then bVal (r.keptScale d cs i) else dy 1
      let p := fMulBy t.1 ((bVal sa).mul sw)
      (p.1, t.2.1, t.2.2 + if p.2 then 1 else 0)

/-- A batch row of the row group as drained, and its saturations. -/
def State.drainRow (s : State) (a : Nat) (w : QWord) (b : Nat) : RowD × Nat :=
  let d := s.descOf a (wDesc w)
  let r := s.arr a
  let cells := s.cellsOf a d
  if wXpose w then
    let l := (List.range (s.windowOf a w)).map (fun c => r.reduce cells (d.accBase + c * d.groups + b))
    ({ elems := l.map (·.1), absent := [], flags := l.foldl (fun f x => f ||| x.2.1) 0 }, (l.map (·.2.2)).sum)
  else
    let sa := if d.scaled then none else s.drainScale a w b
    let bad := !d.scaled && sa.isNone
    let l := (List.range d.cols).map (r.drainElem d cells sa b)
    let fl := l.foldl (fun f x => f ||| x.2.1) 0
    let fl := if d.scaled then fl else fl ||| s.taintOf (storeDva a (wf w 32 17 * 64 + b * 64)) 4 ||| (if bad then scaleNan else 0)
    ({ elems := l.map (·.1), absent := mgetD r.absent (wDesc w) [], flags := fl }, (l.map (·.2.2)).sum)

/-- Elements as binary32 bytes. -/
def wordBytes (l : List Word) : Bytes := l.flatMap (fun w => toLE 4 w.toNat)

/-- R128: kept rows, one after another in whole store units. -/
def keepRows (a off : Nat) (rows : List RowD) (s : State) : State :=
  forEach ((List.range rows.length).zip rows)
    (fun x s => putStore a (off + x.1 * units (4 * x.2.elems.length)) (wordBytes x.2.elems) x.2.flags s) s

/-- Where kept rows go, where the word keeps any: byte offset and length of the run. -/
def State.keepRun (s : State) (a : Nat) (w : QWord) : Option (Nat × Nat) :=
  let d := s.descOf a (wDesc w)
  if wX w then some (wf w 57 42 * 64, d.groups * units (4 * (if wXpose w then s.windowOf a w else d.cols))) else none

/-- The first batch row of a row group: `b0` of the QUANT word that codes the element stream which leaves the word before
these; 0 where no QUANT word codes it. -/
def firstRow : List QWord → Nat
  | [] => 0
  | w :: l =>
    if wOp w = 0x25 then wf w 25 18
    else if wOp w = 0x23 ∨ (wOp w = 0x24 ∧ wf w 5 5 = 1) then 0
    else firstRow l

/-- The first batch row of the rows that a DRAIN or POST word handles. -/
def At.rowBase (x : At) (a : Nat) : Nat := firstRow ((x.p.plan.execStream a).drop (x.idx + 1))

/-- The streams of a word's rows carry the reasons of those rows (R125, R139, R156, R164). -/
def flagRows (a : Nat) (x : At) (rows : List RowD) (s : State) : State :=
  let b0 := x.rowBase a
  forEach ((List.range rows.length).zip rows) (fun y s => if y.2.flags = 0 then s else flagRow x.h x.sc (b0 + y.1) y.2.flags s) s

/-- A DRAIN word that may start is carried out. -/
def drainWord (a : Nat) (ecc : List EccHit) (x : At) (s : State) : State :=
  let d := s.descOf a (wDesc x.w)
  let s := forEach ecc (fun h s => eccHit a d [s.drainRun a x.w] h s) s
  let out := (List.range d.groups).map (s.drainRow a x.w)
  let rows := out.map (·.1)
  let bads := if d.scaled || wXpose x.w then 0 else ((List.range d.groups).filter (fun b => (s.drainScale a x.w b).isNone)).length
  let s := accSats a (out.map (·.2)).sum (stick (decide (bads ≠ 0)) 0 (countBy (fmtCnt a 1) bads s))
  let names := s.drainNames a x.w
  let read (k : Nat) : Bool := decide (k / 512 ∈ s.cellsOf a d) && names.any (fun r => decide (r.1 ≤ k % 512) && decide (k % 512 < r.1 + r.2))
  let s := updArr a (fun r => { r with drained := rows, pend := r.pend.filter (fun p => !read p.1) }) s
  let s := match s.keepRun a x.w with | some k => keepRows a k.1 rows s | none => s
  issue (.exec a) (.plain x) (flagRows a x rows s)

/-- DRAIN (R126). `ecc` are the accumulator errors met while entries are read. A kept run outside the plan's regions makes
the word malformed. -/
def execDrain (a : Nat) (ecc : List EccHit) (s : State) : Host.Outcome State Fault Refusal :=
  .next (withWord (.exec a) 0x23 (fun x s =>
    let keepOk := match s.keepRun a x.w with | some k => x.p.plan.covers a k.1 k.2 | none => true
    let s := flushLatch a 3 s
    if s.drainBlocked a x.w then waitCycles a s
    else if !keepOk then engineFault x.h a x.idx s
    else drainWord a ecc x s) s)

end Sys2Proof.Machine
end

