-- ==== Sys2Proof/Machine/Post.lean ====
section
/-! DEFINITION. Sys2Proof/Machine/Post.lean: the post unit's operations on binary32 rows, and the hub's combination of
normalisation statistics (R130-R134, R164, R248-R250). -/

namespace Sys2Proof.Machine

/-! ## Elements (R59, R133) -/

/-- A result with the mark of a saturation. -/
abbrev Res := Word × Bool

/-- R59, R133: a free result of the post unit in the form every result has: no infinity, NaN or subnormal. -/
def tidy (w : Word) : Res :=
  if fExp w = 255 then (if fSign w then 0xFF7FFFFF else 0x7F7FFFFF, true)
  else if fExp w = 0 then (fZeroOf (fSign w), false)
  else (w, false)

/-- R133: a NaN result. -/
def nanOf (x : Word) : Word := if fNan (Config.postNan x) then Config.postNan x else 0x7FC00000

/-- A sum of two elements, or NaN (R130, R133). -/
def pAdd (x y : Word) : Res := if fFinite x && fFinite y then fAdd x y else (nanOf x, false)
/-- A product of two elements, or NaN (R130, R133). -/
def pMul (x y : Word) : Res :=
  if fFinite x && fFinite y then accRes (Bool.xor (fSign x) (fSign y)) ((fVal x).mul (fVal y)) else (nanOf x, false)
/-- A quotient by a count, rounded once (R131). -/
def pDiv (x : Word) (n : Nat) : Res :=
  if !fFinite x then (nanOf x, false)
  else
    let q := quot (fVal x) (dy n)
    accRes (fSign x) ⟨if fSign x then -(q.1 : Int) else q.1, q.2⟩

/-- SILU (R130). -/
def pSilu (x : Word) : Res :=
  if !fFinite x then (nanOf x, false)
  else if Dy.le (dy 16) (fVal x) then (x, false)
  else if Dy.le (fVal x) (dy (-20)) then (0x80000000, false)
  else tidy (nearSilu (Config.postSilu x) (fVal x))
/-- GELU (R130). -/
def pGelu (x : Word) : Res :=
  if !fFinite x then (nanOf x, false)
  else if Dy.le (dy 8) (fVal x) then (x, false)
  else if Dy.le (fVal x) (dy (-8)) then (0x80000000, false)
  else tidy (nearGelu (Config.postGelu x) (fVal x))

/-- e^(x - m), +0 below -87.33 (R130). -/
def pExp (x m : Word) : Res :=
  let d := (fVal x).add (fVal m).neg
  if Dy.lt ((dy 100).mul d) (dy (-8733)) then (0, false) else tidy (nearExp (Config.postExp (accRes false d).1) d)

/-- An element passed on (R130, R133). -/
def pCopy (x : Word) : Res := if fFinite x then (x, false) else (nanOf x, false)

/-- Elements with the number of saturations among them. -/
def tally (l : List Res) : List Word × Nat := (l.map (·.1), l.countP (·.2))

/-! ## Rows -/

/-- What an operation makes of one row. -/
structure PostRow where
  elems : List Word
  sats  : Nat
  /-- partial sums of a statistic, or the pair (m_p, sum_p) -/
  pair  : Word × Word
  flags : Half

/-- Σx and Σx², each add rounded (R130); NaN where an element is not finite (R133). -/
def statOf (l : List Word) : (Word × Word) × Nat :=
  if l.all fFinite then
    l.foldl (fun (acc : (Word × Word) × Nat) x =>
      let a := fAdd acc.1.1 x
      let b := accAdd acc.1.2 ((fVal x).mul (fVal x))
      ((a.1, b.1), acc.2 + (if a.2 then 1 else 0) + (if b.2 then 1 else 0))) ((0, 0), 0)
  else let n := nanOf ((l.find? (fun x => !fFinite x)).getD 0); ((n, n), 0)

/-- SOFTMAX and SOFTMAX_PART over the present elements of a row (R130, R133). -/
def softmaxRow (part : Bool) (r : RowD) : PostRow :=
  let here (i : Nat) : Bool := !decide (i ∈ r.absent)
  let ix := (List.range r.elems.length).zip r.elems
  let present := (ix.filter (fun x => here x.1)).map (·.2)
  match present with
  | [] => { elems := r.elems.map (fun _ => 0), sats := 0, pair := (0xFF7FFFFF, 0), flags := 0 }
  | x0 :: rest =>
    if !present.all fFinite then
      { elems := ix.map (fun x => if here x.1 then nanOf x.2 else 0), sats := 0, pair := (nanOf x0, nanOf x0), flags := 0 }
    else
      let m := rest.foldl (fun m x => if Dy.lt (fVal m) (fVal x) then x else m) x0
      let es := ix.map (fun x => (here x.1, if here x.1 then pExp x.2 m else (0, false)))
      let sum := es.foldl (fun (acc : Word × Nat) e => if e.1 then
          let a := fAdd acc.1 e.2.1
          (a.1, acc.2 + if a.2 then 1 else 0) else acc) (0, 0)
      let out : List Res := (ix.zip es).map (fun e =>
        if part || !e.2.1 || fZero e.2.2.1 then e.2.2
        else tidy (nearSoftmax (Config.postSoftmaxDiv e.2.2.1 sum.1) ((fVal e.1.2).add (fVal m).neg) sum.1))
      { elems := out.map (·.1), sats := sum.2 + out.countP (·.2), pair := (m, sum.1), flags := 0 }

/-- The mean, and the square that is normalised by (R131): RMS has mean 0. -/
def normStat (layer : Bool) (sx sq : Word) (n : Nat) : Word × Word × Nat :=
  let mu := pDiv sx n
  let q := pDiv sq n
  if !layer then (0, q.1, if q.2 then 1 else 0)
  else if !fFinite mu.1 || !fFinite q.1 then (mu.1, nanOf q.1, 0)
  else
    let v := accRes false ((fVal q.1).add ((fVal mu.1).mul (fVal mu.1)).neg)
    (mu.1, if fSign v.1 then 0 else v.1, (if mu.2 then 1 else 0) + (if q.2 then 1 else 0) + (if v.2 then 1 else 0))

/-- NORM_APPLY of one element (R130). Where a factor of the product is 0 the result is exact. -/
def normElem (layer : Bool) (mu v eps : Word) (x : Word) (g b : Half) : Res :=
  if !(fFinite x && fFinite mu && fFinite v && fFinite (bWide g) && (!layer || fFinite (bWide b))) then (nanOf x, false)
  else
    let dx := (fVal x).add (fVal mu).neg
    if (dx.m = 0 || fZero (bWide g)) && (!layer || fZero (bWide b)) then
      (fZeroOf (!layer && Bool.xor (fSign x) (fSign (bWide g))), false)
    else tidy (nearNorm (Config.postNorm x mu v eps g b) (dx.mul (bVal g)) ((fVal v).add (fVal eps)) (if layer then bVal b else dy 0))

/-- NORM_APPLY of a row under a table of γ and β (R130, R250). -/
def normRow (layer : Bool) (sx sq : Word) (n : Nat) (eps : Word) (tab : Bytes) (r : RowD) : PostRow :=
  let st := normStat layer sx sq n
  let k := r.elems.length
  let t := tally (((List.range k).zip r.elems).map (fun x =>
    normElem layer st.1 st.2.1 eps x.2 (BitVec.ofNat 16 (u tab (2 * x.1) 2)) (if layer then BitVec.ofNat 16 (u tab (2 * k + 2 * x.1) 2) else 0)))
  { elems := t.1, sats := st.2.2 + t.2, pair := (0, 0), flags := 0 }

/-- ROTARY of a row (R130): pairs within heads of 2n elements; what stands after the last whole head passes unchanged, and
so does a pair turned by 0. -/
def rotaryRow (halved : Bool) (pos n : Nat) (tab : Bytes) (r : RowD) : PostRow :=
  let d := 2 * n
  let k := r.elems.length
  let t := tally (((List.range k).zip r.elems).map (fun x =>
    if d = 0 ∨ k / d * d ≤ x.1 then pCopy x.2
    else
      let base := x.1 / d * d
      let j := x.1 % d
      let i := if halved then j % n else j / 2
      let p := base + if halved then i else 2 * i
      let q := base + if halved then i + n else 2 * i + 1
      let xp := r.elems.getD p 0
      let xq := r.elems.getD q 0
      let om := BitVec.ofNat 32 (u tab (4 * i) 4)
      if !(fFinite xp && fFinite xq && fFinite om) then (nanOf x.2, false)
      else if pos = 0 ∨ fZero om then (x.2, false)
      else
        let y := Config.postRotary xp xq pos om
        tidy (if x.1 = p then nearRotated y.1 pos (fVal om) (fVal xp) (fVal xq).neg else nearRotated y.2 pos (fVal om) (fVal xq) (fVal xp))))
  { elems := t.1, sats := t.2, pair := (0, 0), flags := 0 }

/-- An operation of one element at a time. -/
def mapRow (f : Nat → Word → Res) (r : RowD) : PostRow :=
  let t := tally (((List.range r.elems.length).zip r.elems).map (fun x => f x.1 x.2))
  { elems := t.1, sats := t.2, pair := (0, 0), flags := 0 }

/-! ## Protected tables (R162-R164, R250) -/

/-- The verified content of the protected table a symbol names; `none` is lost. -/
def State.tableAt (s : State) (p : Plan) (sym : Nat) : Option Bytes :=
  match p.symbols[sym]? with
  | some y =>
    let id := y.ident.toNat
    let m := mgetD s.models.slots (id / 2 ^ 16 % 16) Slot.reset
    if id % 65536 ∈ m.lostTab then none else mget m.tables (id % 65536)
  | none => none

/-- R250: bytes of values a word reads of its table, at least; 0 where it reads none. -/
def tableNeed (op n : Nat) : Nat := if op = 0x2 then 2 * n else if op = 0x3 then 4 * n else if op = 0x9 ∨ op = 0xA then 4 else 0

/-- R250: is a table too short, or for ROTARY too long, for the word? -/
def tableBad (op n : Nat) (t : Bytes) : Bool :=
  decide (t.length < tableNeed op n + 4) || (decide (op = 0x9 ∨ op = 0xA) && decide (4 * 128 + 4 < t.length))

/-! ## A POST word -/

/-- `op`, rows, elements per row, and the parameter record's place. -/
def wPostOp (w : QWord) : Nat := wf w 3 0
def wPostRows (w : QWord) : Nat := wf w 15 8 + 1
def wPostN (w : QWord) : Nat := wf w 31 16 * 32

/-- The statistic slot of a word, as a key of the hub's slots (R131, R250). -/
def State.slotKey (s : State) (a h : Nat) (w : QWord) : Nat := h * 4096 + u (s.storeRd a (wf w 47 32 * 64 + 8) 2) 0 2

/-- Words of a run of binary32 bytes. -/
def wordsAt (b : Bytes) (n : Nat) : List Word := (List.range n).map (fun i => BitVec.ofNat 32 (u b (4 * i) 4))

/-- A drained row of `n` elements: its last block is padded with +0, which codes to 0x0 and no operation counts as present (R48);
an element that the stream does not hold at all is a free value. -/
def State.padRow (s : State) (b n : Nat) (r : RowD) : RowD :=
  let k := r.elems.length
  { r with
    elems := (List.range n).map (fun i =>
      (r.elems[i]?).getD (if i < alignUp k 32 then 0 else Config.freeEntry s.free (b * 65536 + i)))
    absent := r.absent ++ ((List.range n).filter (fun i => decide (k ≤ i) && decide (i < alignUp k 32))) }

/-- The input rows (R248). -/
def State.postIn (s : State) (a : Nat) (w : QWord) (b : Nat) : RowD :=
  let n := wPostN w
  if wf w 5 5 = 1 then
    let off := wf w 79 64 * 64 + b * n * 4
    { elems := wordsAt (s.storeRd a off (4 * n)) n, absent := [], flags := s.taintOf (storeDva a off) (4 * n) }
  else match (s.arr a).drained[b]? with
    | some r => s.padRow b n r
    | none => { elems := (List.range n).map (fun i => Config.freeEntry s.free (b * 65536 + i)), absent := [], flags := 0 }

/-- The second operand of a row, with the reasons its bytes carry (R249). -/
def State.postOpnd (s : State) (a : Nat) (w : QWord) (b : Nat) : (Nat → Word) × Half :=
  let n := wPostN w
  let off := wf w 63 48 * 64
  match wPostOp w with
  | 0x6 | 0xC =>
    let d := s.storeRd a (off + b * n * 4) (4 * n)
    (fun i => BitVec.ofNat 32 (u d (4 * i) 4), s.taintOf (storeDva a (off + b * n * 4)) (4 * n))
  | 0xB | 0xD =>
    if wf w 4 4 = 1 then
      let d := s.storeRd a off (2 * n)
      (fun i => bWide (BitVec.ofNat 16 (u d (2 * i) 2)), s.taintOf (storeDva a off) (2 * n))
    else
      let d := s.storeRd a off (4 * n)
      (fun i => BitVec.ofNat 32 (u d (4 * i) 4), s.taintOf (storeDva a off) (4 * n))
  | _ => (fun _ => 0, 0)

/-- The position that ROTARY takes for a batch row: its stream's; free where no stream is bound (R132). -/
def State.posOf (s : State) (h sc b : Nat) : Nat :=
  match (s.rowStream h sc b).bind (mget s.models.streams) with
  | some st => st.pos
  | none => (Config.freeEntry s.free b).toNat

/-- One row through the operation (R130). -/
def State.postRow (s : State) (a : Nat) (x : At) (b : Nat) : RowD × PostRow :=
  let w := x.w
  let r := s.postIn a w b
  let y := s.postOpnd a w b
  let prm := s.storeRd a (wf w 47 32 * 64) 16
  let tab := s.tableAt x.p.plan (u prm 0 4)
  let t := tab.getD []
  let st : Word × Word := match mget (mgetD s.normSum (s.slotKey a x.h w) []) b with
    | some p => p
    | none => (Config.freeEntry s.free (2 ^ 24 + b), Config.freeEntry s.free (2 ^ 25 + b))
  let lostTab : Half := if tab.isNone && decide (tableNeed (wPostOp w) 1 ≠ 0) then weightLost else 0
  let o : PostRow := match wPostOp w with
    | 0x1 =>
      let q := statOf r.elems
      { elems := r.elems.map (fun e => (pCopy e).1), sats := q.2, pair := q.1, flags := 0 }
    | 0x2 => normRow false st.1 st.2 (u prm 12 4) (BitVec.ofNat 32 (u prm 4 4)) t r
    | 0x3 => normRow true st.1 st.2 (u prm 12 4) (BitVec.ofNat 32 (u prm 4 4)) t r
    | 0x4 => mapRow (fun _ e => pSilu e) r
    | 0x5 => mapRow (fun _ e => pGelu e) r
    | 0x6 => mapRow (fun i e => pMul e (y.1 i)) r
    | 0x7 => softmaxRow false r
    | 0x8 => softmaxRow true r
    | 0x9 => rotaryRow false (s.posOf x.h x.sc (x.rowBase a + b)) ((t.length - 4) / 4) t r
    | 0xA => rotaryRow true (s.posOf x.h x.sc (x.rowBase a + b)) ((t.length - 4) / 4) t r
    | 0xB => mapRow (fun i e => pAdd e (y.1 i)) r
    | 0xC => mapRow (fun i e => pAdd e (y.1 i)) r
    | 0xD => mapRow (fun i e => pMul e (y.1 i)) r
    | _ => mapRow (fun _ e => pCopy e) r
  (r, { o with flags := r.flags ||| y.2 ||| lostTab })

/-- R131: an array's partial sums of a row go to the hub's slot. -/
def putPart (key : Nat) (p : NormPart) (s : State) : State :=
  { s with norm := mset s.norm key ((mgetD s.norm key []).filter (fun q => !(decide (q.array = p.array) && decide (q.row = p.row))) ++ [p]) }

/-- A POST word is carried out. -/
def postWord (a : Nat) (x : At) (s : State) : State :=
  let w := x.w
  let n := wPostN w
  let rows := (List.range (wPostRows w)).map (fun b => (b, s.postRow a x b))
  let key := s.slotKey a x.h w
  let out : List RowD := rows.map (fun r => { elems := r.2.2.elems, absent := r.2.1.absent, flags := r.2.2.flags })
  let s := accSats a (rows.map (fun r => r.2.2.sats)).sum { s with free := s.free + 1 }
  let s := if wPostOp w = 0x1 then forEach rows (fun r s => putPart key ⟨a, r.1, r.2.2.pair.1, r.2.2.pair.2⟩ s) s else s
  let s := if wPostOp w = 0x8 then
      forEach rows (fun r s => putStore a (wf w 63 48 * 64 + 8 * r.1) (wordBytes [r.2.2.pair.1, r.2.2.pair.2]) r.2.2.flags s) s
    else s
  let s := if wf w 6 6 = 1 then
      forEach ((List.range out.length).zip out) (fun r s => putStore a (wf w 95 80 * 64 + r.1 * n * 4) (wordBytes r.2.elems) r.2.flags s) s
    else s
  let s := updArr a (fun r => { r with drained := out, posted := if wf w 6 6 = 1 then r.posted else out }) s
  issue (.exec a) (.plain x) (flagRows a x out s)

/-- POST (R130). A protected table too short for the word makes it malformed (R250). -/
def execPost (a : Nat) (s : State) : Host.Outcome State Fault Refusal :=
  .next (withWord (.exec a) 0x24 (fun x s =>
    let tab := s.tableAt x.p.plan (u (s.storeRd a (wf x.w 47 32 * 64) 4) 0 4)
    let bad := decide (tableNeed (wPostOp x.w) 1 ≠ 0) && (match tab with | some t => tableBad (wPostOp x.w) (wPostN x.w) t | none => false)
    if bad then engineFault x.h a x.idx s else postWord a x s) s)

/-! ## NORM_STAT_COMBINE (R131) -/

/-- The arrays whose sequences of a schedule send a statistic to a slot. -/
def State.contributors (s : State) (p : Plan) (sc h key : Nat) : List Nat :=
  p.arrayList.filter (fun a => (indexed (p.execStream a)).any (fun x =>
    decide (wOp x.2 = 0x24) && decide (wPostOp x.2 = 0x1) && decide (s.slotKey a h x.2 = key) &&
    decide (seqOwner (if p.el3 then p.fetchEps a else p.execEps a) x.1 = sc)))

/-- A row's device sums: the arrays' partials in ascending array number, each add rounded once. -/
def sumParts (l : List NormPart) : (Word × Word) × Nat :=
  (List.range 64).foldl (fun (acc : (Word × Word) × Nat) a => match l.find? (fun p => decide (p.array = a)) with
    | some p =>
      let x := pAdd acc.1.1 p.sx
      let y := pAdd acc.1.2 p.sq
      ((x.1, y.1), acc.2 + (if x.2 then 1 else 0) + (if y.2 then 1 else 0))
    | none => acc) ((0, 0), 0)

/-- A device's sums as they cross Spar: row, sum and sum of squares in binary32 (R131). -/
def statBytes (l : List (Nat × (Word × Word))) : Bytes := l.flatMap (fun x => toLE 4 x.1 ++ (toLE 4 x.2.1.toNat ++ toLE 4 x.2.2.toNat))
/-- The sums of a row in such bytes. -/
def statIn (b : Bytes) (row : Nat) : Option (Word × Word) :=
  ((List.range (b.length / 12)).find? (fun i => decide (u b (12 * i) 4 = row))).map
    (fun i => (BitVec.ofNat 32 (u b (12 * i + 4) 4), BitVec.ofNat 32 (u b (12 * i + 8) 4)))

/-- The members' sums of a row added in arrival order, each add rounded once (R131, R345). -/
def addStats (l : List (Word × Word)) : (Word × Word) × Nat :=
  match l with
  | [] => ((0, 0), 0)
  | x :: l => l.foldl (fun (acc : (Word × Word) × Nat) y =>
      let a := pAdd acc.1.1 y.1
      let b := pAdd acc.1.2 y.2
      ((a.1, b.1), acc.2 + (if a.2 then 1 else 0) + (if b.2 then 1 else 0))) (x, 0)

/-- Where contributions to a statistic are held among those of collectives. -/
def statKey (key : Nat) : Nat := 2 ^ 32 + key
/-- The oldest contribution of each member to a statistic, in arrival order. -/
def State.statContribs (s : State) (key : Nat) : List Contrib :=
  (s.spar.contrib.filter (fun c => decide (c.key = statKey key))).foldl
    (fun l c => if l.any (fun x => decide (x.member = c.member)) then l else l ++ [c]) []

/-- A statistic is returned to the arrays; saturated sums set `acc_sat` (R68). -/
def returnStat (key : Nat) (sums : List (Nat × ((Word × Word) × Nat))) (s : State) : State :=
  let s := stick (sums.any (fun x => decide (x.2.2 ≠ 0))) 2 s
  { s with norm := mdel s.norm key
           normSum := mset s.normSum key (sums.foldl (fun m x => mset m x.1 x.2.1) (mgetD s.normSum key [])) }

/-- This device's sums are contributed, and sent to every other member. -/
def contributeStat (key : Nat) (sums : List (Nat × ((Word × Word) × Nat))) (s : State) : State :=
  let b := statBytes (sums.map (fun x => (x.1, x.2.1)))
  let s := stick (sums.any (fun x => decide (x.2.2 ≠ 0))) 2 s
  forEach s.otherMembers (fun m s => sendMsg m (Config.wireMessage msgStat key b) s)
    { s with spar := { s.spar with contrib := s.spar.contrib ++ [⟨statKey key, 0, s.spar.member, b, []⟩] } }

/-- R131, R345: across the devices of a group plan. The statistic waits until every member's sums have arrived. DEDUCED (log 62). -/
def combineStat (key : Nat) (sums : List (Nat × ((Word × Word) × Nat))) (s : State) : State :=
  let s := if (s.statContribs key).any (fun c => decide (c.member = s.spar.member)) then s else contributeStat key sums s
  let cs := s.statContribs key
  if (s.spar.member :: s.otherMembers).all (fun m => cs.any (fun c => decide (c.member = m))) then
    returnStat key (sums.map (fun x => (x.1, addStats (cs.filterMap (fun c => statIn c.bytes x.1)))))
      { s with spar := { s.spar with contrib := cs.foldl (fun l c => l.erase c) s.spar.contrib } }
  else s

/-- NORM_STAT_COMBINE: once every contributing array's partials are there, the hub adds them; the sums of a group plan go on to
the collective engine, and the arrays get the whole. -/
def execNormStatCombine (h slot : Nat) (s : State) : Host.Outcome State Fault Refusal :=
  .next (
    let key := h * 4096 + slot
    let parts := mgetD s.norm key []
    match s.plan h, parts with
    | some p, q :: _ =>
      let sc := match (s.arr q.array).cur with | some c => c.2 | none => 16
      if decide (slot < 4096) && (s.contributors p.plan sc h key).all (fun a => parts.any (fun x => decide (x.array = a))) then
        let rows := parts.foldl (fun l x => addOnce l x.row) []
        let sums := rows.map (fun b => (b, sumParts (parts.filter (fun x => decide (x.row = b)))))
        if p.plan.group && decide (s.spar.st ∈ [1, 2]) then combineStat key sums s else returnStat key sums s
      else s
    | _, _ => s)

/-- Has the hub still to return the statistic of a NORM_STAT word (R250)? -/
def State.normPending (s : State) (a h : Nat) (w : QWord) : Bool :=
  decide (wOp w = 0x24) && decide (wPostOp w = 0x1) && (mgetD s.norm (s.slotKey a h w) []).any (fun p => decide (p.array = a))

end Sys2Proof.Machine
end

