-- ==== Sys2Proof/Machine/Quant.lean ====
section
/-! DEFINITION. Sys2Proof/Machine/Quant.lean: the quantiser: scales, codes, checks, allowance, Vein rows, segment records and
releases (R73-R107, R246, R251, R532). -/

namespace Sys2Proof.Machine

/-! ## Scales -/

/-- qmax of a format (R75). -/
def qmaxOf (f4 : Bool) : Nat := if f4 then 6 else 7

/-- R79, R81: the LIVE scale of a max-abs. -/
def liveScale (qmax : Nat) (mx : Word) : Half := if fZero mx then 0x3F80 else bf16Up (fVal mx) (dy qmax)

/-- R80: the carried scale of a window's largest entry. -/
def carriedScale (q : QPoint) (m : Half) : Half :=
  if m.toNat = 0 then 0x3F80 else bf16Up ((bVal m).mul ⟨16 + q.headroomN, -4⟩) (dy (qmaxOf (decide (q.format = 1))))

/-- R80, R83: M of a window, or of the seed; `none` is a cold row. -/
def windowMax (q : QPoint) (hist : List Half) : Option Half :=
  match (hist.take q.windowK).filter (fun e => !decide (e = 0xFFFF)) with
  | [] => if q.seedMaxabs = 0 then none else some q.seedMaxabs
  | e :: l => some (l.foldl (fun m x => if m.toNat < x.toNat then x else m) e)

/-- R88: the underuse threshold is not reached: max-abs < s x u. -/
def underused (q : QPoint) (mx : Word) (s : Half) : Bool :=
  !fZero mx && decide (s ≠ 0x0080) && Dy.lt (fVal mx) ((bVal s).mul ⟨3 + 2 * q.underU, -1⟩)

/-! ## One segment -/

/-- Codes with their event counts (R84-R86). -/
structure Coded where
  codes : List Nat
  sat   : Nat
  inf   : Nat
  nan   : Nat

/-- The counts of coded elements. -/
def codedOf (l : List QElem) : Coded :=
  { codes := l.map (·.code), sat := l.countP (·.sat), inf := l.countP (·.inf), nan := l.countP (·.nan) }

/-- R84, R85, R98: a segment under a scale; elements at Vein channels give code 0. -/
def codeSeg (f4 : Bool) (s : Dy) (vein : List Nat) (l : List (Nat × Word)) : Coded :=
  codedOf (l.map (fun x => if x.1 ∈ vein then ⟨0, false, false, false⟩ else if f4 then quantF4 x.2 s else quantInt 4 7 x.2 s))

/-- R77: the max-abs of a segment. -/
def segMax (vein : List Nat) (l : List (Nat × Word)) : Word := maxAbs ((l.filter (fun x => !decide (x.1 ∈ vein))).map (·.2))

/-- How a segment leaves the quantiser (R88, R89, R105). -/
inductive SegOut where
  | live | cold | pass | ovf | under | denyOvf | denyUnder
deriving DecidableEq, Repr

/-- A segment's outcome. -/
structure SegRes where
  out   : SegOut
  scale : Half
  coded : Coded

/-- R79-R90: a segment of a row scale format. `carried` is the row's carried scale, `left` the allowance still to be drawn. -/
def quantSeg (q : QPoint) (carried : Option Half) (cold : Bool) (left : Nat) (vein : List Nat) (l : List (Nat × Word)) : SegRes :=
  let f4 := decide (q.format = 1)
  let mx := segMax vein l
  let live := liveScale (qmaxOf f4) mx
  let atLive := codeSeg f4 (bVal live) vein l
  match carried with
  | none => ⟨if cold then .cold else .live, live, atLive⟩
  | some s =>
    if fZero mx then ⟨.pass, live, atLive⟩
    else
      let c := codeSeg f4 (bVal s) vein l
      if q.satLimit < c.sat then (if 0 < left then ⟨.ovf, live, atLive⟩ else ⟨.denyOvf, s, c⟩)
      else if underused q mx s then (if 0 < left then ⟨.under, live, atLive⟩ else ⟨.denyUnder, s, c⟩)
      else ⟨.pass, s, c⟩

/-- R101-R103: the blocks of a BLOCK_F4 segment: codes, scale bytes, and the generator after them. -/
def blockF4 (stoch : Bool) (l : List Word) : Nat → Word → List QElem × Bytes × Word
  | 0, gen => ([], [], gen)
  | n + 1, gen =>
    let b := l.take 32
    let sc := pow2Scale (maxAbs b) 6
    let s := (ue8m0 sc).getD (dy 1)
    let r := b.foldl (fun (acc : List QElem × Word) x =>
      if stoch then
        let e := stochF4 x s acc.2
        (acc.1 ++ [e.1], e.2)
      else (acc.1 ++ [quantF4 x s], acc.2)) ([], gen)
    let t := blockF4 stoch (l.drop 32) n r.2
    (r.1 ++ t.1, sc :: t.2.1, t.2.2)

/-! ## Vein rows (R98-R100) -/

/-- The Vein row of a row: 64 bytes of codes, the scale, zeros; with its event counts. -/
def veinRow (chans : List Nat) (l : List (Nat × Word)) : Bytes × Coded :=
  let xs := chans.map (fun c => ((l.find? (fun x => decide (x.1 = c))).map (·.2)).getD 0)
  let mx := maxAbs xs
  let s := if fZero mx then (0x3F80 : Half) else bf16Up (fVal mx) (dy 127)
  let c := codedOf (xs.map (fun x => quantInt 8 127 x (bVal s)))
  (slice (c.codes.map (BitVec.ofNat 8)) 0 64 ++ toLE 2 s.toNat ++ List.replicate 62 0, c)

/-! ## A QUANT word -/

/-- R73: the quant point that a word names in this step. -/
def State.quantPoint (s : State) (x : At) : Option QPoint :=
  let slotOf (q : QPoint) : Nat := match x.p.plan.symbols[q.model]? with | some y => y.ident.toNat % 16 | none => 16
  match x.p.plan.qps (wf x.w 9 0) with
  | [] => none
  | [q] => some q
  | q :: l =>
    let rows := (List.range (wf x.w 17 10 + 1)).map (· + wf x.w 25 18)
    let bound := rows.findSome? (fun b => (s.rowStream x.h x.sc b).bind (fun i => (mget s.models.streams i).map (·.slot)))
    match bound.bind (fun m => (q :: l).find? (fun y => decide (slotOf y = m))) with
    | some y => some y
    | none => some (l.foldl (fun m y => if y.model < m.model then y else m) q)

/-- What a word has coded so far: allowance left, generator, counters by word of `HUB_QNT_CNT`, and releases with the blocks
of each and whether its codes are emitted after the fact. -/
structure QSt where
  left : Nat
  gen  : Word
  cnt  : NMap Nat
  rels : List (SegRel × Nat × Bool)

/-- The counter of an outcome (R105). -/
def SegOut.counter : SegOut → Option Nat
  | .ovf => some 3
  | .under => some 4
  | .denyOvf => some 5
  | .denyUnder => some 6
  | .cold => some 7
  | _ => none

/-- Counts into a map of counters. -/
def tallyAt (m : NMap Nat) (k n : Nat) : NMap Nat := mset m k (mgetD m k 0 + n)
/-- The counts of coded elements (R105). -/
def tallyCoded (m : NMap Nat) (c : Coded) : NMap Nat := tallyAt (tallyAt (tallyAt m 0 c.sat) 1 c.inf) 2 c.nan

/-- Does the outcome emit codes after the segment has wholly entered (R91)? -/
def SegOut.emits (o : SegOut) : Bool := decide (o ∈ [.live, .cold, .ovf, .under])

/-- One row through the quantiser: the word's state after it, and the reasons it gives the row's stream. -/
def quantRow (q : QPoint) (x : At) (stream : Option Nat) (hist : List Half) (b : Nat) (r : RowD) (st : QSt) : QSt × Half :=
  let w := x.w
  let nblk := wf w 36 26 + 1
  let part := wf w 47 37
  let len := if q.segBlocks = 0 then nblk else q.segBlocks
  let nseg := segCount q.segBlocks nblk
  let elems := (List.range (nblk * 32)).zip r.elems
  let chans := (q.vein.filter (fun c => decide (part * 32 ≤ c) && decide (c < (part + nblk) * 32))).map (· - part * 32)
  let win := if q.carried && stream.isSome then windowMax q hist else none
  let carried := win.map (carriedScale q)
  let cold := q.carried && stream.isSome && win.isNone
  let outRow := wf w 63 48 * 64 + b * units (nblk * 16)
  let segRow := wf w 79 64 * 64 + b * units (if q.format = 2 then nblk else 4 * nseg)
  (List.range nseg).foldl (fun (acc : QSt × Half) i =>
    let st := acc.1
    let first := i * len
    let n := min len (nblk - first)
    let seg := (elems.drop (first * 32)).take (n * 32)
    let codeOff := outRow + first * 16
    if q.format = 2 then
      let t := blockF4 q.stochastic (seg.map (·.2)) n st.gen
      let c := codedOf t.1
      let rel : SegRel := { index := x.idx, word := w, writes := [(codeOff, packCodes4 c.codes), (segRow + first, t.2.1)],
                            flags := r.flags, pend := none, last := false, time := 0 }
      ({ st with gen := t.2.2, cnt := tallyCoded st.cnt c, rels := st.rels ++ [(rel, n, true)] },
       acc.2 ||| (if c.nan ≠ 0 then nanSeen else 0))
    else
      let o := quantSeg q carried cold st.left chans seg
      let here := chans.any (fun c => decide (first * 32 ≤ c) && decide (c < (first + n) * 32))
      let v := veinRow chans elems
      let rec_ := toLE 4 (o.scale.toNat + (part + first + n - 1) * 65536)
      let writes := [(codeOff, packCodes4 o.coded.codes), (segRow + 4 * i, rec_)] ++ if here then [(wf w 95 80 * 64 + b * 128, v.1)] else []
      let cnt := tallyCoded st.cnt o.coded
      let cnt := if here then tallyCoded cnt v.2 else cnt
      let cnt := match o.out.counter with | some k => tallyAt cnt k 1 | none => cnt
      let rel : SegRel := { index := x.idx, word := w, writes := writes, flags := r.flags,
                            pend := if q.carried then stream.map (fun m => (m, q.qp, segMax chans seg)) else none, last := false, time := 0 }
      ({ st with left := if o.out = .ovf ∨ o.out = .under then st.left - 1 else st.left, cnt := cnt,
                 rels := st.rels ++ [(rel, n, o.out.emits)] },
       acc.2 ||| (if o.coded.nan + (if here then v.2.nan else 0) ≠ 0 then nanSeen else 0) ||| (if o.out = .denyOvf then scaleSat else 0)))
    (st, 0)

/-- R91: the cycle in which the next block may enter once a run of `n` blocks has, given the cycles in which none may. -/
def enterBlocks (busy : List (Nat × Nat)) : Nat → Nat → Nat
  | 0, t => t
  | n + 1, t => enterBlocks busy n (busy.foldl (fun t r => if r.1 ≤ t ∧ t < r.2 then r.2 else t) t + 1)

/-- How the quantiser stands: the cycle in which a block may enter, the cycles in which none may, and the end of the last emission. -/
structure QClock where
  next : Nat
  busy : List (Nat × Nat)
  free : Nat

/-- R91: the array cycle in which each segment is released. The blocks enter back to back from the first cycle that is free, those of
a word straight after the word's before it: DESIGN CHOICE (log 97), as no rule says when the post unit delivers them. -/
def releaseTimes : List (Nat × Bool) → QClock → List Nat × QClock
  | [], k => ([], k)
  | (n, emits) :: l, k =>
    let t := enterBlocks k.busy n k.next
    let last := t - 1
    if !emits then
      let r := releaseTimes l { k with next := t }
      ((last + 3) :: r.1, r.2)
    else
      let start := max (last + 4) (k.free + 1)
      let r := releaseTimes l ⟨t, k.busy ++ [(start, start + n)], start + n⟩
      ((start + n) :: r.1, r.2)

/-- A release put among others in order of time, those of one cycle in order of entry. -/
def insertRel (x : SegRel) : List SegRel → List SegRel
  | [] => [x]
  | y :: l => if x.time < y.time then x :: y :: l else y :: insertRel x l

/-- The releases of a word in the order in which they fall, the last one marked (R91, R251). -/
def orderReleases (l : List (SegRel × Nat × Bool)) (k : QClock) : List SegRel × QClock :=
  let r := releaseTimes (l.map (·.2)) k
  let o := ((r.1.zip (l.map (·.1))).foldl (fun acc x => insertRel { x.2 with time := x.1 } acc) [])
  ((List.range o.length).zip o |>.map (fun x => { x.2 with last := decide (x.1 + 1 = o.length) }), r.2)

/-- R87: the hold area of an array, its HOLD region. -/
def Plan.holdOf (p : Plan) (a : Nat) : List (Nat × Nat) :=
  (p.regions.filter (fun r => decide (r.array = a) && decide (r.kind = 1))).map (fun r => (r.offset, min r.length (storeBytes - r.offset)))

/-- R87: in CARRIED mode a word's blocks are kept in binary32 in the array's hold area. Where in it each stands is not said: the area
is left undefined. DESIGN CHOICE (log 97). -/
def holdBlocks (q : QPoint) (p : Plan) (a : Nat) (s : State) : State :=
  forEach (if q.carried then p.holdOf a else []) (fun r s => undefine (storeDva a r.1) r.2 s) s

/-- QUANT (R251): the element stream is coded at a quant point; what it writes is undefined until each segment's release. -/
def quantWord (a : Nat) (x : At) (q : QPoint) (s : State) : State :=
  let w := x.w
  let n := (wf w 36 26 + 1) * 32
  let r := s.arr a
  let posted (b : Nat) : RowD := match r.posted[b]? with
    | some y => { y with elems := (List.range n).map (fun i => (y.elems[i]?).getD (Config.freeEntry s.free (b * 65536 + i))) }
    | none => { elems := (List.range n).map (fun i => Config.freeEntry s.free (b * 65536 + i)), absent := [], flags := 0 }
  let res := (List.range (wf w 17 10 + 1)).foldl (fun (acc : QSt × List (Nat × Half)) b =>
    let stream := s.rowStream x.h x.sc (wf w 25 18 + b)
    let hist := match stream.bind (mget s.models.streams) with | some st => mgetD st.hist q.qp [] | none => []
    let y := quantRow q x stream hist b (posted b) acc.1
    (y.1, acc.2 ++ [(wf w 25 18 + b, (posted b).flags ||| y.2)])) ({ left := q.allowance, gen := r.gen, cnt := [], rels := [] }, [])
  let rels := orderReleases res.1.rels ⟨r.qNext, r.qBusy, r.qFree⟩
  let s := holdBlocks q x.p.plan a { s with free := s.free + 1 }
  let s := forEach rels.1 (fun e s => forEach e.writes (fun p s => undefine (storeDva a p.1) p.2.length s) s) s
  let s := forEach res.1.cnt (fun p s => countBy (qntCnt a p.1) p.2 s) s
  let s := stick (decide (mgetD res.1.cnt 2 0 ≠ 0)) 1 s
  let s := forEach res.2 (fun p s => flagRow x.h x.sc p.1 p.2 s) s
  advance (.exec a) (updArr a (fun r => { r with
    gen := res.1.gen, rel := rels.1.foldl (fun l x => insertRel x l) r.rel, qNext := rels.2.next, qBusy := rels.2.busy, qFree := rels.2.free }) s)

/-- QUANT. -/
def execQuant (a : Nat) (s : State) : Host.Outcome State Fault Refusal :=
  .next (withWord (.exec a) 0x25 (fun x s => match s.quantPoint x with
    | some q => quantWord a x q s
    | none => engineFault x.h a x.idx s) s)

/-- R95: a pending maximum of a step takes a segment's max-abs. -/
def pendMax (h sc stream qp : Nat) (m : Word) (s : State) : State :=
  updStep h sc (fun x =>
    let old := mgetD x.pend (stream * 1024 + qp) 0
    { x with pend := mset x.pend (stream * 1024 + qp) (if old.toNat < m.toNat then m else old) }) s

/-- QUANT_SEGMENT_RELEASE (R91): the next segment's codes, scale and Vein row become visible, and its signal follows. -/
def execQuantSegmentRelease (a : Nat) (s : State) : Host.Outcome State Fault Refusal :=
  .next (match (s.arr a).rel, s.holder a with
    | e :: rest, some (h, sc, _) =>
      let s := updArr a (fun r =>
        if rest = [] then { r with rel := [], qNext := 0, qBusy := [], qFree := 0 } else { r with rel := rest, qNext := max r.qNext e.time }) s
      let s := forEach e.writes (fun p s => putStore a p.1 p.2 e.flags s) s
      let s := match e.pend with | some p => pendMax h sc p.1 p.2.1 p.2.2 s | none => s
      if wX e.word || e.last then sigOf h e.word s else s
    | _, _ => s)

end Sys2Proof.Machine
end

