-- ==== Sys2Proof/Machine/Move.lean ====
section
/-! DEFINITION. Sys2Proof/Machine/Move.lean: the words that move data, SEND, RECV, COLLECTIVE and STREAM_IO, and the
completion of every word that takes time (R253-R257, R299, R344-R347). A word takes its data as it issues and delivers it as
it completes. -/

namespace Sys2Proof.Machine

/-! ## Messages over Spar -/

/-- The key of a codec word of an engine (R279). -/
def codecKey (eng idx : Nat) : Nat := eng * 2 ^ 24 + idx

/-- Data for members, through the codec where the word says so (R268, R278): every copy is coded with the word's key table, and
the table of the data becomes it when the transfer ends. `kind`, `place` and the uncoded `head` as in `readMessage`. -/
def sendData (h eng idx : Nat) (ms : List Nat) (codec : Bool) (kind place : Nat) (head data : Bytes) (s : State) : State :=
  if codec then
    let key := codecKey eng idx
    let t := s.keyTable h key data
    setKey h key data (forEach ms (fun m s =>
      let r := linkBlocks t m (s.linkInst m) data s
      sendMsg m (Config.wireMessage kind place (head ++ r.1.flatten)) r.2) s)
  else forEach ms (fun m s => sendMsg m (Config.wireMessage kind place (head ++ data)) s) s

/-- Has every flit of a channel message left the device for good: none waits, and none awaits its acknowledgement? -/
def State.msgGone (s : State) (dst seq : Nat) : Bool :=
  let of (f : TxFlit) : Bool := decide (f.typ = 1) && decide (f.dst = dst) && decide (f.src = s.spar.member) && decide (f.chanSeq = seq)
  !s.spar.waiting.any of && !s.spar.ports.any (fun p => p.2.replay.any (fun r => of r.2))

/-! ## SEND (R253, R299) -/

/-- Bytes written at an address of the range, with the reasons they carry. -/
def putDva (a : Nat) (b : Bytes) (fl : Half) (s : State) : State :=
  overRam a (if fl = 0 then 0 else b.length) (fun k n s => addTaint k n fl s) (planWrite a b s)

/-- Bytes of which some runs, by offset and length, carry reasons. -/
def putMarks (a : Nat) (b : Bytes) (marks : List (Nat × Nat × Half)) (s : State) : State :=
  forEach marks (fun m s => overRam (a + m.1) m.2.1 (fun k n s => addTaint k n m.2.2 s) s) (putDva a b 0 s)

/-- The reasons of a run of bytes of which some runs carry them. -/
def marksOn (marks : List (Nat × Nat × Half)) (off n : Nat) : Half :=
  marks.foldl (fun f m => if decide (m.1 < off + n) && decide (off < m.1 + m.2.1) then f ||| m.2.2 else f) 0

/-- R299: one record appended to a KV object as token `t`. -/
def putToken (o : Obj) (t : Nat) (rec_ : Bytes) (fl : Half) (s : State) : State :=
  forUpto o.kvH (fun g s =>
    let base := o.dva + t / 128 * o.kvH * 17152 + g * 17152
    let b := slice rec_ (132 * g) 132
    putDva (base + 16896 + 2 * (t % 128)) (slice b 130 2) fl
      (putDva (base + 8704 + 64 * (t % 128)) (slice b 66 64) fl
        (putDva (base + 68 * (t % 128)) (slice b 0 66 ++ [0, 0]) fl s))) s

/-- R299: a batch row's record is appended to its stream's object of the KV set, unless it is full. -/
def appendRow (h sc sym b : Nat) (data : Bytes) (marks : List (Nat × Nat × Half)) (s : State) : State :=
  match s.rowStream h sc b with
  | none => s
  | some i => match mget s.models.streams i with
    | none => s
    | some st => match (mget st.kv sym).bind s.obj with
      | none => s
      | some o =>
        let n := alignUp (o.kvH * 132) 16
        if data.length < (b + 1) * n then s
        else
          let t := st.written sym
          if o.kvC ≤ t then flagStream h sc i kvFallback (count (memCnt 3) s)
          else updStream i (fun st => { st with appended := mset st.appended sym (mgetD st.appended sym 0 + 1) })
            (putToken o t (slice data (b * n) n) (marksOn marks (b * n) n) s)

/-- The runs of `n` bytes that carry one set of reasons throughout. -/
def marksAll (n : Nat) (fl : Half) : List (Nat × Nat × Half) := if fl = 0 then [] else [(0, n, fl)]

/-- Is a SEND sent to another device? -/
def sendRemote (w : QWord) : Bool := decide (wf w 50 50 = 1)

/-- Is a SEND's data coded into the board tier of this device (R283)? -/
def sendStored (w : QWord) : Bool := decide (wf w 51 51 = 1) && !sendRemote w

/-- Where a remote SEND's data goes on its destination, as the kind and place of a message (log 32). -/
def sendPlace (h sc : Nat) (p : Plan) (w : QWord) : Nat × Nat :=
  let off := wf w 73 54
  match wf w 53 52 with
  | 0 => (msgAddr, storeDva (wf w 43 38) (off * 64))
  | 1 => (msgAddr, off * 64)
  | _ => match p.blocks[off]? with
    | some e => if p.symKind e.sym = some 3 then (msgAppend, (h * 16 + sc) * 2 ^ 20 + e.sym) else (msgAddr, p.symDva e.sym + e.offset)
    | none => (msgAddr, 0)

/-- R200, R253: the oldest remote SEND of an array whose data has not left sends it, once the FABRIC class's bucket has held the
whole of it, request by request. -/
def fabricSend (h sc a : Nat) (p : Plan) (s : State) : State :=
  match (s.arr a).prog.find? InProg.unsent with
  | none => s
  | some i =>
    let w := i.word
    let n := wf w 37 16 * 1000
    let have_ := (s.arr a).tokensAt 4 (p.reg a 4).2 s.tbu.now
    let s := countWait h (mgetD (s.arr a).filled 4 0) (min s.tbu.now ((s.arr a).fullAt 4 n)) s
    if have_ < n then s
    else
      let m := wf w 49 44
      let seq := mgetD s.spar.chanTx m 0
      let at_ := sendPlace h sc p w
      let s := updArr a (fun r => { r with
        prog := r.prog.map (fun j => if j.index = i.index then { j with order := [seq] } else j)
        tokens := mset r.tokens 4 (have_ - n), filled := mset r.filled 4 s.tbu.now }) s
      sendData h a i.index [m] (decide (wf w 51 51 = 1)) at_.1 at_.2 [] i.data s

/-- Every remote SEND of an array whose tokens are there sends its data, oldest first. -/
def fabricSends (a : Nat) (s : State) : State :=
  match s.holder a with
  | some (h, sc, p) => forUpto ((s.arr a).prog.countP InProg.unsent) (fun _ s => fabricSend h sc a p.plan s) s
  | none => s

/-- R253, R257: a SEND's data is visible at its destination: written there, or, on another device, sent and acknowledged; `none`
while it is not. -/
def deliverSend (h sc a : Nat) (i : InProg) (p : Plan) (s : State) : Option State :=
  let w := i.word
  let off := wf w 73 54
  if sendRemote w then
    match i.order with
    | seq :: _ => if s.msgGone (wf w 49 44) seq then some s else none
    | [] => none
  else some (match wf w 53 52 with
    | 0 => putStore (wf w 43 38) (off * 64) i.data i.flags s
    | 1 => putDva (off * 64) i.data i.flags s
    | _ => match p.blocks[off]? with
      | none => s
      | some e =>
        let dva := p.symDva e.sym + e.offset
        if p.symKind e.sym = some 3 then
          forUpto 256 (fun b s => appendRow h sc e.sym b i.data (marksAll i.data.length i.flags) s) s
        else if sendStored w then finishCoded a i.index (p.symDva e.sym) dva i.data (fun d b s => putDva d b i.flags s) s
        else putDva dva i.data i.flags s)

/-- R200, R284: what a SEND starts as it issues: a board-tier write through the codec selects its table-store entry, and the
FABRIC class's bucket is brought up to date unless an earlier SEND still waits for it. -/
def startSend (x : At) (data : Bytes) (s : State) : State :=
  if sendRemote x.w then
    if (s.arr x.a).prog.any InProg.unsent then s else refill x.a 4 (x.p.plan.reg x.a 4).2 s
  else if sendStored x.w then
    match x.p.plan.blocks[wf x.w 73 54]? with
    | some e => if x.p.plan.symKind e.sym = some 3 then s else startCoded x.h x.sc x.a x.idx e.table data s
    | none => s
  else s

/-- SEND. -/
def execSend (a : Nat) (s : State) : Host.Outcome State Fault Refusal :=
  .next (withWord (.exec a) 0x26 (fun x s =>
    let off := wf x.w 15 0 * 64
    let n := wf x.w 37 16
    let data := s.storeRd a off n
    let fl := s.taintOf (storeDva a off) n
    fabricSends a (issue (.exec a) { InProg.plain x with data := data, flags := fl } (startSend x data s))) s)

/-- RECV (R254). -/
def execRecv (a : Nat) (s : State) : Host.Outcome State Fault Refusal :=
  .next (withWord (.exec a) 0x27 (fun x s =>
    let off := wf x.w 15 0 * 64
    let n := wf x.w 37 16
    let src := wf x.w 43 38
    issue (.exec a) { InProg.plain x with data := s.storeRd src off n, flags := s.taintOf (storeDva src off) n } s) s)

/-! ## COLLECTIVE (R129, R344-R347) -/

/-- Bytes of hub SRAM. -/
def State.hubRd (s : State) (off n : Nat) : Bytes := (List.range n).map (fun i => s.ramAt (off + i))

/-- The order in which n contributions are added: free among all orders (R129). -/
def addOrder (draw n : Nat) : List Nat :=
  let l := Config.arrivalOrder draw n
  if decide (l.length = n) && (List.range n).all (fun i => decide (i ∈ l)) then l else List.range n

/-- The sum of the contributions to one element, in the order of arrival that a draw stands for, each add rounded (R129, R345). -/
def sumFree (draw : Nat) (xs : List Word) : Word :=
  match addOrder draw xs.length with
  | [] => 0
  | m :: rest => rest.foldl (fun acc k => (pAdd acc (xs.getD k 0)).1) (xs.getD m 0)

/-- The binary32 elements `lo` to `hi - 1` of a buffer. -/
def elemsOf (b : Bytes) (lo hi : Nat) : List Word := (List.range (hi - lo)).map (fun j => BitVec.ofNat 32 (u b (4 * (lo + j)) 4))
/-- A buffer with elements written from `lo` on. -/
def putElems (b : Bytes) (lo : Nat) (ws : List Word) : Bytes := b.take (4 * lo) ++ wordBytes ws ++ b.drop (4 * (lo + ws.length))

/-- R62, R346: elements as they cross the wire, bfloat16 unless `wire32` is set, and how many conversions saturate. -/
def toWire (wire32 : Bool) (ws : List Word) : Bytes × Nat :=
  if wire32 then (wordBytes ws, 0)
  else
    let h := ws.map toBf16
    (h.flatMap (fun x => toLE 2 x.1.toNat), h.countP (·.2))
/-- R346: elements as they arrive, widened exactly. -/
def fromWire (wire32 : Bool) (b : Bytes) : List Word :=
  if wire32 then elemsOf b 0 (b.length / 4) else (List.range (b.length / 2)).map (fun j => bWide (BitVec.ofNat 16 (u b (2 * j) 2)))

/-- The first element of part `j` of `n` parts of `e` elements (R345). -/
def partLo (e n j : Nat) : Nat := cdiv (j * e) n

/-- One round of a TORUS all-reduce on a member (R345): the neighbour it sends to and the elements it sends, the neighbour it takes a
message from and the elements that message is for, and whether they are added. -/
structure RingRound where
  dst    : Nat
  out    : Nat × Nat
  src    : Nat
  into   : Nat × Nat
  adds   : Bool
deriving DecidableEq, Repr

/-- R345: round `t` of the four passes on the member at x, y of R rows and C columns: a reduce pass along x over C chunks, one along y
over R parts of the member's chunk, and the gather passes back. The ring runs in the + direction: DESIGN CHOICE (log 101). -/
def ringRound (r c x y e t : Nat) : RingRound :=
  let nx := c - 1
  let ny := r - 1
  let chunk (k : Nat) : Nat × Nat := (partLo e c (k % c), partLo e c (k % c + 1))
  let mine := chunk (x + 1)
  let part (k : Nat) : Nat × Nat := (mine.1 + partLo (mine.2 - mine.1) r (k % r), mine.1 + partLo (mine.2 - mine.1) r (k % r + 1))
  let alongX (a b : Nat × Nat) (adds : Bool) : RingRound := ⟨(x + 1) % c + y * c, a, (x + c - 1) % c + y * c, b, adds⟩
  let alongY (a b : Nat × Nat) (adds : Bool) : RingRound := ⟨x + (y + 1) % r * c, a, x + (y + r - 1) % r * c, b, adds⟩
  if t < nx then alongX (chunk (x + c - t)) (chunk (x + 2 * c - t - 1)) true
  else if t < nx + ny then let v := t - nx; alongY (part (y + r - v)) (part (y + 2 * r - v - 1)) true
  else if t < nx + 2 * ny then let v := t - nx - ny; alongY (part (y + 1 + r - v)) (part (y + r - v)) false
  else let v := t - nx - 2 * ny; alongX (chunk (x + 1 + c - v)) (chunk (x + c - v)) false

/-- The rounds of messages that an all-reduce takes on a member: two in a MESH, one by one along the rings in a TORUS (R345). -/
def State.redRounds (s : State) : Nat := if s.spar.torus then 2 * (s.spar.cols - 1) + 2 * (s.spar.rows - 1) else 2

/-- The descriptor that the words of one operation must share: op, wire32, codec, root and length (R347). -/
def collDesc (w : QWord) : Bytes := toLE 8 (wf w 1 0 + wf w 3 3 * 4 + wf w 4 4 * 8 + wf w 13 8 * 16 + wf w 95 68 * 1024)

/-- The number of a step's collective: bits [15:0] of the step number and its index in the step (R347). -/
def collNumber (k idx : Nat) : Nat := k % 65536 * 65536 + idx % 65536

/-- The contributions held for one operation. -/
def State.contribs (s : State) (key num : Nat) : List Contrib :=
  s.spar.contrib.filter (fun c => decide (c.key = key) && decide (c.num = num))

/-- R347: a mismatch, as this member sees it or is told of it: counted and recorded, and the plan halts, once. -/
def noteMismatch (h : Nat) (s : State) : State :=
  match s.plan h with
  | some p => if p.active then haltPlan h (record .ct 0x0304 { detail := detEngine 64 0 h, planId := p.plan.planId } (count 0x60048 s)) else s
  | none => s

/-- R347: the words of one operation disagree: the plan halts on every member. -/
def collMismatch (h : Nat) (s : State) : State := noteMismatch h (toOthers (.mismatch h) s)

/-- R345, R346: what an all-reduce sends in its round `i.freed`. In a MESH, first every other member its chunk of this member's
contribution, then the reduced chunk to all; in a TORUS, a part to the next member of the ring. A gather pass leaves here too what went
through the conversion. The engine is no array: what its conversions saturate counts in array 0's word (log 98). -/
def sendRound (h sc : Nat) (i : InProg) (s : State) : InProg × State :=
  let w := i.word
  let wire32 := decide (wf w 3 3 = 1)
  let e := wf w 95 68 / 4
  let place := (h * 16 + sc) * 2 ^ 32 + i.order.headD 0
  let send (m : Nat) (b : Bytes × Nat) (s : State) : State :=
    bf16Sats 0 b.2 (sendData h 64 i.index [m] false msgContrib place (collDesc w) b.1 s)
  let keep (lo : Nat) (b : Bytes × Nat) : InProg := { i with data := putElems i.data lo (fromWire wire32 b.1) }
  if s.redRounds ≤ i.freed then (i, s)
  else if s.spar.torus then
    let g := ringRound s.spar.rows s.spar.cols (s.spar.member % s.spar.cols) (s.spar.member / s.spar.cols) e i.freed
    let b := toWire wire32 (elemsOf i.data g.out.1 g.out.2)
    (if g.adds then i else keep g.out.1 b, send g.dst b s)
  else
    let l := s.groupList
    let n := l.length
    let me := l.findIdx (· = s.spar.member)
    if i.freed = 0 then
      (i, forEach ((List.range n).zip l) (fun x s =>
        if x.2 = s.spar.member then s else send x.2 (toWire wire32 (elemsOf i.data (partLo e n x.1) (partLo e n (x.1 + 1)))) s) s)
    else
      let b := toWire wire32 (elemsOf i.data (partLo e n me) (partLo e n (me + 1)))
      (keep (partLo e n me) b, bf16Sats 0 b.2
        (sendData h 64 i.index (l.filter (· ≠ s.spar.member)) false msgContrib place (collDesc w) b.1 s))

/-- The oldest message held from a member for one operation. -/
def State.heldMsg (s : State) (key num m : Nat) : Option Contrib := (s.contribs key num).find? (fun c => decide (c.member = m))

/-- The first message of each of the members is taken out. -/
def takeMsgs (cs : List Contrib) (s : State) : State :=
  { s with spar := { s.spar with contrib := cs.foldl (fun l c => l.erase c) s.spar.contrib } }

/-- R345: an all-reduce takes the messages of its round once they are there, and sends the next; `none` while one is missing. -/
def takeRound (h sc : Nat) (i : InProg) (s : State) : Option (InProg × State) :=
  let w := i.word
  let wire32 := decide (wf w 3 3 = 1)
  let e := wf w 95 68 / 4
  let key := h * 16 + sc
  let num := i.order.headD 0
  let body (c : Contrib) : List Word := fromWire wire32 (c.bytes.drop 8)
  let next (i : InProg) (s : State) : Option (InProg × State) := some (sendRound h sc { i with freed := i.freed + 1 } s)
  if s.redRounds ≤ i.freed then none
  else if s.spar.torus then
    let g := ringRound s.spar.rows s.spar.cols (s.spar.member % s.spar.cols) (s.spar.member / s.spar.cols) e i.freed
    match s.heldMsg key num g.src with
    | none => none
    | some c =>
      let old := elemsOf i.data g.into.1 g.into.2
      let new := if g.adds then ((body c).zip old).map (fun x => (pAdd x.1 x.2).1) else body c
      next { i with data := putElems i.data g.into.1 new } (takeMsgs [c] s)
  else
    let l := s.groupList
    let n := l.length
    let me := l.findIdx (· = s.spar.member)
    let cs := l.map (fun m => if m = s.spar.member then none else s.heldMsg key num m)
    if (l.zip cs).any (fun x => decide (x.1 ≠ s.spar.member) && x.2.isNone) then none
    else
      let t := takeMsgs (cs.filterMap id) s
      if i.freed = 0 then
        let lo := partLo e n me
        let own := elemsOf i.data lo (partLo e n (me + 1))
        let parts := cs.map (fun c => match c with | some x => body x | none => own)
        let sums := (List.range own.length).map (fun j => sumFree (s.free * 2 ^ 32 + j) (parts.map (fun p => p.getD j 0)))
        next { i with data := putElems i.data lo sums } { t with free := t.free + 1 }
      else
        let data := ((List.range n).zip cs).foldl (fun b x => match x.2 with
          | some c => putElems b (partLo e n x.1) (body c)
          | none => b) i.data
        next { i with data := data } t

/-- COLLECTIVE: the contribution is taken; between members an all-reduce sends its first round, the other operations send it whole. -/
def execCollective (h sc : Nat) (s : State) : Host.Outcome State Fault Refusal :=
  .next (withWord (.coll h sc) 0x30 (fun x s =>
    let w := x.w
    let src := wf w 41 16
    let len := wf w 95 68
    if wf w 2 2 = 0 then
      let n := len * x.p.plan.arrayList.length
      issue (.coll h sc) { InProg.plain x with data := s.hubRd src n, flags := s.taintOf src n } s
    else
      let k := match s.stepOf h sc with | some y => y.k | none => 0
      let num := collNumber k (mgetD x.p.collIdx sc 0)
      let key := h * 16 + sc
      let data := s.hubRd src len
      let s := updPlan h (fun p => { p with collIdx := mset p.collIdx sc (mgetD p.collIdx sc 0 + 1) }) s
      let own : Contrib := ⟨key, num, s.spar.member, collDesc w ++ data, (s.marksIn src len).map (fun m => (8 + m.1, m.2))⟩
      let s := { s with spar := { s.spar with contrib := s.spar.contrib ++ [own] } }
      let i : InProg := { InProg.plain x with order := [num], data := data }
      let r := if wf w 1 0 = 0 then sendRound h sc i s
        else if decide (wf w 1 0 = 1) || decide (wf w 13 8 = s.spar.member) then
          (i, sendData h 64 x.idx s.otherMembers (decide (wf w 4 4 = 1)) msgContrib (key * 2 ^ 32 + num) (collDesc w) data s)
        else (i, s)
      if (s.contribs key num).any (fun c => decide (c.bytes.take 8 ≠ collDesc w)) then collMismatch h r.2
      else issue (.coll h sc) r.1 r.2) s)

/-- R345: an all-reduce of a hub engine goes through the rounds whose messages are there. -/
def runRounds (h sc idx : Nat) : Nat → State → State
  | 0, s => s
  | n + 1, s =>
    match (s.progOf (.coll h sc)).find? (fun i => decide (i.index = idx)) with
    | some i =>
      if decide (wf i.word 1 0 = 0) && decide (wf i.word 2 2 = 1) then
        match takeRound h sc i s with
        | some r => runRounds h sc idx n (updColl h sc (fun x => { x with prog := x.prog.map (fun j => if j.index = idx then r.1 else j) }) r.2)
        | none => s
      else s
    | none => s

/-- The contributions of a word in rank order, once each that the operation needs is there. -/
def State.collReady (s : State) (h sc : Nat) (i : InProg) : Option (List Contrib) :=
  let cs := s.contribs (h * 16 + sc) (i.order.headD 0)
  let need := if wf i.word 1 0 = 2 then [wf i.word 13 8] else s.groupList
  if need.all (fun m => cs.any (fun c => decide (c.member = m))) then some (need.filterMap (fun m => cs.find? (fun c => decide (c.member = m))))
  else none

/-- The runs of a result that carry reasons: a gathered contribution's at its place, the others' where they lie (R286). -/
def collMarks (gather : Bool) (len : Nat) (cs : List Contrib) : List (Nat × Nat × Half) :=
  ((List.range cs.length).zip cs).flatMap (fun c =>
    c.2.marks.map (fun m => (m.1 - 8 + (if gather then c.1 * len else 0), m.2)))

/-- The result at `dst` of a collective whose contributions, in rank order, are all there (R344). An all-reduce among a device's arrays
adds them in a free order (R129). -/
def collResult (w : QWord) (draw : Nat) (cs : List Bytes) : Bytes :=
  match wf w 1 0 with
  | 0 => wordBytes ((List.range (wf w 95 68 / 4)).map (fun j =>
      sumFree (draw * 2 ^ 32 + j) (cs.map (fun c => BitVec.ofNat 32 (u c (4 * j) 4)))))
  | 1 => cs.flatten
  | _ => cs.headD []

/-- A collective's result is written; `none` while a contribution, or a round of an all-reduce between members, is missing. -/
def finishColl (h sc : Nat) (i : InProg) (arrays : Nat) (s : State) : Option State :=
  let w := i.word
  let len := wf w 95 68
  let dst := wf w 67 42
  let key := h * 16 + sc
  let num := i.order.headD 0
  let ended (s : State) : State :=
    { s with spar := { s.spar with contrib := s.spar.contrib.filter (fun c => !(decide (c.key = key) && decide (c.num = num))) } }
  if wf w 2 2 = 0 then
    let cs := (List.range arrays).map (fun j => slice i.data (j * len) len)
    some (putDva dst (collResult w s.free cs) i.flags { s with free := s.free + 1 })
  else if wf w 1 0 = 0 then
    if i.freed < s.redRounds then none
    else some (putMarks dst i.data (collMarks false len ((s.heldMsg key num s.spar.member).toList)) (ended s))
  else (s.collReady h sc i).map (fun cs =>
    putMarks dst (collResult w s.free (cs.map (fun c => c.bytes.drop 8))) (collMarks (decide (wf w 1 0 = 1)) len cs) (ended s))

/-! ## STREAM_IO (R256) -/

/-- The arrays of a STREAM_IO word. -/
def ioArrays (w : QWord) (p : Plan) : List Nat := if wf w 8 8 = 1 then p.arrayList else [wf w 7 2]

/-- STREAM_IO. -/
def execStreamIo (h sc : Nat) (s : State) : Host.Outcome State Fault Refusal :=
  .next (withWord (.strm h sc) 0x31 (fun x s => issue (.strm h sc) (.plain x) s) s)

/-- R204, R256: the `n` bytes of a row without input: zero codes, and segment records of scale 1.0 (R246). -/
def idleRow (n : Nat) : Bytes :=
  (Config.idleRecords n).foldl (fun b r =>
    if r.1 + 4 ≤ n then b.take r.1 ++ toLE 2 0x3F80 ++ toLE 2 (r.2 % 4096) ++ b.drop (r.1 + 4) else b) (List.replicate n 0)

/-- IN: one batch row of one array. -/
def ioIn (h sc a off n b : Nat) (s : State) : State :=
  let input := ((s.rowStream h sc b).bind (mget s.models.streams)).bind (·.input)
  putStore a off (match input with | some x => slice x.data 0 n | none => idleRow n) 0 s

/-- Output of a stream, to host memory or a DVA. -/
def putStream (st : Stream) (b : Bytes) (s : State) : State :=
  let b := b.take (st.outLen - st.outPos)
  if b = [] then s else if st.outDva then planWrite (st.outAddr + st.outPos) b s else emit (.hostWrite (st.outAddr + st.outPos) b) s

/-- OUT: one batch row of one array goes after what the stream's buffer has taken in the step. -/
def ioOut (h sc a off n b : Nat) (s : State) : State :=
  match s.rowStream h sc b with
  | none => s
  | some i => match mget s.models.streams i with
    | none => s
    | some st =>
      let s := putStream st (s.storeRd a off n) s
      flagStream h sc i (s.taintOf (storeDva a off) n) (updStream i (fun st => { st with outPos := st.outPos + n }) s)

/-- A STREAM_IO word moves its rows. -/
def moveRows (h sc : Nat) (w : QWord) (p : Plan) (s : State) : State :=
  let n := wf w 56 41 * 16
  forUpto (wf w 24 17 + 1) (fun r s =>
    forEach (ioArrays w p) (fun a s =>
      let off := wf w 40 25 * 64 + r * units n
      let b := wf w 16 9 + r
      if wf w 1 0 = 0 then ioIn h sc a off n b s else ioOut h sc a off n b s) s) s

/-! ## WORD_COMPLETION (R257) -/

/-- A word leaves the words in progress of its engine. -/
def dropProg (e : EngineId) (idx : Nat) (s : State) : State :=
  let out (l : List InProg) : List InProg := l.filter (fun i => decide (i.index ≠ idx))
  match e with
  | .fetch _ => s
  | .exec a => updArr a (fun r => { r with prog := out r.prog }) s
  | .coll h sc => settleHub h sc (updColl h sc (fun x => { x with prog := out x.prog }) s)
  | .strm h sc => settleHub h sc (updStrm h sc (fun x => { x with prog := out x.prog }) s)

/-- What a word of an array does as it completes; `none` while it cannot. -/
def completeWord (a h sc : Nat) (p : PlanRt) (i : InProg) (s : State) : Option State :=
  let w := i.word
  if isSweep w && wPort w then (if s.portDone a i then some (portSweep a i s) else none)
  else if isSweep w then (if s.sweepApplied a i then some s else none)
  else if s.normPending a h w then none
  else if wOp w = 0x26 then deliverSend h sc a i p.plan s
  else if wOp w = 0x27 then some (putStore a (wf w 59 44 * 64) i.data i.flags s)
  else some s

/-- WORD_COMPLETION: a word in progress completes, and its counter is signalled where `SIG` is set. A remote SEND that has its
tokens by now sends its data, and completes once that has arrived. -/
def execWordCompletion (e : EngineId) (index : Nat) (s : State) : Host.Outcome State Fault Refusal :=
  .next (
    let s := match e with
      | .exec a => fabricSends a (flushLatch a 3 s)
      | .coll h sc => runRounds h sc index (s.spar.contrib.length + 1) s
      | _ => s
    match (s.progOf e).find? (fun i => decide (i.index = index)) with
    | none => s
    | some i => match e with
      | .fetch _ => s
      | .exec a => match s.holder a with
        | some (h, sc, p) => match completeWord a h sc p i s with
          | some t => sigOf h i.word (dropProg e index t)
          | none => s
        | none => s
      | .coll h sc => match s.plan h with
        | some p => match finishColl h sc i p.plan.arrayList.length s with
          | some t => sigOf h i.word (dropProg e index t)
          | none => s
        | none => s
      | .strm h sc => match s.plan h with
        | some p => sigOf h i.word (dropProg e index (moveRows h sc i.word p.plan s))
        | none => s)

end Sys2Proof.Machine
end

