-- ==== Sys2Proof/Machine/SlateEvents.lean ====
section
/-! DEFINITION. Sys2Proof/Machine/SlateEvents.lean: what the Slate controllers do of themselves: slots, line reads,
reconstructions, programs, erases, checkpoints, relocations, scrub, wear levelling and GC (chapter 05, R435). -/

namespace Sys2Proof.Machine

/-- May an array's Slate be read, programmed and erased: its stack has mounted normally (R178)? A command for an array
whose stack has not changes nothing. -/
def ifMounted (a : Nat) (k : State → State) (s : State) : State := if s.mountedAt a then k s else s

/-! ## Plan reads (R115, R116) -/

/-- Does any cell in service truly read a line: mapped, not lost, its sub-bank not failed (R140, R156, R158, R533)? -/
def State.readsLine (s : State) (a : Nat) (d : Desc) (k lb ln : Nat) : Bool :=
  ((s.cellsOf a d).filter (fun c => !decide (c ∈ (s.arr a).excl))).any (fun c =>
    let b := s.sb (sbKey a c k)
    mhas b.map lb && !b.failed && !decide (lb * 256 + ln ∈ b.lost))

/-- R115: the sub-bank's next unread line of the sweep that issues its reads, if the sub-bank has no line in flight or waiting in
its read register, and a latch position will be free when the slot ends. -/
def State.nextRead (s : State) (a k ends : Nat) : Option SweepLine :=
  match (s.arr a).prog.find? (fun i => isSweep i.word && !wPort i.word && !s.readsIssued a i) with
  | none => none
  | some i =>
    let d := s.descOf a (wDesc i.word)
    match ((sweepLines i.word d).filter (fun l => decide ((d.place l).1 = k)))[mgetD i.issued k 0]? with
    | none => none
    | some l =>
      if (s.arr a).io.any (fun e => decide (e.k = k)) || !s.positionFree a ends then none
      else some { idx := i.index, k := k, seqL := l, comes := ends, ends := ends, ended := false, waits := [], fixed := [], fin := none }

/-- R115, R180: a plan read is issued. -/
def issueRead (a : Nat) (e : SweepLine) (s : State) : State :=
  let d := match (s.arr a).prog.find? (fun i => decide (i.index = e.idx)) with
    | some i => s.descOf a (wDesc i.word)
    | none => s.descOf a 0
  let p := d.place e.seqL
  let s := if s.readsLine a d e.k (p.2 / 256) (p.2 % 256) then countGroup a e.k (p.2 / 256) s else s
  updProg a e.idx (fun x => { x with issued := mset x.issued e.k (mgetD x.issued e.k 0 + 1) })
    (updArr a (fun r => { r with io := r.io ++ [e] }) s)

/-! ## Stripe reads (R147, R149, R150, R153) -/

/-- Sub-banks whose stripe line a reconstruction needs: the others of the cell that have not failed (R149, R158). -/
def State.reconNeeds (s : State) (r : Recon) : List Nat :=
  (List.range 9).filter (fun j => decide (j ≠ r.k) && !(s.sb (sbKey r.array r.cell j)).failed)

/-- Have all the stripe reads of a reconstruction been made? -/
def State.reconRead (s : State) (r : Recon) : Bool := (s.reconNeeds r).all (fun j => decide (j ∈ r.read))

/-- The reconstructions of an array that make stripe reads now, one in each cell: the earliest, and a plan's before those of
maintenance reads, which are bound to no time (R150, R153). DEDUCED (log 89). -/
def State.frontRecons (s : State) (a : Nat) : List Recon :=
  let l := s.slate.recons.filter (fun r => decide (r.array = a) && !s.reconRead r)
  (l.filter (·.plan) ++ l.filter (fun r => !r.plan)).foldl
    (fun acc r => if acc.any (fun x => decide (x.cell = r.cell)) then acc else acc ++ [r]) []

/-- The reconstructions that take a slot of sub-bank `k` which begins at `t`; those of maintenance reads take maintenance slots
only (R149, R153). -/
def State.stripeReads (s : State) (a k t : Nat) (maint : Bool) : List Recon :=
  (s.frontRecons a).filter (fun r => decide (k ∈ s.reconNeeds r) && !decide (k ∈ r.read) && (if r.plan then decide (r.t ≤ t) else maint))

/-- A stripe read is issued. The last of a reconstruction's puts off the T of those that wait behind it in the cell until it has
ended (R150). -/
def stripeRead (k ends : Nat) (r : Recon) (s : State) : State :=
  let r' : Recon := { r with read := r.read ++ [k] }
  let s := countGroup r.array k r.lblock { s with slate := { s.slate with recons := s.slate.recons.map (fun x => if x = r then r' else x) } }
  if s.reconRead r' then
    { s with slate := { s.slate with recons := s.slate.recons.map (fun x =>
        if decide (x.array = r.array) && decide (x.cell = r.cell) && x.plan && !s.reconRead x then { x with t := max x.t ends } else x) } }
  else s

/-! ## What takes the slots left to maintenance (R147, R166, R169, R504) -/

/-- The sub-banks that a relocation's copy reads: the block's own, or the data sub-banks where parity is formed anew (R160, R161). -/
def Reloc.sources (r : Reloc) : List Nat := if r.k = 8 && decide (.parity ∈ r.causes) then List.range 8 else [r.k]

/-- Has a relocation's copy read its 256 lines of a cell? -/
def Reloc.copyRead (r : Reloc) (c : Nat) : Bool := r.sources.all (fun j => decide (256 ≤ mgetD r.lines (c * 9 + j) 0))

/-- The cells in which a relocation's copy is under way. -/
def Reloc.copying (r : Reloc) : List Nat := (r.target.map (·.1)).filter (fun c => !decide (c ∈ r.copied))

/-- A change of the relocation at a place of the list. -/
def updReloc (i : Nat) (f : Reloc → Reloc) (s : State) : State :=
  { s with slate := { s.slate with relocs := s.slate.relocs.mapIdx (fun j r => if j = i then f r else r) } }

/-- The relocations of an array that a test picks, with their places; the older first. -/
def State.relocsOf (s : State) (a : Nat) (p : Reloc → Bool) : List (Nat × Reloc) :=
  ((List.range s.slate.relocs.length).zip s.slate.relocs).filter (fun x => decide (x.2.array = a) && p x.2)

/-- Reads of sub-bank `k` by the copies of the relocations that a test picks, by cell. -/
def State.copyReads (s : State) (a k : Nat) (p : Reloc → Bool) : List (Nat × (State → State)) :=
  (s.relocsOf a p).flatMap (fun x =>
    (x.2.copying.filter (fun c => decide (k ∈ x.2.sources) && decide (mgetD x.2.lines (c * 9 + k) 0 < 256))).map (fun c =>
      (c, fun s => countGroup a k x.2.lblock
        (updReloc x.1 (fun r => { r with lines := mset r.lines (c * 9 + k) (mgetD r.lines (c * 9 + k) 0 + 1) }) s))))

/-- Pulses of the programs in sub-bank `k` of the relocations that a test picks, by cell (R166). -/
def State.copyPulses (s : State) (a k : Nat) (p : Reloc → Bool) : List (Nat × (State → State)) :=
  (s.relocsOf a (fun r => decide (r.k = k) && p r)).flatMap (fun x =>
    (x.2.copying.filter x.2.copyRead).map (fun c =>
      (c, updReloc x.1 (fun r => { r with pulses := mset r.pulses c (mgetD r.pulses c 0 + 1) }))))

/-- Blocks of a stage session in one place of a cell. -/
def Stage.blkAt (g : Stage) (a c k lb : Nat) : Option StagedBlk := g.blocks.find? (fun b => decide (b.sb = sbKey a c k) && decide (b.lb = lb))

/-- The members of a session as numbers. -/
def Stage.memberList (g : Stage) : List Nat := (List.range 64).filter (fun m => g.members.getLsbD m)

/-- The layers of the unit that a LAYERED session stages now (R323). -/
def State.unitNow (s : State) (g : Stage) : List Nat :=
  ((List.range g.unitLayers).map (fun i => g.committed * g.unitLayers + i)).filter
    (fun l => decide (l < (mgetD s.models.slots g.slot Slot.reset).layers))

/-- R321: will no more lines come: of the unit (LAYERED), or of the image (WHOLE)? -/
def State.linesIn (s : State) (g : Stage) : Bool :=
  if g.layered then !(s.unitNow g).isEmpty && (s.unitNow g).all (fun l => decide (l ∈ g.clean)) else g.endCmd.isSome

/-- R170, R321: may the parity pass of a logical block of a cell run: all eight blocks are there and programmed, or no more
will come? -/
def State.parityReady (s : State) (g : Stage) (a c lb : Nat) : Bool :=
  let blks := (List.range 8).map (fun k => g.blkAt a c k lb)
  blks.any (·.isSome) && blks.all (fun b => match b with | some x => !(s.pb (pbKey x.sb x.pb)).programming | none => true) &&
  (g.blkAt a c 8 lb).isNone &&
  (s.linesIn g || (List.range 8).all (fun k => (g.blkAt a c k lb).isSome || mhas (s.sb (sbKey a c k)).map lb))

/-- The lines that a parity pass reads of one data sub-bank: of the staged block, or of the mapped one. -/
def State.parityLines (s : State) (g : Stage) (a c k lb : Nat) : Nat :=
  if (g.blkAt a c k lb).isSome || mhas (s.sb (sbKey a c k)).map lb then 256 else 0

/-- Has a parity pass read its lines of all eight data sub-banks (R170)? -/
def State.parityRead (s : State) (g : Stage) (a c lb : Nat) : Bool :=
  (List.range 8).all (fun k => decide (s.parityLines g a c k lb ≤ mgetD g.parity (sbKey a c k * 32 + lb) 0))

/-- Reads of data sub-bank `k` by the parity passes of the session, by cell. -/
def State.passReads (s : State) (a k : Nat) : List (Nat × (State → State)) :=
  match s.models.stage with
  | none => []
  | some g =>
    let places := g.blocks.foldl (fun (l : List (Nat × Nat)) b =>
      if decide (b.sb / 9 / 1024 = a) then addOnce l (b.sb / 9 % 1024, b.lb) else l) []
    (places.filter (fun x => decide (k < 8) && s.parityReady g a x.1 x.2 &&
        decide (mgetD g.parity (sbKey a x.1 k * 32 + x.2) 0 < s.parityLines g a x.1 k x.2))).map (fun x =>
      (x.1, fun s => countGroup a k x.2 { s with models := { s.models with stage := s.models.stage.map (fun g =>
        { g with parity := mset g.parity (sbKey a x.1 k * 32 + x.2) (mgetD g.parity (sbKey a x.1 k * 32 + x.2) 0 + 1) }) } }))

/-- One more pulse of a physical block's program or erase (R166). -/
def pulse (sb pb : Nat) (s : State) : State := updPb (pbKey sb pb) (fun p => { p with pulses := p.pulses + 1 }) s

/-- Pulses of the programs of a stage session in sub-bank `k`, by cell; none while the job is QUEUED (R506). -/
def State.stagePulses (s : State) (a k : Nat) : List (Nat × (State → State)) :=
  match s.models.stage with
  | none => []
  | some g =>
    if !s.jobRunning 4 2 then []
    else (g.blocks.filter (fun b => decide (b.sb / 9 / 1024 = a) && decide (b.sb % 9 = k) && (s.pb (pbKey b.sb b.pb)).programming)).map
      (fun b => (b.sb / 9 % 1024, pulse b.sb b.pb))

/-- Pulses of the erases in sub-bank `k`, by cell. -/
def State.erasePulses (s : State) (a k : Nat) : List (Nat × (State → State)) :=
  (s.slate.pbs.filter (fun p => decide (p.1 / 64 / 9 / 1024 = a) && decide (p.1 / 64 % 9 = k) && p.2.erasing)).map
    (fun p => (p.1 / 64 / 9 % 1024, pulse (p.1 / 64) (p.1 % 64)))

/-- R169, R485: does the power arbiter admit a pulse in slot `n`? After h halvings in one of 2^h slots. DEDUCED (log 34). -/
def State.pulseAdmitted (s : State) (n : Nat) : Bool := decide (s.pwr.halvings < 8) && decide (n % 2 ^ s.pwr.halvings = 0)

/-- R504: what asks for a slot of sub-bank `k` left to maintenance, by cell, in order of rank: reads, then pulses. The reads of the
views and of SCRUB are made by the rows that ask for them (log 34). -/
def State.maintUses (s : State) (a k n : Nat) : List (Nat × (State → State)) :=
  let urgent (r : Reloc) : Bool := decide (r.pri = 1)
  let other (r : Reloc) : Bool := !decide (r.pri = 1)
  s.copyReads a k urgent ++ s.passReads a k ++ s.copyReads a k other ++
  (if s.pulseAdmitted n then s.copyPulses a k urgent ++ s.stagePulses a k ++ s.copyPulses a k other ++ s.erasePulses a k else [])

/-- The checkpoint of a stack whose lines in sub-bank `k` of an array have still to be programmed, where a pulse is admitted. -/
def State.ckptPulse (s : State) (a k n : Nat) : Bool :=
  match (s.stack (a / 32)).ckpt with
  | some c => s.pulseAdmitted n && !decide (a * 9 + k ∈ c.pulsed)
  | none => false

/-- Each cell serves the first use that asks for its slot. -/
def serveUses (busy : List Nat) (l : List (Nat × (State → State))) (s : State) : State :=
  (l.foldl (fun (p : List Nat × State) x => if x.1 ∈ p.1 then p else (x.1 :: p.1, x.2 p.2)) (busy, s)).2

/-- R504: a slot left to maintenance. Reads come before pulses, and of these the checkpoint's first, in every cell that reads
nothing; an array in a BIST round is paused (R505). -/
def serveMaint (a k n : Nat) (busy : List Nat) (s : State) : State :=
  if a ∈ s.maint.bistRound then s
  else
    let reads := s.copyReads a k (fun _ => true) ++ s.passReads a k
    if s.ckptPulse a k n && reads.all (fun x => decide (x.1 ∈ busy)) then
      updStack (a / 32) (fun t => { t with ckpt := t.ckpt.map (fun c => { c with pulsed := c.pulsed ++ [a * 9 + k] }) }) s
    else serveUses busy (s.maintUses a k n) s

/-- SLATE_SLOT_START (R145, R147, R504): the slot of sub-bank `k` of an array goes to stripe reads, to a plan read where it is not a
maintenance slot, and otherwise to maintenance. The slot counter advances with the slots of array 0, sub-bank 0 (log 34). -/
def execSlateSlotStart (a k : Nat) (s : State) : Host.Outcome State Fault Refusal :=
  .next (
    let s := if a = 0 && decide (k = 0) && (s.slate.stackW.mounted || s.slate.stackE.mounted) then
        { s with slate := { s.slate with slot := s.slate.slot + 1 } } else s
    ifMounted a (fun s =>
      let n := s.slate.slot - 1
      let t := slotStart n k
      let s := settleLatch a t 4 (reachClock t s)
      let maint := decide (k = 8) || decide (16 - (s.arr a).maintM ≤ n % 16)
      let stripes := s.stripeReads a k t maint
      let s := forEach stripes (stripeRead k (t + slotLen)) s
      if maint then serveMaint a k n (stripes.map (·.cell)) s
      else if stripes ≠ [] then s
      else match s.nextRead a k (t + slotLen) with
        | some e => issueRead a e s
        | none => serveMaint a k n [] s) s)

/-- The slot of a plan read has ended: its line enters a free latch position or waits in the read register (R116). -/
def slotEnd (a k : Nat) (s : State) : State :=
  match (s.arr a).io.find? (fun e => decide (e.k = k) && !e.ended) with
  | none => s
  | some e =>
    let e' : SweepLine := { e with ended := true }
    updArr a (fun r =>
      if r.latch.length < 2 then { r with latch := r.latch ++ [e'], io := r.io.filter (· ≠ e) }
      else { r with io := r.io.map (fun x => if x = e then e' else x) }) (settleLatch a e.ends 4 (reachClock e.ends s))

/-- LATCH_POSITION_FREE (R116, R118): the line applied leaves its position, and one that waits enters. -/
def execLatchPositionFree (a : Nat) (s : State) : Host.Outcome State Fault Refusal :=
  .next (
    let s := applyHead a s
    match (s.arr a).latch with
    | e :: _ => match e.fin with
      | some f => freeHead a (reachClock f s)
      | none => s
    | [] => match s.applying a with
      | some i =>
        if wPort i.word && decide (i.freed < i.order.length) then portPump a (updProg a i.index (fun x => { x with freed := x.freed + 1 }) s)
        else s
      | none => s)

/-! ## Line reads (R148, R151-R161) -/

/-- R151, R152: a plan reconstruction is counted against the allowance of its sub-bank index; those whose failing reads ended with the
same slot are one. -/
def useAllowance (a k ends : Nat) (s : State) : State :=
  let x := (a * 8 + k) * 2 ^ 48 + ends / slotLen % 2 ^ 48
  if x ∈ s.slate.recUsed then s
  else
    let spent := s.slate.recUsed.any (fun y => decide (y / 2 ^ 48 = a * 8 + k))
    let s := { s with slate := { s.slate with recUsed := s.slate.recUsed ++ [x] } }
    if spent then count (sltCnt a 2) s else s

/-- Is an entry of the latch, in flight or in a read register the line at a logical position, not yet applied? -/
def State.isLine (s : State) (a k lb ln : Nat) (e : SweepLine) : Bool :=
  decide (e.k = k) && e.fin.isNone &&
  match (s.arr a).prog.find? (fun i => decide (i.index = e.idx)) with
  | some i => decide ((s.descOf a (wDesc i.word)).place e.seqL = (k, lb * 256 + ln))
  | none => false

/-- The entry of the line at a logical position. -/
def State.lineEntry (s : State) (a k lb ln : Nat) : Option SweepLine :=
  ((s.arr a).latch ++ (s.arr a).io).find? (s.isLine a k lb ln)

/-- A change of the entries of the line at a logical position. -/
def updLine (a k lb ln : Nat) (f : SweepLine → SweepLine) (s : State) : State :=
  let g (e : SweepLine) : SweepLine := if s.isLine a k lb ln e then f e else e
  updArr a (fun r => { r with latch := r.latch.map g, io := r.io.map g }) s

/-- R116, R149, R153, R158: an uncorrectable or misdirected line: reconstructed, while its latch position is held for it, or lost at
once in a cell with a failed sub-bank. -/
def beginRecon (a c k lb ln : Nat) (plan : Bool) (s : State) : State :=
  if s.cellFailed a c then lineLost a c k lb ln plan s
  else if s.slate.recons.any (fun r => decide (r.array = a) && decide (r.cell = c) && decide (r.k = k) && decide (r.lblock = lb) && decide (r.line = ln) && decide (r.plan = plan)) then s
  else
    let ends := match s.lineEntry a k lb ln with | some e => e.ends | none => s.slate.clock
    let r : Recon := { array := a, cell := c, k := k, lblock := lb, line := ln, plan := plan, t := ends, found := s.tbu.now, read := [] }
    let s := { s with slate := { s.slate with recons := s.slate.recons ++ [r] } }
    if plan then useAllowance a k ends (updLine a k lb ln (fun e => { e with waits := addOnce e.waits c }) s) else s

/-- Does a read of a mapped line get other than a line of its place: misdirected, or never programmed (R148; log 21)? -/
def State.wrongLine (s : State) (a c k lb ln : Nat) : Bool :=
  match s.stored a c k lb ln with | some l => misdirected (l.meta k) k lb | none => true

/-- The key of a line that a scrub rereads (R184). -/
def rereadKey (a c k lb ln : Nat) : Nat := sbKey a c k * 8192 + lb * 256 + ln

/-- What an outcome of R148 sets off, for a line of a readable sub-bank. A maintenance read of a line that a scrub found
uncorrectable is its reread at the normal reference: corrected or clean there, its block is queued all the same (R184). -/
def actOnRead (a c k lb ln : Nat) (kind : ReadKind) (errs : Nat) (mis : Bool) (s : State) : State :=
  let again := decide (kind = .maint) && decide (rereadKey a c k lb ln ∈ s.slate.rereads)
  let s := if again then { s with slate := { s.slate with rereads := s.slate.rereads.filter (· ≠ rereadKey a c k lb ln) } } else s
  if decide (errs ≤ 8) && !(mis || s.wrongLine a c k lb ln) then
    let s := if errs = 0 then s else count (sltCnt a 0) s
    if again || decide (s.slate.relocBits.toNat ≤ errs) then queueReloc 3 .scrub a (some c) k lb none s else s
  else match kind with
    | .stripe => s
    | .plan => if k = 8 then s else beginRecon a c k lb ln true s
    | .maint => if k = 8 then parityFix a c lb ln s else beginRecon a c k lb ln false s

/-- LINE_READ_COMPLETE (R148). A line of an unmapped block, a failed sub-bank, an excluded cell or the lost list is not
read: at its slot's end the latch takes the substitute (R140, R156, R158, R533). A stripe line's faults are met by
RECONSTRUCTION_COMPLETE. -/
def execLineReadComplete (a cell k lblock line : Nat) (kind : ReadKind) (errs : Nat) (misdirected : Bool) (s : State) :
    Host.Outcome State Fault Refusal :=
  .next (ifMounted a (fun s =>
    let s := if kind = .plan then slotEnd a k s else s
    let b := s.sb (sbKey a cell k)
    if !mhas b.map lblock || b.failed || decide (lblock * 256 + line ∈ b.lost) || decide (cell ∈ (s.arr a).excl) then s
    else actOnRead a cell k lblock line kind errs misdirected s) s)

/-- RECONSTRUCTION_COMPLETE (R149, R154, R155): 440 ns after T, once the stripe reads have been made. `bad` names the sub-banks whose
stripe read proved uncorrectable or misdirected. -/
def execReconstructionComplete (a cell k lblock line : Nat) (bad : List Nat) (s : State) : Host.Outcome State Fault Refusal :=
  .next (
    match s.slate.recons.find? (fun r => decide (r.array = a) && decide (r.cell = cell) && decide (r.k = k) && decide (r.lblock = lblock) &&
      decide (r.line = line) && s.reconRead r) with
    | none => s
    | some r =>
      let s := { s with slate := { s.slate with recons := s.slate.recons.filter (· ≠ r) } }
      let x := s.rebuilt a cell k lblock line bad
      let s := endRecon a cell k lblock line bad r.plan r.found s
      if r.plan then
        let comes := r.t + 440 * clockNs
        reachClock comes (updLine a k lblock line (fun e =>
          { e with waits := e.waits.filter (· ≠ cell), comes := max e.comes comes,
                   fixed := match x with | some b => mset e.fixed cell (b.take 68) | none => e.fixed }) s)
      else s)

/-! ## Programs and erases (R165-R172) -/

/-- R170: a staged block whose program failed, or whose line the parity pass cannot read: its shards are missing again, and what
its parity pass has read of it counts no more. -/
def unstage (x : StagedBlk) (s : State) : State :=
  match s.models.stage with
  | some g => { s with models := { s.models with stage := some { g with
      blocks := g.blocks.filter (fun b => decide (b ≠ x) && (decide (x.shard = 2 ^ 32) || decide (b.shard ≠ x.shard)))
      held := g.held.filter (· ≠ x.shard)
      parity := mdel g.parity (x.sb * 32 + x.lb)
      clean := if x.shard = 2 ^ 32 then g.clean else g.clean.filter (· ≠ x.layer) } } }
  | none => s

/-- R321: has every staged data block a programmed parity block beside it, with nothing still being programmed? -/
def State.stageDone (s : State) (g : Stage) : Bool :=
  g.blocks.all (fun b => !(s.pb (pbKey b.sb b.pb)).programming &&
    (g.blkAt (b.sb / 9 / 1024) (b.sb / 9 % 1024) 8 b.lb).isSome)

/-- R321: `MODEL_STAGE_END` completes once every member has reported STAGED. -/
def settleStageEnd (s : State) : State :=
  match s.models.stage with
  | some g => match g.endCmd with
    | some id =>
      if g.memberList.all (fun m => decide (m ∈ g.staged)) then
        finish id .ok g.members.toNat { s with models := { s.models with stage := some { g with endCmd := none } } }
      else s
    | none => s
  | none => s

/-- The name of a command that a manager sends a member of its own accord: no pair of the host. -/
def ownRef : CmdRef := ⟨64, 0⟩

/-- The submission by which a manager gives a member the time of a group activation (R450; log 38). -/
def activateSub (t : Nat) : Submission :=
  { opcode := 0x0803, tag := 0, flags := 0, res := 0, seq := 0, payLen := 0, payAddr := 0, a0 := BitVec.ofNat 64 t, a1 := 1,
    a2 := 0, a3 := 2, a4 := 0 }

/-- R450: a manager sends the time of an activation to every other member. -/
def sendActivation (t : Nat) (s : State) : State :=
  if s.spar.st = 1 then forEach s.otherMembers (fun m s => sendTo m (.forward ownRef (subBytes (activateSub t)) []) s) s else s

/-- R325, R450: an activation deferred by a stage session is scheduled anew when the session ends; a worker has the time from
its manager. -/
def resumeActivation (s : State) : State :=
  if s.sec.actDeferred && decide (s.spar.st ≠ 2) then
    let t := s.tbu.now + 10000000
    sendActivation t { s with sec := { s.sec with actDeferred := false, actTime := some t } }
  else s

/-- The stage session is closed; its job ends in a state. -/
def closeStage (st : Nat) (s : State) : State :=
  resumeActivation (endJob 4 2 st { s with models := { s.models with stage := none } })

/-- R321: every staged block is left to GC, and the slot of a member returns to its prior state, or stays PARTIAL if units have
committed. -/
def leaveStage (g : Stage) (s : State) : State :=
  let s := forEach g.blocks (fun b s => updPb (pbKey b.sb b.pb) (fun p => { p with programming := false }) s) s
  if s.spar.member ∈ g.memberList then
    updSlot g.slot (fun m => { m with st := if m.midSwap then .partialSwap else g.prior,
                                      polMixed := if m.midSwap then m.polMixed else none }) s
  else s

/-- R321: `MODEL_ABORT` on this device. -/
def abortLocal (s : State) : State :=
  match s.models.stage with
  | none => s
  | some g => closeStage 3 (count 0x250 (leaveStage g { s with models := { s.models with commit := none } }))

/-- The submission by which the manager sets off `MODEL_ABORT` on a member of itself (R320-R322). -/
def abortSub (stage : Nat) : Submission :=
  { opcode := 0x0105, tag := 0, flags := 0, res := 0, seq := 0, payLen := 0, payAddr := 0, a0 := BitVec.ofNat 64 stage,
    a1 := 0, a2 := 0, a3 := 0, a4 := 0 }

/-- R171, R320-R322: every member of the session aborts it, and the commands that waited for it end with `ST_ABORTED`, or with
`ST_NO_RESOURCE` where it failed for want of a free block above the floor: DEDUCED (log 90). -/
def abortAll (s : State) : State :=
  match s.models.stage with
  | none => s
  | some g =>
    let cmds := g.endCmd.toList ++ (match g.ending with | some e => [e.cmd] | none => []) ++
      (match s.models.commit with | some c => c.cmd.toList | none => [])
    let s := forEach (g.memberList.filter (· ≠ s.spar.member))
      (fun m s => sendTo m (.forward ownRef (subBytes (abortSub g.id)) []) s) s
    forEach cmds (fun id s => waitDone id 64 (if g.floor then Status.noResource else Status.aborted).code s) (abortLocal s)

/-- R317: a member has rejected `MODEL_STAGE_BEGIN`: the members that took it abort, and here it is as if it had never been. -/
def rejectStage (member : Nat) (s : State) : State :=
  match s.models.stage with
  | none => s
  | some g =>
    let s := forEach (g.memberList.filter (fun m => decide (m ≠ s.spar.member) && decide (m ≠ member)))
      (fun m s => sendTo m (.forward ownRef (subBytes (abortSub g.id)) []) s) s
    let s := leaveStage g s
    { s with
      models := { s.models with stage := none }
      maint := { s.maint with jobs := s.maint.jobs.filter (fun j => !(decide (j.activity = 4) && decide (j.st < 2))) } }

/-- R319-R321: a session that has failed on this device: a worker reports it, the manager aborts it. -/
def settleFailed (g : Stage) (s : State) : State :=
  if s.spar.st = 2 then
    let s := { s with models := { s.models with stage := some { g with endCmd := none } } }
    sendTo s.spar.manager (.stageReport (.failed g.floor)) (match g.endCmd with | some id => dropCmd id s | none => s)
  else abortAll s

/-- R321: this device's own part of a stage or unit ends: it reports STAGED, or that it has failed. -/
def settleStage (s : State) : State :=
  match s.models.stage with
  | some g =>
    if g.failed then (if g.endCmd.isSome then settleFailed g s else s)
    else if s.linesIn g && s.stageDone g && (!decide (s.spar.member ∈ g.staged) || g.endCmd.isSome) then
      let g := { g with staged := addOnce g.staged s.spar.member }
      if s.spar.st = 2 then
        let s := { s with models := { s.models with stage := some { g with endCmd := none } } }
        sendTo s.spar.manager (.stageReport .staged) (match g.endCmd with | some id => dropCmd id s | none => s)
      else settleStageEnd { s with models := { s.models with stage := some g } }
    else s
  | none => s

/-- R170, R172: a block of the session is programmed, or its program has failed and it retires. -/
def stageProgrammed (a cell k : Nat) (ok : Bool) (x : StagedBlk) (s : State) : State :=
  let s := updPb (pbKey x.sb x.pb) (fun p => { p with programming := false, pulses := 0 }) s
  if ok then settleStage s else unstage x (retireBlock a cell k x.pb x.lb s)

/-- Is a line of a cell's block being reconstructed for maintenance? -/
def State.reconIn (s : State) (a c k lb : Nat) : Bool :=
  s.slate.recons.any (fun r => decide (r.array = a) && decide (r.cell = c) && decide (r.k = k) && decide (r.lblock = lb) && !r.plan)

/-- R172, R181: the copy of a relocation's block in a cell is programmed, lines found lost being lost from then on (R155, R159), or its
program has failed: the block retires and another is taken, if one is left. -/
def relocProgrammed (a cell k pblock : Nat) (ok : Bool) (i : Nat) (r : Reloc) (s : State) : State :=
  if ok then
    let s := updReloc i (fun x => { x with copied := x.copied ++ [cell] }) (programBlock (sbKey a cell k) pblock (fun ln => s.copyLine r cell pblock ln) s)
    if k = 8 then s else forEach (s.copyLoses r cell) (fun ln s => loseLine a cell k r.lblock ln true s) s
  else
    let s := updReloc i (fun x => { x with target := mdel x.target cell, lines := x.lines.filter (fun l => decide (l.1 / 9 ≠ cell)), pulses := mdel x.pulses cell }) s
    let s := retryTargets (retireBlock a cell k pblock r.lblock s)
    if (match s.slate.relocs[i]? with | some x => mhas x.target cell | none => true) then s else noBlockLeft a cell k r.lblock s

/-- BLOCK_PROGRAM_COMPLETE (R166, R170, R172): the block of a relocation whose lines have been read, or of a stage session, has had its
pulses and is programmed, or retires. A STAGE job that is QUEUED, or an array in a BIST round, programs nothing (R505, R506). -/
def execBlockProgramComplete (a cell k pblock : Nat) (ok : Bool) (s : State) : Host.Outcome State Fault Refusal :=
  .next (ifMounted a (fun s =>
    if a ∈ s.maint.bistRound then s
    else
      let sb := sbKey a cell k
      match (s.relocsOf a (fun r => decide (r.k = k) && decide (mget r.target cell = some pblock) && !decide (cell ∈ r.copied))).head? with
      | some x =>
        if x.2.copyRead cell && decide (0 < mgetD x.2.pulses cell 0) && !s.reconIn a cell k x.2.lblock then
          relocProgrammed a cell k pblock ok x.1 x.2 s
        else s
      | none => match s.models.stage.bind (fun g => g.blocks.find? (fun b => decide (b.sb = sb) && decide (b.pb = pblock))) with
        | some x =>
          let p := s.pb (pbKey sb pblock)
          if p.programming && decide (0 < p.pulses) && s.jobRunning 4 2 then stageProgrammed a cell k ok x s else s
        | none => s) s)

/-- A block's lines are erased, and its erase is counted (R166, R185). -/
def eraseBlock (sb pb : Nat) (s : State) : State :=
  updPb (pbKey sb pb) (fun p => { p with erases := p.erases + 1, erasing := false, pulses := 0 })
    { s with slate := { s.slate with
        lines := s.slate.lines.filter (fun l => decide (l.1 / 256 ≠ pbKey sb pb))
        rebuilt := s.slate.rebuilt.filter (fun l => decide (l.1 / 256 ≠ pbKey sb pb)) } }

/-- Is any block of a stack being erased? -/
def State.erasingIn (s : State) (i : Nat) : Bool := s.slate.pbs.any (fun p => inStack i (p.1 / 64) && p.2.erasing)

/-- BLOCK_ERASE_COMPLETE (R166-R168, R172): relocations that lack a block are tried again with the one that is free now. -/
def execBlockEraseComplete (a cell k pblock : Nat) (ok : Bool) (s : State) : Host.Outcome State Fault Refusal :=
  .next (ifMounted a (fun s =>
    let sb := sbKey a cell k
    if !(s.pb (pbKey sb pblock)).erasing then s
    else
      let s := if ok then retryTargets (eraseBlock sb pblock s)
        else retireBlock a cell k pblock 0xFF (updPb (pbKey sb pblock) (fun p => { p with erasing := false, pulses := 0 }) s)
      if s.erasingIn (a / 32) then s else endJob 3 (a / 32) 2 s) s)

/-- A descriptor of a Slate ring (R435). -/
structure SDesc where
  op    : Nat
  cell  : Nat
  sb    : Nat
  pb    : Nat
  line  : Nat
  src   : Nat
  /-- a reserved or out-of-range field -/
  bad   : Bool

/-- A descriptor's fields (R435). -/
def parseSDesc (v : Variant) (b : Bytes) : SDesc :=
  let op := u b 0 1
  let k := u b 3 1
  { op := op, cell := u b 1 2, sb := k, pb := u b 4 1, line := u b 5 1, src := u b 8 4,
    bad := !(decide (op = 1) || decide (op = 2)) || decide (1024 ≤ u b 1 2) || decide (8 < k) || decide (physBlocks v ≤ u b 4 1) ||
      (decide (op = 2) && (decide (u b 5 1 ≠ 0) || decide (u b 8 4 ≠ 0))) || decide (u b 6 2 ≠ 0) || decide (u b 14 1 ≠ 0) ||
      (decide (op = 1) && (decide (u b 8 4 % 8 ≠ 0) || decide (hubBytes < u b 8 4 + (if k = 8 then 76 else 72)))) }

/-- R165, R166, R172, R435: a descriptor's effect and its status. For the parity sub-bank the source holds 76 bytes,
the XOR and the parity line's own metadata. DEDUCED (log 35). -/
def runSDesc (a : Nat) (d : SDesc) (ok : Bool) (s : State) : Status × State :=
  let sb := sbKey a d.cell d.sb
  let key := lnKey sb d.pb d.line
  if d.bad then (.badField, s)
  else if d.op = 1 then
    if (mget s.slate.lines key).isSome || (s.pb (pbKey sb d.pb)).erasing then (.wrongState, s)
    else if !ok then (.deviceFault, retireBlock a d.cell d.sb d.pb 0xFF s)
    else
      let b := (List.range (if d.sb = 8 then 76 else 72)).map (fun i => s.ramAt (d.src + i))
      (.ok, { s with slate := { s.slate with lines := mset s.slate.lines key ⟨b⟩ } })
  else if ok then (.ok, eraseBlock sb d.pb s) else (.deviceFault, retireBlock a d.cell d.sb d.pb 0xFF s)

/-- SLATE_DESCRIPTOR: the next descriptor of the array's ring is carried out and its status written. -/
def execSlateDescriptor (a : Nat) (ok : Bool) (s : State) : Host.Outcome State Fault Refusal :=
  .next (ifMounted a (fun s =>
    match mget s.slate.rings a with
    | none => s
    | some r =>
      if r.count ≤ r.done then s
      else
        let at_ := r.addr + 16 * r.done
        let p := runSDesc a (parseSDesc s.part.variant ((List.range 16).map (fun i => s.ramAt (at_ + i)))) ok s
        let s := writeDva (at_ + 15) [1] (writeDva (at_ + 12) (toLE 2 p.1.code) p.2)
        let fail := if p.1 = .ok then r.firstFail else some (r.firstFail.getD r.done)
        { s with slate := { s.slate with rings := mset s.slate.rings a { r with done := r.done + 1, firstFail := fail } } }) s)

/-! ## The parity pass (R144, R170, R321) -/

/-- The line a stripe's parity is formed from: the staged block's where one is staged, otherwise the mapped block's. -/
def State.stageLine (s : State) (g : Stage) (a c k lb ln : Nat) : Option Bytes :=
  match g.blkAt a c k lb with
  | some b => (mget s.slate.lines (lnKey b.sb b.pb ln)).map (fun l => slice l.bytes 0 72)
  | none => (s.stored a c k lb ln).map (fun l => slice l.bytes 0 72)

/-- R171: the blocks that STAGE must leave free in a sub-bank. -/
def stageFloor (v : Variant) : Nat := match v with | .x => 2 | _ => 1

/-- R171: the free block that STAGE takes; none where the floor would be broken. -/
def State.stageBlock (s : State) (sb : Nat) : Option Nat :=
  if stageFloor s.part.variant < s.freeBlocks sb && !(s.sb sb).failed then s.takeBlock sb else none

/-- The parity block of a logical block of a cell is taken and its program begins; without one above the floor the session fails. -/
def beginParity (g : Stage) (a cell lblock : Nat) (s : State) : State :=
  let sb := sbKey a cell 8
  match s.stageBlock sb with
  | none => settleStage { s with models := { s.models with stage := some { g with failed := true, floor := !(s.sb sb).failed } } }
  | some pb =>
    let erases := (s.pb (pbKey sb pb)).erases
    let parity (ln : Nat) : SLine :=
      ⟨(List.range 8).foldl (fun acc k => match s.stageLine g a cell k lblock ln with | some b => xorBytes acc b | none => acc)
        (List.replicate 72 0) ++ metaWord lblock 0 3 erases⟩
    let layer := ((List.range 8).filterMap (fun k => g.blkAt a cell k lblock)).foldl (fun m x => max m x.layer) 0
    let x : StagedBlk := { sb := sb, lb := lblock, pb := pb, layer := layer, shard := 2 ^ 32 }
    updPb (pbKey sb pb) (fun p => { p with programming := true, pulses := 0 })
      (programBlock sb pb parity { s with models := { s.models with stage := some { g with blocks := g.blocks ++ [x] } } })

/-- PARITY_PASS (R170): the stripes of a logical block of a cell have been read, and the program of their parity begins. `bad` names
data sub-banks in which a line proved uncorrectable or misdirected. -/
def execParityPass (a cell lblock : Nat) (bad : List Nat) (s : State) : Host.Outcome State Fault Refusal :=
  .next (ifMounted a (fun s =>
    match s.models.stage with
    | none => s
    | some g =>
      if decide (a ∈ s.maint.bistRound) || !s.parityReady g a cell lblock || !s.parityRead g a cell lblock then s
      else
        let broken := (bad.filter (· < 8)).filterMap (fun k => g.blkAt a cell k lblock)
        if broken ≠ [] then forEach broken (fun x s => unstage x (retireBlock a cell (x.sb % 9) x.pb x.lb s)) s
        else beginParity g a cell lblock s) s)

/-! ## Protected tables (R162-R164) -/

/-- The identifier of a Slate object (R375). -/
def slateId (slot number : Nat) : Nat := number % 65536 + slot % 16 * 2 ^ 16 + 2 * 2 ^ 56
/-- The lines of a table's copy 0 (A) or 1 (B): array, cell, sub-bank, and line index in the sub-bank. -/
def tableLines (o : SObj) (i : Nat) : List (Nat × Nat × Nat × Nat) :=
  let l := lineAddr o.line
  (List.range (cdiv o.inLen 64)).map (fun j => (l.a + 32 * i, l.c, l.k, l.lb * 256 + l.ln + j))

/-- The bytes of a copy, if it is clean (R162). -/
def State.tableCopy (s : State) (o : SObj) (i : Nat) : Option Bytes :=
  let ls := (tableLines o i).map (fun p => match s.delivered p.1 p.2.1 p.2.2.1 (p.2.2.2 / 256) (p.2.2.2 % 256) with | .line b => some b | _ => none)
  if ls.all (·.isSome) then
    let b := (ls.flatMap (fun x => slice (x.getD []) 0 64)).take o.inLen
    if (crc32c (b.take (o.inLen - 4))).toNat = u b (o.inLen - 4) 4 then some b else none
  else none

/-- A relocation of a block of one cell takes a replacement for a line (R159, R163). -/
def setRepl (a c k lb ln : Nat) (b : Bytes) (s : State) : State :=
  { s with slate := { s.slate with relocs := s.slate.relocs.map (fun r =>
      if decide (r.array = a) && decide (r.cell = some c) && decide (r.k = k) && decide (r.lblock = lb) then { r with repl := mset r.repl ln b } else r) } }

/-- R163: a copy is rewritten from the other by relocation. -/
def rewriteTable (slot : Nat) (o : SObj) (i : Nat) (b : Bytes) (s : State) : State :=
  forEach ((List.range (tableLines o i).length).zip (tableLines o i)) (fun x s =>
    let p := x.2
    let lb := p.2.2.2 / 256
    let line := slice b (64 * x.1) 64 ++ [0, 0, 0, 0] ++ metaWord lb slot 2 0
    setRepl p.1 p.2.1 p.2.2.1 lb (p.2.2.2 % 256) line (queueReloc 1 .table p.1 (some p.2.1) p.2.2.1 lb none s)) s

/-- R163: a table is lost: at once, or, found by a scrub, from the next step barrier of the arrays that use it. -/
def tableLost (slot : Nat) (o : SObj) (soon : Bool) (s : State) : State :=
  let s := record .ct 0x0105 { detail := detObject (slateId slot o.number) 0 0 } s
  if soon then updSlot slot (fun m => { m with lostSoon := addOnce m.lostSoon o.number }) s
  else slotLoses slot (updSlot slot (fun m => { m with lostTab := m.lostTab ++ [o.number] }) s)

/-- The lines of both copies of a table are read (R148, R163, R180). -/
def touchTable (o : SObj) (s : State) : State :=
  forEach (tableLines o 0 ++ tableLines o 1) (fun p s => touchLine p.1 p.2.1 p.2.2.1 (p.2.2.2 / 256) (p.2.2.2 % 256) s) s

/-- R163: one table of a slot is checked. -/
def checkTable (slot : Nat) (soon : Bool) (o : SObj) (s : State) : State :=
  let m := mgetD s.models.slots slot Slot.reset
  if decide (o.number ∈ m.lostTab) || decide (o.number ∈ m.lostSoon) then s
  else
    let t := touchTable o s
    let use (b : Bytes) (s : State) : State := updSlot slot (fun m => { m with tables := mset m.tables o.number b }) s
    let fixed (s : State) : State := record .ce 0x0104 { detail := detObject (slateId slot o.number) 0 0 } s
    match s.tableCopy o 0, s.tableCopy o 1 with
    | some x, some y => if x = y then use x t else tableLost slot o soon t
    | some x, none => use x (fixed (rewriteTable slot o 1 x t))
    | none, some y => use y (fixed (rewriteTable slot o 0 y t))
    | none, none => tableLost slot o soon t

/-- The protected tables of a slot are checked (R163). -/
def checkTables (slot : Nat) (s : State) : State :=
  forEach ((mgetD s.models.slots slot Slot.reset).objs.filter (fun o => decide (o.kind = 6))) (checkTable slot false) s

/-- R163: the protected tables of every model that a plan uses are checked. -/
def checkPlanTables (h : Nat) (s : State) : State :=
  match s.plan h with
  | some p => forEach (List.range 16) (fun i s =>
      if p.plan.symbols.any (fun y => decide (y.kind = 0) && decide (y.ident.toNat % 16 = i)) then checkTables i s else s) s
  | none => s

/-- R163, R195: a plan starts on this device. -/
def beginPlan (h anchor : Nat) (s : State) : State := startPlan h anchor (checkPlanTables h s)

/-- The body of `PLAN_START`. -/
def planStart (c : Cmd) (s : State) : Reply :=
  checked c false
    ((c.argReserved 0x1F all64 0 0 0 || decide (c.sub.payLen ≠ 0) || decide (c.arg 1 < s.tbu.now + 100000), .badField) :: s.startChecks c) s
    (match s.plan (c.fld 0 4 0) with
     | some p => if s.wide c p then .running (sendGroup c false s) else .done .ok 0 (beginPlan (c.fld 0 4 0) (c.arg 1) s)
     | none => .done .wrongState 0 s)

/-- PLAN_START. -/
def execPlanStart (r : CmdRef) (s : State) : Host.Outcome State Fault Refusal :=
  .next (iarik 0x0401 r none planStart s)

/-! ## Checkpoints (R175-R178) -/

/-- Does a lost line or table of a model slot remain (R330)? -/
def State.slotHasLoss (s : State) (i : Nat) : Bool :=
  let m := mgetD s.models.slots i Slot.reset
  !m.lostTab.isEmpty ||
  s.slate.sbs.any (fun p =>
    let tag (lb : Nat) : Bool := mhas m.tags ((p.1 / 9 / 1024 * 8 + p.1 % 9) * 32 + lb) && decide (p.1 % 9 < 8)
    p.2.lost.any (fun x => tag (x / 256)) || (p.2.failed && p.2.map.any (fun x => tag x.1)))

/-- A command that waited for a checkpoint ends, unless the other stack's checkpoint still holds it (R159, R308). -/
def endCkptCmd (x : Nat × Nat) (s : State) : State :=
  if (List.range 2).any (fun i => match (s.stack i).ckpt with
      | some c => c.cmds.any (fun y => decide (y.1 = x.1)) || (match c.again with | some l => l.2.any (fun y => decide (y.1 = x.1)) | none => false)
      | none => false) then s
  else match s.cmd x.1 with
    | some c =>
      let i := c.fld 0 3 0
      let s := if c.op = 0x0107 then { s with models := { s.models with slots := mset s.models.slots i Slot.reset } }
        else if c.op = 0x0106 then
          let s := checkTables i (updSlot i (fun m => { m with lostTab := [], lostSoon := [] }) s)
          updSlot i (fun m => { m with lost := s.slotHasLoss i }) s
        else s
      waitDone x.1 64 0 { s with spar := { s.spar with results := mset s.spar.results x.1 x.2 } }
    | none => s

/-- A stack's `slate_` bit of `HUB_READY`. -/
def setStackReady (i : Nat) (v : Bool) (s : State) : State :=
  if i = 0 then { s with ready := { s.ready with slateW := v } } else { s with ready := { s.ready with slateE := v } }
/-- A stack's fatal bit of `ERR_STATUS` (R490). -/
def setStackFatal (i : Nat) (v : Bool) (s : State) : State :=
  if i = 0 then { s with err := { s.err with fatalW := v } } else { s with err := { s.err with fatalE := v } }

/-- R178: a re-initialised stack is served again. -/
def endReinit (i : Nat) (k : Ckpt) (s : State) : State :=
  if k.reinit then
    setStackFatal i false (setStackReady i true
      (updStack i (fun t => { t with mounted := true, readOnly := false, noMount := false }) s))
  else s

/-- R322: is a commit in its switch phase? The checkpoint of its sequence is the one that follows. -/
def State.switching (s : State) : Bool := match s.models.commit with | some c => c.decided && !c.ckpt | none => false

/-- R474: maintenance of a stack falls due: the timer wakes the device from IDLE and SLEEP; in DEEP_SLEEP it waits for the exit. None
starts from the time of an activation on (R451). -/
def fallDue (act stack : Nat) (k : State → State) (s : State) : State :=
  let s := wakeEvent false s
  if s.pwr.state = .run then (if s.activating then s else k s)
  else if s.pwr.state = .deepSleep then { s with pwr := { s.pwr with due := addOnce s.pwr.due (act, stack) } }
  else s

/-- CHECKPOINT_INTERVAL (R175, R474): a checkpoint is due. -/
def execCheckpointInterval (stack : Nat) (s : State) : Host.Outcome State Fault Refusal :=
  .next (if 2 ≤ stack || !(s.stack stack).mounted then s
    else fallDue 7 stack (fun s => if s.switching then s else startCkpt stack false false none s) s)

/-- CHECKPOINT_COMMIT (R175, R176): mirror A, then mirror B. It waits for a BIST round in progress (R505). -/
def execCheckpointCommit (stack : Nat) (mirrorB : Bool) (s : State) : Host.Outcome State Fault Refusal :=
  .next (if 2 ≤ stack then s else match (s.stack stack).ckpt with
    | none => s
    | some k =>
      if !s.maint.bistRound.isEmpty || k.aDone != mirrorB then s
      else if !mirrorB then
        updStack stack (fun t => { t with mirA := t.mirA.write s.part.variant stack k s.tbu.now, mirB := t.mirB.begin k.seq,
                                          ckpt := some { k with aDone := true, pulsed := [] } }) s
      else
        let s := updStack stack (fun t => { t with mirB := t.mirB.write s.part.variant stack k s.tbu.now, ckpt := none }) s
        let s := forEach k.cmds endCkptCmd (endReinit stack k (endJob 7 stack 2 s))
        match k.again with
        | some x => let s := askCkpt stack true x.1 false none s
                    updStack stack (fun t => { t with ckpt := t.ckpt.map (fun c => { c with cmds := c.cmds ++ x.2 }) }) s
        | none => s)

/-! ## Relocation, scrub, wear and GC (R168, R180-R185) -/

/-- READ_COUNT_THRESHOLD (R181, R182): a group at its threshold is queued for RECLAIM. -/
def execReadCountThreshold (a k lblock : Nat) (s : State) : Host.Outcome State Fault Refusal :=
  .next (ifMounted a (fun s =>
    if s.threshold ≤ mgetD s.slate.groups (groupKey a k lblock) 0 then queueReloc 2 .disturb a none k lblock none s else s) s)

/-- Are all copies of a relocation programmed? -/
def State.relocReady (s : State) (r : Reloc) : Bool := let cs := r.cells s; !cs.isEmpty && cs.all (fun c => decide (c ∈ r.copied))

/-- One cell's mapping switches to the relocation's target; the lines it replaced are lost no more (R159, R181). -/
def switchCell (r : Reloc) (c : Nat) (s : State) : State :=
  match mget r.target c with
  | none => s
  | some pb => updSb (sbKey r.array c r.k) (fun b => { b with
      map := mset b.map r.lblock pb
      lost := b.lost.filter (fun x => !(decide (x / 256 = r.lblock) && mhas r.repl (x % 256))) })
    (match mget (s.sb (sbKey r.array c r.k)).map r.lblock with
     | some old => { s with slate := { s.slate with rebuilt := s.slate.rebuilt.filter (fun l => decide (l.1 / 256 ≠ pbKey (sbKey r.array c r.k) old)) } }
     | none => s)

/-- R159: the lines of a repaired block that stay lost, kept for the command's result. -/
def noteLost (r : Reloc) (s : State) : State :=
  match r.cmd, r.cell with
  | some id, some c =>
    let still := ((s.sb (sbKey r.array c r.k)).lost.filter (fun x => decide (x / 256 = r.lblock))).map
      (fun x => lineAddrOf r.array c r.k r.lblock (x % 256))
    { s with slate := { s.slate with repairLost := mset s.slate.repairLost id (mgetD s.slate.repairLost id [] ++ still) } }
  | _, _ => s

/-- R175: a command, or a commit, waits for a checkpoint of each stack that has mounted normally (R178). -/
def ckptBoth (x : Option (Nat × Nat)) (s : State) : State :=
  match (List.range 2).filter (fun i => (s.stack i).mounted) with
  | [] => match x with | some x => endCkptCmd x s | none => s
  | l => forEach l (fun i s => askCkpt i true false false x s) s

/-- R159: once every block of a repair has switched, its lost lines are written out and its checkpoint starts. -/
def settleRepair (id : Nat) (s : State) : State :=
  if s.slate.relocs.any (fun r => decide (r.cmd = some id)) then s
  else match s.cmd id with
    | none => s
    | some c =>
      let l := mgetD s.slate.repairLost id []
      let s := putOut c false (c.arg 1) ((l.flatMap (toLE 4)).take (c.fld 2 31 0)) s
      let s := { s with slate := { s.slate with repairLost := mdel s.slate.repairLost id } }
      ckptBoth (some (id, l.length)) s

/-- R181, R189: a relocation switches; its group's count starts afresh. -/
def switchReloc (r : Reloc) (s : State) : State :=
  let s := forEach (r.cells s) (switchCell r) s
  let s := { s with slate := { s.slate with relocs := s.slate.relocs.filter (fun x => decide (x ≠ r)) } }
  let g := groupKey r.array r.k r.lblock
  let s := if .disturb ∈ r.causes then
      count (sltCnt r.array 5) { s with slate := { s.slate with groups := mdel s.slate.groups g, blocked := s.slate.blocked.filter (· ≠ g) } }
    else s
  let s := if .scrub ∈ r.causes ∨ .recon ∈ r.causes then count (sltCnt r.array 6) s else s
  let s := match r.cmd with | some id => settleRepair id (noteLost r s) | none => s
  if s.slate.relocs.isEmpty then endJob 1 2 2 s else s

/-- RELOCATION_SWITCH (R181): at the array's step barrier every finished relocation of the array switches. -/
def execRelocationSwitch (a : Nat) (s : State) : Host.Outcome State Fault Refusal :=
  .next (ifMounted a (fun s =>
    if (s.arr a).cur.isSome then s
    else forEach (s.slate.relocs.filter (fun r => decide (r.array = a) && s.relocReady r)) switchReloc s) s)

/-- One sub-bank of a stripe as the scrub reads it at the shifted reference (R184). A line found uncorrectable or misdirected there is
reread at the normal reference, which LINE_READ_COMPLETE reports. -/
def scrubLine (a c lb ln j errs : Nat) (s : State) : State :=
  let b := s.sb (sbKey a c j)
  if !mhas b.map lb || b.failed || decide (lb * 256 + ln ∈ b.lost) then s
  else
    let s := countGroup a j lb s
    if decide (8 < errs) || s.wrongLine a c j lb ln then
      { s with slate := { s.slate with rereads := addOnce s.slate.rereads (rereadKey a c j lb ln) } }
    else
      let s := if errs = 0 then s else count (sltCnt a 0) s
      if s.slate.relocBits.toNat ≤ errs then queueReloc 3 .scrub a (some c) j lb none s else s

/-- R160: do a stripe's data, all readable, differ from its parity? -/
def State.stripeDiffers (s : State) (a c lb ln : Nat) : Bool :=
  let ls := (List.range 9).map (fun k => s.lineOk a c k lb ln)
  ls.all (·.isSome) && !decide (s.parityOf a c lb ln = ((ls.getD 8 none).getD []))

/-- Is a stripe the last that a pass over a stack reads? -/
def lastStripe (v : Variant) (a c lb ln : Nat) : Bool := decide (a % 32 = 31) && decide (c = 1023) && decide (lb + 1 = v.userBlocks) && decide (ln = 255)

/-- R504: does a read of a higher rank still wait for slots of a cell? -/
def State.scrubWaits (s : State) (a c : Nat) : Bool :=
  (List.range 9).any (fun k => (s.copyReads a k (fun _ => true) ++ s.passReads a k).any (fun x => decide (x.1 = c)))

/-- The tables of a model whose copy in a stack begins at a line (R163). -/
def Slot.tablesAt (m : Slot) (a c lb ln : Nat) : List SObj :=
  m.objs.filter (fun o => decide (o.kind = 6) && decide (o.line / 2 ^ 16 = a % 32 * 1024 + c) && decide (o.line % 2 ^ 13 = lb * 256 + ln))

/-- SCRUB_PASS (R160, R163, R184): the patrol reads one stripe; `errs` are the errors of its nine lines at the shifted
reference. The pass is a job of the stack until its last stripe. -/
def execScrubPass (a cell lblock line : Nat) (errs : List Nat) (s : State) : Host.Outcome State Fault Refusal :=
  .next (fallDue 0 (a / 32) (ifMounted a (fun s =>
    if decide (a ∈ s.maint.bistRound) || s.scrubWaits a cell then s
    else
      let s := deviceJob 0 (a / 32) s
      let s := forUpto 9 (fun j s => scrubLine a cell lblock line j (errs.getD j 0) s) s
      let s := if errs.all (· ≤ 8) && s.stripeDiffers a cell lblock line then parityFix a cell lblock line s else s
      let s := forEach s.models.slots (fun m s => forEach (m.2.tablesAt a cell lblock line) (checkTable m.1 true) s) s
      if lastStripe s.part.variant a cell lblock line then endJob 0 (a / 32) 2 s else s)) s)

/-- The erase count that the metadata of a block's lines give (R143, R185): none where no line of it is programmed. -/
def State.knownErases (s : State) (sb pb : Nat) : Option Nat :=
  (s.slate.lines.find? (fun l => decide (l.1 / 256 = pbKey sb pb))).map (fun l => bits (l.2.meta (sb % 9)) 31 16)

/-- The mapped block with the fewest erases; the first in the map of several: DESIGN CHOICE (log 22). -/
def leastErased (er : Nat → Option Nat) : List (Nat × Nat) → Option (Nat × Nat × Nat)
  | [] => none
  | x :: l => match er x.2, leastErased er l with
    | some e, some y => if y.2.2 < e then some y else some (x.1, x.2, e)
    | some e, none => some (x.1, x.2, e)
    | none, r => r

/-- The sub-bank's highest known erase count. -/
def State.mostErases (s : State) (sb : Nat) : Nat :=
  (List.range (physBlocks s.part.variant)).foldl (fun m p => max m ((s.knownErases sb p).getD 0)) 0

/-- WEAR_CHECK (R185): a sub-bank's least-erased mapped block goes into its most-erased free block when they differ by more
than 2,000. A free block is erased, so its count cannot be read and is the sub-bank's highest: the lowest free block is taken (log 22).
WEAR does not start while a stage session is open (R505). -/
def execWearCheck (a cell k : Nat) (s : State) : Host.Outcome State Fault Refusal :=
  .next (ifMounted a (fun s =>
    let sb := sbKey a cell k
    if s.models.stage.isSome || s.activating || decide (a ∈ s.maint.bistRound) || (s.sb sb).failed then s
    else match leastErased (s.knownErases sb) (s.sb sb).map, s.takeBlock sb with
      | some m, some f =>
        if m.2.2 + 2000 < s.mostErases sb &&
          !s.slate.relocs.any (fun r => decide (r.array = a) && decide (r.k = k) && decide (r.lblock = m.1) && (decide (r.cell = some cell) || decide (r.cell = none))) then
          deviceJob 2 (a / 32) { s with slate := { s.slate with relocs := s.slate.relocs ++
            [{ pri := 4, causes := [.wear], array := a, cell := some cell, k := k, lblock := m.1, target := [(cell, f)], lines := [],
               pulses := [], copied := [], repl := [], cmd := none }] } }
        else s
      | _, _ => s) s)

/-- R168: may GC erase a physical block? -/
def State.gcMay (s : State) (a sb pb : Nat) : Bool :=
  let t := s.stack (a / 32)
  let free (m : SbSt) : Bool := !m.map.any (fun p => decide (p.2 = pb))
  let inMir (m : Mirror) : Bool := m.complete s.part.variant && free (m.mapOf s.part.variant sb)
  free (s.sb sb) && inMir t.mirA && inMir t.mirB && s.programmed (pbKey sb pb) && !s.reserved sb pb &&
  !decide (pb ∈ (s.sb sb).retired) && !(s.pb (pbKey sb pb)).erasing && !(s.pb (pbKey sb pb)).programming

/-- GC_ERASE (R167, R168): the first erase pulse of an unmapped block. -/
def execGcErase (a cell k pblock : Nat) (s : State) : Host.Outcome State Fault Refusal :=
  .next (ifMounted a (fun s =>
    let sb := sbKey a cell k
    if pblock < physBlocks s.part.variant && !s.activating && !decide (a ∈ s.maint.bistRound) && s.gcMay a sb pblock then
      deviceJob 3 (a / 32) (updPb (pbKey sb pblock) (fun p => { p with erasing := true, pulses := 1 }) s)
    else s) s)

end Sys2Proof.Machine
end

