-- ==== Sys2Proof/Machine/Power.lean ====
section
/-! DEFINITION. Sys2Proof/Machine/Power.lean: device-scope fatals, the loss of volatile state, power states, P-states and
the power arbiter (R468-R488, R489-R502, R418, R518, R526). -/

namespace Sys2Proof.Machine

/-! ## Fatals (R489, R490, R502, R507) -/

/-- Every plan that runs or stops halts (R224). -/
def haltAll (s : State) : State := forEach (s.plans.map (·.1)) haltPlan s

/-- R373, R490, R502, R507: a device-scope fatal: every plan halts, repairs and waiting follow-ups are abandoned, every job
is cancelled except a checkpoint in progress, and the commands that waited for them end with `ST_DEVICE_FAULT`. -/
def deviceFatal (code : Nat) (s : State) : State :=
  let s := haltAll s
  let s := endJobs (fun j => decide (j.activity ≠ 7)) 3 s
  let cmds := s.slate.relocs.filterMap (·.cmd) ++ s.maint.bist.map (·.cmd) ++ s.maint.analog.map (·.cmd)
  let s := { s with
    slate := { s.slate with relocs := [], recons := [] }
    maint := { s.maint with bist := [], bistRound := [], analog := [] }
    err := { s.err with fatalDev := true, waiting := [] } }
  forEach cmds (fun id s => finish id .deviceFault 0 s) (record .ft code { scope := 1 } s)

/-- CLOCK_FAULT (R493): a PLL loses lock in RUN. -/
def execClockFault (s : State) : Host.Outcome State Fault Refusal :=
  .next (if s.pwr.state = .run then deviceFatal 0x0802 s else s)
/-- FW_FAULT (R493). -/
def execFwFault (s : State) : Host.Outcome State Fault Refusal := .next (deviceFatal 0x0805 s)
/-- MGMT_UE (R493). -/
def execMgmtUe (s : State) : Host.Outcome State Fault Refusal := .next (deviceFatal 0x0801 s)
/-- SUPPLY_FAULT (R518): in RUN. -/
def execSupplyFault (s : State) : Host.Outcome State Fault Refusal :=
  .next (if s.pwr.state = .run then deviceFatal 0x0803 s else s)

/-! ## What a reset takes away (R437) -/

/-- A stack with its controller's live state gone; the mirrors lie in the Slate. -/
def Stack.cold (t : Stack) : Stack := { Stack.reset with mirA := t.mirA, mirB := t.mirB }

/-- R305, R316: the record of a model slot in the configuration store. A session in memory is gone, and the slot is as
before it; a record left in COMMITTING waits for the next mount (R322). -/
def State.storedSlot (s : State) (i : Nat) (m : Slot) : Slot :=
  let m := { m with lostTab := [], lostSoon := [], tables := [], lost := false }
  match mget s.models.records i with
  | some r => { r.2.1 with st := .committing, lostTab := [], lostSoon := [], tables := [], lost := false }
  | none => match s.models.stage with
    | some g => if g.slot = i then { m with st := if m.midSwap then .partialSwap else g.prior, polMixed := if m.midSwap then m.polMixed else none } else m
    | none => m

/-- R429: an operation cut short leaves its area undefined. -/
def Bank.cut (b : Bank) : List (Nat × Nat) := match b.op with | some o => [(o.start, o.length)] | none => []

/-- R429, R437: every SRAM, plan, stream, adapter and register that does not survive a reset. Slate contents, mirrors and
blocks, code flash, OTP and the configuration store stay; live Slate maps are read again at mount. A block being erased stays so
until its erase is repeated (R167, R179). -/
def loseVolatile (s : State) : State :=
  { s with
    ready := Ready.reset, fmtSticky := 0, cnt := [], ram := s.ram.filter (fun c => decide (boardBase ≤ c.1) && decide (c.1 < 2 ^ 56)),
    ramUndef := [], mgmt := [], mbx := Mbx.reset,
    err := { Err.reset with kept := s.err.kept }
    slate := { Slate.reset with
      lines := s.slate.lines, pbs := mmap (fun _ p => { p with programming := false, pulses := 0 }) s.slate.pbs,
      stackW := s.slate.stackW.cold, stackE := s.slate.stackE.cold, threshE8 := s.slate.threshE8,
      relocBits := s.slate.relocBits, periodH := s.slate.periodH, ckptS := s.slate.ckptS }
    plans := [], arrs := [], norm := [], normSum := [], taint := []
    tiers := { Tiers.reset with
      trained := s.tiers.trained, unavailable := s.tiers.unavailable, rate := s.tiers.rate, density := s.tiers.density,
      ranks2 := s.tiers.ranks2, channels := s.tiers.channels, chFail := s.tiers.chFail, stored := s.tiers.stored }
    models := { Models.reset with slots := mmap s.storedSlot s.models.slots, records := s.models.records, created := s.models.created }
    codec := Codec.reset
    spar := { Spar.reset with
      st := s.spar.st, member := s.spar.member, manager := s.spar.manager, size := s.spar.size, torus := s.spar.torus,
      rows := s.spar.rows, cols := s.spar.cols, routeLong := s.spar.routeLong, memberLost := s.spar.memberLost,
      roleWorker := s.spar.roleWorker, members := s.spar.members, routes := s.spar.routes, suspended := s.spar.suspended }
    sec := { s.sec with
      actTime := none, actDeferred := false, stageRun := false, written := [], delta := [],
      doe := Spdm.reset, smbus := Spdm.reset, lmsLeft := 0, jtag := 1 }
    flash := { s.flash with
      undef := s.flash.undef ++ s.flash.bank0.cut ++ s.flash.bank1.cut, bank0 := Bank.reset,
      bank1 := Bank.reset, prefetch := [], branch := [] }
    maint := { Maint.reset with nextJob := s.maint.nextJob } }

/-- R437: what a cold reset takes beyond that: board memory, time, the timebase, Slate and power registers, the group. -/
def loseCold (s : State) : State :=
  let t := loseVolatile s
  { t with
    ram := [], host := HostIf.reset, tbu := Tbu.reset
    slate := { t.slate with threshE8 := 600, relocBits := 5, periodH := 24, ckptS := 60 }
    tiers := { Tiers.reset with stored := t.tiers.stored }
    spar := { Spar.reset with roleWorker := t.spar.roleWorker }
    sec := { t.sec with stagingOk := false }
    pwr := { Pwr.reset s.part.variant.tdp with thermtrip := s.pwr.thermtrip, state := s.pwr.state } }

/-- THERMTRIP (R526): every domain but the always-on one is powered down until POR. -/
def execThermtrip (s : State) : Host.Outcome State Fault Refusal :=
  .next (if s.pwr.thermtrip then s
    else
      let s := loseCold s
      emit .thermtripLow { s with pwr := { s.pwr with thermtrip := true, state := .off } })

/-- POWER_LOSS (R437, R518, R520): the rails go. -/
def execPowerLoss (s : State) : Host.Outcome State Fault Refusal :=
  .next (
    let s := loseCold s
    { s with pwr := { Pwr.reset s.part.variant.tdp with state := .off } })

/-! ## P-states (R482-R484, R517) -/

/-- VDD_CORE of a P-state in mV (R20, R517). -/
def State.vdd (s : State) (p : Nat) : Nat := (match p with | 0 => 800 | 1 => 720 | 2 => 650 | _ => 600) + s.part.vddOffset

/-- R482: the P-state that the bounds ask for. -/
def Pwr.want (p : Pwr) : Nat := max (max p.pFast p.capLimit) (max p.thermLimit (if p.prochot then 3 else 0))
/-- R505: while a BIST round runs only the thermal limit and PROCHOT_N move the P-state. -/
def State.wantNow (s : State) : Nat :=
  if s.maint.bistRound.isEmpty then s.pwr.want
  else max s.pwr.pstate (max s.pwr.thermLimit (if s.pwr.prochot then 3 else 0))

/-- R486: the bounds that decide the P-state now: cap, thermal, PROCHOT_N, `p_fast`. -/
def Pwr.limit (p : Pwr) : Nat :=
  let w := p.want
  if w = 0 then 0
  else flag (decide (p.capLimit = w)) 0 + flag (decide (p.thermLimit = w)) 1 + flag (p.prochot && decide (w = 3)) 2 + flag (decide (p.pFast = w)) 3

/-- R505: a BIST round under which the P-state moves is run again from its start. -/
def restartBist (m : Maint) : Maint :=
  { m with
    bist := match m.bist with | r :: l => { r with left := m.bistRound ++ r.left } :: l | [] => []
    bistRound := [] }

/-- R484: a change begins unless one is in progress. To a slower P-state the clock switches first and VDD_CORE follows; to a
faster one VDD_CORE ramps first. -/
def retarget (s : State) : State :=
  let w := s.wantNow
  if s.pwr.ramp.isSome ∨ w = s.pwr.pstate then s
  else
    let s := { s with maint := restartBist s.maint }
    emit (.vddCore (s.vdd w)) { s with pwr := { s.pwr with ramp := some w, pstate := max s.pwr.pstate w } }

/-- PSTATE_CHANGE_COMPLETE (R484). -/
def execPstateChangeComplete (s : State) : Host.Outcome State Fault Refusal :=
  .next (match s.pwr.ramp with
    | none => s
    | some w => retarget (count 0x3002C { s with pwr := { s.pwr with ramp := none, pstate := w } }))

/-- PROCHOT_N_ASSERT (R418). -/
def execProchotNAssert (s : State) : Host.Outcome State Fault Refusal :=
  .next (retarget { s with pwr := { s.pwr with prochot := true, hotSeen := true } })
/-- PROCHOT_N_RELEASE (R418): 1 ms after the release. -/
def execProchotNRelease (s : State) : Host.Outcome State Fault Refusal :=
  .next (retarget { s with pwr := { s.pwr with prochot := false } })

/-- THERMAL_LIMIT_TICK (R483): once a ms, with the hottest Tj in 1/16 degrees C. -/
def execThermalLimitTick (tj : Int) (s : State) : Host.Outcome State Fault Refusal :=
  .next (
    let p := { s.pwr with tj := BitVec.ofNat 16 (twos 16 tj) }
    let p := if tj ≥ 1600 then { p with thermLimit := min 3 (p.thermLimit + 1), coolMs := 0 }
      else if tj ≤ 1520 then
        (if p.coolMs + 1 < 10 then { p with coolMs := p.coolMs + 1 } else { p with thermLimit := p.thermLimit - 1, coolMs := 0 })
      else { p with coolMs := 0 }
    let s := { s with pwr := p }
    let s := if bit p.limit 1 then count 0x30034 s else s
    retarget s)

/-- R485: one more action while the average is above the cap. -/
def Pwr.tighten (p : Pwr) (bist : Bool) : Pwr :=
  if p.halvings < 8 then { p with halvings := p.halvings + 1 }
  else if !p.bistHeld then { p with bistHeld := true }
  else if p.capLimit < 3 then (if 10 ≤ p.sinceMove then { p with capLimit := p.capLimit + 1, sinceMove := 0 } else p)
  else if bist then p else { p with capExceeded := true }

/-- R485: one action undone, in reverse order. -/
def Pwr.loosen (p : Pwr) : Pwr :=
  if 0 < p.capLimit then { p with capLimit := p.capLimit - 1, sinceMove := 0 }
  else if p.bistHeld then { p with bistHeld := false }
  else { p with halvings := p.halvings - 1 }

/-- R488: at the tenth tick of a ms, what was seen in it is counted. -/
def countMs (s : State) : State :=
  let p := s.pwr
  if p.tick < 9 then { s with pwr := { p with tick := p.tick + 1 } }
  else
    let s := { s with pwr := { p with tick := 0, capSeen := false, hotSeen := p.prochot, pulseSeen := false } }
    let s := if p.capSeen then count 0x30030 s else s
    let s := if p.hotSeen then count 0x30038 s else s
    if p.pulseSeen then count 0x3003C s else s

/-- POWER_ARBITER_TICK (R485): every 100 us, with the average power in 1/16 W. It acts only in RUN. -/
def execPowerArbiterTick (power : Nat) (s : State) : Host.Outcome State Fault Refusal :=
  .next (
    let p := { s.pwr with power := BitVec.ofNat 16 (min power 0xFFFF), sinceMove := min 10 (s.pwr.sinceMove + 1) }
    let s := { s with pwr := p }
    if p.state ≠ .run then s
    else
      let cap := 16 * p.capW
      let p :=
        if cap < power then { p.tighten (!s.maint.bistRound.isEmpty) with belowTicks := 0 }
        else
          let p := { p with capExceeded := false }
          if 100 * power < 95 * cap then
            (if p.belowTicks + 1 < 10 then { p with belowTicks := p.belowTicks + 1 } else { p.loosen with belowTicks := 0 })
          else { p with belowTicks := 0 }
      let p := { p with capSeen := p.capSeen || bit p.limit 0, pulseSeen := p.pulseSeen || decide (0 < p.halvings) }
      retarget (countMs { s with pwr := p }))

/-! ## The entry handshake (R475-R479) -/

/-- The code of a power state in `POWER_SET` (R379). -/
def PowerState.code : PowerState → Nat
  | .run => 0
  | .idle => 1
  | .sleep => 2
  | .deepSleep => 3
  | .off => 4

/-- The power state that a code of `POWER_SET` names. -/
def powerOf (n : Nat) : PowerState :=
  match n with
  | 0 => .run
  | 1 => .idle
  | 2 => .sleep
  | 3 => .deepSleep
  | _ => .off

/-- A block's answer (R475). -/
inductive Answer where
  | accept
  | delay
  | refuse (reason : Nat)
deriving DecidableEq, Repr

/-- The jobs for which the maintenance arbiter refuses (R475). -/
def Job.refuses (j : Job) : Bool :=
  decide (j.st = 1) && (decide (j.activity ∈ [4, 5, 6, 9]) || (decide (j.activity = 7) && j.cmd.isSome))

/-- R475: what a block answers. -/
def State.answer (s : State) (e : Entry) : Answer :=
  let deep := decide (e.target ≠ .idle)
  match e.block with
  | 1 => if s.host.dma.any (fun d => d.2.enable && !d.2.halted && decide (d.2.head ≠ d.2.tail)) then .delay else .accept
  | 2 => if s.mbx.cmds.any (fun c => decide (c.id < e.cmd) && decide (c.op ≠ 0x0302)) then .delay else .accept
  | 3 => if s.plans.any (fun p => p.2.active) then .refuse 1 else .accept
  | 4 =>
    if deep && s.maint.jobs.any Job.refuses then .refuse 7
    else if s.slate.rings.any (fun r => decide (r.2.done < r.2.count)) then .delay else .accept
  | 5 =>
    if deep && s.models.stage.isSome then .refuse 2
    else if decide (e.target = .deepSleep ∨ e.target = .off) && (!e.final || s.slate.stackW.ckpt.isSome || s.slate.stackE.ckpt.isSome)
    then .delay else .accept
  | 6 => if deep && (s.flash.bank0.op.isSome || s.flash.bank1.op.isSome) then .refuse 5 else .accept
  | 7 => if deep && s.sec.actTime.isSome then .refuse 4 else .accept
  | 8 => if deep && (decide (s.spar.st = 1) || decide (s.spar.st = 2)) then .refuse 3 else .accept
  | _ => .accept

/-- R477: an entry is refused; the blocks go on in RUN. -/
def refuseEntry (e : Entry) (reason : Nat) (s : State) : State :=
  let s := count 0x30024 { s with
    mbx := { s.mbx with quiet := false }
    pwr := { s.pwr with
      entry := none, entBlock := BitVec.ofNat 8 e.block, entReason := BitVec.ofNat 8 reason,
      entTarget := BitVec.ofNat 3 e.target.code, entAborted := true } }
  finish e.cmd .wrongState (e.block + reason * 256) s

/-- Is a doorbell pending on an enabled pair (R474)? -/
def State.doorbell (s : State) : Bool := s.mbx.pairs.any (fun p => p.2.enable && decide (p.2.sqTail ≠ p.2.sqHead))

/-- R357, R468: the Spar ports stay up in IDLE only. DEDUCED (log 65). -/
def sleepPorts (s : State) : State :=
  forUpto s.part.variant.ports (fun p s => if (s.port p).st = portFailed then s
    else updPort p (fun x => { x with st := portDown, txSeq := 0, rxSeq := 0, replay := [], discarding := false, failRow := 0 }) s) s

/-- R469, R473, R478, R479: every block has accepted: the state is latched, and a level that is already there ends it. -/
def latchState (e : Entry) (s : State) : State :=
  let s := { s with pwr := { s.pwr with entry := none, entBlock := 0, entReason := 0, entTarget := BitVec.ofNat 3 e.target.code, entAborted := false } }
  let s := count 0x30020 (finish e.cmd .ok 0 s)
  let low := s.pwr.wakeN
  let s := { s with pwr := { s.pwr with state := e.target, wakeN := false } }
  let s := if e.target = .idle then s else sleepPorts s
  match e.target with
  | .off => emit .linkDown (let t := loseCold s; { t with pwr := { t.pwr with state := .off } })
  | t =>
    let s := if t = .deepSleep then { s with ready := { Ready.reset with time := s.ready.time } } else s
    if low then wakeEvent true (count 0x30028 s)
    else if s.doorbell then wakeEvent false s else s

/-- The final checkpoints of both stacks are started (R475). -/
def startFinal (e : Entry) (s : State) : State :=
  if e.block = 5 && !e.final && decide (e.target = .deepSleep ∨ e.target = .off) then
    let s := forUpto 2 (fun i s => if (s.stack i).mounted then startCkpt i true false none s else s) s
    { s with pwr := { s.pwr with entry := some { e with final := true } } }
  else s

/-- R475: the blocks are asked one at a time in ascending code order, until one delays or refuses. -/
def askBlocks : Nat → State → State
  | 0, s => s
  | n + 1, s =>
    match s.pwr.entry with
    | none => s
    | some e =>
      if 9 < e.block then latchState e s
      else match s.answer e with
        | .refuse r => refuseEntry e r s
        | .delay =>
          if e.block = 5 && !e.final then
            let s := startFinal e s
            if s.slate.stackW.ckpt.isSome || s.slate.stackE.ckpt.isSome then s else askBlocks n s
          else s
        | .accept => askBlocks n { s with
            mbx := { s.mbx with quiet := s.mbx.quiet || decide (e.block = 2) }
            pwr := { s.pwr with entry := some { e with block := e.block + 1 } } }

/-- ENTRY_BLOCK_READY (R475, R476): the delaying block is asked again, with the delay added; past 10 ms it refuses. -/
def execEntryBlockReady (elapsedNs : Nat) (s : State) : Host.Outcome State Fault Refusal :=
  .next (match s.pwr.entry with
    | none => s
    | some e =>
      let e := { e with delayNs := e.delayNs + elapsedNs }
      let s := { s with pwr := { s.pwr with entry := some e } }
      if 10000000 < e.delayNs then refuseEntry e 8 s else askBlocks 12 s)

/-- ENTRY_DELAY_EXPIRED (R476). -/
def execEntryDelayExpired (s : State) : Host.Outcome State Fault Refusal :=
  .next (match s.pwr.entry with
    | none => s
    | some e => refuseEntry e 8 s)

/-- The body of `POWER_SET` (R33, R379, R475, R480). The cap and `p_fast` take hold whether or not an entry is refused.
DESIGN CHOICE (log 36). -/
def powerSet (c : Cmd) (s : State) : Reply :=
  let cap := c.fld 0 15 0
  let st := c.fld 0 18 16
  checked c false
    [(c.argReserved 0x37FFFF 0 0 0 0 || decide (c.sub.payLen ≠ 0) || decide (4 < st) ||
        (decide (cap ≠ 0) && (decide (cap < 150) || decide (s.part.variant.tdp < cap))), .badField),
     (decide (st ≠ 0) && (s.pwr.waking || s.pwr.entry.isSome), .wrongState)] s
    (let s := retarget { s with pwr := { s.pwr with capW := if cap = 0 then s.pwr.capW else cap, pFast := c.fld 0 21 20 } }
     if st = 0 then .done .ok 0 s
     else .running { s with pwr := { s.pwr with entry := some ⟨c.id, powerOf st, 1, 0, false⟩ } })

/-- POWER_SET. The handshake runs as far as it can at once. -/
def execPowerSet (r : CmdRef) (s : State) : Host.Outcome State Fault Refusal :=
  .next (let t := iarik 0x0003 r none powerSet s
    if s.pwr.entry.isNone && t.pwr.entry.isSome then askBlocks 12 t else t)

/-! ## Exit (R474, R480) -/

/-- WAKE_N_LOW (R474, R479): a level; met during an entry it ends the state as soon as it is latched. In OFF the power-on reset
follows it. -/
def execWakeNLow (s : State) : Host.Outcome State Fault Refusal :=
  .next (if s.pwr.entry.isSome || decide (s.pwr.state = .off) then { s with pwr := { s.pwr with wakeN := true } } else wakeEvent true s)

end Sys2Proof.Machine
end

