-- ==== Sys2Proof/Machine/Timebase.lean ====
section
/-! DEFINITION. Sys2Proof/Machine/Timebase.lean: the TBU: corrections, CAD_PPS, CAD_REF and `TIME_SET` (R209, R227, R228,
R379, R415, R416), and the device commands NOP and IDENTIFY. -/

namespace Sys2Proof.Machine

/-- The 1-second grid of CAD_PPS in ns (R415). -/
def secondNs : Nat := 1000000000

/-- R209: a correction of `TBU_NOW` towards a value: slewed while a plan runs or when small, otherwise stepped; backwards by a hold. -/
def correctTo (target : Nat) (s : State) : State :=
  let d : Int := (target : Int) - (s.tbu.now : Int)
  if d = 0 then s
  else if s.plans.any (fun p => p.2.active) || decide (d.natAbs ≤ 1000000) then
    { s with tbu := { s.tbu with slewLeft := d, slewFrom := s.tbu.now, slewing := true, holdTo := none } }
  else if 0 < d then { s with tbu := { s.tbu with now := target, slewLeft := 0, slewing := false, holdTo := none } }
  else { s with tbu := { s.tbu with slewLeft := 0, slewing := false, holdTo := some s.tbu.now } }

/-- Where `TBU_NOW` stands once a slew of `d` is complete: at 500 x 10^-6 it takes 2,000 times as long as it corrects, which the
disciplined time has passed and the clock has run through faster or slower by `d` (R209). DESIGN CHOICE (log 103): R209 gives only
the greatest rate. -/
def slewEnd (from_ : Nat) (d : Int) : Nat := ((from_ : Int) + 2000 * d.natAbs + d).toNat

/-- SLEW_COMPLETE (R209): the slewed correction, forwards or backwards, or the hold of a backward step, ends. -/
def execSlewComplete (s : State) : Host.Outcome State Fault Refusal :=
  .next { s with tbu := { s.tbu with
    now := if s.tbu.slewLeft = 0 then s.tbu.now else max s.tbu.now (slewEnd s.tbu.slewFrom s.tbu.slewLeft)
    slewLeft := 0, slewing := false, holdTo := none } }

/-- The time of day is in force (R406). -/
def timeSetReady (s : State) : State := { s with ready := { s.ready with time := true } }

/-- The body of `TIME_SET` (R379, R415). -/
def timeSet (c : Cmd) (s : State) : Reply :=
  let v := c.arg 0
  let pps := decide (c.fld 1 0 0 = 1)
  let edge := match s.tbu.lastEdge with | some t => decide (s.tbu.now ≤ t + 2 * secondNs) | none => false
  checked c false
    [(c.argReserved all64 1 0 0 0 || decide (c.sub.payLen ≠ 0) || (pps && decide (v % secondNs ≠ 0)), .badField),
     (decide (s.spar.st = 2) || (pps && !edge), .wrongState)] s
    (if pps then .running { s with tbu := { s.tbu with ppsSet := s.tbu.ppsSet ++ [(c.id, v, s.tbu.now)] } }
     else
      let s := timeSetReady (correctTo v { s with tbu := { s.tbu with takePhase := true } })
      .done .ok s.tbu.now s)

/-- TIME_SET. -/
def execTimeSet (r : CmdRef) (s : State) : Host.Outcome State Fault Refusal := .next (iarik 0x0002 r none timeSet s)

/-- TIME_SET_PPS_TIMEOUT (R379): no edge within 2 s of acceptance. -/
def execTimeSetPpsTimeout (t : Nat) (s : State) : Host.Outcome State Fault Refusal :=
  .next (
    let s := reachTime t s
    let old := s.tbu.ppsSet.filter (fun p => decide (p.2.2 + 2 * secondNs ≤ s.tbu.now))
    let s := { s with tbu := { s.tbu with ppsSet := s.tbu.ppsSet.filter (fun p => !decide (p.2.2 + 2 * secondNs ≤ s.tbu.now)) } }
    forEach old (fun p s => finish p.1 .aborted 0 s) s)

/-- The nearest whole second to a moment. -/
def nearestSecond (t : Nat) : Nat := (t + secondNs / 2) / secondNs * secondNs

/-- R379, R415: waiting `TIME_SET`s take hold at an edge whose delay is `delay` ns past. -/
def applyPps (delay : Nat) (s : State) : State :=
  let l := s.tbu.ppsSet
  let s := { s with tbu := { s.tbu with ppsSet := [], takePhase := false, goodEdges := 0 } }
  forEach l (fun p s => let s := timeSetReady (correctTo (p.2.1 + delay) s); finish p.1 .ok s.tbu.now s) s

/-- R415: an edge is judged against the whole seconds. `cap` is the capture less `pps_delay_ns`. -/
def judgeEdge (t cap : Nat) (s : State) : State :=
  let near := nearestSecond cap
  let err : Int := (cap : Int) - (near : Int)
  let fix (s : State) : State := correctTo ((s.tbu.now : Int) - err).toNat s
  if s.tbu.takePhase then fix { s with tbu := { s.tbu with takePhase := false } }
  else if err.natAbs ≤ 1000000 then
    let good := if err.natAbs ≤ 100 then min 3 (s.tbu.goodEdges + 1) else 0
    let s := fix { s with tbu := { s.tbu with lastAccepted := some t, goodEdges := good } }
    if good = 3 then { s with tbu := { s.tbu with locked := true, source := 1, holdover := false } } else s
  else { s with tbu := { s.tbu with ppsRejects := min 255 (s.tbu.ppsRejects + 1), goodEdges := 0 } }

/-- CAD_PPS_EDGE (R415). A grouped worker ignores CAD_PPS. -/
def execCadPpsEdge (t : Nat) (rising : Bool) (s : State) : Host.Outcome State Fault Refusal :=
  .next (
    let s := reachTime t s
    if s.spar.st = 2 || (rising == s.tbu.ppsPol) then s
    else
      let delay := s.tbu.ppsDelay.toNat
      let s := { s with tbu := { s.tbu with lastEdge := some s.tbu.now } }
      if s.tbu.ppsSet ≠ [] then applyPps delay s
      else if s.ready.time then judgeEdge s.tbu.now (s.tbu.now - delay) s
      else s)

/-- PPS_HOLDOVER_TIMEOUT (R228, R415). -/
def execPpsHoldoverTimeout (t : Nat) (s : State) : Host.Outcome State Fault Refusal :=
  .next (
    let s := reachTime t s
    match s.tbu.lastAccepted with
    | some e =>
      if s.tbu.locked && decide (s.tbu.source = 1) && decide (e + 1500000000 ≤ s.tbu.now) then
        { s with tbu := { s.tbu with locked := false, source := 0, holdover := true, holdoverSeen := true, goodEdges := 0 } }
      else s
    | none => s)

/-- CAD_REF_PRESENT (R416): it is taken as present while `ref_en` is 1. -/
def execCadRefPresent (s : State) : Host.Outcome State Fault Refusal :=
  .next (if s.tbu.refEn then { s with tbu := { s.tbu with refPresent := true } } else s)
/-- CAD_REF_LOST (R416). -/
def execCadRefLost (s : State) : Host.Outcome State Fault Refusal := .next { s with tbu := { s.tbu with refPresent := false } }

/-- R227: a read of `TBU_NOW_LO` latches the upper half for the next read of `TBU_NOW_HI`. -/
def timeRead (s : State) : State :=
  emit (.readData (toLE 4 s.tbu.now)) { s with tbu := { s.tbu with hiLatch := BitVec.ofNat 32 (s.tbu.now / 2 ^ 32) } }

/-- TBU_NOW_READ (R227). -/
def execTbuNowRead (t : Nat) (s : State) : Host.Outcome State Fault Refusal :=
  .next (busAccess .timeRead 0 0x20000 0 timeRead (reachTime t s))

/-! ## NOP and IDENTIFY (R379, R380) -/

/-- NOP. -/
def execNop (r : CmdRef) (s : State) : Host.Outcome State Fault Refusal :=
  .next (iarik 0x0000 r none (fun c s =>
    checked c false [(c.argReserved 0 0 0 0 0 || decide (c.sub.payLen ≠ 0), .badField)] s (.done .ok 0 s)) s)

/-- Cells in service of an array (R137, R380). -/
def State.cellsOk (s : State) (a : Nat) : Nat := 1024 - (s.arr a).excl.length

/-- The capability record (R2, R380); in recovery mode as R455 states. -/
def State.capability (s : State) : Bytes :=
  let v := s.part.variant
  toLE 4 0x44494C45 ++ toLE 2 1 ++ toLE 1 v.code ++ toLE 1 v.ports ++ toLE 8 s.part.serial.toNat ++
  toLE 8 (if v = .x then 2 ^ 32 else 2 ^ 31) ++ toLE 8 s.boardBytes ++ toLE 2 v.channels ++ toLE 2 v.tdp ++
  toLE 1 (if v.tune then 1 else 0) ++ toLE 1 v.codecTiers ++ toLE 2 0 ++
  toLE 8 (if s.sec.recovery then 0 else s.sec.fwVersion.toNat) ++ toLE 4 s.sec.counter ++ toLE 1 s.sec.lifecycle ++
  toLE 1 (if s.spar.roleWorker then 1 else 0) ++ toLE 2 64 ++ toLE 2 1024 ++ toLE 2 2048 ++ toLE 4 0 ++
  (List.range 64).flatMap (fun a => toLE 2 (if s.sec.recovery then 0 else s.cellsOk a)) ++ toLE 64 0

/-- The body of `IDENTIFY`. -/
def identify (c : Cmd) (s : State) : Reply :=
  checked c false [(c.argReserved 0 0 0 0 0 || decide (c.sub.payLen < 256), .badField)] s
    (.done .ok 256 (putPay c s.capability s))

/-- IDENTIFY. -/
def execIdentify (r : CmdRef) (s : State) : Host.Outcome State Fault Refusal := .next (iarik 0x0001 r none identify s)

end Sys2Proof.Machine
end

