-- ==== Sys2Proof/Machine/Models.lean ====
section
/-! DEFINITION. Sys2Proof/Machine/Models.lean: model slots, stage sessions, shards, commits, repair and deletion
(R305-R309, R317-R325, R381-R383, R159). -/

namespace Sys2Proof.Machine

/-! ## Slots and group-wide commands -/

/-- A model slot. -/
def State.slot (s : State) (i : Nat) : Slot := mgetD s.models.slots i Slot.reset

/-- The slot that a model identifier names, if the model exists (R375). -/
def State.modelSlot (s : State) (id : Nat) : Option Nat :=
  let m := s.slot (id % 16)
  if decide (id = modelId (id % 16) m.count) && decide (m.st ≠ .empty) then some (id % 16) else none

/-- Does the command come from this device's own queues? -/
def Cmd.fromHost (c : Cmd) : Bool := match c.origin with | .host _ => true | .spar _ => false

/-- R376: a group-wide command is sent to members of the group, and each answer is awaited; party 64 is this device. `a3` and
`a4` carry what the manager settles for every member (log 38). -/
def sendMembers (c : Cmd) (ms : List Nat) (self : Bool) (a3 a4 : Nat) (pay : Bytes) (s : State) : State :=
  let q := match c.origin with | .host q => q | .spar _ => 0
  let sub := { c.sub with a3 := BitVec.ofNat 64 a3, a4 := BitVec.ofNat 64 a4 }
  let s := forEach ms (fun m s => sendTo m (.forward ⟨q, c.sub.tag⟩ (subBytes sub) pay) s) s
  { s with spar := { s.spar with waits := mset s.spar.waits c.id (ms ++ if self then [64] else []) } }

/-- The members other than this device, where it acts for a group (R376). -/
def State.wideMembers (s : State) (c : Cmd) : List Nat := if c.fromHost && decide (s.spar.st = 1) then s.otherMembers else []

/-- Reserved inline bits, where the words that the manager fills for a member are its own. -/
def Cmd.argReservedW (c : Cmd) (m0 m1 m2 : Nat) : Bool :=
  if c.fromHost then c.argReserved m0 m1 m2 0 0 else c.argReserved m0 m1 m2 all64 all64

/-! ## MODEL_CREATE (R307) -/

/-- R307: the lowest slot, from `lo` upwards, that is EMPTY here and that no member has reported as serving. Whether it is EMPTY
on every member, the members' own answers say (log 99). -/
def State.emptySlotFrom (s : State) (lo : Nat) : Option Nat :=
  lowest (fun i => decide (lo ≤ i) && decide ((s.slot i).st = .empty) &&
    (decide (s.spar.st = 0) || s.spar.members.all (fun m => decide (m.2.epochs.getD i 0 = 0)))) 16

/-- R307: the lowest EMPTY slot. -/
def State.emptySlot (s : State) : Option Nat := s.emptySlotFrom 0

/-- The slot becomes CREATED. -/
def createSlot (c : Cmd) (slot cnt : Nat) (s : State) : State :=
  let m : Slot := { Slot.reset with
    st := .created, count := cnt, e4m3 := decide (c.fld 0 1 0 = 1), halt := bit (c.arg 0) 2, mixed := bit (c.arg 0) 3, layers := c.fld 0 28 16 }
  { s with models := { s.models with slots := mset s.models.slots slot m, created := max s.models.created cnt } }

/-- R307: the members are asked to create slot `i`. -/
def askCreate (c : Cmd) (i cnt : Nat) (s : State) : State :=
  sendMembers c (s.wideMembers c) false i cnt [] { s with spar := { s.spar with results := mset s.spar.results c.id (modelId i cnt) } }

/-- The body of `MODEL_CREATE`. -/
def modelCreate (c : Cmd) (s : State) : Reply :=
  let slot := if c.fromHost then s.emptySlot else (if (s.slot (c.arg 3)).st = .empty && decide (c.arg 3 < 16) then some (c.arg 3) else none)
  let cnt := if c.fromHost then s.models.created + 1 else c.arg 4
  checked c false
    [(c.argReservedW 0x1FFF000F 0 0 || decide (c.sub.payLen ≠ 0) || decide (1 < c.fld 0 1 0) || decide (c.fld 0 28 16 = 0) ||
        decide (4096 < c.fld 0 28 16), .badField),
     (slot.isNone, .noResource)] s
    (let i := slot.getD 0
     if s.wideMembers c = [] then .done .ok (modelId i cnt) (createSlot c i cnt s)
     else .running (askCreate c i cnt s))

/-- MODEL_CREATE. -/
def execModelCreate (r : CmdRef) (s : State) : Host.Outcome State Fault Refusal := .next (iarik 0x0100 r none modelCreate s)

/-! ## MODEL_STAGE_BEGIN (R317, R382) -/

/-- An object-table entry (R382). -/
def parseSObj (b : Bytes) : SObj := { number := u b 0 2, kind := u b 2 1, line := u b 4 4, inLen := u b 8 4, outLen := u b 12 4 }
/-- R382: an object-table entry's fields. -/
def sobjOk (v : Variant) (b : Bytes) : Bool :=
  let o := parseSObj b
  decide (u b 3 1 = 0) &&
  (if o.kind = 6 then decide (o.line % 256 = 0) && decide ((lineAddr o.line).a < 32) && decide ((lineAddr o.line).lb < v.userBlocks) &&
      decide (8 ≤ o.inLen) && decide (o.inLen ≤ 65536) && decide (o.outLen = 0)
   else (decide (o.kind = 1) || decide (o.kind = 2)) && decide (o.line = 0) && decide (32 ≤ o.inLen) && decide (o.inLen ≤ 65536) &&
      decide (1 ≤ o.outLen) && decide (o.outLen ≤ 2 ^ 24))
/-- R382: the whole table. -/
def objTableOk (v : Variant) (b : Bytes) : Bool :=
  decide (16 ≤ b.length) && decide (b.length ≤ 65536) && decide (b.length % 16 = 0) && (items 16 b).all (sobjOk v) &&
  decide ((items 16 b).map (fun e => (parseSObj e).number)).Nodup

/-- R317, R381: the member mask and the reader name members of the group; an ungrouped device takes mask 1 and reader 0. -/
def State.maskOk (s : State) (mask reader : Nat) : Bool :=
  if s.spar.st = 0 then decide (mask = 1) && decide (reader = 0)
  else decide (mask ≠ 0) && mhas s.spar.members reader && (List.range 64).all (fun m => !bit mask m || mhas s.spar.members m)

/-- A stage session opens on this device (R317). A resumed one goes on with the slot's own units and object table. -/
def openStage (c : Cmd) (id : Nat) (b : Bytes) (s : State) : State :=
  let i := c.fld 0 3 0
  let m := s.slot i
  let resume := bit (c.arg 0) 7
  let g : Stage :=
    { id := id, slot := i, members := c.sub.a1, reader := c.fld 0 21 16, layered := resume || bit (c.arg 0) 4,
      unitLayers := if resume then m.unitLayers else c.fld 0 31 24, mixed := if bit (c.arg 0) 5 then bit (c.arg 0) 6 else m.isMixed,
      prior := m.st, objs := if resume then m.objs else (items 16 b).map parseSObj, held := [], clean := [], round := [], ending := none,
      blocks := [], committed := m.units, parity := [], failed := false, floor := false, staged := [], endCmd := none }
  let s := if s.spar.member ∈ g.memberList then updSlot i (fun m => { m with
    st := if m.midSwap then m.st else .staging
    polMixed := if bit (c.arg 0) 5 then some (bit (c.arg 0) 6) else m.polMixed
    unitLayers := g.unitLayers }) s else s
  -- R506: STAGE is power-heavy
  addJob 4 2 (decide (s.pwr.power.toNat + 16 * 24 ≤ 16 * s.pwr.capW)) c.sub.seq none { s with models := { s.models with stage := some g, nextStage := (id + 1) % 65536 } }

/-- The body of `MODEL_STAGE_BEGIN`. -/
def modelStageBegin (pay : BusRead) (c : Cmd) (s : State) : Reply :=
  let b := (s.payload c pay).getD []
  let m := s.slot (c.fld 0 3 0)
  let resume := bit (c.arg 0) 7
  let layered := bit (c.arg 0) 4
  let fresh := decide (m.st = .created) || (decide (m.st = .broken) && bit (c.arg 0) 8)
  let id := if c.fromHost then s.models.nextStage % 65536 else c.arg 4 % 65536
  refused (checked c false
    [(c.argReservedW 0xFF3F01FF all64 0 || (s.payload c pay).isNone || !s.maskOk (c.arg 1) (c.fld 0 21 16) ||
        (if layered then decide (c.fld 0 31 24 = 0) else decide (c.fld 0 31 24 ≠ 0)) ||
        (if resume then decide (c.sub.payLen ≠ 0) else !objTableOk s.part.variant b) || (layered && fresh), .badField),
     (decide (m.st = .empty) || (decide (m.st = .partialSwap) != resume) || (decide (m.st = .broken) && !bit (c.arg 0) 8), .wrongState),
     (s.models.stage.isSome || s.models.commit.isSome, .busyMaint),
     (decide (64 ≤ s.activeJobs), .noResource)] s
    (let others := (s.wideMembers c).filter (fun m => bit (c.arg 1) m)
     if others = [] then .done .ok id (openStage c id b s)
     else
       let s := { s with spar := { s.spar with results := mset s.spar.results c.id id } }
       .running (openStage c id b (sendMembers c others false 0 id b s))))

/-- MODEL_STAGE_BEGIN. -/
def execModelStageBegin (r : CmdRef) (pay : BusRead) (s : State) : Host.Outcome State Fault Refusal :=
  .next (iarik 0x0101 r pay (modelStageBegin pay) s)

/-! ## Shards (R318-R320) -/

/-- A line record of a shard (R318). -/
structure ShardRec where
  addr : Nat
  kind : Nat
  data : List Bytes
deriving DecidableEq, Repr

/-- The records of a DATA body; `none` where a reserved field is wrong or the body does not hold them. -/
def parseRecs : Nat → Bytes → Option (List ShardRec)
  | 0, b => if b = [] then some [] else none
  | k + 1, b =>
    let n := u b 4 2
    if b.length < 8 + 68 * n || decide (n = 0) || decide (256 < n) || decide (2 < u b 6 1) || decide (u b 7 1 ≠ 0) || decide (u b 0 1 ≠ 0) then none
    else (parseRecs k (b.drop (8 + 68 * n))).map (fun l =>
      { addr := u b 0 4, kind := u b 6 1, data := (List.range n).map (fun i => slice b (8 + 68 * i) 68) } :: l)

/-- R318, R319: magic, CRC and reserved fields of a shard. -/
def shardOk (b : Bytes) : Bool :=
  decide (64 ≤ b.length) && decide (b.length = 64 + u b 24 4) && decide (b.length ≤ 2 ^ 20) && decide (u b 0 4 = 0x44534C45) &&
  decide (u b 28 4 = (crc32c (b.take 28 ++ b.drop 64)).toNat) && decide (leNat (slice b 32 32) = 0) && decide (u b 16 8 ≠ 0) &&
  (if u b 6 1 = 0 then decide (u b 7 1 = 0) && decide (1 ≤ u b 10 2) && decide (u b 10 2 ≤ 60) && decide (u b 12 4 ≤ 65535) &&
      (parseRecs (u b 10 2) (b.drop 64)).isSome
   else decide (u b 6 1 = 1) && decide (u b 7 1 ≤ 4) && decide (u b 10 2 = 0) && decide (u b 12 4 = 0) &&
      decide (u b 24 4 = 8 + 8 * u b 64 4) && decide (u b 68 4 = 0))

/-- A change of the stage session. -/
def updStage (f : Stage → Stage) (s : State) : State := { s with models := { s.models with stage := s.models.stage.map f } }

/-- R319, R323: may a record of a layer supply a logical block of a cell? -/
def State.recOk (s : State) (g : Stage) (layer a c k lb : Nat) : Bool :=
  let m := s.slot g.slot
  decide (lb < s.part.variant.userBlocks) && decide (a < 64) && s.mountedAt a &&
  (decide (s.ownerOf a k lb = 0xFF) || decide (s.ownerOf a k lb = g.slot)) && (g.blkAt a c k lb).isNone &&
  decide (layer < m.layers) &&
  (!g.layered || (decide (layer ∈ s.unitNow g) &&
    (match mget m.tags ((a * 8 + k) * 32 + lb) with | some l => decide (l ∈ s.unitNow g) | none => true)))

/-- R170, R319: a record's lines are programmed into a free block of their sub-bank, or the session fails here. -/
def stageRecord (layer shard : Nat) (r : ShardRec) (a : Nat) (s : State) : State :=
  match s.models.stage with
  | none => s
  | some g =>
    let l := lineAddr r.addr
    let sb := sbKey a l.c l.k
    match s.recOk g layer a l.c l.k l.lb, s.stageBlock sb with
    | true, some pb =>
      let er := (s.pb (pbKey sb pb)).erases
      let f (ln : Nat) : SLine := match r.data[ln]? with
        | some b => ⟨b ++ metaWord l.lb g.slot r.kind er⟩
        | none => fillLine l.lb g.slot er
      let x : StagedBlk := { sb := sb, lb := l.lb, pb := pb, layer := layer, shard := shard }
      updStage (fun g => { g with blocks := g.blocks ++ [x] })
        (updPb (pbKey sb pb) (fun p => { p with programming := true, pulses := 0 }) (programBlock sb pb f s))
    | ok, _ => updStage (fun g => { g with failed := true, floor := g.floor || (ok && !(s.sb sb).failed) }) s

/-- A record as it is staged: a protected table in its West array and, copy B, 32 arrays on (R162, R319). -/
def stageWhole (layer shard : Nat) (r : ShardRec) (s : State) : State :=
  let a := (lineAddr r.addr).a
  if r.kind = 2 then
    if a < 32 then stageRecord layer shard r (a + 32) (stageRecord layer shard r a s) else updStage (fun g => { g with failed := true }) s
  else stageRecord layer shard r a s

/-- R319: the indices of a layer that this member needs and does not hold. -/
def missingOf (g : Stage) (me layer : Nat) (b : Bytes) : List Nat :=
  (List.range (u b 64 4)).filter (fun i => bit (u b (72 + 8 * i) 8) me && !decide (layer * 65536 + i ∈ g.held))

/-- R320: a LAYER_END whose last report has come ends. -/
def endLayer (e : LayerEnd) (s : State) : State :=
  if decide (e.round = 4) && decide (e.missing ≠ []) then abortAll s
  else
    let s := updStage (fun g => { g with ending := none, clean := if e.missing = [] then addOnce g.clean e.layer else g.clean }) s
    let s := match s.cmd e.cmd with
      | some c => putOut c false (c.arg 1) ((e.missing.flatMap (fun (p : Nat × Nat) => toLE 4 p.2 ++ toLE 1 p.1 ++ toLE 3 0)).take (c.fld 2 31 0)) s
      | none => s
    settleStage (waitDone e.cmd 64 0 { s with spar := { s.spar with results := mset s.spar.results e.cmd e.missing.length } })

/-- R320: the manager takes a member's report of a layer. -/
def layerReport (member layer : Nat) (idx : List Nat) (s : State) : State :=
  match s.models.stage.bind (·.ending) with
  | none => s
  | some e =>
    if e.layer = layer && decide (member ∈ e.waiting) then
      let e := { e with waiting := e.waiting.filter (· ≠ member), missing := e.missing ++ idx.map (fun i => (member, i)) }
      if e.waiting = [] then endLayer e s else updStage (fun g => { g with ending := some e }) s
    else s

/-- SHARD_RECEIVED, the shard's effect on a member (R319). -/
def receiveShard (b : Bytes) (s : State) : State :=
  match s.models.stage with
  | none => count 0x244 s
  | some g =>
    let layer := u b 8 2
    let me := s.spar.member
    let key := layer * 65536 + u b 12 4
    if !shardOk b || decide (u b 4 2 ≠ g.id) then count 0x244 s
    else if u b 6 1 = 0 then
      if key ∈ g.held then count 0x248 s
      else settleStage (forEach ((parseRecs (u b 10 2) (b.drop 64)).getD []) (stageWhole layer key)
        (updStage (fun g => { g with held := g.held ++ [key] }) (count 0x240 s)))
    else if g.failed then settleFailed g s
    else
      let miss := missingOf g me layer b
      if s.spar.st = 2 then
        let s := if miss = [] then updStage (fun g => { g with clean := addOnce g.clean layer }) s else s
        settleStage (sendTo s.spar.manager (.stageReport (.missing layer miss)) s)
      else layerReport me layer miss s

/-- SHARD_RECEIVED (R319). -/
def execShardReceived (shard : Bytes) (s : State) : Host.Outcome State Fault Refusal := .next (receiveShard shard s)

/-- R318: the reader sends a shard unchanged to every destination, itself among them. -/
def sendShard (dests : List Nat) (b : Bytes) (s : State) : State :=
  forEach dests (fun m s => if m = s.spar.member then receiveShard b s else sendTo m (.shard b) s) s

/-- The body of `MODEL_SHARD` (R320). A corrupt LAYER_END is sent like a DATA shard: members discard it (R319). -/
def modelShard (pay : BusRead) (c : Cmd) (s : State) : Reply :=
  let b := (s.payload c pay).getD []
  let bad := match s.models.stage with | some g => decide (g.id ≠ c.fld 0 15 0) | none => true
  let named := (List.range 64).filter (fun m => bit (u b 16 8) m)
  checked c false
    [(c.argReserved 0xFFFF all64 low32 0 0 || (s.payload c pay).isNone || decide (b.length < 64) || decide (2 ^ 20 < b.length) ||
        decide (b.length ≠ 64 + u b 24 4) || decide (u b 4 2 ≠ c.fld 0 15 0), .badField),
     (bad && c.fromHost, .wrongState)] s
    -- the reader, which need not be a member of the session, sends what the manager has accepted (R317, R320)
    (match if c.fromHost then s.models.stage else none with
     | none => .done .ok 0 (sendShard named b s)
     | some g =>
       let dests := named.filter (fun m => decide (m ∈ g.memberList))
       let isEnd := shardOk b && decide (u b 6 1 = 1)
       let begin_ (s : State) : State :=
         if isEnd then
           let e : LayerEnd := { cmd := c.id, layer := u b 8 2, round := u b 7 1, waiting := dests, missing := [] }
           let s := if u b 7 1 = 0 then s else count 0x24C s
           if dests = [] then endLayer e s else updStage (fun g => { g with ending := some e }) s
         else s
       if g.reader = s.spar.member then
         if isEnd then .running (sendShard named b (begin_ s)) else .done .ok 0 (sendShard named b s)
       else .running (begin_ (sendMembers c [g.reader] isEnd 0 0 b s)))

/-- MODEL_SHARD. -/
def execModelShard (r : CmdRef) (pay : BusRead) (s : State) : Host.Outcome State Fault Refusal :=
  .next (iarik 0x0102 r pay (modelShard pay) s)

/-! ## MODEL_STAGE_END and MODEL_ABORT (R321) -/

/-- R321: have all the layers that must be complete had a clean LAYER_END? -/
def State.layersIn (s : State) (g : Stage) : Bool :=
  (List.range (s.slot g.slot).layers).all (fun l => decide (l ∈ g.clean) || (g.layered && decide (l < g.committed * g.unitLayers)))

/-- R321: is a LAYERED session past its last unit's commit? -/
def State.allCommitted (s : State) (g : Stage) : Bool := g.layered && decide ((s.slot g.slot).layers ≤ g.committed * g.unitLayers)

/-- The body of `MODEL_STAGE_END`. On a worker the manager has seen to the layers. -/
def modelStageEnd (c : Cmd) (s : State) : Reply :=
  let ready := match s.models.stage with
    | some g => decide (g.id = c.fld 0 15 0) && (!c.fromHost || s.layersIn g) && g.endCmd.isNone
    | none => false
  checked c false
    [(c.argReservedW 0xFFFF 0 0 || decide (c.sub.payLen ≠ 0), .badField), (!ready, .wrongState)] s
    (match s.models.stage with
     | none => .done .wrongState 0 s
     | some g =>
       let others := if c.fromHost && decide (s.spar.st = 1) then g.memberList.filter (· ≠ s.spar.member) else []
       if s.allCommitted g then
         let s := closeStage 2 s
         if others = [] then .done .ok g.members.toNat s
         else .running (sendMembers c others false 0 0 [] { s with spar := { s.spar with results := mset s.spar.results c.id g.members.toNat } })
       else
         let q := match c.origin with | .host q => q | .spar _ => 0
         let s := forEach others (fun m s => sendTo m (.forward ⟨q, c.sub.tag⟩ (subBytes c.sub) []) s) s
         .running (settleStage (updStage (fun g => { g with endCmd := some c.id }) s)))

/-- MODEL_STAGE_END. -/
def execModelStageEnd (r : CmdRef) (s : State) : Host.Outcome State Fault Refusal := .next (iarik 0x0103 r none modelStageEnd s)

/-- R381: is a commit past its decision and not yet durable? A member that has acknowledged is past it when it has switched. -/
def State.pastDecision (s : State) (c : Cmd) : Bool :=
  match s.models.commit with
  | some x => if c.fromHost then x.decided else decide (x.switched ≠ [])
  | none => false

/-- The body of `MODEL_ABORT`. -/
def modelAbort (c : Cmd) (s : State) : Reply :=
  let bad := match s.models.stage with | some g => decide (g.id ≠ c.fld 0 15 0) | none => true
  checked c false
    [(c.argReserved 0xFFFF 0 0 0 0 || decide (c.sub.payLen ≠ 0), .badField), (bad || s.pastDecision c, .wrongState)] s
    (match s.models.stage with
     | none => .done .wrongState 0 s
     | some g =>
       let others := if c.fromHost && decide (s.spar.st = 1) then g.memberList.filter (· ≠ s.spar.member) else []
       if others = [] then .done .ok 0 (abortLocal s) else .running (abortLocal (sendMembers c others false 0 0 [] s)))

/-- MODEL_ABORT. -/
def execModelAbort (r : CmdRef) (s : State) : Host.Outcome State Fault Refusal := .next (iarik 0x0105 r none modelAbort s)

/-- STAGE_REPORT (R319-R321): the manager takes a member's report. -/
def execStageReport (member : Nat) (rep : StageRep) (s : State) : Host.Outcome State Fault Refusal :=
  .next (match s.models.stage with
    | none => s
    | some g =>
      if s.spar.st ≠ 1 || !decide (member ∈ g.memberList) then s
      else match rep with
        | .missing layer idx => layerReport member layer idx s
        | .staged => settleStageEnd (updStage (fun g => { g with staged := addOnce g.staged member }) s)
        | .failed floor => abortAll (updStage (fun g => { g with floor := g.floor || floor }) s))

/-! ## Commit (R309, R322-R324) -/

/-- R309: the epoch after one. -/
def nextEpoch (e : Nat) : Nat := if e = 0xFFFF then 1 else e + 1

/-- R309: the highest epoch that any member holds for a slot. -/
def State.highEpoch (s : State) (slot : Nat) : Nat :=
  s.spar.members.foldl (fun e m => max e (m.2.epochs.getD slot 0)) (s.slot slot).epoch

/-- R323: is a layer one that the commit switches? -/
def State.inUnit (s : State) (g : Stage) (layer : Nat) : Bool := !g.layered || decide (layer ∈ s.unitNow g)

/-- R305, R323, R324: a slot's record after a commit. -/
def State.committed (s : State) (g : Stage) (c : Commit) (seq : Nat) (m : Slot) : Slot :=
  let last := !g.layered || decide (m.layers ≤ (g.committed + 1) * g.unitLayers)
  let tags := (g.blocks.filter (fun b => decide (b.sb % 9 < 8))).foldl
    (fun t b => mset t ((b.sb / 9 / 1024 * 8 + b.sb % 9) * 32 + b.lb) b.layer) (m.tags.filter (fun x => !s.inUnit g x.2))
  { m with
    st := if last then .serving else .partialSwap
    oldEpoch := if m.midSwap then m.oldEpoch else m.epoch
    epoch := c.epoch, tags := tags, commitSeq := seq, objs := g.objs
    units := if last then 0 else g.committed + 1
    polMixed := if last then none else m.polMixed }

/-- R322: the switch phase begins: the slot record is written COMMITTING with the sequence of the next checkpoint. -/
def beginSwitch (s : State) : State :=
  match s.models.commit, s.models.stage with
  | some c, some g =>
    let m := s.slot c.slot
    let old := { m with st := if m.midSwap then .partialSwap else g.prior, polMixed := if m.midSwap then m.polMixed else none }
    updSlot c.slot (fun m => { m with st := .committing }) { s with models := { s.models with
      records := mset s.models.records c.slot (s.nextSeq, old, s.committed g c s.nextSeq m)
      commit := some { c with decided := true, seq := s.nextSeq } } }
  | _, _ => s

/-- R322: the manager's decision holds once every member of the session has acknowledged it. -/
def settleDecision (s : State) : State :=
  match s.models.commit, s.models.stage with
  | some c, some g =>
    if !c.decided && g.memberList.all (fun m => decide (m ∈ c.acked)) then
      if s.spar.member ∈ g.memberList then beginSwitch s
      else { s with models := { s.models with commit := some { c with decided := true, switched := List.range 64 } } }
    else s
  | _, _ => s

/-- The body of `MODEL_COMMIT`. Later units of a LAYERED swap keep the epoch that the first one gave. DEDUCED (log 39). -/
def modelCommit (c : Cmd) (s : State) : Reply :=
  let tc := c.arg 0
  let stage := s.models.stage
  let bad := match stage with | some g => decide (g.id ≠ c.fld 1 15 0) | none => true
  let unitBad := match stage with | some g => !g.layered && decide (c.fld 1 23 16 ≠ 0) | none => false
  let ready := match stage with
    | some g => g.memberList.all (fun m => decide (m ∈ g.staged)) && g.endCmd.isNone && (!g.layered || decide (c.fld 1 23 16 = g.committed)) &&
        !s.allCommitted g
    | none => false
  checked c false
    [(c.argReserved all64 0xFFFFFF 0 0 0 || decide (c.sub.payLen ≠ 0) || unitBad || (decide (tc ≠ 0) && decide (tc < s.tbu.now + 2000000)), .badField),
     (bad || !ready || s.models.commit.isSome, .wrongState)] s
    (match stage with
     | none => .done .wrongState 0 s
     | some g =>
       let t := if tc = 0 then s.tbu.now + 5000000 else tc
       let e := if (s.slot g.slot).midSwap then (s.slot g.slot).epoch
                else if 0 < g.committed then s.highEpoch g.slot else nextEpoch (s.highEpoch g.slot)
       let me := if s.spar.member ∈ g.memberList then [s.spar.member] else []
       let k : Commit := { cmd := some c.id, slot := g.slot, tc := t, epoch := e, unit := if g.layered then some g.committed else none,
                           acked := me, durable := [], decided := false, switched := [], ckpt := false, seq := 0, lostMember := false }
       let s := forEach (g.memberList.filter (· ≠ s.spar.member)) (fun m s => sendTo m (.decision t e g.slot) s) s
       .running (settleDecision { s with models := { s.models with commit := some k } }))

/-- MODEL_COMMIT. -/
def execModelCommit (r : CmdRef) (s : State) : Host.Outcome State Fault Refusal := .next (iarik 0x0104 r none modelCommit s)

/-- COMMIT_DECISION (R322): a worker that has staged everything takes the decision and acknowledges it. -/
def execCommitDecision (tc epoch slot : Nat) (s : State) : Host.Outcome State Fault Refusal :=
  .next (match s.models.stage with
    | none => s
    | some g =>
      if s.spar.st ≠ 2 || s.models.commit.isSome || decide (g.slot ≠ slot) || !decide (s.spar.member ∈ g.staged) then s
      else
        let k : Commit := { cmd := none, slot := slot, tc := tc, epoch := epoch, unit := if g.layered then some g.committed else none,
                            acked := [s.spar.member], durable := [], decided := true, switched := [], ckpt := false, seq := 0, lostMember := false }
        sendTo s.spar.manager (.commitReport .acknowledge) (beginSwitch { s with models := { s.models with commit := some k } }))

/-- COMMIT_ACK_TIMEOUT (R322): a member has not acknowledged by T_c - 1 ms. -/
def execCommitAckTimeout (t : Nat) (s : State) : Host.Outcome State Fault Refusal :=
  .next (
    let s := reachTime t s
    match s.models.commit with
    | some c => if !c.decided && decide (c.tc ≤ s.tbu.now + 1000000) then abortAll s else s
    | none => s)

/-- Is the logical block `lb` of a data sub-bank `sb` named by a staged block? -/
def Stage.supplies (g : Stage) (sb lb : Nat) : Bool := g.blocks.any (fun b => decide (b.sb = sb) && decide (b.lb = lb))

/-- Logical blocks that a test picks are unmapped in the data sub-banks, and parity blocks with no data block left. -/
def dropBlocks (gone : Nat → Nat → Bool) (arrays : Nat → Bool) (s : State) : State :=
  let data := s.slate.sbs.map (fun p =>
    if p.1 % 9 < 8 && arrays (p.1 / 9 / 1024) then
      (p.1, { p.2 with map := p.2.map.filter (fun x => !gone p.1 x.1), lost := p.2.lost.filter (fun x => !gone p.1 (x / 256)) })
    else p)
  let held (sb lb : Nat) : Bool := (List.range 8).any (fun k => mhas (mgetD data (sb / 9 * 9 + k) SbSt.reset).map lb)
  let all := data.map (fun p =>
    if p.1 % 9 = 8 && arrays (p.1 / 9 / 1024) then
      (p.1, { p.2 with map := p.2.map.filter (fun x => held p.1 x.1), lost := p.2.lost.filter (fun x => held p.1 (x / 256)) })
    else p)
  { s with slate := { s.slate with
      sbs := all
      relocs := s.slate.relocs.filter (fun r => !(arrays r.array && decide (r.k < 8) &&
        (r.cells s).any (fun c => gone (sbKey r.array c r.k) r.lblock))) } }

/-- R322-R324: an array switches its map for the staged blocks. -/
def switchArray (a : Nat) (g : Stage) (c : Commit) (s : State) : State :=
  let old := (s.slot c.slot).tags
  let mine (b : StagedBlk) : Bool := decide (b.sb / 9 / 1024 = a)
  let inUnit (l : Nat) : Bool := s.inUnit g l
  let gone (sb lb : Nat) : Bool :=
    (match mget old ((sb / 9 / 1024 * 8 + sb % 9) * 32 + lb) with | some l => inUnit l | none => false) && !g.supplies sb lb
  let s := forEach (g.blocks.filter mine) (fun b s =>
    let s := dropRelocs (fun r => decide (sbKey r.array (r.cell.getD (b.sb / 9 % 1024)) r.k = b.sb) && decide (r.lblock = b.lb)) s
    updSb b.sb (fun x => { x with map := mset x.map b.lb b.pb, lost := x.lost.filter (fun y => decide (y / 256 ≠ b.lb)) }) s) s
  let s := dropBlocks gone (· = a) s
  let keep := old.filter (fun x => !(decide (x.1 / 256 = a) && inUnit x.2))
  let tags := (g.blocks.filter (fun b => mine b && decide (b.sb % 9 < 8))).foldl
    (fun m b => mset m ((a * 8 + b.sb % 9) * 32 + b.lb) b.layer) keep
  updSlot c.slot (fun m => { m with tags := tags }) s

/-- R322: the switch phase has ended on this device: the new epoch holds and the checkpoint follows. -/
def endSwitch (g : Stage) (c : Commit) (s : State) : State :=
  let last := !g.layered || decide ((s.slot c.slot).layers ≤ (g.committed + 1) * g.unitLayers)
  let s := updSlot c.slot (fun m => { m with
    oldEpoch := if m.midSwap then m.oldEpoch else m.epoch
    epoch := c.epoch
    objs := g.objs
    units := if last then 0 else g.committed + 1
    lostTab := [] }) s
  let s := checkTables c.slot s
  let s := updSlot c.slot (fun m => { m with lost := s.slotHasLoss c.slot }) s
  let seq := s.nextSeq
  ckptBoth none { s with models := { s.models with
    records := mupd s.models.records c.slot (fun r => (seq, r.2.1, { r.2.2 with commitSeq := seq }))
    commit := some { c with switched := List.range 64, ckpt := true, seq := seq } } }

/-- R322: has every step of an array before the commit time ended? -/
def State.pastSteps (s : State) (a tc : Nat) : Bool :=
  s.plans.all (fun p => !p.2.active || !p.2.plan.uses a ||
    (p.2.steps.all (fun x => decide (tc ≤ x.2.nominal) || decide (a ∈ x.2.ended)) &&
     ((List.range p.2.plan.scheds.length).all (fun i => match p.2.plan.scheds[i]? with
       | some d => !mhas d.fetchEp a || decide (p.2.st ≠ .running) || decide (tc ≤ p.2.nominal d (mgetD p.2.nextK i 0))
       | none => true))))

/-- COMMIT_SWITCH (R322): at the array's first step barrier at or after T_c. -/
def execCommitSwitch (a : Nat) (t : Nat) (s : State) : Host.Outcome State Fault Refusal :=
  .next (
    let s := reachTime t s
    match s.models.commit, s.models.stage with
    | some c, some g =>
      if c.decided && decide (c.tc ≤ s.tbu.now) && decide (a < 64) && !decide (a ∈ c.switched) && s.pastSteps a c.tc then
        let arrays := s.commitArrays g c
        let s := switchArray a g c s
        let c := { c with switched := c.switched ++ [a] }
        if arrays.all (fun x => decide (x ∈ c.switched)) then endSwitch g c s
        else { s with models := { s.models with commit := some c } }
      else s
    | _, _ => s)

/-- R322: the command ends when every member has made the commit durable. -/
def settleCommit (s : State) : State :=
  match s.models.commit with
  | some c =>
    if c.decided && !c.ckpt && decide (c.switched.length = 64) && c.acked.all (fun m => decide (m ∈ c.durable)) then
      let mask := c.durable.foldl (fun n m => n + 2 ^ m) 0
      let s := { s with models := { s.models with commit := none } }
      -- a manager that holds none of the model keeps only the session's record
      let s := match s.models.stage with
        | some g => if decide (s.spar.member ∈ g.memberList) then s
                    else if g.layered then updStage (fun g => { g with committed := g.committed + 1, staged := [] }) s
                    else closeStage 2 s
        | none => s
      finishOpt c.cmd (if c.lostMember then .deviceFault else .ok) mask s
    else s
  | none => s

/-- R322, R323: this device's part of a commit is durable. -/
def makeDurable (g : Stage) (c : Commit) (s : State) : State :=
  let s := count 0x254 (updSlot c.slot (fun m => { m with
    st := if m.midSwap then .partialSwap else .serving
    polMixed := if m.midSwap then m.polMixed else none
    commitSeq := c.seq }) { s with models := { s.models with records := mdel s.models.records c.slot } })
  let s := if g.layered then updStage (fun g => { g with committed := g.committed + 1, blocks := [], staged := [], held := [], parity := [], failed := false, floor := false }) s
           else closeStage 2 s
  if s.spar.st = 2 then
    sendTo s.spar.manager (.commitReport .durable) { s with models := { s.models with commit := none } }
  else settleCommit { s with models := { s.models with commit := some { c with ckpt := false, durable := c.durable ++ [s.spar.member] } } }

/-- COMMIT_DURABLE (R322): the checkpoint that follows the switch is in both mirrors. -/
def execCommitDurable (s : State) : Host.Outcome State Fault Refusal :=
  .next (match s.models.commit, s.models.stage with
    | some c, some g => if c.ckpt && s.slate.stackW.ckpt.isNone && s.slate.stackE.ckpt.isNone then makeDurable g c s else s
    | _, _ => s)

/-- COMMIT_ACKNOWLEDGE (R322): a member's acknowledgement, or its report that the commit is durable. -/
def execCommitAcknowledge (member : Nat) (rep : CommitRep) (s : State) : Host.Outcome State Fault Refusal :=
  .next (match s.models.commit with
    | none => s
    | some c =>
      if s.spar.st ≠ 1 then s
      else match rep with
        | .acknowledge => settleDecision { s with models := { s.models with commit := some { c with acked := addOnce c.acked member } } }
        | .durable => settleCommit { s with models := { s.models with commit := some { c with durable := addOnce c.durable member } } })

/-! ## MODEL_REPAIR (R159, R164, R383) -/

/-- A repair record (R383). -/
structure RepairRec where
  line : Nat
  kind : Nat
  data : Bytes
  resv : Bool
deriving DecidableEq, Repr

/-- A repair record's fields. -/
def parseRepair (b : Bytes) : RepairRec :=
  { line := u b 0 4, kind := u b 4 1, data := slice b 12 68, resv := decide (leNat (slice b 5 7) ≠ 0) }

/-- The lines a record names: a protected table's in both stacks (R164). -/
def RepairRec.places (r : RepairRec) : List LineAddr :=
  let l := lineAddr r.line
  if r.kind = 2 then [l, { l with a := l.a + 32 }] else [l]

/-- R11, R383: a record's own fields. -/
def RepairRec.formOk (r : RepairRec) : Bool :=
  !r.resv && decide (r.kind ≤ 2) && (decide (r.kind ≠ 2) || decide ((lineAddr r.line).a < 32))

/-- R383: does a record's line belong to the slot's committed layout? -/
def State.repairOk (s : State) (slot : Nat) (r : RepairRec) : Bool :=
  r.places.all (fun l => decide (s.ownerOf l.a l.k l.lb = slot) && mhas (s.sb (sbKey l.a l.c l.k)).map l.lb)

/-- R325: does a record name a line of the unit that a commit is switching? -/
def State.repairMeetsCommit (s : State) (slot : Nat) (r : RepairRec) : Bool :=
  match s.models.commit, s.models.stage with
  | some c, some g => c.decided && decide (c.slot = slot) &&
      (!g.layered || r.places.any (fun l => match mget (s.slot slot).tags ((l.a * 8 + l.k) * 32 + l.lb) with
        | some y => decide (y ∈ s.unitNow g)
        | none => false))
  | _, _ => false

/-- R159: one named line: its block is relocated with the new content, unless its sub-bank has failed. -/
def repairLine (c : Cmd) (slot kind : Nat) (data : Bytes) (l : LineAddr) (s : State) : State :=
  let id := c.id
  if (s.sb (sbKey l.a l.c l.k)).failed then
    let lost := mgetD s.slate.repairLost id [] ++ [lineAddrOf l.a l.c l.k l.lb l.ln]
    { s with slate := { s.slate with repairLost := mset s.slate.repairLost id lost } }
  else
    let s := dropRelocs (fun r => decide (r.array = l.a) && decide (r.k = l.k) && decide (r.lblock = l.lb) &&
      (decide (r.cell = some l.c) || decide (r.cell = none)) && decide (r.cmd ≠ some id)) s
    setRepl l.a l.c l.k l.lb l.ln (data ++ metaWord l.lb slot kind 0) (queueReloc 1 .repair l.a (some l.c) l.k l.lb (some id) s)

/-- R159 item 3: the data of a stripe as it will stand, with the replacements of the repair and the lines that are reconstructed. -/
def State.repairedStripe (s : State) (a c lb ln : Nat) : Bytes :=
  (List.range 8).foldl (fun acc k =>
    let new := (s.slate.relocs.find? (fun r => decide (r.array = a) && decide (r.cell = some c) && decide (r.k = k) && decide (r.lblock = lb))).bind
      (fun r => mget r.repl ln)
    match new with
    | some b => xorBytes acc (slice b 0 72)
    | none => match s.lineOk a c k lb ln with
      | some l => xorBytes acc l
      | none => match s.rebuilt a c k lb ln [] with
        | some l => xorBytes acc l
        | none => match s.stored a c k lb ln with | some l => xorBytes acc (slice l.bytes 0 72) | none => acc) (List.replicate 72 0)

/-- R159 item 3: where the parity of a stripe differs from its repaired data, the parity block is relocated. -/
def repairParity (c : Cmd) (l : LineAddr) (s : State) : State :=
  let new := s.repairedStripe l.a l.c l.lb l.ln
  if s.lineOk l.a l.c 8 l.lb l.ln = some new || (s.sb (sbKey l.a l.c 8)).failed then s
  else
    let s := dropRelocs (fun r => decide (r.array = l.a) && decide (r.k = 8) && decide (r.lblock = l.lb) &&
      (decide (r.cell = some l.c) || decide (r.cell = none)) && decide (r.cmd ≠ some c.id)) s
    setRepl l.a l.c 8 l.lb l.ln (new ++ metaWord l.lb 0 3 0) (queueReloc 1 .repair l.a (some l.c) 8 l.lb (some c.id) s)

/-- The body of `MODEL_REPAIR`. -/
def modelRepair (pay : BusRead) (c : Cmd) (s : State) : Reply :=
  let b := (s.payload c pay).getD []
  let rs := (items 80 b).map parseRepair
  let slot := c.fld 0 3 0
  checked c false
    [(c.argReserved 0xF all64 low32 0 0 || (s.payload c pay).isNone || decide (b.length % 80 ≠ 0) || decide (b = []) ||
        decide (4096 < rs.length) || !rs.all RepairRec.formOk ||
        (decide ((s.slot slot).st ∈ [SlotSt.serving, .staging, .committing, .partialSwap]) && !rs.all (s.repairOk slot)), .badField),
     (!decide ((s.slot slot).st ∈ [SlotSt.serving, .staging, .committing, .partialSwap]) || rs.any (s.repairMeetsCommit slot), .wrongState)] s
    (let ls := rs.flatMap (fun r => r.places.map (fun l => (r, l)))
     let s := forEach ls (fun p s => repairLine c slot p.1.kind p.1.data p.2 s) s
     let s := forEach ls (fun p s => repairParity c p.2 s) s
     .running (settleRepair c.id s))

/-- MODEL_REPAIR. -/
def execModelRepair (r : CmdRef) (pay : BusRead) (s : State) : Host.Outcome State Fault Refusal :=
  .next (iarik 0x0106 r pay (modelRepair pay) s)

/-! ## MODEL_DELETE (R308) -/

/-- R308: is the model in use: a session, a stream, an adapter or an active plan? -/
def State.modelInUse (s : State) (i : Nat) : Bool :=
  let id := BitVec.ofNat 64 (modelId i (s.slot i).count)
  (match s.models.stage with | some g => decide (g.slot = i) | none => false) ||
  s.models.streams.any (fun x => decide (x.2.slot = i)) || s.models.adapters.any (fun x => decide (x.model = id)) ||
  s.plans.any (fun p => p.2.active && p.2.plan.symbols.any (fun y => decide (y.kind = 0) && decide (y.ident = id)))

/-- Does a line of a mapped block name a slot in its metadata (R143)? -/
def State.blockNames (s : State) (i sb lb : Nat) : Bool :=
  match mget (s.sb sb).map lb with
  | some pb => s.slate.lines.any (fun l => decide (l.1 / 256 = pbKey sb pb) && decide (bits (l.2.meta (sb % 9)) 9 6 = i))
  | none => false

/-- R308: every logical block that carries a slot is unmapped, in the maps as they stand: those of a BROKEN slot may hold blocks that
its record does not (R322). -/
def unmapSlot (i : Nat) (s : State) : State :=
  let tags := (s.slot i).tags
  dropBlocks (fun sb lb => mhas tags ((sb / 9 / 1024 * 8 + sb % 9) * 32 + lb) || s.blockNames i sb lb) (fun _ => true) s

/-- The body of `MODEL_DELETE`. A manager first asks every member whether the model is in use there (word A3 is 1), so that a rejection
changes nothing anywhere, and then has every member delete it (log 38); the held result 2^64 marks that first round. -/
def modelDelete (c : Cmd) (s : State) : Reply :=
  let i := c.fld 0 3 0
  let st := (s.slot i).st
  checked c false
    [(c.argReservedW 0xF 0 0 || decide (c.sub.payLen ≠ 0), .badField),
     (decide (st = .empty) || (decide (st ≠ .broken) && s.modelInUse i), .wrongState)] s
    (if s.wideMembers c = [] then
       (if !c.fromHost && decide (c.arg 3 = 1) then .done .ok 0 s else .running (ckptBoth (some (c.id, 0)) (unmapSlot i s)))
     else .running (sendMembers c (s.wideMembers c) false 1 0 [] { s with spar := { s.spar with results := mset s.spar.results c.id (2 ^ 64) } }))

/-- MODEL_DELETE. -/
def execModelDelete (r : CmdRef) (s : State) : Host.Outcome State Fault Refusal := .next (iarik 0x0107 r none modelDelete s)

end Sys2Proof.Machine
end

