-- ==== Sys2Proof/Machine/Objects.lean ====
section
/-! DEFINITION. Sys2Proof/Machine/Objects.lean: placed objects, migration, lends, and the board tier's faults
(R292-R303, R387, R391, R410-R414). -/

namespace Sys2Proof.Machine

/-! ## Pages -/

/-- The tier of a page as a placement code (R292); 5 for a dropped one. -/
def PageAt.tier : PageAt → Nat
  | .hub _ => 0
  | .board _ => 1
  | .neigh _ _ => 2
  | .store _ _ => 4
  | .dropped => 5

/-- A lend that this device borrows and from which it may place (R300, R301). -/
def State.borrows (s : State) (l : Lend) : Bool :=
  decide (l.lender ≠ s.spar.member) && (decide (l.borrower = none) || decide (l.borrower = some s.spar.member)) &&
  !l.reclaiming && !l.closed && s.lendReachable l.id

/-- Pages of lends that nothing of this device lies on, lowest lend and page first. DESIGN CHOICE (log 25). -/
def State.lendPages (s : State) : List PageAt :=
  let used := s.tiers.objs.flatMap (·.pages) ++ s.tiers.migrs.flatMap (fun m => m.left.map (·.2))
  ((s.tiers.lends.filter s.borrows).flatMap (fun l => l.frames.map (fun f => PageAt.neigh l.id f))).filter (fun p => !decide (p ∈ used))

/-- 64 KiB-aligned store offsets of an array that no region of an active plan and no page covers (R292). -/
def State.storePages (s : State) (a : Nat) : List PageAt :=
  let used := s.tiers.objs.flatMap (·.pages)
  (((List.range (storeBytes / pageBytes)).map (· * pageBytes)).filter (fun off =>
    !s.plans.any (fun p => p.2.active && p.2.plan.regions.any (fun r => decide (r.array = a) && overlaps (off, pageBytes) (r.offset, r.length))) &&
    !decide (PageAt.store a off ∈ used))).map (fun off => PageAt.store a off)

/-- Pages of substitutes already in an array's store. -/
def State.storeTaken (s : State) (a : Nat) : Nat :=
  (s.tiers.objs.flatMap (·.pages)).countP (fun p => match p with | .store b _ => decide (b = a) | _ => false)

/-- `n` free pages of a tier, if it has them (R292, R412). -/
def State.takePages (s : State) (tier a n : Nat) : Option (List PageAt) :=
  match tier with
  | 0 => (takeFrames s.tiers.hubUsed s.hubFrames n).map (·.map PageAt.hub)
  | 1 => if s.ready.boardMem then (takeFrames s.tiers.boardUsed s.boardFrames n).map (·.map PageAt.board) else none
  | 2 => if n ≤ s.lendPages.length then some (s.lendPages.take n) else none
  | 4 => if n ≤ (s.storePages a).length then some ((s.storePages a).take n) else none
  | _ => none

/-- Pages leave their pools. -/
def usePages (ps : List PageAt) (s : State) : State :=
  let hubs := ps.filterMap (fun p => match p with | .hub f => some f | _ => none)
  let boards := ps.filterMap (fun p => match p with | .board f => some f | _ => none)
  { s with tiers := { s.tiers with hubUsed := hubs ++ s.tiers.hubUsed, boardUsed := boards ++ s.tiers.boardUsed } }

/-- Does a run of object space meet a live object? -/
def State.dvaTaken (s : State) (a pages : Nat) : Bool :=
  s.tiers.objs.any (fun o => overlaps (a, pages * pageBytes) (o.dva, o.pages.length * pageBytes))

/-- May a requested DVA be given: aligned, in object space, not in use (R387)? -/
def State.dvaFree (s : State) (a pages : Nat) : Bool :=
  decide (a % pageBytes = 0) && decide (objBase ≤ a) && decide (a + pages * pageBytes ≤ 2 ^ 48) && !s.dvaTaken a pages

/-- The DVA the device chooses: the lowest free one. DESIGN CHOICE (log 25). -/
def State.chooseDva (s : State) (pages : Nat) : Option Nat :=
  ((objBase :: s.tiers.objs.map (fun o => o.dva + o.pages.length * pageBytes)).filter (fun a => s.dvaFree a pages)).min?

/-- An object comes into being. -/
def addObject (o : Obj) (s : State) : State :=
  let s := usePages o.pages s
  { s with tiers := { s.tiers with objs := s.tiers.objs ++ [o] } }

/-! ## OBJECT_PLACE (R292, R293, R387) -/

/-- R292: may a kind be placed in a tier? -/
def placeable (kind tier : Nat) : Bool :=
  match tier with
  | 0 => decide (kind ∈ [1, 3, 4, 5])
  | 1 => decide (kind ∈ [1, 3, 4, 5])
  | 2 => decide (kind = 3)
  | 4 => decide (kind = 5)
  | _ => false

/-- Bytes of a KV object of capacity `c` and `h` head groups (R297). -/
def kvBytes (c h : Nat) : Nat := c / 128 * (h * 17152)

/-- The body of `OBJECT_PLACE` ALLOC; a reserved operation is rejected here. -/
def objectAlloc (c : Cmd) (s : State) : Reply :=
  let kind := c.fld 0 11 4
  let tier := c.fld 0 15 12
  let kv := decide (kind = 3)
  let cap := c.fld 1 31 0
  let h := c.fld 1 40 32
  let size := if kv then kvBytes cap h else c.arg 1
  let n := cdiv size pageBytes
  let req := c.arg 2
  let dva := if req = 0 then s.chooseDva n else some req
  let pages := s.takePages tier (c.fld 0 21 16) n
  checked c (s.absentUnit c)
    [(decide (c.fld 0 3 0 ≠ 0) || c.argReserved 0x3FFFFF (if kv then 0x1FFFFFFFFFF else all64) all64 all64 0 || decide (c.sub.payLen ≠ 0) ||
        !placeable kind tier || (decide (tier ≠ 4) && decide (c.fld 0 21 16 ≠ 0)) ||
        (decide (tier = 4) && decide (4 < s.storeTaken (c.fld 0 21 16) + n)) ||
        (if kv then decide (cap = 0) || decide (cap % 128 ≠ 0) || decide (h = 0) || decide (256 < h) else decide (size = 0)) ||
        (decide (req ≠ 0) && !s.dvaFree req n), .badField),
     (decide (tier = 2) && decide (s.spar.st = 0), .unsupported),
     (pages.isNone || dva.isNone, .noResource)] s
    (match dva, pages with
     | some a, some ps =>
       .done .ok a (addObject { dva := a, kind := kind, size := size, kvC := if kv then cap else 0, kvH := if kv then h else 0, pages := ps,
                                backing := if kv then 0 else c.arg 3 } s)
     | _, _ => .done .noResource 0 s)

/-- OBJECT_PLACE_ALLOC. -/
def execObjectPlaceAlloc (r : CmdRef) (s : State) : Host.Outcome State Fault Refusal :=
  .next (iarikIf 0x0500 r (fun c => decide (c.fld 0 3 0 ≠ 1)) objectAlloc s)

/-- Does an active plan name an object (R293)? -/
def State.namedByPlan (s : State) (id : Nat) : Bool :=
  s.plans.any (fun p => p.2.active && p.2.plan.symbols.any (fun y => decide (y.ident.toNat = id)))

/-- Is an object bound to an open stream, itself or through its tuning session (R293)? -/
def State.boundToStream (s : State) (id : Nat) : Bool :=
  s.models.streams.any (fun x => decide (x.2.adapter = some id) || x.2.kv.any (fun k => decide (k.2 = id))) ||
  s.models.tunes.any (fun t => decide (id ∈ [t.2.adapter, t.2.saved, t.2.grad, t.2.master, t.2.mom, t.2.var]))

/-- Is a migration of an object in progress? -/
def State.migrating (s : State) (id : Nat) : Bool := s.tiers.migrs.any (fun m => decide (m.obj = id))

/-- The body of `OBJECT_PLACE` FREE. -/
def objectFree (c : Cmd) (s : State) : Reply :=
  let id := c.arg 1
  checked c false
    [(c.argReserved 0xF all64 0 0 0 || decide (c.sub.payLen ≠ 0) || (s.obj id).isNone, .badField),
     (s.namedByPlan id || s.boundToStream id || s.migrating id, .wrongState)] s
    (.done .ok 0 (dropObject id { s with models := { s.models with adapters := s.models.adapters.filter (fun a => decide (a.dva ≠ id)) } }))

/-- OBJECT_PLACE_FREE. -/
def execObjectPlaceFree (r : CmdRef) (s : State) : Host.Outcome State Fault Refusal :=
  .next (iarikIf 0x0500 r (fun c => decide (c.fld 0 3 0 = 1)) objectFree s)

/-! ## Migration (R294, R296) -/

/-- A page of an object is replaced. -/
def setPage (dva i : Nat) (p : PageAt) (s : State) : State :=
  { s with tiers := { s.tiers with objs := s.tiers.objs.map (fun o => if o.dva = dva then { o with pages := o.pages.set i p } else o) } }

/-- One byte of a page moves; a byte of a poisoned unit stays poisoned in board memory and is a free value elsewhere
(log 41). -/
def moveByte (src dst i : Nat) (s : State) : State :=
  if (src + i) / 64 * 64 ∈ s.tiers.poison then
    if boardBase ≤ dst && decide (dst < 2 ^ 56) then
      { s with tiers := { s.tiers with poison := addOnce s.tiers.poison ((dst + i) / 64 * 64) } }
    else undefine (dst + i) 1 s
  else ramPut (dst + i) (s.ramAt (src + i)) s

/-- The bytes of a page move from one place to another; a dropped page is filled with zeros (R302). -/
def movePage (src dst : PageAt) (s : State) : State :=
  match dst.key with
  | none => s
  | some d =>
    -- a fresh page carries no poison of its earlier use
    let s := setPoison (s.tiers.poison.filter (fun p => !(decide (d ≤ p) && decide (p < d + pageBytes)))) s
    match src.key with
    | some k => forUpto pageBytes (moveByte k d) s
    | none => forUpto pageBytes (fun i s => ramPut (d + i) 0 s) s

/-- A page of an object switches to its target (R296). -/
def switchPage (dva i : Nat) (dst : PageAt) (s : State) : State :=
  match s.obj dva with
  | none => s
  | some o =>
    let src := o.pages.getD i .dropped
    count (memCnt 0) (freePages [src] (setPage dva i dst (movePage src dst s)))

/-- R301: a borrower whose pages have all left a lend reports to the lender. -/
def reportLend (l : Nat) (s : State) : State :=
  if s.tiers.migrs.any (fun m => decide (m.lend = some l)) then s
  else match s.tiers.lends.find? (fun x => decide (x.id = l)) with
    | some x => sendTo x.lender (.reclaimDone l x.dropped) { s with tiers := { s.tiers with lends := s.tiers.lends.filter (fun y => decide (y.id ≠ l)) } }
    | none => s

/-- A migration with nothing left ends. -/
def settleMigr (m : Migr) (s : State) : State :=
  if m.left = [] then
    let s := { s with tiers := { s.tiers with migrs := s.tiers.migrs.filter (fun x => !decide (x = m)) } }
    let s := finishOpt m.cmd .ok m.switched s
    match m.lend with | some l => reportLend l s | none => s
  else s

/-- R294: would a migration take hub runs or substitutes of an active plan out of HUB? -/
def State.heldInHub (s : State) (id : Nat) : Bool :=
  s.plans.any (fun p => p.2.active &&
    ((p.2.plan.fallbacks.any (fun f => decide (f.action = 1) && (match p.2.plan.symbols[f.subSym]? with | some y => decide (y.ident.toNat = id) | none => false))) ||
     (p.2.plan.symbols.any (fun y => decide (y.ident.toNat = id)) &&
      !State.hubRunsOk { s with tiers := { s.tiers with objs := s.tiers.objs.filter (fun o => decide (o.dva ≠ id)) } } p.2.plan)))

/-- The pages a migration moves: those of the run not yet in the target tier. -/
def Obj.toMove (o : Obj) (first n tier : Nat) : List Nat :=
  ((List.range n).map (first + ·)).filter (fun i => match o.pages[i]? with | some p => decide (p.tier ≠ tier) | none => false)

/-- The body of `OBJECT_MIGRATE`. A dropped page that it names is mapped at once, filled with zeros (R302). -/
def objectMigrate (c : Cmd) (s : State) : Reply :=
  let id := c.arg 1
  let tier := c.fld 0 3 0
  let first := c.fld 2 31 0
  match s.obj id with
  | none => checked c (s.absentUnit c) [(true, .badField)] s (.done .badField 0 s)
  | some o =>
    let all := decide (c.fld 2 63 32 = 0)
    let n := if all then o.pages.length else c.fld 2 63 32
    let idx := o.toMove (if all then 0 else first) n tier
    let pages := s.takePages tier 0 idx.length
    checked c (s.absentUnit c)
      [(c.argReserved 0xF all64 all64 0 0 || decide (c.sub.payLen ≠ 0) || decide (2 < tier) || (decide (tier = 2) && decide (o.kind ≠ 3)) ||
          (!all && decide (o.pages.length < first + n)) || decide (o.pages.length ≤ first), .badField),
       (decide (tier = 2) && decide (s.spar.st = 0), .unsupported),
       (s.migrating id || (decide (tier ≠ 0) && s.heldInHub id), .wrongState),
       (pages.isNone, .noResource)] s
      (match pages with
       | none => .done .noResource 0 s
       | some ps =>
         let s := usePages ps s
         let all := idx.zip ps
         let gone := all.filter (fun x => decide (o.pages.getD x.1 .dropped = .dropped))
         let live := all.filter (fun x => !decide (o.pages.getD x.1 .dropped = .dropped))
         let s := forEach gone (fun x s => switchPage id x.1 x.2 s) s
         let m : Migr := { obj := id, tier := tier, left := live, copies := 1, dirty := false, switched := gone.length, cmd := some c.id, lend := none }
         if live = [] then .done .ok gone.length s
         else .running { s with tiers := { s.tiers with migrs := s.tiers.migrs ++ [m] } })

/-- OBJECT_MIGRATE. -/
def execObjectMigrate (r : CmdRef) (s : State) : Host.Outcome State Fault Refusal := .next (iarik 0x0501 r none objectMigrate s)

/-- PAGE_COPY_COMPLETE (R296): the fifth copy of a page holds its writes, and so ends it. -/
def execPageCopyComplete (obj : Nat) (s : State) : Host.Outcome State Fault Refusal :=
  .next (match s.tiers.migrs.find? (fun m => decide (m.obj = obj)) with
    | none => s
    | some m => match m.left with
      | [] => settleMigr m s
      | p :: rest =>
        let put (f : Migr → Migr) (s : State) : State :=
          { s with tiers := { s.tiers with migrs := s.tiers.migrs.map (fun x => if x = m then f x else x) } }
        if m.dirty && decide (m.copies < 5) then put (fun x => { x with copies := x.copies + 1, dirty := false }) s
        else
          let m' := { m with left := rest, copies := 1, dirty := false, switched := m.switched + 1 }
          settleMigr m' (switchPage obj p.1 p.2 (put (fun _ => m') s)))

/-! ## Lends (R300-R302, R391) -/

/-- R302: pages of an object are dropped: counted and recorded, one record for the object. -/
def dropPages (dva : Nat) (idx : List Nat) (s : State) : State :=
  match idx with
  | [] => s
  | i :: _ =>
    let s := forEach idx (fun i s => setPage dva i .dropped s) s
    record .ct 0x0501 { detail := detObject dva (dva + i * pageBytes) idx.length } (countBy (memCnt 1) idx.length s)

/-- The pages of an object that lie in a lend. -/
def Obj.inLend (o : Obj) (l : Nat) : List Nat :=
  (List.range o.pages.length).filter (fun i => match o.pages[i]? with | some (.neigh x _) => decide (x = l) | _ => false)

/-- A change of a lend. -/
def updLend (id : Nat) (f : Lend → Lend) (s : State) : State :=
  { s with tiers := { s.tiers with lends := s.tiers.lends.map (fun x => if x.id = id then f x else x) } }

/-- R301: one object's lent pages start to migrate into BOARD, then HUB; what finds no room is dropped. -/
def leaveLend (l : Nat) (o : Obj) (s : State) : State :=
  let idx := o.inLend l
  let r := idx.foldl (fun (acc : List (Nat × PageAt) × List Nat × State) i =>
    let s := acc.2.2
    match s.takePages 1 0 1, s.takePages 0 0 1 with
    | some [p], _ => (acc.1 ++ [(i, p)], acc.2.1, usePages [p] s)
    | _, some [p] => (acc.1 ++ [(i, p)], acc.2.1, usePages [p] s)
    | _, _ => (acc.1, acc.2.1 ++ [i], s)) ([], [], s)
  let s := updLend l (fun x => { x with dropped := x.dropped + r.2.1.length }) (dropPages o.dva r.2.1 r.2.2)
  if r.1 = [] then s
  else { s with tiers := { s.tiers with migrs := s.tiers.migrs ++
      [{ obj := o.dva, tier := 1, left := r.1, copies := 1, dirty := false, switched := 0, cmd := none, lend := some l }] } }

/-- Does a page lie in a lend? -/
def PageAt.inLend (l : Nat) : PageAt → Bool
  | .neigh x _ => decide (x = l)
  | _ => false

/-- R296, R301: a migration that was to switch pages into a lend now taken back takes pages of other lends, as far as there are
some; a page that finds none stays where it is. DEDUCED (log 42): such a switch would be a new placement from the lend. -/
def leaveTarget (l : Nat) (m : Migr) (s : State) : State :=
  if !m.left.any (fun p => p.2.inLend l) then s
  else
    let r := m.left.foldl (fun (acc : List (Nat × PageAt) × List PageAt) p =>
      if p.2.inLend l then
        match acc.2 with
        | q :: qs => (acc.1 ++ [(p.1, q)], qs)
        | [] => acc
      else (acc.1 ++ [p], acc.2)) ([], s.lendPages.filter (fun p => !p.inLend l))
    let m' := { m with left := r.1, copies := 1, dirty := false }
    settleMigr m' { s with tiers := { s.tiers with migrs := s.tiers.migrs.map (fun x => if x = m then m' else x) } }

/-- RECLAIM_NOTICE (R301): a borrower gives back a lend. -/
def execReclaimNotice (lend : Nat) (s : State) : Host.Outcome State Fault Refusal :=
  .next (match s.tiers.lends.find? (fun x => decide (x.id = lend)) with
    | none => s
    | some x =>
      if x.lender = s.spar.member || x.reclaiming then s
      else
        let s := updLend lend (fun y => { y with reclaiming := true }) s
        let s := forEach s.tiers.migrs (leaveTarget lend) s
        reportLend lend (forEach s.tiers.objs (leaveLend lend) s))

/-- The members a lend goes to. -/
def State.borrowersOf (s : State) (l : Lend) : List Nat :=
  match l.borrower with
  | some m => [m]
  | none => s.otherMembers

/-- The pages of a lend return to the lender's pool. -/
def giveBack (l : Lend) (s : State) : State :=
  { s with tiers := { s.tiers with
    lends := s.tiers.lends.filter (fun x => decide (x.id ≠ l.id))
    hubUsed := if l.hubPool then s.tiers.hubUsed.filter (fun f => !decide (f ∈ l.frames)) else s.tiers.hubUsed
    boardUsed := if l.hubPool then s.tiers.boardUsed else s.tiers.boardUsed.filter (fun f => !decide (f ∈ l.frames)) } }

/-- R301: a reclaim ends on the lender, with the pages dropped as its result: those that the borrowers report, and, of borrowers
that have not reported, a free number of the pages left (log 42). -/
def endReclaim (l : Lend) (s : State) : State :=
  let all := (s.borrowersOf l).all (fun m => decide (m ∈ l.reported))
  let s := count (memCnt 7) (giveBack l s)
  if all then finishOpt l.cmd .ok l.dropped s
  else
    let d := drawWord s
    finishOpt l.cmd .ok (l.dropped + d.1.toNat % (l.frames.length - l.dropped + 1)) d.2

/-- RECLAIM_REPORT (R301): a borrower's pages have left the lend, so many of them dropped. -/
def execReclaimReport (member : Nat) (rep : LendRep) (s : State) : Host.Outcome State Fault Refusal :=
  .next (match s.tiers.lends.find? (fun x => decide (x.id = rep.lend)) with
    | none => s
    | some l =>
      if l.lender ≠ s.spar.member || !l.reclaiming || decide (member ∈ l.reported) then s
      else
        let l' := { l with reported := addOnce l.reported member, dropped := min (l.dropped + rep.dropped) l.frames.length }
        if (s.borrowersOf l').all (fun m => decide (m ∈ l'.reported)) then endReclaim l' s
        else updLend rep.lend (fun _ => l') s)

/-- R301: at 10 ms a borrower's unswitched pages are dropped and copies in progress abandoned. -/
def abandonLend (l : Nat) (s : State) : State :=
  let s := forEach (s.tiers.migrs.filter (fun m => decide (m.lend ≠ some l))) (leaveTarget l) s
  let gone := s.tiers.migrs.filter (fun m => decide (m.lend = some l))
  let s := { s with tiers := { s.tiers with migrs := s.tiers.migrs.filter (fun m => decide (m.lend ≠ some l)) } }
  let s := forEach gone (fun m s => freePages (m.left.map (·.2)) s) s
  let s := forEach s.tiers.objs (fun o s => dropPages o.dva (o.inLend l) s) s
  { s with tiers := { s.tiers with lends := s.tiers.lends.filter (fun x => decide (x.id ≠ l)) } }

/-- RECLAIM_LIMIT (R301). -/
def execReclaimLimit (lend : Nat) (s : State) : Host.Outcome State Fault Refusal :=
  .next (match s.tiers.lends.find? (fun x => decide (x.id = lend)) with
    | none => s
    | some l => if !l.reclaiming then s else if l.lender = s.spar.member then endReclaim l s else abandonLend lend s)

/-- The body of `GROUP_LEND` LEND; a reserved operation is rejected here. -/
def groupLend (c : Cmd) (s : State) : Reply :=
  let all := bit (c.arg 0) 9
  let b := c.fld 0 8 3
  let hub := !bit (c.arg 0) 2
  let n := c.arg 1
  let pages := s.takePages (if hub then 0 else 1) 0 n
  let known (m : Nat) : Bool := mhas s.spar.members m || decide (m = s.spar.manager)
  checked c (s.absentUnit c)
    [(decide (c.fld 0 1 0 ≠ 0) || c.argReserved 0x3FF all64 0 0 0 || decide (c.sub.payLen ≠ 0) || (all && decide (b ≠ 0)) ||
        (!all && decide (s.spar.st = 1) && !known b) || (!all && decide (s.spar.st ≠ 0) && decide (b = s.spar.member)), .badField),
     (decide (s.spar.st = 0) || decide (s.spar.st = 3), .wrongState),
     (pages.isNone, .noResource)] s
    (match pages with
     | none => .done .noResource 0 s
     | some ps =>
       let frames := ps.filterMap (fun p => match p with | .hub f => some f | .board f => some f | _ => none)
       -- the identifier is unique in the group: the lender's member number and a count (log 42)
       let l : Lend := { id := s.spar.member * 2 ^ 24 + s.tiers.nextLend % 2 ^ 24, lender := s.spar.member, borrower := if all then none else some b, hubPool := hub, frames := frames,
                         reclaiming := false, reported := [], dropped := 0, cmd := none, closed := false }
       let s := usePages ps s
       let s := { s with tiers := { s.tiers with lends := s.tiers.lends ++ [l], nextLend := s.tiers.nextLend + 1 } }
       .done .ok l.id (forEach (s.borrowersOf l) (fun m s => sendTo m (.lend l.id frames.length) s) s))

/-- GROUP_LEND. -/
def execGroupLend (r : CmdRef) (s : State) : Host.Outcome State Fault Refusal :=
  .next (iarikIf 0x0701 r (fun c => decide (c.fld 0 1 0 ≠ 1)) groupLend s)

/-- The body of `GROUP_LEND` RECLAIM. -/
def groupReclaim (c : Cmd) (s : State) : Reply :=
  let l := s.tiers.lends.find? (fun x => decide (x.id = c.arg 1) && decide (x.lender = s.spar.member))
  checked c (s.absentUnit c)
    [(c.argReserved 3 all64 0 0 0 || decide (c.sub.payLen ≠ 0) || l.isNone, .badField),
     ((match l with | some x => x.reclaiming | none => true), .wrongState)] s
    (match l with
     | none => .done .badField 0 s
     | some l =>
       let l' := { l with reclaiming := true, cmd := some c.id }
       let s := updLend l.id (fun _ => l') s
       let s := forEach (s.borrowersOf l) (fun m s => sendTo m (.reclaimNotice l.id) s) s
       if s.borrowersOf l = [] then .running (endReclaim l' s) else .running s)

/-- GROUP_LEND_RECLAIM. -/
def execGroupLendReclaim (r : CmdRef) (s : State) : Host.Outcome State Fault Refusal :=
  .next (iarikIf 0x0701 r (fun c => decide (c.fld 0 1 0 = 1)) groupReclaim s)

/-! ## Board memory (R303, R410-R412) -/

/-- POISON_REWRITE_COMPLETE (R303): the page is rewritten into a fresh board page, or the rewrite is abandoned. -/
def execPoisonRewriteComplete (unit : Nat) (backing : BusRead) (s : State) : Host.Outcome State Fault Refusal :=
  .next (
    if !decide (unit ∈ s.tiers.rewrites) then s
    else
      let s := { s with tiers := { s.tiers with rewrites := s.tiers.rewrites.filter (· ≠ unit) } }
      let old := (unit - boardBase) / pageBytes
      match s.objOnBoard unit with
      | none => s
      | some o =>
        match backing, s.takePages 1 0 1 with
        | some b, some [p] =>
          let i := o.pages.findIdx (fun g => decide (g = .board old))
          let s := setPage o.dva i p (freePages [.board old] (usePages [p] s))
          writeDva (o.dva + i * pageBytes) (slice b 0 pageBytes) s
        | _, _ => record .ct 0x0502 { detail := detObject o.dva (o.dvaOf unit) 1, status := Status.aborted.code }
            { s with tiers := { s.tiers with abandoned := addOnce s.tiers.abandoned unit } })

/-- BOARD_PATROL (R303, R410): the patrol reads one unit. -/
def execBoardPatrol (unit : Nat) (corrected uncorrectable : Bool) (s : State) : Host.Outcome State Fault Refusal :=
  .next (
    if unit % 64 ≠ 0 || decide (unit < boardBase) || decide (boardBase + s.boardBytes ≤ unit) then s
    else if uncorrectable then poisonRead unit { s with tiers := { s.tiers with poison := addOnce s.tiers.poison unit } }
    else if corrected then count (memCnt 4) s else s)

/-- R194, R412: the board tier becomes unavailable. -/
def boardLost (fail : Word) (s : State) : State :=
  let s := { s with
    tiers := { s.tiers with unavailable := true, trained := false, chFail := s.tiers.chFail ||| fail,
                            channels := s.tiers.channels - (List.range 32).countP (fun c => fail.getLsbD c && !s.tiers.chFail.getLsbD c) }
    ready := { s.ready with boardMem := false } }
  let s := record .dg 0x0503 { detail := toLE 4 s.tiers.chFail.toNat } s
  let named (o : Obj) : Bool := s.tiers.named.any (fun u => decide ((s.objOnBoard u).map (·.dva) = some o.dva))
  let s := forEach (s.tiers.objs.filter (fun o => o.pages.any (fun p => decide (p.tier = 1)) && !named o)) (fun o s =>
    record .ct 0x0502 { detail := detObject o.dva o.dva (o.pages.countP (fun p => decide (p.tier = 1))) } s) s
  forEach (s.plans.filter (fun p => !p.2.active)) (fun p s => freePlan p.1 s) s

/-- BOARD_RETRAIN (R411, R412). -/
def execBoardRetrain (channel : Nat) (ok : Bool) (s : State) : Host.Outcome State Fault Refusal :=
  .next (if ok || s.tiers.unavailable || !s.tiers.trained || decide (s.part.variant.channels ≤ channel) then s
    else boardLost (BitVec.ofNat 32 (2 ^ channel)) s)

end Sys2Proof.Machine
end

