-- ==== Sys2Proof/Machine/Streams.lean ====
section
/-! DEFINITION. Sys2Proof/Machine/Streams.lean: adapters, tuning sessions and streams as commands (R310-R315, R326, R329,
R384-R386). -/

namespace Sys2Proof.Machine

/-! ## Adapters (R310, R311) -/

/-- The Slate object that an identifier names, with its slot (R375). -/
def State.slateObj (s : State) (id : Nat) : Option (Nat × SObj) :=
  let slot := id / 2 ^ 16 % 16
  if decide (id / 2 ^ 56 = 2) && decide (id / 2 ^ 20 % 2 ^ 36 = 0) then
    ((s.slot slot).objs.find? (fun o => decide (o.number = id % 65536))).map (fun o => (slot, o))
  else none

/-- Is an identifier a weight object of a model slot? -/
def State.weightOf (s : State) (slot id : Nat) : Bool :=
  match s.slateObj id with | some x => decide (x.1 = slot) && decide (x.2.kind = 1) | none => false

/-- An adapter image as R310 lays it out, at a DVA. -/
def parseAdapter (b : Bytes) (dva : Nat) : Adapter :=
  { dva := dva, model := BitVec.ofNat 64 (u b 0 8), rank := u b 8 1,
    targets := (List.range (u b 9 2)).map (fun i =>
      (BitVec.ofNat 64 (u b (16 + 16 * i) 8), u b (24 + 16 * i) 4, u b (28 + 16 * i) 4)) }

/-- Lines of an adapter (R310). -/
def Adapter.lines (a : Adapter) : Nat := (a.rows.map (fun q => cdiv q 4)).sum

/-- R310: a length of a target. -/
def targetLen (n : Nat) : Bool := decide (32 ≤ n) && decide (n ≤ 65536) && decide (n % 32 = 0)

/-- R310: the fields of an image, for the model slot it names. -/
def State.adapterOk (s : State) (b : Bytes) : Bool :=
  let a := parseAdapter b 0
  decide (16 ≤ b.length) && decide (1 ≤ a.rank) && decide (a.rank ≤ 128) && decide (1 ≤ u b 9 2) && decide (u b 9 2 ≤ 256) &&
  decide (leNat (slice b 11 5) = 0) &&
  (match s.modelSlot a.model.toNat with
   | some slot => a.targets.all (fun t => s.weightOf slot t.1.toNat && targetLen t.2.1 && targetLen t.2.2)
   | none => false) &&
  decide (b.length = 16 + 16 * a.targets.length + 68 * a.lines)

/-- The body of `ADAPTER_LOAD`. -/
def adapterLoad (pay : BusRead) (c : Cmd) (s : State) : Reply :=
  let b := (s.payload c pay).getD []
  let tier := c.fld 0 3 0
  let n := cdiv b.length pageBytes
  let req := c.arg 1
  let dva := if req = 0 then s.chooseDva n else some req
  let pages := s.takePages tier 0 n
  let st := match s.modelSlot (u b 0 8) with | some i => (s.slot i).st | none => .empty
  checked c false
    [(c.argReserved 0xF all64 0 0 0 || (s.payload c pay).isNone || decide (1 < tier) || !s.adapterOk b ||
        (decide (req ≠ 0) && !s.dvaFree req n), .badField),
     (!decide (st ∈ [SlotSt.serving, .staging, .committing]), .wrongState),
     (decide (4096 ≤ s.models.adapters.length) || pages.isNone || dva.isNone, .noResource)] s
    (match dva, pages with
     | some a, some ps =>
       let s := addObject { dva := a, kind := 4, size := b.length, kvC := 0, kvH := 0, pages := ps, backing := 0 } s
       .done .ok a (writeDva a b { s with models := { s.models with adapters := s.models.adapters ++ [parseAdapter b a] } })
     | _, _ => .done .noResource 0 s)

/-- ADAPTER_LOAD. -/
def execAdapterLoad (r : CmdRef) (pay : BusRead) (s : State) : Host.Outcome State Fault Refusal :=
  .next (iarik 0x0200 r pay (adapterLoad pay) s)

/-- The body of `ADAPTER_DROP`. -/
def adapterDrop (c : Cmd) (s : State) : Reply :=
  let id := c.arg 0
  checked c false
    [(c.argReserved all64 0 0 0 0 || decide (c.sub.payLen ≠ 0) || (s.adapter id).isNone, .badField),
     (s.boundToStream id || s.namedByPlan id || s.migrating id, .wrongState)] s
    (.done .ok 0 (dropObject id { s with models := { s.models with adapters := s.models.adapters.filter (fun a => decide (a.dva ≠ id)) } }))

/-- ADAPTER_DROP. -/
def execAdapterDrop (r : CmdRef) (s : State) : Host.Outcome State Fault Refusal := .next (iarik 0x0201 r none adapterDrop s)

/-! ## Tuning sessions (R326, R329) -/

/-- Objects for the masters and moments, from BOARD or else HUB, as one object each. DESIGN CHOICE (log 40). -/
def placeTensor (bytes : Nat) (s : State) : Option (Nat × State) :=
  let n := cdiv bytes pageBytes
  match s.chooseDva n, s.takePages 1 0 n, s.takePages 0 0 n with
  | some a, some ps, _ => some (a, addObject { dva := a, kind := 7, size := bytes, kvC := 0, kvH := 0, pages := ps, backing := 0 } s)
  | some a, none, some ps => some (a, addObject { dva := a, kind := 7, size := bytes, kvC := 0, kvH := 0, pages := ps, backing := 0 } s)
  | _, _, _ => none

/-- The three tensors of a session of `blocks` blocks. -/
def placeTensors (blocks : Nat) (s : State) : Option (Nat × Nat × Nat × State) :=
  (placeTensor (64 * blocks) s).bind (fun a =>
    (placeTensor (tensorBytes 32 blocks) a.2).bind (fun b =>
      (placeTensor (tensorBytes 32 blocks) b.2).map (fun c => (a.1, b.1, c.1, c.2))))

/-- The masters that the applied copy gives, as bytes (R62, R326). -/
def State.mastersFrom (s : State) (a : Adapter) : Bytes :=
  (placeBlocks a.rows 0).flatMap (fun p =>
    let line := s.bytesAt (a.lineAt p.1) 68
    let sc := (e4m3 (line.getD (64 + p.2) 0)).getD ⟨0, 0⟩
    (List.range 32).flatMap (fun j => toLE 2 (toBf16 (toF32 ((dy (int4Val (codeAt 4 line (32 * p.2 + j)))).mul sc))).1.toNat))

/-- A placed object in HUB or BOARD of a kind that holds tuning data, of at least `n` bytes (R326; log 40). -/
def State.tuneObj (s : State) (id n : Nat) : Bool :=
  match s.obj id with
  | some o => decide (o.kind ∈ [1, 5]) && o.pages.all (fun p => decide (p.tier ≤ 1)) && decide (n ≤ o.size)
  | none => false

/-- R326, R327: the optimiser parameters' ranges. -/
def tuneParamsOk (b : Bytes) : Bool :=
  let w (i : Nat) : Word := BitVec.ofNat 32 (u b (4 * i) 4)
  let pos (x : Word) : Bool := fFinite x && !fSign x && !fZero x
  pos (w 0) && decide ((w 0).toNat < fOne.toNat) && pos (w 1) && decide ((w 1).toNat < fOne.toNat) && pos (w 2) && pos (w 3) &&
  fFinite (w 4) && (fZero (w 4) || !fSign (w 4)) && decide (leNat (slice b 20 12) = 0)

/-- The body of `TUNE_START`. -/
def tuneStart (pay : BusRead) (c : Cmd) (s : State) : Reply :=
  let b := (s.payload c pay).getD []
  let i := c.fld 0 7 0
  let st := mget s.models.streams i
  let ad := (st.bind (·.adapter)).bind s.adapter
  let blocks := match ad with | some a => a.blocks | none => 0
  let head := match st with | some x => s.weightOf x.slot (c.arg 1) | none => (s.slateObj (c.arg 1)).isSome
  let slot := lowest (fun j => (mget s.models.tunes j).isNone) 16
  let room := placeTensors blocks s
  let shared := match ad with
    | some a => s.models.streams.any (fun x => decide (x.1 ≠ i) && decide (x.2.adapter = some a.dva)) ||
                s.models.tunes.any (fun t => decide (t.2.adapter = a.dva))
    | none => true
  checked c (s.absentUnit c)
    [(c.argReserved 0x1FFFF all64 all64 all64 0 || (s.payload c pay).isNone || decide (b.length ≠ 32) || decide (c.fld 0 14 8 = 0) ||
        decide (64 < c.fld 0 14 8) || !tuneParamsOk b || !head || !s.tuneObj (c.arg 2) 1 || !s.tuneObj (c.arg 3) (tensorBytes 16 blocks), .badField),
     (st.isNone || shared || (match st with | some x => x.closing.isSome | none => false), .wrongState),
     (slot.isNone || room.isNone, .noResource)] s
    (match ad, slot, room with
     | some a, some j, some (ma, mo, va, s') =>
       let w (k : Nat) : Word := BitVec.ofNat 32 (u b (4 * k) 4)
       let t : Tune := { stream := i, adapter := a.dva, mse := bit (c.arg 0) 15, bias := bit (c.arg 0) 16, lossHead := c.sub.a1, saved := c.arg 2,
                         grad := c.arg 3, b1 := w 0, b2 := w 1, lr := w 2, eps := w 3, wd := w 4, n := c.fld 0 14 8, steps := 0, stepT := 0,
                         sum := [], master := ma, mom := mo, var := va, work := [], apply := false, stopping := none }
       let zero := List.replicate (32 * blocks) (0 : Byte) ++ List.replicate blocks (0x7F : Byte)
       let s' := writeDva va zero (writeDva mo zero (writeDva ma (s.mastersFrom a) s'))
       .done .ok j { s' with models := { s'.models with tunes := mset s'.models.tunes j t } }
     | _, _, _ => .done .noResource 0 s)

/-- TUNE_START. -/
def execTuneStart (r : CmdRef) (pay : BusRead) (s : State) : Host.Outcome State Fault Refusal :=
  .next (iarik 0x0202 r pay (tuneStart pay) s)

/-- The body of `TUNE_STOP`. -/
def tuneStop (c : Cmd) (s : State) : Reply :=
  let i := c.fld 0 3 0
  let keep := bit (c.arg 0) 8
  let t := mget s.models.tunes i
  checked c (s.absentUnit c)
    [(c.argReserved 0x10F 0 0 0 0 || (if keep then decide (c.sub.payLen < 24) else decide (c.sub.payLen ≠ 0)), .badField),
     (t.isNone, .wrongState)] s
    (let s := updTune i (fun t => { t with stopping := some (c.id, keep) }) s
     match t.bind (fun t => mget s.models.streams t.stream) with
     | some st => .running (if s.inStep st then s else endTune i keep s)
     | none => .running (endTune i keep s))

/-- TUNE_STOP. -/
def execTuneStop (r : CmdRef) (s : State) : Host.Outcome State Fault Refusal := .next (iarik 0x0203 r none tuneStop s)

/-! ## Streams (R312, R384, R385) -/

/-- The STREAM_IO words of a schedule's sequence that move batch row `b` in a direction. -/
def Plan.ioWords (p : Plan) (sc b dir : Nat) : List QWord :=
  ((indexed p.strmW).filter (fun x => decide (seqOwner p.strmEps x.1 = sc) && decide (wOp x.2 = 0x31) && decide (wf x.2 1 0 = dir) &&
    decide (wf x.2 16 9 ≤ b) && decide (b ≤ wf x.2 16 9 + wf x.2 24 17))).map (·.2)

/-- The longest row of IN words. -/
def longestRow (ws : List QWord) : Nat := ws.foldl (fun n w => max n (wf w 56 41 * 16)) 0
/-- The bytes of a stream's input row: the longest row that an IN word of its batch row takes; where none takes it, the
longest that an IN word of the schedule takes (R384; log 43). -/
def Plan.inRow (p : Plan) (sc b : Nat) : Nat :=
  if p.ioWords sc b 0 = [] then longestRow ((List.range 256).flatMap (fun r => p.ioWords sc r 0)) else longestRow (p.ioWords sc b 0)
/-- The bytes that OUT words write for a batch row in one step (R312). -/
def Plan.outRow (p : Plan) (sc b : Nat) : Nat :=
  (p.ioWords sc b 1).foldl (fun n w => n + wf w 56 41 * 16 * (if wf w 8 8 = 1 then p.arrayList.length else 1)) 0

/-- The KV sets of a plan: the symbols of kind KV object (R297). -/
def Plan.kvSets (p : Plan) : List Nat := (List.range p.symbols.length).filter (fun i => decide (p.symKind i = some 3))

/-- The KV bindings of a `STREAM_OPEN` payload (R385). -/
def kvBindings (b : Bytes) : List (Nat × Nat) := (List.range (u b 16 2)).map (fun i => (u b (32 + 16 * i) 4, u b (40 + 16 * i) 8))

/-- R385: the payload's layout. -/
def openPayOk (b : Bytes) : Bool :=
  decide (b.length = 32 + 16 * u b 16 2) && decide (u b 12 1 ≤ 1) && decide (leNat (slice b 13 3) = 0) &&
  decide (leNat (slice b 18 14) = 0) && (List.range (u b 16 2)).all (fun i => decide (u b (36 + 16 * i) 4 = 0))

/-- The symbol of a plan that names a model slot. -/
def State.modelSym (s : State) (p : Plan) (slot : Nat) : Option Nat :=
  (List.range p.symbols.length).find? (fun i => match p.symbols[i]? with
    | some y => decide (y.kind = 0) && decide (y.ident.toNat = modelId slot (s.slot slot).count)
    | none => false)

/-- R312: is a batch row in a QUANT word of several models that another model's stream already has a row of (R73)? -/
def State.quantMeets (s : State) (h sc b slot : Nat) (p : Plan) : Bool :=
  p.arrayList.any (fun a =>
    (indexed (p.execStream a)).any (fun x =>
      let w := x.2
      let eps := if p.el3 then p.fetchEps a else p.execEps a
      let has (r : Nat) : Bool := decide (wf w 25 18 ≤ r) && decide (r ≤ wf w 25 18 + wf w 17 10)
      decide (wOp w = 0x25) && decide (seqOwner eps x.1 = sc) && decide (1 < (p.qps (wf w 9 0)).length) && has b &&
      s.models.streams.any (fun y => decide (y.2.handle = h) && decide (y.2.sched = sc) && !y.2.orphan && has y.2.row && decide (y.2.slot ≠ slot))))

/-- The scale-history records of a stream, empty (R93, R97, R312). -/
def freshHist (p : Plan) (sym : Nat) : NMap (List Half) :=
  (p.qpoints.filter (fun q => q.carried && decide (q.model = sym))).foldl (fun m q => mset m q.qp (List.replicate 8 0xFFFF)) []

/-- R312: do further records fit into hub SRAM beside the objects there? -/
def State.histFits (s : State) (n : Nat) : Bool :=
  let total := s.models.streams.foldl (fun k p => k + 16 * p.2.hist.length) 0 + 16 * n
  let pages := cdiv total pageBytes
  decide (pages ≤ 1024) && !s.tiers.hubUsed.any (fun f => decide (1024 - pages ≤ f))

/-- R312: the checks 3 of `STREAM_OPEN` that its plan decides. -/
def State.openFields (s : State) (c : Cmd) (b : Bytes) (p : Plan) : Bool :=
  let sc := c.fld 0 12 9
  let row := c.fld 0 20 13
  let kv := kvBindings b
  match p.scheds[sc]? with
  | none => false
  | some d =>
    decide (c.fld 2 31 0 = d.period) && decide (d.deadline ≤ c.fld 2 63 32) && decide (p.outRow sc row ≤ u b 8 4) &&
    decide (kv.length = p.kvSets.length) && decide (kv.map (·.1)).Nodup && kv.all (fun x => decide (x.1 ∈ p.kvSets)) &&
    kv.all (fun x => match s.obj x.2 with | some o => decide (o.kind = 3) && decide (c.fld 3 31 0 ≤ o.kvC) | none => false)

/-- The body of `STREAM_OPEN`. The head count and capacity that a KV set declares stand in no table of the plan, so only the
kind is checked (log 44). -/
def streamOpen (pay : BusRead) (c : Cmd) (s : State) : Reply :=
  let b := (s.payload c pay).getD []
  let slot := c.fld 0 3 0
  let h := c.fld 0 8 4
  let sc := c.fld 0 12 9
  let row := c.fld 0 20 13
  let p := s.plan h
  let ad := c.arg 1
  let adOk := if bit (c.arg 0) 27 then (match s.adapter ad with
      | some a => decide (s.modelSlot a.model.toNat = some slot)
      | none => false) else decide (ad = 0)
  let fields := match p with | some q => s.openFields c b q.plan | none => true
  let state := match p with
    | some q => (decide (q.st = .loaded) || decide (q.st = .running)) && (s.modelSym q.plan slot).isSome &&
        !s.models.streams.any (fun x => decide (x.2.handle = h) && decide (x.2.sched = sc) && decide (x.2.row = row) && !x.2.orphan) &&
        !s.quantMeets h sc row slot q.plan
    | none => false
  let hist := match p with
    | some q => (match s.modelSym q.plan slot with | some y => freshHist q.plan y | none => [])
    | none => []
  let idx := lowest (fun i => (mget s.models.streams i).isNone) 256
  checked c false
    [(c.argReserved 0xFFFFFFF all64 all64 low32 0 || (s.payload c pay).isNone || !openPayOk b || !adOk || !fields, .badField),
     (!decide ((s.slot slot).st ∈ [SlotSt.serving, .staging, .committing, .partialSwap]) || !state, .wrongState),
     (idx.isNone || !s.histFits hist.length, .noResource)] s
    (match idx with
     | none => .done .noResource 0 s
     | some i =>
       let st : Stream := { slot := slot, handle := h, sched := sc, row := row, pair := c.fld 0 26 21,
                            adapter := if bit (c.arg 0) 27 then some ad else none, period := c.fld 2 31 0, deadline := c.fld 2 63 32,
                            pos := c.fld 3 31 0, kv := (kvBindings b).foldl (fun m x => mset m x.1 x.2) [], outAddr := u b 0 8,
                            outLen := u b 8 4, outDva := decide (u b 12 1 = 1), held := [], appended := [], outPos := 0, closing := none,
                            orphan := false, input := none, hist := hist }
       .done .ok i { s with models := { s.models with streams := mset s.models.streams i st } })

/-- STREAM_OPEN. -/
def execStreamOpen (r : CmdRef) (pay : BusRead) (s : State) : Host.Outcome State Fault Refusal :=
  .next (iarik 0x0300 r pay (streamOpen pay) s)

/-- The body of `STREAM_CLOSE`. -/
def streamClose (c : Cmd) (s : State) : Reply :=
  let i := c.fld 0 7 0
  checked c false
    [(c.argReserved 0xFF 0 0 0 0 || decide (c.sub.payLen ≠ 0), .badField),
     ((match mget s.models.streams i with | some st => st.closing.isSome | none => true), .wrongState)] s
    (match mget s.models.streams i with
     | some st =>
       let s := updStream i (fun st => { st with closing := some c.id }) s
       .running (if s.inStep st then s else closeStream i s)
     | none => .done .wrongState 0 s)

/-- STREAM_CLOSE. -/
def execStreamClose (r : CmdRef) (s : State) : Host.Outcome State Fault Refusal := .next (iarik 0x0301 r none streamClose s)

/-- R384: is a submission's length right? With a tuning session the targets of the loss head follow the row; the spec does
not give their length. Where the schedule has no IN word there is no row length to hold the payload to (log 43). -/
def State.submitLen (s : State) (i : Nat) (st : Stream) (n : Nat) : Bool :=
  match s.plan st.handle with
  | some p =>
    let row := p.plan.inRow st.sched st.row
    st.orphan || decide (row = 0) || (if s.models.tunes.any (fun t => decide (t.2.stream = i)) then decide (row < n) else decide (n = row))
  | none => true

/-- The body of `STREAM_SUBMIT`. -/
def streamSubmit (pay : BusRead) (c : Cmd) (s : State) : Reply :=
  let i := c.fld 0 7 0
  let b := (s.payload c pay).getD []
  let st := mget s.models.streams i
  checked c false
    [(c.argReserved 0xFF 0 0 0 0 || (s.payload c pay).isNone || (match st with | some x => !s.submitLen i x b.length | none => false), .badField),
     ((match st with | some x => x.closing.isSome || decide (c.origin ≠ .host x.pair) | none => true), .wrongState),
     ((match st with | some x => decide (4 ≤ x.held.length) | none => false), .noResource)] s
    (.running (updStream i (fun st => { st with held := st.held ++ [{ cmd := c.id, data := b, placed := none }] }) s))

/-- STREAM_SUBMIT. -/
def execStreamSubmit (r : CmdRef) (pay : BusRead) (s : State) : Host.Outcome State Fault Refusal :=
  .next (iarik 0x0302 r pay (streamSubmit pay) s)

/-- The oldest submission not yet placed is placed at a time. -/
def placeFirst (t : Nat) : List Held → List Held
  | [] => []
  | x :: l => if x.placed.isNone then { x with placed := some t } :: l else x :: placeFirst t l

/-- SUBMIT_PAYLOAD_PLACED (R386): the copy of a submission into hub SRAM completes. -/
def execSubmitPayloadPlaced (stream : Nat) (t : Nat) (s : State) : Host.Outcome State Fault Refusal :=
  .next (
    let s := reachTime t s
    updStream stream (fun st => { st with held := placeFirst s.tbu.now st.held }) s)

end Sys2Proof.Machine
end

