-- ==== Sys2Proof/Machine/Spar.lean ====
section
/-! DEFINITION. Sys2Proof/Machine/Spar.lean: the Spar fabric as a device meets it: flits, ports, channel messages, coded
blocks, group counters and time, forming and dissolving a group, and the loss of members (R280-R287, R332-R360, R391, R392). -/

namespace Sys2Proof.Machine

/-! ## The link layer (R339-R341) -/

/-- R340: is a flit good on a port? -/
def Port.good (x : Port) (f : Flit) : Bool :=
  !f.fecBad && !f.crcBad && decide (f.typ.toNat < 8) && !f.resBits && decide (f.len ≤ 240) && decide (f.seq.toNat = x.rxSeq)

/-- R339, R340: the flits up to the one acknowledged leave the replay buffer. -/
def Port.acked (x : Port) (a : Nat) : Port :=
  match x.replay.findIdx? (fun r => decide (r.1 = a)) with
  | some i => { x with replay := x.replay.drop (i + 1) }
  | none => x

/-- R340, R360: a bad flit is counted and discarded and a NAK is sent; later flits are discarded without one until the replay. -/
def badFlit (p : Nat) (f : Flit) (s : State) : State :=
  let x := s.port p
  if x.discarding && decide (f.seq.toNat ≠ x.rxSeq) then s
  else
    let s := if f.fecBad then count (sprCnt p 1) s else s
    let s := if f.crcBad then count (sprCnt p 2) s else s
    let s := if decide (8 ≤ f.typ.toNat) || f.resBits || decide (f.seq.toNat ≠ x.rxSeq) then count (sprCnt p 4) s else s
    portSend p (s.flitOf x.peer (.nak x.rxSeq)) (updPort p (fun x => { x with discarding := true }) s)

/-- A flit of a type reaches an UP port: taken in order, its acknowledgement applied, or bad. -/
def takeFlit (p typ : Nat) (f : Flit) (k : State → State) (s : State) : State :=
  let x := s.port p
  if decide (x.st ≠ portUp) || decide (s.part.variant.ports ≤ p) then s
  else if !x.good f then badFlit p f s
  else
  let s := if f.fecFixed then count (sprCnt p 0) s else s
  if f.typ.toNat ≠ typ then s
  else k (flushWaiting (updPort p (fun x => { x.acked f.ack.toNat with rxSeq := (x.rxSeq + 1) % 4096, discarding := false }) s))

/-- BAD_FLIT (R340). -/
def execBadFlit (port : Nat) (f : Flit) (s : State) : Host.Outcome State Fault Refusal :=
  .next (if decide ((s.port port).st ≠ portUp) || decide (s.part.variant.ports ≤ port) || (s.port port).good f then s else badFlit port f s)

/-- ACK_FLIT (R340): the acknowledgement lies in its header. -/
def execAckFlit (port : Nat) (f : Flit) (s : State) : Host.Outcome State Fault Refusal := .next (takeFlit port 2 f (fun s => s) s)

/-- R340, R341: the flits not acknowledged are sent again, in order. -/
def replay (p : Nat) (s : State) : State :=
  let x := s.port p
  match x.replay with
  | [] => s
  | r :: _ =>
    let s := forEach x.replay (fun r s => emit (.spar p r.1 x.lastIn r.2) s) (count (sprCnt p 3) s)
    updPort p (fun x => { x with
      replayT := s.tbu.now :: x.replayT.filter (fun t => decide (s.tbu.now < t + 1000000))
      sameReplay := if x.lastReplay = some r.1 then x.sameReplay + 1 else 0
      lastReplay := some r.1 }) s

/-- NAK_FLIT (R340). -/
def execNakFlit (port : Nat) (f : Flit) (s : State) : Host.Outcome State Fault Refusal := .next (takeFlit port 3 f (replay port) s)

/-- R341, R342: a port is taken down and retrained; what it had not got acknowledged goes first on the new route. -/
def takeDown (p : Nat) (s : State) : State :=
  let x := s.port p
  let again := (x.replay.map (·.2)).filter (fun f => decide (f.typ ≠ 2) && decide (f.typ ≠ 3))
  let s := updPort p (fun x => { x with
    st := portTraining, txSeq := 0, rxSeq := 0, replay := [], discarding := false, replayT := [], lastReplay := none, sameReplay := 0, failRow := 0 }) s
  let s := { s with spar := { s.spar with waiting := again ++ s.spar.waiting } }
  flushWaiting (deviceJob 9 p (count (sprCnt p 5) (count (sprCnt p 7) s)))

/-- PORT_DOWN (R341): a lane has failed, or replays have passed their limits. -/
def execPortDown (port : Nat) (laneFail : Option Nat) (s : State) : Host.Outcome State Fault Refusal :=
  .next (
    let x := s.port port
    if decide (x.st ≠ portUp) || decide (s.part.variant.ports ≤ port) then s
    else match laneFail with
      | some l => takeDown port (count (sprCnt port 6) (updPort port (fun x => { x with lanesOk := x.lanesOk &&& ~~~ BitVec.ofNat 4 (2 ^ l) }) s))
      | none =>
        if decide (16 < x.replayT.countP (fun t => decide (s.tbu.now < t + 1000000))) || decide (8 ≤ x.sameReplay) then takeDown port s else s)

/-- R341, R501: a port is FAILED, with the record named, and its RETRAIN has failed. -/
def failPort (code p : Nat) (s : State) : State :=
  let x := s.port p
  record .dg code { detail := detChannel s.spar.member x.peer p 0xFF }
    (endJob 9 p 4 (updPort p (fun x => { x with st := portFailed, failRow := 0 }) s))

/-- R341: the training of a port fails: after three in succession it is FAILED. -/
def trainFailed (p : Nat) (s : State) : State :=
  let x := s.port p
  if x.failRow + 1 < 3 then count (sprCnt p 5) (updPort p (fun x => { x with failRow := x.failRow + 1 }) s)
  else failPort 0x0603 p s

/-- RETRAIN_COMPLETE (R341): all four lanes train and the port is UP, or the training has failed. -/
def execRetrainComplete (port : Nat) (ok : Bool) (peer : Nat) (s : State) : Host.Outcome State Fault Refusal :=
  .next (
    if decide ((s.port port).st ≠ portTraining) || decide (s.part.variant.ports ≤ port) then s
    else if ok then
      let s := updPort port (fun x => { x with st := portUp, peer := peer % 64, lanesOk := 15, failRow := 0 }) s
      flushWaiting (endJob 9 port 2 s)
    else trainFailed port s)

/-- Ports that are down start training; after a GROUP_FORM the FAILED ones too (R334, R341). DEDUCED (log 45). -/
def trainPorts (failedToo : Bool) (s : State) : State :=
  forUpto s.part.variant.ports (fun p s =>
    if decide ((s.port p).st = portDown) || (failedToo && decide ((s.port p).st = portFailed)) then
      updPort p (fun x => { x with st := portTraining, failRow := 0 }) s
    else s) s

/-- ROUTE_TABLE_APPLY (R342, R350): a new route table of the manager takes effect. -/
def execRouteTableApply (routes : NMap Nat) (hops : Nat) (s : State) : Host.Outcome State Fault Refusal :=
  .next (
    if s.spar.st ≠ 1 ∧ s.spar.st ≠ 2 then s
    else
      let good := (routes.filter (fun r => decide (r.1 < 64) && decide (r.2 < s.part.variant.ports))).foldl (fun m r => mset m r.1 r.2) []
      flushWaiting (count 0x6004C { s with spar := { s.spar with routes := good, routeLong := decide (10 < hops) } }))

/-! ## Channel messages (R280, R343) -/

/-- R347: a member's contribution is held; words that disagree halt the plan. -/
def takeContrib (key num member : Nat) (b : Bytes) (marks : List (Nat × Nat × Half)) (s : State) : State :=
  let s' := { s with spar := { s.spar with contrib := s.spar.contrib ++ [⟨key, num, member, b, marks⟩] } }
  if (s.contribs key num).any (fun c => decide (c.member = s.spar.member) && decide (c.bytes.take 8 ≠ b.take 8)) then collMismatch (key / 16) s'
  else s'

/-- R131: a member's sums of a statistic are held, by plan handle x 4,096 + slot. -/
def takeStat (key member : Nat) (b : Bytes) (s : State) : State :=
  { s with spar := { s.spar with contrib := s.spar.contrib ++ [⟨statKey key, 0, member, b, []⟩] } }

/-- Where a byte of a lend lies on the lender (R300). -/
def State.lentAt (s : State) (place : Nat) : Option Nat :=
  (s.tiers.lends.find? (fun l => decide (l.id = place / 2 ^ 40) && decide (l.lender = s.spar.member))).bind (fun l =>
    (l.frames[place % 2 ^ 40 / pageBytes]?).map (fun f => (if l.hubPool then 0 else boardBase) + f * pageBytes + place % pageBytes))

/-- What a message of a member says is done, by its kind (log 32). `marks` are the runs of its bytes that carry reasons. -/
def deliverData (kind place member : Nat) (b : Bytes) (marks : List (Nat × Nat × Half)) (s : State) : State :=
  match kind % 8 with
  | 0 => putMarks place b marks s
  | 1 => takeContrib (place / 2 ^ 32) (place % 2 ^ 32) member b marks s
  | 2 => match s.lentAt place with
    | some a => writeDva a (b.take (pageBytes - place % pageBytes)) s
    | none => s
  | 3 => takeStat place member b s
  | 4 => forUpto 256 (fun r s => appendRow (place / 2 ^ 24) (place / 2 ^ 20 % 16) (place % 2 ^ 20) r b marks s) s
  | 5 => match s.lentAt place with
    | some a => sendMsg member (Config.wireMessage msgLentData place
        ((s.readRun a (min (u b 0 8) (pageBytes - place % pageBytes))).map (fun r => match r with | .ok x => x | _ => 0xFF))) s
    | none => s
  | 6 =>
    if s.tiers.lends.any (fun l => decide (l.id = place / 2 ^ 40) && decide (l.lender = member)) then
      (b.foldl (fun (acc : Nat × State) x => (acc.1 + 1, ramPut (2 ^ 56 + acc.1) x acc.2)) (place, s)).2
    else s
  | _ => s

/-- A whole message of a channel is delivered. -/
def deliverMsg (src : Nat) (b : Bytes) (s : State) : State :=
  let m := Config.readMessage b
  deliverData m.1 m.2.1 src m.2.2 [] s

/-- R343: messages that waited for their turn are delivered while the next one is there. -/
def deliverEarly (src : Nat) : Nat → State → State
  | 0, s => s
  | n + 1, s =>
    let want := mgetD s.spar.chanRx src 0
    match s.spar.early.find? (fun e => decide (e.1 = src) && decide (e.2.1 = want)) with
    | none => s
    | some e =>
      deliverEarly src n (deliverMsg src e.2.2 { s with spar := { s.spar with
        early := s.spar.early.filter (· ≠ e), chanRx := mset s.spar.chanRx src ((want + 1) % 65536) } })

/-- R341, R343: a message is complete: delivered in turn, held, or dropped as one already delivered. -/
def messageIn (src seq : Nat) (b : Bytes) (s : State) : State :=
  let want := mgetD s.spar.chanRx src 0
  let ahead := (seq + 65536 - want) % 65536
  if 32768 ≤ ahead ∨ s.spar.early.any (fun e => decide (e.1 = src) && decide (e.2.1 = seq)) = true then count 0x60044 s
  else if ahead = 0 then
    deliverEarly src s.spar.early.length (deliverMsg src b { s with spar := { s.spar with chanRx := mset s.spar.chanRx src ((want + 1) % 65536) } })
  else { s with spar := { s.spar with early := s.spar.early ++ [(src, seq, b)] } }

/-- R343: a flit for another member goes on with its header. -/
def passOn (f : Flit) (m : SparMsg) (s : State) : State :=
  routeFlit { typ := f.typ.toNat, dst := f.dst.toNat, src := f.src.toNat, chanSeq := f.chanSeq.toNat, eom := f.eom, msg := m } s

/-- DATA_FLIT (R343). -/
def execDataFlit (port : Nat) (f : Flit) (s : State) : Host.Outcome State Fault Refusal :=
  .next (takeFlit port 1 f (fun s =>
    let b := slice f.payload 0 f.len
    if f.dst.toNat ≠ s.spar.member then passOn f (.data b) s
    else
      let key := f.src.toNat * 65536 + f.chanSeq.toNat
      let all := mgetD s.spar.partMsg key [] ++ b
      if f.eom then messageIn f.src.toNat f.chanSeq.toNat all { s with spar := { s.spar with partMsg := mdel s.spar.partMsg key } }
      else { s with spar := { s.spar with partMsg := mset s.spar.partMsg key all } }) s)

/-! ## Coded blocks of a link channel (R280-R282, R286) -/

/-- The destination's record of a channel. -/
def updRx (src : Nat) (f : ChanSt → ChanSt) (s : State) : State :=
  { s with codec := { s.codec with rx := mset s.codec.rx src (f (chanOf s.codec.rx src)) } }

/-- Bytes of a transfer; with its last block they reach their place. The bytes of a lost block carry `tier_fallback` (R286). -/
def takeRaw (src : Nat) (raw : Bytes) (last lost : Bool) (s : State) : State :=
  let c := chanOf s.codec.rx src
  let runs := if lost then c.lost ++ [(c.buf.length, raw.length)] else c.lost
  if last then
    let p := Config.codedPlace src c.xfer
    deliverData p.1 p.2.1 src (p.2.2 ++ (c.buf ++ raw)) (runs.map (fun r => (p.2.2.length + r.1, r.2, tierFallback)))
      (updRx src (fun c => { c with got := c.got + 1, tries := 0, xfer := c.xfer + 1, buf := [], lost := [] }) s)
  else updRx src (fun c => { c with got := c.got + 1, tries := 0, buf := c.buf ++ raw, lost := runs }) s

/-- R501: an error of class CT or above in a port whose RETRAIN is in progress aborts it. -/
def abortRetrain (p : Nat) (s : State) : State := if s.jobActive 9 p then count (errCnt 5) (failPort 0x0A01 p s) else s

/-- R286: a block still damaged after two resends is lost: a data block leaves zeros, a TABLE block an empty slot. `h` is the
header of the source's copy. -/
def blockLost (src inst : Nat) (h : BlockHead) (s : State) : State :=
  let s := abortRetrain inst (record .ct 0x0402 { detail := detChannel src s.spar.member inst inst } (count (cdcCnt inst 6) s))
  if h.typ = 3 then
    sendTo src (.slotEmptied (h.table % 4)) (updRx src (fun c => { c with
      got := c.got + 1, tries := 0, slots := mdel c.slots (h.table % 4), order := c.order.filter (· ≠ h.table % 4) }) s)
  else takeRaw src (List.replicate (16 * (h.units + 1)) 0) h.last true s

/-- CODEC_BLOCK_RECEIVED (R267, R286): a block that arrives on a port is expanded by that port's instance, installs its table, or is
asked for again. `block.copy` is the header of the source's copy. -/
def execCodecBlockReceived (came : BlockFrom) (block : CodecBlock) (s : State) : Host.Outcome State Fault Refusal :=
  .next (
    if !decide (came.src ∈ s.groupList) || decide (came.src = s.spar.member) || (decide (s.spar.st ≠ 1) && decide (s.spar.st ≠ 2)) ||
      decide (s.part.variant.ports ≤ came.port) then s
    else
      let c := chanOf s.codec.rx came.src
      let h := blockHead block.bytes
      match expandBlock (fun i => mget c.slots i) true block.bytes with
      | none =>
        if c.tries < 2 then sendTo came.src (.resend c.got) (updRx came.src (fun c => { c with tries := c.tries + 1 }) s)
        else blockLost came.src came.port (blockHead (toLE 4 block.copy.toNat)) s
      | some raw =>
        if h.typ = 3 then
          count (cdcCnt came.port 3) (updRx came.src (fun c => { c.install h.table (tableOf (slice block.bytes 4 128)) with got := c.got + 1, tries := 0 }) s)
        else takeRaw came.src raw h.last false s)

/-- R354: every plan with `group` set halts. -/
def haltGroup (s : State) : State := forEach (s.plans.filter (fun p => p.2.plan.group)) (fun p s => haltPlan p.1 s) s

/-- CTRL_FLIT (R286, R339, R342, R347, R354). -/
def execCtrlFlit (port : Nat) (f : Flit) (msg : CtrlMsg) (s : State) : Host.Outcome State Fault Refusal :=
  .next (takeFlit port 7 f (fun s =>
    if f.dst.toNat ≠ s.spar.member then passOn f (.data (slice f.payload 0 f.len)) s
    else
      let m := f.src.toNat
      match msg with
      | .resendBlock n => match (chanOf s.codec.tx m).sent[n]? with
        | some b => sendMsg m (Config.wireMessage msgBlock n b) (count (cdcCnt (s.linkInst m) 5) s)
        | none => s
      | .slotEmptied i =>
        let c := chanOf s.codec.tx m
        { s with codec := { s.codec with tx := mset s.codec.tx m { c with slots := mdel c.slots i, order := c.order.filter (· ≠ i) } } }
      | .halt => haltGroup s
      | .mismatch h => noteMismatch h s
      | .lend id pages => addLend id m pages s
      | .other => s) s)

/-! ## Group counters, time and status (R348-R352) -/

/-- The counter of a running plan that a device index names: plan handle and declaration (R348). -/
def State.groupCtr (s : State) (index : Nat) : Option (Nat × CtrDecl) :=
  s.plans.findSome? (fun p => if p.2.active then
      (p.2.plan.counters.find? (fun c => c.group && decide (mget p.2.gidx c.number = some index))).map (fun c => (p.1, c))
    else none)

/-- The step number a replica is at: that of the step in progress, else of the last one begun (R349). -/
def State.replicaStep (s : State) (h sc : Nat) : Option Nat :=
  (s.plan h).bind (fun p => match mget p.steps sc with
    | some x => some x.k
    | none => match mgetD p.nextK sc 0 with
      | 0 => none
      | n + 1 => some n)

/-- R349: a SYNC operation reaches the local replica. -/
def takeSync (op : SyncOp) (s : State) : State :=
  match s.groupCtr op.index with
  | none => s
  | some (h, c) =>
    let hold (s : State) : State := { s with spar := { s.spar with heldSync := s.spar.heldSync ++ [op] } }
    if c.planKind then applySync h c.number op s
    else match s.replicaStep h c.sched with
      | none => hold s
      | some k =>
        let ahead := (op.step.toNat + 65536 - k % 65536) % 65536
        if ahead = 0 then applySync h c.number op s
        else if ahead < 32768 then hold s
        else count 0x60040 s

/-- SYNC_FLIT (R349). -/
def execSyncFlit (port : Nat) (f : Flit) (op : SyncOp) (s : State) : Host.Outcome State Fault Refusal :=
  .next (takeFlit port 4 f (fun s => if f.dst.toNat ≠ s.spar.member then passOn f (.sync op) s else takeSync op s) s)

/-- R351: a TIME flit goes on along the ports that lead away from the manager. -/
def passTime (port now : Nat) (s : State) : State :=
  let d (m : Nat) : Nat := s.hopsTo s.spar.manager m
  forEach (s.upPorts.filter (fun p => decide (p ≠ port) && decide (d s.spar.member < d (s.port p).peer)))
    (fun p s => portSend p { typ := 5, dst := (s.port p).peer, src := s.spar.manager, chanSeq := 0, eom := false, msg := .time now } s) s

/-- TIME_FLIT (R351, R406): a worker follows the manager's time, which is a time of day from then on. -/
def execTimeFlit (port : Nat) (f : Flit) (managerNow delayNs : Nat) (s : State) : Host.Outcome State Fault Refusal :=
  .next (takeFlit port 5 f (fun s =>
    if s.spar.st ≠ 2 then s
    else
      let s := correctTo (managerNow + delayNs) s
      let s := timeSetReady { s with tbu := { s.tbu with locked := true, source := 2, holdover := false } }
      let s := passTime port (managerNow + delayNs) { s with spar := { s.spar with lastTime := s.tbu.now } }
      if s.spar.joinAck then sendTo s.spar.manager (.joinAnswer .joined) { s with spar := { s.spar with joinAck := false } } else s) s)

/-- TIME_FLIT_SEND (R351). -/
def execTimeFlitSend (s : State) : Host.Outcome State Fault Refusal :=
  .next (if s.spar.st = 1 then forEach s.upPorts (fun p s => portSend p (s.flitOf (s.port p).peer (.time s.tbu.now)) s) s else s)

/-- The committed epochs of slots 0-15 (R392). -/
def State.epochList (s : State) : List Nat := (List.range 16).map (fun i => (s.slot i).epoch)

/-- STATUS_FLIT (R352). -/
def execStatusFlit (port : Nat) (f : Flit) (epochs : List Nat) (t : Nat) (s : State) : Host.Outcome State Fault Refusal :=
  .next (takeFlit port 6 f (fun s =>
    let s := reachTime t s
    if f.dst.toNat ≠ s.spar.member then passOn f (.status epochs) s
    else if s.spar.st ≠ 1 then s
    else
      let ms := mupd s.spar.members f.src.toNat (fun m => { m with epochs := epochs, lastStatus := s.tbu.now })
      { s with spar := { s.spar with members := ms } }) s)

/-- STATUS_FLIT_SEND (R352). -/
def execStatusFlitSend (s : State) : Host.Outcome State Fault Refusal :=
  .next (if s.spar.st = 2 then sendTo s.spar.manager (.status s.epochList) s else s)

/-! ## Joining and leaving (R334-R338) -/

/-- R335, R490: what a join or a dissolve does to a member. -/
def leaveGroup (s : State) : State :=
  let s := forEach (s.plans.map (·.1)) (fun h s => freePlan h (haltPlan h s)) s
  let s := forEach s.tiers.lends (fun l s =>
    if l.lender ≠ s.spar.member then abandonLend l.id s else if l.reclaiming then endReclaim l s else giveBack l s) s
  { s with
    codec := { s.codec with rx := [], tx := [] }
    err := { s.err with fatalGroup := false }
    spar := { s.spar with
      st := 0, member := 0, manager := 0, size := 0, torus := false, rows := 0, cols := 0, routeLong := false, members := [],
      routes := [], chanRx := [], chanTx := [], early := [], partMsg := [], waiting := [], heldSync := [], joinAck := false, suspended := none, gused := [],
      contrib := [] }
    tbu := if s.tbu.source = 2 then { s.tbu with locked := false, source := 0, takePhase := true } else s.tbu }

/-- R337, R358: the device takes its place in a group. `ms` are the members with their serials. -/
def enterGroup (manager : Bool) (own mgr : Nat) (torus : Bool) (rows cols size : Nat) (ms : List (Nat × Dword)) (s : State) : State :=
  let s := leaveGroup s
  { s with spar := { s.spar with
      st := if manager then 1 else 2
      member := own, manager := mgr, size := size, torus := torus
      rows := if torus then rows else 0
      cols := if torus then cols else 0
      members := ms.foldl (fun m x => mset m x.1 { serial := x.2, st := 1, epochs := [], lastStatus := s.tbu.now }) []
      lastTime := s.tbu.now, joinAck := !manager } }

/-- The members that a worker knows of: all of a TORUS, or those at the ends of its ports in a MESH (R337, R338). -/
def State.knownMembers (s : State) (own mgr : Nat) (torus : Bool) (rows cols : Nat) : List (Nat × Dword) :=
  let l := if torus then List.range (rows * cols) else addOnce (s.upPorts.foldl (fun l p => addOnce l (s.port p).peer) [mgr]) own
  l.map (fun m => (m, if m = own then s.part.serial else 0))

/-- Has the Spar block accepted a low-power entry (R478)? -/
def State.sparEntering (s : State) : Bool := match s.pwr.entry with | some e => decide (8 < e.block) | none => false

/-- A message of a formation: no routes exist yet, and it goes out on every UP port (log 45). -/
def flood (src dst : Nat) (x : SparMsg) (s : State) : State :=
  forEach s.upPorts (fun p s => portSend p { typ := 7, dst := dst, src := src, chanSeq := 0, eom := false, msg := x } s) s

/-- JOIN_REQUEST (R334, R478): the first phase changes nothing but the training of ports. -/
def execJoinRequest (manager member : Nat) (serial : Dword) (s : State) : Host.Outcome State Fault Refusal :=
  .next (
    if decide (serial ≠ s.part.serial) || decide (s.part.variant.ports = 0) || !s.ready.spar || s.sparEntering || s.pwr.waking || decide (s.pwr.state ≠ .run) then s
    else
      let rep : JoinRep :=
        if s.spar.st = 1 ∨ s.spar.st = 2 then .otherManager
        else if s.models.stage.isSome then .stageOpen
        else .ready (decide (s.part.variant = .s)) (decide (s.part.variant = .m)) true
      flood member manager (.joinAnswer rep) (if s.spar.st = 1 ∨ s.spar.st = 2 then s else trainPorts true s))

/-- JOIN_CONFIRM (R334, R335). -/
def execJoinConfirm (manager member size : Nat) (torus : Bool) (rows cols : Nat) (s : State) : Host.Outcome State Fault Refusal :=
  .next (
    if decide (s.spar.st = 1) || decide (s.spar.st = 2) || decide (s.part.variant.ports = 0) then s
    else enterGroup false member manager torus rows cols size (s.knownMembers member manager torus rows cols) s)

/-- The member entries of a `GROUP_FORM` payload: member number and serial (R391). -/
def formMembers (b : Bytes) : List (Nat × Dword) :=
  (List.range (b.length / 16)).map (fun i => (u b (16 * i + 8) 1, BitVec.ofNat 64 (u b (16 * i) 8)))

/-- R337: may a group have this topology, size and numbers? -/
def topologyOk (v : Variant) (torus : Bool) (rows cols : Nat) (ms : List (Nat × Dword)) : Bool :=
  let nums := ms.map (·.1)
  decide nums.Nodup && decide (ms.map (·.2)).Nodup && nums.all (fun n => decide (n < 64)) &&
  (if torus then
     decide (v = .x) && decide (4 ≤ rows) && decide (4 ≤ cols) && decide (ms.length = rows * cols) && nums.all (fun n => decide (n < rows * cols))
   else decide (rows = 1) && decide (cols = 1) && decide (2 ≤ ms.length) && decide (ms.length ≤ if v = .x then 9 else 5))

/-- The body of `GROUP_FORM` FORM. The member table holds this device itself. DEDUCED (log 46). -/
def groupForm (pay : BusRead) (c : Cmd) (s : State) : Reply :=
  let b := (s.payload c pay).getD []
  let ms := formMembers b
  let torus := bit (c.arg 0) 2
  let rows := c.fld 0 5 3 + 1
  let cols := c.fld 0 8 6 + 1
  let bad := c.argReserved 0xFFFF 0 0 0 0 || (s.payload c pay).isNone || decide (b.length ≠ 16 * c.fld 0 15 9) ||
    decide (c.sub.payLen ≠ b.length) || (List.range ms.length).any (fun i => decide (leNat (slice b (16 * i + 9) 7) ≠ 0)) ||
    !topologyOk s.part.variant torus rows cols ms || !ms.any (fun m => decide (m.2 = s.part.serial))
  checked c (s.absentUnit c)
    [(bad, .badField),
     ((s.spar.roleWorker && !bit (c.arg 0) 1) || decide (s.spar.st = 1) || decide (s.spar.st = 2) || !s.ready.spar || s.spar.forming.isSome, .wrongState),
     (s.models.stage.isSome, .busyMaint)] s
    (match ms.find? (fun m => decide (m.2 = s.part.serial)) with
     | none => .done .badField 0 s
     | some me =>
       let k : Forming := { cmd := c.id, torus := torus, rows := rows, cols := cols, members := ms, ready := [me.1], joined := [me.1] }
       let s := trainPorts true { s with spar := { s.spar with forming := some k } }
       .running (forEach (ms.filter (fun m => decide (m.2 ≠ s.part.serial))) (fun m s => flood me.1 m.1 (.joinRequest m.2 m.1) s) s))

/-- GROUP_FORM. -/
def execGroupForm (r : CmdRef) (pay : BusRead) (s : State) : Host.Outcome State Fault Refusal :=
  .next (match s.startable r 0x0700 with
    | some c => if bit (c.arg 0) 0 then s else iarik 0x0700 r pay (groupForm pay) s
    | none => s)

/-- R334: a formation is given up because of a member, which the result names. -/
def refuseForm (k : Forming) (m : Nat) (st : Status) (s : State) : State :=
  finish k.cmd st (m + 2 ^ 63) { s with spar := { s.spar with forming := none } }

/-- R338: the neighbour that a port of a TORUS member leads to. -/
def torusPeer (own rows cols p : Nat) : Nat :=
  let x := own % cols
  let y := own / cols
  match p / 2 with
  | 0 => (x + 1) % cols + y * cols
  | 1 => (x + cols - 1) % cols + y * cols
  | 2 => x + (y + 1) % rows * cols
  | _ => x + (y + rows - 1) % rows * cols

/-- R338: a member that this device's own ports break the cabling with: one that an UP port should not lead to, or, in a MESH, one that
none leads to. The numbers are those that the ports' training has given (log 46). -/
def State.miscabled (s : State) (k : Forming) (own : Nat) : Option Nat :=
  let nums := k.members.map (·.1)
  match s.upPorts.find? (fun p => !decide ((s.port p).peer ∈ nums) || decide ((s.port p).peer = own) ||
      (k.torus && decide ((s.port p).peer ≠ torusPeer own k.rows k.cols p))) with
  | some p => some (s.port p).peer
  | none => nums.find? (fun m => !k.torus && decide (m ≠ own) && !s.upPorts.any (fun p => decide ((s.port p).peer = m)))

/-- R334: the second phase: the join is confirmed on every member, and this device manages the group. -/
def confirmForm (k : Forming) (s : State) : State :=
  let own := (k.joined.headD 0)
  let n := k.members.length
  let s := forEach (k.members.filter (fun m => decide (m.1 ≠ own)))
    (fun m s => flood own m.1 (.joinConfirm m.1 n k.torus k.rows k.cols) s) s
  let s := enterGroup true own own k.torus k.rows k.cols n (k.members.map (fun m => (m.1, m.2))) s
  { s with spar := { s.spar with forming := some k } }

/-- R334: once every member has joined and follows the manager's time, `GROUP_FORM` ends. -/
def settleForm (k : Forming) (s : State) : State :=
  if k.members.all (fun m => decide (m.1 ∈ k.joined)) then
    finish k.cmd .ok (k.members.foldl (fun n m => n + 2 ^ m.1) 0) { s with spar := { s.spar with forming := none } }
  else { s with spar := { s.spar with forming := some k } }

/-- JOIN_REPLY (R334). -/
def execJoinReply (member : Nat) (rep : JoinRep) (s : State) : Host.Outcome State Fault Refusal :=
  .next (match s.spar.forming with
    | none => s
    | some k =>
      if !k.members.any (fun m => decide (m.1 = member)) then s
      else match rep with
        | .joined => if s.spar.st = 1 then settleForm { k with joined := addOnce k.joined member } s else s
        | _ =>
          if s.spar.st = 1 then s
          else match rep with
            | .ready isS isM cabling =>
              if isS then refuseForm k member .unsupported s
              -- R337: a member that is EL4-M
              else if isM && (k.torus || decide (5 < k.members.length)) then refuseForm k member .badField s
              else if !cabling then refuseForm k member .noResource s
              else
                let k := { k with ready := addOnce k.ready member }
                if k.members.all (fun m => decide (m.1 ∈ k.ready)) then
                  match s.miscabled k (k.joined.headD 0) with
                  | some m => refuseForm k m .noResource s
                  | none => confirmForm k s
                else { s with spar := { s.spar with forming := some k } }
            | .otherManager => refuseForm k member .wrongState s
            | .stageOpen => refuseForm k member .busyMaint s
            | .entering => refuseForm k member .noResource s
            | .joined => s)

/-- MEMBER_REACH_TIMEOUT (R334): a named member is not reached within 100 ms. -/
def execMemberReachTimeout (member : Nat) (s : State) : Host.Outcome State Fault Refusal :=
  .next (match s.spar.forming with
    | none => s
    | some k =>
      if decide (s.spar.st ≠ 1) && k.members.any (fun m => decide (m.1 = member)) && !decide (member ∈ k.ready) then refuseForm k member .noResource s
      else s)

/-- The body of `GROUP_FORM` DISSOLVE: every other member leaves first, then the manager (R334, R335). -/
def groupDissolve (c : Cmd) (s : State) : Reply :=
  checked c (s.absentUnit c)
    [(c.argReserved 1 0 0 0 0 || decide (c.sub.payLen ≠ 0), .badField),
     (decide (s.spar.st ≠ 1) && decide (s.spar.st ≠ 2), .wrongState),
     (s.plans.any (fun p => p.2.active && p.2.plan.group), .wrongState)] s
    (if s.wideMembers c = [] then .done .ok 0 (leaveGroup s) else .running (sendMembers c (s.wideMembers c) false 0 0 [] s))

/-- GROUP_FORM_DISSOLVE. -/
def execGroupFormDissolve (r : CmdRef) (s : State) : Host.Outcome State Fault Refusal :=
  .next (iarikIf 0x0700 r (fun c => bit (c.arg 0) 0) groupDissolve s)

/-! ## GROUP_STATUS (R358, R392) -/

/-- `SPR_GROUP_STATUS` (R358). -/
def State.groupStatusReg (s : State) : Nat :=
  s.spar.st + s.spar.member * 2 ^ 2 + s.spar.manager * 2 ^ 8 + s.spar.size * 2 ^ 14 + flag s.spar.torus 21 +
  (s.spar.rows - 1) * 2 ^ 22 + (s.spar.cols - 1) * 2 ^ 25 + flag s.spar.routeLong 28 + flag s.spar.memberLost 29

/-- The ports UP towards a member, as a count (R392). -/
def State.portsUpTo (s : State) (m : Nat) : Nat := (s.upPorts.filter (fun p => decide ((s.port p).peer = m))).length

/-- A member record (R392). -/
def State.memberRec (s : State) (d : Nat) : Bytes :=
  let own := decide (d = s.spar.member)
  match mget s.spar.members d with
  | none => toLE 64 0
  | some m =>
    let st := if own && decide (s.spar.st = 3) then 3 else m.st
    let ep := if own then s.epochList else m.epochs
    toLE 8 m.serial.toNat ++ toLE 1 st ++ toLE 1 (s.portsUpTo d) ++ toLE 6 0 ++
    (List.range 16).flatMap (fun i => toLE 2 (ep.getD i 0)) ++ toLE 16 0

/-- The body of `GROUP_STATUS`: it writes what fits. -/
def groupStatus (c : Cmd) (s : State) : Reply :=
  let n := if s.spar.members = [] then 0 else 64
  let out := toLE 4 s.groupStatusReg ++ toLE 4 n ++ toLE 8 0 ++ (List.range n).flatMap s.memberRec
  checked c false [(c.argReserved 0 0 0 0 0, .badField)] s (.done .ok s.spar.size (putPay c (out.take c.sub.payLen) s))

/-- GROUP_STATUS. -/
def execGroupStatus (r : CmdRef) (s : State) : Host.Outcome State Fault Refusal := .next (iarik 0x0702 r none groupStatus s)

/-! ## Loss (R302, R352-R355) -/

/-- R352, R452: is a member that was heard last at a moment lost now? After an activation it is looked for once it has been
heard again. -/
def State.lossDue (s : State) (last : Nat) : Bool :=
  decide (last + 1000000 ≤ s.tbu.now) && !s.activating && (match s.spar.suspended with | some t => decide (t < last) | none => true)

/-- R353, R355: the worker is ORPHANED. -/
def orphan (s : State) : State :=
  let s := haltAll s
  let s := if s.models.commit.isNone then abortLocal s else s
  let s := { s with
    plans := mmap (fun _ p => { p with gidx := [] }) s.plans
    tbu := { s.tbu with locked := false, source := 0, holdover := true, holdoverSeen := true }
    err := { s.err with fatalGroup := true }
    sec := { s.sec with actTime := none, actDeferred := false }
    spar := { s.spar with
      st := 3, memberLost := true, gused := [], heldSync := [], joinAck := false
      members := mupd s.spar.members s.spar.manager (fun m => { m with st := 2 }) } }
  record .ft 0x0602 { detail := detail32 (toLE 1 s.spar.manager), scope := 5 } s

/-- MANAGER_LOST (R352, R353). -/
def execManagerLost (t : Nat) (s : State) : Host.Outcome State Fault Refusal :=
  .next (
    let s := reachTime t s
    if decide (s.spar.st = 2) && s.lossDue s.spar.lastTime then orphan s else s)

/-- R322, R355: a commit goes on without a lost member once it is past the decision; before it, every member aborts. -/
def commitLoses (m : Nat) (s : State) : State :=
  match s.models.commit, s.models.stage with
  | some c, some g =>
    if !decide (m ∈ g.memberList) then s
    else if c.decided then
      settleCommit { s with models := { s.models with commit := some { c with acked := c.acked.filter (· ≠ m), durable := c.durable.filter (· ≠ m), lostMember := true } } }
    else abortAll s
  | none, some g => if decide (m ∈ g.memberList) then abortAll s else s
  | _, _ => s

/-- R354, R377: the manager takes a worker as lost. -/
def loseMember (m : Nat) (s : State) : State :=
  let s := { s with spar := { s.spar with memberLost := true, members := mupd s.spar.members m (fun x => { x with st := 2 }) } }
  let s := haltGroup (toOthers .halt s)
  let s := record .dg 0x0601 { detail := detail32 (toLE 1 m) } s
  let s := forEach (s.mbx.cmds.filter (fun c => decide (c.fwdTo = some m))) (fun c s => finish c.id .deviceFault 0 s) s
  let s := forEach (s.spar.waits.filter (fun w => decide (m ∈ w.2))) (fun w s => waitDone w.1 m Status.deviceFault.code s) s
  let s := match s.spar.forming with
    | some k => finish k.cmd .deviceFault (m + 2 ^ 63) { s with spar := { s.spar with forming := none } }
    | none => s
  commitLoses m s

/-- MEMBER_LOST (R352, R354). -/
def execMemberLost (member : Nat) (t : Nat) (s : State) : Host.Outcome State Fault Refusal :=
  .next (
    let s := reachTime t s
    match mget s.spar.members member with
    | some m =>
      if decide (s.spar.st = 1) && decide (member ≠ s.spar.member) && decide (m.st = 1) && s.lossDue m.lastStatus then loseMember member s else s
    | none => s)

end Sys2Proof.Machine
end

