-- ==== Sys2Proof/Machine/Maint.lean ====
section
/-! DEFINITION. Sys2Proof/Machine/Maint.lean: the maintenance arbiter, follow-ups of errors, and self-test
(R388-R390, R500-R512). -/

namespace Sys2Proof.Machine

/-! ## Jobs (R503-R506) -/

/-- Stacks that a stack field names: 0 West, 1 East, 2 both. -/
def stacksOf (n : Nat) : List Nat := if n = 2 then [0, 1] else [n]

/-- The scopes in which `MAINT_START` asks for an activity: stacks or a port (R503). -/
def Cmd.maintScopes (c : Cmd) : List Nat := if c.fld 0 3 0 = 9 then [c.fld 0 10 8] else stacksOf (c.fld 0 5 4)

/-- R389: are the fields of a `MAINT_START` legal? -/
def State.maintFields (s : State) (c : Cmd) : Bool :=
  let act := c.fld 0 3 0
  let reinit := bit (c.arg 0) 12
  decide (act ∈ [0, 2, 3, 7, 9]) && !c.argReserved 0x173F low32 0 0 0 && decide (c.sub.payLen = 0) && decide (c.fld 0 5 4 ≠ 3) &&
  (decide (act ≠ 9) || decide (c.fld 0 5 4 = 0)) && (decide (act = 9) || decide (c.fld 0 10 8 = 0)) && (decide (act = 7) || !reinit) &&
  decide (c.arg 1 = if reinit then s.part.serial.toNat % 2 ^ 32 else 0)

/-- R168: is there a block of a stack that GC may erase? -/
def State.gcWork (s : State) (i : Nat) : Bool :=
  s.slate.lines.any (fun l =>
    let pbk := l.1 / 256
    let sb := pbk / 64
    inStack i sb && s.gcMay (sb / 9 / 1024) sb (pbk % 64))

/-- An activity that `MAINT_START` asks for is queued or started in one scope. -/
def startActivity (act scope : Nat) (reinit : Bool) (c : Cmd) (s : State) : State :=
  let add (running : Bool) (s : State) : State := addJob act scope running c.sub.seq (some c.id) s
  match act with
  | 2 => add s.models.stage.isNone s
  | 3 => if s.gcWork scope then add true s else endJob 3 scope 2 (add true s)
  | 7 => askCkpt scope true false reinit none (add s.maint.bistRound.isEmpty s)
  | 9 =>
    if s.maint.analog.any (fun r => decide (scope ∈ portsIn r.ports.toNat)) then add false s
    else if (s.port scope).st = portUp then takeDown scope (add true s)
    else count (sprCnt scope 5) (updPort scope (fun x => { x with st := portTraining, failRow := 0 }) (add true s))
  | _ => add true s

/-- The body of `MAINT_START`. -/
def maintStart (c : Cmd) (s : State) : Reply :=
  let act := c.fld 0 3 0
  let sc := c.maintScopes
  let reinit := bit (c.arg 0) 12
  let stackBad := decide (act ≠ 9) && sc.any (fun i =>
    if reinit then (s.stack i).mounted && !(s.stack i).readOnly else !(s.stack i).mounted)
  refused (checked c (s.absentUnit c)
    [(!s.maintFields c, .badField),
     (stackBad || (decide (act = 9) && decide ((s.port (c.fld 0 10 8)).st = portFailed)), .wrongState),
     (sc.any (s.jobActive act), .busyMaint),
     (decide (64 < s.activeJobs + sc.length), .noResource)] s
    (.done .ok (s.maint.nextJob % 0xFFFF) (forEach sc (fun i s => startActivity act i reinit c s) s)))

/-- MAINT_START. -/
def execMaintStart (r : CmdRef) (s : State) : Host.Outcome State Fault Refusal := .next (iarik 0x0600 r none maintStart s)

/-- A job's record (R390). -/
def Job.bytes (j : Job) : Bytes :=
  toLE 2 j.id ++ toLE 1 j.activity ++ toLE 1 j.st ++ toLE 1 j.progress ++ toLE 1 j.scope ++ toLE 2 0 ++ toLE 4 j.seq.toNat ++ toLE 4 0 ++
  toLE 8 j.start ++ toLE 8 j.finish

/-- The body of `MAINT_STATUS`: it writes what fits. -/
def maintStatus (c : Cmd) (s : State) : Reply :=
  let n := c.fld 0 15 0
  let l := (s.maint.jobs.take 64).filter (fun j => decide (n = 0xFFFF) || decide (j.id = n))
  checked c false [(c.argReserved 0xFFFF 0 0 0 0, .badField)] s
    (.done .ok l.length (putPay c ((l.flatMap Job.bytes).take (c.sub.payLen / 32 * 32)) s))

/-- MAINT_STATUS. -/
def execMaintStatus (r : CmdRef) (s : State) : Host.Outcome State Fault Refusal := .next (iarik 0x0601 r none maintStatus s)

/-- A change of the job with a number. -/
def updJob (id : Nat) (f : Job → Job) (s : State) : State :=
  { s with maint := { s.maint with jobs := s.maint.jobs.map (fun j => if j.id = id then f j else j) } }

/-- A queued job runs. -/
def runJob (id : Nat) (s : State) : State :=
  updJob id (fun j => if j.st = 0 then { j with st := 1, start := s.tbu.now } else j) s

/-- R451, R485, R505, R506: may a BIST round start? `power` is the average in 1/16 W. -/
def State.bistMay (s : State) (power : Nat) : Bool :=
  s.maint.bistRound.isEmpty && !s.pwr.bistHeld && s.slate.stackW.ckpt.isNone && s.slate.stackE.ckpt.isNone &&
  decide (power + 16 * 40 ≤ 16 * s.pwr.capW) && decide (s.pwr.state = .run) && !s.activating

/-- The job of a command. -/
def State.jobOf (s : State) (cmd : Nat) : Option Job := s.maint.jobs.find? (fun j => decide (j.cmd = some cmd) && decide (j.st < 2))

/-- R509: the oldest self-test starts its next round of at most 8 arrays, if it may. -/
def startRound (power : Nat) (s : State) : State :=
  if !s.bistMay power then s
  else match s.maint.bist with
    | r :: l =>
      let s := { s with maint := { s.maint with bist := { r with left := r.left.drop 8 } :: l, bistRound := r.left.take 8 } }
      match s.jobOf r.cmd with | some j => runJob j.id s | none => s
    | [] => s

/-- MAINT_JOB_START (R505, R506): a queued job is tested, with the package power averaged over 1 ms in 1/16 W. -/
def execMaintJobStart (job : Nat) (power : Nat) (s : State) : Host.Outcome State Fault Refusal :=
  .next (match s.maint.jobs.find? (fun j => decide (j.id = job) && decide (j.st < 2)) with
    | none => s
    | some j =>
      if j.activity = 6 then (if (match s.maint.bist with | r :: _ => decide (j.cmd = some r.cmd) | [] => false) then startRound power s else s)
      else if j.st ≠ 0 then s
      else match j.activity with
        | 2 => if s.models.stage.isNone then runJob job s else s
        | 4 => if power + 16 * 24 ≤ 16 * s.pwr.capW then runJob job s else s
        | 7 => if s.maint.bistRound.isEmpty then runJob job s else s
        | _ => runJob job s)

/-! ## Array BIST (R508-R510) -/

/-- R138, R139, R508: the outcome of one array of a round: failing cells are excluded at the step barrier, which has come, each with its
record, and one more names the array (log 73); passing ones are cleared in DIAGNOSTIC and RETURNED. -/
def bistArray (cells logic : List Nat) (a : Nat) (s : State) : State :=
  let whole := decide (a ∈ logic)
  let fails := if whole then List.range 1024 else (List.range 1024).filter (fun c => decide (a * 1024 + c ∈ cells))
  let s := applyExcl a (forEach fails (excludeCell a) s)
  let s := if fails = [] then s else record .dg 0x0901 { detail := detCell a (if whole then 0xFFFF else fails.headD 0) 0xFFFF } s
  if s.sec.lifecycle = 4 ∨ s.sec.lifecycle = 5 then
    let s := { s with exclStored := s.exclStored.filter (fun x => decide (x / 1024 ≠ a) || decide (x % 1024 ∈ fails)) }
    updArr a (fun r => { r with excl := r.excl.filter (fun c => decide (c ∈ fails)) }) s
  else s

/-- BIST_ROUND_COMPLETE (R508-R510). A move of the P-state that waited for the round begins (R505). -/
def execBistRoundComplete (cells : List Nat) (logic : List Nat) (s : State) : Host.Outcome State Fault Refusal :=
  .next (match s.maint.bist with
    | [] => s
    | r :: l =>
      let round := s.maint.bistRound
      if round = [] then s
      else
        let nl := (round.filter (fun a => decide (a ∈ logic))).length
        let nc := (round.map (fun a => if a ∈ logic then 1024 else
          ((List.range 1024).filter (fun c => decide (a * 1024 + c ∈ cells))).length)).sum
        let s := forEach round (bistArray cells logic) s
        let r := { r with cells := r.cells + nc, logic := r.logic + nl }
        let power := s.pwr.power.toNat
        if r.left = [] then
          let s := { s with maint := { s.maint with bist := l, bistRound := [] } }
          let s := endJobs (fun j => decide (j.cmd = some r.cmd) && decide (j.activity = 6)) 2 s
          startRound power (retarget (finish r.cmd .ok (r.cells % 65536 + r.logic * 65536) s))
        else
          let s := { s with maint := { s.maint with bist := r :: l, bistRound := [] } }
          let s := match s.jobOf r.cmd with
            | some j => updJob j.id (fun j => { j with progress := 100 * (r.total - r.left.length) / r.total }) s
            | none => s
          startRound power (retarget s))

/-! ## SELFTEST (R393, R510-R512) -/

/-- R511: the lifecycle states that permit functions 0x00 and 0x01, and 0x03. -/
def testPermitted (f lc : Nat) : Bool :=
  match f with
  | 0 | 1 => decide (lc ∈ [1, 4, 5])
  | 3 => decide (lc ∈ [1, 5])
  | _ => true

/-- Is a line misdirected for a physical block: its metadata has a wrong kind, or the block is mapped for another logical block
(R148)? -/
def State.physMisdirected (s : State) (sb pb : Nat) (l : SLine) : Bool :=
  let m := l.meta (sb % 9)
  misdirected m (sb % 9) (match (s.sb sb).map.find? (fun p => decide (p.2 = pb)) with | some p => p.1 | none => bits m 5 0)

/-- The reading of a programmed line by `SELFTEST` 0x02: its code word, and the outcome of decoding it with the bits corrected. Which
errors the read meets is a free value; the bytes are exact when it meets none (log 47). -/
def readPhysical (wrong : Bool) (l : SLine) (s : State) : Bytes × Nat × Nat × State :=
  let full := l.bytes ++ slice (Config.bchCheck l.bytes) 0 10
  let d := drawWord s
  let v := d.1.toNat
  let bad := decide (v % 4 = 3)
  let errs := if wrong then v / 4 % 9 else if v % 4 = 1 then 1 + v / 4 % 8 else 0
  let outcome := if bad then 3 else if wrong then 2 else if errs = 0 then 0 else 1
  let fixed := if bad then 0 else errs
  if !bad && decide (errs = 0) then (full, outcome, fixed, d.2)
  else
    let b := drawBytes full.length d.2
    (b.1, outcome, fixed, b.2)

/-- R148: a physical read whose line was corrected is counted, and its block, where one is mapped to it, queued. -/
def physCorrected (a c k pb fixed : Nat) (s : State) : State :=
  let s := count (sltCnt a 0) s
  match (s.sb (sbKey a c k)).map.find? (fun p => decide (p.2 = pb)) with
  | some p => if decide (s.slate.relocBits.toNat ≤ fixed) && s.mountedAt a then queueReloc 3 .scrub a (some c) k p.1 none s else s
  | none => s

/-- The body of `SELFTEST` 0x02 (R148, R167, R393). -/
def physicalRead (c : Cmd) (s : State) : Reply :=
  let a := c.fld 1 5 0
  let cell := c.fld 1 15 6
  let k := c.fld 1 19 16
  let pb := c.fld 1 25 20
  let n := if k = 8 then 86 else 82
  let sb := sbKey a cell k
  checked c false
    [(c.argReserved 0xFF (2 ^ 34 - 1) 0 0 0 || decide (8 < k) || decide (physBlocks s.part.variant ≤ pb) || decide (c.sub.payLen < n), .badField)] s
    (if (s.pb (pbKey sb pb)).erasing then .done .erasePending 0 s
     else match mget s.slate.lines (lnKey sb pb (c.fld 1 33 26)) with
       | none => .done .ok 1 s
       | some l =>
         let r := readPhysical (s.physMisdirected sb pb l) l s
         let s := if r.2.1 = 1 then physCorrected a cell k pb r.2.2.1 r.2.2.2 else r.2.2.2
         .done .ok ((r.2.1 + r.2.2.1 * 8) * 2 + n * 256) (putPay c (r.1.take n) s))

/-- The body of `SELFTEST` 0x00. -/
def arrayBist (c : Cmd) (s : State) : Reply :=
  let l := (List.range 64).filter (fun a => bit (c.arg 1) a)
  refused (checked c false
    [(c.argReserved 0xFF all64 0 0 0 || decide (c.sub.payLen ≠ 0) || decide (l = []), .badField),
     (!testPermitted 0 s.sec.lifecycle || l.any (fun a => s.plans.any (fun p => p.2.active && p.2.plan.uses a)), .wrongState),
     (decide (64 ≤ s.activeJobs), .noResource)] s
    (let s := addJob 6 0 false c.sub.seq (some c.id) s
     let run : BistRun := { cmd := c.id, left := l, total := l.length, cells := 0, logic := 0 }
     let s := { s with maint := { s.maint with bist := s.maint.bist ++ [run] } }
     .running (if s.maint.bist.length = 1 then startRound s.pwr.power.toNat s else s)))

/-- The body of `SELFTEST` 0x01: a loop-back takes its port down (R511). -/
def analogueChecks (c : Cmd) (s : State) : Reply :=
  let ports := portsIn (c.fld 1 15 8)
  checked c (s.absentUnit c)
    [(c.argReserved 0xFF 0xFF1F 0 0 0 || decide (c.sub.payLen ≠ 0) || (!bit (c.arg 1) 0 && decide (ports ≠ [])), .badField),
     (!testPermitted 1 s.sec.lifecycle || ((decide (s.spar.st = 1) || decide (s.spar.st = 2)) && ports.any (fun p => decide ((s.port p).st = portUp))),
       .wrongState)] s
    (let run : AnalogRun := { cmd := c.id, checks := BitVec.ofNat 5 (c.arg 1), ports := BitVec.ofNat 8 (c.fld 1 15 8) }
     let s := forEach (ports.filter (fun p => decide ((s.port p).st = portUp)))
       (fun p s => count (sprCnt p 7) (updPort p (fun x => { x with st := portDown, replay := [] }) s)) s
     .running { s with maint := { s.maint with analog := s.maint.analog ++ [run] } })

/-- R510: a port that fails its loop-back is FAILED; its jobs end (R507). -/
def loopbackFails (p : Nat) (s : State) : State := endJob 9 p 3 (updPort p (fun x => { x with st := portFailed }) s)

/-- A port after its loop-back: FAILED, or retrained as RETRAIN, which a RETRAIN queued meanwhile is (R505, R510, R511). -/
def afterLoopback (failed : Nat) (p : Nat) (s : State) : State :=
  if bit failed p then loopbackFails p s
  else if (s.port p).st = portFailed then s
  else
    let s := deviceJob 9 p (count (sprCnt p 5) (updPort p (fun x => { x with st := portTraining, failRow := 0 }) s))
    forEach (s.maint.jobs.filter (fun j => decide (j.activity = 9) && decide (j.scope = p))) (fun j s => runJob j.id s) s

/-- R510: each failed check has its record. -/
def noteAnalogue (failed badPorts : Nat) (s : State) : State :=
  forUpto 5 (fun i s => if bit failed i then
    record .dg 0x0902 { detail := detail32 (toLE 1 1 ++ toLE 1 (2 ^ i) ++ toLE 1 (if i = 0 then badPorts else 0)) } s else s) s

/-- R158, R510: the sub-banks that a failed sense reference serves are marked failed. -/
def failSenses (l : List Nat) (s : State) : State :=
  forEach l (fun x s => if x < 64 * 1024 * 9 then failSubbank (x / 9 / 1024) (x / 9 % 1024) (x % 9) 0x0107 0xFF s else s) s

/-- ANALOGUE_CHECKS_DONE (R510): the oldest checks end. The loop-back waits for a port that is retraining (R505). -/
def execAnalogueChecksDone (res : AnalogueResult) (s : State) : Host.Outcome State Fault Refusal :=
  .next (match s.maint.analog with
    | [] => s
    | r :: l =>
      let ports := portsIn r.ports.toNat
      if ports.any (fun p => s.jobActive 9 p) then s
      else
        let failed := (res.failed &&& r.checks).toNat
        let badPorts := if bit failed 0 then (res.ports &&& r.ports).toNat else 0
        let s := { s with maint := { s.maint with analog := l } }
        let s := forEach ports (afterLoopback badPorts) s
        let s := noteAnalogue failed badPorts (if bit failed 4 then failSenses res.subbanks s else s)
        finish r.cmd .ok (failed + badPorts * 256) s)

/-- R172, R512: one physical block of the destructive patterns: erased three times, retired if it fails. -/
def patternBlock (draw sb pb : Nat) (s : State) : State :=
  let s := updPb (pbKey sb pb) (fun p => { p with erases := p.erases + 3, erasing := false, programming := false, pulses := 0 }) s
  if Config.patternFails draw (pbKey sb pb) then retireBlock (sb / 9 / 1024) (sb / 9 % 1024) (sb % 9) pb 0xFF s else s

/-- R512: one sub-bank: every block, then the lists are cleared and the sub-bank judged by its good blocks. -/
def patternSubbank (draw : Nat) (sb : Nat) (s : State) : State :=
  let n := physBlocks s.part.variant
  let s := forUpto n (patternBlock draw sb) s
  updSb sb (fun b => { b with map := [], lost := [], failed := decide (n < s.part.variant.userBlocks + b.retired.length) }) s

/-- R512: one stack. -/
def patternStack (i : Nat) (s : State) : State :=
  let draw := s.free
  let s := { s with
    free := s.free + 1
    slate := { s.slate with
      lines := s.slate.lines.filter (fun l => !inStack i (l.1 / 256 / 64))
      groups := s.slate.groups.filter (fun g => decide (g.1 / (9 * 32) / 32 ≠ i))
      blocked := s.slate.blocked.filter (fun g => decide (g / (9 * 32) / 32 ≠ i))
      rebuilt := s.slate.rebuilt.filter (fun l => !inStack i (l.1 / 256 / 64))
      relocs := s.slate.relocs.filter (fun r => decide (r.array / 32 ≠ i))
      recons := s.slate.recons.filter (fun r => decide (r.array / 32 ≠ i)) } }
  let s := updStack i (fun t => { t with mirA := { Mirror.reset with erases := t.mirA.erases + 3 }, mirB := { Mirror.reset with erases := t.mirB.erases + 3 }, ckpt := none }) s
  forUpto (32 * 1024 * 9) (fun j s => patternSubbank draw (i * (32 * 1024 * 9) + j) s) s

/-- Blocks retired in a stack. -/
def State.retiredIn (s : State) (l : List Nat) : Nat :=
  (s.slate.sbs.map (fun p => if l.any (fun i => inStack i p.1) then p.2.retired.length else 0)).sum

/-- The body of `SELFTEST` 0x03. It ends with the checkpoints of its re-initialised stacks. -/
def patterns (c : Cmd) (s : State) : Reply :=
  let l := stacksOf (c.fld 1 1 0)
  checked c false
    [(c.argReserved 0xFF 3 0 0 0 || decide (c.sub.payLen ≠ 0) || decide (c.fld 1 1 0 = 3), .badField),
     (!testPermitted 3 s.sec.lifecycle || s.models.slots.any (fun m => decide (m.2.st ≠ .empty)) || !s.plans.isEmpty, .wrongState)] s
    (let t := forEach l patternStack s
     let n := t.retiredIn l - s.retiredIn l
     .running (forEach l (fun i s => askCkpt i true false true (some (c.id, n)) s) t))

/-- The body of `SELFTEST`. -/
def selftest (c : Cmd) (s : State) : Reply :=
  match c.fld 0 7 0 with
  | 0 => arrayBist c s
  | 1 => analogueChecks c s
  | 2 => physicalRead c s
  | 3 => patterns c s
  | _ => .done .badField 0 s

/-- SELFTEST. -/
def execSelftest (r : CmdRef) (s : State) : Host.Outcome State Fault Refusal := .next (iarik 0x0A00 r none selftest s)

/-! ## Follow-ups (R500) -/

/-- R500: the waiting follow-up of the highest class, the oldest of its class. -/
def nextFollowUp (l : List FollowUp) : Option FollowUp :=
  [ErrClass.ft, .dg, .ct, .ce].findSome? (fun c => l.find? (fun f => decide (f.cls = c)))

/-- The work that a follow-up queues (R154, R160, R161, R172); records of other codes queue none. -/
def followUp (f : FollowUp) (s : State) : State :=
  let l := lineAddr (u f.detail 0 4)
  let k := u f.detail 5 1
  match f.code with
  | 0x0101 => queueReloc 1 .recon l.a (some l.c) k l.lb none s
  | 0x0103 => queueReloc 1 .parity l.a (some l.c) 8 l.lb none s
  | 0x0106 => retryTargets s
  | _ => s

/-- FOLLOW_UP. -/
def execFollowUp (s : State) : Host.Outcome State Fault Refusal :=
  .next (match nextFollowUp s.err.waiting with
    | none => s
    | some f => followUp f { s with err := { s.err with waiting := s.err.waiting.filter (· ≠ f) } })

end Sys2Proof.Machine
end

