-- ==== Sys2Proof/Machine/Flash.lean ====
section
/-! DEFINITION. Sys2Proof/Machine/Flash.lean: the code flash, its two banks, and the ROM routines that change it and hand
rings to the Slate controllers (chapter 14). Flash bytes are kept by their offset from core address 0x2000_0000. -/

namespace Sys2Proof.Machine

/-! ## Layout (R420) -/

/-- Management SRAM (R25). -/
def mgmtBytes : Nat := 0x800000
def flashCore : Nat := 0x20000000
def flashBytes : Nat := 0x4000000
def bankBytes : Nat := 0x2000000
def sectorBytes : Nat := 65536
def imageBytes : Nat := 0x1800000
def activeBase : Nat := 0
def stagingBase : Nat := 0x2000000
def configBase : Nat := 0x3800000
def journalBase : Nat := 0x3C00000

/-- The region that holds an offset: start and end. Bytes from 24 MiB to 32 MiB of bank 0 are reserved. -/
def flashRegion (a : Nat) : Option (Nat × Nat) :=
  if a < imageBytes then some (activeBase, imageBytes)
  else if a < stagingBase then none
  else if a < configBase then some (stagingBase, configBase)
  else if a < journalBase then some (configBase, journalBase)
  else if a < flashBytes then some (journalBase, flashBytes)
  else none

/-- A bank. -/
def State.bank (s : State) (i : Nat) : Bank := if i = 0 then s.flash.bank0 else s.flash.bank1
/-- A change of a bank. -/
def updBank (i : Nat) (f : Bank → Bank) (s : State) : State :=
  if i = 0 then { s with flash := { s.flash with bank0 := f s.flash.bank0 } }
  else { s with flash := { s.flash with bank1 := f s.flash.bank1 } }

/-! ## Contents (R427-R429) -/

/-- Do two runs meet? -/
def meets (a n b m : Nat) : Bool := decide (a < b + m) && decide (b < a + n)

/-- One byte of flash; in an area with undefined content it is a free value, which may differ from read to read (R429; log 6). -/
def State.flashByte (s : State) (a : Nat) : Byte :=
  if s.flash.undef.any (fun r => decide (r.1 ≤ a) && decide (a < r.1 + r.2)) then Config.freeByte s.free (2 ^ 60 + a)
  else memGet flashFill s.flash.mem a

/-- A run of flash. -/
def State.flashRead (s : State) (a n : Nat) : Bytes := (List.range n).map (fun i => s.flashByte (a + i))

/-- The free values of the undefined areas are drawn anew. -/
def redrawFlash (s : State) : State := if s.flash.undef = [] then s else { s with free := s.free + 1 }

/-- A run taken out of the undefined areas. -/
def cutAreas (a n : Nat) (l : List (Nat × Nat)) : List (Nat × Nat) :=
  l.flatMap (fun r => [(r.1, min r.2 (a - r.1)), (max r.1 (a + n), r.1 + r.2 - max r.1 (a + n))].filter (fun x => decide (x.2 ≠ 0)))

/-- R421, R427: sectors are erased: every bit and marker bit 1. -/
def flashErase (a n : Nat) (s : State) : State :=
  { s with flash := { s.flash with
      mem := s.flash.mem.filter (fun c => decide (c.1 < a) || decide (a + n ≤ c.1))
      marks := s.flash.marks.filter (fun m => decide (8 * m.1 < a) || decide (a + n ≤ 8 * m.1))
      undef := cutAreas a n s.flash.undef } }

/-- R428: a run of erased words is programmed once. -/
def flashProgram (a : Nat) (b : Bytes) (s : State) : State :=
  { s with flash := { s.flash with
      mem := memWrite flashFill s.flash.mem a b
      marks := (List.range (cdiv b.length 8)).foldl (fun m i => mset m (a / 8 + i) 1) s.flash.marks } }

/-- R428: one word is programmed, for the first or the second time. -/
def flashWord (a : Nat) (v : Dword) (s : State) : State :=
  { s with flash := { s.flash with
      mem := memWrite flashFill s.flash.mem a (toLE 8 v.toNat)
      marks := mset s.flash.marks (a / 8) (mgetD s.flash.marks (a / 8) 0 + 1) } }

/-! ## Operations (R421-R426) -/

/-- R424: buffered lines of an area, by the offset of their first byte, are invalidated in every core. -/
def dropLines (a n : Nat) (s : State) : State :=
  let keep (l : List Nat) : List Nat := l.filter (fun x => !meets x 32 a n)
  { s with flash := { s.flash with prefetch := mmap (fun _ l => keep l) s.flash.prefetch, branch := mmap (fun _ l => keep l) s.flash.branch } }

/-- What a finished operation has done. The content that a failed one leaves is not stated: undefined, as R429's (log 48). -/
def FlashOp.apply (o : FlashOp) (ok : Bool) (s : State) : State :=
  if !ok then { s with flash := { s.flash with undef := s.flash.undef ++ [(o.start, o.length)] } }
  else if o.erase then flashErase o.start o.length s
  else if o.word then flashWord o.start (BitVec.ofNat 64 (leNat o.data)) s
  else flashProgram o.start o.data s

/-- The bank that holds a core address, if the code flash does. -/
def bankOf (core : Nat) : Option Nat :=
  if flashCore ≤ core ∧ core < flashCore + flashBytes then some ((core - flashCore) / bankBytes) else none

/-- A ROM routine returns to a core (R431). -/
def romReturn (core : Nat) (st : Status) (res : Nat) (s : State) : State :=
  emit (.romReturn core (BitVec.ofNat 16 st.code) (BitVec.ofNat 64 res)) s

/-- R424, R431, R434: an operation starts; with `allow_stall` it runs to its end before the routine returns. -/
def startOp (core : Nat) (stall ok : Bool) (o : FlashOp) (s : State) : State :=
  let s := dropLines o.start o.length s
  if stall then
    let s := dropLines o.start o.length (o.apply ok (emit (.stall core) s))
    romReturn core (if ok then .ok else .deviceFault) 0 s
  else romReturn core .ok 0 (updBank (o.start / bankBytes) (fun b => { b with op := some o, report := 0 }) s)

/-- A flash routine: checks 3 and 4 of R432 follow its own checks 2, and its own checks 5 and 6 follow them. -/
def flashRoutine (core lr addr n : Nat) (flags : Word) (bad : Bool) (late : Option Status) (ok : Bool) (o : FlashOp) (s : State) : State :=
  let a := addr - flashCore
  let stall := flags.getLsbD 0
  let bank := a / bankBytes
  let region := match flashRegion a with | some r => decide (a + n ≤ r.2) | none => false
  let st := firstFail
    [(bad || decide (addr < flashCore) || !region || decide (1 < flags.toNat), .badField),
     (!stall && decide (bankOf lr = some bank), .selfBank),
     ((s.bank bank).op.isSome, .wrongState)]
  match st with
  | some st => romReturn core st 0 s
  | none => match late with
    | some st => romReturn core st 0 s
    | none => startOp core stall ok o s

/-- FL_ERASE (R431-R434). -/
def execFlErase (core : Nat) (lr : Nat) (addr count : Nat) (flags : Word) (ok : Bool) (s : State) : Host.Outcome State Fault Refusal :=
  .next (
    let a := addr - flashCore
    let n := count * sectorBytes
    flashRoutine core lr addr n flags
      (decide (a % sectorBytes ≠ 0) || decide (count = 0) || decide (8 < count) || decide (journalBase ≤ a) || (flags.getLsbD 0 && decide (1 < count)))
      none ok { start := a, length := n, erase := true, data := [], word := false } s)

/-- Is a word erased: not programmed since its erase, and of defined content (R427, R429)? -/
def State.wordErased (s : State) (w : Nat) : Bool := !mhas s.flash.marks w && !s.flash.undef.any (fun r => meets (8 * w) 8 r.1 r.2)

/-- FL_PROGRAM (R431-R434): the pages come from management SRAM. -/
def execFlProgram (core : Nat) (lr : Nat) (addr src count : Nat) (flags : Word) (ok : Bool) (s : State) : Host.Outcome State Fault Refusal :=
  .next (
    let a := addr - flashCore
    let n := count * 256
    flashRoutine core lr addr n flags
      (decide (a % 256 ≠ 0) || decide (count = 0) || decide (8 < count) || decide (journalBase ≤ a) || decide (mgmtBytes < src + n))
      (if (List.range (n / 8)).all (fun i => s.wordErased (a / 8 + i)) then none else some .wrongState) ok
      { start := a, length := n, erase := false, data := memRead ramFill s.mgmt src n, word := false } s)

/-- R428, R432: checks 5 and 6 of a word program. -/
def State.wordCheck (s : State) (w : Nat) (v : Dword) : Option Status :=
  if 2 ≤ mgetD s.flash.marks w 0 then some .wrongState
  else if s.wordErased w then none
  else if v &&& ~~~ BitVec.ofNat 64 (leNat (s.flashRead (8 * w) 8)) = 0 then none
  else some .notMonotonic

/-- FL_WORD (R428, R431-R434). -/
def execFlWord (core : Nat) (lr : Nat) (addr : Nat) (value : Dword) (flags : Word) (ok : Bool) (s : State) : Host.Outcome State Fault Refusal :=
  .next (
    let s := redrawFlash s
    let a := addr - flashCore
    flashRoutine core lr addr 8 flags (decide (a % 8 ≠ 0)) (s.wordCheck (a / 8) value) ok
      { start := a, length := 8, erase := false, data := toLE 8 value.toNat, word := true } s)

/-- FL_POLL (R431, R432): 0 IDLE, 1 BUSY, 2 DONE_OK, 3 DONE_FAIL with the first failing address above. DESIGN CHOICE (log 48):
the spec gives no codes. A report is made once. -/
def execFlPoll (core : Nat) (bank : Nat) (s : State) : Host.Outcome State Fault Refusal :=
  .next (
    if 2 ≤ bank then romReturn core .badField 0 s
    else
      let b := s.bank bank
      if b.op.isSome then romReturn core .ok 1 s
      else romReturn core .ok (b.report + (if b.report = 3 then b.failAddr * 2 ^ 32 else 0)) (updBank bank (fun b => { b with report := 0 }) s))

/-- FLASH_OP_COMPLETE (R424, R432). -/
def execFlashOpComplete (bank : Nat) (ok : Bool) (failAddr : Nat) (s : State) : Host.Outcome State Fault Refusal :=
  .next (match if bank < 2 then (s.bank bank).op else none with
    | none => s
    | some o =>
      dropLines o.start o.length (o.apply ok (updBank bank (fun b => { b with
        op := none, report := if ok then 2 else 3, failAddr := if ok then b.failAddr else failAddr }) s)))

/-- FLASH_BUSY_READ (R426): `kind` is 0 for a data load, 1 for an instruction fetch, 2 for a prefetch. -/
def execFlashBusyRead (core : Nat) (addr : Nat) (kind : Nat) (s : State) : Host.Outcome State Fault Refusal :=
  .next (
    let busy (b : Bank) : Bool := match b.op with | some o => decide (flashCore + o.start ≤ addr) && decide (addr < flashCore + o.start + o.length) | none => false
    if !busy s.flash.bank0 && !busy s.flash.bank1 then s
    else match kind with
      | 0 => emit (.coreFault core 0x21) s
      | 1 => emit (.coreFault core 0x22) s
      | _ => s)

/-- CONTROLLER_WRITE_FAULT (R430). It is logged as the other discarded register writes are. DEDUCED (log 49). -/
def execControllerWriteFault (core : Nat) (reg : Nat) (value : Word) (s : State) : Host.Outcome State Fault Refusal :=
  .next (hostAccess 0 reg value.toNat 0 (emit (.coreFault core 0x24) s))

/-! ## Slate rings (R431, R435) -/

/-- SLT_RING. -/
def execSltRing (core : Nat) (a : Nat) (ring count : Nat) (s : State) : Host.Outcome State Fault Refusal :=
  .next (
    if 64 ≤ a ∨ ring % 64 ≠ 0 ∨ count = 0 ∨ 4096 < count ∨ hubBytes < ring + 16 * count then romReturn core .badField 0 s
    else if (match mget s.slate.rings a with | some r => decide (r.done < r.count) | none => false) then romReturn core .wrongState 0 s
    else
      let r : SRing := { addr := ring, count := count, done := 0, firstFail := none }
      romReturn core .ok 0 { s with slate := { s.slate with rings := mset s.slate.rings a r } })

/-- SLT_POLL: descriptors completed, and above them the index of the first failure or 0xFFFF. DESIGN CHOICE (log 48). -/
def execSltPoll (core : Nat) (a : Nat) (s : State) : Host.Outcome State Fault Refusal :=
  .next (
    if 64 ≤ a then romReturn core .badField 0 s
    else match mget s.slate.rings a with
      | some r => romReturn core .ok (r.done + r.firstFail.getD 0xFFFF * 65536) s
      | none => romReturn core .ok (0xFFFF * 65536) s)

end Sys2Proof.Machine
end

