-- ==== Sys2Proof/Machine/Firmware.lean ====
section
/-! DEFINITION. Sys2Proof/Machine/Firmware.lean: firmware packages, staging, activation's schedule, the lifecycle and
attestation (R393, R443-R450, R454, R458-R466). -/

namespace Sys2Proof.Machine

/-! ## Packages (R443-R445) -/

/-- Are the bytes at an offset all 0? -/
def zeroAt (b : Bytes) (off n : Nat) : Bool := decide (u b off n = 0)

/-- `length` of a package's manifest. -/
def pkgLength (m : Bytes) : Nat := u m 16 4
/-- `sec_version` of a package's manifest. -/
def pkgSec (m : Bytes) : Nat := u m 7 1

/-- The signed region of a package of a length (R443). -/
def signedRegion (p : Bytes) (len : Nat) : Bytes := p.take 256 ++ (p.drop 4096).take (len - 4096)

/-- R443: is a manifest's form as stated for its kind? A `length` or `sec_version` out of its range fails too. DEDUCED (log 50). -/
def manifestOk (v : Variant) (kind : Nat) (m : Bytes) : Bool :=
  decide (u m 0 4 = 0x57464C45) && decide (u m 4 2 = 1) && decide (u m 6 1 = kind) && decide (pkgSec m ≤ 64) &&
  decide (8192 ≤ pkgLength m) && decide (pkgLength m ≤ imageBytes) && decide (pkgLength m % 256 = 0) &&
  bit (u m 20 1) (v.code - 1) && decide (u m 20 1 < 8) &&
  zeroAt m 21 3 && zeroAt m 72 8 && zeroAt m 232 24 && zeroAt m 2124 1972 && zeroAt m 7168 1024

/-- R444, R445: are both keys the device's firmware-signing keys, and do both signatures verify? -/
def signaturesOk (part : Part) (p : Bytes) : Bool :=
  let r := signedRegion p (pkgLength p)
  let ecdsa := slice p 80 96
  let lms := slice p 176 56
  decide (Config.sha384 ecdsa = part.fwEcdsaHash) && decide (Config.sha256 lms = part.fwLmsHash) &&
  Config.ecdsaVerify ecdsa (Config.sha384 r) (slice p 256 96) && Config.lmsVerify lms (Config.sha256 r) (slice p 352 1772)

/-- R445: does a package verify? -/
def packageOk (part : Part) (kind : Nat) (p : Bytes) : Bool := manifestOk part.variant kind p && signaturesOk part p

/-- The package in a region: its manifest says how long it is. -/
def State.packageAt (s : State) (base : Nat) : Bytes := s.flashRead base (min imageBytes (max 8192 (pkgLength (s.flashRead base 8192))))

/-- R440, R445: is a region's full package verified? -/
def State.imageOk (s : State) (base : Nat) : Bool := packageOk s.part 0 (s.packageAt base)

/-- R447: the signed-region digest of ACTIVE. -/
def State.activeDigest (s : State) : Bytes := let p := s.packageAt activeBase; Config.sha384 (signedRegion p (pkgLength p))

/-! ## Staging (R446-R449) -/

/-- STAGING is erased: 384 sectors. -/
def eraseStaging (s : State) : State := flashErase stagingBase imageBytes s

/-- The staging run begins afresh if `first` is set; STAGING is unverified. -/
def beginStaging (first delta : Bool) (s : State) : State :=
  let s := { s with sec := { s.sec with stagingOk := false } }
  if first then
    eraseStaging { s with sec := { s.sec with stageRun := true, written := [], delta := [], isDelta := delta } }
  else s

/-- The staging run ends with `last`. -/
def endRun (last : Bool) (s : State) : State :=
  if last then { s with sec := { s.sec with stageRun := false, written := [], delta := [] } } else s

/-- STAGING is unverified. -/
def unverify (s : State) : State := { s with sec := { s.sec with stagingOk := false } }

/-- R393: are the fields and the payload of `FW_STAGE` or `FW_DELTA` legal? -/
def stageBad (c : Cmd) (pay : BusRead) : Bool :=
  let n := c.sub.payLen
  c.argReserved 0x301FFFFFF 0 0 0 0 || decide (c.fld 0 24 0 % 256 ≠ 0) || decide (imageBytes < c.fld 0 24 0 + n) ||
  decide (n < 256) || decide (1048576 < n) || decide (n % 256 ≠ 0) || pay.isNone

/-- R393, R447: is a staging command in a state to go on: no activation scheduled, and `first` given or a run of its own
kind begun? DEDUCED (log 51). -/
def State.stageBlocked (s : State) (c : Cmd) (delta : Bool) : Bool :=
  s.sec.actTime.isSome || (!bit (c.arg 0) 32 && (!s.sec.stageRun || s.sec.isDelta != delta))

/-- An FWSTAGE job as it is recorded once it is done (R388, R390). -/
def stageJob (c : Cmd) (s : State) : State := endJob 5 2 2 (addJob 5 2 true c.sub.seq (some c.id) s)

/-- The body of `FW_STAGE` (R393, R447). -/
def fwStage (pay : BusRead) (c : Cmd) (s : State) : Reply :=
  let p := s.payload c pay
  let b := p.getD []
  let off := c.fld 0 24 0
  let first := bit (c.arg 0) 32
  refused (checked c false [(stageBad c p, .badField)] s
    (if !first && s.sec.stageRun && s.sec.written.any (fun r => meets off b.length r.1 r.2) then .done .badField 0 (unverify s)
     else if s.stageBlocked c false then .done .wrongState 0 s
     else if 64 ≤ s.activeJobs then .done .noResource 0 s
     else
      let s := beginStaging first false s
      let s := flashProgram (stagingBase + off) b { s with sec := { s.sec with written := s.sec.written ++ [(off, b.length)] } }
      .done .ok 0 (stageJob c (endRun (bit (c.arg 0) 33) s))))

/-- FW_STAGE. -/
def execFwStage (r : CmdRef) (pay : BusRead) (s : State) : Host.Outcome State Fault Refusal :=
  .next (iarik 0x0800 r pay (fwStage pay) s)

/-- How far the patch records of a delta have been applied (R446). -/
inductive Patch where
  /-- more bytes are awaited -/
  | open_
  /-- END, at the target's `length` -/
  | ended
  /-- a record breaks R446 -/
  | broken
deriving DecidableEq, Repr

/-- R446: patch records are applied: the target's bytes so far, from byte 8,192 on, and how it stands. `act` reads ACTIVE,
`room` is what the target still holds. `len` of END is not looked at. DEDUCED (log 52). -/
def applyPatch (act : Nat → Nat → Bytes) : Nat → Nat → Bytes → Bytes × Patch
  | 0, _, _ => ([], .open_)
  | fuel + 1, room, b =>
    if b.length < 16 then ([], .open_)
    else
      let op := u b 0 1
      let len := u b 4 4
      let rest := b.drop 16
      if !zeroAt b 1 3 || !zeroAt b 12 4 then ([], .broken)
      else if op = 3 then (if zeroAt b 8 4 then ([], if room = 0 then .ended else .broken) else ([], .broken))
      else if len < 16 ∨ len % 16 ≠ 0 ∨ room < len then ([], .broken)
      else match op with
        | 0 =>
          if imageBytes < u b 8 4 + len then ([], .broken)
          else let r := applyPatch act fuel (room - len) rest; (act (u b 8 4) len ++ r.1, r.2)
        | 1 =>
          if !zeroAt b 8 4 then ([], .broken)
          else if rest.length < len then ([], .open_)
          else let r := applyPatch act fuel (room - len) (rest.drop len); (rest.take len ++ r.1, r.2)
        | 2 =>
          if !zeroAt b 9 3 then ([], .broken)
          else let r := applyPatch act fuel (room - len) rest; (List.replicate len (b.getD 8 0) ++ r.1, r.2)
        | _ => ([], .broken)

/-- R446: the image that the delta bytes received so far build, and how it stands. -/
def State.patched (s : State) (d : Bytes) : Bytes × Patch :=
  if d.length < 16384 then ([], .open_)
  else
    let m := slice d 8192 8192
    let r := applyPatch (fun o n => s.flashRead (activeBase + o) n) (d.length / 16) (pkgLength m - 8192) (d.drop 16384)
    (m ++ r.1, r.2)

/-- The body of `FW_DELTA` (R446, R447). `base_digest` is compared once the delta's manifest is there whole. DEDUCED (log 52). -/
def fwDelta (pay : BusRead) (c : Cmd) (s : State) : Reply :=
  let p := s.payload c pay
  let b := p.getD []
  let first := bit (c.arg 0) 32
  let last := bit (c.arg 0) 33
  let had := if first || !s.sec.isDelta then [] else s.sec.delta
  let d := had ++ b
  let old := (s.patched had).1
  let new := s.patched d
  refused (checked c false [(stageBad c p, .badField)] s
    (if decide (c.fld 0 24 0 ≠ had.length) && (first || s.sec.stageRun) then .done .badField 0 (unverify s)
     else if last && decide (new.2 ≠ .ended) && (first || s.sec.stageRun) then .done .badField 0 (unverify s)
     else if last && (!packageOk s.part 1 d || decide (pkgLength d ≠ d.length)) && (first || s.sec.stageRun) then .done .auth 0 (unverify s)
     else if s.stageBlocked c true then .done .wrongState 0 s
     else if decide (8192 ≤ d.length) && decide (slice d 24 48 ≠ s.activeDigest) then .done .wrongState 0 (unverify s)
     else if 64 ≤ s.activeJobs then .done .noResource 0 s
     else
      let s := beginStaging first true s
      let s := flashProgram (stagingBase + old.length) (new.1.drop old.length) { s with sec := { s.sec with delta := d } }
      .done .ok 0 (stageJob c (endRun last s))))

/-- FW_DELTA. -/
def execFwDelta (r : CmdRef) (pay : BusRead) (s : State) : Host.Outcome State Fault Refusal :=
  .next (iarik 0x0801 r pay (fwDelta pay) (redrawFlash s))

/-- The body of `FW_VERIFY` (R393, R445, R448, R454). -/
def fwVerify (c : Cmd) (s : State) : Reply :=
  let v := pkgSec (s.flashRead stagingBase 8192)
  checked c false
    [(c.argReserved 0 0 0 0 0 || decide (c.sub.payLen ≠ 0), .badField), (!s.imageOk stagingBase, .auth), (decide (v < s.sec.counter), .rollback)] s
    (.done .ok v { s with sec := { s.sec with stagingOk := true } })

/-- FW_VERIFY. -/
def execFwVerify (r : CmdRef) (s : State) : Host.Outcome State Fault Refusal := .next (iarik 0x0802 r none fwVerify (redrawFlash s))

/-! ## Scheduling an activation (R450) -/

/-- R450: the activation time is set, or deferred while a stage session is open. -/
def schedule (t : Nat) (s : State) : State :=
  { s with sec := { s.sec with actTime := some t, actDeferred := s.models.stage.isSome } }

/-- R450: once every member has STAGING verified, every member has the time scheduled. -/
def scheduleAll (t : Nat) (s : State) : State := sendActivation t (schedule t s)

/-- The body of `FW_ACTIVATE`. A member answers its manager's first question and takes the time that follows (log 38). -/
def fwActivate (c : Cmd) (s : State) : Reply :=
  let t := c.arg 0
  let host := c.fromHost
  let group := bit (c.arg 1) 0
  checked c false
    [(c.argReservedW all64 1 0 || decide (c.sub.payLen ≠ 0) || (host && (group != (decide (s.spar.st = 1) && !s.sec.recovery))), .badField),
     (host && decide (t < s.tbu.now + 10000000), .badField),
     ((host || decide (c.arg 3 = 1)) && !s.sec.stagingOk, .wrongState)] s
    (if !host then .done .ok 0 (if c.arg 3 = 2 then { s with sec := { s.sec with actTime := some t, actDeferred := false } } else s)
     else if s.wideMembers c = [] then .done .ok t (schedule t s)
     else .running (sendMembers c (s.wideMembers c) false 1 0 [] { s with spar := { s.spar with results := mset s.spar.results c.id t } }))

/-- FW_ACTIVATE. -/
def execFwActivate (r : CmdRef) (s : State) : Host.Outcome State Fault Refusal := .next (iarik 0x0803 r none fwActivate s)

/-! ## Lifecycle (R458-R460) -/

def lcBlank : Nat := 0
def lcManufacture : Nat := 1
def lcProvisioned : Nat := 2
def lcDeployed : Nat := 3
def lcDiagnostic : Nat := 4
def lcReturned : Nat := 5
def lcScrapped : Nat := 6

/-- R458: the authority that a transition needs, 0 vendor and 1 owner; none where it is not allowed. -/
def authority (from_ dest : Nat) : Option Nat :=
  match from_, dest with
  | 0, 1 => some 0
  | 1, 2 => some 0
  | 2, 3 => some 0
  | 3, 4 => some 1
  | 4, 3 => some 1
  | 3, 5 => some 1
  | 4, 5 => some 1
  | 0, 6 => some 0
  | 1, 6 => some 0
  | 2, 6 => some 0
  | 5, 6 => some 0
  | 3, 6 => some 1
  | 4, 6 => some 1
  | _, _ => none

/-- R459: is a reserved field of an authorisation not 0? Outside PROVISIONED to DEPLOYED the owner keys are reserved. -/
def authReserved (b : Bytes) (from_ dest : Nat) : Bool :=
  !zeroAt b 7 1 || !zeroAt b 20 44 || !zeroAt b 368 16 || decide (1 < u b 6 1) ||
  (!(decide (from_ = lcProvisioned) && decide (dest = lcDeployed)) && !zeroAt b 216 152)

/-- R459: does an authorisation hold? Its authority must be the one the transition needs. DEDUCED (log 53). -/
def State.authorised (s : State) (b : Bytes) (dest : Nat) : Bool :=
  let who := u b 6 1
  let m := b.take 384
  let ecdsa := slice b 64 96
  let lms := slice b 160 56
  decide (u b 0 4 = 0x434F4C45) && decide (u b 4 1 = dest) && decide (u b 5 1 = s.sec.lifecycle) &&
  decide (u b 8 8 = s.part.serial.toNat) && decide (u b 16 4 = s.sec.transitions + 1) &&
  (match authority s.sec.lifecycle dest with | some a => decide (a = who) | none => true) &&
  decide (Config.sha384 ecdsa = if who = 0 then s.part.fwEcdsaHash else s.part.ownEcdsaHash) &&
  decide (Config.sha256 lms = if who = 0 then s.part.fwLmsHash else s.part.ownLmsHash) &&
  Config.ecdsaVerify ecdsa (Config.sha384 m) (slice b 384 96) && Config.lmsVerify lms (Config.sha256 m) (slice b 480 1772)

/-- R458, R460, R461: a transition takes effect. -/
def enterLifecycle (b : Bytes) (dest : Nat) (s : State) : State :=
  let s := if dest = lcDeployed ∧ s.sec.lifecycle = lcProvisioned then
      { s with part := { s.part with ownEcdsaHash := Config.sha384 (slice b 216 96), ownLmsHash := Config.sha256 (slice b 312 56) } }
    else s
  let floor := if dest = lcProvisioned ∨ dest = lcDeployed ∨ dest = lcReturned ∨ dest = lcScrapped then max s.sec.floor dest else s.sec.floor
  { s with sec := { s.sec with
      lifecycle := dest, floor := floor, transitions := s.sec.transitions + 1
      identity := if dest = lcProvisioned then true else if dest = lcScrapped then false else s.sec.identity } }

/-- The body of `LIFECYCLE_SET`. -/
def lifecycleSet (pay : BusRead) (c : Cmd) (s : State) : Reply :=
  let p := s.payload c pay
  let b := p.getD []
  let dest := c.fld 0 2 0
  checked c false
    [(c.argReserved 7 0 0 0 0 || p.isNone || decide (c.sub.payLen ≠ 2252) || decide (6 < dest) || authReserved b s.sec.lifecycle dest, .badField),
     (!s.authorised b dest, .auth),
     ((authority s.sec.lifecycle dest).isNone || (decide (dest = lcReturned) && s.models.slots.any (fun m => decide (m.2.st ≠ .empty))), .wrongState)] s
    (.done .ok 0 (enterLifecycle b dest s))

/-- LIFECYCLE_SET. -/
def execLifecycleSet (r : CmdRef) (pay : BusRead) (s : State) : Host.Outcome State Fault Refusal :=
  .next (iarik 0x0901 r pay (lifecycleSet pay) s)

/-! ## Attestation (R462-R466) -/

/-- Reservations that a sector of the ring holds (R463). -/
def ringBlocks : Nat := 16368

/-- R463: the journal words that reserve a block: at the first block of a sector the next sector of the ring is erased and
its header written; then the block's bit of its word is cleared. The first sector's sequence is 0. DESIGN CHOICE (log 54). -/
def journalReserve (blk : Nat) (s : State) : State :=
  let seq := blk / ringBlocks
  let i := blk % ringBlocks
  let at_ := journalBase + seq % 32 * sectorBytes
  let word (w v : Nat) (s : State) : State := flashWord (at_ + 8 * w) (BitVec.ofNat 64 v) s
  let head := toLE 8 0x4A534C45 ++ toLE 8 seq ++ toLE 8 (seq * ringBlocks)
  let s := if i = 0 then
      word 3 (crc32c head).toNat (word 2 (seq * ringBlocks) (word 1 seq (word 0 0x4A534C45 (flashErase at_ sectorBytes s))))
    else s
  word (8 + i / 2) (if i % 2 = 0 then 2 ^ 64 - 2 else 2 ^ 64 - 4) s

/-- R463, R464: blocks there are. -/
def lmsAll : Nat := 2 ^ 20

/-- R464: is there an index left, in the block in use or in one still free? -/
def Sec.lmsGone (x : Sec) : Bool := decide (x.lmsLeft = 0) && decide (lmsAll ≤ x.lmsBlocks)

/-- R464: the next index; a block is reserved before its first index is released. -/
def takeIndex (s : State) : Nat × State :=
  let s := if s.sec.lmsLeft = 0 then
      journalReserve s.sec.lmsBlocks { s with sec := { s.sec with
        lmsBlocks := s.sec.lmsBlocks + 1, lmsNext := s.sec.lmsBlocks * 1024, lmsLeft := 1024 } }
    else s
  (s.sec.lmsNext, { s with sec := { s.sec with lmsNext := s.sec.lmsNext + 1, lmsLeft := s.sec.lmsLeft - 1 } })

/-- R466: the message that is countersigned. -/
def State.attestMessage (s : State) (b : Bytes) : Bytes :=
  toLE 4 0x54414C45 ++ toLE 8 s.part.serial.toNat ++ slice b 0 48 ++ slice b 48 32

/-- The body of `ATTEST`. -/
def attest (pay : BusRead) (c : Cmd) (s : State) : Reply :=
  let p := s.payload c pay
  let b := p.getD []
  checked c false
    [(c.argReserved 0 all64 low32 0 0 || p.isNone || decide (c.sub.payLen ≠ 80) || decide (c.fld 2 31 0 < 5396) ||
        !decide (slice b 0 48 ∈ s.sec.doe.hashes ++ s.sec.smbus.hashes), .badField),
     (decide (s.sec.lifecycle ∈ [lcBlank, lcManufacture, lcScrapped]), .wrongState),
     (s.sec.lmsGone, .noResource)] s
    (let i := takeIndex s
     .done .ok 5396 (putOut c false (c.arg 1) (slice (Config.hssSign i.1 (s.attestMessage b)) 0 5396) i.2))

/-- ATTEST. -/
def execAttest (r : CmdRef) (pay : BusRead) (s : State) : Host.Outcome State Fault Refusal :=
  .next (iarik 0x0900 r pay (attest pay) s)

end Sys2Proof.Machine
end

