-- ==== Sys2Proof/Machine/Regs.lean ====
section
/-! DEFINITION. Sys2Proof/Machine/Regs.lean: the BAR0 register space: what every word reads, what a write of it does, the BAR2
window and MSI-X (R10, R68, R137, R290, R397-R406, R438, R472). -/

namespace Sys2Proof.Machine

/-! ## Readiness and status words -/

/-- `HUB_READY` (R406). -/
def State.readyWord (s : State) : Nat :=
  let r := s.ready
  flag r.mbx 0 + flag r.time 1 + flag r.slateW 2 + flag r.slateE 3 + flag r.arraysW 4 + flag r.arraysE 5 + flag r.boardMem 6 +
  flag r.spar 7 + flag r.codec 8 + flag r.tune 9 + flag r.attest 10

/-- `TBU_STATUS` (R228). -/
def State.tbuStatus (s : State) : Nat :=
  flag s.tbu.locked 0 + flag s.tbu.holdover 1 + s.tbu.source.toNat * 4 + flag s.tbu.refPresent 4 + flag s.tbu.slewing 5 + flag s.tbu.holdoverSeen 6

/-- `TBU_CFG` (R417). -/
def State.tbuCfg (s : State) : Nat :=
  flag s.tbu.ppsPol 0 + flag s.tbu.refEn 1 + s.tbu.ppsDelay.toNat * 2 ^ 8 + s.tbu.ppsRejects * 2 ^ 24

/-- Code of a plan state (R229). -/
def PState.code : PState → Nat
  | .loaded => 1
  | .running => 2
  | .stopping => 3
  | .halted => 4

/-- `HUB_PLAN_STATUS` of a handle (R229). -/
def State.planStatus (s : State) (h : Nat) : Nat :=
  match s.plan h with
  | some p => p.st.code + flag p.stalled 3 + flag p.plan.el3 4 + p.steps.foldl (fun n x => n + 2 ^ (8 + x.1)) 0
  | none => 0

/-- Code of a slot state (R330). -/
def SlotSt.code : SlotSt → Nat
  | .empty => 0
  | .created => 1
  | .serving => 2
  | .staging => 3
  | .partialSwap => 4
  | .broken => 5
  | .committing => 6

/-- R178: has a stack's mount ended, one way or another? -/
def Stack.tried (t : Stack) : Bool := t.mounted || t.readOnly || t.noMount

/-- `HUB_MDL_STATUS` of a slot (R330): 0 until the stacks have mounted. -/
def State.mdlStatus (s : State) (i : Nat) : Nat :=
  let m := s.slot i
  if !(s.slate.stackW.tried && s.slate.stackE.tried) then 0
  else m.epoch + m.st.code * 2 ^ 16 + flag m.lost 19 + flag m.halt 20 + flag m.isMixed 21

/-- A word of `HUB_CELL_EXCL` (R137). -/
def State.exclWord (s : State) (a w : Nat) : Nat :=
  (List.range 32).foldl (fun n i => n + flag (decide (32 * w + i ∈ (s.arr a).excl)) i) 0

/-- The word 0x10 of a queue pair (R361). -/
def QPair.ctrlWord (p : QPair) : Nat :=
  flag p.enable 0 + p.sizeLog2.toNat * 2 + flag p.sqDva 5 + flag p.cqDva 6 + p.vector.toNat * 2 ^ 8 + flag p.irqEn 19 +
  p.coalN.toNat * 2 ^ 20 + p.coalUs.toNat * 2 ^ 24

/-- A word of a queue pair's block (R361). -/
def QPair.word (p : QPair) (o : Nat) : Nat :=
  match o with
  | 0x00 => p.sqBase.toNat % 2 ^ 32
  | 0x04 => p.sqBase.toNat / 2 ^ 32
  | 0x08 => p.cqBase.toNat % 2 ^ 32
  | 0x0C => p.cqBase.toNat / 2 ^ 32
  | 0x10 => p.ctrlWord
  | 0x1C => flag p.ready 0 + flag p.badDb 1 + flag p.ringErr 2 + p.sqHead % 1024 * 2 ^ 3 + p.outstanding % 2048 * 2 ^ 13
  | _ => 0

/-- `PWR_STATUS` (R486). -/
def State.pwrStatus (s : State) : Nat :=
  (if s.pwr.entry.isSome then 4 else s.pwr.state.code) + s.pwr.pstate * 2 ^ 3 + s.pwr.pFast * 2 ^ 5 + flag s.pwr.waking 7 +
  s.pwr.limit * 2 ^ 8 + flag s.pwr.capExceeded 12 + s.pwr.capW * 2 ^ 16

/-- `PWR_ENTRY` (R487). -/
def State.pwrEntry (s : State) : Nat :=
  s.pwr.entBlock.toNat + s.pwr.entReason.toNat * 2 ^ 8 + s.pwr.entTarget.toNat * 2 ^ 16 + flag s.pwr.entAborted 19

/-- `ERR_STATUS` (R498). -/
def State.errStatus (s : State) : Nat :=
  let e := s.err
  flag e.fatalDev 0 + flag e.fatalW 1 + flag e.fatalE 2 + flag e.fatalSlot 3 + flag e.fatalGroup 4 + flag e.overrun 5 + flag e.dgSeen 6 +
  flag e.ctSeen 7 + e.entries * 2 ^ 8

/-- `ERR_CFG` (R498). -/
def State.errCfg (s : State) : Nat := s.err.vector.toNat + flag s.err.irqEn 11 + s.err.irqMin.toNat * 2 ^ 12

/-- The 64 bytes of a ring entry (R491). -/
def ErrEntry.bytes (x : ErrEntry) : Bytes :=
  toLE 4 x.recSeq ++ toLE 1 (x.cls.code + flag x.cont 2 + flag x.prior 3) ++ toLE 1 x.scope ++ toLE 2 x.code ++ toLE 8 x.time ++
  toLE 8 x.planId.toNat ++ toLE 4 x.cmdSeq.toNat ++ toLE 2 x.status ++ toLE 2 x.count ++ slice x.detail 0 32

/-- `SLT_CFG` (R187). -/
def State.sltCfg (s : State) : Nat :=
  s.slate.threshE8.toNat + s.slate.relocBits.toNat * 2 ^ 10 + s.slate.periodH.toNat * 2 ^ 16 + s.slate.ckptS.toNat * 2 ^ 24

/-- The lines of a sub-bank that are lost: those of its list; of a failed sub-bank every line of a mapped block (R158).
DEDUCED (log 58). -/
def SbSt.lostCount (b : SbSt) : Nat := if b.failed then 256 * b.map.length else b.lost.length

/-- `SLT_STACK_STATUS` of a stack (R188). -/
def State.stackStatus (s : State) (i : Nat) : Nat :=
  let t := s.stack i
  let mine := s.slate.sbs.filter (fun p => inStack i p.1)
  flag t.mounted 0 + flag t.readOnly 1 + flag t.noMount 2 + flag t.mirrorB 3 + flag t.unclean 4 +
  min 0xFFF ((mine.map (fun p => p.2.lostCount)).sum) * 2 ^ 8 + min 0xFFF (mine.countP (fun p => p.2.failed)) * 2 ^ 20

/-- `SPR_PORT_STATUS` of a port (R359). -/
def State.portStatus (s : State) (p : Nat) : Nat :=
  if s.part.variant.ports ≤ p then 0 else (s.port p).st + (s.port p).peer * 2 ^ 2 + (s.port p).lanesOk.toNat * 2 ^ 8

/-- `BRD_STATUS` (R414). -/
def State.brdStatus (s : State) : Nat :=
  flag s.tiers.trained 0 + flag s.tiers.unavailable 1 + s.tiers.rate.toNat * 2 ^ 2 + s.tiers.density.toNat * 2 ^ 4 + flag s.tiers.ranks2 6 +
  s.tiers.channels * 2 ^ 8

/-- `SEC_STATUS` (R467). -/
def State.secStatus (s : State) : Nat :=
  let x := s.sec
  x.lifecycle + flag x.recovery 3 + flag x.bootedCopy 4 + flag x.actTime.isSome 5 + flag x.stagingOk 6 + x.counter * 2 ^ 8 +
  x.secVersion * 2 ^ 16 + x.lastReset * 2 ^ 24

/-- `SEC_BOOT_FAIL` (R467). -/
def State.bootFail (s : State) : Nat :=
  let x := s.sec
  flag x.activeBad 0 + flag x.stagingBad 1 + flag x.rollback 2 + flag x.copyResumed 3 + flag x.watchdog 4

/-- A host DMA engine (R403). -/
def State.dma (s : State) (e : Nat) : DmaEngine := mgetD s.host.dma e DmaEngine.reset
/-- A change of a host DMA engine. -/
def updDma (e : Nat) (f : DmaEngine → DmaEngine) (s : State) : State :=
  { s with host := { s.host with dma := mset s.host.dma e (f (s.dma e)) } }

/-- A word of a DMA engine's block (R403). -/
def DmaEngine.word (d : DmaEngine) (o : Nat) : Nat :=
  match o with
  | 0x00 => d.ring.toNat % 2 ^ 32
  | 0x04 => d.ring.toNat / 2 ^ 32
  | 0x08 => flag d.enable 0 + d.sizeLog2.toNat * 2 + d.vector.toNat * 2 ^ 5
  | 0x10 => d.head % 4096 + flag d.halted 12 + flag d.busErr 13
  | _ => 0

/-! ## The map (R405) -/

/-- Does an offset lie in the counter blocks? -/
def isCounter (o : Nat) : Bool :=
  [(0x240, 0x280), (0x400, 0x540), (0x800, 0xC00), (0x1000, 0x2400), (0x30020, 0x30040), (0x40010, 0x40014), (0x40020, 0x40040),
   (0x50800, 0x51000), (0x60040, 0x60050), (0x60100, 0x60200)].any (fun r => decide (r.1 ≤ o) && decide (o < r.2))

/-- R396: the device ID. -/
def Variant.deviceId : Variant → Nat
  | .x => 0x4C40
  | .m => 0x4C41
  | .s => 0x4C42

/-- R396: what a 32-bit word of configuration space reads where the spec gives its content: the vendor and device ID at 0, the
revision ID and the class code at 8. The places are those of a PCI configuration header: PRESUMED (log 100), as is that no command
of the table reads them. -/
def State.configWord (s : State) (o : Nat) : Option Nat :=
  if o = 0 then some (0x1F5D + s.part.variant.deviceId * 2 ^ 16)
  else if o = 8 then some (s.part.stepping.toNat + 0x120000 * 2 ^ 8)
  else none

/-- What a BAR0 word reads; an offset that the map does not list reads 0 (R404, R405). -/
def State.bar0 (s : State) (o : Nat) : Nat :=
  if o = 0 then s.part.variant.code + s.part.stepping.toNat * 2 ^ 8 + 0x454C * 2 ^ 16
  else if o = 4 then s.readyWord
  else if o = 8 then s.fmtSticky.toNat
  else if o = 0x10 then s.host.bar2Lo.toNat
  else if o = 0x14 then s.host.bar2Base / 2 ^ 32
  else if 0x100 ≤ o ∧ o < 0x180 then s.planStatus ((o - 0x100) / 4)
  else if 0x200 ≤ o ∧ o < 0x240 then s.mdlStatus ((o - 0x200) / 4)
  else if isCounter o then mgetD s.cnt o 0
  else if 0x4000 ≤ o ∧ o < 0x6000 then s.exclWord ((o - 0x4000) / 128) ((o - 0x4000) % 128 / 4)
  else if 0x10000 ≤ o ∧ o < 0x11000 then (s.pair ((o - 0x10000) / 64)).word (o % 64)
  else if o = 0x20000 then s.tbu.now % 2 ^ 32
  else if o = 0x20004 then s.tbu.hiLatch.toNat
  else if o = 0x20008 then s.tbuStatus
  else if o = 0x2000C then s.tbuCfg
  else if o = 0x30000 then s.pwrStatus
  else if o = 0x30004 then s.pwrEntry
  else if o = 0x30008 then s.pwr.power.toNat + s.pwr.tj.toNat * 2 ^ 16
  else if o = 0x40000 then s.errStatus
  else if o = 0x40004 then s.errCfg
  else if o = 0x40008 then s.err.head
  else if o = 0x4000C then s.err.tail
  else if 0x41000 ≤ o ∧ o < 0x45000 then
    match mget s.err.ring ((o - 0x41000) / 64) with | some x => u x.bytes (o % 64) 4 | none => 0
  else if o = 0x50000 then s.sltCfg
  else if o = 0x50004 then s.stackStatus 0
  else if o = 0x50008 then s.stackStatus 1
  else if o = 0x60000 then s.groupStatusReg
  else if 0x60020 ≤ o ∧ o < 0x60040 then s.portStatus ((o - 0x60020) / 4)
  else if o = 0x70000 then s.brdStatus
  else if o = 0x70004 then s.tiers.chFail.toNat
  else if o = 0x80000 then s.secStatus
  else if o = 0x80008 then (s.sec.actTime.getD 0) % 2 ^ 32
  else if o = 0x8000C then (s.sec.actTime.getD 0) / 2 ^ 32
  else if o = 0x80010 then s.sec.lmsBlocks
  else if o = 0x80014 then s.bootFail
  else if 0x90000 ≤ o ∧ o < 0x90100 then (s.dma ((o - 0x90000) / 64)).word (o % 64)
  else 0

/-! ## Writes (R10, R404) -/

/-- The reserved bits of a word that a write must leave 0 (R10); none for an offset that the map does not list. -/
def reservedBits (o : Nat) : Option Nat :=
  if o = 0 then some 0
  else if o = 4 then some 0xFFFFF800
  else if o = 8 then some 0x7FFFFF80
  else if o = 0x10 then some 0
  else if o = 0x14 then some 0xFFFF0000
  else if 0x100 ≤ o ∧ o < 0x180 then some 0xFF0000E0
  else if 0x200 ≤ o ∧ o < 0x240 then some 0xFFC00000
  else if isCounter o then some 0
  else if 0x4000 ≤ o ∧ o < 0x6000 then some 0
  else if 0x10000 ≤ o ∧ o < 0x11000 then
    match o % 64 with
    | 0x00 => some 0
    | 0x04 => some 0
    | 0x08 => some 0
    | 0x0C => some 0
    | 0x10 => some 0x80
    | 0x14 => some 0xFFFFFC00
    | 0x18 => some 0xFFFFFC00
    | 0x1C => some 0xFF000000
    | _ => none
  else if o = 0x20000 ∨ o = 0x20004 then some 0
  else if o = 0x20008 then some 0xFFFFFF80
  else if o = 0x2000C then some 0xFC
  else if o = 0x30000 then some 0xE000
  else if o = 0x30004 then some 0xFFF00000
  else if o = 0x30008 then some 0
  else if o = 0x40000 then some 0xFFFE0000
  else if o = 0x40004 then some 0xFFFFC000
  else if o = 0x40008 ∨ o = 0x4000C then some 0xFFFFFF00
  else if 0x41000 ≤ o ∧ o < 0x45000 then some 0
  else if o = 0x50000 then some 0xC000
  else if o = 0x50004 ∨ o = 0x50008 then some 0xE0
  else if o = 0x60000 then some 0xC0000000
  else if 0x60020 ≤ o ∧ o < 0x60040 then some 0xFFFFF000
  else if o = 0x70000 then some 0xFFFFC080
  else if o = 0x70004 then some 0
  else if o = 0x80000 then some 0xF0808080
  else if o = 0x80008 ∨ o = 0x8000C then some 0
  else if o = 0x80010 then some 0xFFE00000
  else if o = 0x80014 then some 0xFFFFFFE0
  else if 0x90000 ≤ o ∧ o < 0x90100 then
    match o % 64 with
    | 0x00 => some 0
    | 0x04 => some 0
    | 0x08 => some 0xFFFF0000
    | 0x0C => some 0xFFFFF000
    | 0x10 => some 0xFFFFC000
    | _ => none
  else none

/-- R69, R106, R141, R189, R230, R288, R304, R331, R360, R417, R488, R498, R499: `clear_counters`. -/
def clearCounters (s : State) : State := { s with cnt := [], tbu := { s.tbu with ppsRejects := 0 } }

/-- R68: a write of `HUB_FMT_STICKY`. -/
def fmtStickyWrite (v : Nat) (s : State) : State :=
  let s := { s with fmtSticky := s.fmtSticky &&& ~~~ BitVec.ofNat 7 v }
  if bit v 31 then clearCounters s else s

/-- R399: a write of the high word applies the base, or discards it with the pending low word. -/
def bar2HiWrite (v : Nat) (s : State) : State :=
  let base := v * 2 ^ 32 + s.host.bar2Lo.toNat
  if v < 2 ^ 16 ∧ base % 2 ^ s.host.bar2SizeLog2 = 0 then { s with host := { s.host with bar2Base := base } }
  else hostAccess 0 0x14 v 0 { s with host := { s.host with bar2Lo := BitVec.ofNat 32 s.host.bar2Base } }

/-- R498: the host consumes ring entries. -/
def errHeadWrite (v : Nat) (s : State) : State :=
  let n := (v + 256 - s.err.head) % 256
  if 256 ≤ v ∨ s.err.entries < n then hostAccess 0 0x40008 v 0 s
  else { s with err := { s.err with head := v, entries := s.err.entries - n } }

/-- R361, R362: a write of a base register of a pair; while the pair is in service it may not change. -/
def baseWrite (q o v : Nat) (s : State) : State :=
  let p := s.pair q
  let low := if o = 0 then v % 64 else if o = 8 then v % 16 else 0
  if low ≠ 0 ∨ (p.enable = true ∧ p.word o ≠ v) then hostAccess 0 (qpOff q o) v 0 s
  else
    let put (b : Dword) : Dword := if o % 8 = 0 then BitVec.ofNat 64 (b.toNat / 2 ^ 32 * 2 ^ 32 + v) else BitVec.ofNat 64 (v * 2 ^ 32 + b.toNat % 2 ^ 32)
    updPair q (fun p => if o < 8 then { p with sqBase := put p.sqBase } else { p with cqBase := put p.cqBase }) s

/-- A write of a word of a pair's block (R361-R363). -/
def pairWrite (q o v : Nat) (s : State) : State :=
  match o with
  | 0x10 => if bit v 0 then qpEnableWrite q v s else qpDisableWrite q v s
  | 0x14 => sqTailWrite q v s
  | 0x18 => cqHeadWrite q v s
  | 0x1C => updPair q (fun p => { p with badDb := p.badDb && !bit v 1, ringErr := p.ringErr && !bit v 2 }) s
  | _ => baseWrite q o v s

/-- R183, R187: a write of `SLT_CFG`; a lower threshold may leave groups at 1.5 times it. -/
def sltCfgWrite (v : Nat) (s : State) : State :=
  let th := bits v 9 0
  let rb := bits v 13 10
  let ph := bits v 23 16
  if th < 10 ∨ 1000 < th ∨ rb < 1 ∨ 8 < rb ∨ ph < 1 ∨ 240 < ph ∨ v / 2 ^ 24 = 0 then hostAccess 0 0x50000 v 0 s
  else noteAllBlocked { s with slate := { s.slate with
    threshE8 := BitVec.ofNat 10 th, relocBits := BitVec.ofNat 4 rb, periodH := BitVec.ofNat 8 ph, ckptS := BitVec.ofNat 8 (v / 2 ^ 24) } }

/-! ### DMA engines (R402, R403) -/

/-- Entries of a DMA ring. -/
def DmaEngine.n (d : DmaEngine) : Nat := 2 ^ d.sizeLog2.toNat

/-- R402: the engine writes a descriptor's status, then `done`. -/
def dmaStatus (e i : Nat) (st : Status) (s : State) : State :=
  let a := (s.dma e).ring.toNat + 32 * i
  emit (.hostWrite (a + 26) [1]) (emit (.hostWrite (a + 24) (toLE 2 st.code)) s)

/-- The engine takes the next descriptor. -/
def dmaNext (e : Nat) (s : State) : State := updDma e (fun d => { d with head := (d.head + 1) % d.n }) s

/-- Has an engine a descriptor in hand: in service, not halted, its ring not empty? -/
def State.dmaBusy (s : State) (e : Nat) : Bool :=
  let d := s.dma e
  d.enable && !d.halted && decide (d.head ≠ d.tail)

/-- R403: the `enable` word written 1. It acts as the engine comes into service; while it is in service `size_log2` does not
change. DEDUCED (log 26). -/
def dmaEnableWrite (e v : Nat) (s : State) : State :=
  let d := s.dma e
  let size := bits v 4 1
  if size < 4 ∨ 12 < size ∨ (d.enable = true ∧ size ≠ d.sizeLog2.toNat) then hostAccess 0 (0x90000 + 64 * e + 8) v 0 s
  else updDma e (fun d => { d with
    enable := true, sizeLog2 := BitVec.ofNat 4 size, vector := BitVec.ofNat 11 (bits v 15 5)
    head := if d.enable then d.head else 0
    tail := if d.enable then d.tail else 0
    halted := d.enable && d.halted }) s

/-- R403: the `enable` word written 0: the current descriptor is written back with `ST_ABORTED`. -/
def dmaDisableWrite (e v : Nat) (s : State) : State :=
  let s := if s.dmaBusy e then dmaNext e (dmaStatus e (s.dma e).head .aborted s) else s
  updDma e (fun d => { d with enable := false, sizeLog2 := BitVec.ofNat 4 (bits v 4 1), vector := BitVec.ofNat 11 (bits v 15 5) }) s

/-- R403: a tail doorbell. -/
def dmaTailWrite (e v : Nat) (s : State) : State :=
  if (s.dma e).n ≤ v then hostAccess 0 (0x90000 + 64 * e + 0xC) v 0 s else updDma e (fun d => { d with tail := v }) s

/-- A write of a word of an engine's block (R403). -/
def dmaWrite (e o v : Nat) (s : State) : State :=
  match o with
  | 0x00 => if v % 32 ≠ 0 then hostAccess 0 (0x90000 + 64 * e) v 0 s
            else updDma e (fun d => { d with ring := BitVec.ofNat 64 (d.ring.toNat / 2 ^ 32 * 2 ^ 32 + v) }) s
  | 0x04 => updDma e (fun d => { d with ring := BitVec.ofNat 64 (v * 2 ^ 32 + d.ring.toNat % 2 ^ 32) }) s
  | 0x08 => if bit v 0 then dmaEnableWrite e v s else dmaDisableWrite e v s
  | 0x0C => dmaTailWrite e v s
  | 0x10 => updDma e (fun d => { d with busErr := d.busErr && !bit v 13 }) s
  | _ => s

/-! ### Every word -/

/-- What an accepted write of a listed word does; a read-only word ignores it. -/
def wordWrite (o v : Nat) (s : State) : State :=
  if o = 8 then fmtStickyWrite v s
  else if o = 0x10 then { s with host := { s.host with bar2Lo := BitVec.ofNat 32 v } }
  else if o = 0x14 then bar2HiWrite v s
  else if 0x100 ≤ o ∧ o < 0x180 then
    (if bit v 3 then updPlan ((o - 0x100) / 4) (fun p => { p with stalled := false }) s else s)
  else if 0x10000 ≤ o ∧ o < 0x11000 then pairWrite ((o - 0x10000) / 64) (o % 64) v s
  else if o = 0x20008 then { s with tbu := { s.tbu with holdoverSeen := s.tbu.holdoverSeen && !bit v 6 } }
  else if o = 0x2000C then
    { s with tbu := { s.tbu with
        ppsPol := bit v 0, refEn := bit v 1, ppsDelay := BitVec.ofNat 16 (bits v 23 8), refPresent := s.tbu.refPresent && bit v 1 } }
  else if o = 0x40000 then
    { s with err := { s.err with overrun := s.err.overrun && !bit v 5, dgSeen := s.err.dgSeen && !bit v 6, ctSeen := s.err.ctSeen && !bit v 7 } }
  else if o = 0x40004 then
    { s with err := { s.err with vector := BitVec.ofNat 11 v, irqEn := bit v 11, irqMin := BitVec.ofNat 2 (bits v 13 12) } }
  else if o = 0x40008 then errHeadWrite v s
  else if o = 0x50000 then sltCfgWrite v s
  else if o = 0x60000 then { s with spar := { s.spar with memberLost := s.spar.memberLost && !bit v 29 } }
  else if o = 0x80014 then
    { s with sec := { s.sec with
        activeBad := s.sec.activeBad && !bit v 0, stagingBad := s.sec.stagingBad && !bit v 1, rollback := s.sec.rollback && !bit v 2
        copyResumed := s.sec.copyResumed && !bit v 3, watchdog := s.sec.watchdog && !bit v 4 } }
  else if 0x90000 ≤ o ∧ o < 0x90100 then dmaWrite ((o - 0x90000) / 64) (o % 64) v s
  else s

/-- R10, R404: one 32-bit write: with a reserved bit set, or of an offset that the map does not list, it is discarded and
logged; with `bar2HiWrite` the pending low word goes too (R399). -/
def write32 (o v : Nat) (s : State) : State :=
  match reservedBits o with
  | none => hostAccess 0 o v 0 s
  | some m =>
    if o = 0x14 then bar2HiWrite v s
    else if Nat.land v m ≠ 0 then hostAccess 0 o v 0 s
    else wordWrite o v s

/-- R404: a write of a size at an offset: 64 bits as two words, the lower first; narrower than 32 bits, or not naturally
aligned, it is discarded and logged. -/
def barWrite (o size v : Nat) (s : State) : State :=
  if size = 8 ∧ o % 8 = 0 then write32 (o + 4) (v / 2 ^ 32) (write32 o (v % 2 ^ 32) s)
  else if size = 4 ∧ o % 4 = 0 then write32 o (v % 2 ^ 32) s
  else hostAccess 0 o (v % 2 ^ 32) 0 s

/-- REGISTER_WRITE (R404). -/
def execRegisterWrite (offset : Nat) (size : Nat) (value : Dword) (s : State) : Host.Outcome State Fault Refusal :=
  .next (busAccess (.write offset size value.toNat) 0 offset (value.toNat % 2 ^ 32) (barWrite offset size value.toNat) s)

/-- CLEAR_COUNTERS (R68): a write of `HUB_FMT_STICKY`. -/
def execClearCounters (value : Word) (s : State) : Host.Outcome State Fault Refusal :=
  .next (busAccess (.write 8 4 value.toNat) 0 8 value.toNat (write32 8 value.toNat) s)

/-- BAR2_BASE_HI_WRITE (R399). -/
def execBar2BaseHiWrite (value : Word) (s : State) : Host.Outcome State Fault Refusal :=
  .next (busAccess (.write 0x14 4 value.toNat) 0 0x14 value.toNat (bar2HiWrite value.toNat) s)

/-- BAR2_RESIZE (R394, R399): 2^30 to 2^39 bytes; a change sets the base to 0. -/
def execBar2Resize (sizeLog2 : Nat) (s : State) : Host.Outcome State Fault Refusal :=
  .next (if sizeLog2 < 30 ∨ 39 < sizeLog2 ∨ sizeLog2 = s.host.bar2SizeLog2 then s
    else { s with host := { s.host with bar2SizeLog2 := sizeLog2, bar2Base := 0, bar2Lo := 0 } })

/-- ERR_HEAD_WRITE (R498). -/
def execErrHeadWrite (value : Word) (s : State) : Host.Outcome State Fault Refusal :=
  .next (busAccess (.write 0x40008 4 value.toNat) 0 0x40008 value.toNat (errHeadWrite value.toNat) s)

/-! ## BAR2 and MSI-X -/

/-- R290, R399, R535: what an access through the BAR2 window does. -/
def bar2Access (write : Bool) (offset len : Nat) (data : Bytes) (s : State) : State :=
  let a := s.host.bar2Base + offset
  if write then hostWrite 2 offset a data s else let r := hostRead 2 offset a len s; emit (.readData r.1) r.2

/-- HOST_BAR2_ACCESS (R290, R399, R535). A read is of `len` bytes, a write of `data`; what lies beyond the window is no access of it. -/
def execHostBar2Access (write : Bool) (offset : Nat) (len : Nat) (data : Bytes) (s : State) : Host.Outcome State Fault Refusal :=
  .next (
    if 2 ^ s.host.bar2SizeLog2 < offset + (if write then data.length else len) then s
    else busAccess (.bar2 write offset len data) 2 offset (if write then leNat (data.take 4) else 0) (bar2Access write offset len data) s)

/-- R397: what a poisoned write does. -/
def poisonedWrite (bar offset : Nat) (s : State) : State :=
  emit .aerPoisoned (hostAccess bar offset 0 0 { s with host := { s.host with aerPoisoned := true } })

/-- POISONED_WRITE_TLP (R397). -/
def execPoisonedWriteTlp (bar : Nat) (offset : Nat) (s : State) : Host.Outcome State Fault Refusal :=
  .next (busAccess (.poisoned bar offset) bar offset 0 (poisonedWrite bar offset) s)

/-- MSIX_UNMASK (R400): what is pending is sent. No row sets MSI-X Enable: a host that unmasks a vector has set it. DESIGN
CHOICE (log 55). -/
def execMsixUnmask (vector : Nat) (s : State) : Host.Outcome State Fault Refusal :=
  .next (if 2048 ≤ vector then s
    else
      let pend := decide (vector ∈ s.host.pba)
      let s := { s with host := { s.host with msixEnable := true, unmasked := addOnce s.host.unmasked vector, pba := s.host.pba.filter (· ≠ vector) } }
      if pend then emit (.msix vector) s else s)

/-! ## Host DMA (R401-R403) -/

/-- DMA_ENABLE (R403). -/
def execDmaEnable (e : Nat) (value : Word) (s : State) : Host.Outcome State Fault Refusal :=
  .next (if 4 ≤ e || !bit value.toNat 0 then s
    else busAccess (.write (0x90000 + 64 * e + 8) 4 value.toNat) 0 (0x90000 + 64 * e + 8) value.toNat (write32 (0x90000 + 64 * e + 8) value.toNat) s)

/-- DMA_DISABLE (R403). -/
def execDmaDisable (e : Nat) (value : Word) (s : State) : Host.Outcome State Fault Refusal :=
  .next (if 4 ≤ e || bit value.toNat 0 then s
    else busAccess (.write (0x90000 + 64 * e + 8) 4 value.toNat) 0 (0x90000 + 64 * e + 8) value.toNat (write32 (0x90000 + 64 * e + 8) value.toNat) s)

/-- DMA_TAIL_DOORBELL (R403). -/
def execDmaTailDoorbell (e : Nat) (value : Word) (s : State) : Host.Outcome State Fault Refusal :=
  .next (if 4 ≤ e then s
    else busAccess (.write (0x90000 + 64 * e + 0xC) 4 value.toNat) 0 (0x90000 + 64 * e + 0xC) value.toNat (write32 (0x90000 + 64 * e + 0xC) value.toNat) s)

/-- R402: a host-side error stops an engine. -/
def dmaFault (e : Nat) (s : State) : State :=
  updDma e (fun d => { d with busErr := true, halted := true }) (dmaNext e (dmaStatus e (s.dma e).head .aborted s))

/-- R402: is a field of a descriptor out of range, or a reserved bit set? -/
def dmaBad (b : Bytes) : Bool :=
  let len := u b 16 4
  decide (len < 4) || decide (16777216 < len) || decide (len % 4 ≠ 0) || decide (8 ≤ u b 20 1) || decide (u b 21 3 ≠ 0) || decide (u b 27 5 ≠ 0)

/-- R402: a descriptor has ended; its interrupt is raised if asked for. -/
def dmaDone (e : Nat) (st : Status) (irq : Bool) (s : State) : State :=
  let s := dmaNext e (dmaStatus e (s.dma e).head st s)
  if irq then raiseVector (s.dma e).vector.toNat s else s

/-- DMA_DESCRIPTOR (R402): `data` is what a read of host memory gives, where the source is there; fewer bytes than the descriptor asks for
are those that came before the host side's error, and they stay written. -/
def execDmaDescriptor (e : Nat) (desc : BusRead) (data : BusRead) (s : State) : Host.Outcome State Fault Refusal :=
  .next (
    if 4 ≤ e || !s.dmaBusy e || decide (s.pwr.state ≠ .run) then s
    else match desc with
      | none => dmaFault e s
      | some b =>
        let b := slice b 0 32
        let fl := u b 20 1
        if dmaBad b then dmaDone e .badField (bit fl 2) s
        else
          let n := u b 16 4
          let r : Option (Bytes × State) :=
            if bit fl 0 then some (hostRead 2 0 (u b 0 8) n s) else data.map (fun x => (x.take n, s))
          match r with
          | none => dmaFault e s
          | some (x, s) =>
            let dst := u b 8 8
            let s := if x = [] then s else if bit fl 1 then hostWrite 2 0 dst x s else emit (.hostWrite dst x) s
            if x.length < n then dmaFault e s else dmaDone e .ok (bit fl 2) s)

/-- DMA_BUS_ERROR (R402). -/
def execDmaBusError (e : Nat) (s : State) : Host.Outcome State Fault Refusal :=
  .next (if 4 ≤ e || !s.dmaBusy e || decide (s.pwr.state ≠ .run) then s else dmaFault e s)

end Sys2Proof.Machine
end

