-- ==== Sys2Proof/Machine/Boot.lean ====
section
/-! DEFINITION. Sys2Proof/Machine/Boot.lean: resets, what Bedrock does at a boot, and the activation of firmware
(R138, R322, R374, R403, R412, R437-R442, R450-R457, R497). -/

namespace Sys2Proof.Machine

/-! ## Choosing the image (R440, R451) -/

/-- Sectors are copied from STAGING to ACTIVE. -/
def copySectors (l : List Nat) (s : State) : State :=
  forEach l (fun i s =>
    let b := s.flashRead (stagingBase + i * sectorBytes) sectorBytes
    flashProgram (activeBase + i * sectorBytes) b (flashErase (activeBase + i * sectorBytes) sectorBytes s)) s

/-- R451: the sectors whose `sector_dig` entries differ between STAGING and ACTIVE, and sector 0. -/
def State.sectorsToCopy (s : State) : List Nat :=
  let a := s.flashRead (activeBase + 4096) 3072
  let b := s.flashRead (stagingBase + 4096) 3072
  (List.range 384).filter (fun i => decide (i = 0) || decide (slice a (8 * i) 8 ≠ slice b (8 * i) 8))

/-- R440: is a region verified with a `sec_version` at or above the counter? -/
def State.bootable (s : State) (base : Nat) : Bool := s.imageOk base && decide (s.sec.counter ≤ pkgSec (s.flashRead base 8192))

/-- R440: a failed test is recorded. -/
def noteBad (staging : Bool) (s : State) : State :=
  if s.imageOk (if staging then stagingBase else activeBase) then { s with sec := { s.sec with rollback := true } }
  else if staging then { s with sec := { s.sec with stagingBad := true } }
  else { s with sec := { s.sec with activeBad := true } }

/-- R440: ACTIVE is booted, or STAGING is copied to it in full; none in recovery mode. -/
def tryActive (s : State) : Bool × State :=
  if s.bootable activeBase then (true, s)
  else
    let s := noteBad false s
    if s.bootable stagingBase then
      let s := copySectors (List.range 384) { s with sec := { s.sec with bootedCopy := true } }
      if s.bootable activeBase then (true, { s with sec := { s.sec with copyResumed := true } })
      else (false, noteBad false s)
    else (false, noteBad true s)

/-- R451: the activation copy; if ACTIVE then fails, every sector is copied. -/
def activationCopy (s : State) : State :=
  let s := copySectors s.sectorsToCopy { s with sec := { s.sec with bootedCopy := true } }
  if s.imageOk activeBase then s else copySectors (List.range 384) (noteBad false s)

/-- R440, R451: which image is booted: true for ACTIVE, false for recovery mode. `own` says that this boot is the warm restart
of the activation itself. The record stays pending where ACTIVE still fails: recovery mode comes before its clearing. -/
def chooseImage (own : Bool) (s : State) : Bool × State :=
  let s := { s with sec := { s.sec with bootedCopy := false } }
  if s.sec.actRecord then
    if s.bootable stagingBase then
      let s := activationCopy s
      if s.bootable activeBase then (true, { s with sec := { s.sec with actRecord := false, copyResumed := s.sec.copyResumed || !own } })
      else (false, noteBad false s)
    else
      let s := noteBad true s
      tryActive { s with sec := { s.sec with actRecord := false } }
  else tryActive s

/-! ## Coming up (R442, R453) -/

/-- R497: the kept fatal record becomes ring entry 0. -/
def placeKept (s : State) : State :=
  match s.err.kept with
  | some x => { s with err := { (s.err.place { x with prior := true } []).1 with kept := none } }
  | none => s

/-- R412: the board channels are trained: at the highest rate that every channel passes, else the tier is unavailable. -/
def trainBoard (env : BootEnv) (s : State) : State :=
  let n := s.part.variant.channels
  let fails (l : List Nat) : List Nat := (List.range n).filter (fun c => decide (c ∈ l))
  let density := if env.density = 3 then 2 else env.density
  let up (rate : BitVec 2) : State :=
    { s with tiers := { s.tiers with
        trained := true, unavailable := false, rate := rate, density := density, ranks2 := env.ranks2, channels := n, chFail := 0
        stored := some (rate, density, env.ranks2, n) } }
  if fails env.fail8533 = [] then up 2
  else if fails env.fail7500 = [] then up 1
  else if fails env.fail6400 = [] then up 0
  else
    let bad := fails env.fail6400
    let mask := bad.foldl (fun m c => m + 2 ^ c) 0
    record .dg 0x0503 { detail := detail32 (toLE 4 mask) } { s with tiers := { s.tiers with
      trained := false, unavailable := true, rate := 0, density := density, ranks2 := env.ranks2, channels := n - bad.length
      chFail := BitVec.ofNat 32 mask } }

/-- R508: the cells of an array that the boot set fails: every one where its own logic fails. -/
def failedCells (env : BootEnv) (a : Nat) : List Nat :=
  (List.range 1024).filter (fun c => decide (65536 + a ∈ env.bistFail) || decide (a * 1024 + c ∈ env.bistFail))

/-- R138, R442, R508, R509: the cells that the boot self-test fails join the stored mask, with one record for an array, and each
failed analogue check has its own. Both run at every cold boot, whatever image is chosen after them. -/
def bootBist (env : BootEnv) (s : State) : State :=
  forUpto 64 (fun a s => match failedCells env a with
    | [] => s
    | c :: l => record .dg 0x0901 { detail := detCell a (if 65536 + a ∈ env.bistFail then 0xFFFF else c) 0xFFFF }
        { s with exclStored := ((c :: l).map (a * 1024 + ·)).foldl addOnce s.exclStored })
    (noteAnalogue env.analogue.failed.toNat (if bit env.analogue.failed.toNat 0 then env.analogue.ports.toNat else 0) s)

/-- R138: every array takes its stored mask. -/
def loadMasks (s : State) : State :=
  forUpto 64 (fun a s => match s.exclStored.filter (fun x => decide (x / 1024 = a)) with
    | [] => s
    | l => updArr a (fun r => { r with excl := l.map (· % 1024) }) s) s

/-- R177: the sequence of the checkpoint that a stack mounts from. -/
def Stack.chosenSeq (t : Stack) (v : Variant) : Option Nat := (mountChoice v t.mirA t.mirB).map (fun useB => if useB then t.mirB.seq else t.mirA.seq)

/-- R322: a slot record left in COMMITTING is resolved against the chosen checkpoint of each stack that has one. -/
def resolveSlot (i : Nat) (seqs : List Nat) (r : Nat × Slot × Slot) (s : State) : State :=
  if seqs.all (fun x => decide (r.1 ≤ x)) then updSlot i (fun _ => r.2.2) s
  else if seqs.all (fun x => decide (x < r.1)) then updSlot i (fun _ => r.2.1) s
  else
    record .ft 0x0701 { scope := 4, detail := detail32 (toLE 2 i ++ toLE 2 r.2.1.epoch ++ toLE 2 r.2.2.epoch) }
      (updSlot i (fun _ => { r.2.1 with st := .broken }) s)

/-- R177: the record lines of a stack's mirrors that a mount cannot read. -/
def readMirrors (env : BootEnv) (i : Nat) (s : State) : State :=
  updStack i (fun t => { t with
    mirA := { t.mirA with unread := env.unreadA.filter (inStack i) }, mirB := { t.mirB with unread := env.unreadB.filter (inStack i) } }) s

/-- R177, R178, R184, R322, R330: both stacks mount and the slot records are settled. After power-off the first patrol of a stack
starts at once. -/
def mountAll (full : Bool) (env : BootEnv) (s : State) : State :=
  let s := forUpto 2 (readMirrors env) s
  let seqs := ((List.range 2).map (fun i => (s.stack i).chosenSeq s.part.variant)).filterMap id
  let s := forUpto 2 (fun i s =>
    let s := mountStack i s
    let up := (s.stack i).mounted
    setStackFatal i (!up) (setStackReady i up (if full && up then deviceJob 0 i s else s))) s
  let s := forEach s.models.records (fun r s => resolveSlot r.1 seqs r.2 s) s
  let s := { s with models := { s.models with
    records := []
    slots := mmap (fun i (m : Slot) => { m with lostTab := [], lostSoon := [], tables := [], lost := s.slotHasLoss i }) s.models.slots } }
  { s with err := { s.err with
      fatalSlot := s.models.slots.any (fun m => decide (m.2.st = SlotSt.broken)), fatalGroup := decide (s.spar.st = 3) } }

/-- R352, R452: the members are looked for from now on, unless an activation has suspended that. -/
def resumeLoss (s : State) : State :=
  if s.spar.suspended.isSome then s
  else { s with spar := { s.spar with lastTime := s.tbu.now, members := mmap (fun _ m => { m with lastStatus := s.tbu.now }) s.spar.members } }

/-- R442, R510: what a failed loop-back or sense reference of the boot takes out of service, once the ports train and the stacks have
mounted. -/
def bootChecks (env : BootEnv) (s : State) : State :=
  let f := env.analogue.failed.toNat
  let s := if bit f 0 then forEach ((portsIn env.analogue.ports.toNat).filter (· < s.part.variant.ports)) loopbackFails s else s
  if bit f 4 then failSenses (env.analogue.subbanks.filter (fun x => s.mountedAt (x / 9 / 1024))) s else s

/-- R442, R453: the functions that the firmware brings up. -/
def bringUp (full : Bool) (env : BootEnv) (s : State) : State :=
  let v := s.part.variant
  let s := { s with
    sec := { s.sec with started := false }
    ready := { s.ready with
      mbx := true, attest := s.sec.identity, codec := true, spar := decide (0 < v.ports), arraysW := true, arraysE := true
      tune := v.tune, boardMem := s.tiers.trained && !s.tiers.unavailable } }
  let s := mountAll full env (if 0 < v.ports then trainPorts true s else s)
  retarget (resumeLoss (if full then bootChecks env s else s))

/-- R440, R454: ACTIVE is booted: the counter advances and the firmware starts. Firmware that never sets `mbx` brings nothing
up (R441). -/
def startFirmware (full : Bool) (env : BootEnv) (s : State) : State :=
  let m := s.flashRead activeBase 8192
  let s := { s with sec := { s.sec with
    recovery := false, started := true, secVersion := pkgSec m, fwVersion := BitVec.ofNat 64 (u m 8 8), counter := max s.sec.counter (pkgSec m) } }
  let s := if full then trainBoard env s else s
  if env.mbxSet then bringUp full env s else s

/-- R455: Bedrock serves queue pair 0 itself. -/
def startRecovery (s : State) : State :=
  { s with
    sec := { s.sec with recovery := true, started := false, secVersion := 0, fwVersion := 0 }
    ready := { Ready.reset with mbx := true } }

/-- A boot (R437-R442): `full` at POR and PERST_N; `force` goes into recovery mode; `own` is the restart of an activation. What
the reset takes has gone already. -/
def bedrock (full force own : Bool) (cause : Nat) (env : BootEnv) (s : State) : State :=
  let lc := max s.sec.lifecycle s.sec.floor
  let s := { s with
    sec := { s.sec with
      lifecycle := lc, bootLifecycle := lc, lastReset := cause
      activeBad := s.sec.activeBad && !full, stagingBad := s.sec.stagingBad && !full, rollback := s.sec.rollback && !full
      copyResumed := s.sec.copyResumed && !full, watchdog := s.sec.watchdog && !full, bootedCopy := false }
    spar := { s.spar with roleWorker := if full then env.roleHigh else s.spar.roleWorker }
    pwr := { s.pwr with state := .run } }
  let s := loadMasks (if full then bootBist env (placeKept s) else placeKept s)
  if env.recoveryLow || s.sec.recoveryReq || force then startRecovery { s with sec := { s.sec with recoveryReq := false } }
  else
    let r := chooseImage own (redrawFlash s)
    if r.1 then startFirmware full env r.2 else startRecovery r.2

/-- R437, R526: a cold boot. A device that powers up at 115 degrees or above asserts THERMTRIP_N. -/
def coldBoot (cause : Nat) (env : BootEnv) (s : State) : State :=
  let s := loseCold s
  let s := { s with pwr := { Pwr.reset s.part.variant.tdp with state := .run } }
  if env.tjHot then emit .thermtripLow { s with pwr := { s.pwr with thermtrip := true, state := .off } }
  else bedrock true false false cause env s

/-- R437, R485: a warm restart. `PWR_STATUS` is reset except the cap; the measured values and the last entry stay. -/
def warmBoot (force own : Bool) (cause : Nat) (env : BootEnv) (s : State) : State :=
  let s := loseVolatile s
  let s := { s with pwr := { Pwr.reset s.part.variant.tdp with
    capW := s.pwr.capW, prochot := s.pwr.prochot, power := s.pwr.power, tj := s.pwr.tj
    entBlock := s.pwr.entBlock, entReason := s.pwr.entReason, entTarget := s.pwr.entTarget, entAborted := s.pwr.entAborted }
                    spar := { s.spar with suspended := if own then s.spar.suspended else none } }
  bedrock false force own cause env s

/-! ## Resets -/

/-- POWER_ON_RESET (R437): power applied, or the exit from OFF. -/
def execPowerOnReset (env : BootEnv) (s : State) : Host.Outcome State Fault Refusal := .next (coldBoot 0 env s)

/-- PERST_N (R397, R418, R437): as POR, but THERMTRIP_N stays latched; OFF is left by WAKE_N alone (R474). -/
def execPerstN (_kind : PerstKind) (env : BootEnv) (s : State) : Host.Outcome State Fault Refusal :=
  .next (if s.pwr.thermtrip || decide (s.pwr.state = .off) then s else coldBoot 1 env s)

/-- FLR (R316, R374, R403, R437): pairs are disabled and reset, stream contexts and tuning sessions are freed, commands that
have not started are dropped; plans go on, their steps without the streams, whose consumed submissions end with their contexts (R439). -/
def execFlr (s : State) : Host.Outcome State Fault Refusal :=
  .next (
    let gone := s.models.streams.filterMap (fun x => x.2.input.map (·.cmd))
    let s := forUpto 64 (fun q s => if mhas s.mbx.pairs q then disablePair q s else s) s
    let s := forEach (s.models.streams.map (·.1)) closeStream s
    let s := forEach (s.models.tunes.map (·.1)) (fun i s => endTune i false s) s
    { s with
      mbx := { s.mbx with pairs := [], cmds := s.mbx.cmds.filter (fun c => (c.running || !c.fromHost) && !decide (c.id ∈ gone)) }
      plans := mmap (fun _ p => { p with steps := mmap (fun _ k => { k with rows := [] }) p.steps }) s.plans
      host := { s.host with bar2Base := 0, bar2Lo := 0, msixEnable := false, unmasked := [], pba := [], dma := [] } })

/-- R436: may a warm restart begin: both banks idle, every ring complete? -/
def State.flashQuiet (s : State) : Bool :=
  s.flash.bank0.op.isNone && s.flash.bank1.op.isNone && s.slate.rings.all (fun r => decide (r.2.count ≤ r.2.done))

/-- R451, R507: have the steps ended, the rings, flash operations, checkpoints and the self-test round completed? -/
def State.quiesced (s : State) : Bool :=
  s.flashQuiet && s.plans.all (fun p => decide (p.2.steps = [])) && s.slate.stackW.ckpt.isNone && s.slate.stackE.ckpt.isNone &&
  s.maint.bistRound.isEmpty

/-- R451: the device restarts into the staged image. In recovery mode the first three items do not arise (R456). -/
def activate (env : BootEnv) (s : State) : State :=
  let t := s.sec.actTime
  let s := if s.sec.recovery then s else
    let s := forEach (s.models.streams.map (·.1)) abortHeld s
    forEach (s.maint.bist.map (·.cmd)) (fun id s => finish id .aborted 0 s) s
  let grouped := decide (s.spar.st = 1) || decide (s.spar.st = 2)
  let cause := if s.sec.recovery then 4 else 2
  warmBoot false true cause env { s with
    sec := { s.sec with actRecord := true }
    spar := { s.spar with suspended := if grouped then t else s.spar.suspended } }

/-- ACTIVATION (R450, R451): T_a has come. With a stage session open it is deferred; until the device has come to rest it waits. -/
def execActivation (t : Nat) (env : BootEnv) (s : State) : Host.Outcome State Fault Refusal :=
  .next (
    let s := reachTime t s
    match s.sec.actTime with
    | none => s
    | some ta =>
      if decide (s.tbu.now < ta) || s.sec.actDeferred then s
      else if s.models.stage.isSome then { s with sec := { s.sec with actDeferred := true } }
      else if (if s.sec.recovery then s.flashQuiet else s.quiesced) then activate env s
      else s)

/-- R441: Bedrock restarts the device into recovery mode. -/
def watchdogRestart (env : BootEnv) (s : State) : State :=
  if s.sec.started && !s.ready.mbx && !s.pwr.thermtrip && decide (s.pwr.state = .run) && s.flashQuiet then
    warmBoot true false 5 env { s with sec := { s.sec with watchdog := true } }
  else s

/-- BOOT_WATCHDOG (R441). -/
def execBootWatchdog (env : BootEnv) (s : State) : Host.Outcome State Fault Refusal := .next (watchdogRestart env s)

/-- R457: the recorded request restarts the device once nothing forbids it (R436). -/
def recoveryRestart (env : BootEnv) (s : State) : State :=
  if s.sec.recoveryReq && s.flashQuiet then warmBoot true false 3 env s else s

/-- WARM_RESTART (R437): the restart of each cause, where its cause stands. -/
def execWarmRestart (cause : WarmCause) (env : BootEnv) (s : State) : Host.Outcome State Fault Refusal :=
  match cause with
  | .activation => if s.sec.recovery then .next s else execActivation s.tbu.now env s
  | .recoveryRequest => .next (recoveryRestart env s)
  | .recoveryActivation => if s.sec.recovery then execActivation s.tbu.now env s else .next s
  | .watchdog => .next (watchdogRestart env s)

/-- ACTIVATION_RETURN_TIMEOUT (R452): a member not heard again by T_a + 3 s is lost. -/
def execActivationReturnTimeout (member : Nat) (t : Nat) (s : State) : Host.Outcome State Fault Refusal :=
  .next (
    let s := reachTime t s
    match s.spar.suspended with
    | none => s
    | some ta =>
      if s.tbu.now < ta + 3 * secondNs then s
      else if s.spar.st = 1 then
        match mget s.spar.members member with
        | some m => if decide (member ≠ s.spar.member) && decide (m.st = 1) && decide (m.lastStatus ≤ ta) then loseMember member s else s
        | none => s
      else if s.spar.st = 2 then
        if decide (member = s.spar.manager) && decide (s.spar.lastTime ≤ ta) then orphan s else s
      else s)

/-! ## The exit from a low-power state (R471-R474, R480) -/

/-- R472: the refused requests of a DEEP_SLEEP are recorded. -/
def logRefused (s : State) : State :=
  forEach s.pwr.refused (fun r s => hostAccess r.1 r.2.1 r.2.2 0 s) { s with pwr := { s.pwr with refused := [] } }

/-- The ready bits that a domain raises as it returns (R480). -/
def raiseReady (domain : Nat) (s : State) : State :=
  let r := s.ready
  let r := match domain with
    | 1 => { r with mbx := true, codec := true, attest := s.sec.identity, tune := s.part.variant.tune }
    | 2 => { r with slateW := s.slate.stackW.mounted, slateE := s.slate.stackE.mounted }
    | 3 => { r with arraysW := true, arraysE := true }
    | 4 => { r with spar := decide (0 < s.part.variant.ports) }
    | _ => { r with boardMem := s.tiers.trained && !s.tiers.unavailable }
  { s with ready := r }

/-- R474: maintenance that fell due in DEEP_SLEEP starts. -/
def startDue (s : State) : State :=
  forEach s.pwr.due (fun d s => if d.1 = 7 then startCkpt d.2 false false none s else deviceJob d.1 d.2 s) { s with pwr := { s.pwr with due := [] } }

/-- R471: an access that was held is completed. -/
def completeAccess (x : HostAcc) (s : State) : State :=
  match x with
  | .write o n v => barWrite o n v s
  | .bar2 w o n d => bar2Access w o n d s
  | .poisoned b o => poisonedWrite b o s
  | .timeRead => timeRead s

/-- R471, R472, R474, R478, R480: the last domain has returned: the mailbox fetches again, and what was put off follows. -/
def endWake (s : State) : State :=
  let l := s.pwr.held
  forEach l completeAccess (startDue (logRefused { s with
    mbx := { s.mbx with quiet := false }, pwr := { s.pwr with waking := false, wakeStep := 0, held := [] } }))

/-- WAKE_EXIT (R480): the domains return in order: 1 hub, 2 Slate controllers, 3 arrays, 4 Spar, 5 board memory. Spar ports that a
deeper state than IDLE took down train again (log 65). -/
def execWakeExit (domain : Nat) (s : State) : Host.Outcome State Fault Refusal :=
  .next (if s.pwr.waking && decide (domain = s.pwr.wakeStep + 1) && decide (domain ≤ 5) then
      let s := raiseReady domain { s with pwr := { s.pwr with wakeStep := domain } }
      let s := if domain = 4 then trainPorts false s else s
      if domain = 5 then endWake s else s
    else s)

end Sys2Proof.Machine
end

