-- ==== Sys2Proof/Machine/Sideband.lean ====
section
/-! DEFINITION. Sys2Proof/Machine/Sideband.lean: the SMBus port, MCTP, the SPDM responder and JTAG (R407, R408, R419, R457,
R465, R466, R474). -/

namespace Sys2Proof.Machine

/-! ## SMBus (R407, R408) -/

/-- Does the SMBus port answer: the device is in RUN, IDLE or SLEEP, its low-power exit complete? In RUN it answers as soon as
the boot has come so far, and in recovery mode (R408, R455, R474). -/
def State.smbusUp (s : State) : Bool :=
  !s.pwr.waking && (decide (s.pwr.state = .run) || decide (s.pwr.state = .idle) || decide (s.pwr.state = .sleep))

/-- The 32-byte telemetry record (R407). -/
def State.telemetry (s : State) : Bytes :=
  toLE 2 s.pwr.tj.toNat ++ toLE 2 s.pwr.power.toNat ++ toLE 1 s.pwr.state.code ++ toLE 3 0 ++ toLE 4 s.readyWord ++ toLE 4 s.tbuStatus ++
  toLE 4 s.errStatus ++ toLE 12 0

/-- SMBUS_TELEMETRY_REQUEST (R407): it wakes nothing (R474). -/
def execSmbusTelemetryRequest (s : State) : Host.Outcome State Fault Refusal :=
  .next (if s.smbusUp then emit (.smbus s.telemetry) s else s)

/-- SMBUS_RECOVERY_REQUEST (R457): recorded, every plan halted, answered, and the device restarts into recovery mode as soon as
R436 lets it. In recovery mode it is answered and ignored. -/
def execSmbusRecoveryRequest (env : BootEnv) (s : State) : Host.Outcome State Fault Refusal :=
  .next (
    if !s.smbusUp then s
    else if s.sec.recovery then emit (.smbus [0]) s
    else
      let s := haltAll (wakeEvent false s)
      recoveryRestart env (emit (.smbus [0]) { s with sec := { s.sec with recoveryReq := true } }))

/-- MCTP_CONTROL_MESSAGE (R407): answered as the MCTP standard fixes; firmware handles it, so it wakes the device (R474). -/
def execMctpControlMessage (msg : Bytes) (s : State) : Host.Outcome State Fault Refusal :=
  .next (if s.smbusUp then emit (.smbus (Config.mctpBody msg)) (wakeEvent false s) else s)

/-- SMBUS_ADDRESS_MATCH (R407, R408, R479): other addresses are ignored. In DEEP_SLEEP the byte is NAKed and wakes the device,
unless it falls in the final window of the entry; in OFF, and until an exit is complete, it is NAKed. -/
def execSmbusAddressMatch (addr : BitVec 7) (inLatchWindow : Bool) (s : State) : Host.Outcome State Fault Refusal :=
  .next (
    if s.pwr.state = .off then emit .smbusNak s
    else if addr ≠ s.part.smbusAddr then s
    else if s.pwr.state = .deepSleep then emit .smbusNak (if inLatchWindow then s else wakeEvent true s)
    else if s.pwr.waking then emit .smbusNak s
    else s)

/-! ## SPDM (R465, R466) -/

/-- The connection of a transport. -/
def State.spdm (s : State) (tr : Transport) : Spdm := match tr with | .doe => s.sec.doe | .smbus => s.sec.smbus
/-- A change of a connection. -/
def updSpdm (tr : Transport) (f : Spdm → Spdm) (s : State) : State :=
  match tr with
  | .doe => { s with sec := { s.sec with doe := f s.sec.doe } }
  | .smbus => { s with sec := { s.sec with smbus := f s.sec.smbus } }

/-- R465: does the responder answer on a transport? DOE lies in configuration space, SMBus under R407. -/
def State.spdmUp (s : State) (tr : Transport) : Bool :=
  s.ready.attest && !s.sec.recovery && (match tr with | .doe => decide (s.pwr.state ≠ .off) | .smbus => s.smbusUp)

/-- SPDM request codes, as SPDM 1.2 has them. PRESUMED (log 56). -/
def spdmGetVersion : Nat := 0x84
def spdmGetCapabilities : Nat := 0xE1
def spdmNegotiate : Nat := 0xE3
def spdmGetDigests : Nat := 0x81
def spdmGetCertificate : Nat := 0x82
def spdmChallenge : Nat := 0x83
def spdmGetMeasurements : Nat := 0xE0

/-- R465: the four measurements: index 1 to 4, with SHA-384 digests of the ROM, of ACTIVE's signed region, of the security
configuration and of the lifecycle state. What bytes stand for the first, third and fourth is DESIGN CHOICE (log 56). -/
def State.measurement (s : State) (i : Nat) : Bytes :=
  match i with
  | 1 => Config.sha384 Config.romImage
  | 2 => s.activeDigest
  | 3 => Config.sha384 (s.part.fwEcdsaHash ++ s.part.fwLmsHash ++ s.part.ownEcdsaHash ++ s.part.ownLmsHash ++ toLE 1 s.sec.counter)
  | _ => Config.sha384 (toLE 1 s.sec.lifecycle)

/-- A request that is answered. `need` is the stage the connection must have reached, `stage` the one it reaches. A request out
of its order is answered with an error and changes nothing. The transcript takes the request and the response. The body of a
response is what the standard fixes; what it carries of the device is given to it. PRESUMED (log 56). -/
def answerSpdm (tr : Transport) (code need stage : Nat) (req : Bytes) (given : State → Bytes) (s : State) : State :=
  if !s.spdmUp tr then s
  else
    let s := if tr = .smbus then wakeEvent false s else s
    let c := s.spdm tr
    if c.stage < need then emit (.spdm tr (Config.spdmBody 0x7F req c.transcript)) s
    else
      let body := Config.spdmBody code (req ++ given s) c.transcript
      let old := if code = spdmGetVersion then [] else c.transcript
      emit (.spdm tr body) (updSpdm tr (fun c => { c with stage := max stage (if code = spdmGetVersion then 0 else c.stage), transcript := old ++ req ++ body }) s)

/-- R466: a signed exchange: the response carries a signature of the transcript's hash, and the last four hashes are kept. -/
def signSpdm (tr : Transport) (code : Nat) (req : Bytes) (given : State → Bytes) (s : State) : State :=
  if !s.spdmUp tr then s
  else
    let s := if tr = .smbus then wakeEvent false s else s
    let c := s.spdm tr
    if c.stage < 3 then emit (.spdm tr (Config.spdmBody 0x7F req c.transcript)) s
    else
      let d := drawBytes 32 s
      let body := Config.spdmBody code (req ++ given s ++ d.1) c.transcript
      let hash := Config.sha384 (c.transcript ++ req ++ body)
      let s := d.2
      emit (.spdm tr (body ++ slice (Config.ecdsaSign s.free hash) 0 96))
        (updSpdm tr (fun c => { c with transcript := if code = spdmChallenge then [] else c.transcript, hashes := (c.hashes ++ [hash]).drop (c.hashes.length - 3) })
          { s with free := s.free + 1 })

/-- GET_VERSION: it begins a connection anew. -/
def execGetVersion (tr : Transport) (req : Bytes) (s : State) : Host.Outcome State Fault Refusal :=
  .next (answerSpdm tr spdmGetVersion 0 1 req (fun _ => []) s)
/-- GET_CAPABILITIES: CERT_CAP, CHAL_CAP, MEAS_CAP with signature. -/
def execGetCapabilities (tr : Transport) (req : Bytes) (s : State) : Host.Outcome State Fault Refusal :=
  .next (answerSpdm tr spdmGetCapabilities 1 2 req (fun _ => []) s)
/-- NEGOTIATE_ALGORITHMS: ECDSA P-384 and SHA-384. -/
def execNegotiateAlgorithms (tr : Transport) (req : Bytes) (s : State) : Host.Outcome State Fault Refusal :=
  .next (answerSpdm tr spdmNegotiate 2 3 req (fun _ => []) s)
/-- GET_DIGESTS: of slot 0. -/
def execGetDigests (tr : Transport) (req : Bytes) (s : State) : Host.Outcome State Fault Refusal :=
  .next (answerSpdm tr spdmGetDigests 3 3 req (fun s => Config.sha384 (Config.certificate s.part.serial.toNat)) s)
/-- GET_CERTIFICATE: from slot 0. -/
def execGetCertificate (tr : Transport) (req : Bytes) (s : State) : Host.Outcome State Fault Refusal :=
  .next (answerSpdm tr spdmGetCertificate 3 3 req (fun s => Config.certificate s.part.serial.toNat) s)
/-- CHALLENGE. -/
def execChallenge (tr : Transport) (req : Bytes) (s : State) : Host.Outcome State Fault Refusal :=
  .next (signSpdm tr spdmChallenge req (fun s => Config.sha384 (Config.certificate s.part.serial.toNat)) s)
/-- GET_MEASUREMENTS: signed, of the four indices. -/
def execGetMeasurements (tr : Transport) (req : Bytes) (s : State) : Host.Outcome State Fault Refusal :=
  .next (signSpdm tr spdmGetMeasurements req (fun s => [1, 2, 3, 4].flatMap s.measurement) s)

/-! ## JTAG (R419) -/

/-- The instructions of the JTAG port. Their codes are not given: 0 BYPASS, 1 IDCODE, 2 EXTEST, 3 SAMPLE/PRELOAD, 4 a debug
instruction of the management cores, 5 internal scan; any other selects BYPASS. DESIGN CHOICE (log 57). -/
def jtagAllowed (lc ir : Nat) : Bool :=
  match ir with
  | 0 => true
  | 1 => true
  | 2 | 3 => decide (lc ≠ lcScrapped)
  | 4 | 5 => decide (lc ∈ [lcBlank, lcManufacture, lcReturned])
  | _ => false

/-- `IDCODE` (R419). -/
def State.idcode (s : State) : Nat :=
  s.part.stepping.toNat % 16 * 2 ^ 28 + (0xE400 + s.part.variant.code) * 2 ^ 12 + 0x2A6 * 2 + 1

/-- JTAG_INSTRUCTION (R419): one that the lifecycle state read at boot does not permit selects BYPASS. -/
def execJtagInstruction (ir : Nat) (s : State) : Host.Outcome State Fault Refusal :=
  .next { s with sec := { s.sec with jtag := if jtagAllowed s.sec.bootLifecycle ir then ir else 0 } }

end Sys2Proof.Machine
end

