-- ==== Sys2Proof/Machine/Forward.lean ====
section
/-! DEFINITION. Sys2Proof/Machine/Forward.lean: commands that reach this device over Spar, and the results that come back to
the manager of a group (R376, R377). -/

namespace Sys2Proof.Machine

/-! ## On the member -/

/-- An opcode that is never sent to a member completes there with `ST_BAD_FIELD` (R377). -/
def notForwarded (c : Cmd) (s : State) : Reply := checked c false [(true, .badField)] s (.done .badField 0 s)

/-- The body of a forwarded command, by its opcode (R376, R378). -/
def memberBody (pay : BusRead) (c : Cmd) (s : State) : Reply :=
  match c.op with
  | 0x0000 => checked c false [(c.argReserved 0 0 0 0 0 || decide (c.sub.payLen ≠ 0), .badField)] s (.done .ok 0 s)
  | 0x0001 => identify c s
  | 0x0003 => powerSet c s
  | 0x0100 => modelCreate c s
  | 0x0101 => modelStageBegin pay c s
  | 0x0102 => modelShard pay c s
  | 0x0103 => modelStageEnd c s
  | 0x0105 => modelAbort c s
  | 0x0106 => modelRepair pay c s
  -- the manager's own undoing of a creation names the creation it undoes
  | 0x0107 => if c.arg 4 ≠ 0 ∧ (s.slot (c.fld 0 3 0)).count ≠ c.arg 4 then .done .wrongState 0 s else modelDelete c s
  | 0x0200 => adapterLoad pay c s
  | 0x0201 => adapterDrop c s
  | 0x0400 => planLoad pay c s
  | 0x0401 => planStart c s
  | 0x0402 => planStop c s
  | 0x0500 => if c.fld 0 3 0 = 1 then objectFree c s else objectAlloc c s
  | 0x0501 => objectMigrate c s
  | 0x0600 => maintStart c s
  | 0x0601 => maintStatus c s
  | 0x0700 => if bit (c.arg 0) 0 then groupDissolve c s else notForwarded c s
  | 0x0701 => if c.fld 0 1 0 = 1 then groupReclaim c s else groupLend c s
  | 0x0800 => fwStage pay c s
  | 0x0801 => fwDelta pay c (redrawFlash s)
  | 0x0802 => fwVerify c (redrawFlash s)
  | 0x0803 => fwActivate c s
  | 0x0900 => attest pay c s
  | 0x0901 => lifecycleSet pay c s
  | 0x0A00 => selftest c s
  | _ => notForwarded c s

/-- A forwarded entry is taken in as a command of its sender (R377). -/
def acceptForwarded (src : Nat) (entry : Bytes) (s : State) : Cmd × State :=
  let c : Cmd := { id := s.mbx.nextId, origin := .spar src, sub := parseSub (slice entry 0 64), running := false, discard := false, fwdTo := none }
  (c, { s with mbx := { s.mbx with cmds := s.mbx.cmds ++ [c], nextId := s.mbx.nextId + 1 } })

/-- R377: a forwarded command is carried out; a reserved opcode completes with `ST_BAD_OPCODE` (R378). -/
def runForwarded (src : Nat) (entry : Bytes) (pay : BusRead) (s : State) : State :=
  let a := acceptForwarded src entry s
  if a.1.op ∉ opcodes then finish a.1.id .badOpcode 0 a.2
  else
    let t := carryOut a.1 (memberBody pay) a.2
    if s.pwr.entry.isNone && t.pwr.entry.isSome then askBlocks 12 t else t

/-- FORWARDED_COMMAND (R377, R479): it reaches a worker from its manager, and wakes the device. -/
def execForwardedCommand (src : Nat) (entry : Bytes) (pay : BusRead) (s : State) : Host.Outcome State Fault Refusal :=
  .next (if decide (s.spar.st ≠ 2) || decide (src ≠ s.spar.manager) then s else runForwarded src entry pay (wakeEvent false s))

/-! ## On the manager -/

/-- The command that a returning result belongs to (R377). -/
def State.sentCmd (s : State) (r : CmdRef) : Option Cmd :=
  s.mbx.cmds.find? (fun c => decide (c.origin = .host r.q) && decide (c.sub.tag = r.tag))

/-- R377, R381, R394: the member's output goes into the buffer that the command names. -/
def putMember (c : Cmd) (b : Bytes) (s : State) : State :=
  if c.op = 0x0900 ∨ c.op = 0x0106 then putOut c false (c.arg 1) b s else putPay c b s

/-- R300: the manager keeps what a member lends to it or to all, and drops a lend that the member has taken back. -/
def noteLend (c : Cmd) (member id : Nat) (s : State) : State :=
  if c.fld 0 1 0 = 1 then { s with tiers := { s.tiers with lends := s.tiers.lends.filter (fun l => !(decide (l.id = c.arg 1) && decide (l.lender = member))) } }
  else if bit (c.arg 0) 9 || decide (c.fld 0 8 3 = s.spar.member) then addLend id member (c.arg 1) s
  else s

/-- R377: the completion of a command that was sent to one member. -/
def endForwarded (c : Cmd) (member : Nat) (status : Half) (result : Dword) (out : Bytes) (s : State) : State :=
  let s := putMember c out s
  let s := if decide (c.op = 0x0701) && decide (status = 0) then noteLend c member result.toNat s else s
  finishWith c.id status.toNat 0 result.toNat s

/-- R195, R307, R334, R450: what this device does when the last member has done its part of a group-wide command. -/
def wideLocal (c : Cmd) (s : State) : State :=
  let res := mgetD s.spar.results c.id 0
  match c.op with
  | 0x0100 => createSlot c (res % 16) (res / 16 % 2 ^ 52) s
  | 0x0401 => beginPlan (c.fld 0 4 0) (c.arg 1) s
  | 0x0803 => scheduleAll (c.arg 0) s
  | _ => s

/-- A submission that the manager itself sends to undo a group-wide command. -/
def undoSub (op a0 a4 : Nat) : Submission :=
  { opcode := BitVec.ofNat 16 op, tag := 0, flags := 0, res := 0, seq := 0, payLen := 0, payAddr := 0, a0 := BitVec.ofNat 64 a0,
    a1 := 0, a2 := 0, a3 := 0, a4 := BitVec.ofNat 64 a4 }

/-- R195, R307, R317, R376: a group-wide command that a member rejects takes effect on no member. -/
def wideUndo (c : Cmd) (s : State) : State :=
  let res := mgetD s.spar.results c.id 0
  match c.op with
  | 0x0100 => toOthers (.forward ownRef (subBytes (undoSub 0x0107 (res % 16) (res / 16 % 2 ^ 52))) []) s
  | 0x0401 => toOthers (.forward ownRef (subBytes (undoSub 0x0402 (c.fld 0 4 0 + 256) 0)) []) s
  | _ => s

/-- R307: a member's answer to a creation. `ST_NO_RESOURCE` says that its slot is not EMPTY: once every member has answered, the
creation is undone where it was done and the next slot upwards is asked for. Bit 64 of the held result marks such an answer. -/
def createResult (c : Cmd) (member : Nat) (status : Half) (s : State) : State :=
  let l := mgetD s.spar.waits c.id []
  let held := mgetD s.spar.results c.id 0
  let taken := decide (status ≠ 0) || decide (2 ^ 64 ≤ held)
  if !l.all (fun m => decide (m = member)) then
    waitDone c.id member 0 { s with spar := { s.spar with results := mset s.spar.results c.id (held % 2 ^ 64 + if taken then 2 ^ 64 else 0) } }
  else if !taken then waitDone c.id member 0 (wideLocal c s)
  else
    let s := wideUndo c s
    match s.emptySlotFrom (held % 16 + 1) with
    | some i => askCreate c i (held / 16 % 2 ^ 52) s
    | none => waitDone c.id member Status.noResource.code s

/-- R308: every member has answered that it can delete the model, and every member does; then the deletions end. -/
def deleteResult (c : Cmd) (member : Nat) (s : State) : State :=
  let l := mgetD s.spar.waits c.id []
  if !l.all (fun m => decide (m = member)) || decide (mgetD s.spar.results c.id 0 ≠ 2 ^ 64) then waitDone c.id member 0 s
  else
    let s := sendMembers c (s.wideMembers c) true 0 0 [] { s with spar := { s.spar with results := mdel s.spar.results c.id } }
    ckptBoth (some (c.id, 0)) (unmapSlot (c.fld 0 3 0) s)

/-- A member's answer to a group-wide command (R376). -/
def wideResult (c : Cmd) (member : Nat) (status : Half) (s : State) : State :=
  let l := mgetD s.spar.waits c.id []
  if c.op = 0x0100 ∧ (status = 0 ∨ status.toNat = Status.noResource.code) then createResult c member status s
  else if c.op = 0x0107 ∧ status = 0 then deleteResult c member s
  else if status ≠ 0 then
    let s := waitDone c.id member status.toNat (wideUndo c s)
    if c.op = 0x0101 then rejectStage member s else s
  else if l.all (fun m => decide (m = member)) then
    let s := waitDone c.id member 0 (wideLocal c s)
    if c.op = 0x0700 then leaveGroup s else s
  else waitDone c.id member 0 s

/-- FORWARDED_RESULT (R376, R377). -/
def execForwardedResult (member : Nat) (r : CmdRef) (status : Half) (result : Dword) (output : Bytes) (s : State) : Host.Outcome State Fault Refusal :=
  .next (if s.spar.st ≠ 1 then s
    else match s.sentCmd r with
      | none => s
      | some c =>
        if c.fwdTo = some member then endForwarded c member status result output s
        else if member ∈ mgetD s.spar.waits c.id [] then wideResult c member status s
        else if c.op = 0x0103 ∧ status ≠ 0 ∧ s.models.stage.any (fun g => decide (g.endCmd = some c.id)) = true then abortAll s
        else s)

end Sys2Proof.Machine
end

