-- ==== Sys2Proof/Machine/Dispatch.lean ====
section
/-! DEFINITION. Sys2Proof/Machine/Dispatch.lean: one arm per command; each calls the meaning of its row. -/

namespace Sys2Proof.Machine

def exec (i : Instr) (s : State) : Host.Outcome State Fault Refusal :=
  match i with
  | .nop r => Sys2Proof.Machine.execNop r s
  | .identify r => Sys2Proof.Machine.execIdentify r s
  | .timeSet r => Sys2Proof.Machine.execTimeSet r s
  | .powerSet r => Sys2Proof.Machine.execPowerSet r s
  | .modelCreate r => Sys2Proof.Machine.execModelCreate r s
  | .modelStageBegin r pay => Sys2Proof.Machine.execModelStageBegin r pay s
  | .modelShard r pay => Sys2Proof.Machine.execModelShard r pay s
  | .modelStageEnd r => Sys2Proof.Machine.execModelStageEnd r s
  | .modelCommit r => Sys2Proof.Machine.execModelCommit r s
  | .modelAbort r => Sys2Proof.Machine.execModelAbort r s
  | .modelRepair r pay => Sys2Proof.Machine.execModelRepair r pay s
  | .modelDelete r => Sys2Proof.Machine.execModelDelete r s
  | .adapterLoad r pay => Sys2Proof.Machine.execAdapterLoad r pay s
  | .adapterDrop r => Sys2Proof.Machine.execAdapterDrop r s
  | .tuneStart r pay => Sys2Proof.Machine.execTuneStart r pay s
  | .tuneStop r => Sys2Proof.Machine.execTuneStop r s
  | .streamOpen r pay => Sys2Proof.Machine.execStreamOpen r pay s
  | .streamClose r => Sys2Proof.Machine.execStreamClose r s
  | .streamSubmit r pay => Sys2Proof.Machine.execStreamSubmit r pay s
  | .submitPayloadPlaced stream t => Sys2Proof.Machine.execSubmitPayloadPlaced stream t s
  | .planLoad r pay => Sys2Proof.Machine.execPlanLoad r pay s
  | .planStart r => Sys2Proof.Machine.execPlanStart r s
  | .planStop r => Sys2Proof.Machine.execPlanStop r s
  | .objectPlaceAlloc r => Sys2Proof.Machine.execObjectPlaceAlloc r s
  | .objectPlaceFree r => Sys2Proof.Machine.execObjectPlaceFree r s
  | .objectMigrate r => Sys2Proof.Machine.execObjectMigrate r s
  | .pageCopyComplete obj => Sys2Proof.Machine.execPageCopyComplete obj s
  | .maintStart r => Sys2Proof.Machine.execMaintStart r s
  | .maintStatus r => Sys2Proof.Machine.execMaintStatus r s
  | .groupForm r pay => Sys2Proof.Machine.execGroupForm r pay s
  | .groupFormDissolve r => Sys2Proof.Machine.execGroupFormDissolve r s
  | .groupLend r => Sys2Proof.Machine.execGroupLend r s
  | .groupLendReclaim r => Sys2Proof.Machine.execGroupLendReclaim r s
  | .groupStatus r => Sys2Proof.Machine.execGroupStatus r s
  | .fwStage r pay => Sys2Proof.Machine.execFwStage r pay s
  | .fwDelta r pay => Sys2Proof.Machine.execFwDelta r pay s
  | .fwVerify r => Sys2Proof.Machine.execFwVerify r s
  | .fwActivate r => Sys2Proof.Machine.execFwActivate r s
  | .attest r pay => Sys2Proof.Machine.execAttest r pay s
  | .lifecycleSet r pay => Sys2Proof.Machine.execLifecycleSet r pay s
  | .selftest r => Sys2Proof.Machine.execSelftest r s
  | .commandFetch entry => Sys2Proof.Machine.execCommandFetch entry s
  | .forwardedCommand src entry pay => Sys2Proof.Machine.execForwardedCommand src entry pay s
  | .sqTailDoorbell q value => Sys2Proof.Machine.execSqTailDoorbell q value s
  | .cqHeadDoorbell q value => Sys2Proof.Machine.execCqHeadDoorbell q value s
  | .qpEnable q value => Sys2Proof.Machine.execQpEnable q value s
  | .qpDisable q value => Sys2Proof.Machine.execQpDisable q value s
  | .sqFetchRetry q entry => Sys2Proof.Machine.execSqFetchRetry q entry s
  | .coalesceTimerExpiry q => Sys2Proof.Machine.execCoalesceTimerExpiry q s
  | .registerWrite offset size value => Sys2Proof.Machine.execRegisterWrite offset size value s
  | .clearCounters value => Sys2Proof.Machine.execClearCounters value s
  | .tbuNowRead t => Sys2Proof.Machine.execTbuNowRead t s
  | .bar2BaseHiWrite value => Sys2Proof.Machine.execBar2BaseHiWrite value s
  | .bar2Resize sizeLog2 => Sys2Proof.Machine.execBar2Resize sizeLog2 s
  | .errHeadWrite value => Sys2Proof.Machine.execErrHeadWrite value s
  | .hostBar2Access write offset len data => Sys2Proof.Machine.execHostBar2Access write offset len data s
  | .poisonedWriteTlp bar offset => Sys2Proof.Machine.execPoisonedWriteTlp bar offset s
  | .msixUnmask vector => Sys2Proof.Machine.execMsixUnmask vector s
  | .dmaEnable e value => Sys2Proof.Machine.execDmaEnable e value s
  | .dmaDisable e value => Sys2Proof.Machine.execDmaDisable e value s
  | .dmaTailDoorbell e value => Sys2Proof.Machine.execDmaTailDoorbell e value s
  | .dmaDescriptor e desc data => Sys2Proof.Machine.execDmaDescriptor e desc data s
  | .dmaBusError e => Sys2Proof.Machine.execDmaBusError e s
  | .flr => Sys2Proof.Machine.execFlr s
  | .perstN kind env => Sys2Proof.Machine.execPerstN kind env s
  | .powerOnReset env => Sys2Proof.Machine.execPowerOnReset env s
  | .warmRestart cause env => Sys2Proof.Machine.execWarmRestart cause env s
  | .bootWatchdog env => Sys2Proof.Machine.execBootWatchdog env s
  | .activation t env => Sys2Proof.Machine.execActivation t env s
  | .activationReturnTimeout member t => Sys2Proof.Machine.execActivationReturnTimeout member t s
  | .smbusTelemetryRequest => Sys2Proof.Machine.execSmbusTelemetryRequest s
  | .smbusRecoveryRequest env => Sys2Proof.Machine.execSmbusRecoveryRequest env s
  | .mctpControlMessage msg => Sys2Proof.Machine.execMctpControlMessage msg s
  | .smbusAddressMatch addr inLatchWindow => Sys2Proof.Machine.execSmbusAddressMatch addr inLatchWindow s
  | .getVersion tr req => Sys2Proof.Machine.execGetVersion tr req s
  | .getCapabilities tr req => Sys2Proof.Machine.execGetCapabilities tr req s
  | .negotiateAlgorithms tr req => Sys2Proof.Machine.execNegotiateAlgorithms tr req s
  | .getDigests tr req => Sys2Proof.Machine.execGetDigests tr req s
  | .getCertificate tr req => Sys2Proof.Machine.execGetCertificate tr req s
  | .challenge tr req => Sys2Proof.Machine.execChallenge tr req s
  | .getMeasurements tr req => Sys2Proof.Machine.execGetMeasurements tr req s
  | .wakeNLow => Sys2Proof.Machine.execWakeNLow s
  | .prochotNAssert => Sys2Proof.Machine.execProchotNAssert s
  | .prochotNRelease => Sys2Proof.Machine.execProchotNRelease s
  | .cadPpsEdge t rising => Sys2Proof.Machine.execCadPpsEdge t rising s
  | .ppsHoldoverTimeout t => Sys2Proof.Machine.execPpsHoldoverTimeout t s
  | .cadRefPresent => Sys2Proof.Machine.execCadRefPresent s
  | .cadRefLost => Sys2Proof.Machine.execCadRefLost s
  | .thermtrip => Sys2Proof.Machine.execThermtrip s
  | .thermalLimitTick tj => Sys2Proof.Machine.execThermalLimitTick tj s
  | .supplyFault => Sys2Proof.Machine.execSupplyFault s
  | .entryBlockReady elapsedNs => Sys2Proof.Machine.execEntryBlockReady elapsedNs s
  | .entryDelayExpired => Sys2Proof.Machine.execEntryDelayExpired s
  | .wakeExit domain => Sys2Proof.Machine.execWakeExit domain s
  | .powerArbiterTick power => Sys2Proof.Machine.execPowerArbiterTick power s
  | .pstateChangeComplete => Sys2Proof.Machine.execPstateChangeComplete s
  | .stepStart h sc t => Sys2Proof.Machine.execStepStart h sc t s
  | .atTimeRelease e t => Sys2Proof.Machine.execAtTimeRelease e t s
  | .stepEnd h sc t => Sys2Proof.Machine.execStepEnd h sc t s
  | .stepStalled h sc t => Sys2Proof.Machine.execStepStalled h sc t s
  | .queueCopy w => Sys2Proof.Machine.execQueueCopy w s
  | .engineNop e => Sys2Proof.Machine.execEngineNop e s
  | .wait e => Sys2Proof.Machine.execWait e s
  | .waitSatisfied e => Sys2Proof.Machine.execWaitSatisfied e s
  | .signal e => Sys2Proof.Machine.execSignal e s
  | .resetCounter e => Sys2Proof.Machine.execResetCounter e s
  | .atTime e => Sys2Proof.Machine.execAtTime e s
  | .endStep a => Sys2Proof.Machine.execEndStep a s
  | .fence w => Sys2Proof.Machine.execFence w s
  | .fetchList w => Sys2Proof.Machine.execFetchList w s
  | .multicast w => Sys2Proof.Machine.execMulticast w s
  | .kvFetch w => Sys2Proof.Machine.execKvFetch w s
  | .regulate w => Sys2Proof.Machine.execRegulate w s
  | .bucketRequestIssue a run entry waitedUs => Sys2Proof.Machine.execBucketRequestIssue a run entry waitedUs s
  | .fetchEntryArrival a run entry t => Sys2Proof.Machine.execFetchEntryArrival a run entry t s
  | .fetchEntryError a run entry => Sys2Proof.Machine.execFetchEntryError a run entry s
  | .fallbackDeadline a run entry t => Sys2Proof.Machine.execFallbackDeadline a run entry t s
  | .lateEntryDrop a run entry => Sys2Proof.Machine.execLateEntryDrop a run entry s
  | .streamPortLineWrite a => Sys2Proof.Machine.execStreamPortLineWrite a s
  | .sweep a parity ecc => Sys2Proof.Machine.execSweep a parity ecc s
  | .veinSweep a met => Sys2Proof.Machine.execVeinSweep a met s
  | .transposeSweep a met => Sys2Proof.Machine.execTransposeSweep a met s
  | .drain a ecc => Sys2Proof.Machine.execDrain a ecc s
  | .post a => Sys2Proof.Machine.execPost a s
  | .normStatCombine h slot => Sys2Proof.Machine.execNormStatCombine h slot s
  | .quant a => Sys2Proof.Machine.execQuant a s
  | .quantSegmentRelease a => Sys2Proof.Machine.execQuantSegmentRelease a s
  | .send a => Sys2Proof.Machine.execSend a s
  | .recv a => Sys2Proof.Machine.execRecv a s
  | .collective h sc => Sys2Proof.Machine.execCollective h sc s
  | .streamIo h sc => Sys2Proof.Machine.execStreamIo h sc s
  | .wordCompletion e index => Sys2Proof.Machine.execWordCompletion e index s
  | .slateSlotStart a k => Sys2Proof.Machine.execSlateSlotStart a k s
  | .lineReadComplete a cell k lblock line kind errs misdirected => Sys2Proof.Machine.execLineReadComplete a cell k lblock line kind errs misdirected s
  | .latchPositionFree a => Sys2Proof.Machine.execLatchPositionFree a s
  | .reconstructionComplete a cell k lblock line bad => Sys2Proof.Machine.execReconstructionComplete a cell k lblock line bad s
  | .blockProgramComplete a cell k pblock ok => Sys2Proof.Machine.execBlockProgramComplete a cell k pblock ok s
  | .blockEraseComplete a cell k pblock ok => Sys2Proof.Machine.execBlockEraseComplete a cell k pblock ok s
  | .slateDescriptor a ok => Sys2Proof.Machine.execSlateDescriptor a ok s
  | .parityPass a cell lblock bad => Sys2Proof.Machine.execParityPass a cell lblock bad s
  | .checkpointInterval stack => Sys2Proof.Machine.execCheckpointInterval stack s
  | .checkpointCommit stack mirrorB => Sys2Proof.Machine.execCheckpointCommit stack mirrorB s
  | .readCountThreshold a k lblock => Sys2Proof.Machine.execReadCountThreshold a k lblock s
  | .relocationSwitch a => Sys2Proof.Machine.execRelocationSwitch a s
  | .scrubPass a cell lblock line errs => Sys2Proof.Machine.execScrubPass a cell lblock line errs s
  | .wearCheck a cell k => Sys2Proof.Machine.execWearCheck a cell k s
  | .gcErase a cell k pblock => Sys2Proof.Machine.execGcErase a cell k pblock s
  | .commitDecision tc epoch slot => Sys2Proof.Machine.execCommitDecision tc epoch slot s
  | .commitAckTimeout t => Sys2Proof.Machine.execCommitAckTimeout t s
  | .commitSwitch a t => Sys2Proof.Machine.execCommitSwitch a t s
  | .commitDurable => Sys2Proof.Machine.execCommitDurable s
  | .shardReceived shard => Sys2Proof.Machine.execShardReceived shard s
  | .tuneUpdateComplete session => Sys2Proof.Machine.execTuneUpdateComplete session s
  | .boardRetrain channel ok => Sys2Proof.Machine.execBoardRetrain channel ok s
  | .boardPatrol unit corrected uncorrectable => Sys2Proof.Machine.execBoardPatrol unit corrected uncorrectable s
  | .poisonRewriteComplete unit backing => Sys2Proof.Machine.execPoisonRewriteComplete unit backing s
  | .codecBlockReceived came block => Sys2Proof.Machine.execCodecBlockReceived came block s
  | .dataFlit port f => Sys2Proof.Machine.execDataFlit port f s
  | .badFlit port f => Sys2Proof.Machine.execBadFlit port f s
  | .ackFlit port f => Sys2Proof.Machine.execAckFlit port f s
  | .nakFlit port f => Sys2Proof.Machine.execNakFlit port f s
  | .syncFlit port f op => Sys2Proof.Machine.execSyncFlit port f op s
  | .timeFlit port f managerNow delayNs => Sys2Proof.Machine.execTimeFlit port f managerNow delayNs s
  | .timeFlitSend => Sys2Proof.Machine.execTimeFlitSend s
  | .statusFlit port f epochs t => Sys2Proof.Machine.execStatusFlit port f epochs t s
  | .statusFlitSend => Sys2Proof.Machine.execStatusFlitSend s
  | .ctrlFlit port f msg => Sys2Proof.Machine.execCtrlFlit port f msg s
  | .joinRequest manager member serial => Sys2Proof.Machine.execJoinRequest manager member serial s
  | .joinConfirm manager member size torus rows cols => Sys2Proof.Machine.execJoinConfirm manager member size torus rows cols s
  | .portDown port laneFail => Sys2Proof.Machine.execPortDown port laneFail s
  | .retrainComplete port ok peer => Sys2Proof.Machine.execRetrainComplete port ok peer s
  | .routeTableApply routes hops => Sys2Proof.Machine.execRouteTableApply routes hops s
  | .managerLost t => Sys2Proof.Machine.execManagerLost t s
  | .memberLost member t => Sys2Proof.Machine.execMemberLost member t s
  | .reclaimNotice lend => Sys2Proof.Machine.execReclaimNotice lend s
  | .reclaimLimit lend => Sys2Proof.Machine.execReclaimLimit lend s
  | .flErase core lr addr count flags ok => Sys2Proof.Machine.execFlErase core lr addr count flags ok s
  | .flProgram core lr addr src count flags ok => Sys2Proof.Machine.execFlProgram core lr addr src count flags ok s
  | .flWord core lr addr value flags ok => Sys2Proof.Machine.execFlWord core lr addr value flags ok s
  | .flPoll core bank => Sys2Proof.Machine.execFlPoll core bank s
  | .sltRing core a ring count => Sys2Proof.Machine.execSltRing core a ring count s
  | .sltPoll core a => Sys2Proof.Machine.execSltPoll core a s
  | .flashOpComplete bank ok failAddr => Sys2Proof.Machine.execFlashOpComplete bank ok failAddr s
  | .flashBusyRead core addr kind => Sys2Proof.Machine.execFlashBusyRead core addr kind s
  | .controllerWriteFault core reg value => Sys2Proof.Machine.execControllerWriteFault core reg value s
  | .followUp => Sys2Proof.Machine.execFollowUp s
  | .maintJobStart job power => Sys2Proof.Machine.execMaintJobStart job power s
  | .bistRoundComplete cells logic => Sys2Proof.Machine.execBistRoundComplete cells logic s
  | .forwardedResult member r status result output => Sys2Proof.Machine.execForwardedResult member r status result output s
  | .stageReport member rep => Sys2Proof.Machine.execStageReport member rep s
  | .commitAcknowledge member rep => Sys2Proof.Machine.execCommitAcknowledge member rep s
  | .reclaimReport member rep => Sys2Proof.Machine.execReclaimReport member rep s
  | .joinReply member rep => Sys2Proof.Machine.execJoinReply member rep s
  | .memberReachTimeout member => Sys2Proof.Machine.execMemberReachTimeout member s
  | .timeSetPpsTimeout t => Sys2Proof.Machine.execTimeSetPpsTimeout t s
  | .slewComplete => Sys2Proof.Machine.execSlewComplete s
  | .powerLoss => Sys2Proof.Machine.execPowerLoss s
  | .clockFault => Sys2Proof.Machine.execClockFault s
  | .fwFault => Sys2Proof.Machine.execFwFault s
  | .mgmtUe => Sys2Proof.Machine.execMgmtUe s
  | .analogueChecksDone res => Sys2Proof.Machine.execAnalogueChecksDone res s
  | .jtagInstruction ir => Sys2Proof.Machine.execJtagInstruction ir s

end Sys2Proof.Machine
end

