-- ==== Sys2Proof/Safety.lean ====
section
/-! DEFINITION. Sys2Proof/Safety.lean: the terms the claims use: the blocks of the state, what a command leaves unchanged,
the invariant of the state, and what never falls. -/

namespace Sys2Proof.Safety

open Sys2Proof.Machine

/-- The blocks of the state: one name for each field of `State`. -/
inductive Block where
  | part | ready | fmtSticky | cnt | ram | ramUndef | mgmt | mbx | host | tbu | pwr | err | slate | plans | arrs | exclStored
  | norm | normSum | taint | tiers | models | codec | spar | sec | flash | maint | out | free | pending
deriving DecidableEq, Repr

/-- A block is the same in both states. -/
def Same (b : Block) (s t : State) : Prop :=
  match b with
  | .part => t.part = s.part
  | .ready => t.ready = s.ready
  | .fmtSticky => t.fmtSticky = s.fmtSticky
  | .cnt => t.cnt = s.cnt
  | .ram => t.ram = s.ram
  | .ramUndef => t.ramUndef = s.ramUndef
  | .mgmt => t.mgmt = s.mgmt
  | .mbx => t.mbx = s.mbx
  | .host => t.host = s.host
  | .tbu => t.tbu = s.tbu
  | .pwr => t.pwr = s.pwr
  | .err => t.err = s.err
  | .slate => t.slate = s.slate
  | .plans => t.plans = s.plans
  | .arrs => t.arrs = s.arrs
  | .exclStored => t.exclStored = s.exclStored
  | .norm => t.norm = s.norm
  | .normSum => t.normSum = s.normSum
  | .taint => t.taint = s.taint
  | .tiers => t.tiers = s.tiers
  | .models => t.models = s.models
  | .codec => t.codec = s.codec
  | .spar => t.spar = s.spar
  | .sec => t.sec = s.sec
  | .flash => t.flash = s.flash
  | .maint => t.maint = s.maint
  | .out => t.out = s.out
  | .free => t.free = s.free
  | .pending => t.pending = s.pending

/-- Every block but the named ones is unchanged. -/
def Frame (changed : List Block) (s t : State) : Prop := ∀ b, b ∉ changed → Same b s t

/-- The blocks that a command may change: every other one it leaves as it was. A command that may end another command may post
completions, so it may write host memory or the range; the queue is no block that any command changes. -/
def touches : Instr → List Block
  | .nop .. | .identify .. | .objectPlaceAlloc .. | .maintStatus .. | .groupForm .. | .groupLend .. | .groupStatus ..
  | .commandFetch .. | .sqFetchRetry .. | .memberReachTimeout .. =>
    [.ram, .ramUndef, .mbx, .host, .taint, .tiers, .spar, .out]
  | .timeSet .. | .cadPpsEdge .. =>
    [.ready, .ram, .ramUndef, .mbx, .host, .tbu, .taint, .tiers, .spar, .out]
  | .powerSet .. | .thermtrip .. | .entryBlockReady .. =>
    [.ready, .fmtSticky, .cnt, .ram, .ramUndef, .mgmt, .mbx, .host, .tbu, .pwr, .err, .slate, .plans, .arrs, .norm,
      .normSum, .taint, .tiers, .models, .codec, .spar, .sec, .flash, .maint, .out]
  | .modelCreate .. | .modelCommit .. | .adapterLoad .. | .tuneStart .. | .streamOpen .. | .streamSubmit .. =>
    [.ram, .ramUndef, .mbx, .host, .taint, .tiers, .models, .spar, .out]
  | .modelStageBegin .. =>
    [.cnt, .ram, .ramUndef, .mbx, .host, .taint, .tiers, .models, .spar, .maint, .out]
  | .modelShard .. | .modelStageEnd .. | .modelAbort .. | .shardReceived .. | .stageReport .. =>
    [.cnt, .ram, .ramUndef, .mbx, .host, .slate, .taint, .tiers, .models, .spar, .sec, .maint, .out]
  | .modelRepair .. | .modelDelete .. | .relocationSwitch .. | .analogueChecksDone .. =>
    [.cnt, .ram, .ramUndef, .mbx, .host, .err, .slate, .taint, .tiers, .models, .spar, .maint, .out]
  | .adapterDrop .. | .objectPlaceFree .. =>
    [.ram, .ramUndef, .mbx, .host, .taint, .tiers, .models, .codec, .spar, .out]
  | .tuneStop .. | .streamClose .. =>
    [.fmtSticky, .cnt, .ram, .ramUndef, .mbx, .host, .taint, .tiers, .models, .codec, .spar, .out]
  | .flr .. =>
    [.fmtSticky, .cnt, .ram, .ramUndef, .mbx, .host, .plans, .taint, .tiers, .models, .codec, .spar, .out]
  | .submitPayloadPlaced .. =>
    [.tbu, .models]
  | .planLoad .. =>
    [.cnt, .ram, .ramUndef, .mbx, .host, .plans, .taint, .tiers, .spar, .out]
  | .planStart .. =>
    [.cnt, .ram, .ramUndef, .mbx, .host, .err, .slate, .plans, .taint, .tiers, .models, .codec, .spar, .maint, .out]
  | .planStop .. =>
    [.fmtSticky, .cnt, .ram, .ramUndef, .mbx, .host, .slate, .plans, .arrs, .exclStored, .norm, .normSum, .taint,
      .tiers, .models, .codec, .spar, .out, .free]
  | .objectMigrate .. | .pageCopyComplete .. | .groupLendReclaim .. | .reclaimReport .. =>
    [.cnt, .ram, .ramUndef, .mbx, .host, .taint, .tiers, .spar, .out, .free]
  | .maintStart .. =>
    [.cnt, .ram, .ramUndef, .mbx, .host, .slate, .taint, .tiers, .spar, .maint, .out]
  | .groupFormDissolve .. | .atTimeRelease .. | .bucketRequestIssue .. | .fetchEntryArrival .. | .fallbackDeadline ..
  | .joinConfirm .. | .joinReply .. =>
    [.fmtSticky, .cnt, .ram, .ramUndef, .mbx, .host, .tbu, .err, .slate, .plans, .arrs, .exclStored, .norm, .normSum,
      .taint, .tiers, .models, .codec, .spar, .out, .free]
  | .fwStage .. =>
    [.cnt, .ram, .ramUndef, .mbx, .host, .taint, .tiers, .spar, .sec, .flash, .maint, .out]
  | .fwDelta .. =>
    [.cnt, .ram, .ramUndef, .mbx, .host, .taint, .tiers, .spar, .sec, .flash, .maint, .out, .free]
  | .fwVerify .. =>
    [.ram, .ramUndef, .mbx, .host, .taint, .tiers, .spar, .sec, .out, .free]
  | .fwActivate .. =>
    [.ram, .ramUndef, .mbx, .host, .taint, .tiers, .spar, .sec, .out]
  | .attest .. =>
    [.ram, .ramUndef, .mbx, .host, .taint, .tiers, .spar, .sec, .flash, .out]
  | .lifecycleSet .. =>
    [.part, .ram, .ramUndef, .mbx, .host, .taint, .tiers, .spar, .sec, .out]
  | .selftest .. =>
    [.cnt, .ram, .ramUndef, .mbx, .host, .err, .slate, .taint, .tiers, .spar, .maint, .out, .free]
  | .forwardedCommand .. =>
    [.part, .ready, .fmtSticky, .cnt, .ram, .ramUndef, .mgmt, .mbx, .host, .tbu, .pwr, .err, .slate, .plans, .arrs,
      .exclStored, .norm, .normSum, .taint, .tiers, .models, .codec, .spar, .sec, .flash, .maint, .out, .free]
  | .sqTailDoorbell .. | .cqHeadDoorbell .. | .qpEnable .. | .qpDisable .. =>
    [.cnt, .mbx, .host, .pwr, .err, .out]
  | .coalesceTimerExpiry .. =>
    [.mbx, .host, .out]
  | .registerWrite .. | .clearCounters .. | .dmaEnable .. | .dmaDisable .. | .dmaTailDoorbell .. =>
    [.fmtSticky, .cnt, .mbx, .host, .tbu, .pwr, .err, .slate, .plans, .spar, .sec, .out]
  | .tbuNowRead .. =>
    [.cnt, .host, .tbu, .pwr, .err, .out]
  | .bar2BaseHiWrite .. | .errHeadWrite .. | .poisonedWriteTlp .. =>
    [.cnt, .host, .pwr, .err, .out]
  | .bar2Resize .. =>
    [.host]
  | .hostBar2Access .. =>
    [.cnt, .ram, .ramUndef, .host, .pwr, .err, .slate, .taint, .tiers, .models, .spar, .out]
  | .msixUnmask .. | .dmaBusError .. =>
    [.host, .out]
  | .dmaDescriptor .. =>
    [.cnt, .ram, .ramUndef, .host, .err, .slate, .taint, .tiers, .models, .spar, .out]
  | .perstN .. | .powerOnReset .. | .warmRestart .. | .activation .. =>
    [.ready, .fmtSticky, .cnt, .ram, .ramUndef, .mgmt, .mbx, .host, .tbu, .pwr, .err, .slate, .plans, .arrs,
      .exclStored, .norm, .normSum, .taint, .tiers, .models, .codec, .spar, .sec, .flash, .maint, .out, .free]
  | .bootWatchdog .. | .smbusRecoveryRequest .. =>
    [.ready, .fmtSticky, .cnt, .ram, .ramUndef, .mgmt, .mbx, .host, .pwr, .err, .slate, .plans, .arrs, .exclStored,
      .norm, .normSum, .taint, .tiers, .models, .codec, .spar, .sec, .flash, .maint, .out, .free]
  | .activationReturnTimeout .. | .managerLost .. | .memberLost .. | .forwardedResult .. =>
    [.fmtSticky, .cnt, .ram, .ramUndef, .mbx, .host, .tbu, .err, .slate, .plans, .arrs, .exclStored, .norm, .normSum,
      .taint, .tiers, .models, .codec, .spar, .sec, .maint, .out, .free]
  | .smbusTelemetryRequest .. | .sltPoll .. | .flashBusyRead .. =>
    [.out]
  | .mctpControlMessage .. | .smbusAddressMatch .. =>
    [.pwr, .out]
  | .getVersion .. | .getCapabilities .. | .negotiateAlgorithms .. | .getDigests .. | .getCertificate .. =>
    [.pwr, .sec, .out]
  | .challenge .. | .getMeasurements .. =>
    [.pwr, .sec, .out, .free]
  | .wakeNLow .. =>
    [.pwr]
  | .prochotNAssert .. | .prochotNRelease .. =>
    [.pwr, .maint, .out]
  | .ppsHoldoverTimeout .. | .cadRefPresent .. | .cadRefLost .. | .slewComplete .. =>
    [.tbu]
  | .thermalLimitTick .. | .powerArbiterTick .. | .pstateChangeComplete .. =>
    [.cnt, .pwr, .maint, .out]
  | .supplyFault .. | .codecBlockReceived .. | .clockFault .. | .fwFault .. | .mgmtUe .. =>
    [.fmtSticky, .cnt, .ram, .ramUndef, .mbx, .host, .err, .slate, .plans, .arrs, .exclStored, .norm, .normSum,
      .taint, .tiers, .models, .codec, .spar, .maint, .out, .free]
  | .entryDelayExpired .. =>
    [.cnt, .ram, .ramUndef, .mbx, .host, .pwr, .taint, .tiers, .spar, .out]
  | .wakeExit .. =>
    [.ready, .fmtSticky, .cnt, .ram, .ramUndef, .mbx, .host, .tbu, .pwr, .err, .slate, .plans, .taint, .tiers,
      .models, .spar, .sec, .maint, .out]
  | .stepStart .. =>
    [.cnt, .ram, .ramUndef, .mbx, .host, .tbu, .plans, .taint, .tiers, .models, .spar, .out, .free]
  | .stepEnd .. =>
    [.fmtSticky, .cnt, .ram, .ramUndef, .mbx, .host, .tbu, .slate, .plans, .arrs, .exclStored, .norm, .normSum,
      .taint, .tiers, .models, .codec, .spar, .out]
  | .stepStalled .. =>
    [.cnt, .host, .tbu, .err, .plans, .out]
  | .queueCopy .. | .engineNop .. | .wait .. | .waitSatisfied .. | .signal .. | .resetCounter .. | .atTime ..
  | .endStep .. | .fence .. | .fetchList .. | .multicast .. | .kvFetch .. | .regulate .. | .fetchEntryError ..
  | .sweep .. | .veinSweep .. | .transposeSweep .. | .drain .. | .post .. | .quant .. | .send .. | .recv ..
  | .collective .. | .streamIo .. | .dataFlit .. | .ctrlFlit .. =>
    [.fmtSticky, .cnt, .ram, .ramUndef, .mbx, .host, .err, .slate, .plans, .arrs, .exclStored, .norm, .normSum,
      .taint, .tiers, .models, .codec, .spar, .out, .free]
  | .lateEntryDrop .. =>
    [.cnt, .arrs]
  | .streamPortLineWrite .. =>
    [.fmtSticky, .cnt, .host, .err, .arrs, .out, .free]
  | .normStatCombine .. =>
    [.fmtSticky, .norm, .normSum, .spar, .out]
  | .quantSegmentRelease .. =>
    [.cnt, .ram, .ramUndef, .plans, .arrs, .taint, .spar, .out]
  | .wordCompletion .. =>
    [.fmtSticky, .cnt, .ram, .ramUndef, .host, .err, .plans, .arrs, .taint, .tiers, .models, .codec, .spar, .out, .free]
  | .slateSlotStart .. =>
    [.fmtSticky, .cnt, .host, .err, .slate, .arrs, .models, .out]
  | .lineReadComplete .. =>
    [.fmtSticky, .cnt, .host, .err, .slate, .arrs, .models, .maint, .out]
  | .latchPositionFree .. =>
    [.fmtSticky, .cnt, .host, .err, .slate, .arrs, .out, .free]
  | .reconstructionComplete .. =>
    [.cnt, .host, .err, .slate, .arrs, .models, .out]
  | .blockProgramComplete .. | .parityPass .. =>
    [.cnt, .ram, .ramUndef, .mbx, .host, .err, .slate, .taint, .tiers, .models, .spar, .sec, .maint, .out]
  | .blockEraseComplete .. | .readCountThreshold .. | .followUp .. =>
    [.cnt, .host, .err, .slate, .maint, .out]
  | .slateDescriptor .. =>
    [.cnt, .ram, .ramUndef, .host, .err, .slate, .taint, .tiers, .out]
  | .checkpointInterval .. =>
    [.pwr, .slate, .maint]
  | .checkpointCommit .. =>
    [.ready, .cnt, .ram, .ramUndef, .mbx, .host, .err, .slate, .taint, .tiers, .models, .spar, .maint, .out]
  | .scrubPass .. =>
    [.cnt, .host, .pwr, .err, .slate, .models, .maint, .out]
  | .wearCheck .. | .gcErase .. =>
    [.slate, .maint]
  | .commitDecision .. =>
    [.models, .spar, .out]
  | .commitAckTimeout .. =>
    [.cnt, .ram, .ramUndef, .mbx, .host, .tbu, .slate, .taint, .tiers, .models, .spar, .sec, .maint, .out]
  | .commitSwitch .. =>
    [.cnt, .ram, .ramUndef, .mbx, .host, .tbu, .err, .slate, .taint, .tiers, .models, .spar, .maint, .out]
  | .commitDurable .. =>
    [.cnt, .ram, .ramUndef, .mbx, .host, .taint, .tiers, .models, .spar, .sec, .maint, .out]
  | .tuneUpdateComplete .. =>
    [.fmtSticky, .cnt, .ram, .ramUndef, .taint, .tiers, .models]
  | .boardRetrain .. =>
    [.ready, .cnt, .ram, .ramUndef, .mbx, .host, .err, .plans, .norm, .normSum, .taint, .tiers, .models, .spar, .out]
  | .boardPatrol .. =>
    [.cnt, .host, .err, .tiers, .out]
  | .poisonRewriteComplete .. =>
    [.cnt, .ram, .ramUndef, .host, .err, .taint, .tiers, .out]
  | .badFlit .. | .ackFlit .. | .nakFlit .. | .routeTableApply .. =>
    [.cnt, .spar, .out]
  | .syncFlit .. =>
    [.cnt, .plans, .spar, .out]
  | .timeFlit .. =>
    [.ready, .cnt, .tbu, .spar, .out]
  | .timeFlitSend .. | .statusFlitSend .. | .joinRequest .. =>
    [.spar, .out]
  | .statusFlit .. =>
    [.cnt, .tbu, .spar, .out]
  | .portDown .. =>
    [.cnt, .spar, .maint, .out]
  | .retrainComplete .. =>
    [.cnt, .host, .err, .spar, .maint, .out]
  | .reclaimNotice .. =>
    [.cnt, .ram, .ramUndef, .mbx, .host, .err, .taint, .tiers, .spar, .out]
  | .reclaimLimit .. =>
    [.cnt, .ram, .ramUndef, .mbx, .host, .err, .taint, .tiers, .spar, .out, .free]
  | .flErase .. | .flProgram .. | .flPoll .. =>
    [.flash, .out]
  | .flWord .. =>
    [.flash, .out, .free]
  | .sltRing .. =>
    [.slate, .out]
  | .flashOpComplete .. =>
    [.flash]
  | .controllerWriteFault .. =>
    [.cnt, .host, .err, .out]
  | .maintJobStart .. =>
    [.maint]
  | .bistRoundComplete .. =>
    [.cnt, .ram, .ramUndef, .mbx, .host, .pwr, .err, .arrs, .exclStored, .taint, .tiers, .spar, .maint, .out]
  | .commitAcknowledge .. =>
    [.ram, .ramUndef, .mbx, .host, .taint, .tiers, .models, .spar, .sec, .maint, .out]
  | .timeSetPpsTimeout .. =>
    [.ram, .ramUndef, .mbx, .host, .tbu, .taint, .tiers, .spar, .out]
  | .powerLoss .. =>
    [.ready, .fmtSticky, .cnt, .ram, .ramUndef, .mgmt, .mbx, .host, .tbu, .pwr, .err, .slate, .plans, .arrs, .norm,
      .normSum, .taint, .tiers, .models, .codec, .spar, .sec, .flash, .maint]
  | .jtagInstruction .. =>
    [.sec]

/-- The invariant of the state: memories keep their canonical form, counters their width (R69), and the error ring its
count: 256 entries, the tail standing `entries` after the head (R491, R495, R498). -/
structure Inv (s : State) : Prop where
  ram   : Memory.wf ramFill s.ram = true
  mgmt  : Memory.wf ramFill s.mgmt = true
  flash : Memory.wf flashFill s.flash.mem = true
  cnt   : ∀ p ∈ s.cnt, p.2 ≤ 0xFFFFFFFF
  ents  : s.err.entries ≤ 256
  head  : s.err.head < 256
  tail  : s.err.tail = (s.err.head + s.err.entries) % 256

/-- What only rises from state to state: the anti-rollback counter (R454), the lifecycle floor and the transition count
(R458, R459), and the one-time signature blocks used (R463). The part stays the same part. -/
structure Rises (s t : State) : Prop where
  counter : s.sec.counter ≤ t.sec.counter
  floor   : s.sec.floor ≤ t.sec.floor
  moves   : s.sec.transitions ≤ t.sec.transitions
  blocks  : s.sec.lmsBlocks ≤ t.sec.lmsBlocks
  variant : t.part.variant = s.part.variant
  serial  : t.part.serial = s.part.serial

/-- A fetched command may start and is carried out here: it is at the front of what it must follow (R367, R371), the
device serves it (R372 check 1), it is not one for another member (R377), and the head of its entry is as R365 asks. -/
structure Starts (s : State) (r : CmdRef) (op : Nat) (c : Cmd) : Prop where
  found : s.startable r op = some c
  role  : s.roleRefuses c = false
  here  : s.fwdCheck c = none
  mine  : s.fwdMember c = none
  head  : c.headReserved = false

/-- The device takes the host's accesses to BAR0 and BAR2 as they come: in RUN, in no exit (R471), in no warm restart (R438). -/
structure Awake (s : State) : Prop where
  run     : s.pwr.state = .run
  up      : s.pwr.waking = false
  started : s.restarting = false

/-- A good flit of a type reaches an UP port (R340). -/
structure FlitComes (s : State) (p typ : Nat) (f : Flit) : Prop where
  up     : (s.port p).st = portUp
  fitted : p < s.part.variant.ports
  good   : (s.port p).good f = true
  isTyp  : f.typ.toNat = typ

/-- The state once a good flit has been taken in order: a correction made in it is counted, what it acknowledges is released, and its
sequence number is the last one received (R340, R351). -/
def tookFlit (p : Nat) (f : Flit) (s : State) : State :=
  let s := if f.fecFixed then count (sprCnt p 0) s else s
  flushWaiting (updPort p (fun x => { x.acked f.ack.toNat with rxSeq := (x.rxSeq + 1) % 4096, discarding := false }) s)

/-- An engine stands at a word of an opcode, and the word passes the checks made as it issues (R266). -/
structure AtWord (s : State) (e : EngineId) (op : Nat) (x : At) : Prop where
  stands : s.at e = some x
  sound  : x.ok s = true
  isOp   : wOp x.w = op

/-- A step that goes on: neither a fault nor a refusal. -/
def Proceeds (s : State) : Prop := ∃ t, step s = .next t

/-- A state that every step of a run from `s` has reached after `n` steps. -/
def Reaches (n : Nat) (s t : State) : Prop := Host.Core.run core n s = .next t

end Sys2Proof.Safety
end

