-- ==== Sys2Proof/Certificates/Slice0/Obligations.lean ====
section
/-! DEFINITION. Sys2Proof/Certificates/Slice0/Obligations.lean: the statements about the block, for the provers. First those of the
whole machine, its encodings, its numbers and its memory; then, family by family, where each command completes and what the next
state is. A statement speaks of the model's own operations where the spec's rule is one operation that many commands share. -/

open Sys2Proof Sys2Proof.Machine Sys2Proof.Safety

/-! ## The whole machine -/

/-- A step runs the command at the front of the queue with the queue's rest, first in, first out. -/
def Obligations.StepRunsTheFrontCommand : Prop :=
  ∀ s c rest, s.pending = c :: rest → step s = exec c { s with pending := rest }

/-- On an empty queue the block idles: nothing changes. The model's choice (log 1). -/
def Obligations.StepIdlesOnEmptyQueue : Prop := ∀ s, s.pending = [] → step s = .next s

/-- The invariant holds right after reset. -/
def Obligations.ResetMeetsInvariant : Prop := Safety.Inv State.reset

/-- Every step keeps the invariant: the three memories stay in their canonical form, every counter stays within its 32 bits, and the
error ring keeps its count, whatever the command and whatever the state (R69, R491, R495). -/
def Obligations.StepsKeepTheInvariant : Prop := ∀ s t, Safety.Inv s → step s = .next t → Inv t

/-- No command lowers the anti-rollback counter, the lifecycle floor, the count of transitions or the one-time signature blocks used,
or changes which part this is (R454, R458, R459, R463). -/
def Obligations.NothingThatOnlyRisesFalls : Prop := ∀ s t, step s = .next t → Rises s t

/-- Every command of the table leaves every block of the state as it was but those `touches` lists for it, and no command changes the
queue of those that wait. -/
def Obligations.CommandsKeepTheirFrame : Prop :=
  ∀ c s t, exec c s = .next t → Frame (touches c) s t ∧ t.pending = s.pending

/-! ## Encodings -/

/-- A submission entry's 64 bytes give back the submission, with every field at every value its width admits (R365). -/
def Obligations.SubmissionEntriesRoundTrip : Prop :=
  ∀ x : Submission, x.payLen < 2 ^ 32 → (subBytes x).length = 64 ∧ parseSub (subBytes x) = x

/-! ## The quantiser -/

/-- R79: the LIVE scale of a nonzero max-abs is the smallest bfloat16 value not less than the exact quotient max-abs / qmax, and at
least 2^-126: it is a valid scale s with s x qmax not below max-abs, and no smaller valid scale has that. -/
def Obligations.LiveScaleIsTheLeastAbove : Prop :=
  ∀ (qmax : Nat) (mx : Word), (qmax = 6 ∨ qmax = 7) → fSign mx = false → fFinite mx = true → fZero mx = false →
    let s := liveScale qmax mx
    validScale s = true ∧ (fVal mx).le ((bVal s).mul (dy qmax)) = true ∧
      ∀ h : Half, validScale h = true → (fVal mx).le ((bVal h).mul (dy qmax)) = true → s.toNat ≤ h.toNat

/-- R39: the quantiser emits only the INT4 codes for -7 to +7, and never 0b1000, whatever the segment, its mode and its scale. -/
def Obligations.QuantiserNeverEmitsMinusEight : Prop :=
  ∀ (q : QPoint) carried cold left vein l, q.format ≠ 1 →
    ∀ c ∈ (quantSeg q carried cold left vein l).coded.codes, c < 16 ∧ c ≠ 8 ∧ -7 ≤ int4Val c ∧ int4Val c ≤ 7

/-- R81: in either mode a segment whose max-abs is 0 is emitted with scale 1.0, code 0 for every finite element and every NaN, and
plus or minus qmax for an infinity; a Vein channel's element gives code 0. -/
def Obligations.ZeroSegmentsTakeScaleOne : Prop :=
  ∀ (q : QPoint) carried cold left vein l, fZero (segMax vein l) = true →
    let r := quantSeg q carried cold left vein l
    r.scale = 0x3F80 ∧ r.coded.codes = l.map (fun x =>
      if x.1 ∈ vein then 0
      else if fInf x.2 then (if q.format = 1 then (if fSign x.2 then 15 else 7) else (if fSign x.2 then 9 else 7))
      else 0)

/-! ## Iarik -/

/-- A submission whose tag is in use on its pair is completed at once with ST_BAD_FIELD and the `dup` flag, and is not executed (R366):
no command is taken in, and the outstanding command that holds the tag stays as it was, in flight or waiting to be consumed. -/
def Obligations.TagsInUseAreRefused : Prop :=
  ∀ s q bus b,
    let p := s.pair q
    let x := parseSub b
    let a := p.cqBase.toNat + 16 * p.cqTail
    s.nextPair = some q → s.sqEntry q bus = some b → (x.tag ∈ p.tagsRun ∨ x.tag ∈ p.tagsPosted) → ∃ t,
    exec (.commandFetch bus) s = .next t ∧ t.mbx.cmds = s.mbx.cmds ∧ (t.pair q).tagsRun = p.tagsRun ∧
      (p.cqDva = false → (t.pair q).tagsPosted = p.tagsPosted ++ [x.tag] ∧
        .hostWrite a (cqEntry x.tag 0x0002 0x4000 ((p.sqHead + 1) % p.n) 0 p.phase) ∈ t.out) ∧
      (p.cqDva = true → s.writable a 16 = true → (t.pair q).tagsPosted = p.tagsPosted ++ [x.tag])

/-- A command's completion is the 16-byte entry of R368 at the pair's tail in host memory: tag, status, flags with the phase, the
pair's `sq_head` and the result; the tail moves on, the phase turns over on the wrap, and the tag is no longer running. -/
def Obligations.CompletionsArePosted : Prop :=
  ∀ s q tag st cflags result,
    let p := s.pair q
    p.enable = true → p.cqDva = false →
    let t := postCq q tag st cflags result false s
    .hostWrite (p.cqBase.toNat + 16 * p.cqTail) (cqEntry tag st cflags p.sqHead result p.phase) ∈ t.out ∧
      (t.pair q).cqTail = (if p.cqTail + 1 = p.n then 0 else p.cqTail + 1) ∧
      (t.pair q).phase = (if p.cqTail + 1 = p.n then !p.phase else p.phase) ∧
      (t.pair q).tagsRun = p.tagsRun.erase tag ∧ (t.pair q).tagsPosted = p.tagsPosted ++ [tag] ∧
      ∀ r, r ≠ q → t.pair r = s.pair r

/-- R311: ADAPTER_DROP is rejected with ST_WRONG_STATE, and changes nothing else, while an open stream or a tuning session binds the
adapter; where nothing else stands against freeing it (R293), it frees the object. -/
def Obligations.AdapterDropNeedsAnUnboundAdapter : Prop :=
  ∀ s r c a, Starts s r 0x0201 c → c.argReserved all64 0 0 0 0 = false → c.sub.payLen = 0 → s.adapter (c.arg 0) = some a →
    (s.boundToStream (c.arg 0) = true → exec (.adapterDrop r) s = .next (finish c.id .wrongState 0 s)) ∧
    (s.boundToStream (c.arg 0) = false → (s.namedByPlan (c.arg 0) = true ∨ s.migrating (c.arg 0) = true) →
      exec (.adapterDrop r) s = .next (finish c.id .wrongState 0 s)) ∧
    (s.boundToStream (c.arg 0) = false → s.namedByPlan (c.arg 0) = false → s.migrating (c.arg 0) = false → ∃ v,
      exec (.adapterDrop r) s = .next (finish c.id .ok 0 v) ∧ v.adapter (c.arg 0) = none ∧ v.tiers.objs = s.tiers.objs.filter (fun o => decide (o.dva ≠ c.arg 0)))

/-- A command whose entry has a reserved bit set in its head is rejected with ST_BAD_FIELD at check 3 and has no other effect (R10,
R365, R372), for the commands that need no unit a part may lack. -/
def Obligations.ReservedHeadsAreRejected : Prop :=
  ∀ s r pay c p, p ∈ [(0x0000, Instr.nop r), (0x0001, .identify r), (0x0002, .timeSet r), (0x0003, .powerSet r), (0x0100, .modelCreate r),
      (0x0101, .modelStageBegin r pay), (0x0102, .modelShard r pay), (0x0103, .modelStageEnd r), (0x0104, .modelCommit r),
      (0x0105, .modelAbort r), (0x0106, .modelRepair r pay), (0x0107, .modelDelete r), (0x0200, .adapterLoad r pay), (0x0201, .adapterDrop r),
      (0x0300, .streamOpen r pay), (0x0301, .streamClose r), (0x0302, .streamSubmit r pay), (0x0401, .planStart r), (0x0402, .planStop r),
      (0x0601, .maintStatus r), (0x0800, .fwStage r pay), (0x0803, .fwActivate r)] →
    s.startable r p.1 = some c → s.roleRefuses c = false → s.fwdCheck c = none → s.fwdMember c = none → c.headReserved = true →
    exec p.2 s = .next (finish c.id .badField 0 s)

/-! ## Error records -/

/-- R495, R496: a record that does not merge is written whole where all its entries fit, as its first entry alone where they do not, and
a full ring of 256 keeps its 255 oldest entries: the newest is overwritten by a record of its class or a higher one, otherwise
the record is not written, and either way `ERR_LOST` rises by 1 and `overrun` is set. The class counter counts every record. -/
def Obligations.ErrorRingKeepsTheOldest : Prop :=
  ∀ s cls code (i : RecInfo), Safety.Inv s →
    let t := record cls code i s
    mgetD t.cnt (errCnt cls.code) 0 = min (mgetD s.cnt (errCnt cls.code) 0 + 1) 0xFFFFFFFF ∧
    (s.err.merges cls code (detail32 i.detail) s.tbu.now = false →
    (s.err.entries + i.conts.length < 256 → t.err.entries = s.err.entries + 1 + i.conts.length ∧ t.err.overrun = s.err.overrun) ∧
    (s.err.entries < 256 → 256 ≤ s.err.entries + i.conts.length → t.err.entries = s.err.entries + 1 ∧ t.err.overrun = s.err.overrun) ∧
    (s.err.entries < 256 → ∃ x, mget t.err.ring s.err.tail = some x ∧ x.code = code ∧ x.cls = cls ∧ x.detail = detail32 i.detail ∧ x.count = 1) ∧
    (s.err.entries = 256 → t.err.entries = 256 ∧ t.err.head = s.err.head ∧ t.err.overrun = true ∧
      mgetD t.cnt 0x40010 0 = min (mgetD s.cnt 0x40010 0 + 1) 0xFFFFFFFF ∧
      (∀ k, k ≠ s.err.newest → mget t.err.ring k = mget s.err.ring k) ∧
      ∀ y, mget s.err.ring s.err.newest = some y →
        (cls.code < y.cls.code → mget t.err.ring s.err.newest = some y) ∧
        (y.cls.code ≤ cls.code → ∃ x, mget t.err.ring s.err.newest = some x ∧ x.code = code ∧ x.cls = cls ∧ x.cont = false)))

/-! ## Engines and memory -/

/-- A free array takes the first of the steps that are due, in order of nominal start, then of plan handle, then of schedule index
(R211); an array that has a step takes no other. -/
def Obligations.ArraysTakeTheFirstDueStep : Prop :=
  (∀ l x, firstStep l = some x → x ∈ l ∧ ∀ y ∈ l, x.1 < y.1 ∨ (x.1 = y.1 ∧ (x.2.1 < y.2.1 ∨ (x.2.1 = y.2.1 ∧ x.2.2.1 ≤ y.2.2.1)))) ∧
  (∀ s a t n h sc ep p x,
    let u := reachTime t s
    let w := hold (.fetch a) (bindStep a h sc ep p x u)
    (u.arr a).cur = none → firstStep (u.startable? a) = some (n, h, sc, ep) → u.plan h = some p → u.stepOf h sc = some x →
    (∀ y, w.at (.fetch a) = some y → y.ok w = true) → ∃ v,
    exec (.atTimeRelease (.fetch a) t) s = .next v ∧ (v.arr a).cur = some (h, sc)) ∧
  (∀ s a t c, (s.arr a).cur = some c → (∀ x, (reachTime t s).at (.fetch a) = some x → x.ok (reachTime t s) = true) → ∃ v,
    exec (.atTimeRelease (.fetch a) t) s = .next v ∧ (v.arr a).cur = some c)

/-- A SIGNAL adds its value to its counter and saturates at 0xFFFF_FFFF, a RESET writes 0 (R206), and neither changes any other counter,
any array but the engine's own, or any byte of memory. -/
def Obligations.CountersAddSaturateAndClear : Prop :=
  ∀ s e x, AtWord s e 0x02 x → (wX x.w = true ∨ s.earlierDone e = true) → (∃ p, s.plan x.h = some p) →
    let n := wCtr x.w
    (wRst x.w = false → ∃ t, exec (.signal e) s = .next t ∧ t.ctrVal x.h n = min (s.ctrVal x.h n + wf x.w 15 0) 0xFFFFFFFF ∧
      (∀ h m, (h, m) ≠ (x.h, n) → t.ctrVal h m = s.ctrVal h m) ∧ t.ram = s.ram ∧
      (∀ a, e ≠ .fetch a → e ≠ .exec a → t.arr a = s.arr a)) ∧
    (wRst x.w = true → ∃ t, exec (.resetCounter e) s = .next t ∧ t.ctrVal x.h n = 0 ∧
      (∀ h m, (h, m) ≠ (x.h, n) → t.ctrVal h m = s.ctrVal h m) ∧ t.ram = s.ram ∧
      (∀ a, e ≠ .fetch a → e ≠ .exec a → t.arr a = s.arr a))

/-- A SWEEP, VEIN_SWEEP or TRANSPOSE_SWEEP stores nothing: no byte of memory changes, and no array but its own, whatever parity and
accumulator errors it meets, and whether it issues or stalls. -/
def Obligations.SweepsLeaveMemoryAlone : Prop :=
  ∀ s a parity ecc x c op, (c, op) ∈ [(Instr.sweep a parity ecc, 0x20), (.veinSweep a ⟨parity, ecc⟩, 0x21), (.transposeSweep a ⟨parity, ecc⟩, 0x22)] →
    AtWord s (.exec a) op x → ∃ t, exec c s = .next t ∧ (∀ k, t.ramAt k = s.ramAt k) ∧ ∀ b, b ≠ a → t.arr b = s.arr b

/-- A RECV stores the bytes it took where its word says, as it completes (R254, R257), the lines that the latch holds applied first: each
byte of the run reads as the byte taken, and every other byte of memory as before. -/
def Obligations.RecvStoresItsRun : Prop :=
  ∀ s a idx i h sc p,
    let v := fabricSends a (flushLatch a 3 s)
    Safety.Inv s → (v.arr a).prog.find? (fun i => decide (i.index = idx)) = some i → v.holder a = some (h, sc, p) →
    wOp i.word = 0x27 → ∃ t, exec (.wordCompletion (.exec a) idx) s = .next t ∧
      ∀ k, t.ramAt k = (if storeDva a (wf i.word 59 44 * 64) ≤ k ∧ k < storeDva a (wf i.word 59 44 * 64) + i.data.length
        then i.data.getD (k - storeDva a (wf i.word 59 44 * 64)) 0 else s.ramAt k)

/-- A DRAIN changes no byte of memory outside the run that its KEEP names, and none where it keeps nothing (R126, R128). -/
def Obligations.DrainStoresInItsRun : Prop :=
  ∀ s a ecc x, Safety.Inv s → AtWord s (.exec a) 0x23 x → (flushLatch a 3 s).drainBlocked a x.w = false →
    (∀ k, s.keepRun a x.w = some k → x.p.plan.covers a k.1 k.2 = true) → ∃ t, exec (.drain a ecc) s = .next t ∧
      ∀ k, (∀ run, s.keepRun a x.w = some run → k < storeDva a run.1 ∨ storeDva a run.1 + run.2 ≤ k) → t.ramAt k = s.ramAt k

/-- A host write through BAR2 to hub SRAM stores its bytes there and changes no other byte (R290, R399); a host read changes none. -/
def Obligations.HostWritesStoreTheirBytes : Prop :=
  ∀ s o len data, Safety.Inv s → Awake s →
    (o + data.length ≤ 2 ^ s.host.bar2SizeLog2 → s.host.bar2Base + o + data.length + s.hubReserved * pageBytes ≤ hubBytes → ∃ t,
      exec (.hostBar2Access true o len data) s = .next t ∧
      ∀ k, t.ramAt k = (if s.host.bar2Base + o ≤ k ∧ k < s.host.bar2Base + o + data.length then data.getD (k - (s.host.bar2Base + o)) 0 else s.ramAt k)) ∧
    (∃ t, exec (.hostBar2Access false o len data) s = .next t ∧ ∀ k, t.ramAt k = s.ramAt k)

/-- A ROM routine of the code flash stores only in the area it names: every other byte of flash reads as it did (R421, R427, R428).
Rests on choices of the model: log 48. -/
def Obligations.FlashRoutinesStayInTheirArea : Prop :=
  ∀ s core lr addr src count flags ok (v : Dword) c n, Safety.Inv s → flashCore ≤ addr →
    (c, n) ∈ [(Instr.flErase core lr addr count flags ok, count * sectorBytes), (.flProgram core lr addr src count flags ok, count * 256),
      (.flWord core lr addr v flags ok, 8)] → ∃ t, exec c s = .next t ∧
      ∀ k, (k < addr - flashCore ∨ addr - flashCore + n ≤ k) → memGet flashFill t.flash.mem k = memGet flashFill s.flash.mem k

/-! ## Where each command completes -/

/-- NOP, IDENTIFY, TIME_SET and POWER_SET take effect and end (R379, R380, R475): NOP changes nothing; IDENTIFY writes the capability
record to its buffer and answers its length; TIME_SET without `at_pps` sets the time of day and answers `TBU_NOW`; with it,
it waits for an edge; POWER_SET sets the cap and `p_fast`, and with no entry asked for ends.
Rests on choices of the model: log 36. -/
def Obligations.DeviceCommandsComplete : Prop :=
  (∀ s r c, Starts s r 0x0000 c → c.argReserved 0 0 0 0 0 = false → c.sub.payLen = 0 →
    exec (.nop r) s = .next (finish c.id .ok 0 s)) ∧
  (∀ s r c, Starts s r 0x0001 c → c.argReserved 0 0 0 0 0 = false → 256 ≤ c.sub.payLen →
    exec (.identify r) s = .next (finish c.id .ok 256 (putPay c s.capability s))) ∧
  (∀ s r c, Starts s r 0x0002 c → c.argReserved all64 1 0 0 0 = false → c.fld 1 0 0 = 0 → c.sub.payLen = 0 → s.spar.st ≠ 2 → ∃ u,
    exec (.timeSet r) s = .next (finish c.id .ok u.tbu.now u) ∧ u.ready.time = true ∧ u.tbu.takePhase = true ∧
      (s.tbu.now + 1000000 < c.arg 0 → (∀ p ∈ s.plans, p.2.active = false) → u.tbu.now = c.arg 0)) ∧
  (∀ s r c e, Starts s r 0x0002 c → c.argReserved all64 1 0 0 0 = false → c.fld 1 0 0 = 1 → c.arg 0 % secondNs = 0 → c.sub.payLen = 0 →
    s.spar.st ≠ 2 → s.tbu.lastEdge = some e → s.tbu.now ≤ e + 2 * secondNs →
    exec (.timeSet r) s = .next (setRunning c.id { s with tbu := { s.tbu with ppsSet := s.tbu.ppsSet ++ [(c.id, c.arg 0, s.tbu.now)] } })) ∧
  (∀ s r c, Starts s r 0x0003 c → c.argReserved 0x37FFFF 0 0 0 0 = false → c.sub.payLen = 0 → c.fld 0 18 16 = 0 →
    (c.fld 0 15 0 = 0 ∨ (150 ≤ c.fld 0 15 0 ∧ c.fld 0 15 0 ≤ s.part.variant.tdp)) → s.pwr.entry = none → ∃ u,
    exec (.powerSet r) s = .next (finish c.id .ok 0 u) ∧ u.pwr.capW = (if c.fld 0 15 0 = 0 then s.pwr.capW else c.fld 0 15 0) ∧
      u.pwr.pFast = c.fld 0 21 20)

/-- MODEL_CREATE, MODEL_STAGE_BEGIN, MODEL_SHARD and MODEL_STAGE_END take effect (R307, R317-R321, R381, R382) on a device that
needs no other member: the lowest empty slot becomes CREATED with the next creation count; a session opens on the slot with
the mask and reader named; a DATA shard of the device's own reader goes to the members of its mask; the session's end is
waited for, and past the last unit's commit it closes at once.
Rests on choices of the model: log 70. -/
def Obligations.StagingCommandsComplete : Prop :=
  (∀ s r c i, Starts s r 0x0100 c → c.argReserved 0x1FFF000F 0 0 0 0 = false → c.sub.payLen = 0 → c.fld 0 1 0 ≤ 1 →
    1 ≤ c.fld 0 28 16 → c.fld 0 28 16 ≤ 4096 → s.emptySlot = some i → i < 16 →
    (s.wideMembers c ≠ [] → exec (.modelCreate r) s = .next (setRunning c.id (askCreate c i (s.models.created + 1) s))) ∧
    (s.wideMembers c = [] → ∃ u, exec (.modelCreate r) s = .next (finish c.id .ok (modelId i (s.models.created + 1)) u) ∧
      (u.slot i).st = .created ∧ (u.slot i).count = s.models.created + 1 ∧ (u.slot i).layers = c.fld 0 28 16 ∧
      (u.slot i).epoch = 0 ∧ u.models.created = s.models.created + 1)) ∧
  (∀ s r pay c b, Starts s r 0x0101 c → c.argReserved 0xFF3F01FF all64 0 0 0 = false → s.payload c pay = some b →
    s.maskOk (c.arg 1) (c.fld 0 21 16) = true → (c.fld 0 31 24 ≠ 0 ↔ bit (c.arg 0) 4 = true) →
    (if bit (c.arg 0) 7 then c.sub.payLen = 0 else objTableOk s.part.variant b = true) →
    ((s.slot (c.fld 0 3 0)).st = .partialSwap ↔ bit (c.arg 0) 7 = true) →
    (s.slot (c.fld 0 3 0)).st ≠ .empty → ((s.slot (c.fld 0 3 0)).st = .broken → bit (c.arg 0) 8 = true) →
    (bit (c.arg 0) 4 = true → (s.slot (c.fld 0 3 0)).st ≠ .created ∧ (s.slot (c.fld 0 3 0)).st ≠ .broken) →
    s.models.stage = none → s.models.commit = none → s.activeJobs < 64 → s.wideMembers c = [] → ∃ u g,
    exec (.modelStageBegin r pay) s = .next (finish c.id .ok (s.models.nextStage % 65536) u) ∧ u.models.stage = some g ∧
      g.id = s.models.nextStage % 65536 ∧ g.slot = c.fld 0 3 0 ∧ g.members = c.sub.a1 ∧ g.reader = c.fld 0 21 16 ∧
      (s.spar.member ∈ g.memberList → bit (c.arg 0) 7 = false → (u.slot g.slot).st = .staging ∨ (u.slot g.slot).midSwap = true)) ∧
  (∀ s r pay c b g, Starts s r 0x0102 c → c.argReserved 0xFFFF all64 low32 0 0 = false → s.payload c pay = some b →
    64 ≤ b.length → b.length ≤ 2 ^ 20 → b.length = 64 + u b 24 4 → u b 4 2 = c.fld 0 15 0 → s.models.stage = some g →
    g.id = c.fld 0 15 0 → g.reader = s.spar.member → (shardOk b = true → u b 6 1 = 0) →
    exec (.modelShard r pay) s =
      .next (finish c.id .ok 0 (sendShard ((List.range 64).filter (fun m => bit (u b 16 8) m)) b s))) ∧
  (∀ s r c g, Starts s r 0x0103 c → c.argReserved 0xFFFF 0 0 0 0 = false → c.sub.payLen = 0 → s.models.stage = some g →
    g.id = c.fld 0 15 0 → g.endCmd = none → s.layersIn g = true → s.spar.st ≠ 1 →
    exec (.modelStageEnd r) s = .next (if s.allCommitted g then finish c.id .ok g.members.toNat (closeStage 2 s)
      else setRunning c.id (settleStage (updStage (fun g => { g with endCmd := some c.id }) s))))

/-- MODEL_COMMIT, MODEL_ABORT, MODEL_REPAIR and MODEL_DELETE take effect (R308, R321-R323, R159, R381, R383): a commit of the session's
slot is under way for T_c, 5 ms ahead where the command gives none; an aborted session is gone; every line named is repaired
and then its parity; a deleted slot's blocks are unmapped and a checkpoint follows.
Rests on choices of the model: log 38 and 39. -/
def Obligations.ModelCommandsComplete : Prop :=
  (∀ s r c g, Starts s r 0x0104 c → c.argReserved all64 0xFFFFFF 0 0 0 = false → c.sub.payLen = 0 → s.models.stage = some g →
    g.id = c.fld 1 15 0 → c.fld 1 23 16 = (if g.layered then g.committed else 0) → (c.arg 0 = 0 ∨ s.tbu.now + 2000000 ≤ c.arg 0) →
    (∀ m ∈ g.memberList, m ∈ g.staged) → g.endCmd = none → s.allCommitted g = false → s.models.commit = none → ∃ v k,
    exec (.modelCommit r) s = .next (setRunning c.id v) ∧ v.models.commit = some k ∧ k.cmd = some c.id ∧ k.slot = g.slot ∧
      k.tc = (if c.arg 0 = 0 then s.tbu.now + 5000000 else c.arg 0) ∧
      k.epoch = (if (s.slot g.slot).midSwap then (s.slot g.slot).epoch
        else if 0 < g.committed then s.highEpoch g.slot else nextEpoch (s.highEpoch g.slot))) ∧
  (∀ s r c g, Starts s r 0x0105 c → c.argReserved 0xFFFF 0 0 0 0 = false → c.sub.payLen = 0 → s.models.stage = some g →
    g.id = c.fld 0 15 0 → s.pastDecision c = false → s.spar.st ≠ 1 → ∃ v,
    exec (.modelAbort r) s = .next (finish c.id .ok 0 v) ∧ v.models.stage = none ∧ v.models.commit = none) ∧
  (∀ s r pay c b, Starts s r 0x0106 c → c.argReserved 0xF all64 low32 0 0 = false → s.payload c pay = some b → b ≠ [] →
    b.length % 80 = 0 → b.length ≤ 80 * 4096 →
    (s.slot (c.fld 0 3 0)).st ∈ [SlotSt.serving, .staging, .committing, .partialSwap] →
    (∀ x ∈ items 80 b, RepairRec.formOk (parseRepair x) = true ∧ s.repairOk (c.fld 0 3 0) (parseRepair x) = true ∧
      s.repairMeetsCommit (c.fld 0 3 0) (parseRepair x) = false) →
    let ls := ((items 80 b).map parseRepair).flatMap (fun r => r.places.map (fun l => (r, l)))
    exec (.modelRepair r pay) s = .next (setRunning c.id (settleRepair c.id
      (forEach ls (fun p s => repairParity c p.2 s) (forEach ls (fun p s => repairLine c (c.fld 0 3 0) p.1.kind p.1.data p.2 s) s))))) ∧
  (∀ s r c, Starts s r 0x0107 c → c.argReserved 0xF 0 0 0 0 = false → c.sub.payLen = 0 → (s.slot (c.fld 0 3 0)).st ≠ .empty →
    ((s.slot (c.fld 0 3 0)).st = .broken ∨ s.modelInUse (c.fld 0 3 0) = false) → s.wideMembers c = [] →
    exec (.modelDelete r) s = .next (setRunning c.id (ckptBoth (some (c.id, 0)) (unmapSlot (c.fld 0 3 0) s))))

/-- ADAPTER_LOAD, ADAPTER_DROP, TUNE_START and TUNE_STOP take effect (R310, R311, R326, R329, R375): an image is placed at an address
and its adapter listed; a dropped adapter is listed no more; a tuning session opens on the stream with no step taken; a session
told to stop ends at once, or after the step its stream is in.
Rests on choices of the model: log 25 and 40. -/
def Obligations.AdapterAndTuningCommandsComplete : Prop :=
  (∀ s r pay c b i a ps, Starts s r 0x0200 c → c.argReserved 0xF all64 0 0 0 = false → s.payload c pay = some b → c.fld 0 3 0 ≤ 1 →
    s.adapterOk b = true → (c.arg 1 ≠ 0 → s.dvaFree (c.arg 1) (cdiv b.length pageBytes) = true) → s.modelSlot (u b 0 8) = some i →
    (s.slot i).st ∈ [SlotSt.serving, .staging, .committing] → s.models.adapters.length < 4096 →
    s.takePages (c.fld 0 3 0) 0 (cdiv b.length pageBytes) = some ps →
    (if c.arg 1 = 0 then s.chooseDva (cdiv b.length pageBytes) else some (c.arg 1)) = some a → ∃ v,
    exec (.adapterLoad r pay) s = .next (finish c.id .ok a v) ∧ v.models.adapters = s.models.adapters ++ [parseAdapter b a] ∧
      (∃ o ∈ v.tiers.objs, o.dva = a ∧ o.pages = ps ∧ o.size = b.length)) ∧
  (∀ s r c a, Starts s r 0x0201 c → c.argReserved all64 0 0 0 0 = false → c.sub.payLen = 0 → s.adapter (c.arg 0) = some a →
    s.boundToStream (c.arg 0) = false → s.namedByPlan (c.arg 0) = false → s.migrating (c.arg 0) = false → ∃ v,
    exec (.adapterDrop r) s = .next (finish c.id .ok 0 v) ∧ v.adapter (c.arg 0) = none) ∧
  (∀ s r pay c b st a j ma mo va s', Starts s r 0x0202 c → s.part.variant.tune = true →
    c.argReserved 0x1FFFF all64 all64 all64 0 = false → s.payload c pay = some b → b.length = 32 → 1 ≤ c.fld 0 14 8 → c.fld 0 14 8 ≤ 64 →
    tuneParamsOk b = true → mget s.models.streams (c.fld 0 7 0) = some st → s.weightOf st.slot (c.arg 1) = true →
    st.adapter.bind s.adapter = some a → s.tuneObj (c.arg 2) 1 = true → s.tuneObj (c.arg 3) (tensorBytes 16 a.blocks) = true →
    (∀ x ∈ s.models.streams, x.1 ≠ c.fld 0 7 0 → x.2.adapter ≠ some a.dva) → (∀ t ∈ s.models.tunes, t.2.adapter ≠ a.dva) →
    st.closing = none → lowest (fun j => (mget s.models.tunes j).isNone) 16 = some j →
    placeTensors a.blocks s = some (ma, mo, va, s') → ∃ v t,
    exec (.tuneStart r pay) s = .next (finish c.id .ok j v) ∧ mget v.models.tunes j = some t ∧ t.stream = c.fld 0 7 0 ∧
      t.adapter = a.dva ∧ t.steps = 0 ∧ t.stepT = 0 ∧ t.n = c.fld 0 14 8 ∧ t.saved = c.arg 2 ∧ t.grad = c.arg 3) ∧
  (∀ s r c t, Starts s r 0x0203 c → s.part.variant.tune = true → c.argReserved 0x10F 0 0 0 0 = false →
    (if bit (c.arg 0) 8 then 24 ≤ c.sub.payLen else c.sub.payLen = 0) → mget s.models.tunes (c.fld 0 3 0) = some t →
    let v := updTune (c.fld 0 3 0) (fun t => { t with stopping := some (c.id, bit (c.arg 0) 8) }) s
    exec (.tuneStop r) s = .next (setRunning c.id (match mget s.models.streams t.stream with
      | some st => if v.inStep st then v else endTune (c.fld 0 3 0) (bit (c.arg 0) 8) v
      | none => endTune (c.fld 0 3 0) (bit (c.arg 0) 8) v)))

/-- STREAM_OPEN, STREAM_CLOSE, STREAM_SUBMIT and SUBMIT_PAYLOAD_PLACED take effect (R312, R384-R386): the lowest free stream is bound to
the plan, schedule and row named, with its KV objects and position; a stream told to close closes at once or after its
step; a submission waits on its stream, and is placed when its copy completes.
Rests on choices of the model: log 43 and 44. -/
def Obligations.StreamCommandsComplete : Prop :=
  (∀ s r pay c b p y i, Starts s r 0x0300 c → c.argReserved 0xFFFFFFF all64 all64 low32 0 = false → s.payload c pay = some b →
    openPayOk b = true →
    (if bit (c.arg 0) 27 then ∃ a, s.adapter (c.arg 1) = some a ∧ s.modelSlot a.model.toNat = some (c.fld 0 3 0) else c.arg 1 = 0) →
    s.plan (c.fld 0 8 4) = some p → s.openFields c b p.plan = true → (p.st = .loaded ∨ p.st = .running) →
    s.modelSym p.plan (c.fld 0 3 0) = some y →
    (∀ x ∈ s.models.streams, ¬ (x.2.handle = c.fld 0 8 4 ∧ x.2.sched = c.fld 0 12 9 ∧ x.2.row = c.fld 0 20 13 ∧ x.2.orphan = false)) →
    s.quantMeets (c.fld 0 8 4) (c.fld 0 12 9) (c.fld 0 20 13) (c.fld 0 3 0) p.plan = false →
    (s.slot (c.fld 0 3 0)).st ∈ [SlotSt.serving, .staging, .committing, .partialSwap] →
    lowest (fun i => (mget s.models.streams i).isNone) 256 = some i → s.histFits (freshHist p.plan y).length = true → ∃ v st,
    exec (.streamOpen r pay) s = .next (finish c.id .ok i v) ∧ mget v.models.streams i = some st ∧ st.slot = c.fld 0 3 0 ∧
      st.handle = c.fld 0 8 4 ∧ st.sched = c.fld 0 12 9 ∧ st.row = c.fld 0 20 13 ∧ st.pair = c.fld 0 26 21 ∧ st.pos = c.fld 3 31 0 ∧
      st.period = c.fld 2 31 0 ∧ st.deadline = c.fld 2 63 32 ∧ st.held = [] ∧ st.hist = freshHist p.plan y) ∧
  (∀ s r c st, Starts s r 0x0301 c → c.argReserved 0xFF 0 0 0 0 = false → c.sub.payLen = 0 →
    mget s.models.streams (c.fld 0 7 0) = some st → st.closing = none →
    let v := updStream (c.fld 0 7 0) (fun st => { st with closing := some c.id }) s
    exec (.streamClose r) s = .next (setRunning c.id (if v.inStep st then v else closeStream (c.fld 0 7 0) v))) ∧
  (∀ s r pay c b st, Starts s r 0x0302 c → c.argReserved 0xFF 0 0 0 0 = false → s.payload c pay = some b →
    mget s.models.streams (c.fld 0 7 0) = some st → s.submitLen (c.fld 0 7 0) st b.length = true → st.closing = none →
    st.pair = r.q → st.held.length < 4 → ∃ v st',
    exec (.streamSubmit r pay) s = .next (setRunning c.id v) ∧ mget v.models.streams (c.fld 0 7 0) = some st' ∧
      st'.held = st.held ++ [{ cmd := c.id, data := b, placed := none }]) ∧
  (∀ s i t st x l, mget s.models.streams i = some st → st.held = x :: l → x.placed = none → ∃ v st',
    exec (.submitPayloadPlaced i t) s = .next v ∧ v.tbu.now = (reachTime t s).tbu.now ∧ mget v.models.streams i = some st' ∧
      st'.held = { x with placed := some v.tbu.now } :: l)

/-- OBJECT_PLACE ALLOC and FREE, OBJECT_MIGRATE and PAGE_COPY_COMPLETE take effect (R292-R294, R296, R387): an object of the size
asked for is placed at an address; a freed one is gone and its pages free; a migration of the pages not in the target tier
begins, or with none to move ends with 0; a page whose copy completes is switched, or copied again if written meanwhile.
Rests on choices of the model: log 25. -/
def Obligations.ObjectCommandsComplete : Prop :=
  (∀ s r c a ps, Starts s r 0x0500 c → c.fld 0 3 0 = 0 →
    c.argReserved 0x3FFFFF (if c.fld 0 11 4 = 3 then 0x1FFFFFFFFFF else all64) all64 all64 0 = false → c.sub.payLen = 0 →
    placeable (c.fld 0 11 4) (c.fld 0 15 12) = true → (c.fld 0 15 12 ≠ 4 → c.fld 0 21 16 = 0) →
    (c.fld 0 15 12 = 2 → s.part.variant.ports ≠ 0 ∧ s.spar.st ≠ 0) →
    (if c.fld 0 11 4 = 3 then c.fld 1 31 0 ≠ 0 ∧ c.fld 1 31 0 % 128 = 0 ∧ 1 ≤ c.fld 1 40 32 ∧ c.fld 1 40 32 ≤ 256 else c.arg 1 ≠ 0) →
    let size := if c.fld 0 11 4 = 3 then kvBytes (c.fld 1 31 0) (c.fld 1 40 32) else c.arg 1
    (c.arg 2 ≠ 0 → s.dvaFree (c.arg 2) (cdiv size pageBytes) = true) →
    (c.fld 0 15 12 = 4 → s.storeTaken (c.fld 0 21 16) + cdiv size pageBytes ≤ 4) →
    s.takePages (c.fld 0 15 12) (c.fld 0 21 16) (cdiv size pageBytes) = some ps →
    (if c.arg 2 = 0 then s.chooseDva (cdiv size pageBytes) else some (c.arg 2)) = some a → ∃ v o,
    exec (.objectPlaceAlloc r) s = .next (finish c.id .ok a v) ∧ v.tiers.objs = s.tiers.objs ++ [o] ∧ o.dva = a ∧
      o.kind = c.fld 0 11 4 ∧ o.size = size ∧ o.pages = ps) ∧
  (∀ s r c o, Starts s r 0x0500 c → c.fld 0 3 0 = 1 → c.argReserved 0xF all64 0 0 0 = false → c.sub.payLen = 0 →
    s.obj (c.arg 1) = some o → s.namedByPlan (c.arg 1) = false → s.boundToStream (c.arg 1) = false → s.migrating (c.arg 1) = false → ∃ v,
    exec (.objectPlaceFree r) s = .next (finish c.id .ok 0 v) ∧ v.obj (c.arg 1) = none ∧ v.adapter (c.arg 1) = none) ∧
  (∀ s r c o ps, Starts s r 0x0501 c → c.argReserved 0xF all64 all64 0 0 = false → c.sub.payLen = 0 → c.fld 0 3 0 ≤ 2 →
    (c.fld 0 3 0 = 2 → o.kind = 3 ∧ s.part.variant.ports ≠ 0 ∧ s.spar.st ≠ 0) → s.obj (c.arg 1) = some o →
    c.fld 2 31 0 < o.pages.length → c.fld 2 31 0 + c.fld 2 63 32 ≤ o.pages.length → (∀ p ∈ o.pages, p ≠ .dropped) →
    s.migrating (c.arg 1) = false → (c.fld 0 3 0 ≠ 0 → s.heldInHub (c.arg 1) = false) →
    let idx := o.toMove (if c.fld 2 63 32 = 0 then 0 else c.fld 2 31 0) (if c.fld 2 63 32 = 0 then o.pages.length else c.fld 2 63 32) (c.fld 0 3 0)
    s.takePages (c.fld 0 3 0) 0 idx.length = some ps → ps.length = idx.length → ∃ v,
    exec (.objectMigrate r) s = .next (if idx = [] then finish c.id .ok 0 v else setRunning c.id v) ∧
      v.tiers.migrs = s.tiers.migrs ++ (if idx = [] then [] else
        [{ obj := c.arg 1, tier := c.fld 0 3 0, left := idx.zip ps, copies := 1, dirty := false, switched := 0, cmd := some c.id, lend := none }])) ∧
  (∀ s id m p rest, s.tiers.migrs.find? (fun m => decide (m.obj = id)) = some m → m.left = p :: rest →
    let put (f : Migr → Migr) : State := { s with tiers := { s.tiers with migrs := s.tiers.migrs.map (fun x => if x = m then f x else x) } }
    exec (.pageCopyComplete id) s = .next (if m.dirty = true ∧ m.copies < 5 then put (fun x => { x with copies := x.copies + 1, dirty := false })
      else settleMigr { m with left := rest, copies := 1, dirty := false, switched := m.switched + 1 }
        (switchPage id p.1 p.2 (put (fun _ => { m with left := rest, copies := 1, dirty := false, switched := m.switched + 1 })))))

/-- GROUP_LEND LEND and RECLAIM, RECLAIM_NOTICE, RECLAIM_REPORT and RECLAIM_LIMIT take effect (R300-R302, R391): pages lent are listed
with their borrower; a reclaim is sent to the borrowers and ends at once where there is none; a borrower's pages leave the
lend; the lender's reclaim ends with its last report, or at the limit, where a borrower drops what is left.
Rests on choices of the model: log 25 and 71. -/
def Obligations.LendCommandsComplete : Prop :=
  (∀ s r c ps, Starts s r 0x0701 c → s.part.variant.ports ≠ 0 → c.fld 0 1 0 = 0 → c.argReserved 0x3FF all64 0 0 0 = false →
    c.sub.payLen = 0 → s.spar.st ≠ 0 → s.spar.st ≠ 3 →
    (if bit (c.arg 0) 9 then c.fld 0 8 3 = 0 else c.fld 0 8 3 ≠ s.spar.member ∧
      (s.spar.st = 1 → mhas s.spar.members (c.fld 0 8 3) = true ∨ c.fld 0 8 3 = s.spar.manager)) →
    s.takePages (if bit (c.arg 0) 2 then 1 else 0) 0 (c.arg 1) = some ps → ∃ v l,
    exec (.groupLend r) s = .next (finish c.id .ok l.id v) ∧ v.tiers.lends = s.tiers.lends ++ [l] ∧
      l.id = s.spar.member * 2 ^ 24 + s.tiers.nextLend % 2 ^ 24 ∧ l.lender = s.spar.member ∧ l.borrower = (if bit (c.arg 0) 9 then none else some (c.fld 0 8 3)) ∧
      l.reclaiming = false) ∧
  (∀ s r c l, Starts s r 0x0701 c → s.part.variant.ports ≠ 0 → c.fld 0 1 0 = 1 → c.argReserved 3 all64 0 0 0 = false → c.sub.payLen = 0 →
    s.tiers.lends.find? (fun x => decide (x.id = c.arg 1) && decide (x.lender = s.spar.member)) = some l → l.reclaiming = false →
    let l' := { l with reclaiming := true, cmd := some c.id }
    let w := updLend l.id (fun _ => l') s
    let v := forEach (w.borrowersOf l) (fun m s => sendTo m (.reclaimNotice l.id) s) w
    exec (.groupLendReclaim r) s = .next (setRunning c.id (if v.borrowersOf l = [] then endReclaim l' v else v))) ∧
  (∀ s i l, s.tiers.lends.find? (fun x => decide (x.id = i)) = some l → l.lender ≠ s.spar.member → l.reclaiming = false →
    let v := updLend i (fun y => { y with reclaiming := true }) s
    let w := forEach v.tiers.migrs (leaveTarget i) v
    exec (.reclaimNotice i) s = .next (reportLend i (forEach w.tiers.objs (leaveLend i) w))) ∧
  (∀ s m i n l, s.tiers.lends.find? (fun x => decide (x.id = i)) = some l → l.lender = s.spar.member → l.reclaiming = true → m ∉ l.reported →
    let l' := { l with reported := addOnce l.reported m, dropped := min (l.dropped + n) l.frames.length }
    exec (.reclaimReport m ⟨i, n⟩) s = .next (if (s.borrowersOf l').all (fun m => decide (m ∈ l'.reported)) then endReclaim l' s
      else updLend i (fun _ => l') s)) ∧
  (∀ s i l, s.tiers.lends.find? (fun x => decide (x.id = i)) = some l → l.reclaiming = true →
    exec (.reclaimLimit i) s = .next (if l.lender = s.spar.member then endReclaim l s else abandonLend i s))

/-- BOARD_PATROL, BOARD_RETRAIN and POISON_REWRITE_COMPLETE take effect (R411, R412, R414): a corrected unit is counted, an
uncorrectable one is poisoned; a channel that fails its retraining is lost; a poisoned page whose backing copy can be read
is rewritten into a new page.
Rests on choices of the model: log 81. -/
def Obligations.BoardEventsComplete : Prop :=
  (∀ s unit, unit % 64 = 0 → boardBase ≤ unit → unit < boardBase + s.boardBytes →
    exec (.boardPatrol unit true false) s = .next (count (memCnt 4) s) ∧ ∀ c,
    exec (.boardPatrol unit c true) s = .next (poisonRead unit { s with tiers := { s.tiers with poison := addOnce s.tiers.poison unit } })) ∧
  (∀ s ch, s.tiers.trained = true → s.tiers.unavailable = false → ch < s.part.variant.channels → ∃ v,
    exec (.boardRetrain ch false) s = .next v ∧ v.ready.boardMem = false ∧ v = boardLost (BitVec.ofNat 32 (2 ^ ch)) s) ∧
  (∀ s ch, exec (.boardRetrain ch true) s = .next s) ∧
  (∀ s unit b o p, unit ∈ s.tiers.rewrites →
    let s1 := { s with tiers := { s.tiers with rewrites := s.tiers.rewrites.filter (· ≠ unit) } }
    let old := (unit - boardBase) / pageBytes
    let i := o.pages.findIdx (fun g => decide (g = .board old))
    s1.objOnBoard unit = some o → s1.takePages 1 0 1 = some [p] →
    exec (.poisonRewriteComplete unit (some b)) s =
      .next (writeDva (o.dva + i * pageBytes) (slice b 0 pageBytes) (setPage o.dva i p (freePages [.board old] (usePages [p] s1)))))

/-- PLAN_LOAD, PLAN_START and PLAN_STOP take effect (R193-R195, R223-R226, R387): a valid image is held LOADED under its handle; a
loaded plan runs from its anchor with no step begun; a stop at the barrier, now, or with unloading does what its mode says.
Rests on choices of the model: log 12, 27 and 59. -/
def Obligations.PlanCommandsComplete : Prop :=
  (∀ s r pay c b p h fs, Starts s r 0x0400 c → c.argReserved 0x3F 0 0 0 0 = false → s.payload c pay = some b → b ≠ [] →
    (c.fld 0 5 5 = 0 → c.fld 0 4 0 = 0) → planAbsent s.part.variant b = false → parsePlan b = some p → s.planOk b p = true →
    s.loadHandle c = some h → takeFrames s.tiers.boardUsed s.boardFrames (cdiv b.length pageBytes) = some fs → s.planRoom p = true →
    s.ready.boardMem = true → ∃ v q,
    exec (.planLoad r pay) s = .next (finish c.id .ok (h + p.planId.toNat % 2 ^ 56 * 256) v) ∧ v.plan h = some q ∧ q.st = .loaded ∧
      q.plan = p ∧ q.frames = fs ∧ (∀ i, i < 8 → mget v.cnt (planCnt h i) = none)) ∧
  (∀ s r c p, Starts s r 0x0401 c → c.argReserved 0x1F all64 0 0 0 = false → c.sub.payLen = 0 → s.tbu.now + 100000 ≤ c.arg 1 →
    s.plan (c.fld 0 4 0) = some p → (∀ x ∈ s.startChecks c, x.1 = false) → s.wide c p = false → ∃ v q,
    exec (.planStart r) s = .next (finish c.id .ok 0 v) ∧ v.plan (c.fld 0 4 0) = some q ∧ q.st = .running ∧ q.anchor = c.arg 1 ∧
      q.steps = [] ∧ q.nextK = [] ∧ q.stopCmds = []) ∧
  (∀ s r c p, Starts s r 0x0402 c → c.argReserved 0x31F 0 0 0 0 = false → c.sub.payLen = 0 → c.fld 0 9 8 ≠ 3 →
    s.plan (c.fld 0 4 0) = some p → s.wide c p = false →
    exec (.planStop r) s = .next (setRunning c.id (
      if c.fld 0 9 8 = 1 then waitDone c.id 64 0 (haltPlan (c.fld 0 4 0) s)
      else if p.active = false then waitDone c.id 64 0 (if c.fld 0 9 8 = 2 then freePlan (c.fld 0 4 0) s else s)
      else
        let unload := decide (c.fld 0 9 8 = 2)
        let v := updPlan (c.fld 0 4 0) (fun p =>
          { p with st := .stopping, freeOnStop := p.freeOnStop || unload, stopCmds := p.stopCmds ++ [(c.id, unload)] }) s
        if p.steps = [] then endStopped (c.fld 0 4 0) v else v)))

/-- MAINT_START, MAINT_STATUS, MAINT_JOB_START and FOLLOW_UP take effect (R389, R390, R500, R503-R506): an activity begins in each
scope asked for and its job's number is answered; the records of the jobs asked for are written; a queued job that may run
runs from now; the waiting follow-up of the highest class does its work.
Rests on choices of the model: log 73. -/
def Obligations.MaintenanceCommandsComplete : Prop :=
  (∀ s r c, Starts s r 0x0600 c → s.maintFields c = true → (c.fld 0 3 0 = 9 → c.fld 0 10 8 < s.part.variant.ports) →
    (c.fld 0 3 0 ≠ 9 → ∀ i ∈ c.maintScopes, if bit (c.arg 0) 12 then (s.stack i).mounted = false ∨ (s.stack i).readOnly = true
      else (s.stack i).mounted = true) →
    (c.fld 0 3 0 = 9 → (s.port (c.fld 0 10 8)).st ≠ portFailed) → (∀ i ∈ c.maintScopes, s.jobActive (c.fld 0 3 0) i = false) →
    s.activeJobs + c.maintScopes.length ≤ 64 →
    exec (.maintStart r) s = .next (finish c.id .ok (s.maint.nextJob % 0xFFFF)
      (forEach c.maintScopes (fun i s => startActivity (c.fld 0 3 0) i (bit (c.arg 0) 12) c s) s))) ∧
  (∀ s r c, Starts s r 0x0601 c → c.argReserved 0xFFFF 0 0 0 0 = false →
    let l := (s.maint.jobs.take 64).filter (fun j => decide (c.fld 0 15 0 = 0xFFFF) || decide (j.id = c.fld 0 15 0))
    exec (.maintStatus r) s = .next (finish c.id .ok l.length (putPay c ((l.flatMap Job.bytes).take (c.sub.payLen / 32 * 32)) s))) ∧
  (∀ s job power j, s.maint.jobs.find? (fun j => decide (j.id = job) && decide (j.st < 2)) = some j → j.st = 0 → j.activity ≠ 6 →
    (j.activity = 2 → s.models.stage = none) → (j.activity = 4 → power + 16 * 24 ≤ 16 * s.pwr.capW) →
    (j.activity = 7 → s.maint.bistRound = []) → ∃ v,
    exec (.maintJobStart job power) s = .next v ∧ ∃ k ∈ v.maint.jobs, k.id = job ∧ k.st = 1 ∧ k.start = s.tbu.now) ∧
  (∀ s f, nextFollowUp s.err.waiting = some f →
    exec .followUp s = .next (Machine.followUp f { s with err := { s.err with waiting := s.err.waiting.filter (· ≠ f) } }))

/-- SELFTEST, BIST_ROUND_COMPLETE and ANALOGUE_CHECKS_DONE take effect (R393, R508-R512): the array test and the analogue checks are
queued and awaited, a physical read answers what is stored, or BLANK for an erased line, the destructive patterns are followed by a checkpoint of
each stack; a round's arrays are judged, and the test ends with its counts or goes on; analogue checks that all pass end 0.
Rests on choices of the model: log 47 and 73. -/
def Obligations.SelfTestsComplete : Prop :=
  (∀ s r c, Starts s r 0x0A00 c → c.fld 0 7 0 = 0 → c.argReserved 0xFF all64 0 0 0 = false → c.sub.payLen = 0 →
    let l := (List.range 64).filter (fun a => bit (c.arg 1) a)
    l ≠ [] → s.sec.lifecycle ∈ [1, 4, 5] → (∀ a ∈ l, ∀ p ∈ s.plans, p.2.active = false ∨ p.2.plan.uses a = false) → s.activeJobs < 64 → ∃ v,
    exec (.selftest r) s = .next (setRunning c.id (if s.maint.bist = [] then startRound s.pwr.power.toNat v else v)) ∧
      v.maint.bist = s.maint.bist ++ [{ cmd := c.id, left := l, total := l.length, cells := 0, logic := 0 }]) ∧
  (∀ s r c, Starts s r 0x0A00 c → c.fld 0 7 0 = 1 → c.argReserved 0xFF 0xFF1F 0 0 0 = false → c.sub.payLen = 0 →
    (bit (c.arg 1) 0 = false → portsIn (c.fld 1 15 8) = []) → (∀ p ∈ portsIn (c.fld 1 15 8), p < s.part.variant.ports) →
    s.sec.lifecycle ∈ [1, 4, 5] → (s.spar.st = 1 ∨ s.spar.st = 2 → ∀ p ∈ portsIn (c.fld 1 15 8), (s.port p).st ≠ portUp) → ∃ v,
    exec (.selftest r) s = .next (setRunning c.id v) ∧ v.maint.analog = s.maint.analog ++
      [{ cmd := c.id, checks := BitVec.ofNat 5 (c.arg 1), ports := BitVec.ofNat 8 (c.fld 1 15 8) }]) ∧
  (∀ s r c, Starts s r 0x0A00 c → c.fld 0 7 0 = 2 → c.argReserved 0xFF (2 ^ 34 - 1) 0 0 0 = false → c.fld 1 19 16 ≤ 8 →
    c.fld 1 25 20 < physBlocks s.part.variant → (if c.fld 1 19 16 = 8 then 86 else 82) ≤ c.sub.payLen →
    let sb := sbKey (c.fld 1 5 0) (c.fld 1 15 6) (c.fld 1 19 16)
    let n := if c.fld 1 19 16 = 8 then 86 else 82
    exec (.selftest r) s = .next (
      if (s.pb (pbKey sb (c.fld 1 25 20))).erasing then finish c.id .erasePending 0 s
      else match mget s.slate.lines (lnKey sb (c.fld 1 25 20) (c.fld 1 33 26)) with
        | none => finish c.id .ok 1 s
        | some l =>
          let r := readPhysical (s.physMisdirected sb (c.fld 1 25 20) l) l s
          finish c.id .ok ((r.2.1 + r.2.2.1 * 8) * 2 + n * 256) (putPay c (r.1.take n)
            (if r.2.1 = 1 then physCorrected (c.fld 1 5 0) (c.fld 1 15 6) (c.fld 1 19 16) (c.fld 1 25 20) r.2.2.1 r.2.2.2 else r.2.2.2)))) ∧
  (∀ s r c, Starts s r 0x0A00 c → c.fld 0 7 0 = 3 → c.argReserved 0xFF 3 0 0 0 = false → c.sub.payLen = 0 → c.fld 1 1 0 ≠ 3 →
    s.sec.lifecycle ∈ [1, 5] → (∀ m ∈ s.models.slots, m.2.st = .empty) → s.plans = [] →
    let l := stacksOf (c.fld 1 1 0)
    let t := forEach l patternStack s
    exec (.selftest r) s = .next (setRunning c.id
      (forEach l (fun i s => askCkpt i true false true (some (c.id, t.retiredIn l - s.retiredIn l)) s) t))) ∧
  (∀ s cells logic x l, s.maint.bist = x :: l → s.maint.bistRound ≠ [] → x.left = [] →
    let nl := (s.maint.bistRound.filter (fun a => decide (a ∈ logic))).length
    let nc := (s.maint.bistRound.map (fun a => if a ∈ logic then 1024 else
      ((List.range 1024).filter (fun c => decide (a * 1024 + c ∈ cells))).length)).sum
    let t := forEach s.maint.bistRound (bistArray cells logic) s
    exec (.bistRoundComplete cells logic) s = .next (startRound t.pwr.power.toNat
      (retarget (finish x.cmd .ok ((x.cells + nc) % 65536 + (x.logic + nl) * 65536)
        (endJobs (fun j => decide (j.cmd = some x.cmd) && decide (j.activity = 6)) 2
          { t with maint := { t.maint with bist := l, bistRound := [] } }))))) ∧
  (∀ s res x l, s.maint.analog = x :: l → (∀ p ∈ portsIn x.ports.toNat, s.jobActive 9 p = false) → res.failed &&& x.checks = 0 →
    exec (.analogueChecksDone res) s = .next (finish x.cmd .ok 0
      (forEach (portsIn x.ports.toNat) (afterLoopback 0) { s with maint := { s.maint with analog := l } })))

/-- FW_STAGE, FW_DELTA, FW_VERIFY, FW_ACTIVATE, ATTEST and LIFECYCLE_SET take effect (R393, R445-R450, R454, R458-R460, R463-R466): bytes
are programmed into STAGING, which is unverified; a package that verifies and does not roll back marks STAGING verified and
answers its version; an activation is scheduled; a digest is countersigned with an index that is never used again; an
authorised transition takes effect and is counted.
Rests on choices of the model: log 38, 51, 52, 53 and 54. -/
def Obligations.FirmwareCommandsComplete : Prop :=
  (∀ s r pay c b, Starts s r 0x0800 c → s.payload c pay = some b → stageBad c (some b) = false → s.stageBlocked c false = false →
    s.activeJobs < 64 →
    (bit (c.arg 0) 32 = true ∨ s.sec.stageRun = false ∨ ∀ x ∈ s.sec.written, meets (c.fld 0 24 0) b.length x.1 x.2 = false) →
    let v := beginStaging (bit (c.arg 0) 32) false s
    let w := flashProgram (stagingBase + c.fld 0 24 0) b { v with sec := { v.sec with written := v.sec.written ++ [(c.fld 0 24 0, b.length)] } }
    exec (.fwStage r pay) s = .next (finish c.id .ok 0 (stageJob c (endRun (bit (c.arg 0) 33) w))) ∧ w.sec.stagingOk = false) ∧
  (∀ s r pay c b, Starts (redrawFlash s) r 0x0801 c → (redrawFlash s).payload c pay = some b → stageBad c (some b) = false →
    (redrawFlash s).stageBlocked c true = false → s.activeJobs < 64 →
    let v := redrawFlash s
    let had := if bit (c.arg 0) 32 || !v.sec.isDelta then [] else v.sec.delta
    c.fld 0 24 0 = had.length → bit (c.arg 0) 33 = false →
    ((had ++ b).length < 8192 ∨ slice (had ++ b) 24 48 = v.activeDigest) →
    let w := beginStaging (bit (c.arg 0) 32) true v
    exec (.fwDelta r pay) s = .next (finish c.id .ok 0 (stageJob c (endRun false
      (flashProgram (stagingBase + (v.patched had).1.length) ((v.patched (had ++ b)).1.drop (v.patched had).1.length)
        { w with sec := { w.sec with delta := had ++ b } }))))) ∧
  (∀ s r c, Starts (redrawFlash s) r 0x0802 c → c.argReserved 0 0 0 0 0 = false → c.sub.payLen = 0 →
    let v := redrawFlash s
    let n := pkgSec (v.flashRead stagingBase 8192)
    v.imageOk stagingBase = true → v.sec.counter ≤ n →
    exec (.fwVerify r) s = .next (finish c.id .ok n { v with sec := { v.sec with stagingOk := true } })) ∧
  (∀ s r c, Starts s r 0x0803 c → c.argReserved all64 1 0 0 0 = false → c.sub.payLen = 0 →
    bit (c.arg 1) 0 = (decide (s.spar.st = 1) && !s.sec.recovery) → s.tbu.now + 10000000 ≤ c.arg 0 → s.sec.stagingOk = true →
    s.wideMembers c = [] → ∃ v,
    exec (.fwActivate r) s = .next (finish c.id .ok (c.arg 0) v) ∧ v.sec.actTime = some (c.arg 0) ∧
      v.sec.actDeferred = s.models.stage.isSome) ∧
  (∀ s r pay c b, Starts s r 0x0900 c → c.argReserved 0 all64 low32 0 0 = false → s.payload c pay = some b → c.sub.payLen = 80 →
    5396 ≤ c.fld 2 31 0 → slice b 0 48 ∈ s.sec.doe.hashes ++ s.sec.smbus.hashes →
    s.sec.lifecycle ∉ [lcBlank, lcManufacture, lcScrapped] → s.sec.lmsGone = false →
    let i := takeIndex s
    exec (.attest r pay) s = .next (finish c.id .ok 5396
      (putOut c false (c.arg 1) (slice (Config.hssSign i.1 (s.attestMessage b)) 0 5396) i.2)) ∧ i.2.sec.lmsNext = i.1 + 1) ∧
  (∀ s r pay c b w, Starts s r 0x0901 c → c.argReserved 7 0 0 0 0 = false → s.payload c pay = some b → c.sub.payLen = 2252 →
    c.fld 0 2 0 ≤ 6 → authReserved b s.sec.lifecycle (c.fld 0 2 0) = false → s.authorised b (c.fld 0 2 0) = true →
    authority s.sec.lifecycle (c.fld 0 2 0) = some w →
    (c.fld 0 2 0 = lcReturned → ∀ m ∈ s.models.slots, m.2.st = .empty) → ∃ v,
    exec (.lifecycleSet r pay) s = .next (finish c.id .ok 0 v) ∧ v.sec.lifecycle = c.fld 0 2 0 ∧
      v.sec.transitions = s.sec.transitions + 1)

/-- GROUP_FORM FORM and DISSOLVE, GROUP_STATUS, JOIN_REPLY, MEMBER_REACH_TIMEOUT, JOIN_REQUEST and JOIN_CONFIRM take effect (R334-R338,
R391, R392): a formation asks each member to join; with the last ready answer it is confirmed, or given up where this device's ports
show a wrong cabling; it ends with the last join, and is given up for a member that refuses or is not reached; a device asked answers and trains its ports, and one confirmed is a
worker of the group; a group dissolved leaves the device ungrouped; the status and the member records are written.
Rests on choices of the model: log 45 and 46. -/
def Obligations.GroupCommandsComplete : Prop :=
  (∀ s r pay c b me, Starts s r 0x0700 c → s.part.variant.ports ≠ 0 → bit (c.arg 0) 0 = false → c.argReserved 0xFFFF 0 0 0 0 = false →
    s.payload c pay = some b → b.length = 16 * c.fld 0 15 9 → c.sub.payLen = b.length →
    (∀ i, i < (formMembers b).length → leNat (slice b (16 * i + 9) 7) = 0) →
    topologyOk s.part.variant (bit (c.arg 0) 2) (c.fld 0 5 3 + 1) (c.fld 0 8 6 + 1) (formMembers b) = true →
    (formMembers b).find? (fun m => decide (m.2 = s.part.serial)) = some me → (s.spar.roleWorker = true → bit (c.arg 0) 1 = true) →
    s.spar.st ≠ 1 → s.spar.st ≠ 2 → s.ready.spar = true → s.spar.forming = none → s.models.stage = none →
    let k : Forming := { cmd := c.id, torus := bit (c.arg 0) 2, rows := c.fld 0 5 3 + 1, cols := c.fld 0 8 6 + 1, members := formMembers b,
                         ready := [me.1], joined := [me.1] }
    exec (.groupForm r pay) s = .next (setRunning c.id
      (forEach ((formMembers b).filter (fun m => decide (m.2 ≠ s.part.serial))) (fun m s => flood me.1 m.1 (.joinRequest m.2 m.1) s)
        (trainPorts true { s with spar := { s.spar with forming := some k } })))) ∧
  (∀ s r c, Starts s r 0x0700 c → s.part.variant.ports ≠ 0 → bit (c.arg 0) 0 = true → c.argReserved 1 0 0 0 0 = false → c.sub.payLen = 0 →
    (s.spar.st = 1 ∨ s.spar.st = 2) → (∀ p ∈ s.plans, p.2.active = false ∨ p.2.plan.group = false) →
    exec (.groupFormDissolve r) s = .next (if s.wideMembers c = [] then finish c.id .ok 0 (leaveGroup s)
      else setRunning c.id (sendMembers c (s.wideMembers c) false 0 0 [] s))) ∧
  (∀ s r c, Starts s r 0x0702 c → c.argReserved 0 0 0 0 0 = false →
    let n := if s.spar.members = [] then 0 else 64
    exec (.groupStatus r) s = .next (finish c.id .ok s.spar.size (putPay c
      ((toLE 4 s.groupStatusReg ++ toLE 4 n ++ toLE 8 0 ++ (List.range n).flatMap s.memberRec).take c.sub.payLen) s))) ∧
  (∀ s m k, s.spar.forming = some k → m ∈ k.members.map (·.1) →
    let k' := { k with ready := addOnce k.ready m }
    (∀ isM, s.spar.st ≠ 1 → (isM = true → k.torus = false ∧ k.members.length ≤ 5) →
      exec (.joinReply m (.ready false isM true)) s = .next (
        if k.members.all (fun x => decide (x.1 ∈ k'.ready)) then
          match s.miscabled k' (k.joined.headD 0) with
          | some x => refuseForm k' x .noResource s
          | none => confirmForm k' s
        else { s with spar := { s.spar with forming := some k' } })) ∧
    (s.spar.st = 1 → exec (.joinReply m .joined) s = .next (settleForm { k with joined := addOnce k.joined m } s)) ∧
    (s.spar.st ≠ 1 → exec (.joinReply m .otherManager) s = .next (refuseForm k m .wrongState s) ∧
      exec (.joinReply m .stageOpen) s = .next (refuseForm k m .busyMaint s) ∧
      exec (.joinReply m .entering) s = .next (refuseForm k m .noResource s) ∧
      (∀ isM ok, exec (.joinReply m (.ready true isM ok)) s = .next (refuseForm k m .unsupported s)) ∧
      (∀ ok, k.torus = true ∨ 5 < k.members.length → exec (.joinReply m (.ready false true ok)) s = .next (refuseForm k m .badField s)) ∧
      exec (.joinReply m (.ready false false false)) s = .next (refuseForm k m .noResource s))) ∧
  (∀ s m k, s.spar.forming = some k → m ∈ k.members.map (·.1) → m ∉ k.ready → s.spar.st ≠ 1 →
    exec (.memberReachTimeout m) s = .next (refuseForm k m .noResource s)) ∧
  (∀ s mgr m, s.part.variant.ports ≠ 0 → s.ready.spar = true → s.sparEntering = false → s.pwr.state = .run → s.pwr.waking = false →
    exec (.joinRequest mgr m s.part.serial) s = .next (
      if s.spar.st = 1 ∨ s.spar.st = 2 then flood m mgr (.joinAnswer .otherManager) s
      else flood m mgr (.joinAnswer (if s.models.stage.isSome then .stageOpen
        else .ready (decide (s.part.variant = .s)) (decide (s.part.variant = .m)) true)) (trainPorts true s))) ∧
  (∀ s mgr m n torus rows cols, s.spar.st ≠ 1 → s.spar.st ≠ 2 → s.part.variant.ports ≠ 0 → ∃ v,
    exec (.joinConfirm mgr m n torus rows cols) s = .next v ∧ v.spar.st = 2 ∧ v.spar.member = m ∧ v.spar.manager = mgr ∧
      v.spar.size = n ∧ v.spar.torus = torus ∧ v.codec.rx = [] ∧ v.codec.tx = [])

/-- FORWARDED_COMMAND, FORWARDED_RESULT, MANAGER_LOST and MEMBER_LOST take effect (R352-R355, R376, R377): a worker carries out what its
manager sends, a NOP at once; a member's result ends the command sent to it; a worker not heard from for 1 ms loses its group, and
the manager counts a member it has not heard from as lost.
Rests on choices of the model: log 59. -/
def Obligations.ForwardingAndLossComplete : Prop :=
  (∀ s src entry pay, s.spar.st = 2 → src = s.spar.manager →
    let a := acceptForwarded src entry (wakeEvent false s)
    a.1.op = 0 → a.2.roleRefuses a.1 = false → a.1.headReserved = false → a.1.argReserved 0 0 0 0 0 = false → a.1.sub.payLen = 0 →
    a.2.pwr.entry = none →
    exec (.forwardedCommand src entry pay) s = .next (finish a.1.id .ok 0 a.2)) ∧
  (∀ s m r st res out c, s.spar.st = 1 → s.sentCmd r = some c → c.fwdTo = some m →
    exec (.forwardedResult m r st res out) s = .next (finishWith c.id st.toNat 0 res.toNat
      (if c.op = 0x0701 ∧ st = 0 then noteLend c m res.toNat (putMember c out s) else putMember c out s))) ∧
  (∀ s t, s.spar.st = 2 → s.spar.lastTime + 1000000 ≤ (reachTime t s).tbu.now → s.spar.suspended = none →
    (reachTime t s).activating = false → ∃ v,
    exec (.managerLost t) s = .next v ∧ v.spar.st = 3 ∧ v.spar.memberLost = true ∧ v.err.fatalGroup = true ∧
      v.tbu.locked = false ∧ v.tbu.holdover = true) ∧
  (∀ s m t x, mget s.spar.members m = some x → s.spar.st = 1 → m ≠ s.spar.member → x.st = 1 →
    x.lastStatus + 1000000 ≤ (reachTime t s).tbu.now → s.spar.suspended = none → (reachTime t s).activating = false →
    exec (.memberLost m t) s = .next (loseMember m (reachTime t s)))

/-- The flits that carry data, acknowledgements and control take effect on an UP port (R340, R343, R286, R342): a good one is taken in
order; data for this device joins its message, which is delivered with its last flit; a NAK is answered by the replay; a
control flit does what it says; a bad one is answered by a NAK.
Rests on choices of the model: log 32 and 45. -/
def Obligations.LinkFlitsComplete : Prop :=
  (∀ s p f, FlitComes s p 1 f →
    let t := tookFlit p f s
    let b := slice f.payload 0 f.len
    let key := f.src.toNat * 65536 + f.chanSeq.toNat
    let all := mgetD t.spar.partMsg key [] ++ b
    exec (.dataFlit p f) s = .next (if f.dst.toNat ≠ t.spar.member then passOn f (.data b) t
      else if f.eom then messageIn f.src.toNat f.chanSeq.toNat all { t with spar := { t.spar with partMsg := mdel t.spar.partMsg key } }
      else { t with spar := { t.spar with partMsg := mset t.spar.partMsg key all } })) ∧
  (∀ s p f, (s.port p).st = portUp → p < s.part.variant.ports → (s.port p).good f = false →
    exec (.badFlit p f) s = .next (Machine.badFlit p f s)) ∧
  (∀ s p f, FlitComes s p 2 f → exec (.ackFlit p f) s = .next (tookFlit p f s)) ∧
  (∀ s p f, FlitComes s p 3 f → exec (.nakFlit p f) s = .next (replay p (tookFlit p f s))) ∧
  (∀ s p f, FlitComes s p 7 f → f.dst.toNat = (tookFlit p f s).spar.member →
    let t := tookFlit p f s
    exec (.ctrlFlit p f .halt) s = .next (haltGroup t) ∧
    (∀ h, exec (.ctrlFlit p f (.mismatch h)) s = .next (noteMismatch h t)) ∧
    (∀ i n, exec (.ctrlFlit p f (.lend i n)) s = .next (addLend i f.src.toNat n t)) ∧
    let c := chanOf t.codec.tx f.src.toNat
    (∀ i, exec (.ctrlFlit p f (.slotEmptied i)) s = .next { t with codec := { t.codec with
      tx := mset t.codec.tx f.src.toNat { c with slots := mdel c.slots i, order := c.order.filter (· ≠ i) } } }) ∧
    (∀ n b, (chanOf t.codec.tx f.src.toNat).sent[n]? = some b → exec (.ctrlFlit p f (.resendBlock n)) s =
      .next (sendMsg f.src.toNat (Config.wireMessage msgBlock n b) (count (cdcCnt (t.linkInst f.src.toNat) 5) t))))

/-- The flits that keep counters, time and status, and the ports themselves, take effect (R341, R342, R348-R352): a SYNC operation
reaches its replica; a worker follows its manager's time and the manager sends it; the manager keeps the epochs a worker reports;
a port goes down, trains and comes UP again; a route table takes effect.
Rests on choices of the model: log 45 and 74. -/
def Obligations.GroupFlitsAndPortsComplete : Prop :=
  (∀ s p f op, FlitComes s p 4 f → f.dst.toNat = (tookFlit p f s).spar.member →
    exec (.syncFlit p f op) s = .next (takeSync op (tookFlit p f s))) ∧
  (∀ s p f now delay, FlitComes s p 5 f → (tookFlit p f s).spar.st = 2 → ∃ v,
    exec (.timeFlit p f now delay) s = .next v ∧ v.tbu.locked = true ∧ v.tbu.source = 2 ∧ v.tbu.holdover = false ∧
      v.ready.time = true ∧ v.spar.lastTime = v.tbu.now ∧ v.spar.joinAck = false) ∧
  (∀ s, s.spar.st = 1 → exec .timeFlitSend s = .next (forEach s.upPorts (fun p s => portSend p (s.flitOf (s.port p).peer (.time s.tbu.now)) s) s)) ∧
  (∀ s p f epochs t m, FlitComes s p 6 f → f.dst.toNat = (tookFlit p f s).spar.member → (tookFlit p f s).spar.st = 1 →
    mget (tookFlit p f s).spar.members f.src.toNat = some m → ∃ v,
    exec (.statusFlit p f epochs t) s = .next v ∧ mget v.spar.members f.src.toNat = some { m with epochs := epochs, lastStatus := v.tbu.now }) ∧
  (∀ s, s.spar.st = 2 → exec .statusFlitSend s = .next (sendTo s.spar.manager (.status s.epochList) s)) ∧
  (∀ s p l, (s.port p).st = portUp → p < s.part.variant.ports →
    exec (.portDown p (some l)) s = .next (takeDown p (count (sprCnt p 6)
      (updPort p (fun x => { x with lanesOk := x.lanesOk &&& ~~~ BitVec.ofNat 4 (2 ^ l) }) s)))) ∧
  (∀ s p peer, (s.port p).st = portTraining → p < s.part.variant.ports →
    exec (.retrainComplete p true peer) s = .next (flushWaiting (endJob 9 p 2
      (updPort p (fun x => { x with st := portUp, peer := peer % 64, lanesOk := 15, failRow := 0 }) s))) ∧
    exec (.retrainComplete p false peer) s = .next (trainFailed p s)) ∧
  (∀ s routes hops, (s.spar.st = 1 ∨ s.spar.st = 2) → ∃ v,
    exec (.routeTableApply routes hops) s = .next v ∧ v.spar.routes =
      (routes.filter (fun r => decide (r.1 < 64) && decide (r.2 < s.part.variant.ports))).foldl (fun m r => mset m r.1 r.2) [])

/-- CODEC_BLOCK_RECEIVED takes effect (R280-R282, R286): a block that expands adds its bytes to the transfer, a TABLE block installs
its table, and a damaged one is asked for again, twice, and then lost.
Rests on choices of the model: log 32 and 74. -/
def Obligations.CodecBlocksComplete : Prop :=
  ∀ s src port block copy, src ∈ s.groupList → src ≠ s.spar.member → (s.spar.st = 1 ∨ s.spar.st = 2) → port < s.part.variant.ports →
    let c := chanOf s.codec.rx src
    let h := blockHead block
    (∀ raw, expandBlock (fun i => mget c.slots i) true block = some raw → h.typ ≠ 3 →
      exec (.codecBlockReceived ⟨src, port⟩ ⟨block, copy⟩) s = .next (takeRaw src raw h.last false s)) ∧
    (∀ raw, expandBlock (fun i => mget c.slots i) true block = some raw → h.typ = 3 →
      exec (.codecBlockReceived ⟨src, port⟩ ⟨block, copy⟩) s = .next (count (cdcCnt port 3) (updRx src (fun c =>
        { c.install h.table (tableOf (slice block 4 128)) with got := c.got + 1, tries := 0 }) s))) ∧
    (expandBlock (fun i => mget c.slots i) true block = none → c.tries < 2 →
      exec (.codecBlockReceived ⟨src, port⟩ ⟨block, copy⟩) s = .next (sendTo src (.resend c.got) (updRx src (fun c => { c with tries := c.tries + 1 }) s))) ∧
    (expandBlock (fun i => mget c.slots i) true block = none → 2 ≤ c.tries →
      exec (.codecBlockReceived ⟨src, port⟩ ⟨block, copy⟩) s = .next (blockLost src port (blockHead (toLE 4 copy.toNat)) s))

/-- COMMAND_FETCH, the doorbells, the enables and the timer of a queue pair take effect (R361-R364, R370) while the device is awake: the
pair next in turn is fetched from, and a read that fails is made again; a tail and a head in range are taken, and a consumed completion frees its tag; a pair comes
into service with its indices 0 and goes out of it; waiting completions raise the interrupt.
Rests on choices of the model: log 26. -/
def Obligations.QueuePairCommandsComplete : Prop :=
  (∀ s q bus, s.nextPair = some q →
    exec (.commandFetch bus) s = .next (match s.sqEntry q bus with
      | some b => acceptEntry q b s
      | none => updPair q (fun p => { p with ringErr := true, retry := true }) { s with mbx := { s.mbx with lastServed := q } })) ∧
  (∀ s q bus b, (s.pair q).enable = true → (s.pair q).retry = true → q < 64 → s.sqEntry q bus = some b →
    exec (.sqFetchRetry q bus) s = .next (acceptEntry q b s)) ∧
  (∀ s q (v : Word), Awake s → q < 64 → v.toNat < (s.pair q).n → v.toNat < 1024 →
    exec (.sqTailDoorbell q v) s = .next (updPair q (fun p => { p with sqTail := v.toNat }) s)) ∧
  (∀ s q (v : Word), Awake s → q < 64 → v.toNat < (s.pair q).n → v.toNat < 1024 →
    exec (.cqHeadDoorbell q v) s = .next (updPair q (fun p => { p with
      cqHead := v.toNat, tagsPosted := p.tagsPosted.drop ((v.toNat + p.n - p.cqHead) % p.n) }) s)) ∧
  (∀ s q (v : Word), Awake s → q < 64 → bit v.toNat 0 = true → bit v.toNat 7 = false → 4 ≤ bits v.toNat 4 1 →
    bits v.toNat 4 1 ≤ 10 → (s.pair q).enable = false → ∃ t,
    exec (.qpEnable q v) s = .next t ∧ (t.pair q).enable = true ∧ (t.pair q).n = 2 ^ bits v.toNat 4 1 ∧ (t.pair q).sqHead = 0 ∧
      (t.pair q).sqTail = 0 ∧ (t.pair q).cqHead = 0 ∧ (t.pair q).cqTail = 0 ∧ (t.pair q).phase = true ∧ (t.pair q).tagsRun = [] ∧
      (t.pair q).ready = (s.ready.mbx && (!s.sec.recovery || decide (q = 0)))) ∧
  (∀ s q (v : Word), Awake s → q < 64 → bit v.toNat 0 = false → bit v.toNat 7 = false → ∃ t,
    exec (.qpDisable q v) s = .next t ∧ (t.pair q).enable = false ∧ (t.pair q).ready = false) ∧
  (∀ s q, (s.pair q).irqEn = true → 0 < (s.pair q).unsig →
    exec (.coalesceTimerExpiry q) s = .next (raiseVector (s.pair q).vector.toNat (updPair q (fun p => { p with unsig := 0 }) s)))

/-- The register rows take effect on a device that is awake (R10, R68, R69, R227, R396, R399, R404, R498): an aligned 32-bit write with no reserved bit set reaches
its register, and one with a reserved bit is discarded and logged, as is one of another size or off its alignment; an aligned
64-bit write is two, the lower first; `clear_counters` clears every counter and write-1-to-clear the
sticky bits; a read of TBU_NOW latches its upper half; a BAR2 base in range is applied and a new size sets it to 0; consumed ring
entries are given back. Configuration space gives the endpoint's identity.
Rests on choices of the model: log 79 and 100. -/
def Obligations.RegisterCommandsComplete : Prop :=
  (∀ s o (v : Dword) m, Awake s → o % 4 = 0 → reservedBits o = some m → v.toNat < 2 ^ 32 → o ≠ 0x14 →
    exec (.registerWrite o 4 v) s = .next (if Nat.land v.toNat m = 0 then wordWrite o v.toNat s else hostAccess 0 o v.toNat 0 s)) ∧
  (∀ s (v : Word), Awake s → Nat.land v.toNat 0x7FFFFF80 = 0 → bit v.toNat 31 = true → ∃ t,
    exec (.clearCounters v) s = .next t ∧ t.cnt = [] ∧ t.tbu.ppsRejects = 0 ∧ t.fmtSticky = s.fmtSticky &&& ~~~ BitVec.ofNat 7 v.toNat) ∧
  (∀ s t, Awake (reachTime t s) → ∃ v,
    exec (.tbuNowRead t) s = .next v ∧ v.tbu.now = (if s.tbu.holdTo.isSome then s.tbu.now else max s.tbu.now t) ∧ v.tbu.hiLatch.toNat = v.tbu.now / 2 ^ 32 % 2 ^ 32 ∧
      v.out = s.out ++ [.readData (toLE 4 v.tbu.now)]) ∧
  (∀ s (v : Word), Awake s → v.toNat < 2 ^ 16 → (v.toNat * 2 ^ 32 + s.host.bar2Lo.toNat) % 2 ^ s.host.bar2SizeLog2 = 0 →
    exec (.bar2BaseHiWrite v) s = .next { s with host := { s.host with bar2Base := v.toNat * 2 ^ 32 + s.host.bar2Lo.toNat } }) ∧
  (∀ s n, 30 ≤ n → n ≤ 39 → n ≠ s.host.bar2SizeLog2 →
    exec (.bar2Resize n) s = .next { s with host := { s.host with bar2SizeLog2 := n, bar2Base := 0, bar2Lo := 0 } }) ∧
  (∀ s (v : Word), Awake s → v.toNat < 256 → (v.toNat + 256 - s.err.head) % 256 ≤ s.err.entries →
    exec (.errHeadWrite v) s = .next { s with err := { s.err with
      head := v.toNat, entries := s.err.entries - (v.toNat + 256 - s.err.head) % 256 } }) ∧
  (∀ s o (v : Dword), Awake s → o % 8 = 0 →
    exec (.registerWrite o 8 v) s = .next (write32 (o + 4) (v.toNat / 2 ^ 32) (write32 o (v.toNat % 2 ^ 32) s))) ∧
  (∀ s o n (v : Dword), Awake s → ¬ (n = 4 ∧ o % 4 = 0) → ¬ (n = 8 ∧ o % 8 = 0) →
    exec (.registerWrite o n v) s = .next (hostAccess 0 o (v.toNat % 2 ^ 32) 0 s)) ∧
  (∀ s : State, s.configWord 0 = some (0x1F5D + (match s.part.variant with | .x => 0x4C40 | .m => 0x4C41 | .s => 0x4C42) * 2 ^ 16) ∧
    s.configWord 8 = some (s.part.stepping.toNat + 0x120000 * 2 ^ 8))

/-- The host's accesses and the DMA rows take effect on a device that is awake (R290, R397, R399-R403, R438, R471, R472): a BAR2 read within the window returns data and a
write of it is carried out at the window's place; a poisoned write is recorded and reported; an unmasked vector that is pending is
sent; a DMA engine comes into service with its indices 0, goes out of it, takes its tail, carries out a descriptor as far as the host's data come, and halts on a bus error. An access in IDLE or SLEEP wakes the device and is held, one during an exit is
held too, one in DEEP_SLEEP is refused, and a write during a warm restart is discarded and logged.
Rests on choices of the model: log 26, 55, 65, 79 and 102. -/
def Obligations.HostAccessesComplete : Prop :=
  (∀ s off len data, Awake s → off + data.length ≤ 2 ^ s.host.bar2SizeLog2 →
    exec (.hostBar2Access true off len data) s = .next (hostWrite 2 off (s.host.bar2Base + off) data s)) ∧
  (∀ s x bar off v k,
    (s.pwr.state = .idle ∨ s.pwr.state = .sleep → busAccess x bar off v k s = holdAccess x (wakeEvent false s)) ∧
    (s.pwr.state = .run → s.pwr.waking = true → busAccess x bar off v k s = holdAccess x s) ∧
    (s.pwr.state = .deepSleep → busAccess x bar off v k s =
      emit .unsupportedRequest { s with pwr := { s.pwr with refused := s.pwr.refused ++ [(bar, off, v)] } }) ∧
    (s.pwr.state = .run → s.pwr.waking = false → s.restarting = true → ∀ o n w, busAccess (.write o n w) bar off v k s = hostAccess bar off v 0 s)) ∧
  (∀ s o n (v : Dword), exec (.registerWrite o n v) s = .next (busAccess (.write o n v.toNat) 0 o (v.toNat % 2 ^ 32) (barWrite o n v.toNat) s)) ∧
  (∀ s off n data, Awake s → off + n ≤ 2 ^ s.host.bar2SizeLog2 →
    exec (.hostBar2Access false off n data) s = .next (emit (.readData (hostRead 2 off (s.host.bar2Base + off) n s).1)
      (hostRead 2 off (s.host.bar2Base + off) n s).2)) ∧
  (∀ s bar off, Awake s → ∃ t, exec (.poisonedWriteTlp bar off) s = .next t ∧ t.host.aerPoisoned = true ∧ Out.aerPoisoned ∈ t.out) ∧
  (∀ s v, v < 2048 → ∃ t, exec (.msixUnmask v) s = .next t ∧ v ∈ t.host.unmasked ∧ v ∉ t.host.pba ∧
    t.out = s.out ++ (if v ∈ s.host.pba then [.msix v] else [])) ∧
  (∀ s e (v : Word), Awake s → e < 4 → bit v.toNat 0 = true → v.toNat < 2 ^ 16 → 4 ≤ bits v.toNat 4 1 → bits v.toNat 4 1 ≤ 12 →
    (s.dma e).enable = false → ∃ t,
    exec (.dmaEnable e v) s = .next t ∧ (t.dma e).enable = true ∧ (t.dma e).n = 2 ^ bits v.toNat 4 1 ∧ (t.dma e).head = 0 ∧
      (t.dma e).tail = 0 ∧ (t.dma e).halted = false ∧ (t.dma e).vector = BitVec.ofNat 11 (bits v.toNat 15 5)) ∧
  (∀ s e (v : Word), Awake s → e < 4 → bit v.toNat 0 = false → v.toNat < 2 ^ 16 → ∃ t,
    exec (.dmaDisable e v) s = .next t ∧ (t.dma e).enable = false) ∧
  (∀ s e (v : Word), Awake s → e < 4 → v.toNat < (s.dma e).n → v.toNat < 4096 →
    exec (.dmaTailDoorbell e v) s = .next (updDma e (fun d => { d with tail := v.toNat }) s)) ∧
  (∀ s e b (x : Bytes), s.pwr.state = .run → e < 4 → s.dmaBusy e = true → b.length = 32 → dmaBad b = false → bit (u b 20 1) 0 = false →
    x ≠ [] →
    let v := if bit (u b 20 1) 1 then hostWrite 2 0 (u b 8 8) (x.take (u b 16 4)) s else emit (.hostWrite (u b 8 8) (x.take (u b 16 4))) s
    exec (.dmaDescriptor e (some b) (some x)) s =
      .next (if x.length < u b 16 4 then dmaFault e v else dmaDone e .ok (bit (u b 20 1) 2) v)) ∧
  (∀ s e, s.pwr.state = .run → e < 4 → s.dmaBusy e = true → ∃ t,
    exec (.dmaBusError e) s = .next t ∧ (t.dma e).halted = true ∧ (t.dma e).busErr = true)

/-- The resets take effect (R397, R437, R441, R450-R452, R457): POR and PERST_N are a cold boot, which leaves no plan, no queue pair, no
coded channel, no RAM content and the timebase at its reset values, or the device in OFF where it is too hot; FLR resets the pairs and
the host's side while plans and their steps go on without streams; the watchdog and a recovery request are the warm restart into recovery mode; an activation whose time
has come is the warm restart of a pending activation record, once the device has come to rest; a member or manager that does not return
from one is lost.
Rests on choices of the model: log 68, 77 and 78. -/
def Obligations.ResetsComplete : Prop :=
  (∀ s env, exec (.powerOnReset env) s = .next (coldBoot 0 env s)) ∧
  (∀ s kind env, s.pwr.thermtrip = false → s.pwr.state ≠ .off → exec (.perstN kind env) s = .next (coldBoot 1 env s)) ∧
  (∀ s cause env, let v := coldBoot cause env s
    v.plans = [] ∧ v.mbx = Mbx.reset ∧ v.tbu = Tbu.reset ∧ v.ram = [] ∧ v.codec = Codec.reset ∧ v.fmtSticky = 0 ∧ v.taint = [] ∧
    (if env.tjHot then v.pwr.thermtrip = true ∧ v.pwr.state = .off else v.pwr.state = .run ∧ v.sec.lastReset = cause)) ∧
  (∀ s, ∃ v, exec .flr s = .next v ∧ v.mbx.pairs = [] ∧ v.host.bar2Base = 0 ∧ v.host.msixEnable = false ∧ v.host.dma = [] ∧
    v.models.streams = [] ∧ v.models.tunes = [] ∧ v.slate = s.slate ∧ v.tbu = s.tbu ∧
    v.plans = mmap (fun _ p => { p with steps := mmap (fun _ k => { k with rows := [] }) p.steps }) s.plans) ∧
  (∀ s env, s.sec.started = true → s.ready.mbx = false → s.pwr.thermtrip = false → s.pwr.state = .run → s.flashQuiet = true →
    let v := warmBoot true false 5 env { s with sec := { s.sec with watchdog := true } }
    exec (.bootWatchdog env) s = .next v ∧ exec (.warmRestart .watchdog env) s = .next v ∧ v.sec.recovery = true ∧
      v.sec.lastReset = 5 ∧ v.sec.watchdog = true ∧ v.plans = []) ∧
  (∀ s env, s.sec.recoveryReq = true → s.flashQuiet = true →
    let v := warmBoot true false 3 env s
    exec (.warmRestart .recoveryRequest env) s = .next v ∧ v.sec.recovery = true ∧ v.sec.lastReset = 3 ∧ v.sec.recoveryReq = false ∧
      v.plans = []) ∧
  (∀ s t env ta,
    let u := reachTime t s
    u.sec.actTime = some ta → ta ≤ u.tbu.now → u.sec.actDeferred = false → u.models.stage = none →
    (if u.sec.recovery then u.flashQuiet else u.quiesced) = true →
    let v := activate env u
    exec (.activation t env) s = .next v ∧ v.plans = [] ∧ v.mbx = Mbx.reset ∧ v.sec.actTime = none ∧
      v.sec.lastReset = (if u.sec.recovery then 4 else 2) ∧
      (u.spar.st = 1 ∨ u.spar.st = 2 → v.spar.suspended = some ta) ∧
      exec (.warmRestart (if u.sec.recovery then .recoveryActivation else .activation) env) u = .next v) ∧
  (∀ s m t ta x,
    let u := reachTime t s
    u.spar.suspended = some ta → ta + 3 * secondNs ≤ u.tbu.now →
    (u.spar.st = 1 → mget u.spar.members m = some x → m ≠ u.spar.member → x.st = 1 → x.lastStatus ≤ ta →
      exec (.activationReturnTimeout m t) s = .next (loseMember m u)) ∧
    (u.spar.st = 2 → m = u.spar.manager → u.spar.lastTime ≤ ta → exec (.activationReturnTimeout m t) s = .next (orphan u)))

/-- The sideband rows take effect (R407, R408, R418, R457, R474): telemetry and MCTP are answered; a recovery request is recorded,
answered, and restarts the device when it may; the device's address wakes it from DEEP_SLEEP; WAKE_N wakes it; PROCHOT_N is
taken and released; a JTAG instruction the lifecycle allows is taken.
Rests on choices of the model: log 57. -/
def Obligations.SidebandCommandsComplete : Prop :=
  (∀ s, s.smbusUp = true → exec .smbusTelemetryRequest s = .next (emit (.smbus s.telemetry) s)) ∧
  (∀ s env, s.smbusUp = true → s.sec.recovery = false →
    let v := haltAll (wakeEvent false s)
    exec (.smbusRecoveryRequest env) s = .next (recoveryRestart env (emit (.smbus [0]) { v with sec := { v.sec with recoveryReq := true } }))) ∧
  (∀ s msg, s.smbusUp = true → exec (.mctpControlMessage msg) s = .next (emit (.smbus (Config.mctpBody msg)) (wakeEvent false s))) ∧
  (∀ s, s.pwr.state = .deepSleep → ∃ v, exec (.smbusAddressMatch s.part.smbusAddr false) s = .next v ∧ v.pwr.state = .run ∧
    v.pwr.waking = true ∧ v.out = s.out ++ [.smbusNak]) ∧
  (∀ s, s.pwr.entry = none → s.pwr.state = .deepSleep ∨ s.pwr.state = .idle ∨ s.pwr.state = .sleep → ∃ v,
    exec .wakeNLow s = .next v ∧ v.pwr.state = .run ∧ v.pwr.waking = true ∧ v.pwr.wakeStep = 0) ∧
  (∀ s, ∃ v, exec .prochotNAssert s = .next v ∧ v.pwr.prochot = true ∧ v.pwr.hotSeen = true) ∧
  (∀ s, ∃ v, exec .prochotNRelease s = .next v ∧ v.pwr.prochot = false) ∧
  (∀ s ir, jtagAllowed s.sec.bootLifecycle ir = true → ∃ v, exec (.jtagInstruction ir) s = .next v ∧ v.sec.jtag = ir)

/-- The SPDM requests are answered in their order on a transport that is up, which takes the connection to its next stage (R465),
and a signed exchange keeps the last four transcript hashes (R466).
Rests on choices of the model: log 56. -/
def Obligations.SpdmCommandsComplete : Prop :=
  ∀ s tr req, s.spdmUp tr = true →
    (∃ v body, exec (.getVersion tr req) s = .next v ∧ v.out = s.out ++ [.spdm tr body] ∧ (v.spdm tr).stage = 1 ∧
      (v.spdm tr).transcript = req ++ body) ∧
    (1 ≤ (s.spdm tr).stage → ∃ v body, exec (.getCapabilities tr req) s = .next v ∧ v.out = s.out ++ [.spdm tr body] ∧
      (v.spdm tr).stage = max 2 (s.spdm tr).stage) ∧
    (2 ≤ (s.spdm tr).stage → ∃ v body, exec (.negotiateAlgorithms tr req) s = .next v ∧ v.out = s.out ++ [.spdm tr body] ∧
      (v.spdm tr).stage = max 3 (s.spdm tr).stage) ∧
    (3 ≤ (s.spdm tr).stage →
      (∃ v body, exec (.getDigests tr req) s = .next v ∧ v.out = s.out ++ [.spdm tr body] ∧
        (v.spdm tr).transcript = (s.spdm tr).transcript ++ req ++ body) ∧
      (∃ v body, exec (.getCertificate tr req) s = .next v ∧ v.out = s.out ++ [.spdm tr body] ∧
        (v.spdm tr).transcript = (s.spdm tr).transcript ++ req ++ body) ∧
      (∃ v body h, exec (.challenge tr req) s = .next v ∧ v.out = s.out ++ [.spdm tr body] ∧ (v.spdm tr).transcript = [] ∧
        (v.spdm tr).hashes = ((s.spdm tr).hashes ++ [h]).drop ((s.spdm tr).hashes.length - 3)) ∧
      (∃ v body h, exec (.getMeasurements tr req) s = .next v ∧ v.out = s.out ++ [.spdm tr body] ∧
        (v.spdm tr).transcript = (s.spdm tr).transcript ∧
        (v.spdm tr).hashes = ((s.spdm tr).hashes ++ [h]).drop ((s.spdm tr).hashes.length - 3)))

/-- The timebase rows take effect (R209, R228, R379, R415, R416): an edge is judged or applies the waiting TIME_SETs; 1.5 s without an
accepted edge is holdover; the reference is taken and lost; a TIME_SET that meets no edge ends ST_ABORTED; a correction is slewed
while a plan runs or where it is small, and is otherwise a step forwards or a hold; a slew or a hold ends.
Rests on choices of the model: log 103. -/
def Obligations.TimebaseEventsComplete : Prop :=
  (∀ s t rising, s.spar.st ≠ 2 → rising ≠ s.tbu.ppsPol →
    let v := reachTime t s
    let w := { v with tbu := { v.tbu with lastEdge := some v.tbu.now } }
    exec (.cadPpsEdge t rising) s = .next (if s.tbu.ppsSet ≠ [] then applyPps s.tbu.ppsDelay.toNat w
      else if s.ready.time then judgeEdge v.tbu.now (v.tbu.now - s.tbu.ppsDelay.toNat) w else w)) ∧
  (∀ s t e, s.tbu.lastAccepted = some e → s.tbu.locked = true → s.tbu.source = 1 → e + 1500000000 ≤ (reachTime t s).tbu.now → ∃ v,
    exec (.ppsHoldoverTimeout t) s = .next v ∧ v.tbu.locked = false ∧ v.tbu.source = 0 ∧ v.tbu.holdover = true ∧
      v.tbu.holdoverSeen = true) ∧
  (∀ s, s.tbu.refEn = true → ∃ v, exec .cadRefPresent s = .next v ∧ v.tbu.refPresent = true) ∧
  (∀ s, ∃ v, exec .cadRefLost s = .next v ∧ v.tbu.refPresent = false) ∧
  (∀ s t id x m, s.tbu.ppsSet = [(id, x, m)] →
    let v := reachTime t s
    m + 2 * secondNs ≤ v.tbu.now →
    exec (.timeSetPpsTimeout t) s = .next (finish id .aborted 0 { v with tbu := { v.tbu with ppsSet := [] } })) ∧
  (∀ (s : State) (target : Nat), let d : Int := (target : Int) - (s.tbu.now : Int)
    (s.plans.any (fun p => p.2.active) = true ∨ d.natAbs ≤ 1000000 → d ≠ 0 → correctTo target s =
      { s with tbu := { s.tbu with slewLeft := d, slewFrom := s.tbu.now, slewing := true, holdTo := none } }) ∧
    ((∀ p ∈ s.plans, p.2.active = false) → 1000000 < d → (correctTo target s).tbu.now = target ∧ (correctTo target s).tbu.holdTo = none) ∧
    ((∀ p ∈ s.plans, p.2.active = false) → d < -1000000 → correctTo target s =
      { s with tbu := { s.tbu with slewLeft := 0, slewing := false, holdTo := some s.tbu.now } } ∧
      ∀ t, (reachTime t (correctTo target s)).tbu.now = s.tbu.now)) ∧
  (∀ s, exec .slewComplete s = .next { s with tbu := { s.tbu with
    now := if s.tbu.slewLeft = 0 then s.tbu.now else max s.tbu.now (slewEnd s.tbu.slewFrom s.tbu.slewLeft)
    slewLeft := 0, slewing := false, holdTo := none } })

/-- The power rows take effect (R476, R477, R480, R483-R485, R518, R526): a block asked again accepts, delays or refuses; a delay past its limit
refuses the entry; the domains return in order, and after the last the refused accesses are recorded, the maintenance that fell due starts and the held accesses
are completed; the arbiter acts on the measured power and the thermal limit on the
temperature; a P-state change ends; THERMTRIP and a loss of power leave the device in OFF; a fatal fault halts it.
Rests on choices of the model: log 67. -/
def Obligations.PowerEventsComplete : Prop :=
  (∀ s e d, s.pwr.entry = some e →
    let e' := { e with delayNs := e.delayNs + d }
    let v := { s with pwr := { s.pwr with entry := some e' } }
    exec (.entryBlockReady d) s = .next (if 10000000 < e'.delayNs then refuseEntry e' 8 v else askBlocks 12 v)) ∧
  (∀ s e, s.pwr.entry = some e → exec .entryDelayExpired s = .next (refuseEntry e 8 s)) ∧
  (∀ s d, s.pwr.waking = true → d = s.pwr.wakeStep + 1 → d ≤ 4 → ∃ v, exec (.wakeExit d) s = .next v ∧ v.pwr.wakeStep = d ∧
    (d = 1 → v.ready.mbx = true ∧ v.ready.codec = true) ∧ (d = 2 → v.ready.slateW = s.slate.stackW.mounted) ∧
    (d = 3 → v.ready.arraysW = true ∧ v.ready.arraysE = true)) ∧
  (∀ s, s.pwr.waking = true → s.pwr.wakeStep = 4 →
    exec (.wakeExit 5) s = .next (endWake (raiseReady 5 { s with pwr := { s.pwr with wakeStep := 5 } }))) ∧
  (∀ s, s.pwr.held = [] → (endWake s).pwr.waking = false ∧ (endWake s).mbx.quiet = false ∧ (endWake s).pwr.refused = [] ∧
    (endWake s).pwr.due = []) ∧
  (∀ s power, ∃ v, exec (.powerArbiterTick power) s = .next v ∧ v.pwr.power = BitVec.ofNat 16 (min power 0xFFFF) ∧
    (s.pwr.state = .run → power ≤ 16 * s.pwr.capW → v.pwr.capExceeded = false)) ∧
  (∀ s w, s.pwr.ramp = some w →
    exec .pstateChangeComplete s = .next (retarget (count 0x3002C { s with pwr := { s.pwr with ramp := none, pstate := w } }))) ∧
  (∀ s tj, 1600 ≤ tj → ∃ v, exec (.thermalLimitTick tj) s = .next v ∧ v.pwr.thermLimit = min 3 (s.pwr.thermLimit + 1) ∧
    v.pwr.coolMs = 0 ∧ v.pwr.tj = BitVec.ofNat 16 (twos 16 tj)) ∧
  (∀ s, s.pwr.thermtrip = false → ∃ v, exec .thermtrip s = .next v ∧ v.pwr.thermtrip = true ∧ v.pwr.state = .off ∧ v.plans = [] ∧
    v.mbx = Mbx.reset ∧ v.out = s.out ++ [.thermtripLow]) ∧
  (∀ s, ∃ v, exec .powerLoss s = .next v ∧ v.pwr.state = .off ∧ v.plans = [] ∧ v.mbx = Mbx.reset ∧ v.ram = []) ∧
  (∀ s, s.pwr.state = .run → exec .clockFault s = .next (deviceFatal 0x0802 s) ∧ exec .supplyFault s = .next (deviceFatal 0x0803 s)) ∧
  (∀ s, exec .fwFault s = .next (deviceFatal 0x0805 s) ∧ exec .mgmtUe s = .next (deviceFatal 0x0801 s)) ∧
  (∀ s code, (deviceFatal code s).err.fatalDev = true ∧ (deviceFatal code s).maint.bist = [] ∧ (deviceFatal code s).slate.relocs = [])

/-- The ordering words take effect at the word an engine stands at (R196, R199, R201, R206, R207, R236, R237): a NOP passes; a WAIT
passes once its counter has the value, and waits until then; a SIGNAL adds and a RESET clears, with NOW at once; AT_TIME waits;
END_STEP ends the array's part once everything before it has completed; FENCE passes an idle execute engine; REGULATE changes
a budget; the next execute word is copied into the queue.
Rests on choices of the model: log 20 and 29. -/
def Obligations.OrderingWordsComplete : Prop :=
  (∀ s e x, AtWord s e 0x00 x → exec (.engineNop e) s = .next (advance e s)) ∧
  (∀ s e x, AtWord s e 0x01 x → exec (.wait e) s = .next (if wf x.w 31 0 ≤ s.ctrVal x.h (wCtr x.w) then advance e s else hold e s)) ∧
  (∀ s e x, AtWord s e 0x01 x → s.waitingAt e = true → wf x.w 31 0 ≤ s.ctrVal x.h (wCtr x.w) →
    exec (.waitSatisfied e) s = .next (advance e s)) ∧
  (∀ s e x, AtWord s e 0x02 x → wRst x.w = false → (wX x.w = true ∨ s.earlierDone e = true) →
    exec (.signal e) s = .next (advance e (signalCtr x.h (wCtr x.w) (wf x.w 15 0) false s))) ∧
  (∀ s e x, AtWord s e 0x02 x → wRst x.w = true → (wX x.w = true ∨ s.earlierDone e = true) →
    exec (.resetCounter e) s = .next (advance e (signalCtr x.h (wCtr x.w) 0 true s))) ∧
  (∀ s e x, AtWord s e 0x03 x → exec (.atTime e) s = .next (hold e s)) ∧
  (∀ s a x, AtWord s (.exec a) 0x04 x → s.earlierDone (.exec a) = true → (s.arr a).runs = [] → x.p.plan.fetchEnd a x.sc ≤ (s.arr a).fpc →
    exec (.endStep a) s = .next (endArray x.h x.sc a (advance (.exec a) s))) ∧
  (∀ s a x, AtWord s (.fetch a) 0x05 x → (s.arr a).queue = [] → (s.arr a).prog = [] → (s.arr a).rel = [] →
    exec (.fence ⟨a, false⟩) s = .next (advance (.fetch a) s)) ∧
  (∀ s a x, AtWord s (.fetch a) 0x13 x →
    let c := wf x.w 2 0
    let b := wf x.w 18 3
    exec (.regulate ⟨a, false⟩) s = .next (advance (.fetch a) (updArr a (fun r => { r with
      budget := mset r.budget c b, tokens := mset r.tokens c (min (b * (x.p.plan.reg a c).2 * 1000) (mgetD r.tokens c 0)) })
      (refill a c (x.p.plan.reg a c).2 s)))) ∧
  (∀ s a h sc p, s.holder a = some (h, sc, p) → p.plan.el3 = false → (s.arr a).copied = false → (s.arr a).queue.length < 64 →
    let w := s.copyWord p.plan a ((p.plan.fetchOf a).length + (s.arr a).epc)
    exec (.queueCopy ⟨a, false⟩) s = .next (updArr a (fun r => { r with
      queue := r.queue ++ [(r.epc, w)], epc := r.epc + 1, copied := decide (wOp w = 0x04) || decide (p.plan.execEnd a sc ≤ r.epc + 1) }) s)) ∧
  (∀ s a h sc p x, s.holder a = some (h, sc, p) → p.plan.el3 = true → (s.arr a).queue.length < 64 → s.at (.fetch a) = some x →
    x.ok s = true → executeOnly (wOp x.w) = true →
    exec (.queueCopy ⟨a, false⟩) s = .next (advance (.fetch a) (updArr a (fun r => { r with queue := r.queue ++ [(x.idx, x.w)] }) s)))

/-- A step's moments take effect (R210-R213, R236): it starts at its nominal start, with no step of its schedule still in progress; an
engine that waits at AT_TIME is released, and a free array takes the first step that is due; a step ends once every engine has
finished it; and a step four periods old is recorded as stalled, once.
Rests on choices of the model: log 28 and 83. -/
def Obligations.StepMomentsComplete : Prop :=
  (∀ s h sc t p c,
    let u := reachTime t s
    let nom := p.nominal c (mgetD p.nextK sc 0)
    u.plan h = some p → p.plan.scheds[sc]? = some c → p.st = .running → mhas p.steps sc = false → nom ≤ u.tbu.now →
    u.holdForSwitch p.plan nom = false → u.activating = false → u.pwr.state = .run →
    exec (.stepStart h sc t) s = .next (startStep h sc p c u)) ∧
  (∀ s e t x k,
    let u := reachTime t s
    (∀ a, e = .fetch a → (u.arr a).cur ≠ none) → AtWord u e 0x03 x → u.stepOf x.h x.sc = some k → u.waitingAt e = true →
    k.nominal + wf x.w 35 4 ≤ u.tbu.now → exec (.atTimeRelease e t) s = .next (advance e u)) ∧
  (∀ s a t n h sc ep p x,
    let u := reachTime t s
    (u.arr a).cur = none → firstStep (u.startable? a) = some (n, h, sc, ep) → u.plan h = some p → u.stepOf h sc = some x →
    let v := hold (.fetch a) (bindStep a h sc ep p x u)
    (∀ op y, AtWord v (.fetch a) op y → op ≠ 0x03 → exec (.atTimeRelease (.fetch a) t) s = .next v) ∧
    (∀ y k, AtWord v (.fetch a) 0x03 y → v.stepOf y.h y.sc = some k → k.nominal + wf y.w 35 4 ≤ v.tbu.now →
      exec (.atTimeRelease (.fetch a) t) s = .next (advance (.fetch a) v))) ∧
  (∀ s h sc t p c x,
    let u := reachTime t s
    u.plan h = some p → p.plan.scheds[sc]? = some c → mget p.steps sc = some x → p.stepDone x = true →
    exec (.stepEnd h sc t) s = .next (endStep h sc p c x u)) ∧
  (∀ s h sc t p c x,
    let u := reachTime t s
    u.plan h = some p → p.plan.scheds[sc]? = some c → mget p.steps sc = some x → x.stallRec = false →
    x.nominal + 4 * c.period ≤ u.tbu.now →
    exec (.stepStalled h sc t) s = .next (
      let l := u.blockedAt h sc p
      record .ce 0x0302 { detail := toLE 9 (l.foldl (fun m e => m + 2 ^ e.1) 0) ++ [0] ++ stallCounters 11 l, planId := p.plan.planId,
                          conts := (List.range (cdiv (l.length - 11) 16)).map (fun i => stallCounters 16 (l.drop (11 + 16 * i))) }
        (updStep h sc (fun x => { x with stallRec := true }) (updPlan h (fun p => { p with stalled := true }) u))))

/-- The fetch words take effect (R202, R203, R238-R242, R298): FETCH_LIST and MULTICAST begin a run over the entries they name, for the
word's own array or for every array of the mask in their record; KV_FETCH begins one over the written blocks of the stream of
its row, and one with no entries where no stream is bound. A word whose copy in the store cannot be read is malformed (R266). -/
def Obligations.FetchWordsComplete : Prop :=
  (∀ s a x, AtWord s (.fetch a) 0x10 x → wf x.w 38 37 ≠ 1 →
    exec (.fetchList ⟨a, false⟩) s = .next (beginRun a x.h { index := x.idx, word := x.w, kv := 0, row := 0, dests := [a], toPort := false, off := wf x.w 54 39 * 64, rep := 2 ^ wf x.w 59 56, lines := 0, done := 0, entries := x.p.plan.runEntries (wf x.w 20 0) (wf x.w 36 21), since := s.tbu.now } s)) ∧
  (∀ s a x, AtWord s (.fetch a) 0x10 x → wf x.w 38 37 = 1 →
    exec (.fetchList ⟨a, false⟩) s = .next (beginRun a x.h { index := x.idx, word := x.w, kv := 0, row := 0, dests := [a], toPort := true, off := wf x.w 55 39 * 32, rep := 2 ^ wf x.w 59 56, lines := 0, done := 0, entries := x.p.plan.runEntries (wf x.w 20 0) (wf x.w 36 21), since := s.tbu.now } s)) ∧
  (∀ s a x, AtWord s (.fetch a) 0x11 x →
    let m := u (s.storeRd a (wf x.w 75 60 * 64) 8) 0 8
    exec (.multicast ⟨a, false⟩) s = .next (beginRun a x.h { index := x.idx, word := x.w, kv := 0, row := 0, dests := (List.range 64).filter (bit m), toPort := false, off := wf x.w 54 39 * 64, rep := 1, lines := 0, done := 0, entries := x.p.plan.runEntries (wf x.w 20 0) (wf x.w 36 21), since := s.tbu.now } s)) ∧
  (∀ s a x i st tmpl o, AtWord s (.fetch a) 0x12 x → s.rowStream x.h x.sc (wf x.w 7 0) = some i → mget s.models.streams i = some st →
    x.p.plan.blocks[wf x.w 50 30]? = some tmpl → (mget st.kv (wf x.w 27 8)).bind s.obj = some o → wf x.w 79 72 < o.kvH →
    exec (.kvFetch ⟨a, false⟩) s = .next (beginRun a x.h { index := x.idx, word := x.w, kv := wf x.w 28 28 + 1, row := wf x.w 7 0, dests := [a], toPort := true, off := wf x.w 67 51 * 32, rep := 2 ^ wf x.w 71 68, lines := 0, done := 0, entries := kvEntries o tmpl (wf x.w 79 72) (wf x.w 28 28) (min (st.written (wf x.w 27 8)) o.kvC), since := s.tbu.now } s)) ∧
  (∀ s a x, AtWord s (.fetch a) 0x12 x → s.rowStream x.h x.sc (wf x.w 7 0) = none →
    exec (.kvFetch ⟨a, false⟩) s = .next (beginRun a x.h { index := x.idx, word := x.w, kv := wf x.w 28 28 + 1, row := wf x.w 7 0, dests := [a], toPort := true, off := wf x.w 67 51 * 32, rep := 2 ^ wf x.w 71 68, lines := 0, done := 0, entries := [], since := s.tbu.now } s)) ∧
  (∀ s a x, s.at (.fetch a) = some x → ∀ c ∈ [Instr.fetchList ⟨a, true⟩, .multicast ⟨a, true⟩, .kvFetch ⟨a, true⟩, .regulate ⟨a, true⟩, .fence ⟨a, true⟩],
    exec c s = .next (engineFault x.h a x.idx s))

/-- The moments of a fetch run take effect (R118, R200, R219-R222, R230, R239, R259): a request whose class has tokens enough issues and
takes them, and one that lacks them waits, which is counted; an entry whose data has come in time lands; one that meets an error, or whose
time is over, takes its fallback; data that comes after that is dropped and counted; and a line at the stream port goes to the sweep it
is for once its cells can take it, or is discarded where that sweep has ended or is full.
Rests on choices of the model: log 16. -/
def Obligations.FetchMomentsComplete : Prop :=
  (∀ s a run entry us h sc p r e off n,
    let w := reachTime (s.tbu.now + 1000 * us) s
    let place := r.addr e off
    let cls := (w.tierOf place).getD e.blk.tier
    let d := (p.plan.reg a cls).2
    let tok := (w.arr a).tokensAt cls d w.tbu.now
    let w1 := countWait h (max r.since (mgetD (w.arr a).filled cls 0)) (min w.tbu.now ((w.arr a).fullAt cls (n * 1000))) w
    let w2 := updArr a (fun x => { x with tokens := mset x.tokens cls (tok - n * 1000) }) (refill a cls d w1)
    let w3 := updRun a run (fun r => { r with since := w2.tbu.now }) (startRead a run entry e w2)
    s.holder a = some (h, sc, p) → s.run a run = some r → r.entries[entry]? = some e → r.request e = some (off, n) → e.st = .queued →
    (∀ y ∈ r.entries.take entry, y.st ≠ .queued) →
    (tok < n * 1000 → exec (.bucketRequestIssue a run entry us) s = .next w1) ∧
    (∀ b t v, n * 1000 ≤ tok → (e.blk.tier ≠ 0 ∨ cls = 0) → planFetch place n (p.plan.symSlot e.blk.sym) w3 = (.ok b t, v) →
      exec (.bucketRequestIssue a run entry us) s = .next (updRun a run (fun r => r.setEntry entry (fun e => r.took e off b t (v.marksOf place n))) v))) ∧
  (∀ s a run entry t h sc p r e,
    let v := reachTime t s
    let w := if r.toPort = false then v else if r.kv = 0 then flagAll h sc e.marks v else flagRow h sc r.row e.marks v
    v.holder a = some (h, sc, p) → v.run a run = some r → r.entries[entry]? = some e → e.st = .issued →
    (v.tbu.now ≤ v.deadlineOf h sc e ∨ e.blk.tier = 0) → e.blk.coded = false → e.tainted = false →
    exec (.fetchEntryArrival a run entry t) s = .next (settleRun a h run (updRun a run (fun r => r.setEntry entry (fun e' =>
      { e' with st := .arrived, data := e.data, lands := if r.kv = 2 then valueLines e.ntok (e.data.take (64 * e.ntok)) else e.data }))
      (endXfer a true run entry w)))) ∧
  (∀ s a run entry h sc p r e, s.holder a = some (h, sc, p) → s.run a run = some r → r.entries[entry]? = some e →
    ((e.st = .queued ∧ 0 < e.sent) ∨ e.st = .issued) →
    exec (.fetchEntryError a run entry) s = .next (takeFallback h sc a run entry s)) ∧
  (∀ s a run entry t h sc p r e,
    let v := reachTime t s
    v.holder a = some (h, sc, p) → v.run a run = some r → r.entries[entry]? = some e → (e.st = .queued ∨ e.st = .issued) →
    e.blk.tier ≠ 0 → p.plan.waits e = false → v.deadlineOf h sc e ≤ v.tbu.now →
    exec (.fallbackDeadline a run entry t) s = .next (takeFallback h sc a run entry v)) ∧
  (∀ s a run entry x, (s.arr a).late.find? (fun x => decide (x.2.1 = run) && decide (x.2.2 = entry)) = some x →
    exec (.lateEntryDrop a run entry) s = .next (count (planCnt x.1 5) (updArr a (fun r => { r with late := r.late.erase x }) s))) ∧
  (∀ s a l rest, (s.arr a).port = l :: rest →
    let full (i : InProg) : Bool := i.portFull (s.descOf a (wDesc i.word))
    let mine (i : InProg) : Bool := isSweep i.word && wPort i.word && decide (wDesc i.word = l.desc) &&
      (!full i || i.recv.any (fun x => decide (x.run = l.run))) && (!i.recv.isEmpty || (s.emptyFetches a l.desc).all (fun j => decide (l.run ≤ j)))
    let v := updArr a (fun r => { r with port := rest }) s
    (l.run ∈ (s.arr a).spent → exec (.streamPortLineWrite a) s = .next v) ∧
    (∀ i, l.run ∉ (s.arr a).spent → (s.arr a).prog.find? mine = some i →
      exec (.streamPortLineWrite a) s = .next (if full i then v
        else if i.takes (s.descOf a (wDesc i.word)) l then portPump a (updProg a i.index (fun x => { x with recv := x.recv ++ [l] }) v)
        else s)))

/-- The three sweeps issue where their entries are free and the sweep before them has issued its reads (R53, R108, R110, R115, R123, R124,
R135, R139, R196, R244-R246): the bad scales of its rows are counted, the entries that it clears are +0 from then on, a cell that meets
a parity error is excluded, and the sweep stays in progress, with no line applied yet. One that a pending entry holds back stalls, which
is counted; and the next line of the latch is applied in every cell once each has it.
Rests on choices of the model: log 19 and 20. -/
def Obligations.SweepWordsComplete : Prop :=
  (∀ s a parity ecc x c op, (c, op) ∈ [(Instr.sweep a parity ecc, 0x20), (.veinSweep a ⟨parity, ecc⟩, 0x21), (.transposeSweep a ⟨parity, ecc⟩, 0x22)] →
    AtWord s (.exec a) op x →
    (s.sweepFree a x.w = true → ∃ v, exec c s = .next v ∧ v = beginSweep a x parity ecc s ∧
      (v.arr a).prog = (s.arr a).prog ++ [{ InProg.plain x with ecc := ecc }] ∧ (v.arr a).queue = (s.arr a).queue.drop 1 ∧
      (v.arr a).port = (s.arr a).port) ∧
    (s.sweepFree a x.w = false → exec c s = .next (if s.sweepStalls a x.w then waitCycles a s else s))) ∧
  (∀ s a x parity ecc, wClear x.w = true →
    ∀ k ∈ sweepKeys x.w (s.descOf a (wDesc x.w)) ((s.rankedCells a (s.descOf a (wDesc x.w))).map (·.2)),
      mgetD ((beginSweep a x parity ecc s).arr a).acc k 0 = 0) ∧
  (∀ s a e l i, (s.arr a).latch = e :: l → s.applying a = some i → e.fin = none → e.waits = [] → i.index = e.idx →
    let first := firstProduct (arrayCycle s.pwr.pstate) (s.arr a).idleFrom e.comes
    let fin := first + s.lineCycles a i.word e.seqL * arrayCycle s.pwr.pstate
    applyHead a s = updArr a (fun r => { r with idleFrom := fin, latch := r.latch.map (fun x => if x = e then { x with fin := some fin } else x) })
      (reconWait a (arrayCycle s.pwr.pstate) (s.arr a).idleFrom first e (applySlateLine a i e s)))

/-- DRAIN, POST and QUANT are carried out at the word the execute engine stands at, and what follows them takes effect (R126, R130, R131,
R250, R251, R91): DRAIN reads its elements where nothing blocks it; POST runs its operation where its table is long enough; the
hub combines a statistic once every array's part is there, and that of a group plan across the devices (log 62); QUANT codes at its quant point; a segment's codes become visible. -/
def Obligations.ResultWordsComplete : Prop :=
  (∀ s a ecc x, AtWord s (.exec a) 0x23 x →
    let v := flushLatch a 3 s
    (v.drainBlocked a x.w = true → exec (.drain a ecc) s = .next (waitCycles a v)) ∧
    (v.drainBlocked a x.w = false → (∀ k, s.keepRun a x.w = some k → x.p.plan.covers a k.1 k.2 = true) →
      exec (.drain a ecc) s = .next (drainWord a ecc x v))) ∧
  (∀ s a x, AtWord s (.exec a) 0x24 x →
    (tableNeed (wPostOp x.w) 1 ≠ 0 → ∀ t, s.tableAt x.p.plan (u (s.storeRd a (wf x.w 47 32 * 64) 4) 0 4) = some t →
      tableBad (wPostOp x.w) (wPostN x.w) t = false) →
    exec (.post a) s = .next (postWord a x s)) ∧
  (∀ s h slot p q l c, s.plan h = some p → mgetD s.norm (h * 4096 + slot) [] = q :: l → slot < 4096 → (s.arr q.array).cur = some c →
    (∀ a ∈ s.contributors p.plan c.2 h (h * 4096 + slot), ∃ y ∈ q :: l, y.array = a) →
    let key := h * 4096 + slot
    let sums := ((q :: l).foldl (fun l x => addOnce l x.row) []).map (fun b => (b, sumParts ((q :: l).filter (fun x => decide (x.row = b)))))
    (p.plan.group = false ∨ s.spar.st ∉ [1, 2] → ∃ v, exec (.normStatCombine h slot) s = .next v ∧ v.norm = mdel s.norm key ∧
      v.normSum = mset s.normSum key (sums.foldl (fun m x => mset m x.1 x.2.1) (mgetD s.normSum key []))) ∧
    (p.plan.group = true → s.spar.st ∈ [1, 2] → exec (.normStatCombine h slot) s = .next (combineStat key sums s))) ∧
  (∀ s a x q, AtWord s (.exec a) 0x25 x → s.quantPoint x = some q →
    exec (.quant a) s = .next (quantWord a x q s) ∧ ((quantWord a x q s).arr a).queue = (s.arr a).queue.drop 1) ∧
  (∀ s a e rest h sc p, (s.arr a).rel = e :: rest → s.holder a = some (h, sc, p) →
    let u := updArr a (fun r => if rest = [] then { r with rel := [], qNext := 0, qBusy := [], qFree := 0 }
      else { r with rel := rest, qNext := max r.qNext e.time }) s
    let v := forEach e.writes (fun p s => putStore a p.1 p.2 e.flags s) u
    let w := match e.pend with | some p => pendMax h sc p.1 p.2.1 p.2.2 v | none => v
    exec (.quantSegmentRelease a) s = .next (if wX e.word || e.last then sigOf h e.word w else w))

/-- The words that move data take effect (R200, R253-R256, R284, R344-R347): SEND and RECV take the bytes they name as they issue and stay in
progress, and a remote SEND leaves as its class's tokens come; COLLECTIVE takes the contributions of this device's arrays, or between members
its own contribution, of which an all-reduce sends its first round and the other operations the whole; STREAM_IO issues and moves its
rows as it completes.
Rests on choices of the model: log 19, 32, 63 and 101. -/
def Obligations.DataWordsComplete : Prop :=
  (∀ s a x, AtWord s (.exec a) 0x26 x →
    let data := s.storeRd a (wf x.w 15 0 * 64) (wf x.w 37 16)
    let i := { InProg.plain x with data := data, flags := s.taintOf (storeDva a (wf x.w 15 0 * 64)) (wf x.w 37 16) }
    exec (.send a) s = .next (fabricSends a (issue (.exec a) i (startSend x data s))) ∧
      (sendRemote x.w = false → sendStored x.w = false → (∀ j ∈ (s.arr a).prog, j.unsent = false) →
        exec (.send a) s = .next (issue (.exec a) i s))) ∧
  (∀ s a x, AtWord s (.exec a) 0x27 x →
    exec (.recv a) s = .next (issue (.exec a) { InProg.plain x with data := s.storeRd (wf x.w 43 38) (wf x.w 15 0 * 64) (wf x.w 37 16), flags := s.taintOf (storeDva (wf x.w 43 38) (wf x.w 15 0 * 64)) (wf x.w 37 16) } s)) ∧
  (∀ s h sc x, AtWord s (.coll h sc) 0x30 x → wf x.w 2 2 = 0 →
    let n := wf x.w 95 68 * x.p.plan.arrayList.length
    exec (.collective h sc) s = .next (issue (.coll h sc) { InProg.plain x with data := s.hubRd (wf x.w 41 16) n, flags := s.taintOf (wf x.w 41 16) n } s)) ∧
  (∀ s h sc x k, AtWord s (.coll h sc) 0x30 x → wf x.w 2 2 = 1 → s.stepOf h sc = some k →
    let len := wf x.w 95 68
    let src := wf x.w 41 16
    let data := s.hubRd src len
    let num := collNumber k.k (mgetD x.p.collIdx sc 0)
    let key := h * 16 + sc
    let v := updPlan h (fun p => { p with collIdx := mset p.collIdx sc (mgetD p.collIdx sc 0 + 1) }) s
    let v := { v with spar := { v.spar with contrib := v.spar.contrib ++
      [⟨key, num, s.spar.member, collDesc x.w ++ data, (s.marksIn src len).map (fun m => (8 + m.1, m.2))⟩] } }
    let i := { InProg.plain x with order := [num], data := data }
    let r := if wf x.w 1 0 = 0 then sendRound h sc i v
      else if wf x.w 1 0 = 1 ∨ wf x.w 13 8 = s.spar.member then
        (i, sendData h 64 x.idx v.otherMembers (decide (wf x.w 4 4 = 1)) msgContrib (key * 2 ^ 32 + num) (collDesc x.w) data v)
      else (i, v)
    exec (.collective h sc) s = .next (if (v.contribs key num).any (fun c => decide (c.bytes.take 8 ≠ collDesc x.w)) then collMismatch h r.2
      else issue (.coll h sc) r.1 r.2)) ∧
  (∀ s h sc x, AtWord s (.strm h sc) 0x31 x → exec (.streamIo h sc) s = .next (issue (.strm h sc) (.plain x) s))

/-- A word in progress completes (R253, R257), once the lines that the latch holds are applied and the sends whose tokens are there have
left: a sweep from the Slate with its last line applied, one from the stream port once its lines have come; a SEND once its data is
visible at its destination; a RECV writing its bytes; a POST with its statistic returned; a collective after the rounds whose messages
are there, once none is missing; a STREAM_IO moving its rows; and its counter is signalled. One that cannot complete yet stays.
Rests on choices of the model: log 19, 32, 63 and 101. -/
def Obligations.WordCompletionCompletes : Prop :=
  (∀ s a idx i h sc p,
    let e := EngineId.exec a
    let v := fabricSends a (flushLatch a 3 s)
    (v.arr a).prog.find? (fun i => decide (i.index = idx)) = some i → v.holder a = some (h, sc, p) →
    (isSweep i.word = true → wPort i.word = true → exec (.wordCompletion e idx) s =
      .next (if v.portDone a i then sigOf h i.word (dropProg e idx (portSweep a i v)) else v)) ∧
    (isSweep i.word = true → wPort i.word = false → exec (.wordCompletion e idx) s =
      .next (if v.sweepApplied a i then sigOf h i.word (dropProg e idx v) else v)) ∧
    (wOp i.word = 0x26 → exec (.wordCompletion e idx) s = .next (match deliverSend h sc a i p.plan v with
      | some t => sigOf h i.word (dropProg e idx t)
      | none => v)) ∧
    (wOp i.word = 0x27 → exec (.wordCompletion e idx) s =
      .next (sigOf h i.word (dropProg e idx (putStore a (wf i.word 59 44 * 64) i.data i.flags v)))) ∧
    (wOp i.word = 0x23 ∨ (wOp i.word = 0x24 ∧ v.normPending a h i.word = false) →
      exec (.wordCompletion e idx) s = .next (sigOf h i.word (dropProg e idx v)))) ∧
  (∀ s h sc idx i p,
    let v := runRounds h sc idx (s.spar.contrib.length + 1) s
    (v.progOf (.coll h sc)).find? (fun i => decide (i.index = idx)) = some i → v.plan h = some p →
    exec (.wordCompletion (.coll h sc) idx) s = .next (match finishColl h sc i p.plan.arrayList.length v with
      | some t => sigOf h i.word (dropProg (.coll h sc) idx t)
      | none => v)) ∧
  (∀ s h sc idx i p, (s.progOf (.strm h sc)).find? (fun i => decide (i.index = idx)) = some i → s.plan h = some p →
    exec (.wordCompletion (.strm h sc) idx) s = .next (sigOf h i.word (dropProg (.strm h sc) idx (moveRows h sc i.word p.plan s))))

/-- On a mounted stack the slots, the line reads and the rebuilds of an array take effect (R115, R116, R145-R150, R153-R156, R504): a slot
goes to the stripe reads that want it, else, where it is not a maintenance slot, to the next line of the sweep that issues its reads,
and else to maintenance; a plan line enters the latch at its slot's end; a line with no error sets off nothing, one with up to 8
corrected errors is counted, and one with more is rebuilt; a rebuilt line takes its held position; the latch passes lines on.
Rests on choices of the model: log 34 and 89. -/
def Obligations.SlateReadsComplete : Prop :=
  (∀ s a k, 0 < a + k → s.mountedAt a = true →
    let n := s.slate.slot - 1
    let t := slotStart n k
    let v := settleLatch a t 4 (reachClock t s)
    let maint := decide (k = 8) || decide (16 - (v.arr a).maintM ≤ n % 16)
    let l := v.stripeReads a k t maint
    (∀ e, l = [] → maint = false → v.nextRead a k (t + slotLen) = some e → exec (.slateSlotStart a k) s = .next (issueRead a e v)) ∧
    (l = [] → (maint = true ∨ v.nextRead a k (t + slotLen) = none) → exec (.slateSlotStart a k) s = .next (serveMaint a k n [] v)) ∧
    (l ≠ [] → maint = false → exec (.slateSlotStart a k) s = .next (forEach l (stripeRead k (t + slotLen)) v)) ∧
    (maint = true → exec (.slateSlotStart a k) s = .next (serveMaint a k n (l.map (·.cell)) (forEach l (stripeRead k (t + slotLen)) v)))) ∧
  (∀ s a k, s.slate.stackW.mounted = true ∨ s.slate.stackE.mounted = true → ∃ v, exec (.slateSlotStart a k) s = .next v ∧
    v.slate.slot = s.slate.slot + (if a = 0 ∧ k = 0 then 1 else 0)) ∧
  (∀ s a c k lb ln kind errs mis, s.mountedAt a = true →
    let v := if kind = .plan then slotEnd a k s else s
    let b := v.sb (sbKey a c k)
    (mhas b.map lb = true → b.failed = false → lb * 256 + ln ∉ b.lost → c ∉ (v.arr a).excl →
      exec (.lineReadComplete a c k lb ln kind errs mis) s = .next (actOnRead a c k lb ln kind errs mis v)) ∧
    (mhas b.map lb = false ∨ b.failed = true ∨ lb * 256 + ln ∈ b.lost ∨ c ∈ (v.arr a).excl →
      exec (.lineReadComplete a c k lb ln kind errs mis) s = .next v)) ∧
  (∀ s a c k lb ln kind errs l, s.stored a c k lb ln = some l → misdirected (l.meta k) k lb = false → rereadKey a c k lb ln ∉ s.slate.rereads →
    (0 < s.slate.relocBits.toNat → actOnRead a c k lb ln kind 0 false s = s) ∧
    (0 < errs → errs ≤ 8 → errs < s.slate.relocBits.toNat → actOnRead a c k lb ln kind errs false s = count (sltCnt a 0) s) ∧
    (0 < errs → errs ≤ 8 → s.slate.relocBits.toNat ≤ errs →
      actOnRead a c k lb ln kind errs false s = queueReloc 3 .scrub a (some c) k lb none (count (sltCnt a 0) s)) ∧
    (8 < errs → actOnRead a c k lb ln .stripe errs false s = s) ∧
    (8 < errs → k < 8 → actOnRead a c k lb ln .plan errs false s = beginRecon a c k lb ln true s ∧
      actOnRead a c k lb ln .maint errs false s = beginRecon a c k lb ln false s) ∧
    (8 < errs → k = 8 → actOnRead a c k lb ln .plan errs false s = s ∧ actOnRead a c k lb ln .maint errs false s = parityFix a c lb ln s)) ∧
  (∀ s a, let v := applyHead a s
    (∀ e l f, (v.arr a).latch = e :: l → e.fin = some f → exec (.latchPositionFree a) s = .next (freeHead a (reachClock f v))) ∧
    (∀ i, (v.arr a).latch = [] → v.applying a = some i → wPort i.word = true → i.freed < i.order.length →
      exec (.latchPositionFree a) s = .next (portPump a (updProg a i.index (fun x => { x with freed := x.freed + 1 }) v)))) ∧
  (∀ s a c k lb ln bad r,
    s.slate.recons.find? (fun r => decide (r.array = a) && decide (r.cell = c) && decide (r.k = k) && decide (r.lblock = lb) &&
      decide (r.line = ln) && s.reconRead r) = some r →
    let v := { s with slate := { s.slate with recons := s.slate.recons.filter (· ≠ r) } }
    let x := v.rebuilt a c k lb ln bad
    let w := endRecon a c k lb ln bad r.plan r.found v
    let comes := r.t + 440 * clockNs
    exec (.reconstructionComplete a c k lb ln bad) s = .next (if r.plan then
      reachClock comes (updLine a k lb ln (fun e => { e with
        waits := e.waits.filter (· ≠ c), comes := max e.comes comes
        fixed := (match x with | some b => mset e.fixed c (b.take 68) | none => e.fixed) }) w) else w) ∧
    (∀ b, x = some b → w = reconstructed a c k lb ln b r.found v) ∧ (x = none → w = reconFails a c k lb ln bad r.plan v))

/-- On a mounted stack programs, erases, descriptors and parity passes take effect (R165-R172, R435): a relocation's copy, its lines read
and its pulses given, is programmed or its block retires, and so is a staged block; an erased block counts its erase, or retires; the next
descriptor of a ring is carried out; a parity pass that has read its stripes begins the program of their parity.
Rests on choices of the model: log 22 and 35. -/
def Obligations.SlateWritesComplete : Prop :=
  (∀ s a c k pb ok i r, s.mountedAt a = true → a ∉ s.maint.bistRound →
    (s.relocsOf a (fun r => decide (r.k = k) && decide (mget r.target c = some pb) && !decide (c ∈ r.copied))).head? = some (i, r) →
    r.copyRead c = true → 0 < mgetD r.pulses c 0 → s.reconIn a c k r.lblock = false →
    exec (.blockProgramComplete a c k pb ok) s = .next (relocProgrammed a c k pb ok i r s) ∧
    let v := updReloc i (fun x => { x with copied := x.copied ++ [c] }) (programBlock (sbKey a c k) pb (fun ln => s.copyLine r c pb ln) s)
    (ok = true → (k = 8 ∨ v.copyLoses r c = []) → (relocProgrammed a c k pb ok i r s).slate.relocs =
      s.slate.relocs.mapIdx (fun j x => if j = i then { x with copied := x.copied ++ [c] } else x))) ∧
  (∀ s a c k pb g x ok, s.mountedAt a = true → a ∉ s.maint.bistRound → s.slate.relocs = [] → s.models.stage = some g →
    g.blocks.find? (fun b => decide (b.sb = sbKey a c k) && decide (b.pb = pb)) = some x → (s.pb (pbKey (sbKey a c k) pb)).programming = true →
    0 < (s.pb (pbKey (sbKey a c k) pb)).pulses → s.jobRunning 4 2 = true →
    let v := updPb (pbKey (sbKey a c k) pb) (fun p => { p with programming := false, pulses := 0 }) s
    exec (.blockProgramComplete a c k pb ok) s = .next (if ok then settleStage v else unstage x (retireBlock a c k pb x.lb v))) ∧
  (∀ s a c k pb, s.mountedAt a = true → (s.pb (pbKey (sbKey a c k) pb)).erasing = true → ∃ v w,
    exec (.blockEraseComplete a c k pb true) s = .next v ∧ (v.pb (pbKey (sbKey a c k) pb)).erases = (s.pb (pbKey (sbKey a c k) pb)).erases + 1 ∧
      (v.pb (pbKey (sbKey a c k) pb)).erasing = false ∧
    exec (.blockEraseComplete a c k pb false) s = .next w ∧ pb ∈ (w.sb (sbKey a c k)).retired ∧ (w.pb (pbKey (sbKey a c k) pb)).erasing = false) ∧
  (∀ s a ok r, s.mountedAt a = true → mget s.slate.rings a = some r → r.done < r.count → ∃ v,
    exec (.slateDescriptor a ok) s = .next v ∧ ∃ f, mget v.slate.rings a = some { r with done := r.done + 1, firstFail := f }) ∧
  (∀ s a c lb bad g, s.mountedAt a = true → a ∉ s.maint.bistRound → s.models.stage = some g → s.parityReady g a c lb = true →
    s.parityRead g a c lb = true →
    let broken := (bad.filter (· < 8)).filterMap (fun k => g.blkAt a c k lb)
    (broken ≠ [] → exec (.parityPass a c lb bad) s = .next (forEach broken (fun x s => unstage x (retireBlock a c (x.sb % 9) x.pb x.lb s)) s)) ∧
    (broken = [] → exec (.parityPass a c lb bad) s = .next (beginParity g a c lb s) ∧
      ∀ pb, s.stageBlock (sbKey a c 8) = some pb → ((beginParity g a c lb s).pb (pbKey (sbKey a c 8) pb)).programming = true ∧
        ∃ x, (beginParity g a c lb s).models.stage = some { g with blocks := g.blocks ++ [x] } ∧ x.sb = sbKey a c 8 ∧ x.lb = lb ∧ x.pb = pb))

/-- The upkeep of a mounted stack takes effect (R160, R163, R168, R175, R181-R185, R474): a checkpoint starts when it is due, or, in
DEEP_SLEEP, at the exit, and commits mirror A, then mirror B; a group at its threshold is queued; finished relocations switch at the step
barrier; a patrol reads a stripe and what its lines call for follows; a worn sub-bank moves its least-erased block; an unmapped block that
both mirrors leave free is erased.
Rests on choices of the model: log 22, 37 and 66. -/
def Obligations.SlateUpkeepCompletes : Prop :=
  (∀ s i, i < 2 → (s.stack i).mounted = true →
    (s.pwr.state = .run → s.switching = false → s.activating = false → exec (.checkpointInterval i) s = .next (startCkpt i false false none s)) ∧
    (s.pwr.state = .deepSleep → exec (.checkpointInterval i) s = .next { s with pwr := { s.pwr with due := addOnce s.pwr.due (7, i) } })) ∧
  (∀ s i k, i < 2 → (s.stack i).ckpt = some k → s.maint.bistRound = [] → k.aDone = false →
    exec (.checkpointCommit i false) s = .next (updStack i (fun t => { t with
      mirA := t.mirA.write s.part.variant i k s.tbu.now, mirB := t.mirB.begin k.seq, ckpt := some { k with aDone := true, pulsed := [] } }) s)) ∧
  (∀ s i k, i < 2 → (s.stack i).ckpt = some k → s.maint.bistRound = [] → k.aDone = true →
    let v := forEach k.cmds endCkptCmd (endReinit i k (endJob 7 i 2
      (updStack i (fun t => { t with mirB := t.mirB.write s.part.variant i k s.tbu.now, ckpt := none }) s)))
    exec (.checkpointCommit i true) s = .next (match k.again with
      | some x => updStack i (fun t => { t with ckpt := t.ckpt.map (fun c => { c with cmds := c.cmds ++ x.2 }) }) (askCkpt i true x.1 false none v)
      | none => v)) ∧
  (∀ s a k lb, s.mountedAt a = true → s.threshold ≤ mgetD s.slate.groups (groupKey a k lb) 0 →
    exec (.readCountThreshold a k lb) s = .next (queueReloc 2 .disturb a none k lb none s)) ∧
  (∀ s a, s.mountedAt a = true → (s.arr a).cur = none →
    exec (.relocationSwitch a) s = .next (forEach (s.slate.relocs.filter (fun r => decide (r.array = a) && s.relocReady r)) switchReloc s)) ∧
  (∀ s a c lb ln errs, s.pwr.state = .run → s.activating = false → s.mountedAt a = true → a ∉ s.maint.bistRound → s.scrubWaits a c = false →
    let v := forUpto 9 (fun j t => scrubLine a c lb ln j (errs.getD j 0) t) (deviceJob 0 (a / 32) s)
    let w := if errs.all (· ≤ 8) && v.stripeDiffers a c lb ln then parityFix a c lb ln v else v
    let x := forEach w.models.slots (fun m s => forEach (m.2.tablesAt a c lb ln) (checkTable m.1 true) s) w
    exec (.scrubPass a c lb ln errs) s = .next (if lastStripe x.part.variant a c lb ln then endJob 0 (a / 32) 2 x else x)) ∧
  (∀ s a c k m f, s.mountedAt a = true → s.models.stage = none → s.activating = false → a ∉ s.maint.bistRound → (s.sb (sbKey a c k)).failed = false →
    leastErased (s.knownErases (sbKey a c k)) (s.sb (sbKey a c k)).map = some m → s.takeBlock (sbKey a c k) = some f →
    m.2.2 + 2000 < s.mostErases (sbKey a c k) → s.slate.relocs = [] → ∃ v,
    exec (.wearCheck a c k) s = .next v ∧ v.slate.relocs = [{
      pri := 4, causes := [.wear], array := a, cell := some c, k := k, lblock := m.1
      target := [(c, f)], lines := [], pulses := [], copied := [], repl := [], cmd := none }]) ∧
  (∀ s a c k pb, s.mountedAt a = true → pb < physBlocks s.part.variant → s.activating = false → a ∉ s.maint.bistRound →
    s.gcMay a (sbKey a c k) pb = true → ∃ v,
    exec (.gcErase a c k pb) s = .next v ∧ (v.pb (pbKey (sbKey a c k) pb)).erasing = true)

/-- The moments of a staged swap and of tuning take effect (R319-R323, R328): a good DATA shard is held and its records are staged; the
manager takes its members' reports; a worker acknowledges a decision and begins its switch; one that is not acknowledged in time
aborts the session; an array switches; a commit becomes durable and its command ends; a tuning update is applied.
Rests on choices of the model: log 37, 40 and 70. -/
def Obligations.SwapMomentsComplete : Prop :=
  (∀ s b g,
    let key := u b 8 2 * 65536 + u b 12 4
    s.models.stage = some g → shardOk b = true → u b 4 2 = g.id → u b 6 1 = 0 → key ∉ g.held →
    exec (.shardReceived b) s = .next (settleStage (forEach ((parseRecs (u b 10 2) (b.drop 64)).getD []) (stageWhole (u b 8 2) key)
      (updStage (fun g => { g with held := g.held ++ [key] }) (count 0x240 s))))) ∧
  (∀ s m g, s.models.stage = some g → s.spar.st = 1 → m ∈ g.memberList →
    (∀ layer idx, exec (.stageReport m (.missing layer idx)) s = .next (layerReport m layer idx s)) ∧
    exec (.stageReport m .staged) s = .next (settleStageEnd (updStage (fun g => { g with staged := addOnce g.staged m }) s)) ∧
    (∀ floor, exec (.stageReport m (.failed floor)) s = .next (abortAll (updStage (fun g => { g with floor := g.floor || floor }) s)))) ∧
  (∀ s tc epoch g, s.models.stage = some g → s.spar.st = 2 → s.models.commit = none → s.spar.member ∈ g.staged → ∃ v,
    exec (.commitDecision tc epoch g.slot) s = .next (sendTo s.spar.manager (.commitReport .acknowledge) v) ∧
      (v.slot g.slot).st = .committing ∧ ∃ c, v.models.commit = some c ∧ c.tc = tc ∧ c.epoch = epoch ∧ c.decided = true) ∧
  (∀ s t c, s.models.commit = some c → c.decided = false → c.tc ≤ (reachTime t s).tbu.now + 1000000 →
    exec (.commitAckTimeout t) s = .next (abortAll (reachTime t s))) ∧
  (∀ s a t c g,
    let v := reachTime t s
    s.models.commit = some c → s.models.stage = some g → c.decided = true → c.tc ≤ v.tbu.now → a < 64 → a ∉ c.switched →
    v.pastSteps a c.tc = true →
    let c' := { c with switched := c.switched ++ [a] }
    let w := switchArray a g c v
    exec (.commitSwitch a t) s = .next (if (v.commitArrays g c).all (fun x => decide (x ∈ c'.switched)) then endSwitch g c' w
      else { w with models := { w.models with commit := some c' } })) ∧
  (∀ s c g, s.models.commit = some c → s.models.stage = some g → c.ckpt = true → s.slate.stackW.ckpt = none → s.slate.stackE.ckpt = none →
    exec .commitDurable s = .next (makeDurable g c s)) ∧
  (∀ s m c, s.models.commit = some c → s.spar.st = 1 →
    exec (.commitAcknowledge m .acknowledge) s = .next (settleDecision { s with models := { s.models with commit := some { c with acked := addOnce c.acked m } } }) ∧
    exec (.commitAcknowledge m .durable) s = .next (settleCommit { s with models := { s.models with commit := some { c with durable := addOnce c.durable m } } })) ∧
  (∀ s i t a sum rest, mget s.models.tunes i = some t → s.adapter t.adapter = some a → t.work = sum :: rest → ∃ v t',
    exec (.tuneUpdateComplete i) s = .next v ∧ mget v.models.tunes i = some t' ∧ t'.stepT = t.stepT + 1 ∧ t'.work = rest)

/-- The ROM routines and the moments of the code flash take effect (R421-R435): a routine whose checks pass starts its operation, or with
allow_stall runs it; a poll reports; an operation ends; a read of a busy area faults the core; a Slate ring is handed over.
Rests on choices of the model: log 48 and 49. -/
def Obligations.FlashRoutinesComplete : Prop :=
  (∀ s core lr addr count flags ok,
    let a := addr - flashCore
    let n := count * sectorBytes
    flashCore ≤ addr → (∃ r, flashRegion a = some r ∧ a + n ≤ r.2) → flags.toNat ≤ 1 →
    (flags.getLsbD 0 = true ∨ bankOf lr ≠ some (a / bankBytes)) → (s.bank (a / bankBytes)).op = none →
    a % sectorBytes = 0 → 0 < count → count ≤ 8 → a < journalBase → (flags.getLsbD 0 = true → count = 1) →
    exec (.flErase core lr addr count flags ok) s = .next (startOp core (flags.getLsbD 0) ok { start := a, length := n, erase := true, data := [], word := false } s)) ∧
  (∀ s core lr addr src count flags ok,
    let a := addr - flashCore
    let n := count * 256
    flashCore ≤ addr → (∃ r, flashRegion a = some r ∧ a + n ≤ r.2) → flags.toNat ≤ 1 →
    (flags.getLsbD 0 = true ∨ bankOf lr ≠ some (a / bankBytes)) → (s.bank (a / bankBytes)).op = none →
    a % 256 = 0 → 0 < count → count ≤ 8 → a < journalBase → src + n ≤ mgmtBytes → (∀ i < n / 8, s.wordErased (a / 8 + i) = true) →
    exec (.flProgram core lr addr src count flags ok) s =
      .next (startOp core (flags.getLsbD 0) ok { start := a, length := n, erase := false, data := memRead ramFill s.mgmt src n, word := false } s)) ∧
  (∀ s core lr addr value flags ok,
    let a := addr - flashCore
    let v := redrawFlash s
    flashCore ≤ addr → (∃ r, flashRegion a = some r ∧ a + 8 ≤ r.2) → flags.toNat ≤ 1 →
    (flags.getLsbD 0 = true ∨ bankOf lr ≠ some (a / bankBytes)) → (s.bank (a / bankBytes)).op = none →
    a % 8 = 0 → v.wordCheck (a / 8) value = none →
    exec (.flWord core lr addr value flags ok) s = .next (startOp core (flags.getLsbD 0) ok { start := a, length := 8, erase := false, data := toLE 8 value.toNat, word := true } v)) ∧
  (∀ s core i, i < 2 →
    ((s.bank i).op ≠ none → exec (.flPoll core i) s = .next (romReturn core .ok 1 s)) ∧
    ((s.bank i).op = none → exec (.flPoll core i) s = .next (romReturn core .ok ((s.bank i).report +
      (if (s.bank i).report = 3 then (s.bank i).failAddr * 2 ^ 32 else 0)) (updBank i (fun b => { b with report := 0 }) s)))) ∧
  (∀ s i ok fa o, i < 2 → (s.bank i).op = some o → exec (.flashOpComplete i ok fa) s = .next (dropLines o.start o.length (o.apply ok
    (updBank i (fun b => { b with op := none, report := if ok then 2 else 3, failAddr := if ok then b.failAddr else fa }) s)))) ∧
  (∀ s core addr i o, i < 2 → (s.bank i).op = some o → flashCore + o.start ≤ addr → addr < flashCore + o.start + o.length →
    exec (.flashBusyRead core addr 0) s = .next (emit (.coreFault core 0x21) s) ∧
    exec (.flashBusyRead core addr 1) s = .next (emit (.coreFault core 0x22) s) ∧
    exec (.flashBusyRead core addr 2) s = .next s) ∧
  (∀ s core reg value, ∃ v, exec (.controllerWriteFault core reg value) s = .next v ∧ .coreFault core 0x24 ∈ v.out) ∧
  (∀ s core a ring count, a < 64 → ring % 64 = 0 → 0 < count → count ≤ 4096 → ring + 16 * count ≤ hubBytes →
    (∀ r, mget s.slate.rings a = some r → r.count ≤ r.done) → ∃ v,
    exec (.sltRing core a ring count) s = .next (romReturn core .ok 0 v) ∧
      mget v.slate.rings a = some { addr := ring, count := count, done := 0, firstFail := none }) ∧
  (∀ s core a, a < 64 →
    (∀ r, mget s.slate.rings a = some r → exec (.sltPoll core a) s = .next (romReturn core .ok (r.done + r.firstFail.getD 0xFFFF * 65536) s)) ∧
    (mget s.slate.rings a = none → exec (.sltPoll core a) s = .next (romReturn core .ok (0xFFFF * 65536) s)))
end

