-- ==== Sys2Proof/Laws/Does.lean ====
section
/-! SUPPORT. Sys2Proof/Laws/Does.lean: the relation that every lemma of an operation states: which blocks of the state it may
change, that it keeps the invariant, and that it lowers nothing that only rises; and how the relation composes. -/

namespace Sys2Proof.Laws

open Sys2Proof.Machine Sys2Proof.Safety

/-- From `s` to `t` only the listed blocks change, the invariant is kept, and nothing that only rises falls. -/
structure Does (l : List Block) (s t : State) : Prop where
  frame : Frame l s t
  inv   : Inv s → Inv t
  rises : Rises s t

/-- Is every block of the first list in the second? -/
def sub (a b : List Block) : Bool := a.all (fun x => b.elem x)

theorem mem_of_sub {a b : List Block} (h : sub a b = true) {x : Block} (hx : x ∈ a) : x ∈ b := by
  have := List.all_eq_true.mp h x hx
  exact List.mem_of_elem_eq_true this

theorem has_of_sub {a b : List Block} (h : sub a b = true) {x : Block} (hx : x ∈ a) : b.elem x = true :=
  List.elem_eq_true_of_mem (mem_of_sub h hx)

theorem rises_refl (s : State) : Rises s s :=
  ⟨Nat.le_refl _, Nat.le_refl _, Nat.le_refl _, Nat.le_refl _, rfl, rfl⟩

theorem rises_trans {s t u : State} (a : Rises s t) (b : Rises t u) : Rises s u :=
  ⟨Nat.le_trans a.counter b.counter, Nat.le_trans a.floor b.floor, Nat.le_trans a.moves b.moves,
   Nat.le_trans a.blocks b.blocks, b.variant.trans a.variant, b.serial.trans a.serial⟩

theorem same_refl (b : Block) (s : State) : Same b s s := by cases b <;> rfl

theorem same_trans {b : Block} {s t u : State} (x : Same b s t) (y : Same b t u) : Same b s u := by
  cases b <;> exact Eq.trans y x

theorem Does.refl {l : List Block} {s : State} : Does l s s := ⟨fun b _ => same_refl b s, id, rises_refl s⟩

theorem Does.trans {l : List Block} {s t u : State} (a : Does l s t) (b : Does l t u) : Does l s u :=
  ⟨fun x hx => same_trans (a.frame x hx) (b.frame x hx), fun h => b.inv (a.inv h), rises_trans a.rises b.rises⟩

theorem Does.mono {l m : List Block} {s t : State} (a : Does l s t) (h : sub l m = true) : Does m s t :=
  ⟨fun x hx => a.frame x (fun hl => hx (mem_of_sub h hl)), a.inv, a.rises⟩

/-- An operation that does at most what `l` allows, after one that does. -/
theorem Does.then {l m : List Block} {s t u : State} (g : Does m t u) (h : sub m l = true) (a : Does l s t) : Does l s u :=
  a.trans (g.mono h)

/-- The same, where the bound is a chain of two. -/
theorem Does.thenVia {l m n : List Block} {s t u : State} (g : Does m t u) (h : sub m n = true) (h2 : sub n l = true) (a : Does l s t) :
    Does l s u := a.trans ((g.mono h).mono h2)

theorem Does.to {l : List Block} {s t u : State} (a : Does l s t) (h : t = u) : Does l s u := h ▸ a

theorem Does.also {l : List Block} {s t u : State} (a : Does l s t) (b : Does l s t → Does l s u) : Does l s u := b a

theorem Does.ite {l : List Block} {s t u : State} {c : Prop} [Decidable c] (a : Does l s t) (b : Does l s u) :
    Does l s (if c then t else u) := by split <;> assumption

/-- The state of a pair. -/
def fstSt {α : Type} (p : State × α) : State := p.1
/-- The state of a pair. -/
def sndSt {α : Type} (p : α × State) : State := p.2

theorem Does.ofFst {α : Type} {l : List Block} {s : State} {p : State × α} (a : Does l s (fstSt p)) : Does l s p.1 := a

theorem Does.ofSnd {α : Type} {l : List Block} {s : State} {p : α × State} (a : Does l s (sndSt p)) : Does l s p.2 := a

theorem Does.ite1 {α : Type} {l : List Block} {s : State} {t u : State × α} {c : Prop} [Decidable c] (a : Does l s (fstSt t))
    (b : Does l s (fstSt u)) : Does l s (fstSt (if c then t else u)) := by split <;> assumption

theorem Does.ite2 {α : Type} {l : List Block} {s : State} {t u : α × State} {c : Prop} [Decidable c] (a : Does l s (sndSt t))
    (b : Does l s (sndSt u)) : Does l s (sndSt (if c then t else u)) := by split <;> assumption

theorem Does.fst {α : Type} {l : List Block} {s t : State} {a : α} (h : Does l s t) : Does l s (fstSt (t, a)) := h

theorem Does.snd {α : Type} {l : List Block} {s t : State} {a : α} (h : Does l s t) : Does l s (sndSt (a, t)) := h

/-- The state that a reply carries. -/
def replySt : Reply → State
  | .done _ _ s => s
  | .running s => s

theorem Does.iteR {l : List Block} {s : State} {t u : Reply} {c : Prop} [Decidable c] (a : Does l s (replySt t)) (b : Does l s (replySt u)) :
    Does l s (replySt (if c then t else u)) := by split <;> assumption

theorem Does.done {l : List Block} {s t : State} {st : Status} {r : Nat} (a : Does l s t) : Does l s (replySt (.done st r t)) := a

theorem Does.running {l : List Block} {s t : State} (a : Does l s t) : Does l s (replySt (.running t)) := a

theorem checked_does {l : List Block} {s t : State} {c : Cmd} {b : Bool} {x : List (Bool × Status)} {k : Reply} (a : Does l s t)
    (h : Does l s (replySt k)) : Does l s (replySt (checked c b x t k)) := by
  unfold checked; split
  · exact a
  · exact h

theorem Does.pair {α : Type} {l : List Block} {s t : State} {p : α × State} {a : α} (h : p = (a, t)) (d : Does l s (sndSt p)) :
    Does l s t := by
  subst h; exact d

theorem Does.pair1 {α : Type} {l : List Block} {s t : State} {p : State × α} {a : α} (h : p = (t, a)) (d : Does l s (fstSt p)) :
    Does l s t := by
  subst h; exact d

theorem Does.foldl {α : Type} {l : List Block} {s : State} {f : State → α → State} (hf : ∀ x a, Does l s x → Does l s (f x a)) :
    ∀ {L : List α} {t : State}, Does l s t → Does l s (L.foldl f t)
  | [], _, h => h
  | a :: L, _, h => Does.foldl hf (L := L) (hf _ a h)

theorem Does.foldl1 {α β : Type} {l : List Block} {s : State} {f : State × β → α → State × β}
    (hf : ∀ x a, Does l s x.1 → Does l s (fstSt (f x a))) :
    ∀ {L : List α} {t : State × β}, Does l s (fstSt t) → Does l s (fstSt (L.foldl f t))
  | [], _, h => h
  | a :: L, _, h => Does.foldl1 hf (L := L) (hf _ a h)

theorem Does.foldl2 {α β : Type} {l : List Block} {s : State} {f : β × State → α → β × State}
    (hf : ∀ x a, Does l s x.2 → Does l s (sndSt (f x a))) :
    ∀ {L : List α} {t : β × State}, Does l s (sndSt t) → Does l s (sndSt (L.foldl f t))
  | [], _, h => h
  | a :: L, _, h => Does.foldl2 hf (L := L) (hf _ a h)

theorem forEach_does {α : Type} {l : List Block} {s t : State} {L : List α} {f : α → State → State} (h : Does l s t)
    (hf : ∀ a x, Does l s x → Does l s (f a x)) : Does l s (forEach L f t) :=
  Does.foldl (fun x a hx => hf a x hx) h

theorem forUpto_does {l : List Block} {s t : State} {n : Nat} {f : Nat → State → State} (h : Does l s t)
    (hf : ∀ a x, Does l s x → Does l s (f a x)) : Does l s (forUpto n f t) :=
  Does.foldl (fun x a hx => hf a x hx) h

theorem Does.intro {l : List Block} {s : State} {P : State → Prop} (h : ∀ x, Does l s x → P x) : ∀ x, Does l s x → P x := h

theorem Does.intro1 {α : Type} {l : List Block} {s : State} {P : State × α → Prop} (h : ∀ x, Does l s x.1 → P x) :
    ∀ x, Does l s x.1 → P x := h

theorem Does.intro2 {α : Type} {l : List Block} {s : State} {P : α × State → Prop} (h : ∀ x, Does l s x.2 → P x) :
    ∀ x, Does l s x.2 → P x := h

/-! ## One block written -/

/-- The count of the error ring holds together (R491, R495, R498). -/
def RingOk (e : Err) : Prop := e.entries ≤ 256 ∧ e.head < 256 ∧ e.tail = (e.head + e.entries) % 256


/-- The state with this block written. -/
abbrev put_part (v : Part) (t : State) : State := { t with part := v }

theorem Does.set_part {l : List Block} {s t : State} (hl : l.elem .part = true) (v) (h1 : v.variant = t.part.variant) (h2 : v.serial = t.part.serial) (a : Does l s t) :
    Does l s (put_part v t) :=
  a.trans ⟨fun b hb => by cases b <;> first | rfl | exact absurd (List.mem_of_elem_eq_true hl) hb,
    fun i => ⟨i.ram, i.mgmt, i.flash, i.cnt, i.ents, i.head, i.tail⟩,
    ⟨Nat.le_refl _, Nat.le_refl _, Nat.le_refl _, Nat.le_refl _, h1, h2⟩⟩

/-- The state with this block written. -/
abbrev put_ready (v : Ready) (t : State) : State := { t with ready := v }

theorem Does.set_ready {l : List Block} {s t : State} (hl : l.elem .ready = true) (v) (a : Does l s t) :
    Does l s (put_ready v t) :=
  a.trans ⟨fun b hb => by cases b <;> first | rfl | exact absurd (List.mem_of_elem_eq_true hl) hb,
    fun i => ⟨i.ram, i.mgmt, i.flash, i.cnt, i.ents, i.head, i.tail⟩,
    ⟨Nat.le_refl _, Nat.le_refl _, Nat.le_refl _, Nat.le_refl _, rfl, rfl⟩⟩

/-- The state with this block written. -/
abbrev put_fmtSticky (v : BitVec 7) (t : State) : State := { t with fmtSticky := v }

theorem Does.set_fmtSticky {l : List Block} {s t : State} (hl : l.elem .fmtSticky = true) (v) (a : Does l s t) :
    Does l s (put_fmtSticky v t) :=
  a.trans ⟨fun b hb => by cases b <;> first | rfl | exact absurd (List.mem_of_elem_eq_true hl) hb,
    fun i => ⟨i.ram, i.mgmt, i.flash, i.cnt, i.ents, i.head, i.tail⟩,
    ⟨Nat.le_refl _, Nat.le_refl _, Nat.le_refl _, Nat.le_refl _, rfl, rfl⟩⟩

/-- The state with this block written. -/
abbrev put_cnt (v : NMap Nat) (t : State) : State := { t with cnt := v }

theorem Does.set_cnt {l : List Block} {s t : State} (hl : l.elem .cnt = true) (v) (hv : (∀ p ∈ t.cnt, p.2 ≤ 0xFFFFFFFF) → ∀ p ∈ v, p.2 ≤ 0xFFFFFFFF) (a : Does l s t) :
    Does l s (put_cnt v t) :=
  a.trans ⟨fun b hb => by cases b <;> first | rfl | exact absurd (List.mem_of_elem_eq_true hl) hb,
    fun i => ⟨i.ram, i.mgmt, i.flash, hv i.cnt, i.ents, i.head, i.tail⟩,
    ⟨Nat.le_refl _, Nat.le_refl _, Nat.le_refl _, Nat.le_refl _, rfl, rfl⟩⟩

/-- The state with this block written. -/
abbrev put_ram (v : Mem) (t : State) : State := { t with ram := v }

theorem Does.set_ram {l : List Block} {s t : State} (hl : l.elem .ram = true) (v) (hv : Memory.wf ramFill t.ram = true → Memory.wf ramFill v = true) (a : Does l s t) :
    Does l s (put_ram v t) :=
  a.trans ⟨fun b hb => by cases b <;> first | rfl | exact absurd (List.mem_of_elem_eq_true hl) hb,
    fun i => ⟨hv i.ram, i.mgmt, i.flash, i.cnt, i.ents, i.head, i.tail⟩,
    ⟨Nat.le_refl _, Nat.le_refl _, Nat.le_refl _, Nat.le_refl _, rfl, rfl⟩⟩

/-- The state with this block written. -/
abbrev put_ramUndef (v : List (Nat × Nat × Nat)) (t : State) : State := { t with ramUndef := v }

theorem Does.set_ramUndef {l : List Block} {s t : State} (hl : l.elem .ramUndef = true) (v) (a : Does l s t) :
    Does l s (put_ramUndef v t) :=
  a.trans ⟨fun b hb => by cases b <;> first | rfl | exact absurd (List.mem_of_elem_eq_true hl) hb,
    fun i => ⟨i.ram, i.mgmt, i.flash, i.cnt, i.ents, i.head, i.tail⟩,
    ⟨Nat.le_refl _, Nat.le_refl _, Nat.le_refl _, Nat.le_refl _, rfl, rfl⟩⟩

/-- The state with this block written. -/
abbrev put_mgmt (v : Mem) (t : State) : State := { t with mgmt := v }

theorem Does.set_mgmt {l : List Block} {s t : State} (hl : l.elem .mgmt = true) (v) (hv : Memory.wf ramFill t.mgmt = true → Memory.wf ramFill v = true) (a : Does l s t) :
    Does l s (put_mgmt v t) :=
  a.trans ⟨fun b hb => by cases b <;> first | rfl | exact absurd (List.mem_of_elem_eq_true hl) hb,
    fun i => ⟨i.ram, hv i.mgmt, i.flash, i.cnt, i.ents, i.head, i.tail⟩,
    ⟨Nat.le_refl _, Nat.le_refl _, Nat.le_refl _, Nat.le_refl _, rfl, rfl⟩⟩

/-- The state with this block written. -/
abbrev put_mbx (v : Mbx) (t : State) : State := { t with mbx := v }

theorem Does.set_mbx {l : List Block} {s t : State} (hl : l.elem .mbx = true) (v) (a : Does l s t) :
    Does l s (put_mbx v t) :=
  a.trans ⟨fun b hb => by cases b <;> first | rfl | exact absurd (List.mem_of_elem_eq_true hl) hb,
    fun i => ⟨i.ram, i.mgmt, i.flash, i.cnt, i.ents, i.head, i.tail⟩,
    ⟨Nat.le_refl _, Nat.le_refl _, Nat.le_refl _, Nat.le_refl _, rfl, rfl⟩⟩

/-- The state with this block written. -/
abbrev put_host (v : HostIf) (t : State) : State := { t with host := v }

theorem Does.set_host {l : List Block} {s t : State} (hl : l.elem .host = true) (v) (a : Does l s t) :
    Does l s (put_host v t) :=
  a.trans ⟨fun b hb => by cases b <;> first | rfl | exact absurd (List.mem_of_elem_eq_true hl) hb,
    fun i => ⟨i.ram, i.mgmt, i.flash, i.cnt, i.ents, i.head, i.tail⟩,
    ⟨Nat.le_refl _, Nat.le_refl _, Nat.le_refl _, Nat.le_refl _, rfl, rfl⟩⟩

/-- The state with this block written. -/
abbrev put_tbu (v : Tbu) (t : State) : State := { t with tbu := v }

theorem Does.set_tbu {l : List Block} {s t : State} (hl : l.elem .tbu = true) (v) (a : Does l s t) :
    Does l s (put_tbu v t) :=
  a.trans ⟨fun b hb => by cases b <;> first | rfl | exact absurd (List.mem_of_elem_eq_true hl) hb,
    fun i => ⟨i.ram, i.mgmt, i.flash, i.cnt, i.ents, i.head, i.tail⟩,
    ⟨Nat.le_refl _, Nat.le_refl _, Nat.le_refl _, Nat.le_refl _, rfl, rfl⟩⟩

/-- The state with this block written. -/
abbrev put_pwr (v : Pwr) (t : State) : State := { t with pwr := v }

theorem Does.set_pwr {l : List Block} {s t : State} (hl : l.elem .pwr = true) (v) (a : Does l s t) :
    Does l s (put_pwr v t) :=
  a.trans ⟨fun b hb => by cases b <;> first | rfl | exact absurd (List.mem_of_elem_eq_true hl) hb,
    fun i => ⟨i.ram, i.mgmt, i.flash, i.cnt, i.ents, i.head, i.tail⟩,
    ⟨Nat.le_refl _, Nat.le_refl _, Nat.le_refl _, Nat.le_refl _, rfl, rfl⟩⟩

/-- The state with this block written. -/
abbrev put_err (v : Err) (t : State) : State := { t with err := v }

theorem Does.set_err {l : List Block} {s t : State} (hl : l.elem .err = true) (v) (hv : RingOk t.err → RingOk v) (a : Does l s t) :
    Does l s (put_err v t) :=
  a.trans ⟨fun b hb => by cases b <;> first | rfl | exact absurd (List.mem_of_elem_eq_true hl) hb,
    fun i => ⟨i.ram, i.mgmt, i.flash, i.cnt, (hv ⟨i.ents, i.head, i.tail⟩).1, (hv ⟨i.ents, i.head, i.tail⟩).2.1,
      (hv ⟨i.ents, i.head, i.tail⟩).2.2⟩,
    ⟨Nat.le_refl _, Nat.le_refl _, Nat.le_refl _, Nat.le_refl _, rfl, rfl⟩⟩

/-- The state with this block written. -/
abbrev put_slate (v : Slate) (t : State) : State := { t with slate := v }

theorem Does.set_slate {l : List Block} {s t : State} (hl : l.elem .slate = true) (v) (a : Does l s t) :
    Does l s (put_slate v t) :=
  a.trans ⟨fun b hb => by cases b <;> first | rfl | exact absurd (List.mem_of_elem_eq_true hl) hb,
    fun i => ⟨i.ram, i.mgmt, i.flash, i.cnt, i.ents, i.head, i.tail⟩,
    ⟨Nat.le_refl _, Nat.le_refl _, Nat.le_refl _, Nat.le_refl _, rfl, rfl⟩⟩

/-- The state with this block written. -/
abbrev put_plans (v : NMap PlanRt) (t : State) : State := { t with plans := v }

theorem Does.set_plans {l : List Block} {s t : State} (hl : l.elem .plans = true) (v) (a : Does l s t) :
    Does l s (put_plans v t) :=
  a.trans ⟨fun b hb => by cases b <;> first | rfl | exact absurd (List.mem_of_elem_eq_true hl) hb,
    fun i => ⟨i.ram, i.mgmt, i.flash, i.cnt, i.ents, i.head, i.tail⟩,
    ⟨Nat.le_refl _, Nat.le_refl _, Nat.le_refl _, Nat.le_refl _, rfl, rfl⟩⟩

/-- The state with this block written. -/
abbrev put_arrs (v : NMap Arr) (t : State) : State := { t with arrs := v }

theorem Does.set_arrs {l : List Block} {s t : State} (hl : l.elem .arrs = true) (v) (a : Does l s t) :
    Does l s (put_arrs v t) :=
  a.trans ⟨fun b hb => by cases b <;> first | rfl | exact absurd (List.mem_of_elem_eq_true hl) hb,
    fun i => ⟨i.ram, i.mgmt, i.flash, i.cnt, i.ents, i.head, i.tail⟩,
    ⟨Nat.le_refl _, Nat.le_refl _, Nat.le_refl _, Nat.le_refl _, rfl, rfl⟩⟩

/-- The state with this block written. -/
abbrev put_exclStored (v : List Nat) (t : State) : State := { t with exclStored := v }

theorem Does.set_exclStored {l : List Block} {s t : State} (hl : l.elem .exclStored = true) (v) (a : Does l s t) :
    Does l s (put_exclStored v t) :=
  a.trans ⟨fun b hb => by cases b <;> first | rfl | exact absurd (List.mem_of_elem_eq_true hl) hb,
    fun i => ⟨i.ram, i.mgmt, i.flash, i.cnt, i.ents, i.head, i.tail⟩,
    ⟨Nat.le_refl _, Nat.le_refl _, Nat.le_refl _, Nat.le_refl _, rfl, rfl⟩⟩

/-- The state with this block written. -/
abbrev put_norm (v : NMap (List NormPart)) (t : State) : State := { t with norm := v }

theorem Does.set_norm {l : List Block} {s t : State} (hl : l.elem .norm = true) (v) (a : Does l s t) :
    Does l s (put_norm v t) :=
  a.trans ⟨fun b hb => by cases b <;> first | rfl | exact absurd (List.mem_of_elem_eq_true hl) hb,
    fun i => ⟨i.ram, i.mgmt, i.flash, i.cnt, i.ents, i.head, i.tail⟩,
    ⟨Nat.le_refl _, Nat.le_refl _, Nat.le_refl _, Nat.le_refl _, rfl, rfl⟩⟩

/-- The state with this block written. -/
abbrev put_normSum (v : NMap (NMap (Word × Word))) (t : State) : State := { t with normSum := v }

theorem Does.set_normSum {l : List Block} {s t : State} (hl : l.elem .normSum = true) (v) (a : Does l s t) :
    Does l s (put_normSum v t) :=
  a.trans ⟨fun b hb => by cases b <;> first | rfl | exact absurd (List.mem_of_elem_eq_true hl) hb,
    fun i => ⟨i.ram, i.mgmt, i.flash, i.cnt, i.ents, i.head, i.tail⟩,
    ⟨Nat.le_refl _, Nat.le_refl _, Nat.le_refl _, Nat.le_refl _, rfl, rfl⟩⟩

/-- The state with this block written. -/
abbrev put_taint (v : List (Nat × Nat × Half)) (t : State) : State := { t with taint := v }

theorem Does.set_taint {l : List Block} {s t : State} (hl : l.elem .taint = true) (v) (a : Does l s t) :
    Does l s (put_taint v t) :=
  a.trans ⟨fun b hb => by cases b <;> first | rfl | exact absurd (List.mem_of_elem_eq_true hl) hb,
    fun i => ⟨i.ram, i.mgmt, i.flash, i.cnt, i.ents, i.head, i.tail⟩,
    ⟨Nat.le_refl _, Nat.le_refl _, Nat.le_refl _, Nat.le_refl _, rfl, rfl⟩⟩

/-- The state with this block written. -/
abbrev put_tiers (v : Tiers) (t : State) : State := { t with tiers := v }

theorem Does.set_tiers {l : List Block} {s t : State} (hl : l.elem .tiers = true) (v) (a : Does l s t) :
    Does l s (put_tiers v t) :=
  a.trans ⟨fun b hb => by cases b <;> first | rfl | exact absurd (List.mem_of_elem_eq_true hl) hb,
    fun i => ⟨i.ram, i.mgmt, i.flash, i.cnt, i.ents, i.head, i.tail⟩,
    ⟨Nat.le_refl _, Nat.le_refl _, Nat.le_refl _, Nat.le_refl _, rfl, rfl⟩⟩

/-- The state with this block written. -/
abbrev put_models (v : Models) (t : State) : State := { t with models := v }

theorem Does.set_models {l : List Block} {s t : State} (hl : l.elem .models = true) (v) (a : Does l s t) :
    Does l s (put_models v t) :=
  a.trans ⟨fun b hb => by cases b <;> first | rfl | exact absurd (List.mem_of_elem_eq_true hl) hb,
    fun i => ⟨i.ram, i.mgmt, i.flash, i.cnt, i.ents, i.head, i.tail⟩,
    ⟨Nat.le_refl _, Nat.le_refl _, Nat.le_refl _, Nat.le_refl _, rfl, rfl⟩⟩

/-- The state with this block written. -/
abbrev put_codec (v : Codec) (t : State) : State := { t with codec := v }

theorem Does.set_codec {l : List Block} {s t : State} (hl : l.elem .codec = true) (v) (a : Does l s t) :
    Does l s (put_codec v t) :=
  a.trans ⟨fun b hb => by cases b <;> first | rfl | exact absurd (List.mem_of_elem_eq_true hl) hb,
    fun i => ⟨i.ram, i.mgmt, i.flash, i.cnt, i.ents, i.head, i.tail⟩,
    ⟨Nat.le_refl _, Nat.le_refl _, Nat.le_refl _, Nat.le_refl _, rfl, rfl⟩⟩

/-- The state with this block written. -/
abbrev put_spar (v : Spar) (t : State) : State := { t with spar := v }

theorem Does.set_spar {l : List Block} {s t : State} (hl : l.elem .spar = true) (v) (a : Does l s t) :
    Does l s (put_spar v t) :=
  a.trans ⟨fun b hb => by cases b <;> first | rfl | exact absurd (List.mem_of_elem_eq_true hl) hb,
    fun i => ⟨i.ram, i.mgmt, i.flash, i.cnt, i.ents, i.head, i.tail⟩,
    ⟨Nat.le_refl _, Nat.le_refl _, Nat.le_refl _, Nat.le_refl _, rfl, rfl⟩⟩

/-- The state with this block written. -/
abbrev put_sec (v : Sec) (t : State) : State := { t with sec := v }

theorem Does.set_sec {l : List Block} {s t : State} (hl : l.elem .sec = true) (v) (h1 : t.sec.counter ≤ v.counter) (h2 : t.sec.floor ≤ v.floor) (h3 : t.sec.transitions ≤ v.transitions) (h4 : t.sec.lmsBlocks ≤ v.lmsBlocks) (a : Does l s t) :
    Does l s (put_sec v t) :=
  a.trans ⟨fun b hb => by cases b <;> first | rfl | exact absurd (List.mem_of_elem_eq_true hl) hb,
    fun i => ⟨i.ram, i.mgmt, i.flash, i.cnt, i.ents, i.head, i.tail⟩,
    ⟨h1, h2, h3, h4, rfl, rfl⟩⟩

/-- The state with this block written. -/
abbrev put_flash (v : Flash) (t : State) : State := { t with flash := v }

theorem Does.set_flash {l : List Block} {s t : State} (hl : l.elem .flash = true) (v) (hv : Memory.wf flashFill t.flash.mem = true → Memory.wf flashFill v.mem = true) (a : Does l s t) :
    Does l s (put_flash v t) :=
  a.trans ⟨fun b hb => by cases b <;> first | rfl | exact absurd (List.mem_of_elem_eq_true hl) hb,
    fun i => ⟨i.ram, i.mgmt, hv i.flash, i.cnt, i.ents, i.head, i.tail⟩,
    ⟨Nat.le_refl _, Nat.le_refl _, Nat.le_refl _, Nat.le_refl _, rfl, rfl⟩⟩

/-- The state with this block written. -/
abbrev put_maint (v : Maint) (t : State) : State := { t with maint := v }

theorem Does.set_maint {l : List Block} {s t : State} (hl : l.elem .maint = true) (v) (a : Does l s t) :
    Does l s (put_maint v t) :=
  a.trans ⟨fun b hb => by cases b <;> first | rfl | exact absurd (List.mem_of_elem_eq_true hl) hb,
    fun i => ⟨i.ram, i.mgmt, i.flash, i.cnt, i.ents, i.head, i.tail⟩,
    ⟨Nat.le_refl _, Nat.le_refl _, Nat.le_refl _, Nat.le_refl _, rfl, rfl⟩⟩

/-- The state with this block written. -/
abbrev put_out (v : List Out) (t : State) : State := { t with out := v }

theorem Does.set_out {l : List Block} {s t : State} (hl : l.elem .out = true) (v) (a : Does l s t) :
    Does l s (put_out v t) :=
  a.trans ⟨fun b hb => by cases b <;> first | rfl | exact absurd (List.mem_of_elem_eq_true hl) hb,
    fun i => ⟨i.ram, i.mgmt, i.flash, i.cnt, i.ents, i.head, i.tail⟩,
    ⟨Nat.le_refl _, Nat.le_refl _, Nat.le_refl _, Nat.le_refl _, rfl, rfl⟩⟩

/-- The state with this block written. -/
abbrev put_free (v : Nat) (t : State) : State := { t with free := v }

theorem Does.set_free {l : List Block} {s t : State} (hl : l.elem .free = true) (v) (a : Does l s t) :
    Does l s (put_free v t) :=
  a.trans ⟨fun b hb => by cases b <;> first | rfl | exact absurd (List.mem_of_elem_eq_true hl) hb,
    fun i => ⟨i.ram, i.mgmt, i.flash, i.cnt, i.ents, i.head, i.tail⟩,
    ⟨Nat.le_refl _, Nat.le_refl _, Nat.le_refl _, Nat.le_refl _, rfl, rfl⟩⟩

/-- The state with this block written. -/
abbrev put_pending (v : List Instr) (t : State) : State := { t with pending := v }

theorem Does.set_pending {l : List Block} {s t : State} (hl : l.elem .pending = true) (v) (a : Does l s t) :
    Does l s (put_pending v t) :=
  a.trans ⟨fun b hb => by cases b <;> first | rfl | exact absurd (List.mem_of_elem_eq_true hl) hb,
    fun i => ⟨i.ram, i.mgmt, i.flash, i.cnt, i.ents, i.head, i.tail⟩,
    ⟨Nat.le_refl _, Nat.le_refl _, Nat.le_refl _, Nat.le_refl _, rfl, rfl⟩⟩

/-! ## Several blocks written at once -/

theorem Does.set_ready_sec {l : List Block} {s t : State} (hl : sub [.ready, .sec] l = true) (v0 v1)
    (h1a : t.sec.counter ≤ v1.counter) (h1b : t.sec.floor ≤ v1.floor) (h1c : t.sec.transitions ≤ v1.transitions) (h1d : t.sec.lmsBlocks ≤ v1.lmsBlocks) (a : Does l s t) : Does l s { t with ready := v0, sec := v1 } :=
  Does.set_sec (t := (put_ready v0 t)) (has_of_sub hl (by decide)) v1 h1a h1b h1c h1d (Does.set_ready (t := t) (has_of_sub hl (by decide)) v0 (a))

theorem Does.set_pwr_spar_sec {l : List Block} {s t : State} (hl : sub [.pwr, .spar, .sec] l = true) (v0 v1 v2)
    (h2a : t.sec.counter ≤ v2.counter) (h2b : t.sec.floor ≤ v2.floor) (h2c : t.sec.transitions ≤ v2.transitions) (h2d : t.sec.lmsBlocks ≤ v2.lmsBlocks) (a : Does l s t) : Does l s { t with pwr := v0, spar := v1, sec := v2 } :=
  Does.set_sec (t := (put_spar v1 (put_pwr v0 t))) (has_of_sub hl (by decide)) v2 h2a h2b h2c h2d (Does.set_spar (t := (put_pwr v0 t)) (has_of_sub hl (by decide)) v1 (Does.set_pwr (t := t) (has_of_sub hl (by decide)) v0 (a)))

theorem Does.set_ready_fmtSticky_cnt_ram_ramUndef_mgmt_mbx_err_slate_plans_arrs_norm_normSum_taint_tiers_models_codec_spar_sec_flash_maint {l : List Block} {s t : State} (hl : sub [.ready, .fmtSticky, .cnt, .ram, .ramUndef, .mgmt, .mbx, .err, .slate, .plans, .arrs, .norm, .normSum, .taint, .tiers, .models, .codec, .spar, .sec, .flash, .maint] l = true) (v0 v1 v2 v3 v4 v5 v6 v7 v8 v9 v10 v11 v12 v13 v14 v15 v16 v17 v18 v19 v20)
    (h2 : (∀ p ∈ t.cnt, p.2 ≤ 0xFFFFFFFF) → ∀ p ∈ v2, p.2 ≤ 0xFFFFFFFF) (h3 : Memory.wf ramFill t.ram = true → Memory.wf ramFill v3 = true) (h5 : Memory.wf ramFill t.mgmt = true → Memory.wf ramFill v5 = true) (h7 : RingOk t.err → RingOk v7) (h18a : t.sec.counter ≤ v18.counter) (h18b : t.sec.floor ≤ v18.floor) (h18c : t.sec.transitions ≤ v18.transitions) (h18d : t.sec.lmsBlocks ≤ v18.lmsBlocks) (h19 : Memory.wf flashFill t.flash.mem = true → Memory.wf flashFill v19.mem = true) (a : Does l s t) : Does l s { t with ready := v0, fmtSticky := v1, cnt := v2, ram := v3, ramUndef := v4, mgmt := v5, mbx := v6, err := v7, slate := v8, plans := v9, arrs := v10, norm := v11, normSum := v12, taint := v13, tiers := v14, models := v15, codec := v16, spar := v17, sec := v18, flash := v19, maint := v20 } :=
  Does.set_maint (t := (put_flash v19 (put_sec v18 (put_spar v17 (put_codec v16 (put_models v15 (put_tiers v14 (put_taint v13 (put_normSum v12 (put_norm v11 (put_arrs v10 (put_plans v9 (put_slate v8 (put_err v7 (put_mbx v6 (put_mgmt v5 (put_ramUndef v4 (put_ram v3 (put_cnt v2 (put_fmtSticky v1 (put_ready v0 t))))))))))))))))))))) (has_of_sub hl (by decide)) v20 (Does.set_flash (t := (put_sec v18 (put_spar v17 (put_codec v16 (put_models v15 (put_tiers v14 (put_taint v13 (put_normSum v12 (put_norm v11 (put_arrs v10 (put_plans v9 (put_slate v8 (put_err v7 (put_mbx v6 (put_mgmt v5 (put_ramUndef v4 (put_ram v3 (put_cnt v2 (put_fmtSticky v1 (put_ready v0 t)))))))))))))))))))) (has_of_sub hl (by decide)) v19 h19 (Does.set_sec (t := (put_spar v17 (put_codec v16 (put_models v15 (put_tiers v14 (put_taint v13 (put_normSum v12 (put_norm v11 (put_arrs v10 (put_plans v9 (put_slate v8 (put_err v7 (put_mbx v6 (put_mgmt v5 (put_ramUndef v4 (put_ram v3 (put_cnt v2 (put_fmtSticky v1 (put_ready v0 t))))))))))))))))))) (has_of_sub hl (by decide)) v18 h18a h18b h18c h18d (Does.set_spar (t := (put_codec v16 (put_models v15 (put_tiers v14 (put_taint v13 (put_normSum v12 (put_norm v11 (put_arrs v10 (put_plans v9 (put_slate v8 (put_err v7 (put_mbx v6 (put_mgmt v5 (put_ramUndef v4 (put_ram v3 (put_cnt v2 (put_fmtSticky v1 (put_ready v0 t)))))))))))))))))) (has_of_sub hl (by decide)) v17 (Does.set_codec (t := (put_models v15 (put_tiers v14 (put_taint v13 (put_normSum v12 (put_norm v11 (put_arrs v10 (put_plans v9 (put_slate v8 (put_err v7 (put_mbx v6 (put_mgmt v5 (put_ramUndef v4 (put_ram v3 (put_cnt v2 (put_fmtSticky v1 (put_ready v0 t))))))))))))))))) (has_of_sub hl (by decide)) v16 (Does.set_models (t := (put_tiers v14 (put_taint v13 (put_normSum v12 (put_norm v11 (put_arrs v10 (put_plans v9 (put_slate v8 (put_err v7 (put_mbx v6 (put_mgmt v5 (put_ramUndef v4 (put_ram v3 (put_cnt v2 (put_fmtSticky v1 (put_ready v0 t)))))))))))))))) (has_of_sub hl (by decide)) v15 (Does.set_tiers (t := (put_taint v13 (put_normSum v12 (put_norm v11 (put_arrs v10 (put_plans v9 (put_slate v8 (put_err v7 (put_mbx v6 (put_mgmt v5 (put_ramUndef v4 (put_ram v3 (put_cnt v2 (put_fmtSticky v1 (put_ready v0 t))))))))))))))) (has_of_sub hl (by decide)) v14 (Does.set_taint (t := (put_normSum v12 (put_norm v11 (put_arrs v10 (put_plans v9 (put_slate v8 (put_err v7 (put_mbx v6 (put_mgmt v5 (put_ramUndef v4 (put_ram v3 (put_cnt v2 (put_fmtSticky v1 (put_ready v0 t)))))))))))))) (has_of_sub hl (by decide)) v13 (Does.set_normSum (t := (put_norm v11 (put_arrs v10 (put_plans v9 (put_slate v8 (put_err v7 (put_mbx v6 (put_mgmt v5 (put_ramUndef v4 (put_ram v3 (put_cnt v2 (put_fmtSticky v1 (put_ready v0 t))))))))))))) (has_of_sub hl (by decide)) v12 (Does.set_norm (t := (put_arrs v10 (put_plans v9 (put_slate v8 (put_err v7 (put_mbx v6 (put_mgmt v5 (put_ramUndef v4 (put_ram v3 (put_cnt v2 (put_fmtSticky v1 (put_ready v0 t)))))))))))) (has_of_sub hl (by decide)) v11 (Does.set_arrs (t := (put_plans v9 (put_slate v8 (put_err v7 (put_mbx v6 (put_mgmt v5 (put_ramUndef v4 (put_ram v3 (put_cnt v2 (put_fmtSticky v1 (put_ready v0 t))))))))))) (has_of_sub hl (by decide)) v10 (Does.set_plans (t := (put_slate v8 (put_err v7 (put_mbx v6 (put_mgmt v5 (put_ramUndef v4 (put_ram v3 (put_cnt v2 (put_fmtSticky v1 (put_ready v0 t)))))))))) (has_of_sub hl (by decide)) v9 (Does.set_slate (t := (put_err v7 (put_mbx v6 (put_mgmt v5 (put_ramUndef v4 (put_ram v3 (put_cnt v2 (put_fmtSticky v1 (put_ready v0 t))))))))) (has_of_sub hl (by decide)) v8 (Does.set_err (t := (put_mbx v6 (put_mgmt v5 (put_ramUndef v4 (put_ram v3 (put_cnt v2 (put_fmtSticky v1 (put_ready v0 t)))))))) (has_of_sub hl (by decide)) v7 h7 (Does.set_mbx (t := (put_mgmt v5 (put_ramUndef v4 (put_ram v3 (put_cnt v2 (put_fmtSticky v1 (put_ready v0 t))))))) (has_of_sub hl (by decide)) v6 (Does.set_mgmt (t := (put_ramUndef v4 (put_ram v3 (put_cnt v2 (put_fmtSticky v1 (put_ready v0 t)))))) (has_of_sub hl (by decide)) v5 h5 (Does.set_ramUndef (t := (put_ram v3 (put_cnt v2 (put_fmtSticky v1 (put_ready v0 t))))) (has_of_sub hl (by decide)) v4 (Does.set_ram (t := (put_cnt v2 (put_fmtSticky v1 (put_ready v0 t)))) (has_of_sub hl (by decide)) v3 h3 (Does.set_cnt (t := (put_fmtSticky v1 (put_ready v0 t))) (has_of_sub hl (by decide)) v2 h2 (Does.set_fmtSticky (t := (put_ready v0 t)) (has_of_sub hl (by decide)) v1 (Does.set_ready (t := t) (has_of_sub hl (by decide)) v0 (a)))))))))))))))))))))

theorem Does.set_plans_norm_normSum_tiers_spar {l : List Block} {s t : State} (hl : sub [.plans, .norm, .normSum, .tiers, .spar] l = true) (v0 v1 v2 v3 v4)
     (a : Does l s t) : Does l s { t with plans := v0, norm := v1, normSum := v2, tiers := v3, spar := v4 } :=
  Does.set_spar (t := (put_tiers v3 (put_normSum v2 (put_norm v1 (put_plans v0 t))))) (has_of_sub hl (by decide)) v4 (Does.set_tiers (t := (put_normSum v2 (put_norm v1 (put_plans v0 t)))) (has_of_sub hl (by decide)) v3 (Does.set_normSum (t := (put_norm v1 (put_plans v0 t))) (has_of_sub hl (by decide)) v2 (Does.set_norm (t := (put_plans v0 t)) (has_of_sub hl (by decide)) v1 (Does.set_plans (t := t) (has_of_sub hl (by decide)) v0 (a)))))

theorem Does.set_ramUndef_free {l : List Block} {s t : State} (hl : sub [.ramUndef, .free] l = true) (v0 v1)
     (a : Does l s t) : Does l s { t with ramUndef := v0, free := v1 } :=
  Does.set_free (t := (put_ramUndef v0 t)) (has_of_sub hl (by decide)) v1 (Does.set_ramUndef (t := t) (has_of_sub hl (by decide)) v0 (a))

theorem Does.set_cnt_plans_tiers {l : List Block} {s t : State} (hl : sub [.cnt, .plans, .tiers] l = true) (v0 v1 v2)
    (h0 : (∀ p ∈ t.cnt, p.2 ≤ 0xFFFFFFFF) → ∀ p ∈ v0, p.2 ≤ 0xFFFFFFFF) (a : Does l s t) : Does l s { t with cnt := v0, plans := v1, tiers := v2 } :=
  Does.set_tiers (t := (put_plans v1 (put_cnt v0 t))) (has_of_sub hl (by decide)) v2 (Does.set_plans (t := (put_cnt v0 t)) (has_of_sub hl (by decide)) v1 (Does.set_cnt (t := t) (has_of_sub hl (by decide)) v0 h0 (a)))

theorem Does.set_codec_spar {l : List Block} {s t : State} (hl : sub [.codec, .spar] l = true) (v0 v1)
     (a : Does l s t) : Does l s { t with codec := v0, spar := v1 } :=
  Does.set_spar (t := (put_codec v0 t)) (has_of_sub hl (by decide)) v1 (Does.set_codec (t := t) (has_of_sub hl (by decide)) v0 (a))

theorem Does.set_spar_maint {l : List Block} {s t : State} (hl : sub [.spar, .maint] l = true) (v0 v1)
     (a : Does l s t) : Does l s { t with spar := v0, maint := v1 } :=
  Does.set_maint (t := (put_spar v0 t)) (has_of_sub hl (by decide)) v1 (Does.set_spar (t := t) (has_of_sub hl (by decide)) v0 (a))

theorem Does.set_slate_free {l : List Block} {s t : State} (hl : sub [.slate, .free] l = true) (v0 v1)
     (a : Does l s t) : Does l s { t with slate := v0, free := v1 } :=
  Does.set_free (t := (put_slate v0 t)) (has_of_sub hl (by decide)) v1 (Does.set_slate (t := t) (has_of_sub hl (by decide)) v0 (a))

theorem Does.set_mbx_pwr {l : List Block} {s t : State} (hl : sub [.mbx, .pwr] l = true) (v0 v1)
     (a : Does l s t) : Does l s { t with mbx := v0, pwr := v1 } :=
  Does.set_pwr (t := (put_mbx v0 t)) (has_of_sub hl (by decide)) v1 (Does.set_mbx (t := t) (has_of_sub hl (by decide)) v0 (a))

theorem Does.set_ready_tiers {l : List Block} {s t : State} (hl : sub [.ready, .tiers] l = true) (v0 v1)
     (a : Does l s t) : Does l s { t with ready := v0, tiers := v1 } :=
  Does.set_tiers (t := (put_ready v0 t)) (has_of_sub hl (by decide)) v1 (Does.set_ready (t := t) (has_of_sub hl (by decide)) v0 (a))

theorem Does.set_ram_host_tbu_pwr_slate_tiers_spar_sec {l : List Block} {s t : State} (hl : sub [.ram, .host, .tbu, .pwr, .slate, .tiers, .spar, .sec] l = true) (v0 v1 v2 v3 v4 v5 v6 v7)
    (h0 : Memory.wf ramFill t.ram = true → Memory.wf ramFill v0 = true) (h7a : t.sec.counter ≤ v7.counter) (h7b : t.sec.floor ≤ v7.floor) (h7c : t.sec.transitions ≤ v7.transitions) (h7d : t.sec.lmsBlocks ≤ v7.lmsBlocks) (a : Does l s t) : Does l s { t with ram := v0, host := v1, tbu := v2, pwr := v3, slate := v4, tiers := v5, spar := v6, sec := v7 } :=
  Does.set_sec (t := (put_spar v6 (put_tiers v5 (put_slate v4 (put_pwr v3 (put_tbu v2 (put_host v1 (put_ram v0 t)))))))) (has_of_sub hl (by decide)) v7 h7a h7b h7c h7d (Does.set_spar (t := (put_tiers v5 (put_slate v4 (put_pwr v3 (put_tbu v2 (put_host v1 (put_ram v0 t))))))) (has_of_sub hl (by decide)) v6 (Does.set_tiers (t := (put_slate v4 (put_pwr v3 (put_tbu v2 (put_host v1 (put_ram v0 t)))))) (has_of_sub hl (by decide)) v5 (Does.set_slate (t := (put_pwr v3 (put_tbu v2 (put_host v1 (put_ram v0 t))))) (has_of_sub hl (by decide)) v4 (Does.set_pwr (t := (put_tbu v2 (put_host v1 (put_ram v0 t)))) (has_of_sub hl (by decide)) v3 (Does.set_tbu (t := (put_host v1 (put_ram v0 t))) (has_of_sub hl (by decide)) v2 (Does.set_host (t := (put_ram v0 t)) (has_of_sub hl (by decide)) v1 (Does.set_ram (t := t) (has_of_sub hl (by decide)) v0 h0 (a))))))))

theorem Does.set_spar_sec {l : List Block} {s t : State} (hl : sub [.spar, .sec] l = true) (v0 v1)
    (h1a : t.sec.counter ≤ v1.counter) (h1b : t.sec.floor ≤ v1.floor) (h1c : t.sec.transitions ≤ v1.transitions) (h1d : t.sec.lmsBlocks ≤ v1.lmsBlocks) (a : Does l s t) : Does l s { t with spar := v0, sec := v1 } :=
  Does.set_sec (t := (put_spar v0 t)) (has_of_sub hl (by decide)) v1 h1a h1b h1c h1d (Does.set_spar (t := t) (has_of_sub hl (by decide)) v0 (a))

theorem Does.set_tbu_err_codec_spar {l : List Block} {s t : State} (hl : sub [.tbu, .err, .codec, .spar] l = true) (v0 v1 v2 v3)
    (h1 : RingOk t.err → RingOk v1) (a : Does l s t) : Does l s { t with tbu := v0, err := v1, codec := v2, spar := v3 } :=
  Does.set_spar (t := (put_codec v2 (put_err v1 (put_tbu v0 t)))) (has_of_sub hl (by decide)) v3 (Does.set_codec (t := (put_err v1 (put_tbu v0 t))) (has_of_sub hl (by decide)) v2 (Does.set_err (t := (put_tbu v0 t)) (has_of_sub hl (by decide)) v1 h1 (Does.set_tbu (t := t) (has_of_sub hl (by decide)) v0 (a))))

theorem Does.set_err_slate_maint {l : List Block} {s t : State} (hl : sub [.err, .slate, .maint] l = true) (v0 v1 v2)
    (h0 : RingOk t.err → RingOk v0) (a : Does l s t) : Does l s { t with err := v0, slate := v1, maint := v2 } :=
  Does.set_maint (t := (put_slate v1 (put_err v0 t))) (has_of_sub hl (by decide)) v2 (Does.set_slate (t := (put_err v0 t)) (has_of_sub hl (by decide)) v1 (Does.set_err (t := t) (has_of_sub hl (by decide)) v0 h0 (a)))

theorem Does.set_cnt_tbu {l : List Block} {s t : State} (hl : sub [.cnt, .tbu] l = true) (v0 v1)
    (h0 : (∀ p ∈ t.cnt, p.2 ≤ 0xFFFFFFFF) → ∀ p ∈ v0, p.2 ≤ 0xFFFFFFFF) (a : Does l s t) : Does l s { t with cnt := v0, tbu := v1 } :=
  Does.set_tbu (t := (put_cnt v0 t)) (has_of_sub hl (by decide)) v1 (Does.set_cnt (t := t) (has_of_sub hl (by decide)) v0 h0 (a))

theorem Does.set_tbu_err_plans_spar_sec {l : List Block} {s t : State} (hl : sub [.tbu, .err, .plans, .spar, .sec] l = true) (v0 v1 v2 v3 v4)
    (h1 : RingOk t.err → RingOk v1) (h4a : t.sec.counter ≤ v4.counter) (h4b : t.sec.floor ≤ v4.floor) (h4c : t.sec.transitions ≤ v4.transitions) (h4d : t.sec.lmsBlocks ≤ v4.lmsBlocks) (a : Does l s t) : Does l s { t with tbu := v0, err := v1, plans := v2, spar := v3, sec := v4 } :=
  Does.set_sec (t := (put_spar v3 (put_plans v2 (put_err v1 (put_tbu v0 t))))) (has_of_sub hl (by decide)) v4 h4a h4b h4c h4d (Does.set_spar (t := (put_plans v2 (put_err v1 (put_tbu v0 t)))) (has_of_sub hl (by decide)) v3 (Does.set_plans (t := (put_err v1 (put_tbu v0 t))) (has_of_sub hl (by decide)) v2 (Does.set_err (t := (put_tbu v0 t)) (has_of_sub hl (by decide)) v1 h1 (Does.set_tbu (t := t) (has_of_sub hl (by decide)) v0 (a)))))

theorem Does.set_norm_normSum {l : List Block} {s t : State} (hl : sub [.norm, .normSum] l = true) (v0 v1)
     (a : Does l s t) : Does l s { t with norm := v0, normSum := v1 } :=
  Does.set_normSum (t := (put_norm v0 t)) (has_of_sub hl (by decide)) v1 (Does.set_norm (t := t) (has_of_sub hl (by decide)) v0 (a))

theorem Does.set_mbx_host {l : List Block} {s t : State} (hl : sub [.mbx, .host] l = true) (v0 v1)
     (a : Does l s t) : Does l s { t with mbx := v0, host := v1 } :=
  Does.set_host (t := (put_mbx v0 t)) (has_of_sub hl (by decide)) v1 (Does.set_mbx (t := t) (has_of_sub hl (by decide)) v0 (a))

theorem Does.set_mbx_host_plans {l : List Block} {s t : State} (hl : sub [.mbx, .host, .plans] l = true) (v0 v1 v2)
     (a : Does l s t) : Does l s { t with mbx := v0, host := v1, plans := v2 } :=
  Does.set_plans (t := (put_host v1 (put_mbx v0 t))) (has_of_sub hl (by decide)) v2
    (Does.set_host (t := (put_mbx v0 t)) (has_of_sub hl (by decide)) v1 (Does.set_mbx (t := t) (has_of_sub hl (by decide)) v0 (a)))

theorem Does.set_models_maint {l : List Block} {s t : State} (hl : sub [.models, .maint] l = true) (v0 v1)
     (a : Does l s t) : Does l s { t with models := v0, maint := v1 } :=
  Does.set_maint (t := (put_models v0 t)) (has_of_sub hl (by decide)) v1 (Does.set_models (t := t) (has_of_sub hl (by decide)) v0 (a))

theorem Does.set_pwr_spar {l : List Block} {s t : State} (hl : sub [.pwr, .spar] l = true) (v0 v1)
     (a : Does l s t) : Does l s { t with pwr := v0, spar := v1 } :=
  Does.set_spar (t := (put_pwr v0 t)) (has_of_sub hl (by decide)) v1 (Does.set_pwr (t := t) (has_of_sub hl (by decide)) v0 (a))

end Sys2Proof.Laws
end

