-- ==== Sys2Proof/Laws/Memory.lean ====
section
/-! SUPPORT. Sys2Proof/Laws/Memory.lean: the laws of the byte memories and of the number-keyed maps: every operation keeps the
canonical form, a read gives the byte written, and a write leaves every other byte alone. -/

namespace Sys2Proof.Laws

open Sys2Proof.Machine

/-- Every entry of a memory lies above an address. -/
def Above (a : Nat) (m : Mem) : Prop := ∀ c ∈ m, a < c.1

theorem wf_cons {f : Byte} {c : Host.Cell} {m : Mem} :
    Memory.wf f (c :: m) = true ↔ c.2 ≠ f ∧ Above c.1 m ∧ Memory.wf f m = true := by
  induction m generalizing c with
  | nil => simp [Memory.wf, Above]
  | cons d m ih =>
    simp only [Memory.wf, Bool.and_eq_true, decide_eq_true_eq, bne_iff_ne, ne_eq]
    constructor
    · rintro ⟨⟨h1, h2⟩, h3⟩
      refine ⟨h1, ?_, h3⟩
      intro x hx
      rcases List.mem_cons.mp hx with rfl | hx
      · exact h2
      · exact Nat.lt_trans h2 ((ih.mp h3).2.1 x hx)
    · rintro ⟨h1, h2, h3⟩
      exact ⟨⟨h1, h2 d (by simp)⟩, h3⟩

theorem above_memSet {f : Byte} {x a : Nat} {b : Byte} {m : Mem} (hx : x < a) (h : Above x m) : Above x (memSet f m a b) := by
  induction m with
  | nil => simp only [memSet]; split <;> intro c hc <;> simp_all
  | cons d m ih =>
    have hm : Above x m := fun c hc => h c (by simp [hc])
    simp only [memSet]
    split
    · split
      · exact h
      · intro c hc; rcases List.mem_cons.mp hc with rfl | hc
        · exact hx
        · exact h c hc
    · split
      · split
        · exact hm
        · intro c hc; rcases List.mem_cons.mp hc with rfl | hc
          · exact hx
          · exact hm c hc
      · intro c hc; rcases List.mem_cons.mp hc with rfl | hc
        · exact h _ (by simp)
        · exact ih hm c hc

/-- Writing one byte keeps the canonical form. -/
theorem memSet_wf {f : Byte} {m : Mem} {a : Nat} {b : Byte} (h : Memory.wf f m = true) : Memory.wf f (memSet f m a b) = true := by
  induction m with
  | nil => simp only [memSet]; split <;> simp_all [Memory.wf]
  | cons d m ih =>
    obtain ⟨h1, h2, h3⟩ := wf_cons.mp h
    simp only [memSet]
    split
    · next hlt =>
      split
      · exact h
      · next hb =>
        refine wf_cons.mpr ⟨hb, ?_, h⟩
        intro c hc; rcases List.mem_cons.mp hc with rfl | hc
        · exact hlt
        · exact Nat.lt_trans hlt (h2 c hc)
    · split
      · next hlt he =>
        split
        · exact h3
        · next hb => exact wf_cons.mpr ⟨hb, he ▸ h2, h3⟩
      · next hlt he => exact wf_cons.mpr ⟨h1, above_memSet (by omega) h2, ih h3⟩

/-- Writing a run of bytes keeps the canonical form. -/
theorem memWrite_wf {f : Byte} {m : Mem} {a : Nat} {b : Bytes} (h : Memory.wf f m = true) : Memory.wf f (memWrite f m a b) = true := by
  induction b generalizing m a with
  | nil => exact h
  | cons x b ih => exact ih (memSet_wf h)

/-- Taking entries out keeps the canonical form. -/
theorem filter_wf {f : Byte} {m : Mem} {p : Host.Cell → Bool} (h : Memory.wf f m = true) : Memory.wf f (m.filter p) = true := by
  induction m with
  | nil => rfl
  | cons d m ih =>
    obtain ⟨h1, h2, h3⟩ := wf_cons.mp h
    simp only [List.filter]
    split
    · exact wf_cons.mpr ⟨h1, fun c hc => h2 c (List.mem_filter.mp hc).1, ih h3⟩
    · exact ih h3

theorem memGet_above {f : Byte} {m : Mem} {a : Nat} (h : Above a m) : memGet f m a = f := by
  cases m with
  | nil => rfl
  | cons d m =>
    have := h d (by simp)
    simp only [memGet]
    rw [if_neg (by omega), if_pos this]

/-- A byte reads as it was written. -/
theorem memGet_memSet_same {f : Byte} {m : Mem} {a : Nat} {b : Byte} (h : Memory.wf f m = true) : memGet f (memSet f m a b) a = b := by
  induction m with
  | nil => simp only [memSet]; split <;> simp_all [memGet]
  | cons d m ih =>
    obtain ⟨h1, h2, h3⟩ := wf_cons.mp h
    simp only [memSet]
    split
    · next hlt =>
      split
      · next hb => simp only [memGet]; rw [if_neg (by omega), if_pos hlt, hb]
      · simp [memGet]
    · split
      · next hlt he =>
        split
        · next hb => rw [hb]; exact memGet_above (he ▸ h2)
        · simp [memGet]
      · next hlt he => simp only [memGet]; rw [if_neg he, if_neg (by omega)]; exact ih h3

/-- A write of one byte leaves every other byte alone. -/
theorem memGet_memSet_other {f : Byte} {m : Mem} {a x : Nat} {b : Byte} (h : Memory.wf f m = true) (hx : x ≠ a) :
    memGet f (memSet f m a b) x = memGet f m x := by
  induction m with
  | nil => simp only [memSet]; split <;> simp [memGet]; intro h; omega
  | cons d m ih =>
    obtain ⟨h1, h2, h3⟩ := wf_cons.mp h
    simp only [memSet]
    split
    · next hlt =>
      split
      · rfl
      · simp only [memGet]
        rw [if_neg (by omega : ¬ a = x)]
        split
        · next h5 => rw [if_neg (by omega), if_pos (by omega)]
        · rfl
    · split
      · next hlt he =>
        split
        · simp only [memGet]
          rw [if_neg (by omega : ¬ d.1 = x)]
          split
          · next h6 => exact memGet_above (fun c hc => Nat.lt_trans h6 (h2 c hc))
          · rfl
        · simp only [memGet]
          rw [if_neg (by omega : ¬ a = x), if_neg (by omega : ¬ d.1 = x)]
          simp [he]
      · next hlt he => simp only [memGet]; rw [ih h3]

/-- A run of bytes written leaves every byte outside it alone. -/
theorem memGet_memWrite_other {f : Byte} {m : Mem} {a x : Nat} {b : Bytes} (h : Memory.wf f m = true) (hx : x < a ∨ a + b.length ≤ x) :
    memGet f (memWrite f m a b) x = memGet f m x := by
  induction b generalizing m a with
  | nil => rfl
  | cons y b ih =>
    simp only [List.length_cons] at hx
    simp only [memWrite]
    rw [ih (memSet_wf h) (by omega), memGet_memSet_other h (by omega)]

/-- A byte of a run written reads as it was written. -/
theorem memGet_memWrite_same {f : Byte} {m : Mem} {a i : Nat} {b : Bytes} (h : Memory.wf f m = true) (hi : i < b.length) :
    memGet f (memWrite f m a b) (a + i) = b[i] := by
  induction b generalizing m a i with
  | nil => simp at hi
  | cons y b ih =>
    simp only [memWrite]
    cases i with
    | zero => rw [memGet_memWrite_other (memSet_wf h) (by omega)]; simpa using memGet_memSet_same h
    | succ i =>
      have := ih (m := memSet f m a y) (a := a + 1) (i := i) (memSet_wf h) (by simpa using hi)
      rw [show a + (i + 1) = a + 1 + i from by omega, this]; rfl

/-! ## Number-keyed maps -/

theorem mget_mset_same {α : Type} (m : NMap α) (k : Nat) (v : α) : mget (mset m k v) k = some v := by
  induction m with
  | nil => simp [mset, mget]
  | cons d m ih =>
    obtain ⟨i, w⟩ := d
    simp only [mset]
    split
    · simp [mget]
    · split
      · simp [mget]
      · next h => simp only [mget]; rw [if_neg h]; exact ih

theorem mget_mset_other {α : Type} (m : NMap α) {k x : Nat} (v : α) (h : x ≠ k) : mget (mset m k v) x = mget m x := by
  induction m with
  | nil => simp [mset, mget]; omega
  | cons d m ih =>
    obtain ⟨i, w⟩ := d
    simp only [mset]
    split
    · simp only [mget]; rw [if_neg (by omega : ¬ k = x)]
    · split
      · next h2 => simp only [mget]; rw [if_neg (by omega : ¬ k = x), if_neg (by omega : ¬ i = x)]
      · simp only [mget]; rw [ih]

theorem mem_mset {α : Type} {m : NMap α} {k : Nat} {v : α} {p : Nat × α} (h : p ∈ mset m k v) : p = (k, v) ∨ p ∈ m := by
  induction m with
  | nil => simpa [mset] using h
  | cons d m ih =>
    obtain ⟨i, w⟩ := d
    simp only [mset] at h
    split at h
    · simpa using h
    · split at h
      · rcases List.mem_cons.mp h with h | h
        · exact .inl h
        · exact .inr (by simp [h])
      · rcases List.mem_cons.mp h with h | h
        · exact .inr (by simp [h])
        · rcases ih h with h | h
          · exact .inl h
          · exact .inr (by simp [h])

end Sys2Proof.Laws
end

