-- ==== Sys2Proof/Laws/Basic.lean ====
section
/-! SUPPORT. Sys2Proof/Laws/Basic.lean: what the operations under every other do: counters, RAM, outputs, interrupts, error records. -/

namespace Sys2Proof.Laws
open Sys2Proof.Machine Sys2Proof.Safety

theorem countBy_does {off n s} : Does [.cnt] s (countBy off n s) := by
  unfold countBy
  refine Does.ite Does.refl (Does.set_cnt rfl _ ?_ Does.refl)
  intro h p hp
  rcases mem_mset hp with rfl | hp
  · exact Nat.min_le_right _ _
  · exact h p hp

theorem ramPut_does {a0 a1 s} : Does [.ram, .ramUndef] s (ramPut a0 a1 s) :=
  Does.set_ramUndef rfl _ (Does.set_ram rfl _ (fun h => memSet_wf h) Does.refl)

theorem ring_reset {k : Option ErrEntry} : RingOk { Err.reset with kept := k } := by
  refine ⟨?_, ?_, ?_⟩
  · show 0 ≤ 256; omega
  · show 0 < 256; omega
  · rfl

theorem ring_push {l : List ErrEntry} : ∀ {e : Err}, RingOk e → e.entries + l.length ≤ 256 → RingOk (e.push l) := by
  induction l with
  | nil => intro e h _; exact h
  | cons x l ih =>
    intro e h hl
    simp only [List.length_cons] at hl
    refine ih ⟨?_, h.2.1, ?_⟩ ?_
    · show e.entries + 1 ≤ 256; omega
    · show (e.tail + 1) % 256 = (e.head + (e.entries + 1)) % 256
      rw [h.2.2]; omega
    · show e.entries + 1 + l.length ≤ 256; omega

/-- Placing a record keeps the ring's count (R495, R496). -/
theorem ring_place {e : Err} {x : ErrEntry} {c : List ErrEntry} (h : RingOk e) : RingOk (e.place x c).1 := by
  have := h.1
  unfold Err.place
  extract_lets free
  split
  · split
    · split
      · exact h
      · exact h
    · exact h
  · split
    · refine ring_push h ?_
      simp only [List.length_cons]; omega
    · refine ring_push h ?_
      simp only [List.length_cons, List.length_nil]; omega

theorem emit_does {a0 s} : Does [.out] s (emit a0 s) := Does.set_out rfl _ Does.refl

theorem raiseVector_does {a0 s} : Does [.host, .out] s (raiseVector a0 s) := by
  unfold raiseVector
  exact Does.ite (emit_does.mono rfl) (Does.set_host rfl _ Does.refl)

theorem count_does {a0 s} : Does [.cnt] s (count a0 s) := countBy_does

/-- A record is counted, placed or merged, and reported: it touches the counters, the error block, interrupts and outputs (R491-R500). -/
theorem record_does {cls code i s} : Does [.cnt, .host, .err, .out] s (record cls code i s) := by
  unfold record
  extract_lets +onlyGivenNames det s1
  have hs1 : Does [.cnt, .host, .err, .out] s s1 := count_does.mono rfl
  clear_value s1
  refine Does.ite ?_ ?_
  · refine Does.then count_does rfl ?_
    exact Does.set_err rfl _ (fun h => h) hs1
  · extract_lets +onlyGivenNames x ct p b1 e s2 s3 s4 b2
    have hs2 : Does [.cnt, .host, .err, .out] s s2 := Does.set_err rfl _ (fun h => (ring_place h : RingOk p.1)) hs1
    clear_value s2
    have hs3 : Does [.cnt, .host, .err, .out] s s3 := Does.ite (Does.then count_does rfl hs2) hs2
    clear_value s3
    have hs4 : Does [.cnt, .host, .err, .out] s s4 := Does.ite (Does.then raiseVector_does rfl hs3) hs3
    clear_value s4
    refine Does.ite ?_ hs4
    exact Does.then emit_does rfl (Does.set_host rfl _ hs4)

end Sys2Proof.Laws
end

