-- ==== Sys2Proof/Laws/Ops.lean ====
section
/-! SUPPORT. Sys2Proof/Laws/Ops.lean: what each operation and meaning of Machine/Ops.lean can do, as `Does` says it: which blocks of
the state it may change, that it keeps the invariant, and that it lowers nothing that only rises. -/

namespace Sys2Proof.Laws

open Sys2Proof.Machine Sys2Proof.Safety

theorem drawWord_does {s} :
    Does [.free] s (sndSt (drawWord s)) := by
  refine Does.also (t := s) Does.refl (fun h0 => ?_)
  unfold drawWord
  refine Does.snd ?_
  refine Does.set_free rfl _ ?_
  assumption

theorem drawEntropy_does {s} :
    Does [.free] s (sndSt (drawEntropy s)) := by
  refine Does.also (t := s) Does.refl (fun h0 => ?_)
  unfold drawEntropy
  refine Does.snd ?_
  refine Does.set_free rfl _ ?_
  assumption

theorem drawBytes_does {a0} {s} :
    Does [.free] s (sndSt (drawBytes a0 s)) := by
  refine Does.also (t := s) Does.refl (fun h0 => ?_)
  unfold drawBytes
  refine Does.snd ?_
  refine Does.set_free rfl _ ?_
  assumption

theorem reachTime_does {a0} {s} :
    Does [.tbu] s (reachTime a0 s) := by
  refine Does.also (t := s) Does.refl (fun h0 => ?_)
  unfold reachTime
  extract_lets +onlyGivenNames y0
  refine Does.set_tbu rfl _ ?_
  assumption

theorem wakeEvent_does {a0} {s} :
    Does [.pwr] s (wakeEvent a0 s) := by
  refine Does.also (t := s) Does.refl (fun h0 => ?_)
  unfold wakeEvent
  extract_lets +onlyGivenNames y0
  refine Does.ite ?_ ?_
  · refine Does.set_pwr rfl _ ?_
    assumption
  · assumption

end Sys2Proof.Laws
end

