-- ==== Sys2Proof/Laws/Report.lean ====
section
/-! SUPPORT. Sys2Proof/Laws/Report.lean: what each operation and meaning of Machine/Report.lean can do, as `Does` says it: which blocks of
the state it may change, that it keeps the invariant, and that it lowers nothing that only rises. -/

namespace Sys2Proof.Laws

open Sys2Proof.Machine Sys2Proof.Safety

theorem hostAccess_does {a0 a1 a2 a3} {s} :
    Does [.cnt, .host, .err, .out] s (hostAccess a0 a1 a2 a3 s) := by
  refine Does.also (t := s) Does.refl (fun h0 => ?_)
  unfold hostAccess
  refine Does.then record_does rfl ?_
  assumption

theorem holdAccess_does {a0} {s} :
    Does [.pwr] s (holdAccess a0 s) := by
  refine Does.also (t := s) Does.refl (fun h0 => ?_)
  unfold holdAccess
  extract_lets +onlyGivenNames y0
  refine Does.set_pwr rfl _ ?_
  assumption

theorem restartAccess_does {l} {s t} {x bar off v k} (hl : sub [.cnt, .host, .err, .out] l = true) (h : Does l s t)
    (hk : ∀ y, Does l s y → Does l s (k y)) : Does l s (restartAccess x bar off v k t) := by
  unfold restartAccess
  split
  · exact Does.thenVia (n := [.cnt, .host, .err, .out]) hostAccess_does rfl hl h
  · exact Does.thenVia (n := [.cnt, .host, .err, .out]) hostAccess_does rfl hl h
  · exact hk _ h
  · exact hk _ h
  · exact Does.thenVia (n := [.cnt, .host, .err, .out]) emit_does rfl hl h

theorem busAccess_does {l} {s t} {x bar off v k} (hl : sub [.cnt, .host, .pwr, .err, .out] l = true) (h : Does l s t)
    (hk : ∀ y, Does l s y → Does l s (k y)) : Does l s (busAccess x bar off v k t) := by
  unfold busAccess
  split
  · refine Does.ite (Does.thenVia (n := [.cnt, .host, .pwr, .err, .out]) holdAccess_does rfl hl h) (Does.ite ?_ (hk _ h))
    refine restartAccess_does ?_ h hk
    exact List.all_eq_true.mpr (fun b hb => has_of_sub hl (mem_of_sub (a := [.cnt, .host, .err, .out]) (b := [.cnt, .host, .pwr, .err, .out]) rfl hb))
  · exact Does.thenVia (n := [.cnt, .host, .pwr, .err, .out]) holdAccess_does rfl hl (Does.thenVia (n := [.cnt, .host, .pwr, .err, .out]) wakeEvent_does rfl hl h)
  · exact Does.thenVia (n := [.cnt, .host, .pwr, .err, .out]) holdAccess_does rfl hl (Does.thenVia (n := [.cnt, .host, .pwr, .err, .out]) wakeEvent_does rfl hl h)
  · refine Does.thenVia (n := [.cnt, .host, .pwr, .err, .out]) emit_does rfl hl ?_
    exact h.trans ((Does.set_pwr rfl _ Does.refl : Does [.pwr] t _).mono (List.all_eq_true.mpr (fun b hb => has_of_sub hl (mem_of_sub (a := [.pwr]) (b := [.cnt, .host, .pwr, .err, .out]) rfl hb))))
  · exact h

end Sys2Proof.Laws
end

