-- ==== Sys2Proof/Laws/Link.lean ====
section
/-! SUPPORT. Sys2Proof/Laws/Link.lean: what each operation and meaning of Machine/Link.lean can do, as `Does` says it: which blocks of
the state it may change, that it keeps the invariant, and that it lowers nothing that only rises. -/

namespace Sys2Proof.Laws

open Sys2Proof.Machine Sys2Proof.Safety

theorem updPort_does {a0 a1} {s} :
    Does [.spar] s (updPort a0 a1 s) := by
  refine Does.also (t := s) Does.refl (fun h0 => ?_)
  unfold updPort
  extract_lets +onlyGivenNames y0
  refine Does.set_spar rfl _ ?_
  assumption

theorem portSend_does {a0 a1} {s} :
    Does [.spar, .out] s (portSend a0 a1 s) := by
  refine Does.also (t := s) Does.refl (fun h0 => ?_)
  unfold portSend
  extract_lets +onlyGivenNames y0
  refine Does.then emit_does rfl ?_
  refine Does.then updPort_does rfl ?_
  assumption

theorem routeFlit_does {a0} {s} :
    Does [.spar, .out] s (routeFlit a0 s) := by
  refine Does.also (t := s) Does.refl (fun h0 => ?_)
  unfold routeFlit
  extract_lets +onlyGivenNames y0
  split
  · rename_i x1 x2
    dsimp only [y0]
    refine Does.set_spar rfl _ ?_
    assumption
  · rename_i x3 x4 x5
    refine Does.ite ?_ ?_
    · dsimp only [y0]
      refine Does.set_spar rfl _ ?_
      assumption
    · refine Does.then portSend_does rfl ?_
      assumption

theorem flushWaiting_does {s} :
    Does [.spar, .out] s (flushWaiting s) := by
  refine Does.also (t := s) Does.refl (fun h0 => ?_)
  unfold flushWaiting
  extract_lets +onlyGivenNames y0
  refine forEach_does ?_ (fun a1 z2 hz3 => ?_)
  · refine Does.set_spar rfl _ ?_
    assumption
  · refine Does.then routeFlit_does rfl ?_
    assumption

theorem sendTo_does {a0 a1} {s} :
    Does [.spar, .out] s (sendTo a0 a1 s) := by
  refine Does.also (t := s) Does.refl (fun h0 => ?_)
  unfold sendTo
  extract_lets +onlyGivenNames y0
  refine Does.ite ?_ ?_
  · refine forEach_does ?_ (fun a1 z2 hz3 => ?_)
    · assumption
    · refine Does.then portSend_does rfl ?_
      assumption
  · refine Does.then routeFlit_does rfl ?_
    assumption

theorem toOthers_does {a0} {s} :
    Does [.spar, .out] s (toOthers a0 s) := by
  refine Does.also (t := s) Does.refl (fun h0 => ?_)
  unfold toOthers
  refine Does.ite ?_ ?_
  · refine forEach_does ?_ (fun a0 z1 hz2 => ?_)
    · assumption
    · refine Does.then sendTo_does rfl ?_
      assumption
  · assumption

theorem sendMsg_does {a0 a1} {s} :
    Does [.spar, .out] s (sendMsg a0 a1 s) := by
  refine Does.also (t := s) Does.refl (fun h0 => ?_)
  unfold sendMsg
  extract_lets +onlyGivenNames y0
  extract_lets +onlyGivenNames y1
  refine forEach_does ?_ (fun a2 z3 hz4 => ?_)
  · refine Does.set_spar rfl _ ?_
    assumption
  · refine Does.then routeFlit_does rfl ?_
    assumption

end Sys2Proof.Laws
end

