-- ==== Sys2Proof/Laws/Slate.lean ====
section
/-! SUPPORT. Sys2Proof/Laws/Slate.lean: what each operation and meaning of Machine/Slate.lean can do, as `Does` says it: which blocks of
the state it may change, that it keeps the invariant, and that it lowers nothing that only rises. -/

namespace Sys2Proof.Laws

open Sys2Proof.Machine Sys2Proof.Safety

theorem updSb_does {a0 a1} {s} :
    Does [.slate] s (updSb a0 a1 s) := by
  refine Does.also (t := s) Does.refl (fun h0 => ?_)
  unfold updSb
  extract_lets +onlyGivenNames y0
  refine Does.set_slate rfl _ ?_
  assumption

theorem updPb_does {a0 a1} {s} :
    Does [.slate] s (updPb a0 a1 s) := by
  refine Does.also (t := s) Does.refl (fun h0 => ?_)
  unfold updPb
  extract_lets +onlyGivenNames y0
  refine Does.set_slate rfl _ ?_
  assumption

theorem reachClock_does {a0} {s} :
    Does [.slate] s (reachClock a0 s) := by
  refine Does.also (t := s) Does.refl (fun h0 => ?_)
  unfold reachClock
  extract_lets +onlyGivenNames y0
  refine Does.set_slate rfl _ ?_
  assumption

theorem updStack_does {a0 a1} {s} :
    Does [.slate] s (updStack a0 a1 s) := by
  refine Does.also (t := s) Does.refl (fun h0 => ?_)
  unfold updStack
  extract_lets +onlyGivenNames y0
  refine Does.ite ?_ ?_
  · refine Does.set_slate rfl _ ?_
    assumption
  · refine Does.set_slate rfl _ ?_
    assumption

theorem updSlot_does {a0 a1} {s} :
    Does [.models] s (updSlot a0 a1 s) := by
  refine Does.also (t := s) Does.refl (fun h0 => ?_)
  unfold updSlot
  extract_lets +onlyGivenNames y0
  refine Does.set_models rfl _ ?_
  assumption

theorem slotLoses_does {a0} {s} :
    Does [.models] s (slotLoses a0 s) := by
  refine Does.also (t := s) Does.refl (fun h0 => ?_)
  unfold slotLoses
  refine Does.ite ?_ ?_
  · refine Does.then updSlot_does rfl ?_
    assumption
  · assumption

theorem addJob_does {a0 a1 a2 a3 a4} {s} :
    Does [.maint] s (addJob a0 a1 a2 a3 a4 s) := by
  refine Does.also (t := s) Does.refl (fun h0 => ?_)
  unfold addJob
  extract_lets +onlyGivenNames y0
  extract_lets +onlyGivenNames y1
  refine Does.set_maint rfl _ ?_
  assumption

theorem deviceJob_does {a0 a1} {s} :
    Does [.maint] s (deviceJob a0 a1 s) := by
  refine Does.also (t := s) Does.refl (fun h0 => ?_)
  unfold deviceJob
  refine Does.ite ?_ ?_
  · assumption
  · refine Does.then addJob_does rfl ?_
    assumption

theorem endJobs_does {a0 a1} {s} :
    Does [.maint] s (endJobs a0 a1 s) := by
  refine Does.also (t := s) Does.refl (fun h0 => ?_)
  unfold endJobs
  extract_lets +onlyGivenNames y0
  refine Does.set_maint rfl _ ?_
  assumption

theorem endJob_does {a0 a1 a2} {s} :
    Does [.maint] s (endJob a0 a1 a2 s) := by
  refine Does.also (t := s) Does.refl (fun h0 => ?_)
  unfold endJob
  refine Does.then endJobs_does rfl ?_
  assumption

theorem noBlockLeft_does {a0 a1 a2 a3} {s} :
    Does [.cnt, .host, .err, .out] s (noBlockLeft a0 a1 a2 a3 s) := by
  refine Does.also (t := s) Does.refl (fun h0 => ?_)
  unfold noBlockLeft
  refine Does.then record_does rfl ?_
  assumption

theorem queueReloc_does {a0 a1 a2 a3 a4 a5 a6} {s} :
    Does [.cnt, .host, .err, .slate, .maint, .out] s (queueReloc a0 a1 a2 a3 a4 a5 a6 s) := by
  refine Does.also (t := s) Does.refl (fun h0 => ?_)
  unfold queueReloc
  extract_lets +onlyGivenNames y0
  extract_lets +onlyGivenNames y1
  extract_lets +onlyGivenNames y2
  extract_lets +onlyGivenNames y3
  extract_lets +onlyGivenNames y4
  refine Does.also (t := y4) ?_ (fun hy4 => ?_)
  · subst y4
    refine Does.set_slate rfl _ ?_
    assumption
  clear_value y4
  revert y4
  refine Does.intro ?_
  intro y4 hy4
  refine Does.ite ?_ ?_
  · assumption
  · refine Does.ite ?_ ?_
    · refine Does.set_slate rfl _ ?_
      assumption
    · refine Does.then deviceJob_does rfl ?_
      refine forEach_does ?_ (fun a5 z6 hz7 => ?_)
      · assumption
      · refine Does.then noBlockLeft_does rfl ?_
        assumption

theorem dropRelocs_does {a0} {s} :
    Does [.slate] s (dropRelocs a0 s) := by
  refine Does.also (t := s) Does.refl (fun h0 => ?_)
  unfold dropRelocs
  extract_lets +onlyGivenNames y0
  refine Does.set_slate rfl _ ?_
  assumption

theorem subbankLoses_does {a0 a1 a2} {s} :
    Does [.models] s (subbankLoses a0 a1 a2 s) := by
  refine Does.also (t := s) Does.refl (fun h0 => ?_)
  unfold subbankLoses
  refine forEach_does ?_ (fun a0 z1 hz2 => ?_)
  · assumption
  · refine Does.then slotLoses_does rfl ?_
    assumption

theorem failSubbank_does {a0 a1 a2 a3 a4} {s} :
    Does [.cnt, .host, .err, .slate, .models, .out] s (failSubbank a0 a1 a2 a3 a4 s) := by
  refine Does.also (t := s) Does.refl (fun h0 => ?_)
  unfold failSubbank
  extract_lets +onlyGivenNames y0
  refine Does.also (t := y0) ?_ (fun hy0 => ?_)
  · subst y0
    refine Does.then subbankLoses_does rfl ?_
    refine Does.then updSb_does rfl ?_
    assumption
  clear_value y0
  revert y0
  refine Does.intro ?_
  intro y0 hy0
  extract_lets +onlyGivenNames y1
  refine Does.also (t := y1) ?_ (fun hy1 => ?_)
  · subst y1
    refine Does.then dropRelocs_does rfl ?_
    assumption
  clear_value y1
  revert y1
  refine Does.intro ?_
  intro y1 hy1
  extract_lets +onlyGivenNames y2
  extract_lets +onlyGivenNames y3
  refine Does.also (t := y3) ?_ (fun hy3 => ?_)
  · subst y3
    refine Does.set_slate rfl _ ?_
    assumption
  clear_value y3
  revert y3
  refine Does.intro ?_
  intro y3 hy3
  refine Does.then record_does rfl ?_
  assumption

theorem abortRepair_does {a0 a1 a2 a3} {s} :
    Does [.cnt, .host, .err, .slate, .models, .out] s (abortRepair a0 a1 a2 a3 s) := by
  refine Does.also (t := s) Does.refl (fun h0 => ?_)
  unfold abortRepair
  refine Does.ite ?_ ?_
  · refine Does.then count_does rfl ?_
    refine Does.then failSubbank_does rfl ?_
    assumption
  · assumption

theorem loseLine_does {a0 a1 a2 a3 a4 a5} {s} :
    Does [.cnt, .host, .err, .slate, .models, .out] s (loseLine a0 a1 a2 a3 a4 a5 s) := by
  refine Does.also (t := s) Does.refl (fun h0 => ?_)
  unfold loseLine
  extract_lets +onlyGivenNames y0
  extract_lets +onlyGivenNames y1
  extract_lets +onlyGivenNames y2
  refine Does.also (t := y2) ?_ (fun hy2 => ?_)
  · subst y2
    refine Does.then count_does rfl ?_
    assumption
  clear_value y2
  revert y2
  refine Does.intro ?_
  intro y2 hy2
  extract_lets +onlyGivenNames y3
  extract_lets +onlyGivenNames y4
  refine Does.also (t := y4) ?_ (fun hy4 => ?_)
  · subst y4
    refine Does.then record_does rfl ?_
    assumption
  clear_value y4
  revert y4
  refine Does.intro ?_
  intro y4 hy4
  extract_lets +onlyGivenNames y5
  refine Does.also (t := y5) ?_ (fun hy5 => ?_)
  · subst y5
    refine Does.ite ?_ ?_
    · refine Does.then updSb_does rfl ?_
      assumption
    · refine Does.then failSubbank_does rfl ?_
      assumption
  clear_value y5
  revert y5
  refine Does.intro ?_
  intro y5 hy5
  extract_lets +onlyGivenNames y6
  refine Does.also (t := y6) ?_ (fun hy6 => ?_)
  · subst y6
    refine Does.then slotLoses_does rfl ?_
    assumption
  clear_value y6
  revert y6
  refine Does.intro ?_
  intro y6 hy6
  refine Does.ite ?_ ?_
  · assumption
  · refine Does.ite ?_ ?_
    · assumption
    · refine Does.then abortRepair_does rfl ?_
      assumption

theorem programBlock_does {a0 a1 a2} {s} :
    Does [.slate] s (programBlock a0 a1 a2 s) := by
  refine Does.also (t := s) Does.refl (fun h0 => ?_)
  unfold programBlock
  extract_lets +onlyGivenNames y0
  refine Does.set_slate rfl _ ?_
  assumption

theorem retireBlock_does {a0 a1 a2 a3 a4} {s} :
    Does [.cnt, .host, .err, .slate, .out] s (retireBlock a0 a1 a2 a3 a4 s) := by
  refine Does.also (t := s) Does.refl (fun h0 => ?_)
  unfold retireBlock
  extract_lets +onlyGivenNames y0
  refine Does.also (t := y0) ?_ (fun hy0 => ?_)
  · subst y0
    refine Does.then updSb_does rfl ?_
    assumption
  clear_value y0
  revert y0
  refine Does.intro ?_
  intro y0 hy0
  refine Does.then record_does rfl ?_
  refine Does.then count_does rfl ?_
  assumption

theorem retryTargets_does {s} :
    Does [.slate] s (retryTargets s) := by
  refine Does.also (t := s) Does.refl (fun h0 => ?_)
  unfold retryTargets
  refine forEach_does ?_ (fun a1 z2 hz3 => ?_)
  · assumption
  · extract_lets +onlyGivenNames y4
    extract_lets +onlyGivenNames y5
    refine Does.set_slate rfl _ ?_
    assumption

theorem clearMaps_does {a0} {s} :
    Does [.slate] s (clearMaps a0 s) := by
  refine Does.also (t := s) Does.refl (fun h0 => ?_)
  unfold clearMaps
  extract_lets +onlyGivenNames y0
  refine Does.set_slate rfl _ ?_
  assumption

theorem askCkpt_does {a0 a1 a2 a3 a4} {s} :
    Does [.slate, .maint] s (askCkpt a0 a1 a2 a3 a4 s) := by
  refine Does.also (t := s) Does.refl (fun h0 => ?_)
  unfold askCkpt
  extract_lets +onlyGivenNames y0
  refine Does.also (t := y0) ?_ (fun hy0 => ?_)
  · subst y0
    refine Does.ite ?_ ?_
    · refine Does.then clearMaps_does rfl ?_
      assumption
    · assumption
  clear_value y0
  revert y0
  refine Does.intro ?_
  intro y0 hy0
  extract_lets +onlyGivenNames y1
  split
  · rename_i x3 x4 x5
    extract_lets +onlyGivenNames y6
    refine Does.then updStack_does rfl ?_
    assumption
  · rename_i x7 x8
    refine Does.then deviceJob_does rfl ?_
    refine Does.then updStack_does rfl ?_
    assumption

theorem startCkpt_does {a0 a1 a2 a3} {s} :
    Does [.slate, .maint] s (startCkpt a0 a1 a2 a3 s) := by
  refine Does.also (t := s) Does.refl (fun h0 => ?_)
  unfold startCkpt
  refine Does.then askCkpt_does rfl ?_
  assumption

theorem noteBlocked_does {a0} {s} :
    Does [.cnt, .host, .err, .slate, .out] s (noteBlocked a0 s) := by
  refine Does.also (t := s) Does.refl (fun h0 => ?_)
  unfold noteBlocked
  extract_lets +onlyGivenNames y0
  refine Does.ite ?_ ?_
  · assumption
  · refine Does.then record_does rfl ?_
    refine Does.then count_does rfl ?_
    refine Does.set_slate rfl _ ?_
    assumption

theorem noteAllBlocked_does {s} :
    Does [.cnt, .host, .err, .slate, .out] s (noteAllBlocked s) := by
  refine Does.also (t := s) Does.refl (fun h0 => ?_)
  unfold noteAllBlocked
  refine forEach_does ?_ (fun a0 z1 hz2 => ?_)
  · assumption
  · refine Does.then noteBlocked_does rfl ?_
    assumption

theorem countReads_does {a0 a1 a2 a3} {s} :
    Does [.cnt, .host, .err, .slate, .out] s (countReads a0 a1 a2 a3 s) := by
  refine Does.also (t := s) Does.refl (fun h0 => ?_)
  unfold countReads
  extract_lets +onlyGivenNames y0
  extract_lets +onlyGivenNames y1
  refine Does.then noteBlocked_does rfl ?_
  refine Does.set_slate rfl _ ?_
  assumption

theorem countGroup_does {a0 a1 a2} {s} :
    Does [.cnt, .host, .err, .slate, .out] s (countGroup a0 a1 a2 s) := by
  refine Does.also (t := s) Does.refl (fun h0 => ?_)
  unfold countGroup
  extract_lets +onlyGivenNames y0
  extract_lets +onlyGivenNames y1
  refine Does.ite ?_ ?_
  · assumption
  · refine Does.then countReads_does rfl ?_
    refine Does.set_slate rfl _ ?_
    assumption

theorem parityFix_does {a0 a1 a2 a3} {s} :
    Does [.cnt, .host, .err, .out] s (parityFix a0 a1 a2 a3 s) := by
  refine Does.also (t := s) Does.refl (fun h0 => ?_)
  unfold parityFix
  refine Does.then record_does rfl ?_
  refine Does.then count_does rfl ?_
  assumption

theorem lineLost_does {a0 a1 a2 a3 a4 a5} {s} :
    Does [.cnt, .host, .err, .slate, .models, .out] s (lineLost a0 a1 a2 a3 a4 a5 s) := by
  refine Does.also (t := s) Does.refl (fun h0 => ?_)
  unfold lineLost
  refine Does.then loseLine_does rfl ?_
  assumption

theorem reconstructed_does {a0 a1 a2 a3 a4 a5 a6} {s} :
    Does [.cnt, .host, .err, .slate, .out] s (reconstructed a0 a1 a2 a3 a4 a5 a6 s) := by
  refine Does.also (t := s) Does.refl (fun h0 => ?_)
  unfold reconstructed
  extract_lets +onlyGivenNames y0
  extract_lets +onlyGivenNames y1
  refine Does.also (t := y1) ?_ (fun hy1 => ?_)
  · subst y1
    split
    · rename_i x2 x3 x4
      refine Does.set_slate rfl _ ?_
      assumption
    · rename_i x5 x6
      assumption
  clear_value y1
  revert y1
  refine Does.intro ?_
  intro y1 hy1
  refine Does.then record_does rfl ?_
  refine Does.then count_does rfl ?_
  assumption

theorem reconFails_does {a0 a1 a2 a3 a4 a5 a6} {s} :
    Does [.cnt, .host, .err, .slate, .models, .out] s (reconFails a0 a1 a2 a3 a4 a5 a6 s) := by
  refine Does.also (t := s) Does.refl (fun h0 => ?_)
  unfold reconFails
  extract_lets +onlyGivenNames y0
  refine Does.then lineLost_does rfl ?_
  refine forEach_does ?_ (fun a1 z2 hz3 => ?_)
  · assumption
  · refine Does.ite ?_ ?_
    · refine Does.then parityFix_does rfl ?_
      assumption
    · refine Does.then lineLost_does rfl ?_
      assumption

theorem endRecon_does {a0 a1 a2 a3 a4 a5 a6 a7} {s} :
    Does [.cnt, .host, .err, .slate, .models, .out] s (endRecon a0 a1 a2 a3 a4 a5 a6 a7 s) := by
  refine Does.also (t := s) Does.refl (fun h0 => ?_)
  unfold endRecon
  split
  · rename_i x0 x1 x2
    refine Does.then reconstructed_does rfl ?_
    assumption
  · rename_i x3 x4
    refine Does.then reconFails_does rfl ?_
    assumption

theorem touchLine_does {a0 a1 a2 a3 a4} {s} :
    Does [.cnt, .host, .err, .slate, .models, .out] s (touchLine a0 a1 a2 a3 a4 s) := by
  refine Does.also (t := s) Does.refl (fun h0 => ?_)
  unfold touchLine
  extract_lets +onlyGivenNames y0
  extract_lets +onlyGivenNames y1
  refine Does.also (t := y1) ?_ (fun hy1 => ?_)
  · subst y1
    refine Does.then countReads_does rfl ?_
    assumption
  clear_value y1
  revert y1
  refine Does.intro ?_
  intro y1 hy1
  refine Does.ite ?_ ?_
  · assumption
  · refine Does.ite ?_ ?_
    · assumption
    · refine Does.ite ?_ ?_
      · refine Does.then parityFix_does rfl ?_
        assumption
      · refine Does.ite ?_ ?_
        · refine Does.then lineLost_does rfl ?_
          assumption
        · refine Does.then endRecon_does rfl ?_
          assumption

theorem mountStack_does {a0} {s} :
    Does [.cnt, .host, .err, .slate, .out] s (mountStack a0 s) := by
  refine Does.also (t := s) Does.refl (fun h0 => ?_)
  unfold mountStack
  extract_lets +onlyGivenNames y0
  extract_lets +onlyGivenNames y1
  extract_lets +onlyGivenNames y2
  refine Does.also (t := y2) ?_ (fun hy2 => ?_)
  · subst y2
    refine Does.then updStack_does rfl ?_
    assumption
  clear_value y2
  revert y2
  refine Does.intro ?_
  intro y2 hy2
  extract_lets +onlyGivenNames y3
  refine Does.also (t := y3) ?_ (fun hy3 => ?_)
  · subst y3
    refine Does.then updStack_does rfl ?_
    assumption
  clear_value y3
  revert y3
  refine Does.intro ?_
  intro y3 hy3
  extract_lets +onlyGivenNames y4
  extract_lets +onlyGivenNames y5
  refine Does.ite ?_ ?_
  · refine Does.then record_does rfl ?_
    assumption
  · split
    · rename_i x8 x9
      refine Does.then record_does rfl ?_
      assumption
    · rename_i x10 x11 x12
      extract_lets +onlyGivenNames y13
      extract_lets +onlyGivenNames y14
      extract_lets +onlyGivenNames y15
      extract_lets +onlyGivenNames y16
      extract_lets +onlyGivenNames y17
      extract_lets +onlyGivenNames y18
      extract_lets +onlyGivenNames y19
      extract_lets +onlyGivenNames y20
      refine Does.also (t := y20) ?_ (fun hy20 => ?_)
      · subst y20
        refine Does.set_slate rfl _ ?_
        assumption
      clear_value y20
      revert y20
      refine Does.intro ?_
      intro y20 hy20
      extract_lets +onlyGivenNames y21
      extract_lets +onlyGivenNames y22
      refine Does.then noteAllBlocked_does rfl ?_
      refine Does.then updStack_does rfl ?_
      assumption

end Sys2Proof.Laws
end

