-- ==== Sys2Proof/Laws/Dva.lean ====
section
/-! SUPPORT. Sys2Proof/Laws/Dva.lean: what each operation and meaning of Machine/Dva.lean can do, as `Does` says it: which blocks of
the state it may change, that it keeps the invariant, and that it lowers nothing that only rises. -/

namespace Sys2Proof.Laws

open Sys2Proof.Machine Sys2Proof.Safety

theorem undefine_does {a0 a1} {s} :
    Does [.ramUndef, .free] s (undefine a0 a1 s) := by
  refine Does.also (t := s) Does.refl (fun h0 => ?_)
  unfold undefine
  refine Does.ite ?_ ?_
  · assumption
  · refine Does.set_ramUndef_free rfl _ _ ?_
    assumption

theorem touchLines_does {a0} {s} :
    Does [.cnt, .host, .err, .slate, .models, .out] s (touchLines a0 s) := by
  refine Does.also (t := s) Does.refl (fun h0 => ?_)
  unfold touchLines
  refine forEach_does ?_ (fun a1 z2 hz3 => ?_)
  · assumption
  · extract_lets +onlyGivenNames y4
    refine Does.then touchLine_does rfl ?_
    assumption

theorem namePoison_does {a0} {s} :
    Does [.cnt, .host, .err, .tiers, .out] s (namePoison a0 s) := by
  refine Does.also (t := s) Does.refl (fun h0 => ?_)
  unfold namePoison
  extract_lets +onlyGivenNames y0
  extract_lets +onlyGivenNames y1
  extract_lets +onlyGivenNames y2
  refine Does.ite ?_ ?_
  · assumption
  · refine Does.then record_does rfl ?_
    refine Does.set_tiers rfl _ ?_
    assumption

theorem setPoison_does {a0} {s} :
    Does [.tiers] s (setPoison a0 s) := by
  refine Does.also (t := s) Does.refl (fun h0 => ?_)
  unfold setPoison
  extract_lets +onlyGivenNames y0
  refine Does.set_tiers rfl _ ?_
  assumption

theorem poisonRead_does {a0} {s} :
    Does [.cnt, .host, .err, .tiers, .out] s (poisonRead a0 s) := by
  refine Does.also (t := s) Does.refl (fun h0 => ?_)
  unfold poisonRead
  extract_lets +onlyGivenNames y0
  refine Does.also (t := y0) ?_ (fun hy0 => ?_)
  · subst y0
    refine Does.then namePoison_does rfl ?_
    assumption
  clear_value y0
  revert y0
  refine Does.intro ?_
  intro y0 hy0
  extract_lets +onlyGivenNames y1
  refine Does.also (t := y1) ?_ (fun hy1 => ?_)
  · subst y1
    refine Does.then count_does rfl ?_
    assumption
  clear_value y1
  revert y1
  refine Does.intro ?_
  intro y1 hy1
  extract_lets +onlyGivenNames y2
  split
  · rename_i x3 x4 x5
    refine Does.ite ?_ ?_
    · refine Does.then count_does rfl ?_
      assumption
    · refine Does.ite ?_ ?_
      · refine Does.set_tiers rfl _ ?_
        assumption
      · assumption
  · rename_i x6 x7
    refine Does.then namePoison_does rfl ?_
    assumption

theorem markDirty_does {a0} {s} :
    Does [.tiers] s (markDirty a0 s) := by
  refine Does.also (t := s) Does.refl (fun h0 => ?_)
  unfold markDirty
  extract_lets +onlyGivenNames y0
  refine Does.ite ?_ ?_
  · assumption
  · refine Does.set_tiers rfl _ ?_
    assumption

theorem putByte_does {a0 a1} {s} :
    Does [.ram, .ramUndef, .tiers] s (putByte a0 a1 s) := by
  refine Does.also (t := s) Does.refl (fun h0 => ?_)
  unfold putByte
  split
  · rename_i x0 x1 x2
    refine Does.then markDirty_does rfl ?_
    refine Does.then ramPut_does rfl ?_
    assumption
  · rename_i x3 x4
    assumption

theorem putBytes_does {b : Bytes} : ∀ {a s}, Does [.ram, .ramUndef, .tiers] s (putBytes a b s) := by
  induction b with
  | nil => intro a s; exact Does.refl
  | cons x b ih => intro a s; exact Does.trans (putByte_does.mono rfl) ih

theorem clearPoison_does {a0 a1} {s} :
    Does [.tiers] s (clearPoison a0 a1 s) := by
  refine Does.also (t := s) Does.refl (fun h0 => ?_)
  unfold clearPoison
  extract_lets +onlyGivenNames y0
  refine Does.then setPoison_does rfl ?_
  assumption

theorem setTaint_does {a0 a1 a2} {s} :
    Does [.taint] s (setTaint a0 a1 a2 s) := by
  refine Does.also (t := s) Does.refl (fun h0 => ?_)
  unfold setTaint
  extract_lets +onlyGivenNames y0
  refine Does.ite ?_ ?_
  · assumption
  · refine Does.set_taint rfl _ ?_
    assumption

theorem addTaint_does {a0 a1 a2} {s} :
    Does [.taint] s (addTaint a0 a1 a2 s) := by
  refine Does.also (t := s) Does.refl (fun h0 => ?_)
  unfold addTaint
  refine Does.ite ?_ ?_
  · assumption
  · refine Does.set_taint rfl _ ?_
    assumption

theorem overRam_does {l} {s t} {a n f} (h : Does l s t) (hf : ∀ k m y, Does l s y → Does l s (f k m y)) :
    Does l s (overRam a n f t) := by
  unfold overRam
  refine Does.ite h (forEach_does h (fun p y hy => ?_))
  split
  · exact hf _ _ _ hy
  · exact hy

theorem writeDva_does {a0 a1} {s} :
    Does [.ram, .ramUndef, .taint, .tiers] s (writeDva a0 a1 s) := by
  refine Does.also (t := s) Does.refl (fun h0 => ?_)
  unfold writeDva
  extract_lets +onlyGivenNames y0
  refine Does.also (t := y0) ?_ (fun hy0 => ?_)
  · subst y0
    refine Does.then putBytes_does rfl ?_
    assumption
  clear_value y0
  revert y0
  refine Does.intro ?_
  intro y0 hy0
  extract_lets +onlyGivenNames y1
  refine Does.also (t := y1) ?_ (fun hy1 => ?_)
  · subst y1
    refine Does.ite ?_ ?_
    · assumption
    · refine overRam_does ?_ (fun a2 b3 z4 hz5 => ?_)
      · assumption
      · refine Does.then setTaint_does rfl ?_
        assumption
  clear_value y1
  revert y1
  refine Does.intro ?_
  intro y1 hy1
  refine Does.ite ?_ ?_
  · assumption
  · refine Does.then clearPoison_does rfl ?_
    assumption

theorem askLent_does {a0 a1} {s} :
    Does [.spar, .out] s (askLent a0 a1 s) := by
  refine Does.also (t := s) Does.refl (fun h0 => ?_)
  unfold askLent
  refine forEach_does ?_ (fun a0 z1 hz2 => ?_)
  · assumption
  · refine Does.then sendMsg_does rfl ?_
    assumption

theorem tellLent_does {a0 a1} {s} :
    Does [.spar, .out] s (tellLent a0 a1 s) := by
  refine Does.also (t := s) Does.refl (fun h0 => ?_)
  unfold tellLent
  refine forEach_does ?_ (fun a0 z1 hz2 => ?_)
  · assumption
  · refine Does.then sendMsg_does rfl ?_
    assumption

theorem planWrite_does {a0 a1} {s} :
    Does [.cnt, .ram, .ramUndef, .taint, .tiers, .spar, .out] s (planWrite a0 a1 s) := by
  refine Does.also (t := s) Does.refl (fun h0 => ?_)
  unfold planWrite
  extract_lets +onlyGivenNames y0
  refine Does.also (t := y0) ?_ (fun hy0 => ?_)
  · subst y0
    refine Does.then tellLent_does rfl ?_
    refine Does.then writeDva_does rfl ?_
    assumption
  clear_value y0
  revert y0
  refine Does.intro ?_
  intro y0 hy0
  refine Does.ite ?_ ?_
  · refine Does.then count_does rfl ?_
    assumption
  · assumption

theorem hostRead_does {a0 a1 a2 a3} {s} :
    Does [.cnt, .host, .err, .slate, .tiers, .models, .spar, .out] s (sndSt (hostRead a0 a1 a2 a3 s)) := by
  refine Does.also (t := s) Does.refl (fun h0 => ?_)
  unfold hostRead
  extract_lets +onlyGivenNames y0
  extract_lets +onlyGivenNames y1
  extract_lets +onlyGivenNames y2
  refine Does.also (t := y2) ?_ (fun hy2 => ?_)
  · subst y2
    refine forEach_does ?_ (fun a3 z4 hz5 => ?_)
    · refine Does.then askLent_does rfl ?_
      refine Does.then touchLines_does rfl ?_
      assumption
    · refine Does.then poisonRead_does rfl ?_
      assumption
  clear_value y2
  revert y2
  refine Does.intro ?_
  intro y2 hy2
  extract_lets +onlyGivenNames y6
  refine Does.also (t := y6) ?_ (fun hy6 => ?_)
  · subst y6
    refine Does.ite ?_ ?_
    · refine Does.then hostAccess_does rfl ?_
      refine Does.then count_does rfl ?_
      assumption
    · assumption
  clear_value y6
  revert y6
  refine Does.intro ?_
  intro y6 hy6
  extract_lets +onlyGivenNames y7
  refine Does.also (t := y7) ?_ (fun hy7 => ?_)
  · subst y7
    refine Does.ite ?_ ?_
    · refine Does.then hostAccess_does rfl ?_
      assumption
    · assumption
  clear_value y7
  revert y7
  refine Does.intro ?_
  intro y7 hy7
  refine Does.snd ?_
  assumption

theorem hostWrite_does {a0 a1 a2 a3} {s} :
    Does [.cnt, .ram, .ramUndef, .host, .err, .taint, .tiers, .spar, .out] s (hostWrite a0 a1 a2 a3 s) := by
  refine Does.also (t := s) Does.refl (fun h0 => ?_)
  unfold hostWrite
  extract_lets +onlyGivenNames y0
  extract_lets +onlyGivenNames y1
  refine Does.also (t := y1) ?_ (fun hy1 => ?_)
  · subst y1
    refine Does.then tellLent_does rfl ?_
    refine Does.then writeDva_does rfl ?_
    assumption
  clear_value y1
  revert y1
  refine Does.intro ?_
  intro y1 hy1
  refine Does.ite ?_ ?_
  · refine Does.then hostAccess_does rfl ?_
    refine Does.then count_does rfl ?_
    assumption
  · assumption

theorem planFetch_does {a0 a1 a2} {s} :
    Does [.cnt, .host, .err, .slate, .tiers, .models, .spar, .out] s (sndSt (planFetch a0 a1 a2 s)) := by
  refine Does.also (t := s) Does.refl (fun h0 => ?_)
  unfold planFetch
  extract_lets +onlyGivenNames y0
  extract_lets +onlyGivenNames y1
  extract_lets +onlyGivenNames y2
  refine Does.also (t := y2) ?_ (fun hy2 => ?_)
  · subst y2
    refine forEach_does ?_ (fun a3 z4 hz5 => ?_)
    · refine Does.then askLent_does rfl ?_
      refine Does.then touchLines_does rfl ?_
      assumption
    · refine Does.then poisonRead_does rfl ?_
      assumption
  clear_value y2
  revert y2
  refine Does.intro ?_
  intro y2 hy2
  extract_lets +onlyGivenNames y6
  refine Does.also (t := y6) ?_ (fun hy6 => ?_)
  · subst y6
    refine Does.ite ?_ ?_
    · refine Does.then count_does rfl ?_
      assumption
    · assumption
  clear_value y6
  revert y6
  refine Does.intro ?_
  intro y6 hy6
  extract_lets +onlyGivenNames y7
  refine Does.also (t := y7) ?_ (fun hy7 => ?_)
  · subst y7
    split
    · rename_i x8 x9 x10
      refine Does.ite ?_ ?_
      · refine Does.then count_does rfl ?_
        assumption
      · assumption
    · rename_i x11 x12
      assumption
  clear_value y7
  revert y7
  refine Does.intro ?_
  intro y7 hy7
  extract_lets +onlyGivenNames y13
  refine Does.ite2 ?_ ?_
  · refine Does.snd ?_
    assumption
  · refine Does.snd ?_
    assumption

theorem addLend_does {a0 a1 a2} {s} :
    Does [.tiers] s (addLend a0 a1 a2 s) := by
  refine Does.also (t := s) Does.refl (fun h0 => ?_)
  unfold addLend
  extract_lets +onlyGivenNames y0
  refine Does.ite ?_ ?_
  · assumption
  · refine Does.set_tiers rfl _ ?_
    assumption

theorem freePages_does {a0} {s} :
    Does [.tiers] s (freePages a0 s) := by
  refine Does.also (t := s) Does.refl (fun h0 => ?_)
  unfold freePages
  extract_lets +onlyGivenNames y0
  refine Does.set_tiers rfl _ ?_
  assumption

end Sys2Proof.Laws
end

