-- ==== Sys2Proof/Laws/Mailbox.lean ====
section
/-! SUPPORT. Sys2Proof/Laws/Mailbox.lean: what each operation and meaning of Machine/Mailbox.lean can do, as `Does` says it: which blocks of
the state it may change, that it keeps the invariant, and that it lowers nothing that only rises. -/

namespace Sys2Proof.Laws

open Sys2Proof.Machine Sys2Proof.Safety

theorem updPair_does {a0 a1} {s} :
    Does [.mbx] s (updPair a0 a1 s) := by
  refine Does.also (t := s) Does.refl (fun h0 => ?_)
  unfold updPair
  extract_lets +onlyGivenNames y0
  refine Does.set_mbx rfl _ ?_
  assumption

theorem pairIrq_does {a0} {s} :
    Does [.mbx, .host, .out] s (pairIrq a0 s) := by
  refine Does.also (t := s) Does.refl (fun h0 => ?_)
  unfold pairIrq
  extract_lets +onlyGivenNames y0
  refine Does.ite ?_ ?_
  · refine Does.then raiseVector_does rfl ?_
    refine Does.then updPair_does rfl ?_
    assumption
  · assumption

theorem postCq_does {a0 a1 a2 a3 a4 a5} {s} :
    Does [.ram, .ramUndef, .mbx, .host, .taint, .tiers, .out] s (postCq a0 a1 a2 a3 a4 a5 s) := by
  refine Does.also (t := s) Does.refl (fun h0 => ?_)
  unfold postCq
  extract_lets +onlyGivenNames y0
  extract_lets +onlyGivenNames y1
  extract_lets +onlyGivenNames y2
  extract_lets +onlyGivenNames y3
  extract_lets +onlyGivenNames y4
  refine Does.also (t := y4) ?_ (fun hy4 => ?_)
  · subst y4
    refine Does.ite ?_ ?_
    · refine Does.then writeDva_does rfl ?_
      assumption
    · refine Does.then emit_does rfl ?_
      assumption
  clear_value y4
  revert y4
  refine Does.intro ?_
  intro y4 hy4
  extract_lets +onlyGivenNames y5
  refine Does.ite ?_ ?_
  · assumption
  · refine Does.ite ?_ ?_
    · refine Does.then updPair_does rfl ?_
      assumption
    · refine Does.then pairIrq_does rfl ?_
      refine Does.then updPair_does rfl ?_
      assumption

theorem dropCmd_does {a0} {s} :
    Does [.mbx] s (dropCmd a0 s) := by
  refine Does.also (t := s) Does.refl (fun h0 => ?_)
  unfold dropCmd
  extract_lets +onlyGivenNames y0
  refine Does.set_mbx rfl _ ?_
  assumption

theorem postFor_does {a0 a1 a2 a3} {s} :
    Does [.ram, .ramUndef, .mbx, .host, .taint, .tiers, .spar, .out] s (postFor a0 a1 a2 a3 s) := by
  refine Does.also (t := s) Does.refl (fun h0 => ?_)
  unfold postFor
  split
  · rename_i x0 x1 x2
    refine Does.ite ?_ ?_
    · assumption
    · refine Does.then postCq_does rfl ?_
      assumption
  · rename_i x3 x4 x5
    refine Does.then sendTo_does rfl ?_
    assumption

theorem flushReserved_does {s} :
    Does [.ram, .ramUndef, .mbx, .host, .taint, .tiers, .spar, .out] s (flushReserved s) := by
  refine Does.also (t := s) Does.refl (fun h0 => ?_)
  unfold flushReserved
  refine forEach_does ?_ (fun a0 z1 hz2 => ?_)
  · assumption
  · split
    · rename_i x3 x4 x5
      refine Does.ite ?_ ?_
      · refine Does.then postFor_does rfl ?_
        refine Does.then dropCmd_does rfl ?_
        assumption
      · assumption
    · rename_i x6 x7
      assumption

theorem finishWith_does {a0 a1 a2 a3} {s} :
    Does [.ram, .ramUndef, .mbx, .host, .taint, .tiers, .spar, .out] s (finishWith a0 a1 a2 a3 s) := by
  refine Does.also (t := s) Does.refl (fun h0 => ?_)
  unfold finishWith
  split
  · rename_i x0 x1 x2
    refine Does.then flushReserved_does rfl ?_
    refine Does.then postFor_does rfl ?_
    refine Does.then dropCmd_does rfl ?_
    assumption
  · rename_i x3 x4
    assumption

theorem finish_does {a0 a1 a2} {s} :
    Does [.ram, .ramUndef, .mbx, .host, .taint, .tiers, .spar, .out] s (finish a0 a1 a2 s) := by
  refine Does.also (t := s) Does.refl (fun h0 => ?_)
  unfold finish
  refine Does.then finishWith_does rfl ?_
  assumption

theorem finishOpt_does {a0 a1 a2} {s} :
    Does [.ram, .ramUndef, .mbx, .host, .taint, .tiers, .spar, .out] s (finishOpt a0 a1 a2 s) := by
  refine Does.also (t := s) Does.refl (fun h0 => ?_)
  unfold finishOpt
  split
  · rename_i x0 x1
    refine Does.then finish_does rfl ?_
    assumption
  · rename_i x2
    assumption

theorem setRunning_does {a0} {s} :
    Does [.mbx] s (setRunning a0 s) := by
  refine Does.also (t := s) Does.refl (fun h0 => ?_)
  unfold setRunning
  extract_lets +onlyGivenNames y0
  refine Does.set_mbx rfl _ ?_
  assumption

theorem putOut_does {a0 a1 a2 a3} {s} :
    Does [.ram, .ramUndef, .taint, .tiers, .spar, .out] s (putOut a0 a1 a2 a3 s) := by
  refine Does.also (t := s) Does.refl (fun h0 => ?_)
  unfold putOut
  refine Does.ite ?_ ?_
  · assumption
  · split
    · rename_i x0 x1 x2
      refine Does.ite ?_ ?_
      · refine Does.then writeDva_does rfl ?_
        assumption
      · refine Does.then emit_does rfl ?_
        assumption
    · rename_i x3 x4 x5
      refine Does.then sendTo_does rfl ?_
      assumption

theorem putPay_does {a0 a1} {s} :
    Does [.ram, .ramUndef, .taint, .tiers, .spar, .out] s (putPay a0 a1 s) := by
  refine Does.also (t := s) Does.refl (fun h0 => ?_)
  unfold putPay
  refine Does.then putOut_does rfl ?_
  assumption

theorem carryOut_does {l} {s t} {c body} (hl : sub [.ram, .ramUndef, .mbx, .host, .taint, .tiers, .spar, .out] l = true) (h : Does l s t)
    (hk : ∀ c y, Does l s y → Does l s (replySt (body c y))) : Does l s (carryOut c body t) := by
  unfold carryOut
  refine Does.ite (Does.thenVia finish_does rfl hl h) ?_
  have hb := hk c t h
  cases hr : body c t with
  | done st res u => rw [hr] at hb; exact Does.thenVia (n := [.ram, .ramUndef, .mbx, .host, .taint, .tiers, .spar, .out]) finish_does rfl hl hb
  | running u => rw [hr] at hb; exact Does.thenVia (n := [.ram, .ramUndef, .mbx, .host, .taint, .tiers, .spar, .out]) setRunning_does rfl hl hb

theorem forward_does {a0 a1 a2} {s} :
    Does [.mbx, .spar, .out] s (forward a0 a1 a2 s) := by
  refine Does.also (t := s) Does.refl (fun h0 => ?_)
  unfold forward
  extract_lets +onlyGivenNames y0
  extract_lets +onlyGivenNames y1
  refine Does.also (t := y1) ?_ (fun hy1 => ?_)
  · subst y1
    refine Does.then sendTo_does rfl ?_
    assumption
  clear_value y1
  revert y1
  refine Does.intro ?_
  intro y1 hy1
  extract_lets +onlyGivenNames y2
  refine Does.set_mbx rfl _ ?_
  assumption

theorem refused_does {l s r} (hl : sub [.cnt] l = true) (h : Does l s (replySt r)) : Does l s (replySt (refused r)) := by
  unfold refused
  split
  · exact Does.thenVia (m := [.cnt]) (n := [.cnt]) count_does rfl hl h
  · exact Does.thenVia (m := [.cnt]) (n := [.cnt]) count_does rfl hl h
  · exact h

theorem iarik_does {l} {s t} {op r pay body} (hl : sub [.ram, .ramUndef, .mbx, .host, .taint, .tiers, .spar, .out] l = true) (h : Does l s t)
    (hk : ∀ c y, Does l s y → Does l s (replySt (body c y))) : Does l s (iarik op r pay body t) := by
  unfold iarik
  split
  · exact h
  · refine Does.ite (Does.thenVia finish_does rfl hl h) ?_
    split
    · exact Does.thenVia finish_does rfl hl h
    · split
      · split
        · exact Does.thenVia finish_does rfl hl h
        · exact Does.ite (Does.thenVia finish_does rfl hl h) (Does.thenVia (n := [.ram, .ramUndef, .mbx, .host, .taint, .tiers, .spar, .out]) forward_does rfl hl h)
      · exact carryOut_does hl h hk

theorem iarikIf_does {l} {s t} {op r sel body} (hl : sub [.ram, .ramUndef, .mbx, .host, .taint, .tiers, .spar, .out] l = true) (h : Does l s t)
    (hk : ∀ c y, Does l s y → Does l s (replySt (body c y))) : Does l s (iarikIf op r sel body t) := by
  unfold iarikIf
  split
  · exact Does.ite (iarik_does hl h hk) h
  · exact h

theorem acceptEntry_does {a0 a1} {s} :
    Does [.ram, .ramUndef, .mbx, .host, .taint, .tiers, .spar, .out] s (acceptEntry a0 a1 s) := by
  refine Does.also (t := s) Does.refl (fun h0 => ?_)
  unfold acceptEntry
  extract_lets +onlyGivenNames y0
  extract_lets +onlyGivenNames y1
  extract_lets +onlyGivenNames y2
  extract_lets +onlyGivenNames y3
  refine Does.also (t := y3) ?_ (fun hy3 => ?_)
  · subst y3
    refine Does.set_mbx rfl _ ?_
    assumption
  clear_value y3
  revert y3
  refine Does.intro ?_
  intro y3 hy3
  extract_lets +onlyGivenNames y4
  refine Does.also (t := y4) ?_ (fun hy4 => ?_)
  · subst y4
    refine Does.then updPair_does rfl ?_
    assumption
  clear_value y4
  revert y4
  refine Does.intro ?_
  intro y4 hy4
  extract_lets +onlyGivenNames y5
  extract_lets +onlyGivenNames y6
  refine Does.also (t := y6) ?_ (fun hy6 => ?_)
  · subst y6
    refine Does.then updPair_does rfl ?_
    assumption
  clear_value y6
  revert y6
  refine Does.intro ?_
  intro y6 hy6
  extract_lets +onlyGivenNames y7
  refine Does.ite ?_ ?_
  · refine Does.then postCq_does rfl ?_
    assumption
  · refine Does.then flushReserved_does rfl ?_
    refine Does.set_mbx rfl _ ?_
    assumption

theorem fetchFrom_does {a0 a1} {s} :
    Does [.ram, .ramUndef, .mbx, .host, .taint, .tiers, .spar, .out] s (fetchFrom a0 a1 s) := by
  refine Does.also (t := s) Does.refl (fun h0 => ?_)
  unfold fetchFrom
  extract_lets +onlyGivenNames y0
  split
  · rename_i x1 x2 x3
    refine Does.then acceptEntry_does rfl ?_
    assumption
  · rename_i x4 x5
    refine Does.then updPair_does rfl ?_
    refine Does.set_mbx rfl _ ?_
    assumption

theorem execCommandFetch_does {a0} {s} {t} (h : (execCommandFetch a0 s) = .next t) :
    Does [.ram, .ramUndef, .mbx, .host, .taint, .tiers, .spar, .out] s t := by
  refine Does.also (t := s) Does.refl (fun h0 => ?_)
  unfold execCommandFetch at h
  obtain rfl := Host.Outcome.next.inj h
  clear h
  split
  · rename_i x0 x1 x2
    refine Does.then fetchFrom_does rfl ?_
    assumption
  · rename_i x3 x4
    assumption

theorem execSqFetchRetry_does {a0 a1} {s} {t} (h : (execSqFetchRetry a0 a1 s) = .next t) :
    Does [.ram, .ramUndef, .mbx, .host, .taint, .tiers, .spar, .out] s t := by
  refine Does.also (t := s) Does.refl (fun h0 => ?_)
  unfold execSqFetchRetry at h
  obtain rfl := Host.Outcome.next.inj h
  clear h
  refine Does.ite ?_ ?_
  · refine Does.then fetchFrom_does rfl ?_
    assumption
  · assumption

theorem sqTailWrite_does {a0 a1} {s} :
    Does [.cnt, .mbx, .host, .err, .out] s (sqTailWrite a0 a1 s) := by
  refine Does.also (t := s) Does.refl (fun h0 => ?_)
  unfold sqTailWrite
  refine Does.ite ?_ ?_
  · assumption
  · refine Does.ite ?_ ?_
    · refine Does.then hostAccess_does rfl ?_
      assumption
    · refine Does.ite ?_ ?_
      · refine Does.then hostAccess_does rfl ?_
        refine Does.then updPair_does rfl ?_
        assumption
      · refine Does.then updPair_does rfl ?_
        assumption

theorem execSqTailDoorbell_does {a0 a1} {s} {t} (h : (execSqTailDoorbell a0 a1 s) = .next t) :
    Does [.cnt, .mbx, .host, .pwr, .err, .out] s t := by
  refine Does.also (t := s) Does.refl (fun h0 => ?_)
  unfold execSqTailDoorbell at h
  obtain rfl := Host.Outcome.next.inj h
  clear h
  refine busAccess_does rfl ?_ (fun z0 hz1 => ?_)
  · assumption
  · refine Does.then sqTailWrite_does rfl ?_
    assumption

theorem cqHeadWrite_does {a0 a1} {s} :
    Does [.cnt, .mbx, .host, .err, .out] s (cqHeadWrite a0 a1 s) := by
  refine Does.also (t := s) Does.refl (fun h0 => ?_)
  unfold cqHeadWrite
  refine Does.ite ?_ ?_
  · assumption
  · refine Does.ite ?_ ?_
    · refine Does.then hostAccess_does rfl ?_
      assumption
    · refine Does.ite ?_ ?_
      · refine Does.then hostAccess_does rfl ?_
        refine Does.then updPair_does rfl ?_
        assumption
      · refine Does.then updPair_does rfl ?_
        assumption

theorem execCqHeadDoorbell_does {a0 a1} {s} {t} (h : (execCqHeadDoorbell a0 a1 s) = .next t) :
    Does [.cnt, .mbx, .host, .pwr, .err, .out] s t := by
  refine Does.also (t := s) Does.refl (fun h0 => ?_)
  unfold execCqHeadDoorbell at h
  obtain rfl := Host.Outcome.next.inj h
  clear h
  refine busAccess_does rfl ?_ (fun z0 hz1 => ?_)
  · assumption
  · refine Does.then cqHeadWrite_does rfl ?_
    assumption

theorem qpEnableWrite_does {a0 a1} {s} :
    Does [.cnt, .mbx, .host, .err, .out] s (qpEnableWrite a0 a1 s) := by
  refine Does.also (t := s) Does.refl (fun h0 => ?_)
  unfold qpEnableWrite
  extract_lets +onlyGivenNames y0
  refine Does.ite ?_ ?_
  · assumption
  · refine Does.ite ?_ ?_
    · refine Does.then hostAccess_does rfl ?_
      assumption
    · refine Does.ite ?_ ?_
      · refine Does.then updPair_does rfl ?_
        assumption
      · refine Does.then updPair_does rfl ?_
        assumption

theorem execQpEnable_does {a0 a1} {s} {t} (h : (execQpEnable a0 a1 s) = .next t) :
    Does [.cnt, .mbx, .host, .pwr, .err, .out] s t := by
  refine Does.also (t := s) Does.refl (fun h0 => ?_)
  unfold execQpEnable at h
  obtain rfl := Host.Outcome.next.inj h
  clear h
  refine busAccess_does rfl ?_ (fun z0 hz1 => ?_)
  · assumption
  · refine Does.then qpEnableWrite_does rfl ?_
    assumption

theorem disablePair_does {a0} {s} :
    Does [.mbx] s (disablePair a0 s) := by
  refine Does.also (t := s) Does.refl (fun h0 => ?_)
  unfold disablePair
  extract_lets +onlyGivenNames y0
  refine Does.also (t := y0) ?_ (fun hy0 => ?_)
  · subst y0
    refine Does.then updPair_does rfl ?_
    assumption
  clear_value y0
  revert y0
  refine Does.intro ?_
  intro y0 hy0
  extract_lets +onlyGivenNames y1
  refine Does.set_mbx rfl _ ?_
  assumption

theorem qpDisableWrite_does {a0 a1} {s} :
    Does [.cnt, .mbx, .host, .err, .out] s (qpDisableWrite a0 a1 s) := by
  refine Does.also (t := s) Does.refl (fun h0 => ?_)
  unfold qpDisableWrite
  refine Does.ite ?_ ?_
  · assumption
  · refine Does.ite ?_ ?_
    · refine Does.then hostAccess_does rfl ?_
      assumption
    · refine Does.then updPair_does rfl ?_
      refine Does.ite ?_ ?_
      · refine Does.then disablePair_does rfl ?_
        assumption
      · assumption

theorem execQpDisable_does {a0 a1} {s} {t} (h : (execQpDisable a0 a1 s) = .next t) :
    Does [.cnt, .mbx, .host, .pwr, .err, .out] s t := by
  refine Does.also (t := s) Does.refl (fun h0 => ?_)
  unfold execQpDisable at h
  obtain rfl := Host.Outcome.next.inj h
  clear h
  refine busAccess_does rfl ?_ (fun z0 hz1 => ?_)
  · assumption
  · refine Does.then qpDisableWrite_does rfl ?_
    assumption

theorem execCoalesceTimerExpiry_does {a0} {s} {t} (h : (execCoalesceTimerExpiry a0 s) = .next t) :
    Does [.mbx, .host, .out] s t := by
  refine Does.also (t := s) Does.refl (fun h0 => ?_)
  unfold execCoalesceTimerExpiry at h
  obtain rfl := Host.Outcome.next.inj h
  clear h
  extract_lets +onlyGivenNames y0
  refine Does.ite ?_ ?_
  · refine Does.then raiseVector_does rfl ?_
    refine Does.then updPair_does rfl ?_
    assumption
  · assumption

theorem pairsReady_does {s} :
    Does [.mbx] s (pairsReady s) := by
  refine Does.also (t := s) Does.refl (fun h0 => ?_)
  unfold pairsReady
  extract_lets +onlyGivenNames y0
  refine Does.set_mbx rfl _ ?_
  assumption

end Sys2Proof.Laws
end

