-- ==== Sys2Proof/Laws/Flags.lean ====
section
/-! SUPPORT. Sys2Proof/Laws/Flags.lean: what each operation and meaning of Machine/Flags.lean can do, as `Does` says it: which blocks of
the state it may change, that it keeps the invariant, and that it lowers nothing that only rises. -/

namespace Sys2Proof.Laws

open Sys2Proof.Machine Sys2Proof.Safety

theorem stick_does {a0 a1} {s} :
    Does [.fmtSticky] s (stick a0 a1 s) := by
  refine Does.also (t := s) Does.refl (fun h0 => ?_)
  unfold stick
  refine Does.ite ?_ ?_
  · refine Does.set_fmtSticky rfl _ ?_
    assumption
  · assumption

theorem accSats_does {a0 a1} {s} :
    Does [.fmtSticky, .cnt] s (accSats a0 a1 s) := by
  refine Does.also (t := s) Does.refl (fun h0 => ?_)
  unfold accSats
  refine Does.then stick_does rfl ?_
  refine Does.then countBy_does rfl ?_
  assumption

theorem badScale_does {a0} {s} :
    Does [.fmtSticky, .cnt] s (badScale a0 s) := by
  refine Does.also (t := s) Does.refl (fun h0 => ?_)
  unfold badScale
  refine Does.then stick_does rfl ?_
  refine Does.then count_does rfl ?_
  assumption

theorem bf16Sats_does {a0 a1} {s} :
    Does [.fmtSticky, .cnt] s (bf16Sats a0 a1 s) := by
  refine Does.also (t := s) Does.refl (fun h0 => ?_)
  unfold bf16Sats
  refine Does.then stick_does rfl ?_
  refine Does.then countBy_does rfl ?_
  assumption

end Sys2Proof.Laws
end

