-- ==== Sys2Proof/Laws/Tuning.lean ====
section
/-! SUPPORT. Sys2Proof/Laws/Tuning.lean: what each operation and meaning of Machine/Tuning.lean can do, as `Does` says it: which blocks of
the state it may change, that it keeps the invariant, and that it lowers nothing that only rises. -/

namespace Sys2Proof.Laws

open Sys2Proof.Machine Sys2Proof.Safety

theorem tuneNans_does {a0 a1} {s} :
    Does [.fmtSticky, .cnt] s (tuneNans a0 a1 s) := by
  refine Does.also (t := s) Does.refl (fun h0 => ?_)
  unfold tuneNans
  extract_lets +onlyGivenNames y0
  refine Does.also (t := y0) ?_ (fun hy0 => ?_)
  · subst y0
    refine Does.then stick_does rfl ?_
    refine Does.then countBy_does rfl ?_
    assumption
  clear_value y0
  revert y0
  refine Does.intro ?_
  intro y0 hy0
  refine Does.then stick_does rfl ?_
  refine Does.then countBy_does rfl ?_
  assumption

theorem updTune_does {a0 a1} {s} :
    Does [.models] s (updTune a0 a1 s) := by
  refine Does.also (t := s) Does.refl (fun h0 => ?_)
  unfold updTune
  extract_lets +onlyGivenNames y0
  refine Does.set_models rfl _ ?_
  assumption

theorem addGradient_does {a0} {s} :
    Does [.fmtSticky, .cnt, .models] s (addGradient a0 s) := by
  refine Does.also (t := s) Does.refl (fun h0 => ?_)
  unfold addGradient
  split
  · rename_i x1 x2
    assumption
  · rename_i x3 x4 x5
    split
    · rename_i x7 x8
      assumption
    · rename_i x9 x10 x11
      extract_lets +onlyGivenNames y12
      extract_lets +onlyGivenNames y13
      refine Does.also (t := y13) ?_ (fun hy13 => ?_)
      · subst y13
        refine Does.then tuneNans_does rfl ?_
        assumption
      clear_value y13
      revert y13
      refine Does.intro ?_
      intro y13 hy13
      extract_lets +onlyGivenNames y14
      refine Does.ite ?_ ?_
      · refine Does.then updTune_does rfl ?_
        assumption
      · refine Does.then updTune_does rfl ?_
        assumption

theorem applyCopy_does {a0} {s} :
    Does [.fmtSticky, .cnt, .ram, .ramUndef, .taint, .tiers, .models] s (applyCopy a0 s) := by
  refine Does.also (t := s) Does.refl (fun h0 => ?_)
  unfold applyCopy
  split
  · rename_i x1 x2
    assumption
  · rename_i x3 x4 x5
    split
    · rename_i x7 x8
      assumption
    · rename_i x9 x10 x11
      extract_lets +onlyGivenNames y12
      extract_lets +onlyGivenNames y13
      refine Does.also (t := y13) ?_ (fun hy13 => ?_)
      · subst y13
        refine forEach_does ?_ (fun a15 z16 hz17 => ?_)
        · assumption
        · extract_lets +onlyGivenNames y18
          extract_lets +onlyGivenNames y19
          refine Does.then tuneNans_does rfl ?_
          refine Does.then writeDva_does rfl ?_
          refine Does.then writeDva_does rfl ?_
          assumption
      clear_value y13
      revert y13
      refine Does.intro ?_
      intro y13 hy13
      refine Does.then updTune_does rfl ?_
      assumption

theorem finishUpdate_does {a0} {s} :
    Does [.fmtSticky, .cnt, .ram, .ramUndef, .taint, .tiers, .models] s (finishUpdate a0 s) := by
  refine Does.also (t := s) Does.refl (fun h0 => ?_)
  unfold finishUpdate
  split
  · rename_i x1 x2
    assumption
  · rename_i x3 x4 x5
    split
    · rename_i x7 x8 x9 x10 x11 x12 x13
      extract_lets +onlyGivenNames y14
      extract_lets +onlyGivenNames y15
      extract_lets +onlyGivenNames y16
      extract_lets +onlyGivenNames y17
      extract_lets +onlyGivenNames y18
      extract_lets +onlyGivenNames y19
      extract_lets +onlyGivenNames y20
      extract_lets +onlyGivenNames y21
      refine Does.also (t := y21) ?_ (fun hy21 => ?_)
      · subst y21
        refine Does.then writeDva_does rfl ?_
        assumption
      clear_value y21
      revert y21
      refine Does.intro ?_
      intro y21 hy21
      extract_lets +onlyGivenNames y22
      refine Does.also (t := y22) ?_ (fun hy22 => ?_)
      · subst y22
        refine Does.then writeDva_does rfl ?_
        assumption
      clear_value y22
      revert y22
      refine Does.intro ?_
      intro y22 hy22
      extract_lets +onlyGivenNames y23
      refine Does.also (t := y23) ?_ (fun hy23 => ?_)
      · subst y23
        refine Does.then writeDva_does rfl ?_
        assumption
      clear_value y23
      revert y23
      refine Does.intro ?_
      intro y23 hy23
      extract_lets +onlyGivenNames y24
      refine Does.also (t := y24) ?_ (fun hy24 => ?_)
      · subst y24
        refine Does.then tuneNans_does rfl ?_
        assumption
      clear_value y24
      revert y24
      refine Does.intro ?_
      intro y24 hy24
      extract_lets +onlyGivenNames y25
      refine Does.also (t := y25) ?_ (fun hy25 => ?_)
      · subst y25
        refine Does.then stick_does rfl ?_
        refine Does.then countBy_does rfl ?_
        assumption
      clear_value y25
      revert y25
      refine Does.intro ?_
      intro y25 hy25
      extract_lets +onlyGivenNames y26
      extract_lets +onlyGivenNames y27
      refine Does.also (t := y27) ?_ (fun hy27 => ?_)
      · subst y27
        refine Does.then bf16Sats_does rfl ?_
        refine Does.set_models rfl _ ?_
        assumption
      clear_value y27
      revert y27
      refine Does.intro ?_
      intro y27 hy27
      extract_lets +onlyGivenNames y28
      refine Does.also (t := y28) ?_ (fun hy28 => ?_)
      · subst y28
        refine Does.then updTune_does rfl ?_
        assumption
      clear_value y28
      revert y28
      refine Does.intro ?_
      intro y28 hy28
      split
      · rename_i x29 x30 x31
        refine Does.ite ?_ ?_
        · assumption
        · refine Does.then applyCopy_does rfl ?_
          assumption
      · rename_i x32 x33
        refine Does.then applyCopy_does rfl ?_
        assumption
    · rename_i x34 x35 x36
      assumption

theorem dropRefs_does {a0} {s} :
    Does [.codec] s (dropRefs a0 s) := by
  refine Does.also (t := s) Does.refl (fun h0 => ?_)
  unfold dropRefs
  extract_lets +onlyGivenNames y0
  refine Does.set_codec rfl _ ?_
  assumption

theorem dropObject_does {a0} {s} :
    Does [.tiers, .codec] s (dropObject a0 s) := by
  refine Does.also (t := s) Does.refl (fun h0 => ?_)
  unfold dropObject
  split
  · rename_i x1 x2 x3
    extract_lets +onlyGivenNames y4
    refine Does.also (t := y4) ?_ (fun hy4 => ?_)
    · subst y4
      refine Does.then freePages_does rfl ?_
      refine Does.then dropRefs_does rfl ?_
      assumption
    clear_value y4
    revert y4
    refine Does.intro ?_
    intro y4 hy4
    extract_lets +onlyGivenNames y5
    refine Does.set_tiers rfl _ ?_
    assumption
  · rename_i x6 x7
    assumption

theorem endTune_does {a0 a1} {s} :
    Does [.fmtSticky, .cnt, .ram, .ramUndef, .mbx, .host, .taint, .tiers, .models, .codec, .spar, .out] s (endTune a0 a1 s) := by
  refine Does.also (t := s) Does.refl (fun h0 => ?_)
  unfold endTune
  split
  · rename_i x1 x2
    assumption
  · rename_i x3 x4 x5
    extract_lets +onlyGivenNames y6
    refine Does.also (t := y6) ?_ (fun hy6 => ?_)
    · subst y6
      refine Does.ite ?_ ?_
      · refine Does.then applyCopy_does rfl ?_
        assumption
      · assumption
    clear_value y6
    revert y6
    refine Does.intro ?_
    intro y6 hy6
    extract_lets +onlyGivenNames y7
    extract_lets +onlyGivenNames y8
    refine Does.also (t := y8) ?_ (fun hy8 => ?_)
    · subst y8
      refine Does.set_models rfl _ ?_
      assumption
    clear_value y8
    revert y8
    refine Does.intro ?_
    intro y8 hy8
    extract_lets +onlyGivenNames y9
    refine Does.also (t := y9) ?_ (fun hy9 => ?_)
    · subst y9
      refine Does.ite ?_ ?_
      · assumption
      · refine Does.then dropObject_does rfl ?_
        refine Does.then dropObject_does rfl ?_
        refine Does.then dropObject_does rfl ?_
        assumption
    clear_value y9
    revert y9
    refine Does.intro ?_
    intro y9 hy9
    split
    · rename_i x11 x12 x13 x14
      extract_lets +onlyGivenNames y15
      refine Does.also (t := y15) ?_ (fun hy15 => ?_)
      · subst y15
        split
        · rename_i x16 x17 x18
          refine Does.ite ?_ ?_
          · refine Does.then putPay_does rfl ?_
            assumption
          · assumption
        · rename_i x19 x20
          assumption
      clear_value y15
      revert y15
      refine Does.intro ?_
      intro y15 hy15
      refine Does.then finish_does rfl ?_
      assumption
    · rename_i x21 x22
      assumption

theorem tuneBarrier_does {a0} {s} :
    Does [.fmtSticky, .cnt, .ram, .ramUndef, .mbx, .host, .taint, .tiers, .models, .codec, .spar, .out] s (tuneBarrier a0 s) := by
  refine Does.also (t := s) Does.refl (fun h0 => ?_)
  unfold tuneBarrier
  refine forEach_does ?_ (fun a1 z2 hz3 => ?_)
  · assumption
  · extract_lets +onlyGivenNames y4
    refine Does.also (t := y4) ?_ (fun hy4 => ?_)
    · subst y4
      refine Does.ite ?_ ?_
      · refine Does.then applyCopy_does rfl ?_
        assumption
      · assumption
    clear_value y4
    revert y4
    refine Does.intro ?_
    intro y4 hy4
    split
    · rename_i x5 x6 x7
      refine Does.then endTune_does rfl ?_
      assumption
    · rename_i x8 x9
      assumption

theorem tuneStep_does {a0} {s} :
    Does [.fmtSticky, .cnt, .models] s (tuneStep a0 s) := by
  refine Does.also (t := s) Does.refl (fun h0 => ?_)
  unfold tuneStep
  refine forEach_does ?_ (fun a0 z1 hz2 => ?_)
  · assumption
  · refine Does.then addGradient_does rfl ?_
    assumption

theorem execTuneUpdateComplete_does {a0} {s} {t} (h : (execTuneUpdateComplete a0 s) = .next t) :
    Does [.fmtSticky, .cnt, .ram, .ramUndef, .taint, .tiers, .models] s t := by
  refine Does.also (t := s) Does.refl (fun h0 => ?_)
  unfold execTuneUpdateComplete at h
  obtain rfl := Host.Outcome.next.inj h
  clear h
  refine Does.then finishUpdate_does rfl ?_
  assumption

end Sys2Proof.Laws
end

