-- ==== Sys2Proof/Laws/Cadence.lean ====
section
/-! SUPPORT. Sys2Proof/Laws/Cadence.lean: what each operation and meaning of Machine/Cadence.lean can do, as `Does` says it: which blocks of
the state it may change, that it keeps the invariant, and that it lowers nothing that only rises. -/

namespace Sys2Proof.Laws

open Sys2Proof.Machine Sys2Proof.Safety

theorem updPlan_does {a0 a1} {s} :
    Does [.plans] s (updPlan a0 a1 s) := by
  refine Does.also (t := s) Does.refl (fun h0 => ?_)
  unfold updPlan
  refine Does.set_plans rfl _ ?_
  assumption

theorem updArr_does {a0 a1} {s} :
    Does [.arrs] s (updArr a0 a1 s) := by
  refine Does.also (t := s) Does.refl (fun h0 => ?_)
  unfold updArr
  refine Does.set_arrs rfl _ ?_
  assumption

theorem updStep_does {a0 a1 a2} {s} :
    Does [.plans] s (updStep a0 a1 a2 s) := by
  refine Does.also (t := s) Does.refl (fun h0 => ?_)
  unfold updStep
  refine Does.then updPlan_does rfl ?_
  assumption

theorem storeWr_does {a : Nat} {b : Bytes} : ∀ {off s}, Does [.ram, .ramUndef] s (storeWr a off b s) := by
  induction b with
  | nil => intro off s; exact Does.refl
  | cons x b ih => intro off s; exact Does.trans (ramPut_does.mono rfl) ih

theorem flagStream_does {a0 a1 a2 a3} {s} :
    Does [.plans] s (flagStream a0 a1 a2 a3 s) := by
  refine Does.also (t := s) Does.refl (fun h0 => ?_)
  unfold flagStream
  refine Does.ite ?_ ?_
  · assumption
  · refine Does.then updStep_does rfl ?_
    assumption

theorem flagRow_does {a0 a1 a2 a3} {s} :
    Does [.plans] s (flagRow a0 a1 a2 a3 s) := by
  refine Does.also (t := s) Does.refl (fun h0 => ?_)
  unfold flagRow
  split
  · rename_i x0 x1 x2
    refine Does.then flagStream_does rfl ?_
    assumption
  · rename_i x3 x4
    assumption

theorem flagAll_does {a0 a1 a2} {s} :
    Does [.plans] s (flagAll a0 a1 a2 s) := by
  refine Does.also (t := s) Does.refl (fun h0 => ?_)
  unfold flagAll
  split
  · rename_i x0 x1 x2
    refine forEach_does ?_ (fun a3 z4 hz5 => ?_)
    · assumption
    · refine Does.then flagStream_does rfl ?_
      assumption
  · rename_i x6 x7
    assumption

theorem addCtr_does {a0 a1 a2} {s} :
    Does [.cnt, .plans] s (addCtr a0 a1 a2 s) := by
  refine Does.also (t := s) Does.refl (fun h0 => ?_)
  unfold addCtr
  extract_lets +onlyGivenNames y0
  extract_lets +onlyGivenNames y1
  refine Does.also (t := y1) ?_ (fun hy1 => ?_)
  · subst y1
    refine Does.then updPlan_does rfl ?_
    assumption
  clear_value y1
  revert y1
  refine Does.intro ?_
  intro y1 hy1
  refine Does.ite ?_ ?_
  · refine Does.then count_does rfl ?_
    assumption
  · assumption

theorem clearCtr_does {a0 a1} {s} :
    Does [.plans] s (clearCtr a0 a1 s) := by
  refine Does.also (t := s) Does.refl (fun h0 => ?_)
  unfold clearCtr
  refine Does.then updPlan_does rfl ?_
  assumption

theorem signalCtr_does {a0 a1 a2 a3} {s} :
    Does [.cnt, .plans, .spar, .out] s (signalCtr a0 a1 a2 a3 s) := by
  refine Does.also (t := s) Does.refl (fun h0 => ?_)
  unfold signalCtr
  extract_lets +onlyGivenNames y0
  refine Does.also (t := y0) ?_ (fun hy0 => ?_)
  · subst y0
    refine Does.ite ?_ ?_
    · refine Does.then clearCtr_does rfl ?_
      assumption
    · refine Does.then addCtr_does rfl ?_
      assumption
  clear_value y0
  revert y0
  refine Does.intro ?_
  intro y0 hy0
  split
  · rename_i x1 x2 x3
    split
    · rename_i x4 x5 x6
      refine Does.ite ?_ ?_
      · refine Does.then toOthers_does rfl ?_
        assumption
      · assumption
    · rename_i x7 x8
      assumption
  · rename_i x9 x10
    assumption

theorem finishStream_does {a0 a1 a2 a3 a4} {s} :
    Does [.ram, .ramUndef, .mbx, .host, .taint, .tiers, .spar, .out] s (finishStream a0 a1 a2 a3 a4 s) := by
  refine Does.also (t := s) Does.refl (fun h0 => ?_)
  unfold finishStream
  extract_lets +onlyGivenNames y0
  refine Does.also (t := y0) ?_ (fun hy0 => ?_)
  · subst y0
    refine Does.then dropCmd_does rfl ?_
    assumption
  clear_value y0
  revert y0
  refine Does.intro ?_
  intro y0 hy0
  split
  · rename_i x2 x3 x4
    extract_lets +onlyGivenNames y5
    refine Does.also (t := y5) ?_ (fun hy5 => ?_)
    · subst y5
      split
      · rename_i x6 x7 x8
        refine Does.ite ?_ ?_
        · assumption
        · refine Does.then updPair_does rfl ?_
          assumption
      · rename_i x9 x10 x11
        assumption
    clear_value y5
    revert y5
    refine Does.intro ?_
    intro y5 hy5
    refine Does.then flushReserved_does rfl ?_
    refine Does.ite ?_ ?_
    · assumption
    · refine Does.then postCq_does rfl ?_
      assumption
  · rename_i x12 x13
    assumption

theorem updStream_does {a0 a1} {s} :
    Does [.models] s (updStream a0 a1 s) := by
  refine Does.also (t := s) Does.refl (fun h0 => ?_)
  unfold updStream
  extract_lets +onlyGivenNames y0
  refine Does.set_models rfl _ ?_
  assumption

theorem abortHeld_does {a0} {s} :
    Does [.ram, .ramUndef, .mbx, .host, .taint, .tiers, .models, .spar, .out] s (abortHeld a0 s) := by
  refine Does.also (t := s) Does.refl (fun h0 => ?_)
  unfold abortHeld
  split
  · rename_i x1 x2 x3
    extract_lets +onlyGivenNames y4
    refine Does.also (t := y4) ?_ (fun hy4 => ?_)
    · subst y4
      refine forEach_does ?_ (fun a5 z6 hz7 => ?_)
      · assumption
      · refine Does.then finishStream_does rfl ?_
        assumption
    clear_value y4
    revert y4
    refine Does.intro ?_
    intro y4 hy4
    refine Does.then updStream_does rfl ?_
    assumption
  · rename_i x8 x9
    assumption

theorem closeStream_does {a0} {s} :
    Does [.fmtSticky, .cnt, .ram, .ramUndef, .mbx, .host, .taint, .tiers, .models, .codec, .spar, .out] s (closeStream a0 s) := by
  refine Does.also (t := s) Does.refl (fun h0 => ?_)
  unfold closeStream
  extract_lets +onlyGivenNames y0
  refine Does.also (t := y0) ?_ (fun hy0 => ?_)
  · subst y0
    refine Does.then abortHeld_does rfl ?_
    assumption
  clear_value y0
  revert y0
  refine Does.intro ?_
  intro y0 hy0
  extract_lets +onlyGivenNames y1
  refine Does.also (t := y1) ?_ (fun hy1 => ?_)
  · subst y1
    refine forEach_does ?_ (fun a2 z3 hz4 => ?_)
    · assumption
    · refine Does.then endTune_does rfl ?_
      assumption
  clear_value y1
  revert y1
  refine Does.intro ?_
  intro y1 hy1
  extract_lets +onlyGivenNames y5
  extract_lets +onlyGivenNames y6
  refine Does.also (t := y6) ?_ (fun hy6 => ?_)
  · subst y6
    refine Does.set_models rfl _ ?_
    assumption
  clear_value y6
  revert y6
  refine Does.intro ?_
  intro y6 hy6
  split
  · rename_i x7 x8 x9
    refine Does.then finishOpt_does rfl ?_
    assumption
  · rename_i x10 x11
    assumption

theorem freePlan_does {a0} {s} :
    Does [.ram, .ramUndef, .mbx, .host, .plans, .norm, .normSum, .taint, .tiers, .models, .spar, .out] s (freePlan a0 s) := by
  refine Does.also (t := s) Does.refl (fun h0 => ?_)
  unfold freePlan
  extract_lets +onlyGivenNames y0
  extract_lets +onlyGivenNames y1
  split
  · rename_i x3 x4 x5
    extract_lets +onlyGivenNames y6
    refine Does.also (t := y6) ?_ (fun hy6 => ?_)
    · subst y6
      refine Does.set_plans_norm_normSum_tiers_spar rfl _ _ _ _ _ ?_
      assumption
    clear_value y6
    revert y6
    refine Does.intro ?_
    intro y6 hy6
    refine forEach_does ?_ (fun a7 z8 hz9 => ?_)
    · assumption
    · refine Does.then abortHeld_does rfl ?_
      refine Does.then updStream_does rfl ?_
      assumption
  · rename_i x10 x11
    assumption

theorem waitDone_does {a0 a1 a2} {s} :
    Does [.ram, .ramUndef, .mbx, .host, .taint, .tiers, .spar, .out] s (waitDone a0 a1 a2 s) := by
  refine Does.also (t := s) Does.refl (fun h0 => ?_)
  unfold waitDone
  extract_lets +onlyGivenNames y0
  extract_lets +onlyGivenNames y1
  extract_lets +onlyGivenNames y2
  split
  · rename_i x4 x5
    refine Does.then finishWith_does rfl ?_
    dsimp only [y1]
    refine Does.set_spar rfl _ ?_
    assumption
  · rename_i x6 x7 x8
    extract_lets +onlyGivenNames y9
    refine Does.ite ?_ ?_
    · refine Does.then finishWith_does rfl ?_
      dsimp only [y1]
      refine Does.set_spar rfl _ ?_
      assumption
    · refine Does.ite ?_ ?_
      · refine Does.then finishWith_does rfl ?_
        dsimp only [y1]
        refine Does.set_spar rfl _ ?_
        assumption
      · refine Does.set_spar rfl _ ?_
        assumption

theorem applyExcl_does {a0} {s} :
    Does [.arrs, .exclStored] s (applyExcl a0 s) := by
  refine Does.also (t := s) Does.refl (fun h0 => ?_)
  unfold applyExcl
  extract_lets +onlyGivenNames y0
  extract_lets +onlyGivenNames y1
  refine Does.also (t := y1) ?_ (fun hy1 => ?_)
  · subst y1
    refine Does.set_exclStored rfl _ ?_
    assumption
  clear_value y1
  revert y1
  refine Does.intro ?_
  intro y1 hy1
  refine Does.ite ?_ ?_
  · assumption
  · refine Does.then updArr_does rfl ?_
    assumption

theorem lowerShares_does {a0} {s} :
    Does [.arrs] s (lowerShares a0 s) := by
  refine Does.also (t := s) Does.refl (fun h0 => ?_)
  unfold lowerShares
  refine forEach_does ?_ (fun a0 z1 hz2 => ?_)
  · assumption
  · refine Does.ite ?_ ?_
    · refine Does.then updArr_does rfl ?_
      assumption
    · assumption

theorem tablesBarrier_does {a0} {s} :
    Does [.models] s (tablesBarrier a0 s) := by
  refine Does.also (t := s) Does.refl (fun h0 => ?_)
  unfold tablesBarrier
  split
  · rename_i x0 x1 x2
    refine forEach_does ?_ (fun a3 z4 hz5 => ?_)
    · assumption
    · refine Does.then updSlot_does rfl ?_
      assumption
  · rename_i x6 x7
    assumption

theorem dropXfers_does {a0} {s} :
    Does [.codec] s (dropXfers a0 s) := by
  refine Does.also (t := s) Does.refl (fun h0 => ?_)
  unfold dropXfers
  extract_lets +onlyGivenNames y0
  refine Does.set_codec rfl _ ?_
  assumption

theorem arrayBarrier_does {a0} {s} :
    Does [.slate, .arrs, .exclStored, .models, .codec] s (arrayBarrier a0 s) := by
  refine Does.also (t := s) Does.refl (fun h0 => ?_)
  unfold arrayBarrier
  extract_lets +onlyGivenNames y0
  refine Does.also (t := y0) ?_ (fun hy0 => ?_)
  · subst y0
    refine Does.then tablesBarrier_does rfl ?_
    refine Does.then dropXfers_does rfl ?_
    assumption
  clear_value y0
  revert y0
  refine Does.intro ?_
  intro y0 hy0
  extract_lets +onlyGivenNames y1
  extract_lets +onlyGivenNames y2
  extract_lets +onlyGivenNames y3
  refine Does.also (t := y3) ?_ (fun hy3 => ?_)
  · subst y3
    refine Does.set_slate rfl _ ?_
    assumption
  clear_value y3
  revert y3
  refine Does.intro ?_
  intro y3 hy3
  refine Does.then applyExcl_does rfl ?_
  refine Does.then updArr_does rfl ?_
  assumption

theorem haltArray_does {a0 a1} {s} :
    Does [.slate, .arrs, .exclStored, .models, .codec, .free] s (haltArray a0 a1 s) := by
  refine Does.also (t := s) Does.refl (fun h0 => ?_)
  unfold haltArray
  extract_lets +onlyGivenNames y0
  split
  · rename_i x1 x2
    dsimp only [y0]
    refine Does.then updArr_does rfl ?_
    refine Does.set_free rfl _ ?_
    assumption
  · rename_i x3 x4 x5
    refine Does.ite ?_ ?_
    · refine Does.then arrayBarrier_does rfl ?_
      dsimp only [y0]
      refine Does.then updArr_does rfl ?_
      refine Does.set_free rfl _ ?_
      assumption
    · assumption

theorem endHalted_does {a0} {s} :
    Does [.ram, .ramUndef, .mbx, .host, .plans, .arrs, .norm, .normSum, .taint, .tiers, .models, .spar, .out, .free] s (endHalted a0 s) := by
  refine Does.also (t := s) Does.refl (fun h0 => ?_)
  unfold endHalted
  split
  · rename_i x1 x2 x3
    extract_lets +onlyGivenNames y4
    extract_lets +onlyGivenNames y5
    refine Does.also (t := y5) ?_ (fun hy5 => ?_)
    · subst y5
      refine forEach_does ?_ (fun a6 z7 hz8 => ?_)
      · assumption
      · refine Does.then waitDone_does rfl ?_
        assumption
    clear_value y5
    revert y5
    refine Does.intro ?_
    intro y5 hy5
    extract_lets +onlyGivenNames y9
    extract_lets +onlyGivenNames y10
    refine Does.also (t := y10) ?_ (fun hy10 => ?_)
    · subst y10
      refine Does.then updPlan_does rfl ?_
      refine Does.set_free rfl _ ?_
      assumption
    clear_value y10
    revert y10
    refine Does.intro ?_
    intro y10 hy10
    extract_lets +onlyGivenNames y11
    refine Does.also (t := y11) ?_ (fun hy11 => ?_)
    · subst y11
      refine Does.then lowerShares_does rfl ?_
      assumption
    clear_value y11
    revert y11
    refine Does.intro ?_
    intro y11 hy11
    refine Does.ite ?_ ?_
    · refine Does.then freePlan_does rfl ?_
      assumption
    · assumption
  · rename_i x12 x13
    assumption

theorem haltPlan_does {a0} {s} :
    Does [.fmtSticky, .cnt, .ram, .ramUndef, .mbx, .host, .slate, .plans, .arrs, .exclStored, .norm, .normSum, .taint, .tiers, .models, .codec, .spar, .out, .free] s (haltPlan a0 s) := by
  refine Does.also (t := s) Does.refl (fun h0 => ?_)
  unfold haltPlan
  split
  · rename_i x1 x2 x3
    extract_lets +onlyGivenNames y4
    refine Does.also (t := y4) ?_ (fun hy4 => ?_)
    · subst y4
      refine forEach_does ?_ (fun a6 z7 hz8 => ?_)
      · assumption
      · extract_lets +onlyGivenNames y9
        refine Does.also (t := y9) ?_ (fun hy9 => ?_)
        · subst y9
          refine Does.then updStream_does rfl ?_
          assumption
        clear_value y9
        revert y9
        refine Does.intro ?_
        intro y9 hy9
        split
        · rename_i x10 x11 x12
          split
          · rename_i x13 x14 x15
            refine Does.then finishStream_does rfl ?_
            assumption
          · rename_i x16 x17
            assumption
        · rename_i x18 x19
          assumption
    clear_value y4
    revert y4
    refine Does.intro ?_
    intro y4 hy4
    extract_lets +onlyGivenNames y20
    refine Does.also (t := y20) ?_ (fun hy20 => ?_)
    · subst y20
      refine forEach_does ?_ (fun a21 z22 hz23 => ?_)
      · assumption
      · refine Does.then haltArray_does rfl ?_
        assumption
    clear_value y20
    revert y20
    refine Does.intro ?_
    intro y20 hy20
    extract_lets +onlyGivenNames y24
    refine Does.also (t := y24) ?_ (fun hy24 => ?_)
    · subst y24
      refine forEach_does ?_ (fun a25 z26 hz27 => ?_)
      · assumption
      · refine Does.then undefine_does rfl ?_
        assumption
    clear_value y24
    revert y24
    refine Does.intro ?_
    intro y24 hy24
    extract_lets +onlyGivenNames y28
    refine Does.also (t := y28) ?_ (fun hy28 => ?_)
    · subst y28
      refine Does.then endHalted_does rfl ?_
      assumption
    clear_value y28
    revert y28
    refine Does.intro ?_
    intro y28 hy28
    refine Does.ite ?_ ?_
    · assumption
    · refine forEach_does ?_ (fun a29 z30 hz31 => ?_)
      · refine forEach_does ?_ (fun a32 z33 hz34 => ?_)
        · assumption
        · refine Does.then closeStream_does rfl ?_
          assumption
      · refine Does.then tuneBarrier_does rfl ?_
        assumption
  · rename_i x35 x36
    assumption

theorem engineFault_does {a0 a1 a2} {s} :
    Does [.fmtSticky, .cnt, .ram, .ramUndef, .mbx, .host, .err, .slate, .plans, .arrs, .exclStored, .norm, .normSum, .taint, .tiers, .models, .codec, .spar, .out, .free] s (engineFault a0 a1 a2 s) := by
  refine Does.also (t := s) Does.refl (fun h0 => ?_)
  unfold engineFault
  split
  · rename_i x0 x1 x2
    refine Does.then haltPlan_does rfl ?_
    refine Does.then record_does rfl ?_
    assumption
  · rename_i x3 x4
    assumption

theorem endStopped_does {a0} {s} :
    Does [.ram, .ramUndef, .mbx, .host, .plans, .arrs, .norm, .normSum, .taint, .tiers, .models, .spar, .out] s (endStopped a0 s) := by
  refine Does.also (t := s) Does.refl (fun h0 => ?_)
  unfold endStopped
  extract_lets +onlyGivenNames y0
  refine Does.also (t := y0) ?_ (fun hy0 => ?_)
  · subst y0
    refine Does.then updPlan_does rfl ?_
    assumption
  clear_value y0
  revert y0
  refine Does.intro ?_
  intro y0 hy0
  split
  · rename_i x2 x3 x4
    extract_lets +onlyGivenNames y5
    extract_lets +onlyGivenNames y6
    refine Does.also (t := y6) ?_ (fun hy6 => ?_)
    · subst y6
      refine Does.then lowerShares_does rfl ?_
      assumption
    clear_value y6
    revert y6
    refine Does.intro ?_
    intro y6 hy6
    extract_lets +onlyGivenNames y7
    refine Does.also (t := y7) ?_ (fun hy7 => ?_)
    · subst y7
      refine Does.ite ?_ ?_
      · refine Does.then freePlan_does rfl ?_
        assumption
      · assumption
    clear_value y7
    revert y7
    refine Does.intro ?_
    intro y7 hy7
    refine forEach_does ?_ (fun a8 z9 hz10 => ?_)
    · assumption
    · refine Does.then waitDone_does rfl ?_
      assumption
  · rename_i x11 x12
    assumption

theorem writeFrames_does {a0 a1} {s} :
    Does [.ram, .ramUndef, .taint, .tiers] s (writeFrames a0 a1 s) := by
  refine Does.also (t := s) Does.refl (fun h0 => ?_)
  unfold writeFrames
  refine forEach_does ?_ (fun a0 z1 hz2 => ?_)
  · assumption
  · refine Does.then writeDva_does rfl ?_
    assumption

theorem planLoad_does {a0 a1} {s} :
    Does [.cnt, .ram, .ramUndef, .plans, .taint, .tiers] s (replySt (planLoad a0 a1 s)) := by
  refine Does.also (t := s) Does.refl (fun h0 => ?_)
  unfold planLoad
  extract_lets +onlyGivenNames y0
  extract_lets +onlyGivenNames y1
  extract_lets +onlyGivenNames y2
  extract_lets +onlyGivenNames y3
  extract_lets +onlyGivenNames y4
  extract_lets +onlyGivenNames y5
  refine checked_does ?_ ?_
  · assumption
  · clear_value y1 y4
    split
    · rename_i x8 x9 x10 x11 x12 x13 x14
      extract_lets +onlyGivenNames y15
      refine Does.also (t := y15) ?_ (fun hy15 => ?_)
      · subst y15
        refine Does.set_cnt_plans_tiers rfl _ _ _ ?_ ?_
        · exact fun h p hp => h p (List.mem_filter.mp hp).1
        assumption
      clear_value y15
      revert y15
      refine Does.intro ?_
      intro y15 hy15
      refine Does.done ?_
      refine Does.then writeFrames_does rfl ?_
      assumption
    · rename_i x16 x17 x18 x19 x20 x21
      refine Does.done ?_
      assumption

theorem execPlanLoad_does {a0 a1} {s} {t} (h : (execPlanLoad a0 a1 s) = .next t) :
    Does [.cnt, .ram, .ramUndef, .mbx, .host, .plans, .taint, .tiers, .spar, .out] s t := by
  refine Does.also (t := s) Does.refl (fun h0 => ?_)
  unfold execPlanLoad at h
  obtain rfl := Host.Outcome.next.inj h
  clear h
  refine iarik_does rfl ?_ (fun c0 z1 hz2 => ?_)
  · assumption
  · refine Does.then planLoad_does rfl ?_
    assumption

theorem startPlan_does {a0 a1} {s} :
    Does [.ram, .ramUndef, .plans, .codec, .spar] s (startPlan a0 a1 s) := by
  refine Does.also (t := s) Does.refl (fun h0 => ?_)
  unfold startPlan
  split
  · rename_i x1 x2 x3
    extract_lets +onlyGivenNames y4
    extract_lets +onlyGivenNames y5
    refine Does.also (t := y5) ?_ (fun hy5 => ?_)
    · subst y5
      refine forEach_does ?_ (fun a6 z7 hz8 => ?_)
      · assumption
      · refine Does.then storeWr_does rfl ?_
        assumption
    clear_value y5
    revert y5
    refine Does.intro ?_
    intro y5 hy5
    extract_lets +onlyGivenNames y9
    refine Does.also (t := y9) ?_ (fun hy9 => ?_)
    · subst y9
      refine forEach_does ?_ (fun a10 z11 hz12 => ?_)
      · assumption
      · refine Does.then storeWr_does rfl ?_
        assumption
    clear_value y9
    revert y9
    refine Does.intro ?_
    intro y9 hy9
    extract_lets +onlyGivenNames y13
    extract_lets +onlyGivenNames y14
    extract_lets +onlyGivenNames y15
    extract_lets +onlyGivenNames y16
    refine Does.also (t := y16) ?_ (fun hy16 => ?_)
    · subst y16
      refine Does.set_codec_spar rfl _ _ ?_
      assumption
    clear_value y16
    revert y16
    refine Does.intro ?_
    intro y16 hy16
    refine Does.then updPlan_does rfl ?_
    assumption
  · rename_i x18 x19
    assumption

theorem sendGroup_does {a0 a1} {s} :
    Does [.spar, .out] s (sendGroup a0 a1 s) := by
  refine Does.also (t := s) Does.refl (fun h0 => ?_)
  unfold sendGroup
  extract_lets +onlyGivenNames y0
  extract_lets +onlyGivenNames y1
  refine Does.also (t := y1) ?_ (fun hy1 => ?_)
  · subst y1
    refine forEach_does ?_ (fun a2 z3 hz4 => ?_)
    · assumption
    · refine Does.then sendTo_does rfl ?_
      assumption
  clear_value y1
  revert y1
  refine Does.intro ?_
  intro y1 hy1
  extract_lets +onlyGivenNames y5
  refine Does.set_spar rfl _ ?_
  assumption

theorem stopPlan_does {a0 a1 a2} {s} :
    Does [.fmtSticky, .cnt, .ram, .ramUndef, .mbx, .host, .slate, .plans, .arrs, .exclStored, .norm, .normSum, .taint, .tiers, .models, .codec, .spar, .out, .free] s (stopPlan a0 a1 a2 s) := by
  refine Does.also (t := s) Does.refl (fun h0 => ?_)
  unfold stopPlan
  extract_lets +onlyGivenNames y0
  refine Does.also (t := y0) ?_ (fun hy0 => ?_)
  · subst y0
    refine Does.then updPlan_does rfl ?_
    assumption
  clear_value y0
  revert y0
  refine Does.intro ?_
  intro y0 hy0
  split
  · rename_i x1 x2
    assumption
  · rename_i x3 x4 x5
    refine Does.ite ?_ ?_
    · refine Does.then waitDone_does rfl ?_
      refine Does.then haltPlan_does rfl ?_
      assumption
    · refine Does.ite ?_ ?_
      · refine Does.then waitDone_does rfl ?_
        refine Does.ite ?_ ?_
        · refine Does.then freePlan_does rfl ?_
          assumption
        · assumption
      · refine Does.ite ?_ ?_
        · refine Does.then endStopped_does rfl ?_
          assumption
        · assumption

theorem planStop_does {a0} {s} :
    Does [.fmtSticky, .cnt, .ram, .ramUndef, .mbx, .host, .slate, .plans, .arrs, .exclStored, .norm, .normSum, .taint, .tiers, .models, .codec, .spar, .out, .free] s (replySt (planStop a0 s)) := by
  refine Does.also (t := s) Does.refl (fun h0 => ?_)
  unfold planStop
  refine checked_does ?_ ?_
  · assumption
  · split
    · rename_i x0 x1 x2
      refine Does.running ?_
      refine Does.then stopPlan_does rfl ?_
      refine Does.ite ?_ ?_
      · refine Does.then sendGroup_does rfl ?_
        assumption
      · assumption
    · rename_i x3 x4
      refine Does.done ?_
      assumption

theorem execPlanStop_does {a0} {s} {t} (h : (execPlanStop a0 s) = .next t) :
    Does [.fmtSticky, .cnt, .ram, .ramUndef, .mbx, .host, .slate, .plans, .arrs, .exclStored, .norm, .normSum, .taint, .tiers, .models, .codec, .spar, .out, .free] s t := by
  refine Does.also (t := s) Does.refl (fun h0 => ?_)
  unfold execPlanStop at h
  obtain rfl := Host.Outcome.next.inj h
  clear h
  refine iarik_does rfl ?_ (fun c0 z1 hz2 => ?_)
  · assumption
  · refine Does.then planStop_does rfl ?_
    assumption

theorem joinStep_does {a0 a1 a2 a3} {s} :
    Does [.cnt, .ram, .ramUndef, .mbx, .host, .plans, .taint, .tiers, .models, .spar, .out] s (joinStep a0 a1 a2 a3 s) := by
  refine Does.also (t := s) Does.refl (fun h0 => ?_)
  unfold joinStep
  extract_lets +onlyGivenNames y0
  extract_lets +onlyGivenNames y1
  extract_lets +onlyGivenNames y2
  extract_lets +onlyGivenNames y3
  extract_lets +onlyGivenNames y4
  refine Does.also (t := y4) ?_ (fun hy4 => ?_)
  · subst y4
    dsimp only [y3]
    refine Does.then updStream_does rfl ?_
    assumption
  clear_value y4
  revert y4
  refine Does.intro ?_
  intro y4 hy4
  extract_lets +onlyGivenNames y5
  refine Does.also (t := y5) ?_ (fun hy5 => ?_)
  · subst y5
    refine Does.ite ?_ ?_
    · refine Does.then count_does rfl ?_
      assumption
    · assumption
  clear_value y5
  revert y5
  refine Does.intro ?_
  intro y5 hy5
  refine Does.ite ?_ ?_
  · split
    · rename_i x6 x7
      assumption
    · rename_i x8 x9 x10
      refine Does.ite ?_ ?_
      · refine Does.then finishStream_does rfl ?_
        dsimp only [y3]
        refine Does.then updStream_does rfl ?_
        assumption
      · refine Does.ite ?_ ?_
        · refine Does.ite ?_ ?_
          · refine Does.then count_does rfl ?_
            assumption
          · assumption
        · refine Does.then updStep_does rfl ?_
          refine Does.then updStream_does rfl ?_
          assumption
  · assumption

theorem applySync_does {a0 a1 a2} {s} :
    Does [.cnt, .plans] s (applySync a0 a1 a2 s) := by
  refine Does.also (t := s) Does.refl (fun h0 => ?_)
  unfold applySync
  refine Does.ite ?_ ?_
  · refine Does.then clearCtr_does rfl ?_
    assumption
  · refine Does.then addCtr_does rfl ?_
    assumption

theorem releaseSync_does {a0 a1 a2} {s} :
    Does [.cnt, .plans, .spar] s (releaseSync a0 a1 a2 s) := by
  refine Does.also (t := s) Does.refl (fun h0 => ?_)
  unfold releaseSync
  extract_lets +onlyGivenNames y0
  split
  · rename_i x2 x3 x4
    extract_lets +onlyGivenNames y5
    extract_lets +onlyGivenNames y6
    extract_lets +onlyGivenNames y7
    refine Does.also (t := y7) ?_ (fun hy7 => ?_)
    · subst y7
      refine Does.set_spar rfl _ ?_
      assumption
    clear_value y7
    revert y7
    refine Does.intro ?_
    intro y7 hy7
    refine forEach_does ?_ (fun a8 z9 hz10 => ?_)
    · assumption
    · split
      · rename_i x11 x12 x13
        refine Does.then applySync_does rfl ?_
        assumption
      · rename_i x14 x15
        assumption
  · rename_i x16 x17
    assumption

theorem startStep_does {a0 a1 a2 a3} {s} :
    Does [.cnt, .ram, .ramUndef, .mbx, .host, .plans, .taint, .tiers, .models, .spar, .out, .free] s (startStep a0 a1 a2 a3 s) := by
  refine Does.also (t := s) Does.refl (fun h0 => ?_)
  unfold startStep
  extract_lets +onlyGivenNames y0
  extract_lets +onlyGivenNames y1
  extract_lets +onlyGivenNames y2
  split
  rename_i x4 x5 x6 x7
  refine Does.also (t := x6) (Does.pair x7 ?_) (fun hx6 => ?_)
  · split
    · rename_i x8 x9 x10
      refine Does.snd ?_
      assumption
    · rename_i x11 x12
      refine Does.then drawEntropy_does rfl ?_
      assumption
  extract_lets +onlyGivenNames y13
  extract_lets +onlyGivenNames y14
  refine Does.also (t := y14) ?_ (fun hy14 => ?_)
  · subst y14
    refine Does.then updPlan_does rfl ?_
    assumption
  clear_value y14
  revert y14
  refine Does.intro ?_
  intro y14 hy14
  extract_lets +onlyGivenNames y15
  extract_lets +onlyGivenNames y16
  refine Does.also (t := y16) ?_ (fun hy16 => ?_)
  · subst y16
    refine Does.then releaseSync_does rfl ?_
    refine Does.set_models rfl _ ?_
    assumption
  clear_value y16
  revert y16
  refine Does.intro ?_
  intro y16 hy16
  refine forEach_does ?_ (fun a17 z18 hz19 => ?_)
  · assumption
  · refine Does.then joinStep_does rfl ?_
    assumption

theorem execStepStart_does {a0 a1 a2} {s} {t} (h : (execStepStart a0 a1 a2 s) = .next t) :
    Does [.cnt, .ram, .ramUndef, .mbx, .host, .tbu, .plans, .taint, .tiers, .models, .spar, .out, .free] s t := by
  refine Does.also (t := s) Does.refl (fun h0 => ?_)
  unfold execStepStart at h
  obtain rfl := Host.Outcome.next.inj h
  clear h
  extract_lets +onlyGivenNames y0
  refine Does.also (t := y0) ?_ (fun hy0 => ?_)
  · subst y0
    refine Does.then reachTime_does rfl ?_
    assumption
  clear_value y0
  revert y0
  refine Does.intro ?_
  intro y0 hy0
  split
  · rename_i x2 x3 x4
    split
    · rename_i x6 x7 x8
      extract_lets +onlyGivenNames y9
      refine Does.ite ?_ ?_
      · refine Does.then startStep_does rfl ?_
        assumption
      · assumption
    · rename_i x10 x11
      assumption
  · rename_i x12 x13
    assumption

theorem updateHistory_does {a0} {s} :
    Does [.models] s (updateHistory a0 s) := by
  refine Does.also (t := s) Does.refl (fun h0 => ?_)
  unfold updateHistory
  refine forEach_does ?_ (fun a1 z2 hz3 => ?_)
  · assumption
  · extract_lets +onlyGivenNames y4
    refine Does.ite ?_ ?_
    · refine Does.then updStream_does rfl ?_
      assumption
    · assumption

theorem completeStream_does {a0 a1 a2} {s} :
    Does [.ram, .ramUndef, .mbx, .host, .taint, .tiers, .models, .spar, .out] s (completeStream a0 a1 a2 s) := by
  refine Does.also (t := s) Does.refl (fun h0 => ?_)
  unfold completeStream
  extract_lets +onlyGivenNames y0
  extract_lets +onlyGivenNames y1
  refine Does.also (t := y1) ?_ (fun hy1 => ?_)
  · subst y1
    refine Does.then updStream_does rfl ?_
    assumption
  clear_value y1
  revert y1
  refine Does.intro ?_
  intro y1 hy1
  split
  · rename_i x3 x4
    assumption
  · rename_i x5 x6 x7
    extract_lets +onlyGivenNames y8
    extract_lets +onlyGivenNames y9
    extract_lets +onlyGivenNames y10
    split
    · rename_i x11 x12 x13
      refine Does.then finishStream_does rfl ?_
      assumption
    · rename_i x14 x15
      assumption

theorem endStep_does {a0 a1 a2 a3 a4} {s} :
    Does [.fmtSticky, .cnt, .ram, .ramUndef, .mbx, .host, .slate, .plans, .arrs, .exclStored, .norm, .normSum, .taint, .tiers, .models, .codec, .spar, .out] s (endStep a0 a1 a2 a3 a4 s) := by
  refine Does.also (t := s) Does.refl (fun h0 => ?_)
  unfold endStep
  extract_lets +onlyGivenNames y0
  extract_lets +onlyGivenNames y1
  refine Does.also (t := y1) ?_ (fun hy1 => ?_)
  · subst y1
    refine Does.then updateHistory_does rfl ?_
    assumption
  clear_value y1
  revert y1
  refine Does.intro ?_
  intro y1 hy1
  extract_lets +onlyGivenNames y2
  refine Does.also (t := y2) ?_ (fun hy2 => ?_)
  · subst y2
    refine Does.then countBy_does rfl ?_
    refine Does.then count_does rfl ?_
    assumption
  clear_value y2
  revert y2
  refine Does.intro ?_
  intro y2 hy2
  extract_lets +onlyGivenNames y3
  refine Does.also (t := y3) ?_ (fun hy3 => ?_)
  · subst y3
    refine Does.then updPlan_does rfl ?_
    assumption
  clear_value y3
  revert y3
  refine Does.intro ?_
  intro y3 hy3
  extract_lets +onlyGivenNames y4
  refine Does.also (t := y4) ?_ (fun hy4 => ?_)
  · subst y4
    refine forEach_does ?_ (fun a5 z6 hz7 => ?_)
    · assumption
    · refine Does.ite ?_ ?_
      · refine Does.then arrayBarrier_does rfl ?_
        assumption
      · assumption
  clear_value y4
  revert y4
  refine Does.intro ?_
  intro y4 hy4
  extract_lets +onlyGivenNames y8
  refine Does.also (t := y8) ?_ (fun hy8 => ?_)
  · subst y8
    refine forEach_does ?_ (fun a9 z10 hz11 => ?_)
    · assumption
    · refine Does.then tuneStep_does rfl ?_
      refine Does.then completeStream_does rfl ?_
      assumption
  clear_value y8
  revert y8
  refine Does.intro ?_
  intro y8 hy8
  extract_lets +onlyGivenNames y12
  refine Does.also (t := y12) ?_ (fun hy12 => ?_)
  · subst y12
    refine forEach_does ?_ (fun a13 z14 hz15 => ?_)
    · assumption
    · refine Does.then tuneBarrier_does rfl ?_
      assumption
  clear_value y12
  revert y12
  refine Does.intro ?_
  intro y12 hy12
  extract_lets +onlyGivenNames y16
  refine Does.also (t := y16) ?_ (fun hy16 => ?_)
  · subst y16
    refine forEach_does ?_ (fun a17 z18 hz19 => ?_)
    · assumption
    · refine Does.then closeStream_does rfl ?_
      assumption
  clear_value y16
  revert y16
  refine Does.intro ?_
  intro y16 hy16
  split
  · rename_i x20 x21 x22
    refine Does.ite ?_ ?_
    · refine Does.then endStopped_does rfl ?_
      assumption
    · assumption
  · rename_i x23 x24
    assumption

theorem execStepEnd_does {a0 a1 a2} {s} {t} (h : (execStepEnd a0 a1 a2 s) = .next t) :
    Does [.fmtSticky, .cnt, .ram, .ramUndef, .mbx, .host, .tbu, .slate, .plans, .arrs, .exclStored, .norm, .normSum, .taint, .tiers, .models, .codec, .spar, .out] s t := by
  refine Does.also (t := s) Does.refl (fun h0 => ?_)
  unfold execStepEnd at h
  obtain rfl := Host.Outcome.next.inj h
  clear h
  extract_lets +onlyGivenNames y0
  refine Does.also (t := y0) ?_ (fun hy0 => ?_)
  · subst y0
    refine Does.then reachTime_does rfl ?_
    assumption
  clear_value y0
  revert y0
  refine Does.intro ?_
  intro y0 hy0
  split
  · rename_i x1 x2 x3
    split
    · rename_i x4 x5 x6 x7 x8 x9
      refine Does.ite ?_ ?_
      · refine Does.then endStep_does rfl ?_
        assumption
      · assumption
    · rename_i x10 x11 x12
      assumption
  · rename_i x13 x14
    assumption

theorem execStepStalled_does {a0 a1 a2} {s} {t} (h : (execStepStalled a0 a1 a2 s) = .next t) :
    Does [.cnt, .host, .tbu, .err, .plans, .out] s t := by
  refine Does.also (t := s) Does.refl (fun h0 => ?_)
  unfold execStepStalled at h
  obtain rfl := Host.Outcome.next.inj h
  clear h
  extract_lets +onlyGivenNames y0
  refine Does.also (t := y0) ?_ (fun hy0 => ?_)
  · subst y0
    refine Does.then reachTime_does rfl ?_
    assumption
  clear_value y0
  revert y0
  refine Does.intro ?_
  intro y0 hy0
  extract_lets +onlyGivenNames y1
  refine Does.also (t := y1) ?_ (fun hy1 => ?_)
  · subst y1
    refine Does.then updStep_does rfl ?_
    refine Does.then updPlan_does rfl ?_
    assumption
  clear_value y1
  revert y1
  refine Does.intro ?_
  intro y1 hy1
  split
  · rename_i x3 x4 x5
    extract_lets +onlyGivenNames y6
    extract_lets +onlyGivenNames y7
    extract_lets +onlyGivenNames y8
    split
    · rename_i x9 x10 x11 x12 x13 x14
      refine Does.ite ?_ ?_
      · assumption
      · refine Does.then record_does rfl ?_
        assumption
    · rename_i x15 x16 x17
      assumption
  · rename_i x18 x19
    assumption

end Sys2Proof.Laws
end

