-- ==== Sys2Proof/Laws/Engine.lean ====
section
/-! SUPPORT. Sys2Proof/Laws/Engine.lean: what each operation and meaning of Machine/Engine.lean can do, as `Does` says it: which blocks of
the state it may change, that it keeps the invariant, and that it lowers nothing that only rises. -/

namespace Sys2Proof.Laws

open Sys2Proof.Machine Sys2Proof.Safety

theorem withWord_does {l} {s t} {e op k} (hl : sub [.fmtSticky, .cnt, .ram, .ramUndef, .mbx, .host, .err, .slate, .plans, .arrs, .exclStored, .norm, .normSum, .taint, .tiers, .models, .codec, .spar, .out, .free] l = true) (h : Does l s t)
    (hk : ∀ x y, Does l s y → Does l s (k x y)) : Does l s (withWord e op k t) := by
  unfold withWord
  split
  · exact h
  · exact Does.ite (Does.thenVia engineFault_does rfl hl h) (Does.ite (hk _ _ h) h)

theorem withCopy_does {l} {s t} {a ue op k} (hl : sub [.fmtSticky, .cnt, .ram, .ramUndef, .mbx, .host, .err, .slate, .plans, .arrs, .exclStored, .norm, .normSum, .taint, .tiers, .models, .codec, .spar, .out, .free] l = true) (h : Does l s t)
    (hk : ∀ x y, Does l s y → Does l s (k x y)) : Does l s (withCopy a ue op k t) := by
  unfold withCopy
  refine Does.ite ?_ (withWord_does hl h hk)
  split
  · exact Does.thenVia engineFault_does rfl hl h
  · exact h

theorem endArray_does {a0 a1 a2} {s} :
    Does [.plans] s (endArray a0 a1 a2 s) := by
  refine Does.also (t := s) Does.refl (fun h0 => ?_)
  unfold endArray
  refine Does.then updStep_does rfl ?_
  assumption

theorem settleFetch_does {a0} {s} :
    Does [.plans] s (settleFetch a0 s) := by
  refine Does.also (t := s) Does.refl (fun h0 => ?_)
  unfold settleFetch
  extract_lets +onlyGivenNames y0
  split
  · rename_i x1 x2 x3 x4 x5
    refine Does.ite ?_ ?_
    · refine Does.then endArray_does rfl ?_
      assumption
    · assumption
  · rename_i x6 x7
    assumption

theorem settleHub_does {a0 a1} {s} :
    Does [.plans] s (settleHub a0 a1 s) := by
  refine Does.also (t := s) Does.refl (fun h0 => ?_)
  unfold settleHub
  split
  · rename_i x1 x2 x3
    extract_lets +onlyGivenNames y4
    extract_lets +onlyGivenNames y5
    refine Does.then updStep_does rfl ?_
    assumption
  · rename_i x6 x7
    assumption

theorem updColl_does {a0 a1 a2} {s} :
    Does [.plans] s (updColl a0 a1 a2 s) := by
  refine Does.also (t := s) Does.refl (fun h0 => ?_)
  unfold updColl
  refine Does.then updPlan_does rfl ?_
  assumption

theorem updStrm_does {a0 a1 a2} {s} :
    Does [.plans] s (updStrm a0 a1 a2 s) := by
  refine Does.also (t := s) Does.refl (fun h0 => ?_)
  unfold updStrm
  refine Does.then updPlan_does rfl ?_
  assumption

theorem advance_does {a0} {s} :
    Does [.plans, .arrs] s (advance a0 s) := by
  refine Does.also (t := s) Does.refl (fun h0 => ?_)
  unfold advance
  split
  · rename_i x0 x1
    refine Does.then settleFetch_does rfl ?_
    refine Does.then updArr_does rfl ?_
    assumption
  · rename_i x2 x3
    refine Does.then updArr_does rfl ?_
    assumption
  · rename_i x4 x5 x6
    refine Does.then settleHub_does rfl ?_
    refine Does.then updColl_does rfl ?_
    assumption
  · rename_i x7 x8 x9
    refine Does.then settleHub_does rfl ?_
    refine Does.then updStrm_does rfl ?_
    assumption

theorem hold_does {a0} {s} :
    Does [.plans, .arrs] s (hold a0 s) := by
  refine Does.also (t := s) Does.refl (fun h0 => ?_)
  unfold hold
  split
  · rename_i x0 x1
    refine Does.then updArr_does rfl ?_
    assumption
  · rename_i x2 x3
    refine Does.then updArr_does rfl ?_
    assumption
  · rename_i x4 x5 x6
    refine Does.then updColl_does rfl ?_
    assumption
  · rename_i x7 x8 x9
    refine Does.then updStrm_does rfl ?_
    assumption

theorem issue_does {a0 a1} {s} :
    Does [.plans, .arrs] s (issue a0 a1 s) := by
  refine Does.also (t := s) Does.refl (fun h0 => ?_)
  unfold issue
  extract_lets +onlyGivenNames y0
  refine Does.also (t := y0) ?_ (fun hy0 => ?_)
  · subst y0
    split
    · rename_i x1 x2
      assumption
    · rename_i x3 x4
      refine Does.then updArr_does rfl ?_
      assumption
    · rename_i x5 x6 x7
      refine Does.then updColl_does rfl ?_
      assumption
    · rename_i x8 x9 x10
      refine Does.then updStrm_does rfl ?_
      assumption
  clear_value y0
  revert y0
  refine Does.intro ?_
  intro y0 hy0
  refine Does.then advance_does rfl ?_
  assumption

theorem sigOf_does {a0 a1} {s} :
    Does [.cnt, .plans, .spar, .out] s (sigOf a0 a1 s) := by
  refine Does.also (t := s) Does.refl (fun h0 => ?_)
  unfold sigOf
  refine Does.ite ?_ ?_
  · refine Does.then signalCtr_does rfl ?_
    assumption
  · assumption

theorem execEngineNop_does {a0} {s} {t} (h : (execEngineNop a0 s) = .next t) :
    Does [.fmtSticky, .cnt, .ram, .ramUndef, .mbx, .host, .err, .slate, .plans, .arrs, .exclStored, .norm, .normSum, .taint, .tiers, .models, .codec, .spar, .out, .free] s t := by
  refine Does.also (t := s) Does.refl (fun h0 => ?_)
  unfold execEngineNop at h
  obtain rfl := Host.Outcome.next.inj h
  clear h
  refine withWord_does rfl ?_ (fun c0 z1 hz2 => ?_)
  · assumption
  · refine Does.then advance_does rfl ?_
    assumption

theorem execWait_does {a0} {s} {t} (h : (execWait a0 s) = .next t) :
    Does [.fmtSticky, .cnt, .ram, .ramUndef, .mbx, .host, .err, .slate, .plans, .arrs, .exclStored, .norm, .normSum, .taint, .tiers, .models, .codec, .spar, .out, .free] s t := by
  refine Does.also (t := s) Does.refl (fun h0 => ?_)
  unfold execWait at h
  obtain rfl := Host.Outcome.next.inj h
  clear h
  refine withWord_does rfl ?_ (fun c0 z1 hz2 => ?_)
  · assumption
  · refine Does.ite ?_ ?_
    · refine Does.then advance_does rfl ?_
      assumption
    · refine Does.then hold_does rfl ?_
      assumption

theorem execWaitSatisfied_does {a0} {s} {t} (h : (execWaitSatisfied a0 s) = .next t) :
    Does [.fmtSticky, .cnt, .ram, .ramUndef, .mbx, .host, .err, .slate, .plans, .arrs, .exclStored, .norm, .normSum, .taint, .tiers, .models, .codec, .spar, .out, .free] s t := by
  refine Does.also (t := s) Does.refl (fun h0 => ?_)
  unfold execWaitSatisfied at h
  obtain rfl := Host.Outcome.next.inj h
  clear h
  refine withWord_does rfl ?_ (fun c0 z1 hz2 => ?_)
  · assumption
  · refine Does.ite ?_ ?_
    · refine Does.then advance_does rfl ?_
      assumption
    · assumption

theorem execSignal_does {a0} {s} {t} (h : (execSignal a0 s) = .next t) :
    Does [.fmtSticky, .cnt, .ram, .ramUndef, .mbx, .host, .err, .slate, .plans, .arrs, .exclStored, .norm, .normSum, .taint, .tiers, .models, .codec, .spar, .out, .free] s t := by
  refine Does.also (t := s) Does.refl (fun h0 => ?_)
  unfold execSignal at h
  obtain rfl := Host.Outcome.next.inj h
  clear h
  refine withWord_does rfl ?_ (fun c0 z1 hz2 => ?_)
  · assumption
  · refine Does.ite ?_ ?_
    · assumption
    · refine Does.ite ?_ ?_
      · refine Does.then advance_does rfl ?_
        refine Does.then signalCtr_does rfl ?_
        assumption
      · assumption

theorem execResetCounter_does {a0} {s} {t} (h : (execResetCounter a0 s) = .next t) :
    Does [.fmtSticky, .cnt, .ram, .ramUndef, .mbx, .host, .err, .slate, .plans, .arrs, .exclStored, .norm, .normSum, .taint, .tiers, .models, .codec, .spar, .out, .free] s t := by
  refine Does.also (t := s) Does.refl (fun h0 => ?_)
  unfold execResetCounter at h
  obtain rfl := Host.Outcome.next.inj h
  clear h
  refine withWord_does rfl ?_ (fun c0 z1 hz2 => ?_)
  · assumption
  · refine Does.ite ?_ ?_
    · assumption
    · refine Does.ite ?_ ?_
      · refine Does.then advance_does rfl ?_
        refine Does.then signalCtr_does rfl ?_
        assumption
      · assumption

theorem execAtTime_does {a0} {s} {t} (h : (execAtTime a0 s) = .next t) :
    Does [.fmtSticky, .cnt, .ram, .ramUndef, .mbx, .host, .err, .slate, .plans, .arrs, .exclStored, .norm, .normSum, .taint, .tiers, .models, .codec, .spar, .out, .free] s t := by
  refine Does.also (t := s) Does.refl (fun h0 => ?_)
  unfold execAtTime at h
  obtain rfl := Host.Outcome.next.inj h
  clear h
  refine withWord_does rfl ?_ (fun c0 z1 hz2 => ?_)
  · assumption
  · refine Does.then hold_does rfl ?_
    assumption

theorem bindStep_does {a0 a1 a2 a3 a4 a5} {s} :
    Does [.arrs] s (bindStep a0 a1 a2 a3 a4 a5 s) := by
  refine Does.also (t := s) Does.refl (fun h0 => ?_)
  unfold bindStep
  extract_lets +onlyGivenNames y0
  refine Does.then updArr_does rfl ?_
  assumption

theorem execAtTimeRelease_does {a0 a1} {s} {t} (h : (execAtTimeRelease a0 a1 s) = .next t) :
    Does [.fmtSticky, .cnt, .ram, .ramUndef, .mbx, .host, .tbu, .err, .slate, .plans, .arrs, .exclStored, .norm, .normSum, .taint, .tiers, .models, .codec, .spar, .out, .free] s t := by
  refine Does.also (t := s) Does.refl (fun h0 => ?_)
  unfold execAtTimeRelease at h
  obtain rfl := Host.Outcome.next.inj h
  clear h
  extract_lets +onlyGivenNames y0
  refine Does.also (t := y0) ?_ (fun hy0 => ?_)
  · subst y0
    refine Does.then reachTime_does rfl ?_
    assumption
  clear_value y0
  revert y0
  refine Does.intro ?_
  intro y0 hy0
  extract_lets +onlyGivenNames y1
  refine Does.also (t := y1) ?_ (fun hy1 => ?_)
  · subst y1
    split
    · rename_i x2 x3
      refine Does.ite ?_ ?_
      · split
        · rename_i x4 x5 x6 x7 x8 x9
          split
          · rename_i x10 x11 x12 x13 x14 x15
            refine Does.then hold_does rfl ?_
            refine Does.then bindStep_does rfl ?_
            assumption
          · rename_i x16 x17 x18
            assumption
        · rename_i x19 x20
          assumption
      · assumption
    · rename_i x21 x22
      assumption
  clear_value y1
  revert y1
  refine Does.intro ?_
  intro y1 hy1
  refine withWord_does rfl ?_ (fun c23 z24 hz25 => ?_)
  · assumption
  · split
    · rename_i x26 x27 x28
      refine Does.ite ?_ ?_
      · refine Does.then advance_does rfl ?_
        assumption
      · assumption
    · rename_i x29 x30
      assumption

theorem execEndStep_does {a0} {s} {t} (h : (execEndStep a0 s) = .next t) :
    Does [.fmtSticky, .cnt, .ram, .ramUndef, .mbx, .host, .err, .slate, .plans, .arrs, .exclStored, .norm, .normSum, .taint, .tiers, .models, .codec, .spar, .out, .free] s t := by
  refine Does.also (t := s) Does.refl (fun h0 => ?_)
  unfold execEndStep at h
  obtain rfl := Host.Outcome.next.inj h
  clear h
  refine withWord_does rfl ?_ (fun c0 z1 hz2 => ?_)
  · assumption
  · refine Does.ite ?_ ?_
    · refine Does.then endArray_does rfl ?_
      refine Does.then advance_does rfl ?_
      assumption
    · assumption

theorem execFence_does {a0} {s} {t} (h : (execFence a0 s) = .next t) :
    Does [.fmtSticky, .cnt, .ram, .ramUndef, .mbx, .host, .err, .slate, .plans, .arrs, .exclStored, .norm, .normSum, .taint, .tiers, .models, .codec, .spar, .out, .free] s t := by
  refine Does.also (t := s) Does.refl (fun h0 => ?_)
  unfold execFence at h
  obtain rfl := Host.Outcome.next.inj h
  clear h
  refine withCopy_does rfl ?_ (fun c1 z2 hz3 => ?_)
  · assumption
  · extract_lets +onlyGivenNames y4
    refine Does.ite ?_ ?_
    · refine Does.then advance_does rfl ?_
      assumption
    · assumption

theorem execQueueCopy_does {a0} {s} {t} (h : (execQueueCopy a0 s) = .next t) :
    Does [.fmtSticky, .cnt, .ram, .ramUndef, .mbx, .host, .err, .slate, .plans, .arrs, .exclStored, .norm, .normSum, .taint, .tiers, .models, .codec, .spar, .out, .free] s t := by
  refine Does.also (t := s) Does.refl (fun h0 => ?_)
  unfold execQueueCopy at h
  obtain rfl := Host.Outcome.next.inj h
  clear h
  extract_lets +onlyGivenNames y0
  split
  · rename_i x2 x3 x4 x5 x6
    extract_lets +onlyGivenNames y7
    refine Does.ite ?_ ?_
    · assumption
    · refine Does.ite ?_ ?_
      · split
        · rename_i x8 x9 x10
          refine Does.ite ?_ ?_
          · refine Does.then engineFault_does rfl ?_
            assumption
          · refine Does.ite ?_ ?_
            · refine Does.then advance_does rfl ?_
              refine Does.then updArr_does rfl ?_
              assumption
            · assumption
        · rename_i x11 x12
          assumption
      · refine Does.ite ?_ ?_
        · assumption
        · refine Does.ite ?_ ?_
          · refine Does.then engineFault_does rfl ?_
            assumption
          · refine Does.then updArr_does rfl ?_
            assumption
  · rename_i x13 x14
    assumption

theorem countWait_does {a0 a1 a2} {s} :
    Does [.cnt, .plans] s (countWait a0 a1 a2 s) := by
  refine Does.also (t := s) Does.refl (fun h0 => ?_)
  unfold countWait
  extract_lets +onlyGivenNames y0
  split
  · rename_i x2 x3 x4
    extract_lets +onlyGivenNames y5
    refine Does.ite ?_ ?_
    · assumption
    · refine Does.then countBy_does rfl ?_
      refine Does.then updPlan_does rfl ?_
      assumption
  · rename_i x6 x7
    assumption

theorem refill_does {a0 a1 a2} {s} :
    Does [.arrs] s (refill a0 a1 a2 s) := by
  refine Does.also (t := s) Does.refl (fun h0 => ?_)
  unfold refill
  refine Does.then updArr_does rfl ?_
  assumption

theorem execRegulate_does {a0} {s} {t} (h : (execRegulate a0 s) = .next t) :
    Does [.fmtSticky, .cnt, .ram, .ramUndef, .mbx, .host, .err, .slate, .plans, .arrs, .exclStored, .norm, .normSum, .taint, .tiers, .models, .codec, .spar, .out, .free] s t := by
  refine Does.also (t := s) Does.refl (fun h0 => ?_)
  unfold execRegulate at h
  obtain rfl := Host.Outcome.next.inj h
  clear h
  refine withCopy_does rfl ?_ (fun c1 z2 hz3 => ?_)
  · assumption
  · extract_lets +onlyGivenNames y4
    extract_lets +onlyGivenNames y5
    extract_lets +onlyGivenNames y6
    refine Does.then advance_does rfl ?_
    refine Does.then updArr_does rfl ?_
    refine Does.then refill_does rfl ?_
    assumption

end Sys2Proof.Laws
end

