-- ==== Sys2Proof/Laws/Codec.lean ====
section
/-! SUPPORT. Sys2Proof/Laws/Codec.lean: what each operation and meaning of Machine/Codec.lean can do, as `Does` says it: which blocks of
the state it may change, that it keeps the invariant, and that it lowers nothing that only rises. -/

namespace Sys2Proof.Laws

open Sys2Proof.Machine Sys2Proof.Safety

theorem countBlocks_does {a0 a1} {s} :
    Does [.cnt] s (countBlocks a0 a1 s) := by
  refine Does.also (t := s) Does.refl (fun h0 => ?_)
  unfold countBlocks
  refine Does.then countBy_does rfl ?_
  refine Does.then countBy_does rfl ?_
  refine Does.then countBy_does rfl ?_
  assumption

theorem updTab_does {a0 a1} {s} :
    Does [.codec] s (updTab a0 a1 s) := by
  refine Does.also (t := s) Does.refl (fun h0 => ?_)
  unfold updTab
  extract_lets +onlyGivenNames y0
  refine Does.set_codec rfl _ ?_
  assumption

theorem addXfer_does {a0} {s} :
    Does [.codec] s (addXfer a0 s) := by
  refine Does.also (t := s) Does.refl (fun h0 => ?_)
  unfold addXfer
  extract_lets +onlyGivenNames y0
  refine Does.set_codec rfl _ ?_
  assumption

theorem endXfer_does {a0 a1 a2 a3} {s} :
    Does [.codec] s (endXfer a0 a1 a2 a3 s) := by
  refine Does.also (t := s) Does.refl (fun h0 => ?_)
  unfold endXfer
  extract_lets +onlyGivenNames y0
  refine Does.set_codec rfl _ ?_
  assumption

theorem expandEntry_does {a0 a1 a2 a3} {s} :
    Does [.cnt] s (sndSt (expandEntry a0 a1 a2 a3 s)) := by
  refine Does.also (t := s) Does.refl (fun h0 => ?_)
  unfold expandEntry
  extract_lets +onlyGivenNames y0
  split
  · rename_i x1 x2 x3
    refine Does.snd ?_
    assumption
  · rename_i x4 x5
    refine Does.snd ?_
    refine Does.then count_does rfl ?_
    assumption

theorem takeRef_does {a0 a1} {s} :
    Does [.codec] s (takeRef a0 a1 s) := by
  refine Does.also (t := s) Does.refl (fun h0 => ?_)
  unfold takeRef
  refine Does.then updTab_does rfl ?_
  assumption

theorem startCoded_does {a0 a1 a2 a3 a4 a5} {s} :
    Does [.cnt, .host, .err, .plans, .codec, .out] s (startCoded a0 a1 a2 a3 a4 a5 s) := by
  refine Does.also (t := s) Does.refl (fun h0 => ?_)
  unfold startCoded
  extract_lets +onlyGivenNames y0
  extract_lets +onlyGivenNames y1
  extract_lets +onlyGivenNames y2
  extract_lets +onlyGivenNames y3
  extract_lets +onlyGivenNames y4
  extract_lets +onlyGivenNames y5
  extract_lets +onlyGivenNames y6
  extract_lets +onlyGivenNames y7
  refine Does.also (t := y7) ?_ (fun hy7 => ?_)
  · subst y7
    refine Does.then addXfer_does rfl ?_
    assumption
  clear_value y7
  revert y7
  refine Does.intro ?_
  intro y7 hy7
  extract_lets +onlyGivenNames y8
  refine Does.also (t := y8) ?_ (fun hy8 => ?_)
  · subst y8
    refine Does.then count_does rfl ?_
    assumption
  clear_value y8
  revert y8
  refine Does.intro ?_
  intro y8 hy8
  refine Does.ite ?_ ?_
  · split
    · rename_i x9 x10 x11
      refine Does.ite ?_ ?_
      · assumption
      · refine Does.then record_does rfl ?_
        refine Does.then updStep_does rfl ?_
        assumption
    · rename_i x12 x13
      assumption
  · refine Does.ite ?_ ?_
    · refine Does.then count_does rfl ?_
      assumption
    · assumption

theorem finishCoded_does {l} {s t} {a i obj dva data put} (hl : sub [.cnt, .codec] l = true) (h : Does l s t)
    (hk : ∀ n b y, Does l s y → Does l s (put n b y)) : Does l s (finishCoded a i obj dva data put t) := by
  unfold finishCoded
  split
  · exact h
  · extract_lets s1 blocks s2 s3
    have h1 : Does l s s1 := Does.ite (Does.thenVia (n := [.cnt, .codec]) count_does rfl hl (Does.thenVia (n := [.cnt, .codec]) updTab_does rfl hl h)) h
    have h2 : Does l s s2 := Does.ite (Does.thenVia (n := [.cnt, .codec]) takeRef_does rfl hl h1) h1
    have h3 : Does l s s3 := Does.thenVia (n := [.cnt, .codec]) countBlocks_does rfl hl h2
    refine Does.thenVia (n := [.cnt, .codec]) endXfer_does rfl hl (Does.ofSnd (Does.foldl2 ?_ h3))
    exact fun x b hx => hk _ _ _ hx

theorem setKey_does {a0 a1 a2} {s} :
    Does [.plans] s (setKey a0 a1 a2 s) := by
  refine Does.also (t := s) Does.refl (fun h0 => ?_)
  unfold setKey
  refine Does.then updPlan_does rfl ?_
  assumption

theorem linkBlocks_does {a0 a1 a2 a3} {s} :
    Does [.cnt, .codec] s (sndSt (linkBlocks a0 a1 a2 a3 s)) := by
  refine Does.also (t := s) Does.refl (fun h0 => ?_)
  unfold linkBlocks
  extract_lets +onlyGivenNames y0
  extract_lets +onlyGivenNames y1
  extract_lets +onlyGivenNames y2
  split
  rename_i x4 x5 x6 x7 x8
  extract_lets +onlyGivenNames y9
  extract_lets +onlyGivenNames y10
  extract_lets +onlyGivenNames y11
  refine Does.also (t := y11) ?_ (fun hy11 => ?_)
  · subst y11
    refine Does.set_codec rfl _ ?_
    assumption
  clear_value y11
  revert y11
  refine Does.intro ?_
  intro y11 hy11
  refine Does.snd ?_
  refine Does.then countBlocks_does rfl ?_
  assumption

end Sys2Proof.Laws
end

