-- ==== Sys2Proof/Laws/Fetch.lean ====
section
/-! SUPPORT. Sys2Proof/Laws/Fetch.lean: what each operation and meaning of Machine/Fetch.lean can do, as `Does` says it: which blocks of
the state it may change, that it keeps the invariant, and that it lowers nothing that only rises. -/

namespace Sys2Proof.Laws

open Sys2Proof.Machine Sys2Proof.Safety

theorem putStore_does {a0 a1 a2 a3} {s} :
    Does [.ram, .ramUndef, .taint] s (putStore a0 a1 a2 a3 s) := by
  refine Does.also (t := s) Does.refl (fun h0 => ?_)
  unfold putStore
  refine Does.then setTaint_does rfl ?_
  refine Does.then storeWr_does rfl ?_
  assumption

theorem updRun_does {a0 a1 a2} {s} :
    Does [.arrs] s (updRun a0 a1 a2 s) := by
  refine Does.also (t := s) Does.refl (fun h0 => ?_)
  unfold updRun
  refine Does.then updArr_does rfl ?_
  assumption

theorem putScales_does {a0 a1 a2 a3} {s} :
    Does [.ram, .ramUndef, .taint] s (putScales a0 a1 a2 a3 s) := by
  refine Does.also (t := s) Does.refl (fun h0 => ?_)
  unfold putScales
  refine Does.then putStore_does rfl ?_
  assumption

theorem landEntry_does {a0 a1 a2 a3} {s} :
    Does [.fmtSticky, .cnt, .ram, .ramUndef, .mbx, .host, .err, .slate, .plans, .arrs, .exclStored, .norm, .normSum, .taint, .tiers, .models, .codec, .spar, .out, .free] s (landEntry a0 a1 a2 a3 s) := by
  refine Does.also (t := s) Does.refl (fun h0 => ?_)
  unfold landEntry
  extract_lets +onlyGivenNames y0
  extract_lets +onlyGivenNames y1
  extract_lets +onlyGivenNames y2
  refine Does.also (t := y2) ?_ (fun hy2 => ?_)
  · subst y2
    refine Does.ite ?_ ?_
    · refine Does.then putScales_does rfl ?_
      assumption
    · assumption
  clear_value y2
  revert y2
  refine Does.intro ?_
  intro y2 hy2
  refine Does.ite ?_ ?_
  · refine Does.ite ?_ ?_
    · refine Does.then engineFault_does rfl ?_
      assumption
    · refine Does.then updRun_does rfl ?_
      refine Does.then updArr_does rfl ?_
      assumption
  · refine Does.then updRun_does rfl ?_
    refine forEach_does ?_ (fun a3 z4 hz5 => ?_)
    · assumption
    · refine Does.then putStore_does rfl ?_
      assumption

theorem landAll_does {a h idx : Nat} : ∀ {n : Nat} {s}, Does [.fmtSticky, .cnt, .ram, .ramUndef, .mbx, .host, .err, .slate, .plans, .arrs, .exclStored, .norm, .normSum, .taint, .tiers, .models, .codec, .spar, .out, .free] s (landAll a h idx n s)
  | 0, _ => Does.refl
  | n + 1, s => by
    unfold landAll
    split
    · split
      · exact Does.ite (Does.trans landEntry_does landAll_does) Does.refl
      · exact Does.refl
    · exact Does.refl

theorem settleRun_does {a0 a1 a2} {s} :
    Does [.fmtSticky, .cnt, .ram, .ramUndef, .mbx, .host, .err, .slate, .plans, .arrs, .exclStored, .norm, .normSum, .taint, .tiers, .models, .codec, .spar, .out, .free] s (settleRun a0 a1 a2 s) := by
  refine Does.also (t := s) Does.refl (fun h0 => ?_)
  unfold settleRun
  extract_lets +onlyGivenNames y0
  refine Does.also (t := y0) ?_ (fun hy0 => ?_)
  · subst y0
    split
    · rename_i x1 x2 x3
      refine Does.then landAll_does rfl ?_
      assumption
    · rename_i x4 x5
      assumption
  clear_value y0
  revert y0
  refine Does.intro ?_
  intro y0 hy0
  split
  · rename_i x6 x7 x8
    refine Does.ite ?_ ?_
    · refine Does.then settleFetch_does rfl ?_
      refine Does.then sigOf_does rfl ?_
      refine Does.then updArr_does rfl ?_
      assumption
    · assumption
  · rename_i x9 x10
    assumption

theorem fallbackData_does {a0 a1 a2} {s} :
    Does [.cnt, .host, .err, .slate, .tiers, .models, .spar, .out] s (sndSt (fallbackData a0 a1 a2 s)) := by
  refine Does.also (t := s) Does.refl (fun h0 => ?_)
  unfold fallbackData
  split
  · rename_i x1
    refine Does.snd ?_
    refine Does.then count_does rfl ?_
    assumption
  · rename_i x2 x3
    extract_lets +onlyGivenNames y4
    refine Does.also (t := y4.2) ?_ (fun hy4 => ?_)
    · refine Does.ofSnd ?_
      subst y4
      refine Does.then planFetch_does rfl ?_
      assumption
    clear_value y4
    revert y4
    refine Does.intro2 ?_
    intro y4 hy4
    split
    · rename_i x5 x6 x7 x8
      refine Does.snd ?_
      refine Does.then count_does rfl ?_
      assumption
    · rename_i x9 x10
      refine Does.snd ?_
      refine Does.then count_does rfl ?_
      assumption

theorem takeFallback_does {a0 a1 a2 a3 a4} {s} :
    Does [.fmtSticky, .cnt, .ram, .ramUndef, .mbx, .host, .err, .slate, .plans, .arrs, .exclStored, .norm, .normSum, .taint, .tiers, .models, .codec, .spar, .out, .free] s (takeFallback a0 a1 a2 a3 a4 s) := by
  refine Does.also (t := s) Does.refl (fun h0 => ?_)
  unfold takeFallback
  split
  · rename_i x1 x2 x3 x4 x5 x6
    split
    · rename_i x8 x9 x10
      extract_lets +onlyGivenNames y11
      extract_lets +onlyGivenNames y12
      refine Does.also (t := y12.2) ?_ (fun hy12 => ?_)
      · refine Does.ofSnd ?_
        subst y12
        refine Does.then fallbackData_does rfl ?_
        assumption
      clear_value y12
      revert y12
      refine Does.intro2 ?_
      intro y12 hy12
      extract_lets +onlyGivenNames y13
      refine Does.also (t := y13) ?_ (fun hy13 => ?_)
      · subst y13
        refine Does.ite ?_ ?_
        · refine Does.then flagAll_does rfl ?_
          assumption
        · refine Does.then flagRow_does rfl ?_
          assumption
      clear_value y13
      revert y13
      refine Does.intro ?_
      intro y13 hy13
      extract_lets +onlyGivenNames y14
      refine Does.also (t := y14) ?_ (fun hy14 => ?_)
      · subst y14
        refine Does.ite ?_ ?_
        · refine Does.then updArr_does rfl ?_
          assumption
        · assumption
      clear_value y14
      revert y14
      refine Does.intro ?_
      intro y14 hy14
      extract_lets +onlyGivenNames y15
      refine Does.then settleRun_does rfl ?_
      refine Does.then updRun_does rfl ?_
      refine Does.then endXfer_does rfl ?_
      assumption
    · rename_i x16 x17
      assumption
  · rename_i x18 x19 x20
    assumption

theorem beginRun_does {a0 a1 a2} {s} :
    Does [.fmtSticky, .cnt, .ram, .ramUndef, .mbx, .host, .err, .slate, .plans, .arrs, .exclStored, .norm, .normSum, .taint, .tiers, .models, .codec, .spar, .out, .free] s (beginRun a0 a1 a2 s) := by
  refine Does.also (t := s) Does.refl (fun h0 => ?_)
  unfold beginRun
  refine Does.then settleRun_does rfl ?_
  refine Does.then advance_does rfl ?_
  refine Does.then updArr_does rfl ?_
  assumption

theorem execFetchList_does {a0} {s} {t} (h : (execFetchList a0 s) = .next t) :
    Does [.fmtSticky, .cnt, .ram, .ramUndef, .mbx, .host, .err, .slate, .plans, .arrs, .exclStored, .norm, .normSum, .taint, .tiers, .models, .codec, .spar, .out, .free] s t := by
  refine Does.also (t := s) Does.refl (fun h0 => ?_)
  unfold execFetchList at h
  obtain rfl := Host.Outcome.next.inj h
  clear h
  refine withCopy_does rfl ?_ (fun c1 z2 hz3 => ?_)
  · assumption
  · extract_lets +onlyGivenNames y4
    refine Does.then beginRun_does rfl ?_
    assumption

theorem execMulticast_does {a0} {s} {t} (h : (execMulticast a0 s) = .next t) :
    Does [.fmtSticky, .cnt, .ram, .ramUndef, .mbx, .host, .err, .slate, .plans, .arrs, .exclStored, .norm, .normSum, .taint, .tiers, .models, .codec, .spar, .out, .free] s t := by
  refine Does.also (t := s) Does.refl (fun h0 => ?_)
  unfold execMulticast at h
  obtain rfl := Host.Outcome.next.inj h
  clear h
  refine withCopy_does rfl ?_ (fun c1 z2 hz3 => ?_)
  · assumption
  · extract_lets +onlyGivenNames y4
    refine Does.then beginRun_does rfl ?_
    assumption

theorem execKvFetch_does {a0} {s} {t} (h : (execKvFetch a0 s) = .next t) :
    Does [.fmtSticky, .cnt, .ram, .ramUndef, .mbx, .host, .err, .slate, .plans, .arrs, .exclStored, .norm, .normSum, .taint, .tiers, .models, .codec, .spar, .out, .free] s t := by
  refine Does.also (t := s) Does.refl (fun h0 => ?_)
  unfold execKvFetch at h
  obtain rfl := Host.Outcome.next.inj h
  clear h
  refine withCopy_does rfl ?_ (fun c1 z2 hz3 => ?_)
  · assumption
  · extract_lets +onlyGivenNames y4
    extract_lets +onlyGivenNames y5
    split
    · rename_i x6 x7
      refine Does.then beginRun_does rfl ?_
      assumption
    · rename_i x8 x9 x10
      split
      · rename_i x11 x12 x13 x14 x15 x16
        split
        · rename_i x17 x18 x19
          refine Does.ite ?_ ?_
          · refine Does.then engineFault_does rfl ?_
            assumption
          · refine Does.then beginRun_does rfl ?_
            assumption
        · rename_i x20 x21
          refine Does.then beginRun_does rfl ?_
          assumption
      · rename_i x22 x23 x24
        refine Does.then beginRun_does rfl ?_
        assumption

theorem startRead_does {a0 a1 a2 a3} {s} :
    Does [.codec] s (startRead a0 a1 a2 a3 s) := by
  refine Does.also (t := s) Does.refl (fun h0 => ?_)
  unfold startRead
  refine Does.ite ?_ ?_
  · refine Does.then addXfer_does rfl ?_
    assumption
  · assumption

theorem execBucketRequestIssue_does {a0 a1 a2 a3} {s} {t} (h : (execBucketRequestIssue a0 a1 a2 a3 s) = .next t) :
    Does [.fmtSticky, .cnt, .ram, .ramUndef, .mbx, .host, .tbu, .err, .slate, .plans, .arrs, .exclStored, .norm, .normSum, .taint, .tiers, .models, .codec, .spar, .out, .free] s t := by
  refine Does.also (t := s) Does.refl (fun h0 => ?_)
  unfold execBucketRequestIssue at h
  obtain rfl := Host.Outcome.next.inj h
  clear h
  extract_lets +onlyGivenNames y0
  refine Does.also (t := y0) ?_ (fun hy0 => ?_)
  · subst y0
    refine Does.then reachTime_does rfl ?_
    assumption
  clear_value y0
  revert y0
  refine Does.intro ?_
  intro y0 hy0
  split
  · rename_i x2 x3 x4 x5 x6 x7 x8 x9
    extract_lets +onlyGivenNames y10
    split
    · rename_i x12 x13 x14
      split
      · rename_i x16 x17
        assumption
      · rename_i x18 x19 x20 x21
        extract_lets +onlyGivenNames y22
        extract_lets +onlyGivenNames y23
        extract_lets +onlyGivenNames y24
        extract_lets +onlyGivenNames y25
        extract_lets +onlyGivenNames y26
        refine Does.also (t := y26) ?_ (fun hy26 => ?_)
        · subst y26
          refine Does.then countWait_does rfl ?_
          assumption
        clear_value y26
        revert y26
        refine Does.intro ?_
        intro y26 hy26
        extract_lets +onlyGivenNames y27
        refine Does.also (t := y27) ?_ (fun hy27 => ?_)
        · subst y27
          refine Does.then refill_does rfl ?_
          assumption
        clear_value y27
        revert y27
        refine Does.intro ?_
        intro y27 hy27
        extract_lets +onlyGivenNames y28
        refine Does.also (t := y28) ?_ (fun hy28 => ?_)
        · subst y28
          refine Does.then updArr_does rfl ?_
          assumption
        clear_value y28
        revert y28
        refine Does.intro ?_
        intro y28 hy28
        extract_lets +onlyGivenNames y29
        refine Does.also (t := y29) ?_ (fun hy29 => ?_)
        · subst y29
          refine Does.then updRun_does rfl ?_
          refine Does.then startRead_does rfl ?_
          assumption
        clear_value y29
        revert y29
        refine Does.intro ?_
        intro y29 hy29
        extract_lets +onlyGivenNames y30
        refine Does.also (t := y30) ?_ (fun hy30 => ?_)
        · subst y30
          refine Does.ite ?_ ?_
          · refine Does.then record_does rfl ?_
            refine Does.then updStep_does rfl ?_
            assumption
          · assumption
        clear_value y30
        revert y30
        refine Does.intro ?_
        intro y30 hy30
        refine Does.ite ?_ ?_
        · assumption
        · refine Does.ite ?_ ?_
          · assumption
          · split
            · rename_i x31 x32 x33
              refine Does.also (t := x32) (Does.pair x33 ?_) (fun hx32 => ?_)
              · refine Does.then planFetch_does rfl ?_
                assumption
              refine Does.then takeFallback_does rfl ?_
              refine Does.then updRun_does rfl ?_
              assumption
            · rename_i x34 x35 x36 x37 x38
              refine Does.also (t := x37) (Does.pair x38 ?_) (fun hx37 => ?_)
              · refine Does.then planFetch_does rfl ?_
                assumption
              refine Does.then updRun_does rfl ?_
              assumption
    · rename_i x39 x40
      assumption
  · rename_i x41 x42 x43
    assumption

theorem execFetchEntryArrival_does {a0 a1 a2 a3} {s} {t} (h : (execFetchEntryArrival a0 a1 a2 a3 s) = .next t) :
    Does [.fmtSticky, .cnt, .ram, .ramUndef, .mbx, .host, .tbu, .err, .slate, .plans, .arrs, .exclStored, .norm, .normSum, .taint, .tiers, .models, .codec, .spar, .out, .free] s t := by
  refine Does.also (t := s) Does.refl (fun h0 => ?_)
  unfold execFetchEntryArrival at h
  obtain rfl := Host.Outcome.next.inj h
  clear h
  extract_lets +onlyGivenNames y0
  refine Does.also (t := y0) ?_ (fun hy0 => ?_)
  · subst y0
    refine Does.then reachTime_does rfl ?_
    assumption
  clear_value y0
  revert y0
  refine Does.intro ?_
  intro y0 hy0
  split
  · rename_i x2 x3 x4 x5 x6 x7 x8 x9
    split
    · rename_i x11 x12 x13
      extract_lets +onlyGivenNames y14
      extract_lets +onlyGivenNames y15
      extract_lets +onlyGivenNames y16
      refine Does.also (t := y16) ?_ (fun hy16 => ?_)
      · subst y16
        refine Does.ite ?_ ?_
        · refine Does.then count_does rfl ?_
          assumption
        · assumption
      clear_value y16
      revert y16
      refine Does.intro ?_
      intro y16 hy16
      extract_lets +onlyGivenNames y17
      refine Does.ite ?_ ?_
      · assumption
      · refine Does.ite ?_ ?_
        · refine Does.then count_does rfl ?_
          refine Does.then updArr_does rfl ?_
          refine Does.then takeFallback_does rfl ?_
          assumption
        · split
          rename_i x21 x22 x23 x24
          refine Does.also (t := x23) (Does.pair x24 ?_) (fun hx23 => ?_)
          · refine Does.ite2 ?_ ?_
            · refine Does.then expandEntry_does rfl ?_
              assumption
            · refine Does.snd ?_
              assumption
          extract_lets +onlyGivenNames y25
          refine Does.also (t := y25) ?_ (fun hy25 => ?_)
          · subst y25
            refine Does.ite ?_ ?_
            · refine Does.then flagAll_does rfl ?_
              assumption
            · assumption
          clear_value y25
          revert y25
          refine Does.intro ?_
          intro y25 hy25
          extract_lets +onlyGivenNames y26
          refine Does.also (t := y26) ?_ (fun hy26 => ?_)
          · subst y26
            refine Does.ite ?_ ?_
            · assumption
            · refine Does.ite ?_ ?_
              · refine Does.then flagAll_does rfl ?_
                assumption
              · refine Does.then flagRow_does rfl ?_
                assumption
          clear_value y26
          revert y26
          refine Does.intro ?_
          intro y26 hy26
          split
          · rename_i x28
            refine Does.then takeFallback_does rfl ?_
            assumption
          · rename_i x29 x30
            extract_lets +onlyGivenNames y31
            refine Does.then settleRun_does rfl ?_
            refine Does.then updRun_does rfl ?_
            refine Does.then endXfer_does rfl ?_
            assumption
    · rename_i x32 x33
      assumption
  · rename_i x34 x35 x36
    assumption

theorem execFetchEntryError_does {a0 a1 a2} {s} {t} (h : (execFetchEntryError a0 a1 a2 s) = .next t) :
    Does [.fmtSticky, .cnt, .ram, .ramUndef, .mbx, .host, .err, .slate, .plans, .arrs, .exclStored, .norm, .normSum, .taint, .tiers, .models, .codec, .spar, .out, .free] s t := by
  refine Does.also (t := s) Does.refl (fun h0 => ?_)
  unfold execFetchEntryError at h
  obtain rfl := Host.Outcome.next.inj h
  clear h
  split
  · rename_i x0 x1 x2 x3 x4 x5 x6 x7
    split
    · rename_i x8 x9 x10
      refine Does.ite ?_ ?_
      · refine Does.then takeFallback_does rfl ?_
        assumption
      · assumption
    · rename_i x11 x12
      assumption
  · rename_i x13 x14 x15
    assumption

theorem execFallbackDeadline_does {a0 a1 a2 a3} {s} {t} (h : (execFallbackDeadline a0 a1 a2 a3 s) = .next t) :
    Does [.fmtSticky, .cnt, .ram, .ramUndef, .mbx, .host, .tbu, .err, .slate, .plans, .arrs, .exclStored, .norm, .normSum, .taint, .tiers, .models, .codec, .spar, .out, .free] s t := by
  refine Does.also (t := s) Does.refl (fun h0 => ?_)
  unfold execFallbackDeadline at h
  obtain rfl := Host.Outcome.next.inj h
  clear h
  extract_lets +onlyGivenNames y0
  refine Does.also (t := y0) ?_ (fun hy0 => ?_)
  · subst y0
    refine Does.then reachTime_does rfl ?_
    assumption
  clear_value y0
  revert y0
  refine Does.intro ?_
  intro y0 hy0
  split
  · rename_i x1 x2 x3 x4 x5 x6 x7 x8
    split
    · rename_i x9 x10 x11
      refine Does.ite ?_ ?_
      · refine Does.then takeFallback_does rfl ?_
        assumption
      · assumption
    · rename_i x12 x13
      assumption
  · rename_i x14 x15 x16
    assumption

theorem execLateEntryDrop_does {a0 a1 a2} {s} {t} (h : (execLateEntryDrop a0 a1 a2 s) = .next t) :
    Does [.cnt, .arrs] s t := by
  refine Does.also (t := s) Does.refl (fun h0 => ?_)
  unfold execLateEntryDrop at h
  obtain rfl := Host.Outcome.next.inj h
  clear h
  split
  · rename_i x0 x1 x2
    refine Does.then count_does rfl ?_
    refine Does.then updArr_does rfl ?_
    assumption
  · rename_i x3 x4
    assumption

end Sys2Proof.Laws
end

