-- ==== Sys2Proof/Laws/Sweep.lean ====
section
/-! SUPPORT. Sys2Proof/Laws/Sweep.lean: what each operation and meaning of Machine/Sweep.lean can do, as `Does` says it: which blocks of
the state it may change, that it keeps the invariant, and that it lowers nothing that only rises. -/

namespace Sys2Proof.Laws

open Sys2Proof.Machine Sys2Proof.Safety

theorem countFmt_does {a0 a1} {s} :
    Does [.fmtSticky, .cnt] s (countFmt a0 a1 s) := by
  refine Does.also (t := s) Does.refl (fun h0 => ?_)
  unfold countFmt
  extract_lets +onlyGivenNames y0
  refine Does.also (t := y0) ?_ (fun hy0 => ?_)
  · subst y0
    refine Does.then countBy_does rfl ?_
    refine Does.then countBy_does rfl ?_
    refine Does.then countBy_does rfl ?_
    refine Does.then countBy_does rfl ?_
    refine Does.then countBy_does rfl ?_
    assumption
  clear_value y0
  revert y0
  refine Does.intro ?_
  intro y0 hy0
  refine Does.then stick_does rfl ?_
  refine Does.then stick_does rfl ?_
  refine Does.then stick_does rfl ?_
  refine Does.then stick_does rfl ?_
  assumption

theorem waitCycles_does {a0} {s} :
    Does [.cnt, .free] s (waitCycles a0 s) := by
  refine Does.also (t := s) Does.refl (fun h0 => ?_)
  unfold waitCycles
  extract_lets +onlyGivenNames y0
  refine Does.also (t := y0.2) ?_ (fun hy0 => ?_)
  · refine Does.ofSnd ?_
    subst y0
    refine Does.then drawWord_does rfl ?_
    assumption
  clear_value y0
  revert y0
  refine Does.intro2 ?_
  intro y0 hy0
  refine Does.then countBy_does rfl ?_
  assumption

theorem updProg_does {a0 a1 a2} {s} :
    Does [.arrs] s (updProg a0 a1 a2 s) := by
  refine Does.also (t := s) Does.refl (fun h0 => ?_)
  unfold updProg
  refine Does.then updArr_does rfl ?_
  assumption

theorem putSweep_does {a0 a1 a2 a3 a4} {s} :
    Does [.fmtSticky, .cnt, .arrs] s (putSweep a0 a1 a2 a3 a4 s) := by
  refine Does.also (t := s) Does.refl (fun h0 => ?_)
  unfold putSweep
  extract_lets +onlyGivenNames y0
  extract_lets +onlyGivenNames y1
  refine Does.then countFmt_does rfl ?_
  refine Does.then updProg_does rfl ?_
  refine Does.then updArr_does rfl ?_
  assumption

theorem excludeCell_does {a0 a1} {s} :
    Does [.cnt, .host, .err, .arrs, .out] s (excludeCell a0 a1 s) := by
  refine Does.also (t := s) Does.refl (fun h0 => ?_)
  unfold excludeCell
  extract_lets +onlyGivenNames y0
  refine Does.ite ?_ ?_
  · assumption
  · refine Does.then record_does rfl ?_
    refine Does.then count_does rfl ?_
    refine Does.then updArr_does rfl ?_
    assumption

theorem eccHit_does {a0 a1 a2 a3} {s} :
    Does [.cnt, .host, .err, .arrs, .out] s (eccHit a0 a1 a2 a3 s) := by
  refine Does.also (t := s) Does.refl (fun h0 => ?_)
  unfold eccHit
  extract_lets +onlyGivenNames y0
  extract_lets +onlyGivenNames y1
  extract_lets +onlyGivenNames y2
  refine Does.also (t := y2) ?_ (fun hy2 => ?_)
  · subst y2
    refine Does.then updArr_does rfl ?_
    assumption
  clear_value y2
  revert y2
  refine Does.intro ?_
  intro y2 hy2
  extract_lets +onlyGivenNames y3
  refine Does.also (t := y3) ?_ (fun hy3 => ?_)
  · subst y3
    refine Does.then record_does rfl ?_
    refine Does.then count_does rfl ?_
    assumption
  clear_value y3
  revert y3
  refine Does.intro ?_
  intro y3 hy3
  extract_lets +onlyGivenNames y4
  refine Does.ite ?_ ?_
  · assumption
  · refine Does.ite ?_ ?_
    · refine Does.then count_does rfl ?_
      assumption
    · split
      · rename_i x5 x6
        refine Does.then updArr_does rfl ?_
        assumption
      · rename_i x7 x8 x9
        refine Does.ite ?_ ?_
        · assumption
        · refine Does.then excludeCell_does rfl ?_
          assumption

theorem sweepEcc_does {a0 a1} {s} :
    Does [.cnt, .host, .err, .arrs, .out] s (sweepEcc a0 a1 s) := by
  refine Does.also (t := s) Does.refl (fun h0 => ?_)
  unfold sweepEcc
  extract_lets +onlyGivenNames y0
  refine forEach_does ?_ (fun a1 z2 hz3 => ?_)
  · assumption
  · refine Does.then eccHit_does rfl ?_
    assumption

theorem recordUnmapped_does {a0 a1 a2} {s} :
    Does [.cnt, .host, .err, .arrs, .out] s (recordUnmapped a0 a1 a2 s) := by
  refine Does.also (t := s) Does.refl (fun h0 => ?_)
  unfold recordUnmapped
  extract_lets +onlyGivenNames y0
  split
  · rename_i x1 x2 x3
    refine Does.then record_does rfl ?_
    refine Does.then updArr_does rfl ?_
    assumption
  · rename_i x4 x5
    assumption

theorem applySlateLine_does {a0 a1 a2} {s} :
    Does [.fmtSticky, .cnt, .host, .err, .arrs, .out] s (applySlateLine a0 a1 a2 s) := by
  refine Does.also (t := s) Does.refl (fun h0 => ?_)
  unfold applySlateLine
  extract_lets +onlyGivenNames y0
  refine Does.also (t := y0) ?_ (fun hy0 => ?_)
  · subst y0
    refine Does.then sweepEcc_does rfl ?_
    refine Does.then recordUnmapped_does rfl ?_
    assumption
  clear_value y0
  revert y0
  refine Does.intro ?_
  intro y0 hy0
  extract_lets +onlyGivenNames y1
  refine Does.then putSweep_does rfl ?_
  assumption

theorem reconWait_does {a0 a1 a2 a3 a4} {s} :
    Does [.cnt] s (reconWait a0 a1 a2 a3 a4 s) := by
  refine Does.also (t := s) Does.refl (fun h0 => ?_)
  unfold reconWait
  refine Does.ite ?_ ?_
  · refine Does.then countBy_does rfl ?_
    assumption
  · assumption

theorem applyHead_does {a0} {s} :
    Does [.fmtSticky, .cnt, .host, .err, .arrs, .out] s (applyHead a0 s) := by
  refine Does.also (t := s) Does.refl (fun h0 => ?_)
  unfold applyHead
  extract_lets +onlyGivenNames y0
  extract_lets +onlyGivenNames y1
  split
  · rename_i x3 x4 x5 x6 x7 x8 x9
    extract_lets +onlyGivenNames y10
    extract_lets +onlyGivenNames y11
    refine Does.ite ?_ ?_
    · assumption
    · refine Does.then updArr_does rfl ?_
      refine Does.then reconWait_does rfl ?_
      refine Does.then applySlateLine_does rfl ?_
      assumption
  · rename_i x12 x13 x14
    assumption

theorem freeHead_does {a0} {s} :
    Does [.arrs] s (freeHead a0 s) := by
  refine Does.also (t := s) Does.refl (fun h0 => ?_)
  unfold freeHead
  refine Does.then updArr_does rfl ?_
  assumption

theorem settleLatch_does {a0 a1} : ∀ {a2} {s}, Does [.fmtSticky, .cnt, .host, .err, .arrs, .out] s (settleLatch a0 a1 a2 s)
  | 0, s => by exact Does.refl
  | n + 1, s => by
    unfold settleLatch
    extract_lets s1
    have h1 : Does [.fmtSticky, .cnt, .host, .err, .arrs, .out] s s1 := applyHead_does.mono rfl
    clear_value s1
    split
    · split
      · exact Does.ite ((Does.then freeHead_does rfl h1).trans settleLatch_does) h1
      · exact h1
    · exact h1

theorem flushLatch_does {a0} : ∀ {a1} {s}, Does [.fmtSticky, .cnt, .host, .err, .arrs, .out] s (flushLatch a0 a1 s)
  | 0, s => by exact Does.refl
  | n + 1, s => by
    unfold flushLatch
    extract_lets s1
    have h1 : Does [.fmtSticky, .cnt, .host, .err, .arrs, .out] s s1 := applyHead_does.mono rfl
    clear_value s1
    split
    · exact Does.ite ((Does.then freeHead_does rfl h1).trans flushLatch_does) h1
    · exact h1

theorem applyRound_does {a0 a1 a2} {s} :
    Does [.fmtSticky, .cnt, .host, .err, .arrs, .out, .free] s (applyRound a0 a1 a2 s) := by
  refine Does.also (t := s) Does.refl (fun h0 => ?_)
  unfold applyRound
  extract_lets +onlyGivenNames y0
  extract_lets +onlyGivenNames y1
  extract_lets +onlyGivenNames y2
  refine Does.also (t := y2) ?_ (fun hy2 => ?_)
  · subst y2
    refine Does.then waitCycles_does rfl ?_
    refine Does.then sweepEcc_does rfl ?_
    assumption
  clear_value y2
  revert y2
  refine Does.intro ?_
  intro y2 hy2
  refine Does.then putSweep_does rfl ?_
  assumption

theorem portPump_does {a0} {s} :
    Does [.fmtSticky, .cnt, .host, .err, .arrs, .out, .free] s (portPump a0 s) := by
  refine Does.also (t := s) Does.refl (fun h0 => ?_)
  unfold portPump
  split
  · rename_i x1 x2 x3
    extract_lets +onlyGivenNames y4
    refine Does.ite ?_ ?_
    · refine Does.then applyRound_does rfl ?_
      assumption
    · assumption
  · rename_i x5 x6
    assumption

theorem execStreamPortLineWrite_does {a0} {s} {t} (h : (execStreamPortLineWrite a0 s) = .next t) :
    Does [.fmtSticky, .cnt, .host, .err, .arrs, .out, .free] s t := by
  refine Does.also (t := s) Does.refl (fun h0 => ?_)
  unfold execStreamPortLineWrite at h
  obtain rfl := Host.Outcome.next.inj h
  clear h
  extract_lets +onlyGivenNames y0
  split
  · rename_i x2 x3
    assumption
  · rename_i x4 x5 x6 x7
    extract_lets +onlyGivenNames y8
    refine Does.ite ?_ ?_
    · refine Does.then updArr_does rfl ?_
      assumption
    · split
      · rename_i x9 x10 x11
        refine Does.ite ?_ ?_
        · refine Does.then updArr_does rfl ?_
          assumption
        · refine Does.ite ?_ ?_
          · refine Does.then portPump_does rfl ?_
            refine Does.then updProg_does rfl ?_
            refine Does.then updArr_does rfl ?_
            assumption
          · assumption
      · rename_i x12 x13
        assumption

theorem portRest_does {a0 a1} : ∀ {a2} {s}, Does [.fmtSticky, .cnt, .host, .err, .arrs, .out, .free] s (portRest a0 a1 a2 s)
  | 0, s => by exact Does.refl
  | n + 1, s => by
    unfold portRest
    split
    · exact Does.refl
    · extract_lets d
      exact Does.ite ((applyRound_does.mono rfl).trans portRest_does) Does.refl

theorem portSweep_does {a0 a1} {s} :
    Does [.fmtSticky, .cnt, .host, .err, .arrs, .out, .free] s (portSweep a0 a1 s) := by
  refine Does.also (t := s) Does.refl (fun h0 => ?_)
  unfold portSweep
  extract_lets +onlyGivenNames y0
  extract_lets +onlyGivenNames y1
  extract_lets +onlyGivenNames y2
  refine Does.also (t := y2) ?_ (fun hy2 => ?_)
  · subst y2
    refine Does.then portRest_does rfl ?_
    assumption
  clear_value y2
  revert y2
  refine Does.intro ?_
  intro y2 hy2
  extract_lets +onlyGivenNames y3
  extract_lets +onlyGivenNames y4
  refine Does.also (t := y4) ?_ (fun hy4 => ?_)
  · subst y4
    split
    · rename_i x6 x7 x8
      extract_lets +onlyGivenNames y9
      extract_lets +onlyGivenNames y10
      refine Does.then countFmt_does rfl ?_
      refine Does.then updArr_does rfl ?_
      assumption
    · rename_i x11 x12
      assumption
  clear_value y4
  revert y4
  refine Does.intro ?_
  intro y4 hy4
  refine Does.then updArr_does rfl ?_
  assumption

theorem exclLoss_does {a0 a1} {s} :
    Does [.models] s (exclLoss a0 a1 s) := by
  refine Does.also (t := s) Does.refl (fun h0 => ?_)
  unfold exclLoss
  extract_lets +onlyGivenNames y0
  refine Does.ite ?_ ?_
  · refine Does.ite ?_ ?_
    · split
      · rename_i x1 x2 x3 x4 x5
        split
        · rename_i x6 x7 x8
          refine forEach_does ?_ (fun a9 z10 hz11 => ?_)
          · assumption
          · refine Does.then slotLoses_does rfl ?_
            assumption
        · rename_i x12 x13
          assumption
      · rename_i x14 x15
        assumption
    · refine Does.then slotLoses_does rfl ?_
      assumption
  · assumption

theorem cellParity_does {a0 a1 a2} {s} :
    Does [.cnt, .host, .err, .arrs, .out] s (cellParity a0 a1 a2 s) := by
  refine Does.also (t := s) Does.refl (fun h0 => ?_)
  unfold cellParity
  extract_lets +onlyGivenNames y0
  refine forEach_does ?_ (fun a2 z3 hz4 => ?_)
  · assumption
  · extract_lets +onlyGivenNames y5
    refine Does.ite ?_ ?_
    · assumption
    · refine Does.then excludeCell_does rfl ?_
      refine Does.then updArr_does rfl ?_
      assumption

theorem clearEntries_does {a0 a1} {s} :
    Does [.arrs] s (clearEntries a0 a1 s) := by
  refine Does.also (t := s) Does.refl (fun h0 => ?_)
  unfold clearEntries
  extract_lets +onlyGivenNames y0
  refine Does.ite ?_ ?_
  · refine Does.then updArr_does rfl ?_
    assumption
  · assumption

theorem countBadRows_does {a0 a1} {s} :
    Does [.fmtSticky, .cnt] s (countBadRows a0 a1 s) := by
  refine Does.also (t := s) Does.refl (fun h0 => ?_)
  unfold countBadRows
  extract_lets +onlyGivenNames y0
  refine Does.then stick_does rfl ?_
  refine Does.then countBy_does rfl ?_
  assumption

theorem beginSweep_does {a0 a1 a2 a3} {s} :
    Does [.fmtSticky, .cnt, .host, .err, .plans, .arrs, .models, .out] s (beginSweep a0 a1 a2 a3 s) := by
  refine Does.also (t := s) Does.refl (fun h0 => ?_)
  unfold beginSweep
  extract_lets +onlyGivenNames y0
  refine Does.also (t := y0) ?_ (fun hy0 => ?_)
  · subst y0
    refine Does.then countBadRows_does rfl ?_
    refine Does.then clearEntries_does rfl ?_
    refine Does.then exclLoss_does rfl ?_
    assumption
  clear_value y0
  revert y0
  refine Does.intro ?_
  intro y0 hy0
  extract_lets +onlyGivenNames y1
  refine Does.also (t := y1) ?_ (fun hy1 => ?_)
  · subst y1
    refine Does.then updArr_does rfl ?_
    assumption
  clear_value y1
  revert y1
  refine Does.intro ?_
  intro y1 hy1
  extract_lets +onlyGivenNames y2
  refine Does.then issue_does rfl ?_
  refine Does.then cellParity_does rfl ?_
  assumption

theorem sweepWord_does {a0 a1 a2 a3} {s} :
    Does [.fmtSticky, .cnt, .host, .err, .plans, .arrs, .models, .out, .free] s (sweepWord a0 a1 a2 a3 s) := by
  refine Does.also (t := s) Does.refl (fun h0 => ?_)
  unfold sweepWord
  refine Does.ite ?_ ?_
  · refine Does.then beginSweep_does rfl ?_
    assumption
  · refine Does.ite ?_ ?_
    · refine Does.then waitCycles_does rfl ?_
      assumption
    · assumption

theorem execSweep_does {a0 a1 a2} {s} {t} (h : (execSweep a0 a1 a2 s) = .next t) :
    Does [.fmtSticky, .cnt, .ram, .ramUndef, .mbx, .host, .err, .slate, .plans, .arrs, .exclStored, .norm, .normSum, .taint, .tiers, .models, .codec, .spar, .out, .free] s t := by
  refine Does.also (t := s) Does.refl (fun h0 => ?_)
  unfold execSweep at h
  obtain rfl := Host.Outcome.next.inj h
  clear h
  refine withWord_does rfl ?_ (fun c0 z1 hz2 => ?_)
  · assumption
  · refine Does.then sweepWord_does rfl ?_
    assumption

theorem execVeinSweep_does {a0 a1} {s} {t} (h : (execVeinSweep a0 a1 s) = .next t) :
    Does [.fmtSticky, .cnt, .ram, .ramUndef, .mbx, .host, .err, .slate, .plans, .arrs, .exclStored, .norm, .normSum, .taint, .tiers, .models, .codec, .spar, .out, .free] s t := by
  refine Does.also (t := s) Does.refl (fun h0 => ?_)
  unfold execVeinSweep at h
  obtain rfl := Host.Outcome.next.inj h
  clear h
  refine withWord_does rfl ?_ (fun c0 z1 hz2 => ?_)
  · assumption
  · refine Does.then sweepWord_does rfl ?_
    assumption

theorem execTransposeSweep_does {a0 a1} {s} {t} (h : (execTransposeSweep a0 a1 s) = .next t) :
    Does [.fmtSticky, .cnt, .ram, .ramUndef, .mbx, .host, .err, .slate, .plans, .arrs, .exclStored, .norm, .normSum, .taint, .tiers, .models, .codec, .spar, .out, .free] s t := by
  refine Does.also (t := s) Does.refl (fun h0 => ?_)
  unfold execTransposeSweep at h
  obtain rfl := Host.Outcome.next.inj h
  clear h
  refine withWord_does rfl ?_ (fun c0 z1 hz2 => ?_)
  · assumption
  · refine Does.then sweepWord_does rfl ?_
    assumption

end Sys2Proof.Laws
end

