-- ==== Sys2Proof/Laws/Drain.lean ====
section
/-! SUPPORT. Sys2Proof/Laws/Drain.lean: what each operation and meaning of Machine/Drain.lean can do, as `Does` says it: which blocks of
the state it may change, that it keeps the invariant, and that it lowers nothing that only rises. -/

namespace Sys2Proof.Laws

open Sys2Proof.Machine Sys2Proof.Safety

theorem keepRows_does {a0 a1 a2} {s} :
    Does [.ram, .ramUndef, .taint] s (keepRows a0 a1 a2 s) := by
  refine Does.also (t := s) Does.refl (fun h0 => ?_)
  unfold keepRows
  refine forEach_does ?_ (fun a0 z1 hz2 => ?_)
  · assumption
  · refine Does.then putStore_does rfl ?_
    assumption

theorem flagRows_does {a0 a1 a2} {s} :
    Does [.plans] s (flagRows a0 a1 a2 s) := by
  refine Does.also (t := s) Does.refl (fun h0 => ?_)
  unfold flagRows
  extract_lets +onlyGivenNames y0
  refine forEach_does ?_ (fun a1 z2 hz3 => ?_)
  · assumption
  · refine Does.ite ?_ ?_
    · assumption
    · refine Does.then flagRow_does rfl ?_
      assumption

theorem drainWord_does {a0 a1 a2} {s} :
    Does [.fmtSticky, .cnt, .ram, .ramUndef, .host, .err, .plans, .arrs, .taint, .out] s (drainWord a0 a1 a2 s) := by
  refine Does.also (t := s) Does.refl (fun h0 => ?_)
  unfold drainWord
  extract_lets +onlyGivenNames y0
  extract_lets +onlyGivenNames y1
  refine Does.also (t := y1) ?_ (fun hy1 => ?_)
  · subst y1
    refine forEach_does ?_ (fun a2 z3 hz4 => ?_)
    · assumption
    · refine Does.then eccHit_does rfl ?_
      assumption
  clear_value y1
  revert y1
  refine Does.intro ?_
  intro y1 hy1
  extract_lets +onlyGivenNames y5
  extract_lets +onlyGivenNames y6
  extract_lets +onlyGivenNames y7
  extract_lets +onlyGivenNames y8
  refine Does.also (t := y8) ?_ (fun hy8 => ?_)
  · subst y8
    refine Does.then accSats_does rfl ?_
    refine Does.then stick_does rfl ?_
    refine Does.then countBy_does rfl ?_
    assumption
  clear_value y8
  revert y8
  refine Does.intro ?_
  intro y8 hy8
  extract_lets +onlyGivenNames y9
  extract_lets +onlyGivenNames y10
  extract_lets +onlyGivenNames y11
  refine Does.also (t := y11) ?_ (fun hy11 => ?_)
  · subst y11
    refine Does.then updArr_does rfl ?_
    assumption
  clear_value y11
  revert y11
  refine Does.intro ?_
  intro y11 hy11
  extract_lets +onlyGivenNames y12
  refine Does.also (t := y12) ?_ (fun hy12 => ?_)
  · subst y12
    split
    · rename_i x13 x14 x15
      refine Does.then keepRows_does rfl ?_
      assumption
    · rename_i x16 x17
      assumption
  clear_value y12
  revert y12
  refine Does.intro ?_
  intro y12 hy12
  refine Does.then issue_does rfl ?_
  refine Does.then flagRows_does rfl ?_
  assumption

theorem execDrain_does {a0 a1} {s} {t} (h : (execDrain a0 a1 s) = .next t) :
    Does [.fmtSticky, .cnt, .ram, .ramUndef, .mbx, .host, .err, .slate, .plans, .arrs, .exclStored, .norm, .normSum, .taint, .tiers, .models, .codec, .spar, .out, .free] s t := by
  refine Does.also (t := s) Does.refl (fun h0 => ?_)
  unfold execDrain at h
  obtain rfl := Host.Outcome.next.inj h
  clear h
  refine withWord_does rfl ?_ (fun c1 z2 hz3 => ?_)
  · assumption
  · extract_lets +onlyGivenNames y4
    extract_lets +onlyGivenNames y5
    refine Does.also (t := y5) ?_ (fun hy5 => ?_)
    · subst y5
      refine Does.then flushLatch_does rfl ?_
      assumption
    clear_value y5
    revert y5
    refine Does.intro ?_
    intro y5 hy5
    refine Does.ite ?_ ?_
    · refine Does.then waitCycles_does rfl ?_
      assumption
    · refine Does.ite ?_ ?_
      · refine Does.then engineFault_does rfl ?_
        assumption
      · refine Does.then drainWord_does rfl ?_
        assumption

end Sys2Proof.Laws
end

