-- ==== Sys2Proof/Laws/Post.lean ====
section
/-! SUPPORT. Sys2Proof/Laws/Post.lean: what each operation and meaning of Machine/Post.lean can do, as `Does` says it: which blocks of
the state it may change, that it keeps the invariant, and that it lowers nothing that only rises. -/

namespace Sys2Proof.Laws

open Sys2Proof.Machine Sys2Proof.Safety

theorem putPart_does {a0 a1} {s} :
    Does [.norm] s (putPart a0 a1 s) := by
  refine Does.also (t := s) Does.refl (fun h0 => ?_)
  unfold putPart
  refine Does.set_norm rfl _ ?_
  assumption

theorem postWord_does {a0 a1} {s} :
    Does [.fmtSticky, .cnt, .ram, .ramUndef, .plans, .arrs, .norm, .taint, .free] s (postWord a0 a1 s) := by
  refine Does.also (t := s) Does.refl (fun h0 => ?_)
  unfold postWord
  extract_lets +onlyGivenNames y0
  extract_lets +onlyGivenNames y1
  extract_lets +onlyGivenNames y2
  extract_lets +onlyGivenNames y3
  extract_lets +onlyGivenNames y4
  extract_lets +onlyGivenNames y5
  refine Does.also (t := y5) ?_ (fun hy5 => ?_)
  · subst y5
    refine Does.then accSats_does rfl ?_
    refine Does.set_free rfl _ ?_
    assumption
  clear_value y5
  revert y5
  refine Does.intro ?_
  intro y5 hy5
  extract_lets +onlyGivenNames y6
  refine Does.also (t := y6) ?_ (fun hy6 => ?_)
  · subst y6
    refine Does.ite ?_ ?_
    · refine forEach_does ?_ (fun a7 z8 hz9 => ?_)
      · assumption
      · refine Does.then putPart_does rfl ?_
        assumption
    · assumption
  clear_value y6
  revert y6
  refine Does.intro ?_
  intro y6 hy6
  extract_lets +onlyGivenNames y10
  refine Does.also (t := y10) ?_ (fun hy10 => ?_)
  · subst y10
    refine Does.ite ?_ ?_
    · refine forEach_does ?_ (fun a11 z12 hz13 => ?_)
      · assumption
      · refine Does.then putStore_does rfl ?_
        assumption
    · assumption
  clear_value y10
  revert y10
  refine Does.intro ?_
  intro y10 hy10
  extract_lets +onlyGivenNames y14
  refine Does.also (t := y14) ?_ (fun hy14 => ?_)
  · subst y14
    refine Does.ite ?_ ?_
    · refine forEach_does ?_ (fun a15 z16 hz17 => ?_)
      · assumption
      · refine Does.then putStore_does rfl ?_
        assumption
    · assumption
  clear_value y14
  revert y14
  refine Does.intro ?_
  intro y14 hy14
  extract_lets +onlyGivenNames y18
  refine Does.also (t := y18) ?_ (fun hy18 => ?_)
  · subst y18
    refine Does.then updArr_does rfl ?_
    assumption
  clear_value y18
  revert y18
  refine Does.intro ?_
  intro y18 hy18
  refine Does.then issue_does rfl ?_
  refine Does.then flagRows_does rfl ?_
  assumption

theorem execPost_does {a0} {s} {t} (h : (execPost a0 s) = .next t) :
    Does [.fmtSticky, .cnt, .ram, .ramUndef, .mbx, .host, .err, .slate, .plans, .arrs, .exclStored, .norm, .normSum, .taint, .tiers, .models, .codec, .spar, .out, .free] s t := by
  refine Does.also (t := s) Does.refl (fun h0 => ?_)
  unfold execPost at h
  obtain rfl := Host.Outcome.next.inj h
  clear h
  refine withWord_does rfl ?_ (fun c1 z2 hz3 => ?_)
  · assumption
  · extract_lets +onlyGivenNames y4
    extract_lets +onlyGivenNames y5
    refine Does.ite ?_ ?_
    · refine Does.then engineFault_does rfl ?_
      assumption
    · refine Does.then postWord_does rfl ?_
      assumption

theorem returnStat_does {a0 a1} {s} :
    Does [.fmtSticky, .norm, .normSum] s (returnStat a0 a1 s) := by
  refine Does.also (t := s) Does.refl (fun h0 => ?_)
  unfold returnStat
  extract_lets +onlyGivenNames y0
  refine Does.also (t := y0) ?_ (fun hy0 => ?_)
  · subst y0
    refine Does.then stick_does rfl ?_
    assumption
  clear_value y0
  revert y0
  refine Does.intro ?_
  intro y0 hy0
  refine Does.set_norm_normSum rfl _ _ ?_
  assumption

theorem contributeStat_does {a0 a1} {s} :
    Does [.fmtSticky, .spar, .out] s (contributeStat a0 a1 s) := by
  refine Does.also (t := s) Does.refl (fun h0 => ?_)
  unfold contributeStat
  extract_lets +onlyGivenNames y0
  extract_lets +onlyGivenNames y1
  refine Does.also (t := y1) ?_ (fun hy1 => ?_)
  · subst y1
    refine Does.then stick_does rfl ?_
    assumption
  clear_value y1
  revert y1
  refine Does.intro ?_
  intro y1 hy1
  extract_lets +onlyGivenNames y2
  refine forEach_does ?_ (fun a3 z4 hz5 => ?_)
  · refine Does.set_spar rfl _ ?_
    assumption
  · refine Does.then sendMsg_does rfl ?_
    assumption

theorem combineStat_does {a0 a1} {s} :
    Does [.fmtSticky, .norm, .normSum, .spar, .out] s (combineStat a0 a1 s) := by
  refine Does.also (t := s) Does.refl (fun h0 => ?_)
  unfold combineStat
  extract_lets +onlyGivenNames y0
  refine Does.also (t := y0) ?_ (fun hy0 => ?_)
  · subst y0
    refine Does.ite ?_ ?_
    · assumption
    · refine Does.then contributeStat_does rfl ?_
      assumption
  clear_value y0
  revert y0
  refine Does.intro ?_
  intro y0 hy0
  extract_lets +onlyGivenNames y1
  extract_lets +onlyGivenNames y2
  refine Does.ite ?_ ?_
  · refine Does.then returnStat_does rfl ?_
    refine Does.set_spar rfl _ ?_
    assumption
  · assumption

theorem execNormStatCombine_does {a0 a1} {s} {t} (h : (execNormStatCombine a0 a1 s) = .next t) :
    Does [.fmtSticky, .norm, .normSum, .spar, .out] s t := by
  refine Does.also (t := s) Does.refl (fun h0 => ?_)
  unfold execNormStatCombine at h
  obtain rfl := Host.Outcome.next.inj h
  clear h
  extract_lets +onlyGivenNames y0
  extract_lets +onlyGivenNames y1
  extract_lets +onlyGivenNames y2
  extract_lets +onlyGivenNames y3
  clear_value y1
  split
  · rename_i x5 x6 x7 x8 x9 x10
    extract_lets +onlyGivenNames y11
    refine Does.ite ?_ ?_
    · refine Does.ite ?_ ?_
      · refine Does.then combineStat_does rfl ?_
        assumption
      · refine Does.then returnStat_does rfl ?_
        assumption
    · assumption
  · rename_i x12 x13 x14 x15
    assumption

end Sys2Proof.Laws
end

