-- ==== Sys2Proof/Laws/Quant.lean ====
section
/-! SUPPORT. Sys2Proof/Laws/Quant.lean: what each operation and meaning of Machine/Quant.lean can do, as `Does` says it: which blocks of
the state it may change, that it keeps the invariant, and that it lowers nothing that only rises. -/

namespace Sys2Proof.Laws

open Sys2Proof.Machine Sys2Proof.Safety

theorem holdBlocks_does {a0 a1 a2} {s} :
    Does [.ramUndef, .free] s (holdBlocks a0 a1 a2 s) := by
  refine Does.also (t := s) Does.refl (fun h0 => ?_)
  unfold holdBlocks
  refine forEach_does ?_ (fun a0 z1 hz2 => ?_)
  · assumption
  · refine Does.then undefine_does rfl ?_
    assumption

theorem quantWord_does {a0 a1 a2} {s} :
    Does [.fmtSticky, .cnt, .ramUndef, .plans, .arrs, .free] s (quantWord a0 a1 a2 s) := by
  refine Does.also (t := s) Does.refl (fun h0 => ?_)
  unfold quantWord
  extract_lets +onlyGivenNames y0
  extract_lets +onlyGivenNames y1
  extract_lets +onlyGivenNames y2
  extract_lets +onlyGivenNames y3
  extract_lets +onlyGivenNames y4
  extract_lets +onlyGivenNames y5
  extract_lets +onlyGivenNames y6
  refine Does.also (t := y6) ?_ (fun hy6 => ?_)
  · subst y6
    refine Does.then holdBlocks_does rfl ?_
    refine Does.set_free rfl _ ?_
    assumption
  clear_value y6
  revert y6
  refine Does.intro ?_
  intro y6 hy6
  extract_lets +onlyGivenNames y7
  refine Does.also (t := y7) ?_ (fun hy7 => ?_)
  · subst y7
    refine forEach_does ?_ (fun a8 z9 hz10 => ?_)
    · assumption
    · refine forEach_does ?_ (fun a11 z12 hz13 => ?_)
      · assumption
      · refine Does.then undefine_does rfl ?_
        assumption
  clear_value y7
  revert y7
  refine Does.intro ?_
  intro y7 hy7
  extract_lets +onlyGivenNames y14
  refine Does.also (t := y14) ?_ (fun hy14 => ?_)
  · subst y14
    refine forEach_does ?_ (fun a15 z16 hz17 => ?_)
    · assumption
    · refine Does.then countBy_does rfl ?_
      assumption
  clear_value y14
  revert y14
  refine Does.intro ?_
  intro y14 hy14
  extract_lets +onlyGivenNames y18
  refine Does.also (t := y18) ?_ (fun hy18 => ?_)
  · subst y18
    refine Does.then stick_does rfl ?_
    assumption
  clear_value y18
  revert y18
  refine Does.intro ?_
  intro y18 hy18
  extract_lets +onlyGivenNames y19
  refine Does.also (t := y19) ?_ (fun hy19 => ?_)
  · subst y19
    refine forEach_does ?_ (fun a20 z21 hz22 => ?_)
    · assumption
    · refine Does.then flagRow_does rfl ?_
      assumption
  clear_value y19
  revert y19
  refine Does.intro ?_
  intro y19 hy19
  refine Does.then advance_does rfl ?_
  refine Does.then updArr_does rfl ?_
  assumption

theorem execQuant_does {a0} {s} {t} (h : (execQuant a0 s) = .next t) :
    Does [.fmtSticky, .cnt, .ram, .ramUndef, .mbx, .host, .err, .slate, .plans, .arrs, .exclStored, .norm, .normSum, .taint, .tiers, .models, .codec, .spar, .out, .free] s t := by
  refine Does.also (t := s) Does.refl (fun h0 => ?_)
  unfold execQuant at h
  obtain rfl := Host.Outcome.next.inj h
  clear h
  refine withWord_does rfl ?_ (fun c0 z1 hz2 => ?_)
  · assumption
  · split
    · rename_i x3 x4 x5
      refine Does.then quantWord_does rfl ?_
      assumption
    · rename_i x6 x7
      refine Does.then engineFault_does rfl ?_
      assumption

theorem pendMax_does {a0 a1 a2 a3 a4} {s} :
    Does [.plans] s (pendMax a0 a1 a2 a3 a4 s) := by
  refine Does.also (t := s) Does.refl (fun h0 => ?_)
  unfold pendMax
  refine Does.then updStep_does rfl ?_
  assumption

theorem execQuantSegmentRelease_does {a0} {s} {t} (h : (execQuantSegmentRelease a0 s) = .next t) :
    Does [.cnt, .ram, .ramUndef, .plans, .arrs, .taint, .spar, .out] s t := by
  refine Does.also (t := s) Does.refl (fun h0 => ?_)
  unfold execQuantSegmentRelease at h
  obtain rfl := Host.Outcome.next.inj h
  clear h
  split
  · rename_i x1 x2 x3 x4 x5 x6 x7 x8 x9
    extract_lets +onlyGivenNames y10
    refine Does.also (t := y10) ?_ (fun hy10 => ?_)
    · subst y10
      refine Does.then updArr_does rfl ?_
      assumption
    clear_value y10
    revert y10
    refine Does.intro ?_
    intro y10 hy10
    extract_lets +onlyGivenNames y11
    refine Does.also (t := y11) ?_ (fun hy11 => ?_)
    · subst y11
      refine forEach_does ?_ (fun a12 z13 hz14 => ?_)
      · assumption
      · refine Does.then putStore_does rfl ?_
        assumption
    clear_value y11
    revert y11
    refine Does.intro ?_
    intro y11 hy11
    extract_lets +onlyGivenNames y15
    refine Does.also (t := y15) ?_ (fun hy15 => ?_)
    · subst y15
      split
      · rename_i x16 x17 x18
        refine Does.then pendMax_does rfl ?_
        assumption
      · rename_i x19 x20
        assumption
    clear_value y15
    revert y15
    refine Does.intro ?_
    intro y15 hy15
    refine Does.ite ?_ ?_
    · refine Does.then sigOf_does rfl ?_
      assumption
    · assumption
  · rename_i x21 x22 x23
    assumption

end Sys2Proof.Laws
end

