-- ==== Sys2Proof/Laws/Move.lean ====
section
/-! SUPPORT. Sys2Proof/Laws/Move.lean: what each operation and meaning of Machine/Move.lean can do, as `Does` says it: which blocks of
the state it may change, that it keeps the invariant, and that it lowers nothing that only rises. -/

namespace Sys2Proof.Laws

open Sys2Proof.Machine Sys2Proof.Safety

theorem sendData_does {a0 a1 a2 a3 a4 a5 a6 a7 a8} {s} :
    Does [.cnt, .plans, .codec, .spar, .out] s (sendData a0 a1 a2 a3 a4 a5 a6 a7 a8 s) := by
  refine Does.also (t := s) Does.refl (fun h0 => ?_)
  unfold sendData
  extract_lets +onlyGivenNames y0
  extract_lets +onlyGivenNames y1
  refine Does.ite ?_ ?_
  · refine Does.then setKey_does rfl ?_
    refine forEach_does ?_ (fun a5 z6 hz7 => ?_)
    · assumption
    · extract_lets +onlyGivenNames y8
      refine Does.also (t := y8.2) ?_ (fun hy8 => ?_)
      · refine Does.ofSnd ?_
        subst y8
        refine Does.then linkBlocks_does rfl ?_
        assumption
      clear_value y8
      revert y8
      refine Does.intro2 ?_
      intro y8 hy8
      refine Does.then sendMsg_does rfl ?_
      assumption
  · refine forEach_does ?_ (fun a9 z10 hz11 => ?_)
    · assumption
    · refine Does.then sendMsg_does rfl ?_
      assumption

theorem putDva_does {a0 a1 a2} {s} :
    Does [.cnt, .ram, .ramUndef, .taint, .tiers, .spar, .out] s (putDva a0 a1 a2 s) := by
  refine Does.also (t := s) Does.refl (fun h0 => ?_)
  unfold putDva
  refine overRam_does ?_ (fun a0 b1 z2 hz3 => ?_)
  · refine Does.then planWrite_does rfl ?_
    assumption
  · refine Does.then addTaint_does rfl ?_
    assumption

theorem putMarks_does {a0 a1 a2} {s} :
    Does [.cnt, .ram, .ramUndef, .taint, .tiers, .spar, .out] s (putMarks a0 a1 a2 s) := by
  refine Does.also (t := s) Does.refl (fun h0 => ?_)
  unfold putMarks
  refine forEach_does ?_ (fun a0 z1 hz2 => ?_)
  · refine Does.then putDva_does rfl ?_
    assumption
  · refine overRam_does ?_ (fun a3 b4 z5 hz6 => ?_)
    · assumption
    · refine Does.then addTaint_does rfl ?_
      assumption

theorem putToken_does {a0 a1 a2 a3} {s} :
    Does [.cnt, .ram, .ramUndef, .taint, .tiers, .spar, .out] s (putToken a0 a1 a2 a3 s) := by
  refine Does.also (t := s) Does.refl (fun h0 => ?_)
  unfold putToken
  refine forUpto_does ?_ (fun a1 z2 hz3 => ?_)
  · assumption
  · extract_lets +onlyGivenNames y4
    extract_lets +onlyGivenNames y5
    refine Does.then putDva_does rfl ?_
    refine Does.then putDva_does rfl ?_
    refine Does.then putDva_does rfl ?_
    assumption

theorem appendRow_does {a0 a1 a2 a3 a4 a5} {s} :
    Does [.cnt, .ram, .ramUndef, .plans, .taint, .tiers, .models, .spar, .out] s (appendRow a0 a1 a2 a3 a4 a5 s) := by
  refine Does.also (t := s) Does.refl (fun h0 => ?_)
  unfold appendRow
  split
  · rename_i x1 x2
    assumption
  · rename_i x3 x4 x5
    split
    · rename_i x7 x8
      assumption
    · rename_i x9 x10 x11
      extract_lets +onlyGivenNames y12
      split
      · rename_i x14 x15
        assumption
      · rename_i x16 x17 x18
        extract_lets +onlyGivenNames y19
        refine Does.ite ?_ ?_
        · assumption
        · refine Does.ite ?_ ?_
          · refine Does.then flagStream_does rfl ?_
            refine Does.then count_does rfl ?_
            assumption
          · refine Does.then updStream_does rfl ?_
            refine Does.then putToken_does rfl ?_
            assumption

theorem fabricSend_does {a0 a1 a2 a3} {s} :
    Does [.cnt, .plans, .arrs, .codec, .spar, .out] s (fabricSend a0 a1 a2 a3 s) := by
  refine Does.also (t := s) Does.refl (fun h0 => ?_)
  unfold fabricSend
  extract_lets +onlyGivenNames y0
  split
  · rename_i x2 x3
    assumption
  · rename_i x4 x5 x6
    extract_lets +onlyGivenNames y7
    extract_lets +onlyGivenNames y8
    extract_lets +onlyGivenNames y9
    refine Does.also (t := y9) ?_ (fun hy9 => ?_)
    · subst y9
      refine Does.then countWait_does rfl ?_
      assumption
    clear_value y9
    revert y9
    refine Does.intro ?_
    intro y9 hy9
    extract_lets +onlyGivenNames y10
    extract_lets +onlyGivenNames y11
    extract_lets +onlyGivenNames y12
    extract_lets +onlyGivenNames y13
    refine Does.also (t := y13) ?_ (fun hy13 => ?_)
    · subst y13
      refine Does.then updArr_does rfl ?_
      assumption
    clear_value y13
    revert y13
    refine Does.intro ?_
    intro y13 hy13
    refine Does.ite ?_ ?_
    · assumption
    · refine Does.then sendData_does rfl ?_
      assumption

theorem fabricSends_does {a0} {s} :
    Does [.cnt, .plans, .arrs, .codec, .spar, .out] s (fabricSends a0 s) := by
  refine Does.also (t := s) Does.refl (fun h0 => ?_)
  unfold fabricSends
  split
  · rename_i x0 x1 x2 x3 x4
    refine forUpto_does ?_ (fun a5 z6 hz7 => ?_)
    · assumption
    · refine Does.then fabricSend_does rfl ?_
      assumption
  · rename_i x8 x9
    assumption

theorem deliverSend_does {a0 a1 a2 a3 a4} {s t} (h : deliverSend a0 a1 a2 a3 a4 s = some t) : Does [.cnt, .ram, .ramUndef, .plans, .taint, .tiers, .models, .codec, .spar, .out] s t := by
  unfold deliverSend at h
  extract_lets w off at h
  split at h
  · split at h
    · split at h
      · cases h; exact Does.refl
      · cases h
    · cases h
  · cases h
    split
    · exact putStore_does.mono rfl
    · exact putDva_does.mono rfl
    · split
      · exact Does.refl
      · extract_lets dva
        refine Does.ite (forUpto_does Does.refl (fun b z hz => Does.then appendRow_does rfl hz)) (Does.ite ?_ (putDva_does.mono rfl))
        exact finishCoded_does rfl Does.refl (fun n b z hz => Does.then putDva_does rfl hz)

theorem startSend_does {a0 a1} {s} :
    Does [.cnt, .host, .err, .plans, .arrs, .codec, .out] s (startSend a0 a1 s) := by
  refine Does.also (t := s) Does.refl (fun h0 => ?_)
  unfold startSend
  refine Does.ite ?_ ?_
  · refine Does.ite ?_ ?_
    · assumption
    · refine Does.then refill_does rfl ?_
      assumption
  · refine Does.ite ?_ ?_
    · split
      · rename_i x0 x1 x2
        refine Does.ite ?_ ?_
        · assumption
        · refine Does.then startCoded_does rfl ?_
          assumption
      · rename_i x3 x4
        assumption
    · assumption

theorem execSend_does {a0} {s} {t} (h : (execSend a0 s) = .next t) :
    Does [.fmtSticky, .cnt, .ram, .ramUndef, .mbx, .host, .err, .slate, .plans, .arrs, .exclStored, .norm, .normSum, .taint, .tiers, .models, .codec, .spar, .out, .free] s t := by
  refine Does.also (t := s) Does.refl (fun h0 => ?_)
  unfold execSend at h
  obtain rfl := Host.Outcome.next.inj h
  clear h
  refine withWord_does rfl ?_ (fun c1 z2 hz3 => ?_)
  · assumption
  · extract_lets +onlyGivenNames y4
    extract_lets +onlyGivenNames y5
    extract_lets +onlyGivenNames y6
    extract_lets +onlyGivenNames y7
    extract_lets +onlyGivenNames y8
    refine Does.then fabricSends_does rfl ?_
    refine Does.then issue_does rfl ?_
    refine Does.then startSend_does rfl ?_
    assumption

theorem execRecv_does {a0} {s} {t} (h : (execRecv a0 s) = .next t) :
    Does [.fmtSticky, .cnt, .ram, .ramUndef, .mbx, .host, .err, .slate, .plans, .arrs, .exclStored, .norm, .normSum, .taint, .tiers, .models, .codec, .spar, .out, .free] s t := by
  refine Does.also (t := s) Does.refl (fun h0 => ?_)
  unfold execRecv at h
  obtain rfl := Host.Outcome.next.inj h
  clear h
  refine withWord_does rfl ?_ (fun c1 z2 hz3 => ?_)
  · assumption
  · extract_lets +onlyGivenNames y4
    extract_lets +onlyGivenNames y5
    extract_lets +onlyGivenNames y6
    extract_lets +onlyGivenNames y7
    refine Does.then issue_does rfl ?_
    assumption

theorem noteMismatch_does {a0} {s} :
    Does [.fmtSticky, .cnt, .ram, .ramUndef, .mbx, .host, .err, .slate, .plans, .arrs, .exclStored, .norm, .normSum, .taint, .tiers, .models, .codec, .spar, .out, .free] s (noteMismatch a0 s) := by
  refine Does.also (t := s) Does.refl (fun h0 => ?_)
  unfold noteMismatch
  split
  · rename_i x0 x1 x2
    refine Does.ite ?_ ?_
    · refine Does.then haltPlan_does rfl ?_
      refine Does.then record_does rfl ?_
      refine Does.then count_does rfl ?_
      assumption
    · assumption
  · rename_i x3 x4
    assumption

theorem collMismatch_does {a0} {s} :
    Does [.fmtSticky, .cnt, .ram, .ramUndef, .mbx, .host, .err, .slate, .plans, .arrs, .exclStored, .norm, .normSum, .taint, .tiers, .models, .codec, .spar, .out, .free] s (collMismatch a0 s) := by
  refine Does.also (t := s) Does.refl (fun h0 => ?_)
  unfold collMismatch
  refine Does.then noteMismatch_does rfl ?_
  refine Does.then toOthers_does rfl ?_
  assumption

theorem sendRound_does {a0 a1 a2} {s} :
    Does [.fmtSticky, .cnt, .plans, .codec, .spar, .out] s (sndSt (sendRound a0 a1 a2 s)) := by
  refine Does.also (t := s) Does.refl (fun h0 => ?_)
  unfold sendRound
  extract_lets +onlyGivenNames y0
  extract_lets +onlyGivenNames y1
  extract_lets +onlyGivenNames y2
  extract_lets +onlyGivenNames y3
  extract_lets +onlyGivenNames y4
  extract_lets +onlyGivenNames y5
  extract_lets +onlyGivenNames y6
  extract_lets +onlyGivenNames y7
  extract_lets +onlyGivenNames y8
  extract_lets +onlyGivenNames y9
  extract_lets +onlyGivenNames y10
  extract_lets +onlyGivenNames y11
  refine Does.ite2 ?_ ?_
  · refine Does.snd ?_
    assumption
  · refine Does.ite2 ?_ ?_
    · refine Does.snd ?_
      dsimp only [y4]
      refine Does.then bf16Sats_does rfl ?_
      refine Does.then sendData_does rfl ?_
      assumption
    · refine Does.ite2 ?_ ?_
      · refine Does.snd ?_
        refine forEach_does ?_ (fun a12 z13 hz14 => ?_)
        · assumption
        · refine Does.ite ?_ ?_
          · assumption
          · dsimp only [y4]
            refine Does.then bf16Sats_does rfl ?_
            refine Does.then sendData_does rfl ?_
            assumption
      · refine Does.snd ?_
        refine Does.then bf16Sats_does rfl ?_
        refine Does.then sendData_does rfl ?_
        assumption

theorem takeMsgs_does {a0} {s} :
    Does [.spar] s (takeMsgs a0 s) := by
  refine Does.also (t := s) Does.refl (fun h0 => ?_)
  unfold takeMsgs
  extract_lets +onlyGivenNames y0
  refine Does.set_spar rfl _ ?_
  assumption

theorem execCollective_does {a0 a1} {s} {t} (h : (execCollective a0 a1 s) = .next t) :
    Does [.fmtSticky, .cnt, .ram, .ramUndef, .mbx, .host, .err, .slate, .plans, .arrs, .exclStored, .norm, .normSum, .taint, .tiers, .models, .codec, .spar, .out, .free] s t := by
  refine Does.also (t := s) Does.refl (fun h0 => ?_)
  unfold execCollective at h
  obtain rfl := Host.Outcome.next.inj h
  clear h
  extract_lets +onlyGivenNames y0
  refine withWord_does rfl ?_ (fun c2 z3 hz4 => ?_)
  · assumption
  · extract_lets +onlyGivenNames y5
    extract_lets +onlyGivenNames y6
    extract_lets +onlyGivenNames y7
    extract_lets +onlyGivenNames y8
    extract_lets +onlyGivenNames y9
    extract_lets +onlyGivenNames y10
    extract_lets +onlyGivenNames y11
    extract_lets +onlyGivenNames y12
    extract_lets +onlyGivenNames y13
    refine Does.also (t := y13) ?_ (fun hy13 => ?_)
    · subst y13
      refine Does.then updPlan_does rfl ?_
      assumption
    clear_value y13
    revert y13
    refine Does.intro ?_
    intro y13 hy13
    extract_lets +onlyGivenNames y14
    extract_lets +onlyGivenNames y15
    extract_lets +onlyGivenNames y16
    refine Does.also (t := y16) ?_ (fun hy16 => ?_)
    · subst y16
      refine Does.set_spar rfl _ ?_
      assumption
    clear_value y16
    revert y16
    refine Does.intro ?_
    intro y16 hy16
    extract_lets +onlyGivenNames y17
    extract_lets +onlyGivenNames y18
    refine Does.also (t := y18.2) ?_ (fun hy18 => ?_)
    · refine Does.ofSnd ?_
      subst y18
      refine Does.ite2 ?_ ?_
      · refine Does.then sendRound_does rfl ?_
        assumption
      · refine Does.ite2 ?_ ?_
        · refine Does.snd ?_
          refine Does.then sendData_does rfl ?_
          assumption
        · refine Does.snd ?_
          assumption
    clear_value y18
    revert y18
    refine Does.intro2 ?_
    intro y18 hy18
    refine Does.ite ?_ ?_
    · refine Does.then issue_does rfl ?_
      assumption
    · refine Does.ite ?_ ?_
      · refine Does.then collMismatch_does rfl ?_
        assumption
      · refine Does.then issue_does rfl ?_
        assumption

theorem takeRound_does {a0 a1 a2} {s x} (h : takeRound a0 a1 a2 s = some x) : Does [.fmtSticky, .cnt, .plans, .codec, .spar, .out, .free] s x.2 := by
  unfold takeRound at h
  extract_lets w wire32 e key num body next at h
  have hn : ∀ i y z, next i y = some z → Does [.fmtSticky, .cnt, .plans, .codec, .spar, .out, .free] s y → Does [.fmtSticky, .cnt, .plans, .codec, .spar, .out, .free] s z.2 := by
    intro i y z hz hy
    cases hz; exact Does.ofSnd (p := (_, _)) (Does.then sendRound_does rfl hy)
  split at h
  · cases h
  · split at h
    · split at h
      · cases h
      · exact hn _ _ _ h (Does.then takeMsgs_does rfl Does.refl)
    · split at h
      · cases h
      · split at h
        · exact hn _ _ _ h (Does.set_free rfl _ (Does.then takeMsgs_does rfl Does.refl))
        · exact hn _ _ _ h (Does.then takeMsgs_does rfl Does.refl)

theorem runRounds_does {a0 a1 a2} : ∀ {a3} {s}, Does [.fmtSticky, .cnt, .plans, .codec, .spar, .out, .free] s (runRounds a0 a1 a2 a3 s)
  | 0, s => by exact Does.refl
  | n + 1, s => by
    unfold runRounds
    split
    · refine Does.ite ?_ Does.refl
      split
      · rename_i r hr
        refine Does.trans ?_ runRounds_does
        exact Does.then updColl_does rfl ((takeRound_does hr).mono rfl)
      · exact Does.refl
    · exact Does.refl

theorem finishColl_does {a0 a1 a2 a3} {s t} (h : finishColl a0 a1 a2 a3 s = some t) : Does [.cnt, .ram, .ramUndef, .taint, .tiers, .spar, .out, .free] s t := by
  unfold finishColl at h
  extract_lets w len dst key num ended at h
  have he : ∀ y, Does [.cnt, .ram, .ramUndef, .taint, .tiers, .spar, .out, .free] s y → Does [.cnt, .ram, .ramUndef, .taint, .tiers, .spar, .out, .free] s (ended y) := fun y hy => Does.set_spar rfl _ hy
  clear_value ended
  split at h
  · cases h
    exact Does.then putDva_does rfl (Does.set_free rfl _ Does.refl)
  · split at h
    · split at h
      · cases h
      · cases h; exact Does.then putMarks_does rfl (he _ Does.refl)
    · rw [Option.map_eq_some_iff] at h
      obtain ⟨cs, _, rfl⟩ := h
      exact Does.then putMarks_does rfl (he _ Does.refl)

theorem execStreamIo_does {a0 a1} {s} {t} (h : (execStreamIo a0 a1 s) = .next t) :
    Does [.fmtSticky, .cnt, .ram, .ramUndef, .mbx, .host, .err, .slate, .plans, .arrs, .exclStored, .norm, .normSum, .taint, .tiers, .models, .codec, .spar, .out, .free] s t := by
  refine Does.also (t := s) Does.refl (fun h0 => ?_)
  unfold execStreamIo at h
  obtain rfl := Host.Outcome.next.inj h
  clear h
  refine withWord_does rfl ?_ (fun c0 z1 hz2 => ?_)
  · assumption
  · refine Does.then issue_does rfl ?_
    assumption

theorem ioIn_does {a0 a1 a2 a3 a4 a5} {s} :
    Does [.ram, .ramUndef, .taint] s (ioIn a0 a1 a2 a3 a4 a5 s) := by
  refine Does.also (t := s) Does.refl (fun h0 => ?_)
  unfold ioIn
  extract_lets +onlyGivenNames y0
  refine Does.then putStore_does rfl ?_
  assumption

theorem putStream_does {a0 a1} {s} :
    Does [.cnt, .ram, .ramUndef, .taint, .tiers, .spar, .out] s (putStream a0 a1 s) := by
  refine Does.also (t := s) Does.refl (fun h0 => ?_)
  unfold putStream
  extract_lets +onlyGivenNames y0
  refine Does.ite ?_ ?_
  · assumption
  · refine Does.ite ?_ ?_
    · refine Does.then planWrite_does rfl ?_
      assumption
    · refine Does.then emit_does rfl ?_
      assumption

theorem ioOut_does {a0 a1 a2 a3 a4 a5} {s} :
    Does [.cnt, .ram, .ramUndef, .plans, .taint, .tiers, .models, .spar, .out] s (ioOut a0 a1 a2 a3 a4 a5 s) := by
  refine Does.also (t := s) Does.refl (fun h0 => ?_)
  unfold ioOut
  split
  · rename_i x1 x2
    assumption
  · rename_i x3 x4 x5
    split
    · rename_i x7 x8
      assumption
    · rename_i x9 x10 x11
      extract_lets +onlyGivenNames y12
      refine Does.also (t := y12) ?_ (fun hy12 => ?_)
      · subst y12
        refine Does.then putStream_does rfl ?_
        assumption
      clear_value y12
      revert y12
      refine Does.intro ?_
      intro y12 hy12
      refine Does.then flagStream_does rfl ?_
      refine Does.then updStream_does rfl ?_
      assumption

theorem moveRows_does {a0 a1 a2 a3} {s} :
    Does [.cnt, .ram, .ramUndef, .plans, .taint, .tiers, .models, .spar, .out] s (moveRows a0 a1 a2 a3 s) := by
  refine Does.also (t := s) Does.refl (fun h0 => ?_)
  unfold moveRows
  extract_lets +onlyGivenNames y0
  refine forUpto_does ?_ (fun a2 z3 hz4 => ?_)
  · assumption
  · extract_lets +onlyGivenNames y5
    extract_lets +onlyGivenNames y6
    refine forEach_does ?_ (fun a7 z8 hz9 => ?_)
    · assumption
    · refine Does.ite ?_ ?_
      · refine Does.then ioIn_does rfl ?_
        assumption
      · refine Does.then ioOut_does rfl ?_
        assumption

theorem dropProg_does {a0 a1} {s} :
    Does [.plans, .arrs] s (dropProg a0 a1 s) := by
  refine Does.also (t := s) Does.refl (fun h0 => ?_)
  unfold dropProg
  extract_lets +onlyGivenNames y0
  split
  · rename_i x1 x2
    assumption
  · rename_i x3 x4
    refine Does.then updArr_does rfl ?_
    assumption
  · rename_i x5 x6 x7
    refine Does.then settleHub_does rfl ?_
    refine Does.then updColl_does rfl ?_
    assumption
  · rename_i x8 x9 x10
    refine Does.then settleHub_does rfl ?_
    refine Does.then updStrm_does rfl ?_
    assumption

theorem completeWord_does {a0 a1 a2 a3 a4} {s t} (h : completeWord a0 a1 a2 a3 a4 s = some t) : Does [.fmtSticky, .cnt, .ram, .ramUndef, .host, .err, .plans, .arrs, .taint, .tiers, .models, .codec, .spar, .out, .free] s t := by
  unfold completeWord at h
  extract_lets w at h
  split at h
  · split at h
    · cases h; exact portSweep_does.mono rfl
    · cases h
  · split at h
    · split at h
      · cases h; exact Does.refl
      · cases h
    · split at h
      · cases h
      · split at h
        · exact (deliverSend_does h).mono rfl
        · split at h
          · cases h; exact putStore_does.mono rfl
          · cases h; exact Does.refl

theorem execWordCompletion_does {a0 a1} {s t} (h : execWordCompletion a0 a1 s = .next t) : Does [.fmtSticky, .cnt, .ram, .ramUndef, .host, .err, .plans, .arrs, .taint, .tiers, .models, .codec, .spar, .out, .free] s t := by
  unfold execWordCompletion at h
  obtain rfl := Host.Outcome.next.inj h
  extract_lets s1
  have h1 : Does [.fmtSticky, .cnt, .ram, .ramUndef, .host, .err, .plans, .arrs, .taint, .tiers, .models, .codec, .spar, .out, .free] s s1 := by
    dsimp only [s1]
    split
    · exact Does.then fabricSends_does rfl (flushLatch_does.mono rfl)
    · exact runRounds_does.mono rfl
    · exact Does.refl
  clear_value s1
  split
  · exact h1
  · split
    · exact h1
    · split
      · split
        · exact Does.then sigOf_does rfl (Does.then dropProg_does rfl (Does.then (completeWord_does (by assumption)) rfl h1))
        · exact h1
      · exact h1
    · split
      · split
        · exact Does.then sigOf_does rfl (Does.then dropProg_does rfl (Does.then (finishColl_does (by assumption)) rfl h1))
        · exact h1
      · exact h1
    · split
      · exact Does.then sigOf_does rfl (Does.then dropProg_does rfl (Does.then moveRows_does rfl h1))
      · exact h1

end Sys2Proof.Laws
end

