-- ==== Sys2Proof/Laws/SlateEvents.lean ====
section
/-! SUPPORT. Sys2Proof/Laws/SlateEvents.lean: what each operation and meaning of Machine/SlateEvents.lean can do, as `Does` says it: which blocks of
the state it may change, that it keeps the invariant, and that it lowers nothing that only rises. -/

namespace Sys2Proof.Laws

open Sys2Proof.Machine Sys2Proof.Safety

theorem ifMounted_does {l} {s t} {a k} (_hl : sub [] l = true) (h : Does l s t)
    (hk : ∀ y, Does l s y → Does l s (k y)) : Does l s (ifMounted a k t) := by
  unfold ifMounted
  exact Does.ite (hk _ h) h

theorem issueRead_does {a0 a1} {s} :
    Does [.cnt, .host, .err, .slate, .arrs, .out] s (issueRead a0 a1 s) := by
  refine Does.also (t := s) Does.refl (fun h0 => ?_)
  unfold issueRead
  extract_lets +onlyGivenNames y0
  extract_lets +onlyGivenNames y1
  extract_lets +onlyGivenNames y2
  refine Does.also (t := y2) ?_ (fun hy2 => ?_)
  · subst y2
    refine Does.ite ?_ ?_
    · refine Does.then countGroup_does rfl ?_
      assumption
    · assumption
  clear_value y2
  revert y2
  refine Does.intro ?_
  intro y2 hy2
  refine Does.then updProg_does rfl ?_
  refine Does.then updArr_does rfl ?_
  assumption

theorem stripeRead_does {a0 a1 a2} {s} :
    Does [.cnt, .host, .err, .slate, .out] s (stripeRead a0 a1 a2 s) := by
  refine Does.also (t := s) Does.refl (fun h0 => ?_)
  unfold stripeRead
  extract_lets +onlyGivenNames y0
  extract_lets +onlyGivenNames y1
  extract_lets +onlyGivenNames y2
  refine Does.also (t := y2) ?_ (fun hy2 => ?_)
  · subst y2
    refine Does.then countGroup_does rfl ?_
    refine Does.set_slate rfl _ ?_
    assumption
  clear_value y2
  revert y2
  refine Does.intro ?_
  intro y2 hy2
  extract_lets +onlyGivenNames y3
  refine Does.ite ?_ ?_
  · refine Does.set_slate rfl _ ?_
    assumption
  · assumption

theorem updReloc_does {a0 a1} {s} :
    Does [.slate] s (updReloc a0 a1 s) := by
  refine Does.also (t := s) Does.refl (fun h0 => ?_)
  unfold updReloc
  extract_lets +onlyGivenNames y0
  refine Does.set_slate rfl _ ?_
  assumption

theorem pulse_does {a0 a1} {s} :
    Does [.slate] s (pulse a0 a1 s) := by
  refine Does.also (t := s) Does.refl (fun h0 => ?_)
  unfold pulse
  refine Does.then updPb_does rfl ?_
  assumption

theorem serveUses_does {l} {s t} {busy : List Nat} {L : List (Nat × (Sys2Proof.Machine.State → Sys2Proof.Machine.State))}
    (h : Does l s t) (hk : ∀ x ∈ L, ∀ y, Does l s y → Does l s (x.2 y)) : Does l s (serveUses busy L t) := by
  unfold serveUses
  have hr : ∀ (L : List (Nat × (Sys2Proof.Machine.State → Sys2Proof.Machine.State))) (p : List Nat × Sys2Proof.Machine.State),
      (∀ x ∈ L, ∀ y, Does l s y → Does l s (x.2 y)) → Does l s p.2 →
      Does l s (L.foldl (fun (p : List Nat × Sys2Proof.Machine.State) x => if x.1 ∈ p.1 then p else (x.1 :: p.1, x.2 p.2)) p).2 := by
    intro L
    induction L with
    | nil => intro p _ hp; exact hp
    | cons x L ih =>
      intro p hL hp
      refine ih _ (fun y hy => hL y (List.mem_cons_of_mem _ hy)) ?_
      show Does l s (if x.1 ∈ p.1 then p else (x.1 :: p.1, x.2 p.2)).2
      by_cases hx : x.1 ∈ p.1
      · rw [if_pos hx]; exact hp
      · rw [if_neg hx]; exact hL x List.mem_cons_self _ hp
  exact hr L _ hk h

theorem copyReads_does {l} {s u : Sys2Proof.Machine.State} {a k p} (hl : sub [.cnt, .host, .err, .slate, .out] l = true) :
    ∀ x ∈ u.copyReads a k p, ∀ y, Does l s y → Does l s (x.2 y) := by
  intro x hx y hy
  unfold State.copyReads at hx
  obtain ⟨r, _, hx⟩ := List.mem_flatMap.mp hx
  obtain ⟨c, _, rfl⟩ := List.mem_map.mp hx
  exact Does.thenVia (n := [.cnt, .host, .err, .slate, .out]) countGroup_does rfl hl (Does.thenVia (n := [.cnt, .host, .err, .slate, .out]) updReloc_does rfl hl hy)

theorem passReads_does {l} {s u : Sys2Proof.Machine.State} {a k} (hl : sub [.cnt, .host, .err, .slate, .models, .out] l = true) :
    ∀ x ∈ u.passReads a k, ∀ y, Does l s y → Does l s (x.2 y) := by
  intro x hx y hy
  unfold State.passReads at hx
  split at hx
  · cases hx
  · obtain ⟨c, _, rfl⟩ := List.mem_map.mp hx
    refine Does.thenVia (n := [.cnt, .host, .err, .slate, .models, .out]) countGroup_does rfl hl (Does.set_models ?_ _ hy)
    exact has_of_sub hl (by decide)

theorem pulses_does {l} {s u : Sys2Proof.Machine.State} {a k} (hl : sub [.slate] l = true) :
    (∀ p, ∀ x ∈ u.copyPulses a k p, ∀ y, Does l s y → Does l s (x.2 y)) ∧ (∀ x ∈ u.stagePulses a k, ∀ y, Does l s y → Does l s (x.2 y)) ∧
    ∀ x ∈ u.erasePulses a k, ∀ y, Does l s y → Does l s (x.2 y) := by
  refine ⟨?_, ?_, ?_⟩
  · intro p x hx y hy
    unfold State.copyPulses at hx
    obtain ⟨r, _, hx⟩ := List.mem_flatMap.mp hx
    obtain ⟨c, _, rfl⟩ := List.mem_map.mp hx
    exact Does.thenVia (n := [.slate]) updReloc_does rfl hl hy
  · intro x hx y hy
    unfold State.stagePulses at hx
    split at hx
    · cases hx
    · split at hx
      · cases hx
      · obtain ⟨c, _, rfl⟩ := List.mem_map.mp hx
        exact Does.thenVia (n := [.slate]) pulse_does rfl hl hy
  · intro x hx y hy
    unfold State.erasePulses at hx
    obtain ⟨c, _, rfl⟩ := List.mem_map.mp hx
    exact Does.thenVia (n := [.slate]) pulse_does rfl hl hy

theorem maintUses_does {l} {s u : Sys2Proof.Machine.State} {a k n} (hl : sub [.cnt, .host, .err, .slate, .models, .out] l = true) :
    ∀ x ∈ u.maintUses a k n, ∀ y, Does l s y → Does l s (x.2 y) := by
  have hc : sub [.cnt, .host, .err, .slate, .out] l = true := List.all_eq_true.mpr (fun b hb => has_of_sub hl (mem_of_sub (a := [.cnt, .host, .err, .slate, .out]) (b := [.cnt, .host, .err, .slate, .models, .out]) rfl hb))
  have hp : sub [.slate] l = true := List.all_eq_true.mpr (fun b hb => has_of_sub hl (mem_of_sub (a := [.slate]) (b := [.cnt, .host, .err, .slate, .models, .out]) rfl hb))
  obtain ⟨p1, p2, p3⟩ := pulses_does (s := s) (u := u) (a := a) (k := k) hp
  intro x hx
  unfold State.maintUses at hx
  extract_lets urgent other at hx
  simp only [List.mem_append] at hx
  rcases hx with ((hx | hx) | hx) | hx
  · exact copyReads_does hc x hx
  · exact passReads_does hl x hx
  · exact copyReads_does hc x hx
  · split at hx
    · simp only [List.mem_append] at hx
      rcases hx with ((hx | hx) | hx) | hx
      · exact p1 _ x hx
      · exact p2 x hx
      · exact p1 _ x hx
      · exact p3 x hx
    · cases hx

theorem serveMaint_does {a0 a1 a2 a3} {s} : Does [.cnt, .host, .err, .slate, .models, .out] s (serveMaint a0 a1 a2 a3 s) := by
  unfold serveMaint
  refine Does.ite Does.refl ?_
  extract_lets reads
  exact Does.ite (updStack_does.mono rfl) (serveUses_does Does.refl (maintUses_does rfl))

theorem execSlateSlotStart_does {a0 a1} {s} {t} (h : (execSlateSlotStart a0 a1 s) = .next t) :
    Does [.fmtSticky, .cnt, .host, .err, .slate, .arrs, .models, .out] s t := by
  refine Does.also (t := s) Does.refl (fun h0 => ?_)
  unfold execSlateSlotStart at h
  obtain rfl := Host.Outcome.next.inj h
  clear h
  extract_lets +onlyGivenNames y0
  extract_lets +onlyGivenNames y1
  refine Does.also (t := y1) ?_ (fun hy1 => ?_)
  · subst y1
    refine Does.ite ?_ ?_
    · refine Does.set_slate rfl _ ?_
      assumption
    · assumption
  clear_value y1
  revert y1
  refine Does.intro ?_
  intro y1 hy1
  refine ifMounted_does rfl ?_ (fun z3 hz4 => ?_)
  · assumption
  · extract_lets +onlyGivenNames y5
    extract_lets +onlyGivenNames y6
    extract_lets +onlyGivenNames y7
    refine Does.also (t := y7) ?_ (fun hy7 => ?_)
    · subst y7
      refine Does.then settleLatch_does rfl ?_
      refine Does.then reachClock_does rfl ?_
      assumption
    clear_value y7
    revert y7
    refine Does.intro ?_
    intro y7 hy7
    extract_lets +onlyGivenNames y8
    extract_lets +onlyGivenNames y9
    extract_lets +onlyGivenNames y10
    refine Does.also (t := y10) ?_ (fun hy10 => ?_)
    · subst y10
      refine forEach_does ?_ (fun a11 z12 hz13 => ?_)
      · assumption
      · refine Does.then stripeRead_does rfl ?_
        assumption
    clear_value y10
    revert y10
    refine Does.intro ?_
    intro y10 hy10
    refine Does.ite ?_ ?_
    · refine Does.then serveMaint_does rfl ?_
      assumption
    · refine Does.ite ?_ ?_
      · assumption
      · split
        · rename_i x14 x15 x16
          refine Does.then issueRead_does rfl ?_
          assumption
        · rename_i x17 x18
          refine Does.then serveMaint_does rfl ?_
          assumption

theorem slotEnd_does {a0 a1} {s} :
    Does [.fmtSticky, .cnt, .host, .err, .slate, .arrs, .out] s (slotEnd a0 a1 s) := by
  refine Does.also (t := s) Does.refl (fun h0 => ?_)
  unfold slotEnd
  split
  · rename_i x1 x2
    assumption
  · rename_i x3 x4 x5
    extract_lets +onlyGivenNames y6
    refine Does.then updArr_does rfl ?_
    refine Does.then settleLatch_does rfl ?_
    refine Does.then reachClock_does rfl ?_
    assumption

theorem execLatchPositionFree_does {a0} {s} {t} (h : (execLatchPositionFree a0 s) = .next t) :
    Does [.fmtSticky, .cnt, .host, .err, .slate, .arrs, .out, .free] s t := by
  refine Does.also (t := s) Does.refl (fun h0 => ?_)
  unfold execLatchPositionFree at h
  obtain rfl := Host.Outcome.next.inj h
  clear h
  extract_lets +onlyGivenNames y0
  refine Does.also (t := y0) ?_ (fun hy0 => ?_)
  · subst y0
    refine Does.then applyHead_does rfl ?_
    assumption
  clear_value y0
  revert y0
  refine Does.intro ?_
  intro y0 hy0
  split
  · rename_i x1 x2 x3 x4
    split
    · rename_i x5 x6 x7
      refine Does.then freeHead_does rfl ?_
      refine Does.then reachClock_does rfl ?_
      assumption
    · rename_i x8 x9
      assumption
  · rename_i x10 x11
    split
    · rename_i x12 x13 x14
      refine Does.ite ?_ ?_
      · refine Does.then portPump_does rfl ?_
        refine Does.then updProg_does rfl ?_
        assumption
      · assumption
    · rename_i x15 x16
      assumption

theorem useAllowance_does {a0 a1 a2} {s} :
    Does [.cnt, .slate] s (useAllowance a0 a1 a2 s) := by
  refine Does.also (t := s) Does.refl (fun h0 => ?_)
  unfold useAllowance
  extract_lets +onlyGivenNames y0
  extract_lets +onlyGivenNames y1
  extract_lets +onlyGivenNames y2
  extract_lets +onlyGivenNames y3
  refine Does.also (t := y3) ?_ (fun hy3 => ?_)
  · subst y3
    refine Does.set_slate rfl _ ?_
    assumption
  clear_value y3
  revert y3
  refine Does.intro ?_
  intro y3 hy3
  refine Does.ite ?_ ?_
  · assumption
  · refine Does.ite ?_ ?_
    · refine Does.then count_does rfl ?_
      assumption
    · assumption

theorem updLine_does {a0 a1 a2 a3 a4} {s} :
    Does [.arrs] s (updLine a0 a1 a2 a3 a4 s) := by
  refine Does.also (t := s) Does.refl (fun h0 => ?_)
  unfold updLine
  extract_lets +onlyGivenNames y0
  refine Does.then updArr_does rfl ?_
  assumption

theorem beginRecon_does {a0 a1 a2 a3 a4 a5} {s} :
    Does [.cnt, .host, .err, .slate, .arrs, .models, .out] s (beginRecon a0 a1 a2 a3 a4 a5 s) := by
  refine Does.also (t := s) Does.refl (fun h0 => ?_)
  unfold beginRecon
  extract_lets +onlyGivenNames y0
  extract_lets +onlyGivenNames y1
  extract_lets +onlyGivenNames y2
  extract_lets +onlyGivenNames y3
  refine Does.also (t := y3) ?_ (fun hy3 => ?_)
  · subst y3
    refine Does.set_slate rfl _ ?_
    assumption
  clear_value y3
  revert y3
  refine Does.intro ?_
  intro y3 hy3
  refine Does.ite ?_ ?_
  · refine Does.then lineLost_does rfl ?_
    assumption
  · refine Does.ite ?_ ?_
    · assumption
    · refine Does.ite ?_ ?_
      · refine Does.then useAllowance_does rfl ?_
        refine Does.then updLine_does rfl ?_
        assumption
      · assumption

theorem actOnRead_does {a0 a1 a2 a3 a4 a5 a6 a7} {s} :
    Does [.cnt, .host, .err, .slate, .arrs, .models, .maint, .out] s (actOnRead a0 a1 a2 a3 a4 a5 a6 a7 s) := by
  refine Does.also (t := s) Does.refl (fun h0 => ?_)
  unfold actOnRead
  extract_lets +onlyGivenNames y0
  extract_lets +onlyGivenNames y1
  extract_lets +onlyGivenNames y2
  refine Does.also (t := y2) ?_ (fun hy2 => ?_)
  · subst y2
    refine Does.ite ?_ ?_
    · refine Does.set_slate rfl _ ?_
      assumption
    · assumption
  clear_value y2
  revert y2
  refine Does.intro ?_
  intro y2 hy2
  extract_lets +onlyGivenNames y3
  refine Does.also (t := y3) ?_ (fun hy3 => ?_)
  · subst y3
    refine Does.ite ?_ ?_
    · assumption
    · refine Does.then count_does rfl ?_
      assumption
  clear_value y3
  revert y3
  refine Does.intro ?_
  intro y3 hy3
  refine Does.ite ?_ ?_
  · refine Does.ite ?_ ?_
    · refine Does.then queueReloc_does rfl ?_
      assumption
    · assumption
  · split
    · rename_i x4
      assumption
    · rename_i x5
      refine Does.ite ?_ ?_
      · assumption
      · refine Does.then beginRecon_does rfl ?_
        assumption
    · rename_i x6
      refine Does.ite ?_ ?_
      · refine Does.then parityFix_does rfl ?_
        assumption
      · refine Does.then beginRecon_does rfl ?_
        assumption

theorem execLineReadComplete_does {a0 a1 a2 a3 a4 a5 a6 a7} {s} {t} (h : (execLineReadComplete a0 a1 a2 a3 a4 a5 a6 a7 s) = .next t) :
    Does [.fmtSticky, .cnt, .host, .err, .slate, .arrs, .models, .maint, .out] s t := by
  refine Does.also (t := s) Does.refl (fun h0 => ?_)
  unfold execLineReadComplete at h
  obtain rfl := Host.Outcome.next.inj h
  clear h
  refine ifMounted_does rfl ?_ (fun z1 hz2 => ?_)
  · assumption
  · extract_lets +onlyGivenNames y3
    refine Does.also (t := y3) ?_ (fun hy3 => ?_)
    · subst y3
      refine Does.ite ?_ ?_
      · refine Does.then slotEnd_does rfl ?_
        assumption
      · assumption
    clear_value y3
    revert y3
    refine Does.intro ?_
    intro y3 hy3
    extract_lets +onlyGivenNames y4
    refine Does.ite ?_ ?_
    · assumption
    · refine Does.then actOnRead_does rfl ?_
      assumption

theorem execReconstructionComplete_does {a0 a1 a2 a3 a4 a5} {s} {t} (h : (execReconstructionComplete a0 a1 a2 a3 a4 a5 s) = .next t) :
    Does [.cnt, .host, .err, .slate, .arrs, .models, .out] s t := by
  refine Does.also (t := s) Does.refl (fun h0 => ?_)
  unfold execReconstructionComplete at h
  obtain rfl := Host.Outcome.next.inj h
  clear h
  extract_lets +onlyGivenNames y0
  split
  · rename_i x2 x3
    assumption
  · rename_i x4 x5 x6
    extract_lets +onlyGivenNames y7
    refine Does.also (t := y7) ?_ (fun hy7 => ?_)
    · subst y7
      refine Does.set_slate rfl _ ?_
      assumption
    clear_value y7
    revert y7
    refine Does.intro ?_
    intro y7 hy7
    extract_lets +onlyGivenNames y8
    extract_lets +onlyGivenNames y9
    refine Does.also (t := y9) ?_ (fun hy9 => ?_)
    · subst y9
      refine Does.then endRecon_does rfl ?_
      assumption
    clear_value y9
    revert y9
    refine Does.intro ?_
    intro y9 hy9
    extract_lets +onlyGivenNames y10
    refine Does.ite ?_ ?_
    · refine Does.then reachClock_does rfl ?_
      refine Does.then updLine_does rfl ?_
      assumption
    · assumption

theorem unstage_does {a0} {s} :
    Does [.models] s (unstage a0 s) := by
  refine Does.also (t := s) Does.refl (fun h0 => ?_)
  unfold unstage
  extract_lets +onlyGivenNames y0
  split
  · rename_i x1 x2 x3
    refine Does.set_models rfl _ ?_
    assumption
  · rename_i x4 x5
    assumption

theorem settleStageEnd_does {s} :
    Does [.ram, .ramUndef, .mbx, .host, .taint, .tiers, .models, .spar, .out] s (settleStageEnd s) := by
  refine Does.also (t := s) Does.refl (fun h0 => ?_)
  unfold settleStageEnd
  extract_lets +onlyGivenNames y0
  split
  · rename_i x1 x2 x3
    split
    · rename_i x4 x5 x6
      refine Does.ite ?_ ?_
      · refine Does.then finish_does rfl ?_
        refine Does.set_models rfl _ ?_
        assumption
      · assumption
    · rename_i x7 x8
      assumption
  · rename_i x9 x10
    assumption

theorem sendActivation_does {a0} {s} :
    Does [.spar, .out] s (sendActivation a0 s) := by
  refine Does.also (t := s) Does.refl (fun h0 => ?_)
  unfold sendActivation
  refine Does.ite ?_ ?_
  · refine forEach_does ?_ (fun a0 z1 hz2 => ?_)
    · assumption
    · refine Does.then sendTo_does rfl ?_
      assumption
  · assumption

theorem resumeActivation_does {s} :
    Does [.spar, .sec, .out] s (resumeActivation s) := by
  refine Does.also (t := s) Does.refl (fun h0 => ?_)
  unfold resumeActivation
  extract_lets +onlyGivenNames y0
  extract_lets +onlyGivenNames y1
  refine Does.ite ?_ ?_
  · refine Does.then sendActivation_does rfl ?_
    refine Does.set_sec rfl _ ?_ ?_ ?_ ?_ ?_
    · exact Nat.le_refl _
    · exact Nat.le_refl _
    · exact Nat.le_refl _
    · exact Nat.le_refl _
    assumption
  · assumption

theorem closeStage_does {a0} {s} :
    Does [.models, .spar, .sec, .maint, .out] s (closeStage a0 s) := by
  refine Does.also (t := s) Does.refl (fun h0 => ?_)
  unfold closeStage
  extract_lets +onlyGivenNames y0
  refine Does.then resumeActivation_does rfl ?_
  refine Does.then endJob_does rfl ?_
  refine Does.set_models rfl _ ?_
  assumption

theorem leaveStage_does {a0} {s} :
    Does [.slate, .models] s (leaveStage a0 s) := by
  refine Does.also (t := s) Does.refl (fun h0 => ?_)
  unfold leaveStage
  extract_lets +onlyGivenNames y0
  refine Does.also (t := y0) ?_ (fun hy0 => ?_)
  · subst y0
    refine forEach_does ?_ (fun a1 z2 hz3 => ?_)
    · assumption
    · refine Does.then updPb_does rfl ?_
      assumption
  clear_value y0
  revert y0
  refine Does.intro ?_
  intro y0 hy0
  refine Does.ite ?_ ?_
  · refine Does.then updSlot_does rfl ?_
    assumption
  · assumption

theorem abortLocal_does {s} :
    Does [.cnt, .slate, .models, .spar, .sec, .maint, .out] s (abortLocal s) := by
  refine Does.also (t := s) Does.refl (fun h0 => ?_)
  unfold abortLocal
  extract_lets +onlyGivenNames y0
  split
  · rename_i x1 x2
    assumption
  · rename_i x3 x4 x5
    refine Does.then closeStage_does rfl ?_
    refine Does.then count_does rfl ?_
    refine Does.then leaveStage_does rfl ?_
    refine Does.set_models rfl _ ?_
    assumption

theorem abortAll_does {s} :
    Does [.cnt, .ram, .ramUndef, .mbx, .host, .slate, .taint, .tiers, .models, .spar, .sec, .maint, .out] s (abortAll s) := by
  refine Does.also (t := s) Does.refl (fun h0 => ?_)
  unfold abortAll
  split
  · rename_i x1 x2
    assumption
  · rename_i x3 x4 x5
    extract_lets +onlyGivenNames y6
    extract_lets +onlyGivenNames y7
    refine Does.also (t := y7) ?_ (fun hy7 => ?_)
    · subst y7
      refine forEach_does ?_ (fun a8 z9 hz10 => ?_)
      · assumption
      · refine Does.then sendTo_does rfl ?_
        assumption
    clear_value y7
    revert y7
    refine Does.intro ?_
    intro y7 hy7
    refine forEach_does ?_ (fun a11 z12 hz13 => ?_)
    · refine Does.then abortLocal_does rfl ?_
      assumption
    · refine Does.then waitDone_does rfl ?_
      assumption

theorem rejectStage_does {a0} {s} :
    Does [.slate, .models, .spar, .maint, .out] s (rejectStage a0 s) := by
  refine Does.also (t := s) Does.refl (fun h0 => ?_)
  unfold rejectStage
  split
  · rename_i x1 x2
    assumption
  · rename_i x3 x4 x5
    extract_lets +onlyGivenNames y6
    refine Does.also (t := y6) ?_ (fun hy6 => ?_)
    · subst y6
      refine forEach_does ?_ (fun a7 z8 hz9 => ?_)
      · assumption
      · refine Does.then sendTo_does rfl ?_
        assumption
    clear_value y6
    revert y6
    refine Does.intro ?_
    intro y6 hy6
    extract_lets +onlyGivenNames y10
    refine Does.also (t := y10) ?_ (fun hy10 => ?_)
    · subst y10
      refine Does.then leaveStage_does rfl ?_
      assumption
    clear_value y10
    revert y10
    refine Does.intro ?_
    intro y10 hy10
    extract_lets +onlyGivenNames y11
    extract_lets +onlyGivenNames y12
    refine Does.set_models_maint rfl _ _ ?_
    assumption

theorem settleFailed_does {a0} {s} :
    Does [.cnt, .ram, .ramUndef, .mbx, .host, .slate, .taint, .tiers, .models, .spar, .sec, .maint, .out] s (settleFailed a0 s) := by
  refine Does.also (t := s) Does.refl (fun h0 => ?_)
  unfold settleFailed
  extract_lets +onlyGivenNames y0
  extract_lets +onlyGivenNames y1
  refine Does.also (t := y1) ?_ (fun hy1 => ?_)
  · subst y1
    refine Does.set_models rfl _ ?_
    assumption
  clear_value y1
  revert y1
  refine Does.intro ?_
  intro y1 hy1
  refine Does.ite ?_ ?_
  · refine Does.then sendTo_does rfl ?_
    split
    · rename_i x2 x3 x4
      refine Does.then dropCmd_does rfl ?_
      assumption
    · rename_i x5 x6
      assumption
  · refine Does.then abortAll_does rfl ?_
    assumption

theorem settleStage_does {s} :
    Does [.cnt, .ram, .ramUndef, .mbx, .host, .slate, .taint, .tiers, .models, .spar, .sec, .maint, .out] s (settleStage s) := by
  refine Does.also (t := s) Does.refl (fun h0 => ?_)
  unfold settleStage
  extract_lets +onlyGivenNames y0
  split
  · rename_i x2 x3 x4
    extract_lets +onlyGivenNames y5
    extract_lets +onlyGivenNames y6
    refine Does.also (t := y6) ?_ (fun hy6 => ?_)
    · subst y6
      refine Does.set_models rfl _ ?_
      assumption
    clear_value y6
    revert y6
    refine Does.intro ?_
    intro y6 hy6
    refine Does.ite ?_ ?_
    · refine Does.ite ?_ ?_
      · refine Does.then settleFailed_does rfl ?_
        assumption
      · assumption
    · refine Does.ite ?_ ?_
      · refine Does.ite ?_ ?_
        · refine Does.then sendTo_does rfl ?_
          split
          · rename_i x7 x8 x9
            refine Does.then dropCmd_does rfl ?_
            assumption
          · rename_i x10 x11
            assumption
        · refine Does.then settleStageEnd_does rfl ?_
          refine Does.set_models rfl _ ?_
          assumption
      · assumption
  · rename_i x12 x13
    assumption

theorem stageProgrammed_does {a0 a1 a2 a3 a4} {s} :
    Does [.cnt, .ram, .ramUndef, .mbx, .host, .err, .slate, .taint, .tiers, .models, .spar, .sec, .maint, .out] s (stageProgrammed a0 a1 a2 a3 a4 s) := by
  refine Does.also (t := s) Does.refl (fun h0 => ?_)
  unfold stageProgrammed
  extract_lets +onlyGivenNames y0
  refine Does.also (t := y0) ?_ (fun hy0 => ?_)
  · subst y0
    refine Does.then updPb_does rfl ?_
    assumption
  clear_value y0
  revert y0
  refine Does.intro ?_
  intro y0 hy0
  refine Does.ite ?_ ?_
  · refine Does.then settleStage_does rfl ?_
    assumption
  · refine Does.then unstage_does rfl ?_
    refine Does.then retireBlock_does rfl ?_
    assumption

theorem relocProgrammed_does {a0 a1 a2 a3 a4 a5 a6} {s} :
    Does [.cnt, .host, .err, .slate, .models, .out] s (relocProgrammed a0 a1 a2 a3 a4 a5 a6 s) := by
  refine Does.also (t := s) Does.refl (fun h0 => ?_)
  unfold relocProgrammed
  extract_lets +onlyGivenNames y0
  refine Does.also (t := y0) ?_ (fun hy0 => ?_)
  · subst y0
    refine Does.then updReloc_does rfl ?_
    refine Does.then programBlock_does rfl ?_
    assumption
  clear_value y0
  revert y0
  refine Does.intro ?_
  intro y0 hy0
  extract_lets +onlyGivenNames y1
  refine Does.also (t := y1) ?_ (fun hy1 => ?_)
  · subst y1
    refine Does.then updReloc_does rfl ?_
    assumption
  clear_value y1
  revert y1
  refine Does.intro ?_
  intro y1 hy1
  extract_lets +onlyGivenNames y2
  refine Does.also (t := y2) ?_ (fun hy2 => ?_)
  · subst y2
    refine Does.then retryTargets_does rfl ?_
    refine Does.then retireBlock_does rfl ?_
    assumption
  clear_value y2
  revert y2
  refine Does.intro ?_
  intro y2 hy2
  refine Does.ite ?_ ?_
  · refine Does.ite ?_ ?_
    · assumption
    · refine forEach_does ?_ (fun a3 z4 hz5 => ?_)
      · assumption
      · refine Does.then loseLine_does rfl ?_
        assumption
  · refine Does.ite ?_ ?_
    · assumption
    · refine Does.then noBlockLeft_does rfl ?_
      assumption

theorem execBlockProgramComplete_does {a0 a1 a2 a3 a4} {s} {t} (h : (execBlockProgramComplete a0 a1 a2 a3 a4 s) = .next t) :
    Does [.cnt, .ram, .ramUndef, .mbx, .host, .err, .slate, .taint, .tiers, .models, .spar, .sec, .maint, .out] s t := by
  refine Does.also (t := s) Does.refl (fun h0 => ?_)
  unfold execBlockProgramComplete at h
  obtain rfl := Host.Outcome.next.inj h
  clear h
  extract_lets +onlyGivenNames y0
  refine ifMounted_does rfl ?_ (fun z2 hz3 => ?_)
  · assumption
  · extract_lets +onlyGivenNames y4
    refine Does.ite ?_ ?_
    · assumption
    · split
      · rename_i x5 x6 x7
        refine Does.ite ?_ ?_
        · refine Does.then relocProgrammed_does rfl ?_
          assumption
        · assumption
      · rename_i x8 x9
        split
        · rename_i x10 x11 x12
          refine Does.ite ?_ ?_
          · refine Does.then stageProgrammed_does rfl ?_
            assumption
          · assumption
        · rename_i x13 x14
          assumption

theorem eraseBlock_does {a0 a1} {s} :
    Does [.slate] s (eraseBlock a0 a1 s) := by
  refine Does.also (t := s) Does.refl (fun h0 => ?_)
  unfold eraseBlock
  extract_lets +onlyGivenNames y0
  refine Does.then updPb_does rfl ?_
  refine Does.set_slate rfl _ ?_
  assumption

theorem execBlockEraseComplete_does {a0 a1 a2 a3 a4} {s} {t} (h : (execBlockEraseComplete a0 a1 a2 a3 a4 s) = .next t) :
    Does [.cnt, .host, .err, .slate, .maint, .out] s t := by
  refine Does.also (t := s) Does.refl (fun h0 => ?_)
  unfold execBlockEraseComplete at h
  obtain rfl := Host.Outcome.next.inj h
  clear h
  extract_lets +onlyGivenNames y0
  refine ifMounted_does rfl ?_ (fun z2 hz3 => ?_)
  · assumption
  · extract_lets +onlyGivenNames y4
    refine Does.also (t := y4) ?_ (fun hy4 => ?_)
    · subst y4
      refine Does.ite ?_ ?_
      · refine Does.then retryTargets_does rfl ?_
        refine Does.then eraseBlock_does rfl ?_
        assumption
      · refine Does.then retireBlock_does rfl ?_
        refine Does.then updPb_does rfl ?_
        assumption
    clear_value y4
    revert y4
    refine Does.intro ?_
    intro y4 hy4
    refine Does.ite ?_ ?_
    · assumption
    · refine Does.ite ?_ ?_
      · assumption
      · refine Does.then endJob_does rfl ?_
        assumption

theorem runSDesc_does {a0 a1 a2} {s} :
    Does [.cnt, .host, .err, .slate, .out] s (sndSt (runSDesc a0 a1 a2 s)) := by
  refine Does.also (t := s) Does.refl (fun h0 => ?_)
  unfold runSDesc
  extract_lets +onlyGivenNames y0
  extract_lets +onlyGivenNames y1
  extract_lets +onlyGivenNames y2
  extract_lets +onlyGivenNames y3
  refine Does.ite2 ?_ ?_
  · refine Does.snd ?_
    assumption
  · refine Does.ite2 ?_ ?_
    · refine Does.ite2 ?_ ?_
      · refine Does.snd ?_
        assumption
      · refine Does.ite2 ?_ ?_
        · refine Does.snd ?_
          refine Does.then retireBlock_does rfl ?_
          assumption
        · refine Does.snd ?_
          refine Does.set_slate rfl _ ?_
          assumption
    · refine Does.ite2 ?_ ?_
      · refine Does.snd ?_
        refine Does.then eraseBlock_does rfl ?_
        assumption
      · refine Does.snd ?_
        refine Does.then retireBlock_does rfl ?_
        assumption

theorem execSlateDescriptor_does {a0 a1} {s} {t} (h : (execSlateDescriptor a0 a1 s) = .next t) :
    Does [.cnt, .ram, .ramUndef, .host, .err, .slate, .taint, .tiers, .out] s t := by
  refine Does.also (t := s) Does.refl (fun h0 => ?_)
  unfold execSlateDescriptor at h
  obtain rfl := Host.Outcome.next.inj h
  clear h
  refine ifMounted_does rfl ?_ (fun z1 hz2 => ?_)
  · assumption
  · split
    · rename_i x4 x5
      assumption
    · rename_i x6 x7 x8
      extract_lets +onlyGivenNames y9
      extract_lets +onlyGivenNames y10
      refine Does.also (t := y10.2) ?_ (fun hy10 => ?_)
      · refine Does.ofSnd ?_
        subst y10
        refine Does.then runSDesc_does rfl ?_
        assumption
      clear_value y10
      revert y10
      refine Does.intro2 ?_
      intro y10 hy10
      extract_lets +onlyGivenNames y11
      refine Does.also (t := y11) ?_ (fun hy11 => ?_)
      · subst y11
        refine Does.then writeDva_does rfl ?_
        refine Does.then writeDva_does rfl ?_
        assumption
      clear_value y11
      revert y11
      refine Does.intro ?_
      intro y11 hy11
      extract_lets +onlyGivenNames y12
      extract_lets +onlyGivenNames y13
      refine Does.ite ?_ ?_
      · assumption
      · refine Does.set_slate rfl _ ?_
        assumption

theorem beginParity_does {a0 a1 a2 a3} {s} :
    Does [.cnt, .ram, .ramUndef, .mbx, .host, .slate, .taint, .tiers, .models, .spar, .sec, .maint, .out] s (beginParity a0 a1 a2 a3 s) := by
  refine Does.also (t := s) Does.refl (fun h0 => ?_)
  unfold beginParity
  extract_lets +onlyGivenNames y0
  extract_lets +onlyGivenNames y1
  extract_lets +onlyGivenNames y2
  split
  · rename_i x4 x5
    refine Does.then settleStage_does rfl ?_
    refine Does.set_models rfl _ ?_
    assumption
  · rename_i x6 x7 x8
    extract_lets +onlyGivenNames y9
    extract_lets +onlyGivenNames y10
    extract_lets +onlyGivenNames y11
    refine Does.then updPb_does rfl ?_
    refine Does.then programBlock_does rfl ?_
    refine Does.set_models rfl _ ?_
    assumption

theorem execParityPass_does {a0 a1 a2 a3} {s} {t} (h : (execParityPass a0 a1 a2 a3 s) = .next t) :
    Does [.cnt, .ram, .ramUndef, .mbx, .host, .err, .slate, .taint, .tiers, .models, .spar, .sec, .maint, .out] s t := by
  refine Does.also (t := s) Does.refl (fun h0 => ?_)
  unfold execParityPass at h
  obtain rfl := Host.Outcome.next.inj h
  clear h
  refine ifMounted_does rfl ?_ (fun z1 hz2 => ?_)
  · assumption
  · split
    · rename_i x4 x5
      assumption
    · rename_i x6 x7 x8
      extract_lets +onlyGivenNames y9
      refine Does.ite ?_ ?_
      · assumption
      · refine Does.ite ?_ ?_
        · refine forEach_does ?_ (fun a10 z11 hz12 => ?_)
          · assumption
          · refine Does.then unstage_does rfl ?_
            refine Does.then retireBlock_does rfl ?_
            assumption
        · refine Does.then beginParity_does rfl ?_
          assumption

theorem setRepl_does {a0 a1 a2 a3 a4 a5} {s} :
    Does [.slate] s (setRepl a0 a1 a2 a3 a4 a5 s) := by
  refine Does.also (t := s) Does.refl (fun h0 => ?_)
  unfold setRepl
  extract_lets +onlyGivenNames y0
  refine Does.set_slate rfl _ ?_
  assumption

theorem rewriteTable_does {a0 a1 a2 a3} {s} :
    Does [.cnt, .host, .err, .slate, .maint, .out] s (rewriteTable a0 a1 a2 a3 s) := by
  refine Does.also (t := s) Does.refl (fun h0 => ?_)
  unfold rewriteTable
  refine forEach_does ?_ (fun a1 z2 hz3 => ?_)
  · assumption
  · extract_lets +onlyGivenNames y4
    extract_lets +onlyGivenNames y5
    extract_lets +onlyGivenNames y6
    refine Does.then setRepl_does rfl ?_
    refine Does.then queueReloc_does rfl ?_
    assumption

theorem tableLost_does {a0 a1 a2} {s} :
    Does [.cnt, .host, .err, .models, .out] s (tableLost a0 a1 a2 s) := by
  refine Does.also (t := s) Does.refl (fun h0 => ?_)
  unfold tableLost
  extract_lets +onlyGivenNames y0
  refine Does.also (t := y0) ?_ (fun hy0 => ?_)
  · subst y0
    refine Does.then record_does rfl ?_
    assumption
  clear_value y0
  revert y0
  refine Does.intro ?_
  intro y0 hy0
  refine Does.ite ?_ ?_
  · refine Does.then updSlot_does rfl ?_
    assumption
  · refine Does.then slotLoses_does rfl ?_
    refine Does.then updSlot_does rfl ?_
    assumption

theorem touchTable_does {a0} {s} :
    Does [.cnt, .host, .err, .slate, .models, .out] s (touchTable a0 s) := by
  refine Does.also (t := s) Does.refl (fun h0 => ?_)
  unfold touchTable
  refine forEach_does ?_ (fun a0 z1 hz2 => ?_)
  · assumption
  · refine Does.then touchLine_does rfl ?_
    assumption

theorem checkTable_does {a0 a1 a2} {s} :
    Does [.cnt, .host, .err, .slate, .models, .maint, .out] s (checkTable a0 a1 a2 s) := by
  refine Does.also (t := s) Does.refl (fun h0 => ?_)
  unfold checkTable
  extract_lets +onlyGivenNames y0
  extract_lets +onlyGivenNames y1
  refine Does.also (t := y1) ?_ (fun hy1 => ?_)
  · subst y1
    refine Does.then touchTable_does rfl ?_
    assumption
  clear_value y1
  revert y1
  refine Does.intro ?_
  intro y1 hy1
  extract_lets +onlyGivenNames y2
  extract_lets +onlyGivenNames y3
  refine Does.ite ?_ ?_
  · assumption
  · split
    · rename_i x4 x5 x6 x7 x8 x9
      refine Does.ite ?_ ?_
      · dsimp only [y2]
        refine Does.then updSlot_does rfl ?_
        assumption
      · refine Does.then tableLost_does rfl ?_
        assumption
    · rename_i x10 x11 x12 x13 x14
      dsimp only [y2]
      refine Does.then updSlot_does rfl ?_
      dsimp only [y3]
      refine Does.then record_does rfl ?_
      refine Does.then rewriteTable_does rfl ?_
      assumption
    · rename_i x15 x16 x17 x18 x19
      dsimp only [y2]
      refine Does.then updSlot_does rfl ?_
      dsimp only [y3]
      refine Does.then record_does rfl ?_
      refine Does.then rewriteTable_does rfl ?_
      assumption
    · rename_i x20 x21 x22 x23
      refine Does.then tableLost_does rfl ?_
      assumption

theorem checkTables_does {a0} {s} :
    Does [.cnt, .host, .err, .slate, .models, .maint, .out] s (checkTables a0 s) := by
  refine Does.also (t := s) Does.refl (fun h0 => ?_)
  unfold checkTables
  refine forEach_does ?_ (fun a0 z1 hz2 => ?_)
  · assumption
  · refine Does.then checkTable_does rfl ?_
    assumption

theorem checkPlanTables_does {a0} {s} :
    Does [.cnt, .host, .err, .slate, .models, .maint, .out] s (checkPlanTables a0 s) := by
  refine Does.also (t := s) Does.refl (fun h0 => ?_)
  unfold checkPlanTables
  split
  · rename_i x0 x1 x2
    refine forEach_does ?_ (fun a3 z4 hz5 => ?_)
    · assumption
    · refine Does.ite ?_ ?_
      · refine Does.then checkTables_does rfl ?_
        assumption
      · assumption
  · rename_i x6 x7
    assumption

theorem beginPlan_does {a0 a1} {s} :
    Does [.cnt, .ram, .ramUndef, .host, .err, .slate, .plans, .models, .codec, .spar, .maint, .out] s (beginPlan a0 a1 s) := by
  refine Does.also (t := s) Does.refl (fun h0 => ?_)
  unfold beginPlan
  refine Does.then startPlan_does rfl ?_
  refine Does.then checkPlanTables_does rfl ?_
  assumption

theorem planStart_does {a0} {s} :
    Does [.cnt, .ram, .ramUndef, .host, .err, .slate, .plans, .models, .codec, .spar, .maint, .out] s (replySt (planStart a0 s)) := by
  refine Does.also (t := s) Does.refl (fun h0 => ?_)
  unfold planStart
  refine checked_does ?_ ?_
  · assumption
  · split
    · rename_i x0 x1 x2
      refine Does.iteR ?_ ?_
      · refine Does.running ?_
        refine Does.then sendGroup_does rfl ?_
        assumption
      · refine Does.done ?_
        refine Does.then beginPlan_does rfl ?_
        assumption
    · rename_i x3 x4
      refine Does.done ?_
      assumption

theorem execPlanStart_does {a0} {s} {t} (h : (execPlanStart a0 s) = .next t) :
    Does [.cnt, .ram, .ramUndef, .mbx, .host, .err, .slate, .plans, .taint, .tiers, .models, .codec, .spar, .maint, .out] s t := by
  refine Does.also (t := s) Does.refl (fun h0 => ?_)
  unfold execPlanStart at h
  obtain rfl := Host.Outcome.next.inj h
  clear h
  refine iarik_does rfl ?_ (fun c0 z1 hz2 => ?_)
  · assumption
  · refine Does.then planStart_does rfl ?_
    assumption

theorem endCkptCmd_does {a0} {s} :
    Does [.cnt, .ram, .ramUndef, .mbx, .host, .err, .slate, .taint, .tiers, .models, .spar, .maint, .out] s (endCkptCmd a0 s) := by
  refine Does.also (t := s) Does.refl (fun h0 => ?_)
  unfold endCkptCmd
  extract_lets +onlyGivenNames y0
  refine Does.ite ?_ ?_
  · assumption
  · split
    · rename_i x3 x4 x5
      extract_lets +onlyGivenNames y6
      extract_lets +onlyGivenNames y7
      refine Does.also (t := y7) ?_ (fun hy7 => ?_)
      · subst y7
        refine Does.then checkTables_does rfl ?_
        refine Does.then updSlot_does rfl ?_
        assumption
      clear_value y7
      revert y7
      refine Does.intro ?_
      intro y7 hy7
      extract_lets +onlyGivenNames y8
      refine Does.also (t := y8) ?_ (fun hy8 => ?_)
      · subst y8
        refine Does.ite ?_ ?_
        · refine Does.set_models rfl _ ?_
          assumption
        · refine Does.ite ?_ ?_
          · refine Does.then updSlot_does rfl ?_
            assumption
          · assumption
      clear_value y8
      revert y8
      refine Does.intro ?_
      intro y8 hy8
      extract_lets +onlyGivenNames y9
      refine Does.then waitDone_does rfl ?_
      refine Does.set_spar rfl _ ?_
      assumption
    · rename_i x10 x11
      assumption

theorem setStackReady_does {a0 a1} {s} :
    Does [.ready] s (setStackReady a0 a1 s) := by
  refine Does.also (t := s) Does.refl (fun h0 => ?_)
  unfold setStackReady
  extract_lets +onlyGivenNames y0
  refine Does.ite ?_ ?_
  · refine Does.set_ready rfl _ ?_
    assumption
  · refine Does.set_ready rfl _ ?_
    assumption

theorem setStackFatal_does {a0 a1} {s} :
    Does [.err] s (setStackFatal a0 a1 s) := by
  refine Does.also (t := s) Does.refl (fun h0 => ?_)
  unfold setStackFatal
  extract_lets +onlyGivenNames y0
  refine Does.ite ?_ ?_
  · refine Does.set_err rfl _ ?_ ?_
    · exact fun h => h
    assumption
  · refine Does.set_err rfl _ ?_ ?_
    · exact fun h => h
    assumption

theorem endReinit_does {a0 a1} {s} :
    Does [.ready, .err, .slate] s (endReinit a0 a1 s) := by
  refine Does.also (t := s) Does.refl (fun h0 => ?_)
  unfold endReinit
  refine Does.ite ?_ ?_
  · refine Does.then setStackFatal_does rfl ?_
    refine Does.then setStackReady_does rfl ?_
    refine Does.then updStack_does rfl ?_
    assumption
  · assumption

theorem fallDue_does {l} {s t} {act i k} (hl : sub [.pwr] l = true) (h : Does l s t)
    (hk : ∀ y, Does l s y → Does l s (k y)) : Does l s (fallDue act i k t) := by
  unfold fallDue
  extract_lets s1
  have h1 : Does l s s1 := Does.thenVia (n := [.pwr]) wakeEvent_does rfl hl h
  clear_value s1
  refine Does.ite (Does.ite h1 (hk _ h1)) (Does.ite ?_ h1)
  exact h1.trans ((Does.set_pwr rfl _ Does.refl : Does [.pwr] s1 _).mono hl)

theorem execCheckpointInterval_does {a0} {s} {t} (h : (execCheckpointInterval a0 s) = .next t) :
    Does [.pwr, .slate, .maint] s t := by
  refine Does.also (t := s) Does.refl (fun h0 => ?_)
  unfold execCheckpointInterval at h
  obtain rfl := Host.Outcome.next.inj h
  clear h
  refine Does.ite ?_ ?_
  · assumption
  · refine fallDue_does rfl ?_ (fun z0 hz1 => ?_)
    · assumption
    · refine Does.ite ?_ ?_
      · assumption
      · refine Does.then startCkpt_does rfl ?_
        assumption

theorem execCheckpointCommit_does {a0 a1} {s} {t} (h : (execCheckpointCommit a0 a1 s) = .next t) :
    Does [.ready, .cnt, .ram, .ramUndef, .mbx, .host, .err, .slate, .taint, .tiers, .models, .spar, .maint, .out] s t := by
  refine Does.also (t := s) Does.refl (fun h0 => ?_)
  unfold execCheckpointCommit at h
  obtain rfl := Host.Outcome.next.inj h
  clear h
  refine Does.ite ?_ ?_
  · assumption
  · split
    · rename_i x2 x3
      assumption
    · rename_i x4 x5 x6
      extract_lets +onlyGivenNames y7
      refine Does.also (t := y7) ?_ (fun hy7 => ?_)
      · subst y7
        refine Does.then updStack_does rfl ?_
        assumption
      clear_value y7
      revert y7
      refine Does.intro ?_
      intro y7 hy7
      extract_lets +onlyGivenNames y8
      refine Does.also (t := y8) ?_ (fun hy8 => ?_)
      · subst y8
        refine forEach_does ?_ (fun a9 z10 hz11 => ?_)
        · refine Does.then endReinit_does rfl ?_
          refine Does.then endJob_does rfl ?_
          assumption
        · refine Does.then endCkptCmd_does rfl ?_
          assumption
      clear_value y8
      revert y8
      refine Does.intro ?_
      intro y8 hy8
      refine Does.ite ?_ ?_
      · assumption
      · refine Does.ite ?_ ?_
        · refine Does.then updStack_does rfl ?_
          assumption
        · split
          · rename_i x15 x16 x17
            extract_lets +onlyGivenNames y18
            refine Does.also (t := y18) ?_ (fun hy18 => ?_)
            · subst y18
              refine Does.then askCkpt_does rfl ?_
              assumption
            clear_value y18
            revert y18
            refine Does.intro ?_
            intro y18 hy18
            refine Does.then updStack_does rfl ?_
            assumption
          · rename_i x19 x20
            assumption

theorem execReadCountThreshold_does {a0 a1 a2} {s} {t} (h : (execReadCountThreshold a0 a1 a2 s) = .next t) :
    Does [.cnt, .host, .err, .slate, .maint, .out] s t := by
  refine Does.also (t := s) Does.refl (fun h0 => ?_)
  unfold execReadCountThreshold at h
  obtain rfl := Host.Outcome.next.inj h
  clear h
  refine ifMounted_does rfl ?_ (fun z0 hz1 => ?_)
  · assumption
  · refine Does.ite ?_ ?_
    · refine Does.then queueReloc_does rfl ?_
      assumption
    · assumption

theorem switchCell_does {a0 a1} {s} :
    Does [.slate] s (switchCell a0 a1 s) := by
  refine Does.also (t := s) Does.refl (fun h0 => ?_)
  unfold switchCell
  extract_lets +onlyGivenNames y0
  split
  · rename_i x1 x2
    assumption
  · rename_i x3 x4 x5
    refine Does.then updSb_does rfl ?_
    split
    · rename_i x6 x7 x8
      refine Does.set_slate rfl _ ?_
      assumption
    · rename_i x9 x10
      assumption

theorem noteLost_does {a0} {s} :
    Does [.slate] s (noteLost a0 s) := by
  refine Does.also (t := s) Does.refl (fun h0 => ?_)
  unfold noteLost
  extract_lets +onlyGivenNames y0
  split
  · rename_i x2 x3 x4 x5 x6 x7
    extract_lets +onlyGivenNames y8
    refine Does.set_slate rfl _ ?_
    assumption
  · rename_i x9 x10 x11
    assumption

theorem ckptBoth_does {a0} {s} :
    Does [.cnt, .ram, .ramUndef, .mbx, .host, .err, .slate, .taint, .tiers, .models, .spar, .maint, .out] s (ckptBoth a0 s) := by
  refine Does.also (t := s) Does.refl (fun h0 => ?_)
  unfold ckptBoth
  split
  · rename_i x0 x1
    split
    · rename_i x2 x3
      refine Does.then endCkptCmd_does rfl ?_
      assumption
    · rename_i x4
      assumption
  · rename_i x5 x6
    refine forEach_does ?_ (fun a7 z8 hz9 => ?_)
    · assumption
    · refine Does.then askCkpt_does rfl ?_
      assumption

theorem settleRepair_does {a0} {s} :
    Does [.cnt, .ram, .ramUndef, .mbx, .host, .err, .slate, .taint, .tiers, .models, .spar, .maint, .out] s (settleRepair a0 s) := by
  refine Does.also (t := s) Does.refl (fun h0 => ?_)
  unfold settleRepair
  extract_lets +onlyGivenNames y0
  refine Does.ite ?_ ?_
  · assumption
  · split
    · rename_i x3 x4
      assumption
    · rename_i x5 x6 x7
      extract_lets +onlyGivenNames y8
      refine Does.also (t := y8) ?_ (fun hy8 => ?_)
      · subst y8
        refine Does.then putOut_does rfl ?_
        assumption
      clear_value y8
      revert y8
      refine Does.intro ?_
      intro y8 hy8
      extract_lets +onlyGivenNames y9
      extract_lets +onlyGivenNames y10
      refine Does.also (t := y10) ?_ (fun hy10 => ?_)
      · subst y10
        refine Does.set_slate rfl _ ?_
        assumption
      clear_value y10
      revert y10
      refine Does.intro ?_
      intro y10 hy10
      refine Does.then ckptBoth_does rfl ?_
      assumption

theorem switchReloc_does {a0} {s} :
    Does [.cnt, .ram, .ramUndef, .mbx, .host, .err, .slate, .taint, .tiers, .models, .spar, .maint, .out] s (switchReloc a0 s) := by
  refine Does.also (t := s) Does.refl (fun h0 => ?_)
  unfold switchReloc
  extract_lets +onlyGivenNames y0
  refine Does.also (t := y0) ?_ (fun hy0 => ?_)
  · subst y0
    refine forEach_does ?_ (fun a1 z2 hz3 => ?_)
    · assumption
    · refine Does.then switchCell_does rfl ?_
      assumption
  clear_value y0
  revert y0
  refine Does.intro ?_
  intro y0 hy0
  extract_lets +onlyGivenNames y4
  extract_lets +onlyGivenNames y5
  refine Does.also (t := y5) ?_ (fun hy5 => ?_)
  · subst y5
    refine Does.set_slate rfl _ ?_
    assumption
  clear_value y5
  revert y5
  refine Does.intro ?_
  intro y5 hy5
  extract_lets +onlyGivenNames y6
  extract_lets +onlyGivenNames y7
  extract_lets +onlyGivenNames y8
  refine Does.also (t := y8) ?_ (fun hy8 => ?_)
  · subst y8
    refine Does.ite ?_ ?_
    · refine Does.then count_does rfl ?_
      refine Does.set_slate rfl _ ?_
      assumption
    · assumption
  clear_value y8
  revert y8
  refine Does.intro ?_
  intro y8 hy8
  extract_lets +onlyGivenNames y9
  refine Does.also (t := y9) ?_ (fun hy9 => ?_)
  · subst y9
    refine Does.ite ?_ ?_
    · refine Does.then count_does rfl ?_
      assumption
    · assumption
  clear_value y9
  revert y9
  refine Does.intro ?_
  intro y9 hy9
  extract_lets +onlyGivenNames y10
  refine Does.also (t := y10) ?_ (fun hy10 => ?_)
  · subst y10
    split
    · rename_i x11 x12 x13
      refine Does.then settleRepair_does rfl ?_
      refine Does.then noteLost_does rfl ?_
      assumption
    · rename_i x14 x15
      assumption
  clear_value y10
  revert y10
  refine Does.intro ?_
  intro y10 hy10
  refine Does.ite ?_ ?_
  · refine Does.then endJob_does rfl ?_
    assumption
  · assumption

theorem execRelocationSwitch_does {a0} {s} {t} (h : (execRelocationSwitch a0 s) = .next t) :
    Does [.cnt, .ram, .ramUndef, .mbx, .host, .err, .slate, .taint, .tiers, .models, .spar, .maint, .out] s t := by
  refine Does.also (t := s) Does.refl (fun h0 => ?_)
  unfold execRelocationSwitch at h
  obtain rfl := Host.Outcome.next.inj h
  clear h
  refine ifMounted_does rfl ?_ (fun z0 hz1 => ?_)
  · assumption
  · refine Does.ite ?_ ?_
    · assumption
    · refine forEach_does ?_ (fun a2 z3 hz4 => ?_)
      · assumption
      · refine Does.then switchReloc_does rfl ?_
        assumption

theorem scrubLine_does {a0 a1 a2 a3 a4 a5} {s} :
    Does [.cnt, .host, .err, .slate, .maint, .out] s (scrubLine a0 a1 a2 a3 a4 a5 s) := by
  refine Does.also (t := s) Does.refl (fun h0 => ?_)
  unfold scrubLine
  extract_lets +onlyGivenNames y0
  extract_lets +onlyGivenNames y1
  refine Does.also (t := y1) ?_ (fun hy1 => ?_)
  · subst y1
    refine Does.then countGroup_does rfl ?_
    assumption
  clear_value y1
  revert y1
  refine Does.intro ?_
  intro y1 hy1
  extract_lets +onlyGivenNames y2
  extract_lets +onlyGivenNames y3
  refine Does.also (t := y3) ?_ (fun hy3 => ?_)
  · subst y3
    refine Does.ite ?_ ?_
    · assumption
    · refine Does.then count_does rfl ?_
      assumption
  clear_value y3
  revert y3
  refine Does.intro ?_
  intro y3 hy3
  refine Does.ite ?_ ?_
  · assumption
  · refine Does.ite ?_ ?_
    · refine Does.set_slate rfl _ ?_
      assumption
    · refine Does.ite ?_ ?_
      · refine Does.then queueReloc_does rfl ?_
        assumption
      · assumption

theorem execScrubPass_does {a0 a1 a2 a3 a4} {s} {t} (h : (execScrubPass a0 a1 a2 a3 a4 s) = .next t) :
    Does [.cnt, .host, .pwr, .err, .slate, .models, .maint, .out] s t := by
  refine Does.also (t := s) Does.refl (fun h0 => ?_)
  unfold execScrubPass at h
  obtain rfl := Host.Outcome.next.inj h
  clear h
  refine fallDue_does rfl ?_ (fun z1 hz2 => ?_)
  · assumption
  · refine ifMounted_does rfl ?_ (fun z4 hz5 => ?_)
    · assumption
    · extract_lets +onlyGivenNames y6
      refine Does.also (t := y6) ?_ (fun hy6 => ?_)
      · subst y6
        refine Does.then deviceJob_does rfl ?_
        assumption
      clear_value y6
      revert y6
      refine Does.intro ?_
      intro y6 hy6
      extract_lets +onlyGivenNames y7
      refine Does.also (t := y7) ?_ (fun hy7 => ?_)
      · subst y7
        refine forUpto_does ?_ (fun a8 z9 hz10 => ?_)
        · assumption
        · refine Does.then scrubLine_does rfl ?_
          assumption
      clear_value y7
      revert y7
      refine Does.intro ?_
      intro y7 hy7
      extract_lets +onlyGivenNames y11
      refine Does.also (t := y11) ?_ (fun hy11 => ?_)
      · subst y11
        refine Does.ite ?_ ?_
        · refine Does.then parityFix_does rfl ?_
          assumption
        · assumption
      clear_value y11
      revert y11
      refine Does.intro ?_
      intro y11 hy11
      extract_lets +onlyGivenNames y12
      refine Does.also (t := y12) ?_ (fun hy12 => ?_)
      · subst y12
        refine forEach_does ?_ (fun a13 z14 hz15 => ?_)
        · assumption
        · refine forEach_does ?_ (fun a16 z17 hz18 => ?_)
          · assumption
          · refine Does.then checkTable_does rfl ?_
            assumption
      clear_value y12
      revert y12
      refine Does.intro ?_
      intro y12 hy12
      refine Does.ite ?_ ?_
      · assumption
      · refine Does.ite ?_ ?_
        · refine Does.then endJob_does rfl ?_
          assumption
        · assumption

theorem execWearCheck_does {a0 a1 a2} {s} {t} (h : (execWearCheck a0 a1 a2 s) = .next t) :
    Does [.slate, .maint] s t := by
  refine Does.also (t := s) Does.refl (fun h0 => ?_)
  unfold execWearCheck at h
  obtain rfl := Host.Outcome.next.inj h
  clear h
  extract_lets +onlyGivenNames y0
  refine ifMounted_does rfl ?_ (fun z2 hz3 => ?_)
  · assumption
  · extract_lets +onlyGivenNames y4
    refine Does.ite ?_ ?_
    · assumption
    · split
      · rename_i x5 x6 x7 x8 x9 x10
        refine Does.ite ?_ ?_
        · refine Does.then deviceJob_does rfl ?_
          refine Does.set_slate rfl _ ?_
          assumption
        · assumption
      · rename_i x11 x12 x13
        assumption

theorem execGcErase_does {a0 a1 a2 a3} {s} {t} (h : (execGcErase a0 a1 a2 a3 s) = .next t) :
    Does [.slate, .maint] s t := by
  refine Does.also (t := s) Does.refl (fun h0 => ?_)
  unfold execGcErase at h
  obtain rfl := Host.Outcome.next.inj h
  clear h
  extract_lets +onlyGivenNames y0
  refine ifMounted_does rfl ?_ (fun z1 hz2 => ?_)
  · assumption
  · refine Does.ite ?_ ?_
    · refine Does.then deviceJob_does rfl ?_
      refine Does.then updPb_does rfl ?_
      assumption
    · assumption

end Sys2Proof.Laws
end

