-- ==== Sys2Proof/Laws/Power.lean ====
section
/-! SUPPORT. Sys2Proof/Laws/Power.lean: what each operation and meaning of Machine/Power.lean can do, as `Does` says it: which blocks of
the state it may change, that it keeps the invariant, and that it lowers nothing that only rises. -/

namespace Sys2Proof.Laws

open Sys2Proof.Machine Sys2Proof.Safety

theorem haltAll_does {s} :
    Does [.fmtSticky, .cnt, .ram, .ramUndef, .mbx, .host, .slate, .plans, .arrs, .exclStored, .norm, .normSum, .taint, .tiers, .models, .codec, .spar, .out, .free] s (haltAll s) := by
  refine Does.also (t := s) Does.refl (fun h0 => ?_)
  unfold haltAll
  refine forEach_does ?_ (fun a0 z1 hz2 => ?_)
  · assumption
  · refine Does.then haltPlan_does rfl ?_
    assumption

theorem deviceFatal_does {a0} {s} :
    Does [.fmtSticky, .cnt, .ram, .ramUndef, .mbx, .host, .err, .slate, .plans, .arrs, .exclStored, .norm, .normSum, .taint, .tiers, .models, .codec, .spar, .maint, .out, .free] s (deviceFatal a0 s) := by
  refine Does.also (t := s) Does.refl (fun h0 => ?_)
  unfold deviceFatal
  extract_lets +onlyGivenNames y0
  refine Does.also (t := y0) ?_ (fun hy0 => ?_)
  · subst y0
    refine Does.then haltAll_does rfl ?_
    assumption
  clear_value y0
  revert y0
  refine Does.intro ?_
  intro y0 hy0
  extract_lets +onlyGivenNames y1
  refine Does.also (t := y1) ?_ (fun hy1 => ?_)
  · subst y1
    refine Does.then endJobs_does rfl ?_
    assumption
  clear_value y1
  revert y1
  refine Does.intro ?_
  intro y1 hy1
  extract_lets +onlyGivenNames y2
  extract_lets +onlyGivenNames y3
  extract_lets +onlyGivenNames y4
  extract_lets +onlyGivenNames y5
  extract_lets +onlyGivenNames y6
  refine Does.also (t := y6) ?_ (fun hy6 => ?_)
  · subst y6
    refine Does.set_err_slate_maint rfl _ _ _ ?_ ?_
    · exact fun h => h
    assumption
  clear_value y6
  revert y6
  refine Does.intro ?_
  intro y6 hy6
  refine forEach_does ?_ (fun a7 z8 hz9 => ?_)
  · refine Does.then record_does rfl ?_
    assumption
  · refine Does.then finish_does rfl ?_
    assumption

theorem execClockFault_does {s} {t} (h : (execClockFault s) = .next t) :
    Does [.fmtSticky, .cnt, .ram, .ramUndef, .mbx, .host, .err, .slate, .plans, .arrs, .exclStored, .norm, .normSum, .taint, .tiers, .models, .codec, .spar, .maint, .out, .free] s t := by
  refine Does.also (t := s) Does.refl (fun h0 => ?_)
  unfold execClockFault at h
  obtain rfl := Host.Outcome.next.inj h
  clear h
  refine Does.ite ?_ ?_
  · refine Does.then deviceFatal_does rfl ?_
    assumption
  · assumption

theorem execFwFault_does {s} {t} (h : (execFwFault s) = .next t) :
    Does [.fmtSticky, .cnt, .ram, .ramUndef, .mbx, .host, .err, .slate, .plans, .arrs, .exclStored, .norm, .normSum, .taint, .tiers, .models, .codec, .spar, .maint, .out, .free] s t := by
  refine Does.also (t := s) Does.refl (fun h0 => ?_)
  unfold execFwFault at h
  obtain rfl := Host.Outcome.next.inj h
  clear h
  refine Does.then deviceFatal_does rfl ?_
  assumption

theorem execMgmtUe_does {s} {t} (h : (execMgmtUe s) = .next t) :
    Does [.fmtSticky, .cnt, .ram, .ramUndef, .mbx, .host, .err, .slate, .plans, .arrs, .exclStored, .norm, .normSum, .taint, .tiers, .models, .codec, .spar, .maint, .out, .free] s t := by
  refine Does.also (t := s) Does.refl (fun h0 => ?_)
  unfold execMgmtUe at h
  obtain rfl := Host.Outcome.next.inj h
  clear h
  refine Does.then deviceFatal_does rfl ?_
  assumption

theorem execSupplyFault_does {s} {t} (h : (execSupplyFault s) = .next t) :
    Does [.fmtSticky, .cnt, .ram, .ramUndef, .mbx, .host, .err, .slate, .plans, .arrs, .exclStored, .norm, .normSum, .taint, .tiers, .models, .codec, .spar, .maint, .out, .free] s t := by
  refine Does.also (t := s) Does.refl (fun h0 => ?_)
  unfold execSupplyFault at h
  obtain rfl := Host.Outcome.next.inj h
  clear h
  refine Does.ite ?_ ?_
  · refine Does.then deviceFatal_does rfl ?_
    assumption
  · assumption

theorem loseVolatile_does {s} :
    Does [.ready, .fmtSticky, .cnt, .ram, .ramUndef, .mgmt, .mbx, .err, .slate, .plans, .arrs, .norm, .normSum, .taint, .tiers, .models, .codec, .spar, .sec, .flash, .maint] s (loseVolatile s) := by
  refine Does.also (t := s) Does.refl (fun h0 => ?_)
  unfold loseVolatile
  extract_lets +onlyGivenNames y0
  extract_lets +onlyGivenNames y1
  extract_lets +onlyGivenNames y2
  extract_lets +onlyGivenNames y3
  extract_lets +onlyGivenNames y4
  extract_lets +onlyGivenNames y5
  extract_lets +onlyGivenNames y6
  extract_lets +onlyGivenNames y7
  refine Does.set_ready_fmtSticky_cnt_ram_ramUndef_mgmt_mbx_err_slate_plans_arrs_norm_normSum_taint_tiers_models_codec_spar_sec_flash_maint rfl _ _ _ _ _ _ _ _ _ _ _ _ _ _ _ _ _ _ _ _ _ ?_ ?_ ?_ ?_ ?_ ?_ ?_ ?_ ?_ ?_
  · exact fun _ _ h => absurd h List.not_mem_nil
  · exact fun h => filter_wf h
  · exact fun _ => rfl
  · exact fun _ => ring_reset
  · exact Nat.le_refl _
  · exact Nat.le_refl _
  · exact Nat.le_refl _
  · exact Nat.le_refl _
  · exact fun h => h
  assumption

theorem loseCold_does {s} :
    Does [.ready, .fmtSticky, .cnt, .ram, .ramUndef, .mgmt, .mbx, .host, .tbu, .pwr, .err, .slate, .plans, .arrs, .norm, .normSum, .taint, .tiers, .models, .codec, .spar, .sec, .flash, .maint] s (loseCold s) := by
  refine Does.also (t := s) Does.refl (fun h0 => ?_)
  unfold loseCold
  extract_lets +onlyGivenNames y0
  refine Does.also (t := y0) ?_ (fun hy0 => ?_)
  · subst y0
    refine Does.then loseVolatile_does rfl ?_
    assumption
  clear_value y0
  revert y0
  refine Does.intro ?_
  intro y0 hy0
  extract_lets +onlyGivenNames y1
  extract_lets +onlyGivenNames y2
  extract_lets +onlyGivenNames y3
  extract_lets +onlyGivenNames y4
  extract_lets +onlyGivenNames y5
  refine Does.set_ram_host_tbu_pwr_slate_tiers_spar_sec rfl _ _ _ _ _ _ _ _ ?_ ?_ ?_ ?_ ?_ ?_
  · exact fun _ => rfl
  · exact Nat.le_refl _
  · exact Nat.le_refl _
  · exact Nat.le_refl _
  · exact Nat.le_refl _
  assumption

theorem execThermtrip_does {s} {t} (h : (execThermtrip s) = .next t) :
    Does [.ready, .fmtSticky, .cnt, .ram, .ramUndef, .mgmt, .mbx, .host, .tbu, .pwr, .err, .slate, .plans, .arrs, .norm, .normSum, .taint, .tiers, .models, .codec, .spar, .sec, .flash, .maint, .out] s t := by
  refine Does.also (t := s) Does.refl (fun h0 => ?_)
  unfold execThermtrip at h
  obtain rfl := Host.Outcome.next.inj h
  clear h
  extract_lets +onlyGivenNames y0
  refine Does.also (t := y0) ?_ (fun hy0 => ?_)
  · subst y0
    refine Does.then loseCold_does rfl ?_
    assumption
  clear_value y0
  revert y0
  refine Does.intro ?_
  intro y0 hy0
  extract_lets +onlyGivenNames y1
  refine Does.ite ?_ ?_
  · assumption
  · refine Does.then emit_does rfl ?_
    refine Does.set_pwr rfl _ ?_
    assumption

theorem execPowerLoss_does {s} {t} (h : (execPowerLoss s) = .next t) :
    Does [.ready, .fmtSticky, .cnt, .ram, .ramUndef, .mgmt, .mbx, .host, .tbu, .pwr, .err, .slate, .plans, .arrs, .norm, .normSum, .taint, .tiers, .models, .codec, .spar, .sec, .flash, .maint] s t := by
  refine Does.also (t := s) Does.refl (fun h0 => ?_)
  unfold execPowerLoss at h
  obtain rfl := Host.Outcome.next.inj h
  clear h
  extract_lets +onlyGivenNames y0
  refine Does.also (t := y0) ?_ (fun hy0 => ?_)
  · subst y0
    refine Does.then loseCold_does rfl ?_
    assumption
  clear_value y0
  revert y0
  refine Does.intro ?_
  intro y0 hy0
  extract_lets +onlyGivenNames y1
  refine Does.set_pwr rfl _ ?_
  assumption

theorem retarget_does {s} :
    Does [.pwr, .maint, .out] s (retarget s) := by
  refine Does.also (t := s) Does.refl (fun h0 => ?_)
  unfold retarget
  extract_lets +onlyGivenNames y0
  extract_lets +onlyGivenNames y1
  refine Does.also (t := y1) ?_ (fun hy1 => ?_)
  · subst y1
    refine Does.set_maint rfl _ ?_
    assumption
  clear_value y1
  revert y1
  refine Does.intro ?_
  intro y1 hy1
  extract_lets +onlyGivenNames y2
  refine Does.ite ?_ ?_
  · assumption
  · refine Does.then emit_does rfl ?_
    refine Does.set_pwr rfl _ ?_
    assumption

theorem execPstateChangeComplete_does {s} {t} (h : (execPstateChangeComplete s) = .next t) :
    Does [.cnt, .pwr, .maint, .out] s t := by
  refine Does.also (t := s) Does.refl (fun h0 => ?_)
  unfold execPstateChangeComplete at h
  obtain rfl := Host.Outcome.next.inj h
  clear h
  extract_lets +onlyGivenNames y0
  split
  · rename_i x1 x2
    assumption
  · rename_i x3 x4 x5
    refine Does.then retarget_does rfl ?_
    refine Does.then count_does rfl ?_
    refine Does.set_pwr rfl _ ?_
    assumption

theorem execProchotNAssert_does {s} {t} (h : (execProchotNAssert s) = .next t) :
    Does [.pwr, .maint, .out] s t := by
  refine Does.also (t := s) Does.refl (fun h0 => ?_)
  unfold execProchotNAssert at h
  obtain rfl := Host.Outcome.next.inj h
  clear h
  extract_lets +onlyGivenNames y0
  refine Does.then retarget_does rfl ?_
  refine Does.set_pwr rfl _ ?_
  assumption

theorem execProchotNRelease_does {s} {t} (h : (execProchotNRelease s) = .next t) :
    Does [.pwr, .maint, .out] s t := by
  refine Does.also (t := s) Does.refl (fun h0 => ?_)
  unfold execProchotNRelease at h
  obtain rfl := Host.Outcome.next.inj h
  clear h
  extract_lets +onlyGivenNames y0
  refine Does.then retarget_does rfl ?_
  refine Does.set_pwr rfl _ ?_
  assumption

theorem execThermalLimitTick_does {a0} {s} {t} (h : (execThermalLimitTick a0 s) = .next t) :
    Does [.cnt, .pwr, .maint, .out] s t := by
  refine Does.also (t := s) Does.refl (fun h0 => ?_)
  unfold execThermalLimitTick at h
  obtain rfl := Host.Outcome.next.inj h
  clear h
  extract_lets +onlyGivenNames y0
  extract_lets +onlyGivenNames y1
  extract_lets +onlyGivenNames y2
  extract_lets +onlyGivenNames y3
  refine Does.also (t := y3) ?_ (fun hy3 => ?_)
  · subst y3
    refine Does.set_pwr rfl _ ?_
    assumption
  clear_value y3
  revert y3
  refine Does.intro ?_
  intro y3 hy3
  extract_lets +onlyGivenNames y4
  refine Does.also (t := y4) ?_ (fun hy4 => ?_)
  · subst y4
    refine Does.ite ?_ ?_
    · refine Does.then count_does rfl ?_
      assumption
    · assumption
  clear_value y4
  revert y4
  refine Does.intro ?_
  intro y4 hy4
  refine Does.then retarget_does rfl ?_
  assumption

theorem countMs_does {s} :
    Does [.cnt, .pwr] s (countMs s) := by
  refine Does.also (t := s) Does.refl (fun h0 => ?_)
  unfold countMs
  extract_lets +onlyGivenNames y0
  extract_lets +onlyGivenNames y1
  refine Does.also (t := y1) ?_ (fun hy1 => ?_)
  · subst y1
    refine Does.set_pwr rfl _ ?_
    assumption
  clear_value y1
  revert y1
  refine Does.intro ?_
  intro y1 hy1
  extract_lets +onlyGivenNames y2
  refine Does.also (t := y2) ?_ (fun hy2 => ?_)
  · subst y2
    refine Does.ite ?_ ?_
    · refine Does.then count_does rfl ?_
      assumption
    · assumption
  clear_value y2
  revert y2
  refine Does.intro ?_
  intro y2 hy2
  extract_lets +onlyGivenNames y3
  refine Does.also (t := y3) ?_ (fun hy3 => ?_)
  · subst y3
    refine Does.ite ?_ ?_
    · refine Does.then count_does rfl ?_
      assumption
    · assumption
  clear_value y3
  revert y3
  refine Does.intro ?_
  intro y3 hy3
  refine Does.ite ?_ ?_
  · refine Does.set_pwr rfl _ ?_
    assumption
  · refine Does.ite ?_ ?_
    · refine Does.then count_does rfl ?_
      assumption
    · assumption

theorem execPowerArbiterTick_does {a0} {s} {t} (h : (execPowerArbiterTick a0 s) = .next t) :
    Does [.cnt, .pwr, .maint, .out] s t := by
  refine Does.also (t := s) Does.refl (fun h0 => ?_)
  unfold execPowerArbiterTick at h
  obtain rfl := Host.Outcome.next.inj h
  clear h
  extract_lets +onlyGivenNames y0
  extract_lets +onlyGivenNames y1
  extract_lets +onlyGivenNames y2
  refine Does.also (t := y2) ?_ (fun hy2 => ?_)
  · subst y2
    refine Does.set_pwr rfl _ ?_
    assumption
  clear_value y2
  revert y2
  refine Does.intro ?_
  intro y2 hy2
  extract_lets +onlyGivenNames y3
  extract_lets +onlyGivenNames y4
  extract_lets +onlyGivenNames y5
  extract_lets +onlyGivenNames y6
  extract_lets +onlyGivenNames y7
  extract_lets +onlyGivenNames y8
  refine Does.ite ?_ ?_
  · assumption
  · refine Does.then retarget_does rfl ?_
    refine Does.then countMs_does rfl ?_
    refine Does.set_pwr rfl _ ?_
    assumption

theorem refuseEntry_does {a0 a1} {s} :
    Does [.cnt, .ram, .ramUndef, .mbx, .host, .pwr, .taint, .tiers, .spar, .out] s (refuseEntry a0 a1 s) := by
  refine Does.also (t := s) Does.refl (fun h0 => ?_)
  unfold refuseEntry
  extract_lets +onlyGivenNames y0
  extract_lets +onlyGivenNames y1
  extract_lets +onlyGivenNames y2
  refine Does.also (t := y2) ?_ (fun hy2 => ?_)
  · subst y2
    refine Does.then count_does rfl ?_
    refine Does.set_mbx_pwr rfl _ _ ?_
    assumption
  clear_value y2
  revert y2
  refine Does.intro ?_
  intro y2 hy2
  refine Does.then finish_does rfl ?_
  assumption

theorem sleepPorts_does {s} :
    Does [.spar] s (sleepPorts s) := by
  refine Does.also (t := s) Does.refl (fun h0 => ?_)
  unfold sleepPorts
  refine forUpto_does ?_ (fun a0 z1 hz2 => ?_)
  · assumption
  · refine Does.ite ?_ ?_
    · assumption
    · refine Does.then updPort_does rfl ?_
      assumption

theorem latchState_does {a0} {s} :
    Does [.ready, .fmtSticky, .cnt, .ram, .ramUndef, .mgmt, .mbx, .host, .tbu, .pwr, .err, .slate, .plans, .arrs, .norm, .normSum, .taint, .tiers, .models, .codec, .spar, .sec, .flash, .maint, .out] s (latchState a0 s) := by
  refine Does.also (t := s) Does.refl (fun h0 => ?_)
  unfold latchState
  extract_lets +onlyGivenNames y0
  extract_lets +onlyGivenNames y1
  refine Does.also (t := y1) ?_ (fun hy1 => ?_)
  · subst y1
    refine Does.set_pwr rfl _ ?_
    assumption
  clear_value y1
  revert y1
  refine Does.intro ?_
  intro y1 hy1
  extract_lets +onlyGivenNames y2
  refine Does.also (t := y2) ?_ (fun hy2 => ?_)
  · subst y2
    refine Does.then count_does rfl ?_
    refine Does.then finish_does rfl ?_
    assumption
  clear_value y2
  revert y2
  refine Does.intro ?_
  intro y2 hy2
  extract_lets +onlyGivenNames y3
  extract_lets +onlyGivenNames y4
  extract_lets +onlyGivenNames y5
  refine Does.also (t := y5) ?_ (fun hy5 => ?_)
  · subst y5
    refine Does.set_pwr rfl _ ?_
    assumption
  clear_value y5
  revert y5
  refine Does.intro ?_
  intro y5 hy5
  extract_lets +onlyGivenNames y6
  refine Does.also (t := y6) ?_ (fun hy6 => ?_)
  · subst y6
    refine Does.ite ?_ ?_
    · assumption
    · refine Does.then sleepPorts_does rfl ?_
      assumption
  clear_value y6
  revert y6
  refine Does.intro ?_
  intro y6 hy6
  extract_lets +onlyGivenNames y7
  refine Does.also (t := y7) ?_ (fun hy7 => ?_)
  · subst y7
    refine Does.then loseCold_does rfl ?_
    assumption
  clear_value y7
  revert y7
  refine Does.intro ?_
  intro y7 hy7
  extract_lets +onlyGivenNames y8
  extract_lets +onlyGivenNames y9
  split
  · rename_i x11 x12
    refine Does.then emit_does rfl ?_
    refine Does.set_pwr rfl _ ?_
    assumption
  · rename_i x13 x14
    extract_lets +onlyGivenNames y15
    refine Does.also (t := y15) ?_ (fun hy15 => ?_)
    · subst y15
      refine Does.ite ?_ ?_
      · refine Does.set_ready rfl _ ?_
        assumption
      · assumption
    clear_value y15
    revert y15
    refine Does.intro ?_
    intro y15 hy15
    refine Does.ite ?_ ?_
    · refine Does.then wakeEvent_does rfl ?_
      refine Does.then count_does rfl ?_
      assumption
    · refine Does.ite ?_ ?_
      · refine Does.then wakeEvent_does rfl ?_
        assumption
      · assumption

theorem startFinal_does {a0} {s} :
    Does [.pwr, .slate, .maint] s (startFinal a0 s) := by
  refine Does.also (t := s) Does.refl (fun h0 => ?_)
  unfold startFinal
  extract_lets +onlyGivenNames y0
  refine Does.also (t := y0) ?_ (fun hy0 => ?_)
  · subst y0
    refine forUpto_does ?_ (fun a1 z2 hz3 => ?_)
    · assumption
    · refine Does.ite ?_ ?_
      · refine Does.then startCkpt_does rfl ?_
        assumption
      · assumption
  clear_value y0
  revert y0
  refine Does.intro ?_
  intro y0 hy0
  extract_lets +onlyGivenNames y4
  refine Does.ite ?_ ?_
  · refine Does.set_pwr rfl _ ?_
    assumption
  · assumption

theorem askBlocks_does : ∀ {n : Nat} {s}, Does [.ready, .fmtSticky, .cnt, .ram, .ramUndef, .mgmt, .mbx, .host, .tbu, .pwr, .err, .slate, .plans, .arrs, .norm, .normSum, .taint, .tiers, .models, .codec, .spar, .sec, .flash, .maint, .out] s (askBlocks n s)
  | 0, _ => Does.refl
  | n + 1, s => by
    unfold askBlocks
    split
    · exact Does.refl
    · refine Does.ite latchState_does ?_
      split
      · exact refuseEntry_does.mono rfl
      · refine Does.ite ?_ Does.refl
        extract_lets s1
        have h1 : Does [.ready, .fmtSticky, .cnt, .ram, .ramUndef, .mgmt, .mbx, .host, .tbu, .pwr, .err, .slate, .plans, .arrs, .norm, .normSum, .taint, .tiers, .models, .codec, .spar, .sec, .flash, .maint, .out] s s1 := startFinal_does.mono rfl
        exact Does.ite h1 (h1.trans askBlocks_does)
      · refine Does.trans ?_ askBlocks_does
        exact Does.set_mbx_pwr rfl _ _ Does.refl

theorem execEntryBlockReady_does {a0} {s} {t} (h : (execEntryBlockReady a0 s) = .next t) :
    Does [.ready, .fmtSticky, .cnt, .ram, .ramUndef, .mgmt, .mbx, .host, .tbu, .pwr, .err, .slate, .plans, .arrs, .norm, .normSum, .taint, .tiers, .models, .codec, .spar, .sec, .flash, .maint, .out] s t := by
  refine Does.also (t := s) Does.refl (fun h0 => ?_)
  unfold execEntryBlockReady at h
  obtain rfl := Host.Outcome.next.inj h
  clear h
  extract_lets +onlyGivenNames y0
  split
  · rename_i x2 x3
    assumption
  · rename_i x4 x5 x6
    extract_lets +onlyGivenNames y7
    extract_lets +onlyGivenNames y8
    refine Does.also (t := y8) ?_ (fun hy8 => ?_)
    · subst y8
      refine Does.set_pwr rfl _ ?_
      assumption
    clear_value y8
    revert y8
    refine Does.intro ?_
    intro y8 hy8
    refine Does.ite ?_ ?_
    · refine Does.then refuseEntry_does rfl ?_
      assumption
    · refine Does.then askBlocks_does rfl ?_
      assumption

theorem execEntryDelayExpired_does {s} {t} (h : (execEntryDelayExpired s) = .next t) :
    Does [.cnt, .ram, .ramUndef, .mbx, .host, .pwr, .taint, .tiers, .spar, .out] s t := by
  refine Does.also (t := s) Does.refl (fun h0 => ?_)
  unfold execEntryDelayExpired at h
  obtain rfl := Host.Outcome.next.inj h
  clear h
  split
  · rename_i x0 x1
    assumption
  · rename_i x2 x3 x4
    refine Does.then refuseEntry_does rfl ?_
    assumption

theorem powerSet_does {a0} {s} :
    Does [.pwr, .maint, .out] s (replySt (powerSet a0 s)) := by
  refine Does.also (t := s) Does.refl (fun h0 => ?_)
  unfold powerSet
  extract_lets +onlyGivenNames y0
  extract_lets +onlyGivenNames y1
  extract_lets +onlyGivenNames y2
  extract_lets +onlyGivenNames y3
  refine Does.also (t := y3) ?_ (fun hy3 => ?_)
  · subst y3
    refine Does.then retarget_does rfl ?_
    refine Does.set_pwr rfl _ ?_
    assumption
  clear_value y3
  revert y3
  refine Does.intro ?_
  intro y3 hy3
  extract_lets +onlyGivenNames y4
  refine checked_does ?_ ?_
  · assumption
  · refine Does.iteR ?_ ?_
    · refine Does.done ?_
      assumption
    · refine Does.running ?_
      refine Does.set_pwr rfl _ ?_
      assumption

theorem execPowerSet_does {a0} {s} {t} (h : (execPowerSet a0 s) = .next t) :
    Does [.ready, .fmtSticky, .cnt, .ram, .ramUndef, .mgmt, .mbx, .host, .tbu, .pwr, .err, .slate, .plans, .arrs, .norm, .normSum, .taint, .tiers, .models, .codec, .spar, .sec, .flash, .maint, .out] s t := by
  refine Does.also (t := s) Does.refl (fun h0 => ?_)
  unfold execPowerSet at h
  obtain rfl := Host.Outcome.next.inj h
  clear h
  extract_lets +onlyGivenNames y0
  refine Does.also (t := y0) ?_ (fun hy0 => ?_)
  · subst y0
    refine iarik_does rfl ?_ (fun c1 z2 hz3 => ?_)
    · assumption
    · refine Does.then powerSet_does rfl ?_
      assumption
  clear_value y0
  revert y0
  refine Does.intro ?_
  intro y0 hy0
  refine Does.ite ?_ ?_
  · refine Does.then askBlocks_does rfl ?_
    assumption
  · assumption

theorem execWakeNLow_does {s} {t} (h : (execWakeNLow s) = .next t) :
    Does [.pwr] s t := by
  refine Does.also (t := s) Does.refl (fun h0 => ?_)
  unfold execWakeNLow at h
  obtain rfl := Host.Outcome.next.inj h
  clear h
  extract_lets +onlyGivenNames y0
  refine Does.ite ?_ ?_
  · refine Does.set_pwr rfl _ ?_
    assumption
  · refine Does.then wakeEvent_does rfl ?_
    assumption

end Sys2Proof.Laws
end

