-- ==== Sys2Proof/Laws/Timebase.lean ====
section
/-! SUPPORT. Sys2Proof/Laws/Timebase.lean: what each operation and meaning of Machine/Timebase.lean can do, as `Does` says it: which blocks of
the state it may change, that it keeps the invariant, and that it lowers nothing that only rises. -/

namespace Sys2Proof.Laws

open Sys2Proof.Machine Sys2Proof.Safety

theorem correctTo_does {a0} {s} :
    Does [.tbu] s (correctTo a0 s) := by
  refine Does.also (t := s) Does.refl (fun h0 => ?_)
  unfold correctTo
  extract_lets +onlyGivenNames y0
  extract_lets +onlyGivenNames y1
  refine Does.ite ?_ ?_
  · assumption
  · refine Does.ite ?_ ?_
    · refine Does.set_tbu rfl _ ?_
      assumption
    · refine Does.ite ?_ ?_
      · refine Does.set_tbu rfl _ ?_
        assumption
      · refine Does.set_tbu rfl _ ?_
        assumption

theorem execSlewComplete_does {s} {t} (h : (execSlewComplete s) = .next t) :
    Does [.tbu] s t := by
  refine Does.also (t := s) Does.refl (fun h0 => ?_)
  unfold execSlewComplete at h
  obtain rfl := Host.Outcome.next.inj h
  clear h
  extract_lets +onlyGivenNames y0
  refine Does.set_tbu rfl _ ?_
  assumption

theorem timeSetReady_does {s} :
    Does [.ready] s (timeSetReady s) := by
  refine Does.also (t := s) Does.refl (fun h0 => ?_)
  unfold timeSetReady
  extract_lets +onlyGivenNames y0
  refine Does.set_ready rfl _ ?_
  assumption

theorem timeSet_does {a0} {s} :
    Does [.ready, .tbu] s (replySt (timeSet a0 s)) := by
  refine Does.also (t := s) Does.refl (fun h0 => ?_)
  unfold timeSet
  extract_lets +onlyGivenNames y0
  extract_lets +onlyGivenNames y1
  extract_lets +onlyGivenNames y2
  extract_lets +onlyGivenNames y3
  extract_lets +onlyGivenNames y4
  refine Does.also (t := y4) ?_ (fun hy4 => ?_)
  · subst y4
    refine Does.then timeSetReady_does rfl ?_
    refine Does.then correctTo_does rfl ?_
    refine Does.set_tbu rfl _ ?_
    assumption
  clear_value y4
  revert y4
  refine Does.intro ?_
  intro y4 hy4
  refine checked_does ?_ ?_
  · assumption
  · refine Does.iteR ?_ ?_
    · refine Does.running ?_
      refine Does.set_tbu rfl _ ?_
      assumption
    · refine Does.done ?_
      assumption

theorem execTimeSet_does {a0} {s} {t} (h : (execTimeSet a0 s) = .next t) :
    Does [.ready, .ram, .ramUndef, .mbx, .host, .tbu, .taint, .tiers, .spar, .out] s t := by
  refine Does.also (t := s) Does.refl (fun h0 => ?_)
  unfold execTimeSet at h
  obtain rfl := Host.Outcome.next.inj h
  clear h
  refine iarik_does rfl ?_ (fun c0 z1 hz2 => ?_)
  · assumption
  · refine Does.then timeSet_does rfl ?_
    assumption

theorem execTimeSetPpsTimeout_does {a0} {s} {t} (h : (execTimeSetPpsTimeout a0 s) = .next t) :
    Does [.ram, .ramUndef, .mbx, .host, .tbu, .taint, .tiers, .spar, .out] s t := by
  refine Does.also (t := s) Does.refl (fun h0 => ?_)
  unfold execTimeSetPpsTimeout at h
  obtain rfl := Host.Outcome.next.inj h
  clear h
  extract_lets +onlyGivenNames y0
  refine Does.also (t := y0) ?_ (fun hy0 => ?_)
  · subst y0
    refine Does.then reachTime_does rfl ?_
    assumption
  clear_value y0
  revert y0
  refine Does.intro ?_
  intro y0 hy0
  extract_lets +onlyGivenNames y1
  extract_lets +onlyGivenNames y2
  extract_lets +onlyGivenNames y3
  refine Does.also (t := y3) ?_ (fun hy3 => ?_)
  · subst y3
    refine Does.set_tbu rfl _ ?_
    assumption
  clear_value y3
  revert y3
  refine Does.intro ?_
  intro y3 hy3
  refine forEach_does ?_ (fun a4 z5 hz6 => ?_)
  · assumption
  · refine Does.then finish_does rfl ?_
    assumption

theorem applyPps_does {a0} {s} :
    Does [.ready, .ram, .ramUndef, .mbx, .host, .tbu, .taint, .tiers, .spar, .out] s (applyPps a0 s) := by
  refine Does.also (t := s) Does.refl (fun h0 => ?_)
  unfold applyPps
  extract_lets +onlyGivenNames y0
  extract_lets +onlyGivenNames y1
  extract_lets +onlyGivenNames y2
  refine Does.also (t := y2) ?_ (fun hy2 => ?_)
  · subst y2
    refine Does.set_tbu rfl _ ?_
    assumption
  clear_value y2
  revert y2
  refine Does.intro ?_
  intro y2 hy2
  refine forEach_does ?_ (fun a4 z5 hz6 => ?_)
  · assumption
  · extract_lets +onlyGivenNames y7
    refine Does.also (t := y7) ?_ (fun hy7 => ?_)
    · subst y7
      refine Does.then timeSetReady_does rfl ?_
      refine Does.then correctTo_does rfl ?_
      assumption
    clear_value y7
    revert y7
    refine Does.intro ?_
    intro y7 hy7
    refine Does.then finish_does rfl ?_
    assumption

theorem judgeEdge_does {a0 a1} {s} :
    Does [.tbu] s (judgeEdge a0 a1 s) := by
  refine Does.also (t := s) Does.refl (fun h0 => ?_)
  unfold judgeEdge
  extract_lets +onlyGivenNames y0
  extract_lets +onlyGivenNames y1
  extract_lets +onlyGivenNames y2
  extract_lets +onlyGivenNames y3
  extract_lets +onlyGivenNames y4
  extract_lets +onlyGivenNames y5
  refine Does.also (t := y5) ?_ (fun hy5 => ?_)
  · subst y5
    dsimp only [y2]
    refine Does.then correctTo_does rfl ?_
    refine Does.set_tbu rfl _ ?_
    assumption
  clear_value y5
  revert y5
  refine Does.intro ?_
  intro y5 hy5
  extract_lets +onlyGivenNames y6
  refine Does.ite ?_ ?_
  · dsimp only [y2]
    refine Does.then correctTo_does rfl ?_
    refine Does.set_tbu rfl _ ?_
    assumption
  · refine Does.ite ?_ ?_
    · refine Does.ite ?_ ?_
      · refine Does.set_tbu rfl _ ?_
        assumption
      · assumption
    · refine Does.set_tbu rfl _ ?_
      assumption

theorem execCadPpsEdge_does {a0 a1} {s} {t} (h : (execCadPpsEdge a0 a1 s) = .next t) :
    Does [.ready, .ram, .ramUndef, .mbx, .host, .tbu, .taint, .tiers, .spar, .out] s t := by
  refine Does.also (t := s) Does.refl (fun h0 => ?_)
  unfold execCadPpsEdge at h
  obtain rfl := Host.Outcome.next.inj h
  clear h
  extract_lets +onlyGivenNames y0
  refine Does.also (t := y0) ?_ (fun hy0 => ?_)
  · subst y0
    refine Does.then reachTime_does rfl ?_
    assumption
  clear_value y0
  revert y0
  refine Does.intro ?_
  intro y0 hy0
  extract_lets +onlyGivenNames y1
  extract_lets +onlyGivenNames y2
  extract_lets +onlyGivenNames y3
  refine Does.also (t := y3) ?_ (fun hy3 => ?_)
  · subst y3
    refine Does.set_tbu rfl _ ?_
    assumption
  clear_value y3
  revert y3
  refine Does.intro ?_
  intro y3 hy3
  refine Does.ite ?_ ?_
  · assumption
  · refine Does.ite ?_ ?_
    · refine Does.then applyPps_does rfl ?_
      assumption
    · refine Does.ite ?_ ?_
      · refine Does.then judgeEdge_does rfl ?_
        assumption
      · assumption

theorem execPpsHoldoverTimeout_does {a0} {s} {t} (h : (execPpsHoldoverTimeout a0 s) = .next t) :
    Does [.tbu] s t := by
  refine Does.also (t := s) Does.refl (fun h0 => ?_)
  unfold execPpsHoldoverTimeout at h
  obtain rfl := Host.Outcome.next.inj h
  clear h
  extract_lets +onlyGivenNames y0
  refine Does.also (t := y0) ?_ (fun hy0 => ?_)
  · subst y0
    refine Does.then reachTime_does rfl ?_
    assumption
  clear_value y0
  revert y0
  refine Does.intro ?_
  intro y0 hy0
  extract_lets +onlyGivenNames y1
  split
  · rename_i x2 x3 x4
    refine Does.ite ?_ ?_
    · refine Does.set_tbu rfl _ ?_
      assumption
    · assumption
  · rename_i x5 x6
    assumption

theorem execCadRefPresent_does {s} {t} (h : (execCadRefPresent s) = .next t) :
    Does [.tbu] s t := by
  refine Does.also (t := s) Does.refl (fun h0 => ?_)
  unfold execCadRefPresent at h
  obtain rfl := Host.Outcome.next.inj h
  clear h
  extract_lets +onlyGivenNames y0
  refine Does.ite ?_ ?_
  · refine Does.set_tbu rfl _ ?_
    assumption
  · assumption

theorem execCadRefLost_does {s} {t} (h : (execCadRefLost s) = .next t) :
    Does [.tbu] s t := by
  refine Does.also (t := s) Does.refl (fun h0 => ?_)
  unfold execCadRefLost at h
  obtain rfl := Host.Outcome.next.inj h
  clear h
  extract_lets +onlyGivenNames y0
  refine Does.set_tbu rfl _ ?_
  assumption

theorem timeRead_does {s} :
    Does [.tbu, .out] s (timeRead s) := by
  refine Does.also (t := s) Does.refl (fun h0 => ?_)
  unfold timeRead
  extract_lets +onlyGivenNames y0
  refine Does.then emit_does rfl ?_
  refine Does.set_tbu rfl _ ?_
  assumption

theorem execTbuNowRead_does {a0} {s} {t} (h : (execTbuNowRead a0 s) = .next t) :
    Does [.cnt, .host, .tbu, .pwr, .err, .out] s t := by
  refine Does.also (t := s) Does.refl (fun h0 => ?_)
  unfold execTbuNowRead at h
  obtain rfl := Host.Outcome.next.inj h
  clear h
  refine busAccess_does rfl ?_ (fun z0 hz1 => ?_)
  · refine Does.then reachTime_does rfl ?_
    assumption
  · refine Does.then timeRead_does rfl ?_
    assumption

theorem execNop_does {a0} {s} {t} (h : (execNop a0 s) = .next t) :
    Does [.ram, .ramUndef, .mbx, .host, .taint, .tiers, .spar, .out] s t := by
  refine Does.also (t := s) Does.refl (fun h0 => ?_)
  unfold execNop at h
  obtain rfl := Host.Outcome.next.inj h
  clear h
  refine iarik_does rfl ?_ (fun c0 z1 hz2 => ?_)
  · assumption
  · refine checked_does ?_ ?_
    · assumption
    · refine Does.done ?_
      assumption

theorem identify_does {a0} {s} :
    Does [.ram, .ramUndef, .taint, .tiers, .spar, .out] s (replySt (identify a0 s)) := by
  refine Does.also (t := s) Does.refl (fun h0 => ?_)
  unfold identify
  refine checked_does ?_ ?_
  · assumption
  · refine Does.done ?_
    refine Does.then putPay_does rfl ?_
    assumption

theorem execIdentify_does {a0} {s} {t} (h : (execIdentify a0 s) = .next t) :
    Does [.ram, .ramUndef, .mbx, .host, .taint, .tiers, .spar, .out] s t := by
  refine Does.also (t := s) Does.refl (fun h0 => ?_)
  unfold execIdentify at h
  obtain rfl := Host.Outcome.next.inj h
  clear h
  refine iarik_does rfl ?_ (fun c0 z1 hz2 => ?_)
  · assumption
  · refine Does.then identify_does rfl ?_
    assumption

end Sys2Proof.Laws
end

