-- ==== Sys2Proof/Laws/Models.lean ====
section
/-! SUPPORT. Sys2Proof/Laws/Models.lean: what each operation and meaning of Machine/Models.lean can do, as `Does` says it: which blocks of
the state it may change, that it keeps the invariant, and that it lowers nothing that only rises. -/

namespace Sys2Proof.Laws

open Sys2Proof.Machine Sys2Proof.Safety

theorem sendMembers_does {a0 a1 a2 a3 a4 a5} {s} :
    Does [.spar, .out] s (sendMembers a0 a1 a2 a3 a4 a5 s) := by
  refine Does.also (t := s) Does.refl (fun h0 => ?_)
  unfold sendMembers
  extract_lets +onlyGivenNames y0
  extract_lets +onlyGivenNames y1
  extract_lets +onlyGivenNames y2
  extract_lets +onlyGivenNames y3
  refine Does.also (t := y3) ?_ (fun hy3 => ?_)
  · subst y3
    refine forEach_does ?_ (fun a4 z5 hz6 => ?_)
    · assumption
    · refine Does.then sendTo_does rfl ?_
      assumption
  clear_value y3
  revert y3
  refine Does.intro ?_
  intro y3 hy3
  extract_lets +onlyGivenNames y7
  refine Does.set_spar rfl _ ?_
  assumption

theorem createSlot_does {a0 a1 a2} {s} :
    Does [.models] s (createSlot a0 a1 a2 s) := by
  refine Does.also (t := s) Does.refl (fun h0 => ?_)
  unfold createSlot
  extract_lets +onlyGivenNames y0
  extract_lets +onlyGivenNames y1
  extract_lets +onlyGivenNames y2
  refine Does.set_models rfl _ ?_
  assumption

theorem askCreate_does {a0 a1 a2} {s} :
    Does [.spar, .out] s (askCreate a0 a1 a2 s) := by
  refine Does.also (t := s) Does.refl (fun h0 => ?_)
  unfold askCreate
  extract_lets +onlyGivenNames y0
  refine Does.then sendMembers_does rfl ?_
  refine Does.set_spar rfl _ ?_
  assumption

theorem modelCreate_does {a0} {s} :
    Does [.models, .spar, .out] s (replySt (modelCreate a0 s)) := by
  refine Does.also (t := s) Does.refl (fun h0 => ?_)
  unfold modelCreate
  extract_lets +onlyGivenNames y0
  extract_lets +onlyGivenNames y1
  extract_lets +onlyGivenNames y2
  refine checked_does ?_ ?_
  · assumption
  · refine Does.iteR ?_ ?_
    · refine Does.done ?_
      refine Does.then createSlot_does rfl ?_
      assumption
    · refine Does.running ?_
      refine Does.then askCreate_does rfl ?_
      assumption

theorem execModelCreate_does {a0} {s} {t} (h : (execModelCreate a0 s) = .next t) :
    Does [.ram, .ramUndef, .mbx, .host, .taint, .tiers, .models, .spar, .out] s t := by
  refine Does.also (t := s) Does.refl (fun h0 => ?_)
  unfold execModelCreate at h
  obtain rfl := Host.Outcome.next.inj h
  clear h
  refine iarik_does rfl ?_ (fun c0 z1 hz2 => ?_)
  · assumption
  · refine Does.then modelCreate_does rfl ?_
    assumption

theorem openStage_does {a0 a1 a2} {s} :
    Does [.models, .maint] s (openStage a0 a1 a2 s) := by
  refine Does.also (t := s) Does.refl (fun h0 => ?_)
  unfold openStage
  extract_lets +onlyGivenNames y0
  extract_lets +onlyGivenNames y1
  extract_lets +onlyGivenNames y2
  extract_lets +onlyGivenNames y3
  extract_lets +onlyGivenNames y4
  refine Does.also (t := y4) ?_ (fun hy4 => ?_)
  · subst y4
    refine Does.ite ?_ ?_
    · refine Does.then updSlot_does rfl ?_
      assumption
    · assumption
  clear_value y4
  revert y4
  refine Does.intro ?_
  intro y4 hy4
  extract_lets +onlyGivenNames y5
  refine Does.then addJob_does rfl ?_
  refine Does.set_models rfl _ ?_
  assumption

theorem modelStageBegin_does {a0 a1} {s} :
    Does [.cnt, .models, .spar, .maint, .out] s (replySt (modelStageBegin a0 a1 s)) := by
  refine Does.also (t := s) Does.refl (fun h0 => ?_)
  unfold modelStageBegin
  extract_lets +onlyGivenNames y0
  extract_lets +onlyGivenNames y1
  extract_lets +onlyGivenNames y2
  extract_lets +onlyGivenNames y3
  extract_lets +onlyGivenNames y4
  extract_lets +onlyGivenNames y5
  extract_lets +onlyGivenNames y6
  extract_lets +onlyGivenNames y7
  extract_lets +onlyGivenNames y8
  refine Does.also (t := y8) ?_ (fun hy8 => ?_)
  · subst y8
    refine Does.set_spar rfl _ ?_
    assumption
  clear_value y8
  revert y8
  refine Does.intro ?_
  intro y8 hy8
  refine refused_does rfl ?_
  refine checked_does ?_ ?_
  · assumption
  · refine Does.iteR ?_ ?_
    · refine Does.done ?_
      refine Does.then openStage_does rfl ?_
      assumption
    · refine Does.running ?_
      refine Does.then openStage_does rfl ?_
      refine Does.then sendMembers_does rfl ?_
      assumption

theorem execModelStageBegin_does {a0 a1} {s} {t} (h : (execModelStageBegin a0 a1 s) = .next t) :
    Does [.cnt, .ram, .ramUndef, .mbx, .host, .taint, .tiers, .models, .spar, .maint, .out] s t := by
  refine Does.also (t := s) Does.refl (fun h0 => ?_)
  unfold execModelStageBegin at h
  obtain rfl := Host.Outcome.next.inj h
  clear h
  refine iarik_does rfl ?_ (fun c0 z1 hz2 => ?_)
  · assumption
  · refine Does.then modelStageBegin_does rfl ?_
    assumption

theorem updStage_does {a0} {s} :
    Does [.models] s (updStage a0 s) := by
  refine Does.also (t := s) Does.refl (fun h0 => ?_)
  unfold updStage
  extract_lets +onlyGivenNames y0
  refine Does.set_models rfl _ ?_
  assumption

theorem stageRecord_does {a0 a1 a2 a3} {s} :
    Does [.slate, .models] s (stageRecord a0 a1 a2 a3 s) := by
  refine Does.also (t := s) Does.refl (fun h0 => ?_)
  unfold stageRecord
  extract_lets +onlyGivenNames y0
  extract_lets +onlyGivenNames y1
  split
  · rename_i x3 x4
    assumption
  · rename_i x5 x6 x7
    split
    · rename_i x9 x10 x11 x12 x13
      extract_lets +onlyGivenNames y14
      extract_lets +onlyGivenNames y15
      extract_lets +onlyGivenNames y16
      refine Does.then updStage_does rfl ?_
      refine Does.then updPb_does rfl ?_
      refine Does.then programBlock_does rfl ?_
      assumption
    · rename_i x17 x18 x19
      refine Does.then updStage_does rfl ?_
      assumption

theorem stageWhole_does {a0 a1 a2} {s} :
    Does [.slate, .models] s (stageWhole a0 a1 a2 s) := by
  refine Does.also (t := s) Does.refl (fun h0 => ?_)
  unfold stageWhole
  extract_lets +onlyGivenNames y0
  refine Does.ite ?_ ?_
  · refine Does.ite ?_ ?_
    · refine Does.then stageRecord_does rfl ?_
      refine Does.then stageRecord_does rfl ?_
      assumption
    · refine Does.then updStage_does rfl ?_
      assumption
  · refine Does.then stageRecord_does rfl ?_
    assumption

theorem endLayer_does {a0} {s} :
    Does [.cnt, .ram, .ramUndef, .mbx, .host, .slate, .taint, .tiers, .models, .spar, .sec, .maint, .out] s (endLayer a0 s) := by
  refine Does.also (t := s) Does.refl (fun h0 => ?_)
  unfold endLayer
  extract_lets +onlyGivenNames y0
  refine Does.also (t := y0) ?_ (fun hy0 => ?_)
  · subst y0
    refine Does.then updStage_does rfl ?_
    assumption
  clear_value y0
  revert y0
  refine Does.intro ?_
  intro y0 hy0
  extract_lets +onlyGivenNames y1
  refine Does.also (t := y1) ?_ (fun hy1 => ?_)
  · subst y1
    split
    · rename_i x2 x3 x4
      refine Does.then putOut_does rfl ?_
      assumption
    · rename_i x5 x6
      assumption
  clear_value y1
  revert y1
  refine Does.intro ?_
  intro y1 hy1
  extract_lets +onlyGivenNames y7
  refine Does.ite ?_ ?_
  · refine Does.then abortAll_does rfl ?_
    assumption
  · refine Does.then settleStage_does rfl ?_
    refine Does.then waitDone_does rfl ?_
    refine Does.set_spar rfl _ ?_
    assumption

theorem layerReport_does {a0 a1 a2} {s} :
    Does [.cnt, .ram, .ramUndef, .mbx, .host, .slate, .taint, .tiers, .models, .spar, .sec, .maint, .out] s (layerReport a0 a1 a2 s) := by
  refine Does.also (t := s) Does.refl (fun h0 => ?_)
  unfold layerReport
  split
  · rename_i x1 x2
    assumption
  · rename_i x3 x4 x5
    extract_lets +onlyGivenNames y6
    refine Does.ite ?_ ?_
    · refine Does.ite ?_ ?_
      · refine Does.then endLayer_does rfl ?_
        assumption
      · refine Does.then updStage_does rfl ?_
        assumption
    · assumption

theorem receiveShard_does {a0} {s} :
    Does [.cnt, .ram, .ramUndef, .mbx, .host, .slate, .taint, .tiers, .models, .spar, .sec, .maint, .out] s (receiveShard a0 s) := by
  refine Does.also (t := s) Does.refl (fun h0 => ?_)
  unfold receiveShard
  extract_lets +onlyGivenNames y0
  extract_lets +onlyGivenNames y1
  extract_lets +onlyGivenNames y2
  split
  · rename_i x4 x5
    refine Does.then count_does rfl ?_
    assumption
  · rename_i x6 x7 x8
    extract_lets +onlyGivenNames y9
    extract_lets +onlyGivenNames y10
    refine Does.also (t := y10) ?_ (fun hy10 => ?_)
    · subst y10
      refine Does.ite ?_ ?_
      · refine Does.then updStage_does rfl ?_
        assumption
      · assumption
    clear_value y10
    revert y10
    refine Does.intro ?_
    intro y10 hy10
    refine Does.ite ?_ ?_
    · refine Does.then count_does rfl ?_
      assumption
    · refine Does.ite ?_ ?_
      · refine Does.ite ?_ ?_
        · refine Does.then count_does rfl ?_
          assumption
        · refine Does.then settleStage_does rfl ?_
          refine forEach_does ?_ (fun a11 z12 hz13 => ?_)
          · refine Does.then updStage_does rfl ?_
            refine Does.then count_does rfl ?_
            assumption
          · refine Does.then stageWhole_does rfl ?_
            assumption
      · refine Does.ite ?_ ?_
        · refine Does.then settleFailed_does rfl ?_
          assumption
        · refine Does.ite ?_ ?_
          · refine Does.then settleStage_does rfl ?_
            refine Does.then sendTo_does rfl ?_
            assumption
          · refine Does.then layerReport_does rfl ?_
            assumption

theorem execShardReceived_does {a0} {s} {t} (h : (execShardReceived a0 s) = .next t) :
    Does [.cnt, .ram, .ramUndef, .mbx, .host, .slate, .taint, .tiers, .models, .spar, .sec, .maint, .out] s t := by
  refine Does.also (t := s) Does.refl (fun h0 => ?_)
  unfold execShardReceived at h
  obtain rfl := Host.Outcome.next.inj h
  clear h
  refine Does.then receiveShard_does rfl ?_
  assumption

theorem sendShard_does {a0 a1} {s} :
    Does [.cnt, .ram, .ramUndef, .mbx, .host, .slate, .taint, .tiers, .models, .spar, .sec, .maint, .out] s (sendShard a0 a1 s) := by
  refine Does.also (t := s) Does.refl (fun h0 => ?_)
  unfold sendShard
  refine forEach_does ?_ (fun a0 z1 hz2 => ?_)
  · assumption
  · refine Does.ite ?_ ?_
    · refine Does.then receiveShard_does rfl ?_
      assumption
    · refine Does.then sendTo_does rfl ?_
      assumption

theorem modelShard_does {a0 a1} {s} :
    Does [.cnt, .ram, .ramUndef, .mbx, .host, .slate, .taint, .tiers, .models, .spar, .sec, .maint, .out] s (replySt (modelShard a0 a1 s)) := by
  refine Does.also (t := s) Does.refl (fun h0 => ?_)
  unfold modelShard
  extract_lets +onlyGivenNames y0
  extract_lets +onlyGivenNames y1
  extract_lets +onlyGivenNames y2
  extract_lets +onlyGivenNames y3
  refine checked_does ?_ ?_
  · assumption
  · split
    · rename_i x6 x7
      refine Does.done ?_
      refine Does.then sendShard_does rfl ?_
      assumption
    · rename_i x8 x9 x10
      extract_lets +onlyGivenNames y11
      extract_lets +onlyGivenNames y12
      extract_lets +onlyGivenNames y13
      refine Does.iteR ?_ ?_
      · refine Does.iteR ?_ ?_
        · refine Does.running ?_
          refine Does.then sendShard_does rfl ?_
          dsimp only [y13]
          refine Does.ite ?_ ?_
          · refine Does.ite ?_ ?_
            · refine Does.then endLayer_does rfl ?_
              refine Does.ite ?_ ?_
              · assumption
              · refine Does.then count_does rfl ?_
                assumption
            · refine Does.then updStage_does rfl ?_
              refine Does.ite ?_ ?_
              · assumption
              · refine Does.then count_does rfl ?_
                assumption
          · assumption
        · refine Does.done ?_
          refine Does.then sendShard_does rfl ?_
          assumption
      · refine Does.running ?_
        dsimp only [y13]
        refine Does.ite ?_ ?_
        · refine Does.ite ?_ ?_
          · refine Does.then endLayer_does rfl ?_
            refine Does.ite ?_ ?_
            · refine Does.then sendMembers_does rfl ?_
              assumption
            · refine Does.then count_does rfl ?_
              refine Does.then sendMembers_does rfl ?_
              assumption
          · refine Does.then updStage_does rfl ?_
            refine Does.ite ?_ ?_
            · refine Does.then sendMembers_does rfl ?_
              assumption
            · refine Does.then count_does rfl ?_
              refine Does.then sendMembers_does rfl ?_
              assumption
        · refine Does.then sendMembers_does rfl ?_
          assumption

theorem execModelShard_does {a0 a1} {s} {t} (h : (execModelShard a0 a1 s) = .next t) :
    Does [.cnt, .ram, .ramUndef, .mbx, .host, .slate, .taint, .tiers, .models, .spar, .sec, .maint, .out] s t := by
  refine Does.also (t := s) Does.refl (fun h0 => ?_)
  unfold execModelShard at h
  obtain rfl := Host.Outcome.next.inj h
  clear h
  refine iarik_does rfl ?_ (fun c0 z1 hz2 => ?_)
  · assumption
  · refine Does.then modelShard_does rfl ?_
    assumption

theorem modelStageEnd_does {a0} {s} :
    Does [.cnt, .ram, .ramUndef, .mbx, .host, .slate, .taint, .tiers, .models, .spar, .sec, .maint, .out] s (replySt (modelStageEnd a0 s)) := by
  refine Does.also (t := s) Does.refl (fun h0 => ?_)
  unfold modelStageEnd
  extract_lets +onlyGivenNames y0
  extract_lets +onlyGivenNames y1
  refine Does.also (t := y1) ?_ (fun hy1 => ?_)
  · subst y1
    refine Does.then closeStage_does rfl ?_
    assumption
  clear_value y1
  revert y1
  refine Does.intro ?_
  intro y1 hy1
  extract_lets +onlyGivenNames y2
  extract_lets +onlyGivenNames y3
  refine checked_does ?_ ?_
  · assumption
  · split
    · rename_i x6 x7
      refine Does.done ?_
      assumption
    · rename_i x8 x9 x10
      extract_lets +onlyGivenNames y11
      extract_lets +onlyGivenNames y12
      refine Does.also (t := y12) ?_ (fun hy12 => ?_)
      · subst y12
        refine forEach_does ?_ (fun a13 z14 hz15 => ?_)
        · assumption
        · refine Does.then sendTo_does rfl ?_
          assumption
      clear_value y12
      revert y12
      refine Does.intro ?_
      intro y12 hy12
      refine Does.iteR ?_ ?_
      · refine Does.iteR ?_ ?_
        · refine Does.done ?_
          assumption
        · refine Does.running ?_
          refine Does.then sendMembers_does rfl ?_
          refine Does.set_spar rfl _ ?_
          assumption
      · refine Does.running ?_
        refine Does.then settleStage_does rfl ?_
        refine Does.then updStage_does rfl ?_
        assumption

theorem execModelStageEnd_does {a0} {s} {t} (h : (execModelStageEnd a0 s) = .next t) :
    Does [.cnt, .ram, .ramUndef, .mbx, .host, .slate, .taint, .tiers, .models, .spar, .sec, .maint, .out] s t := by
  refine Does.also (t := s) Does.refl (fun h0 => ?_)
  unfold execModelStageEnd at h
  obtain rfl := Host.Outcome.next.inj h
  clear h
  refine iarik_does rfl ?_ (fun c0 z1 hz2 => ?_)
  · assumption
  · refine Does.then modelStageEnd_does rfl ?_
    assumption

theorem modelAbort_does {a0} {s} :
    Does [.cnt, .slate, .models, .spar, .sec, .maint, .out] s (replySt (modelAbort a0 s)) := by
  refine Does.also (t := s) Does.refl (fun h0 => ?_)
  unfold modelAbort
  extract_lets +onlyGivenNames y0
  refine checked_does ?_ ?_
  · assumption
  · split
    · rename_i x3 x4
      refine Does.done ?_
      assumption
    · rename_i x5 x6 x7
      extract_lets +onlyGivenNames y8
      refine Does.iteR ?_ ?_
      · refine Does.done ?_
        refine Does.then abortLocal_does rfl ?_
        assumption
      · refine Does.running ?_
        refine Does.then abortLocal_does rfl ?_
        refine Does.then sendMembers_does rfl ?_
        assumption

theorem execModelAbort_does {a0} {s} {t} (h : (execModelAbort a0 s) = .next t) :
    Does [.cnt, .ram, .ramUndef, .mbx, .host, .slate, .taint, .tiers, .models, .spar, .sec, .maint, .out] s t := by
  refine Does.also (t := s) Does.refl (fun h0 => ?_)
  unfold execModelAbort at h
  obtain rfl := Host.Outcome.next.inj h
  clear h
  refine iarik_does rfl ?_ (fun c0 z1 hz2 => ?_)
  · assumption
  · refine Does.then modelAbort_does rfl ?_
    assumption

theorem execStageReport_does {a0 a1} {s} {t} (h : (execStageReport a0 a1 s) = .next t) :
    Does [.cnt, .ram, .ramUndef, .mbx, .host, .slate, .taint, .tiers, .models, .spar, .sec, .maint, .out] s t := by
  refine Does.also (t := s) Does.refl (fun h0 => ?_)
  unfold execStageReport at h
  obtain rfl := Host.Outcome.next.inj h
  clear h
  split
  · rename_i x0 x1
    assumption
  · rename_i x2 x3 x4
    refine Does.ite ?_ ?_
    · assumption
    · split
      · rename_i x5 x6 x7
        refine Does.then layerReport_does rfl ?_
        assumption
      · rename_i x8
        refine Does.then settleStageEnd_does rfl ?_
        refine Does.then updStage_does rfl ?_
        assumption
      · rename_i x9 x10
        refine Does.then abortAll_does rfl ?_
        refine Does.then updStage_does rfl ?_
        assumption

theorem beginSwitch_does {s} :
    Does [.models] s (beginSwitch s) := by
  refine Does.also (t := s) Does.refl (fun h0 => ?_)
  unfold beginSwitch
  extract_lets +onlyGivenNames y0
  split
  · rename_i x2 x3 x4 x5 x6 x7
    extract_lets +onlyGivenNames y8
    extract_lets +onlyGivenNames y9
    refine Does.then updSlot_does rfl ?_
    refine Does.set_models rfl _ ?_
    assumption
  · rename_i x10 x11 x12
    assumption

theorem settleDecision_does {s} :
    Does [.models] s (settleDecision s) := by
  refine Does.also (t := s) Does.refl (fun h0 => ?_)
  unfold settleDecision
  extract_lets +onlyGivenNames y0
  split
  · rename_i x1 x2 x3 x4 x5 x6
    refine Does.ite ?_ ?_
    · refine Does.ite ?_ ?_
      · refine Does.then beginSwitch_does rfl ?_
        assumption
      · refine Does.set_models rfl _ ?_
        assumption
    · assumption
  · rename_i x7 x8 x9
    assumption

theorem modelCommit_does {a0} {s} :
    Does [.models, .spar, .out] s (replySt (modelCommit a0 s)) := by
  refine Does.also (t := s) Does.refl (fun h0 => ?_)
  unfold modelCommit
  extract_lets +onlyGivenNames y0
  extract_lets +onlyGivenNames y1
  extract_lets +onlyGivenNames y2
  extract_lets +onlyGivenNames y3
  extract_lets +onlyGivenNames y4
  extract_lets +onlyGivenNames y5
  refine checked_does ?_ ?_
  · assumption
  · clear_value y1
    split
    · rename_i x8
      refine Does.done ?_
      assumption
    · rename_i x9 x10
      extract_lets +onlyGivenNames y11
      extract_lets +onlyGivenNames y12
      extract_lets +onlyGivenNames y13
      extract_lets +onlyGivenNames y14
      refine Does.also (t := y14) ?_ (fun hy14 => ?_)
      · subst y14
        refine forEach_does ?_ (fun a15 z16 hz17 => ?_)
        · assumption
        · refine Does.then sendTo_does rfl ?_
          assumption
      clear_value y14
      revert y14
      refine Does.intro ?_
      intro y14 hy14
      extract_lets +onlyGivenNames y18
      refine Does.running ?_
      refine Does.then settleDecision_does rfl ?_
      refine Does.set_models rfl _ ?_
      assumption

theorem execModelCommit_does {a0} {s} {t} (h : (execModelCommit a0 s) = .next t) :
    Does [.ram, .ramUndef, .mbx, .host, .taint, .tiers, .models, .spar, .out] s t := by
  refine Does.also (t := s) Does.refl (fun h0 => ?_)
  unfold execModelCommit at h
  obtain rfl := Host.Outcome.next.inj h
  clear h
  refine iarik_does rfl ?_ (fun c0 z1 hz2 => ?_)
  · assumption
  · refine Does.then modelCommit_does rfl ?_
    assumption

theorem execCommitDecision_does {a0 a1 a2} {s} {t} (h : (execCommitDecision a0 a1 a2 s) = .next t) :
    Does [.models, .spar, .out] s t := by
  refine Does.also (t := s) Does.refl (fun h0 => ?_)
  unfold execCommitDecision at h
  obtain rfl := Host.Outcome.next.inj h
  clear h
  extract_lets +onlyGivenNames y0
  split
  · rename_i x2 x3
    assumption
  · rename_i x4 x5 x6
    extract_lets +onlyGivenNames y7
    refine Does.ite ?_ ?_
    · assumption
    · refine Does.then sendTo_does rfl ?_
      refine Does.then beginSwitch_does rfl ?_
      refine Does.set_models rfl _ ?_
      assumption

theorem execCommitAckTimeout_does {a0} {s} {t} (h : (execCommitAckTimeout a0 s) = .next t) :
    Does [.cnt, .ram, .ramUndef, .mbx, .host, .tbu, .slate, .taint, .tiers, .models, .spar, .sec, .maint, .out] s t := by
  refine Does.also (t := s) Does.refl (fun h0 => ?_)
  unfold execCommitAckTimeout at h
  obtain rfl := Host.Outcome.next.inj h
  clear h
  extract_lets +onlyGivenNames y0
  refine Does.also (t := y0) ?_ (fun hy0 => ?_)
  · subst y0
    refine Does.then reachTime_does rfl ?_
    assumption
  clear_value y0
  revert y0
  refine Does.intro ?_
  intro y0 hy0
  split
  · rename_i x1 x2 x3
    refine Does.ite ?_ ?_
    · refine Does.then abortAll_does rfl ?_
      assumption
    · assumption
  · rename_i x4 x5
    assumption

theorem dropBlocks_does {a0 a1} {s} :
    Does [.slate] s (dropBlocks a0 a1 s) := by
  refine Does.also (t := s) Does.refl (fun h0 => ?_)
  unfold dropBlocks
  extract_lets +onlyGivenNames y0
  extract_lets +onlyGivenNames y1
  extract_lets +onlyGivenNames y2
  extract_lets +onlyGivenNames y3
  refine Does.set_slate rfl _ ?_
  assumption

theorem switchArray_does {a0 a1 a2} {s} :
    Does [.slate, .models] s (switchArray a0 a1 a2 s) := by
  refine Does.also (t := s) Does.refl (fun h0 => ?_)
  unfold switchArray
  extract_lets +onlyGivenNames y0
  extract_lets +onlyGivenNames y1
  extract_lets +onlyGivenNames y2
  extract_lets +onlyGivenNames y3
  extract_lets +onlyGivenNames y4
  refine Does.also (t := y4) ?_ (fun hy4 => ?_)
  · subst y4
    refine forEach_does ?_ (fun a6 z7 hz8 => ?_)
    · assumption
    · extract_lets +onlyGivenNames y9
      refine Does.also (t := y9) ?_ (fun hy9 => ?_)
      · subst y9
        refine Does.then dropRelocs_does rfl ?_
        assumption
      clear_value y9
      revert y9
      refine Does.intro ?_
      intro y9 hy9
      refine Does.then updSb_does rfl ?_
      assumption
  clear_value y4
  revert y4
  refine Does.intro ?_
  intro y4 hy4
  extract_lets +onlyGivenNames y10
  refine Does.also (t := y10) ?_ (fun hy10 => ?_)
  · subst y10
    refine Does.then dropBlocks_does rfl ?_
    assumption
  clear_value y10
  revert y10
  refine Does.intro ?_
  intro y10 hy10
  extract_lets +onlyGivenNames y11
  extract_lets +onlyGivenNames y12
  refine Does.then updSlot_does rfl ?_
  assumption

theorem endSwitch_does {a0 a1} {s} :
    Does [.cnt, .ram, .ramUndef, .mbx, .host, .err, .slate, .taint, .tiers, .models, .spar, .maint, .out] s (endSwitch a0 a1 s) := by
  refine Does.also (t := s) Does.refl (fun h0 => ?_)
  unfold endSwitch
  extract_lets +onlyGivenNames y0
  extract_lets +onlyGivenNames y1
  refine Does.also (t := y1) ?_ (fun hy1 => ?_)
  · subst y1
    refine Does.then updSlot_does rfl ?_
    assumption
  clear_value y1
  revert y1
  refine Does.intro ?_
  intro y1 hy1
  extract_lets +onlyGivenNames y2
  refine Does.also (t := y2) ?_ (fun hy2 => ?_)
  · subst y2
    refine Does.then checkTables_does rfl ?_
    assumption
  clear_value y2
  revert y2
  refine Does.intro ?_
  intro y2 hy2
  extract_lets +onlyGivenNames y3
  refine Does.also (t := y3) ?_ (fun hy3 => ?_)
  · subst y3
    refine Does.then updSlot_does rfl ?_
    assumption
  clear_value y3
  revert y3
  refine Does.intro ?_
  intro y3 hy3
  extract_lets +onlyGivenNames y4
  extract_lets +onlyGivenNames y5
  refine Does.then ckptBoth_does rfl ?_
  refine Does.set_models rfl _ ?_
  assumption

theorem execCommitSwitch_does {a0 a1} {s} {t} (h : (execCommitSwitch a0 a1 s) = .next t) :
    Does [.cnt, .ram, .ramUndef, .mbx, .host, .tbu, .err, .slate, .taint, .tiers, .models, .spar, .maint, .out] s t := by
  refine Does.also (t := s) Does.refl (fun h0 => ?_)
  unfold execCommitSwitch at h
  obtain rfl := Host.Outcome.next.inj h
  clear h
  extract_lets +onlyGivenNames y0
  refine Does.also (t := y0) ?_ (fun hy0 => ?_)
  · subst y0
    refine Does.then reachTime_does rfl ?_
    assumption
  clear_value y0
  revert y0
  refine Does.intro ?_
  intro y0 hy0
  split
  · rename_i x2 x3 x4 x5 x6 x7
    extract_lets +onlyGivenNames y8
    extract_lets +onlyGivenNames y9
    refine Does.also (t := y9) ?_ (fun hy9 => ?_)
    · subst y9
      refine Does.then switchArray_does rfl ?_
      assumption
    clear_value y9
    revert y9
    refine Does.intro ?_
    intro y9 hy9
    extract_lets +onlyGivenNames y10
    extract_lets +onlyGivenNames y11
    refine Does.ite ?_ ?_
    · refine Does.ite ?_ ?_
      · refine Does.then endSwitch_does rfl ?_
        assumption
      · refine Does.set_models rfl _ ?_
        assumption
    · assumption
  · rename_i x12 x13 x14
    assumption

theorem settleCommit_does {s} :
    Does [.ram, .ramUndef, .mbx, .host, .taint, .tiers, .models, .spar, .sec, .maint, .out] s (settleCommit s) := by
  refine Does.also (t := s) Does.refl (fun h0 => ?_)
  unfold settleCommit
  extract_lets +onlyGivenNames y0
  extract_lets +onlyGivenNames y1
  refine Does.also (t := y1) ?_ (fun hy1 => ?_)
  · subst y1
    refine Does.set_models rfl _ ?_
    assumption
  clear_value y1
  revert y1
  refine Does.intro ?_
  intro y1 hy1
  extract_lets +onlyGivenNames y2
  refine Does.also (t := y2) ?_ (fun hy2 => ?_)
  · subst y2
    split
    · rename_i x3 x4 x5
      refine Does.ite ?_ ?_
      · assumption
      · refine Does.ite ?_ ?_
        · refine Does.then updStage_does rfl ?_
          assumption
        · refine Does.then closeStage_does rfl ?_
          assumption
    · rename_i x6 x7
      assumption
  clear_value y2
  revert y2
  refine Does.intro ?_
  intro y2 hy2
  split
  · rename_i x9 x10 x11
    extract_lets +onlyGivenNames y12
    refine Does.ite ?_ ?_
    · refine Does.then finishOpt_does rfl ?_
      assumption
    · assumption
  · rename_i x13 x14
    assumption

theorem makeDurable_does {a0 a1} {s} :
    Does [.cnt, .ram, .ramUndef, .mbx, .host, .taint, .tiers, .models, .spar, .sec, .maint, .out] s (makeDurable a0 a1 s) := by
  refine Does.also (t := s) Does.refl (fun h0 => ?_)
  unfold makeDurable
  extract_lets +onlyGivenNames y0
  extract_lets +onlyGivenNames y1
  refine Does.also (t := y1) ?_ (fun hy1 => ?_)
  · subst y1
    refine Does.then count_does rfl ?_
    refine Does.then updSlot_does rfl ?_
    refine Does.set_models rfl _ ?_
    assumption
  clear_value y1
  revert y1
  refine Does.intro ?_
  intro y1 hy1
  extract_lets +onlyGivenNames y2
  refine Does.also (t := y2) ?_ (fun hy2 => ?_)
  · subst y2
    refine Does.ite ?_ ?_
    · refine Does.then updStage_does rfl ?_
      assumption
    · refine Does.then closeStage_does rfl ?_
      assumption
  clear_value y2
  revert y2
  refine Does.intro ?_
  intro y2 hy2
  extract_lets +onlyGivenNames y3
  refine Does.ite ?_ ?_
  · refine Does.then sendTo_does rfl ?_
    refine Does.set_models rfl _ ?_
    assumption
  · refine Does.then settleCommit_does rfl ?_
    refine Does.set_models rfl _ ?_
    assumption

theorem execCommitDurable_does {s} {t} (h : (execCommitDurable s) = .next t) :
    Does [.cnt, .ram, .ramUndef, .mbx, .host, .taint, .tiers, .models, .spar, .sec, .maint, .out] s t := by
  refine Does.also (t := s) Does.refl (fun h0 => ?_)
  unfold execCommitDurable at h
  obtain rfl := Host.Outcome.next.inj h
  clear h
  split
  · rename_i x0 x1 x2 x3 x4 x5
    refine Does.ite ?_ ?_
    · refine Does.then makeDurable_does rfl ?_
      assumption
    · assumption
  · rename_i x6 x7 x8
    assumption

theorem execCommitAcknowledge_does {a0 a1} {s} {t} (h : (execCommitAcknowledge a0 a1 s) = .next t) :
    Does [.ram, .ramUndef, .mbx, .host, .taint, .tiers, .models, .spar, .sec, .maint, .out] s t := by
  refine Does.also (t := s) Does.refl (fun h0 => ?_)
  unfold execCommitAcknowledge at h
  obtain rfl := Host.Outcome.next.inj h
  clear h
  extract_lets +onlyGivenNames y0
  split
  · rename_i x1 x2
    assumption
  · rename_i x3 x4 x5
    refine Does.ite ?_ ?_
    · assumption
    · split
      · rename_i x6
        refine Does.then settleDecision_does rfl ?_
        refine Does.set_models rfl _ ?_
        assumption
      · rename_i x7
        refine Does.then settleCommit_does rfl ?_
        refine Does.set_models rfl _ ?_
        assumption

theorem repairLine_does {a0 a1 a2 a3 a4} {s} :
    Does [.cnt, .host, .err, .slate, .maint, .out] s (repairLine a0 a1 a2 a3 a4 s) := by
  refine Does.also (t := s) Does.refl (fun h0 => ?_)
  unfold repairLine
  extract_lets +onlyGivenNames y0
  extract_lets +onlyGivenNames y1
  extract_lets +onlyGivenNames y2
  extract_lets +onlyGivenNames y3
  refine Does.also (t := y3) ?_ (fun hy3 => ?_)
  · subst y3
    refine Does.then dropRelocs_does rfl ?_
    assumption
  clear_value y3
  revert y3
  refine Does.intro ?_
  intro y3 hy3
  refine Does.ite ?_ ?_
  · refine Does.set_slate rfl _ ?_
    assumption
  · refine Does.then setRepl_does rfl ?_
    refine Does.then queueReloc_does rfl ?_
    assumption

theorem repairParity_does {a0 a1} {s} :
    Does [.cnt, .host, .err, .slate, .maint, .out] s (repairParity a0 a1 s) := by
  refine Does.also (t := s) Does.refl (fun h0 => ?_)
  unfold repairParity
  extract_lets +onlyGivenNames y0
  extract_lets +onlyGivenNames y1
  refine Does.also (t := y1) ?_ (fun hy1 => ?_)
  · subst y1
    refine Does.then dropRelocs_does rfl ?_
    assumption
  clear_value y1
  revert y1
  refine Does.intro ?_
  intro y1 hy1
  refine Does.ite ?_ ?_
  · assumption
  · refine Does.then setRepl_does rfl ?_
    refine Does.then queueReloc_does rfl ?_
    assumption

theorem modelRepair_does {a0 a1} {s} :
    Does [.cnt, .ram, .ramUndef, .mbx, .host, .err, .slate, .taint, .tiers, .models, .spar, .maint, .out] s (replySt (modelRepair a0 a1 s)) := by
  refine Does.also (t := s) Does.refl (fun h0 => ?_)
  unfold modelRepair
  extract_lets +onlyGivenNames y0
  extract_lets +onlyGivenNames y1
  extract_lets +onlyGivenNames y2
  extract_lets +onlyGivenNames y3
  extract_lets +onlyGivenNames y4
  refine Does.also (t := y4) ?_ (fun hy4 => ?_)
  · subst y4
    refine forEach_does ?_ (fun a5 z6 hz7 => ?_)
    · assumption
    · refine Does.then repairLine_does rfl ?_
      assumption
  clear_value y4
  revert y4
  refine Does.intro ?_
  intro y4 hy4
  extract_lets +onlyGivenNames y8
  refine Does.also (t := y8) ?_ (fun hy8 => ?_)
  · subst y8
    refine forEach_does ?_ (fun a9 z10 hz11 => ?_)
    · assumption
    · refine Does.then repairParity_does rfl ?_
      assumption
  clear_value y8
  revert y8
  refine Does.intro ?_
  intro y8 hy8
  refine checked_does ?_ ?_
  · assumption
  · refine Does.running ?_
    refine Does.then settleRepair_does rfl ?_
    assumption

theorem execModelRepair_does {a0 a1} {s} {t} (h : (execModelRepair a0 a1 s) = .next t) :
    Does [.cnt, .ram, .ramUndef, .mbx, .host, .err, .slate, .taint, .tiers, .models, .spar, .maint, .out] s t := by
  refine Does.also (t := s) Does.refl (fun h0 => ?_)
  unfold execModelRepair at h
  obtain rfl := Host.Outcome.next.inj h
  clear h
  refine iarik_does rfl ?_ (fun c0 z1 hz2 => ?_)
  · assumption
  · refine Does.then modelRepair_does rfl ?_
    assumption

theorem unmapSlot_does {a0} {s} :
    Does [.slate] s (unmapSlot a0 s) := by
  refine Does.also (t := s) Does.refl (fun h0 => ?_)
  unfold unmapSlot
  extract_lets +onlyGivenNames y0
  refine Does.then dropBlocks_does rfl ?_
  assumption

theorem modelDelete_does {a0} {s} :
    Does [.cnt, .ram, .ramUndef, .mbx, .host, .err, .slate, .taint, .tiers, .models, .spar, .maint, .out] s (replySt (modelDelete a0 s)) := by
  refine Does.also (t := s) Does.refl (fun h0 => ?_)
  unfold modelDelete
  extract_lets +onlyGivenNames y0
  extract_lets +onlyGivenNames y1
  extract_lets +onlyGivenNames y2
  refine checked_does ?_ ?_
  · assumption
  · refine Does.iteR ?_ ?_
    · refine Does.iteR ?_ ?_
      · refine Does.done ?_
        assumption
      · refine Does.running ?_
        refine Does.then ckptBoth_does rfl ?_
        refine Does.then unmapSlot_does rfl ?_
        assumption
    · refine Does.running ?_
      refine Does.then sendMembers_does rfl ?_
      refine Does.set_spar rfl _ ?_
      assumption

theorem execModelDelete_does {a0} {s} {t} (h : (execModelDelete a0 s) = .next t) :
    Does [.cnt, .ram, .ramUndef, .mbx, .host, .err, .slate, .taint, .tiers, .models, .spar, .maint, .out] s t := by
  refine Does.also (t := s) Does.refl (fun h0 => ?_)
  unfold execModelDelete at h
  obtain rfl := Host.Outcome.next.inj h
  clear h
  refine iarik_does rfl ?_ (fun c0 z1 hz2 => ?_)
  · assumption
  · refine Does.then modelDelete_does rfl ?_
    assumption

end Sys2Proof.Laws
end

