-- ==== Sys2Proof/Laws/Objects.lean ====
section
/-! SUPPORT. Sys2Proof/Laws/Objects.lean: what each operation and meaning of Machine/Objects.lean can do, as `Does` says it: which blocks of
the state it may change, that it keeps the invariant, and that it lowers nothing that only rises. -/

namespace Sys2Proof.Laws

open Sys2Proof.Machine Sys2Proof.Safety

theorem usePages_does {a0} {s} :
    Does [.tiers] s (usePages a0 s) := by
  refine Does.also (t := s) Does.refl (fun h0 => ?_)
  unfold usePages
  extract_lets +onlyGivenNames y0
  extract_lets +onlyGivenNames y1
  extract_lets +onlyGivenNames y2
  refine Does.set_tiers rfl _ ?_
  assumption

theorem addObject_does {a0} {s} :
    Does [.tiers] s (addObject a0 s) := by
  refine Does.also (t := s) Does.refl (fun h0 => ?_)
  unfold addObject
  extract_lets +onlyGivenNames y0
  refine Does.also (t := y0) ?_ (fun hy0 => ?_)
  · subst y0
    refine Does.then usePages_does rfl ?_
    assumption
  clear_value y0
  revert y0
  refine Does.intro ?_
  intro y0 hy0
  extract_lets +onlyGivenNames y1
  refine Does.set_tiers rfl _ ?_
  assumption

theorem objectAlloc_does {a0} {s} :
    Does [.tiers] s (replySt (objectAlloc a0 s)) := by
  refine Does.also (t := s) Does.refl (fun h0 => ?_)
  unfold objectAlloc
  extract_lets +onlyGivenNames y0
  extract_lets +onlyGivenNames y1
  extract_lets +onlyGivenNames y2
  extract_lets +onlyGivenNames y3
  extract_lets +onlyGivenNames y4
  extract_lets +onlyGivenNames y5
  extract_lets +onlyGivenNames y6
  extract_lets +onlyGivenNames y7
  extract_lets +onlyGivenNames y8
  extract_lets +onlyGivenNames y9
  refine checked_does ?_ ?_
  · assumption
  · clear_value y8 y9
    split
    · rename_i x10 x11 x12 x13
      refine Does.done ?_
      refine Does.then addObject_does rfl ?_
      assumption
    · rename_i x14 x15 x16
      refine Does.done ?_
      assumption

theorem execObjectPlaceAlloc_does {a0} {s} {t} (h : (execObjectPlaceAlloc a0 s) = .next t) :
    Does [.ram, .ramUndef, .mbx, .host, .taint, .tiers, .spar, .out] s t := by
  refine Does.also (t := s) Does.refl (fun h0 => ?_)
  unfold execObjectPlaceAlloc at h
  obtain rfl := Host.Outcome.next.inj h
  clear h
  refine iarikIf_does rfl ?_ (fun c0 z1 hz2 => ?_)
  · assumption
  · refine Does.then objectAlloc_does rfl ?_
    assumption

theorem objectFree_does {a0} {s} :
    Does [.tiers, .models, .codec] s (replySt (objectFree a0 s)) := by
  refine Does.also (t := s) Does.refl (fun h0 => ?_)
  unfold objectFree
  extract_lets +onlyGivenNames y0
  extract_lets +onlyGivenNames y1
  refine checked_does ?_ ?_
  · assumption
  · refine Does.done ?_
    refine Does.then dropObject_does rfl ?_
    refine Does.set_models rfl _ ?_
    assumption

theorem execObjectPlaceFree_does {a0} {s} {t} (h : (execObjectPlaceFree a0 s) = .next t) :
    Does [.ram, .ramUndef, .mbx, .host, .taint, .tiers, .models, .codec, .spar, .out] s t := by
  refine Does.also (t := s) Does.refl (fun h0 => ?_)
  unfold execObjectPlaceFree at h
  obtain rfl := Host.Outcome.next.inj h
  clear h
  refine iarikIf_does rfl ?_ (fun c0 z1 hz2 => ?_)
  · assumption
  · refine Does.then objectFree_does rfl ?_
    assumption

theorem setPage_does {a0 a1 a2} {s} :
    Does [.tiers] s (setPage a0 a1 a2 s) := by
  refine Does.also (t := s) Does.refl (fun h0 => ?_)
  unfold setPage
  extract_lets +onlyGivenNames y0
  refine Does.set_tiers rfl _ ?_
  assumption

theorem moveByte_does {a0 a1 a2} {s} :
    Does [.ram, .ramUndef, .tiers, .free] s (moveByte a0 a1 a2 s) := by
  refine Does.also (t := s) Does.refl (fun h0 => ?_)
  unfold moveByte
  extract_lets +onlyGivenNames y0
  refine Does.ite ?_ ?_
  · refine Does.ite ?_ ?_
    · refine Does.set_tiers rfl _ ?_
      assumption
    · refine Does.then undefine_does rfl ?_
      assumption
  · refine Does.then ramPut_does rfl ?_
    assumption

theorem movePage_does {a0 a1} {s} :
    Does [.ram, .ramUndef, .tiers, .free] s (movePage a0 a1 s) := by
  refine Does.also (t := s) Does.refl (fun h0 => ?_)
  unfold movePage
  split
  · rename_i x1 x2
    assumption
  · rename_i x3 x4 x5
    extract_lets +onlyGivenNames y6
    refine Does.also (t := y6) ?_ (fun hy6 => ?_)
    · subst y6
      refine Does.then setPoison_does rfl ?_
      assumption
    clear_value y6
    revert y6
    refine Does.intro ?_
    intro y6 hy6
    split
    · rename_i x7 x8 x9
      refine forUpto_does ?_ (fun a10 z11 hz12 => ?_)
      · assumption
      · refine Does.then moveByte_does rfl ?_
        assumption
    · rename_i x13 x14
      refine forUpto_does ?_ (fun a15 z16 hz17 => ?_)
      · assumption
      · refine Does.then ramPut_does rfl ?_
        assumption

theorem switchPage_does {a0 a1 a2} {s} :
    Does [.cnt, .ram, .ramUndef, .tiers, .free] s (switchPage a0 a1 a2 s) := by
  refine Does.also (t := s) Does.refl (fun h0 => ?_)
  unfold switchPage
  split
  · rename_i x1 x2
    assumption
  · rename_i x3 x4 x5
    extract_lets +onlyGivenNames y6
    refine Does.then count_does rfl ?_
    refine Does.then freePages_does rfl ?_
    refine Does.then setPage_does rfl ?_
    refine Does.then movePage_does rfl ?_
    assumption

theorem reportLend_does {a0} {s} :
    Does [.tiers, .spar, .out] s (reportLend a0 s) := by
  refine Does.also (t := s) Does.refl (fun h0 => ?_)
  unfold reportLend
  extract_lets +onlyGivenNames y0
  refine Does.ite ?_ ?_
  · assumption
  · split
    · rename_i x1 x2 x3
      refine Does.then sendTo_does rfl ?_
      refine Does.set_tiers rfl _ ?_
      assumption
    · rename_i x4 x5
      assumption

theorem settleMigr_does {a0} {s} :
    Does [.ram, .ramUndef, .mbx, .host, .taint, .tiers, .spar, .out] s (settleMigr a0 s) := by
  refine Does.also (t := s) Does.refl (fun h0 => ?_)
  unfold settleMigr
  extract_lets +onlyGivenNames y0
  extract_lets +onlyGivenNames y1
  refine Does.also (t := y1) ?_ (fun hy1 => ?_)
  · subst y1
    refine Does.set_tiers rfl _ ?_
    assumption
  clear_value y1
  revert y1
  refine Does.intro ?_
  intro y1 hy1
  extract_lets +onlyGivenNames y2
  refine Does.also (t := y2) ?_ (fun hy2 => ?_)
  · subst y2
    refine Does.then finishOpt_does rfl ?_
    assumption
  clear_value y2
  revert y2
  refine Does.intro ?_
  intro y2 hy2
  refine Does.ite ?_ ?_
  · split
    · rename_i x3 x4 x5
      refine Does.then reportLend_does rfl ?_
      assumption
    · rename_i x6 x7
      assumption
  · assumption

theorem objectMigrate_does {a0} {s} :
    Does [.cnt, .ram, .ramUndef, .tiers, .free] s (replySt (objectMigrate a0 s)) := by
  refine Does.also (t := s) Does.refl (fun h0 => ?_)
  unfold objectMigrate
  extract_lets +onlyGivenNames y0
  extract_lets +onlyGivenNames y1
  extract_lets +onlyGivenNames y2
  extract_lets +onlyGivenNames y3
  split
  · rename_i x5 x6
    refine checked_does ?_ ?_
    · assumption
    · refine Does.done ?_
      assumption
  · rename_i x7 x8 x9
    extract_lets +onlyGivenNames y10
    extract_lets +onlyGivenNames y11
    extract_lets +onlyGivenNames y12
    refine checked_does ?_ ?_
    · assumption
    · clear_value y12
      split
      · rename_i x15
        refine Does.done ?_
        assumption
      · rename_i x16 x17
        extract_lets +onlyGivenNames y18
        refine Does.also (t := y18) ?_ (fun hy18 => ?_)
        · subst y18
          refine Does.then usePages_does rfl ?_
          assumption
        clear_value y18
        revert y18
        refine Does.intro ?_
        intro y18 hy18
        extract_lets +onlyGivenNames y19
        extract_lets +onlyGivenNames y20
        extract_lets +onlyGivenNames y21
        extract_lets +onlyGivenNames y22
        refine Does.also (t := y22) ?_ (fun hy22 => ?_)
        · subst y22
          refine forEach_does ?_ (fun a23 z24 hz25 => ?_)
          · assumption
          · refine Does.then switchPage_does rfl ?_
            assumption
        clear_value y22
        revert y22
        refine Does.intro ?_
        intro y22 hy22
        extract_lets +onlyGivenNames y26
        extract_lets +onlyGivenNames y27
        refine Does.iteR ?_ ?_
        · refine Does.done ?_
          assumption
        · refine Does.running ?_
          refine Does.set_tiers rfl _ ?_
          assumption

theorem execObjectMigrate_does {a0} {s} {t} (h : (execObjectMigrate a0 s) = .next t) :
    Does [.cnt, .ram, .ramUndef, .mbx, .host, .taint, .tiers, .spar, .out, .free] s t := by
  refine Does.also (t := s) Does.refl (fun h0 => ?_)
  unfold execObjectMigrate at h
  obtain rfl := Host.Outcome.next.inj h
  clear h
  refine iarik_does rfl ?_ (fun c0 z1 hz2 => ?_)
  · assumption
  · refine Does.then objectMigrate_does rfl ?_
    assumption

theorem execPageCopyComplete_does {a0} {s} {t} (h : (execPageCopyComplete a0 s) = .next t) :
    Does [.cnt, .ram, .ramUndef, .mbx, .host, .taint, .tiers, .spar, .out, .free] s t := by
  refine Does.also (t := s) Does.refl (fun h0 => ?_)
  unfold execPageCopyComplete at h
  obtain rfl := Host.Outcome.next.inj h
  clear h
  split
  · rename_i x1 x2
    assumption
  · rename_i x3 x4 x5
    extract_lets +onlyGivenNames y6
    split
    · rename_i x8 x9
      refine Does.then settleMigr_does rfl ?_
      assumption
    · rename_i x10 x11 x12 x13
      extract_lets +onlyGivenNames y14
      refine Does.ite ?_ ?_
      · dsimp only [y6]
        refine Does.set_tiers rfl _ ?_
        assumption
      · refine Does.then settleMigr_does rfl ?_
        refine Does.then switchPage_does rfl ?_
        dsimp only [y6]
        refine Does.set_tiers rfl _ ?_
        assumption

theorem dropPages_does {a0 a1} {s} :
    Does [.cnt, .host, .err, .tiers, .out] s (dropPages a0 a1 s) := by
  refine Does.also (t := s) Does.refl (fun h0 => ?_)
  unfold dropPages
  extract_lets +onlyGivenNames y0
  refine Does.also (t := y0) ?_ (fun hy0 => ?_)
  · subst y0
    refine forEach_does ?_ (fun a1 z2 hz3 => ?_)
    · assumption
    · refine Does.then setPage_does rfl ?_
      assumption
  clear_value y0
  revert y0
  refine Does.intro ?_
  intro y0 hy0
  split
  · rename_i x4
    assumption
  · rename_i x5 x6 x7
    refine Does.then record_does rfl ?_
    refine Does.then countBy_does rfl ?_
    assumption

theorem updLend_does {a0 a1} {s} :
    Does [.tiers] s (updLend a0 a1 s) := by
  refine Does.also (t := s) Does.refl (fun h0 => ?_)
  unfold updLend
  extract_lets +onlyGivenNames y0
  refine Does.set_tiers rfl _ ?_
  assumption

theorem leaveLend_does {a0 a1} {s} : Does [.cnt, .host, .err, .tiers, .out] s (leaveLend a0 a1 s) := by
  unfold leaveLend
  extract_lets idx r s1
  have hr : ∀ (L : List Nat) (acc : List (Nat × PageAt) × List Nat × Sys2Proof.Machine.State), Does [.cnt, .host, .err, .tiers, .out] s acc.2.2 →
      Does [.cnt, .host, .err, .tiers, .out] s (L.foldl (fun (acc : List (Nat × PageAt) × List Nat × Sys2Proof.Machine.State) i =>
        let s := acc.2.2
        match s.takePages 1 0 1, s.takePages 0 0 1 with
        | some [p], _ => (acc.1 ++ [(i, p)], acc.2.1, usePages [p] s)
        | _, some [p] => (acc.1 ++ [(i, p)], acc.2.1, usePages [p] s)
        | _, _ => (acc.1, acc.2.1 ++ [i], s)) acc).2.2 := by
    intro L
    induction L with
    | nil => intro acc h; exact h
    | cons i L ih =>
      intro acc h
      refine ih _ ?_
      dsimp only
      split
      · exact h.trans (usePages_does.mono rfl)
      · exact h.trans (usePages_does.mono rfl)
      · exact h
  have h1 : Does [.cnt, .host, .err, .tiers, .out] s s1 := Does.then updLend_does rfl (Does.then dropPages_does rfl (hr _ _ Does.refl))
  clear_value s1
  exact Does.ite h1 (Does.set_tiers rfl _ h1)

theorem leaveTarget_does {a0 a1} {s} :
    Does [.ram, .ramUndef, .mbx, .host, .taint, .tiers, .spar, .out] s (leaveTarget a0 a1 s) := by
  refine Does.also (t := s) Does.refl (fun h0 => ?_)
  unfold leaveTarget
  extract_lets +onlyGivenNames y0
  extract_lets +onlyGivenNames y1
  extract_lets +onlyGivenNames y2
  refine Does.ite ?_ ?_
  · assumption
  · refine Does.then settleMigr_does rfl ?_
    refine Does.set_tiers rfl _ ?_
    assumption

theorem execReclaimNotice_does {a0} {s} {t} (h : (execReclaimNotice a0 s) = .next t) :
    Does [.cnt, .ram, .ramUndef, .mbx, .host, .err, .taint, .tiers, .spar, .out] s t := by
  refine Does.also (t := s) Does.refl (fun h0 => ?_)
  unfold execReclaimNotice at h
  obtain rfl := Host.Outcome.next.inj h
  clear h
  extract_lets +onlyGivenNames y0
  refine Does.also (t := y0) ?_ (fun hy0 => ?_)
  · subst y0
    refine Does.then updLend_does rfl ?_
    assumption
  clear_value y0
  revert y0
  refine Does.intro ?_
  intro y0 hy0
  extract_lets +onlyGivenNames y1
  refine Does.also (t := y1) ?_ (fun hy1 => ?_)
  · subst y1
    refine forEach_does ?_ (fun a2 z3 hz4 => ?_)
    · assumption
    · refine Does.then leaveTarget_does rfl ?_
      assumption
  clear_value y1
  revert y1
  refine Does.intro ?_
  intro y1 hy1
  split
  · rename_i x5 x6
    assumption
  · rename_i x7 x8 x9
    refine Does.ite ?_ ?_
    · assumption
    · refine Does.then reportLend_does rfl ?_
      refine forEach_does ?_ (fun a10 z11 hz12 => ?_)
      · assumption
      · refine Does.then leaveLend_does rfl ?_
        assumption

theorem giveBack_does {a0} {s} :
    Does [.tiers] s (giveBack a0 s) := by
  refine Does.also (t := s) Does.refl (fun h0 => ?_)
  unfold giveBack
  extract_lets +onlyGivenNames y0
  refine Does.set_tiers rfl _ ?_
  assumption

theorem endReclaim_does {a0} {s} :
    Does [.cnt, .ram, .ramUndef, .mbx, .host, .taint, .tiers, .spar, .out, .free] s (endReclaim a0 s) := by
  refine Does.also (t := s) Does.refl (fun h0 => ?_)
  unfold endReclaim
  extract_lets +onlyGivenNames y0
  extract_lets +onlyGivenNames y1
  refine Does.also (t := y1) ?_ (fun hy1 => ?_)
  · subst y1
    refine Does.then count_does rfl ?_
    refine Does.then giveBack_does rfl ?_
    assumption
  clear_value y1
  revert y1
  refine Does.intro ?_
  intro y1 hy1
  extract_lets +onlyGivenNames y2
  refine Does.also (t := y2.2) ?_ (fun hy2 => ?_)
  · refine Does.ofSnd ?_
    subst y2
    refine Does.then drawWord_does rfl ?_
    assumption
  clear_value y2
  revert y2
  refine Does.intro2 ?_
  intro y2 hy2
  refine Does.ite ?_ ?_
  · refine Does.then finishOpt_does rfl ?_
    assumption
  · refine Does.then finishOpt_does rfl ?_
    assumption

theorem execReclaimReport_does {a0 a1} {s} {t} (h : (execReclaimReport a0 a1 s) = .next t) :
    Does [.cnt, .ram, .ramUndef, .mbx, .host, .taint, .tiers, .spar, .out, .free] s t := by
  refine Does.also (t := s) Does.refl (fun h0 => ?_)
  unfold execReclaimReport at h
  obtain rfl := Host.Outcome.next.inj h
  clear h
  split
  · rename_i x1 x2
    assumption
  · rename_i x3 x4 x5
    extract_lets +onlyGivenNames y6
    refine Does.ite ?_ ?_
    · assumption
    · refine Does.ite ?_ ?_
      · refine Does.then endReclaim_does rfl ?_
        assumption
      · refine Does.then updLend_does rfl ?_
        assumption

theorem abandonLend_does {a0} {s} :
    Does [.cnt, .ram, .ramUndef, .mbx, .host, .err, .taint, .tiers, .spar, .out] s (abandonLend a0 s) := by
  refine Does.also (t := s) Does.refl (fun h0 => ?_)
  unfold abandonLend
  extract_lets +onlyGivenNames y0
  refine Does.also (t := y0) ?_ (fun hy0 => ?_)
  · subst y0
    refine forEach_does ?_ (fun a1 z2 hz3 => ?_)
    · assumption
    · refine Does.then leaveTarget_does rfl ?_
      assumption
  clear_value y0
  revert y0
  refine Does.intro ?_
  intro y0 hy0
  extract_lets +onlyGivenNames y4
  extract_lets +onlyGivenNames y5
  extract_lets +onlyGivenNames y6
  refine Does.also (t := y6) ?_ (fun hy6 => ?_)
  · subst y6
    refine Does.set_tiers rfl _ ?_
    assumption
  clear_value y6
  revert y6
  refine Does.intro ?_
  intro y6 hy6
  extract_lets +onlyGivenNames y7
  refine Does.also (t := y7) ?_ (fun hy7 => ?_)
  · subst y7
    refine forEach_does ?_ (fun a8 z9 hz10 => ?_)
    · assumption
    · refine Does.then freePages_does rfl ?_
      assumption
  clear_value y7
  revert y7
  refine Does.intro ?_
  intro y7 hy7
  extract_lets +onlyGivenNames y11
  refine Does.also (t := y11) ?_ (fun hy11 => ?_)
  · subst y11
    refine forEach_does ?_ (fun a12 z13 hz14 => ?_)
    · assumption
    · refine Does.then dropPages_does rfl ?_
      assumption
  clear_value y11
  revert y11
  refine Does.intro ?_
  intro y11 hy11
  extract_lets +onlyGivenNames y15
  refine Does.set_tiers rfl _ ?_
  assumption

theorem execReclaimLimit_does {a0} {s} {t} (h : (execReclaimLimit a0 s) = .next t) :
    Does [.cnt, .ram, .ramUndef, .mbx, .host, .err, .taint, .tiers, .spar, .out, .free] s t := by
  refine Does.also (t := s) Does.refl (fun h0 => ?_)
  unfold execReclaimLimit at h
  obtain rfl := Host.Outcome.next.inj h
  clear h
  split
  · rename_i x0 x1
    assumption
  · rename_i x2 x3 x4
    refine Does.ite ?_ ?_
    · assumption
    · refine Does.ite ?_ ?_
      · refine Does.then endReclaim_does rfl ?_
        assumption
      · refine Does.then abandonLend_does rfl ?_
        assumption

theorem groupLend_does {a0} {s} :
    Does [.tiers, .spar, .out] s (replySt (groupLend a0 s)) := by
  refine Does.also (t := s) Does.refl (fun h0 => ?_)
  unfold groupLend
  extract_lets +onlyGivenNames y0
  extract_lets +onlyGivenNames y1
  extract_lets +onlyGivenNames y2
  extract_lets +onlyGivenNames y3
  extract_lets +onlyGivenNames y4
  extract_lets +onlyGivenNames y5
  refine checked_does ?_ ?_
  · assumption
  · clear_value y4
    split
    · rename_i x8
      refine Does.done ?_
      assumption
    · rename_i x9 x10
      extract_lets +onlyGivenNames y11
      extract_lets +onlyGivenNames y12
      extract_lets +onlyGivenNames y13
      refine Does.also (t := y13) ?_ (fun hy13 => ?_)
      · subst y13
        refine Does.then usePages_does rfl ?_
        assumption
      clear_value y13
      revert y13
      refine Does.intro ?_
      intro y13 hy13
      extract_lets +onlyGivenNames y14
      extract_lets +onlyGivenNames y15
      refine Does.also (t := y15) ?_ (fun hy15 => ?_)
      · subst y15
        refine Does.set_tiers rfl _ ?_
        assumption
      clear_value y15
      revert y15
      refine Does.intro ?_
      intro y15 hy15
      refine Does.done ?_
      refine forEach_does ?_ (fun a16 z17 hz18 => ?_)
      · assumption
      · refine Does.then sendTo_does rfl ?_
        assumption

theorem execGroupLend_does {a0} {s} {t} (h : (execGroupLend a0 s) = .next t) :
    Does [.ram, .ramUndef, .mbx, .host, .taint, .tiers, .spar, .out] s t := by
  refine Does.also (t := s) Does.refl (fun h0 => ?_)
  unfold execGroupLend at h
  obtain rfl := Host.Outcome.next.inj h
  clear h
  refine iarikIf_does rfl ?_ (fun c0 z1 hz2 => ?_)
  · assumption
  · refine Does.then groupLend_does rfl ?_
    assumption

theorem groupReclaim_does {a0} {s} :
    Does [.cnt, .ram, .ramUndef, .mbx, .host, .taint, .tiers, .spar, .out, .free] s (replySt (groupReclaim a0 s)) := by
  refine Does.also (t := s) Does.refl (fun h0 => ?_)
  unfold groupReclaim
  extract_lets +onlyGivenNames y0
  refine checked_does ?_ ?_
  · assumption
  · clear_value y0
    split
    · rename_i x3
      refine Does.done ?_
      assumption
    · rename_i x4 x5
      extract_lets +onlyGivenNames y6
      extract_lets +onlyGivenNames y7
      refine Does.also (t := y7) ?_ (fun hy7 => ?_)
      · subst y7
        refine Does.then updLend_does rfl ?_
        assumption
      clear_value y7
      revert y7
      refine Does.intro ?_
      intro y7 hy7
      extract_lets +onlyGivenNames y8
      refine Does.also (t := y8) ?_ (fun hy8 => ?_)
      · subst y8
        refine forEach_does ?_ (fun a9 z10 hz11 => ?_)
        · assumption
        · refine Does.then sendTo_does rfl ?_
          assumption
      clear_value y8
      revert y8
      refine Does.intro ?_
      intro y8 hy8
      refine Does.iteR ?_ ?_
      · refine Does.running ?_
        refine Does.then endReclaim_does rfl ?_
        assumption
      · refine Does.running ?_
        assumption

theorem execGroupLendReclaim_does {a0} {s} {t} (h : (execGroupLendReclaim a0 s) = .next t) :
    Does [.cnt, .ram, .ramUndef, .mbx, .host, .taint, .tiers, .spar, .out, .free] s t := by
  refine Does.also (t := s) Does.refl (fun h0 => ?_)
  unfold execGroupLendReclaim at h
  obtain rfl := Host.Outcome.next.inj h
  clear h
  refine iarikIf_does rfl ?_ (fun c0 z1 hz2 => ?_)
  · assumption
  · refine Does.then groupReclaim_does rfl ?_
    assumption

theorem execPoisonRewriteComplete_does {a0 a1} {s} {t} (h : (execPoisonRewriteComplete a0 a1 s) = .next t) :
    Does [.cnt, .ram, .ramUndef, .host, .err, .taint, .tiers, .out] s t := by
  refine Does.also (t := s) Does.refl (fun h0 => ?_)
  unfold execPoisonRewriteComplete at h
  obtain rfl := Host.Outcome.next.inj h
  clear h
  extract_lets +onlyGivenNames y0
  extract_lets +onlyGivenNames y1
  refine Does.also (t := y1) ?_ (fun hy1 => ?_)
  · subst y1
    refine Does.set_tiers rfl _ ?_
    assumption
  clear_value y1
  revert y1
  refine Does.intro ?_
  intro y1 hy1
  extract_lets +onlyGivenNames y2
  extract_lets +onlyGivenNames y3
  refine Does.ite ?_ ?_
  · assumption
  · split
    · rename_i x6 x7
      assumption
    · rename_i x8 x9 x10
      extract_lets +onlyGivenNames y11
      split
      · rename_i x13 x14 x15 x16 x17
        extract_lets +onlyGivenNames y18
        refine Does.also (t := y18) ?_ (fun hy18 => ?_)
        · subst y18
          refine Does.then setPage_does rfl ?_
          refine Does.then freePages_does rfl ?_
          refine Does.then usePages_does rfl ?_
          assumption
        clear_value y18
        revert y18
        refine Does.intro ?_
        intro y18 hy18
        refine Does.then writeDva_does rfl ?_
        assumption
      · rename_i x19 x20 x21 x22
        refine Does.then record_does rfl ?_
        refine Does.set_tiers rfl _ ?_
        assumption

theorem execBoardPatrol_does {a0 a1 a2} {s} {t} (h : (execBoardPatrol a0 a1 a2 s) = .next t) :
    Does [.cnt, .host, .err, .tiers, .out] s t := by
  refine Does.also (t := s) Does.refl (fun h0 => ?_)
  unfold execBoardPatrol at h
  obtain rfl := Host.Outcome.next.inj h
  clear h
  extract_lets +onlyGivenNames y0
  refine Does.ite ?_ ?_
  · assumption
  · refine Does.ite ?_ ?_
    · refine Does.then poisonRead_does rfl ?_
      refine Does.set_tiers rfl _ ?_
      assumption
    · refine Does.ite ?_ ?_
      · refine Does.then count_does rfl ?_
        assumption
      · assumption

theorem boardLost_does {a0} {s} :
    Does [.ready, .cnt, .ram, .ramUndef, .mbx, .host, .err, .plans, .norm, .normSum, .taint, .tiers, .models, .spar, .out] s (boardLost a0 s) := by
  refine Does.also (t := s) Does.refl (fun h0 => ?_)
  unfold boardLost
  extract_lets +onlyGivenNames y0
  extract_lets +onlyGivenNames y1
  extract_lets +onlyGivenNames y2
  refine Does.also (t := y2) ?_ (fun hy2 => ?_)
  · subst y2
    refine Does.set_ready_tiers rfl _ _ ?_
    assumption
  clear_value y2
  revert y2
  refine Does.intro ?_
  intro y2 hy2
  extract_lets +onlyGivenNames y3
  refine Does.also (t := y3) ?_ (fun hy3 => ?_)
  · subst y3
    refine Does.then record_does rfl ?_
    assumption
  clear_value y3
  revert y3
  refine Does.intro ?_
  intro y3 hy3
  extract_lets +onlyGivenNames y4
  extract_lets +onlyGivenNames y5
  refine Does.also (t := y5) ?_ (fun hy5 => ?_)
  · subst y5
    refine forEach_does ?_ (fun a6 z7 hz8 => ?_)
    · assumption
    · refine Does.then record_does rfl ?_
      assumption
  clear_value y5
  revert y5
  refine Does.intro ?_
  intro y5 hy5
  refine forEach_does ?_ (fun a9 z10 hz11 => ?_)
  · assumption
  · refine Does.then freePlan_does rfl ?_
    assumption

theorem execBoardRetrain_does {a0 a1} {s} {t} (h : (execBoardRetrain a0 a1 s) = .next t) :
    Does [.ready, .cnt, .ram, .ramUndef, .mbx, .host, .err, .plans, .norm, .normSum, .taint, .tiers, .models, .spar, .out] s t := by
  refine Does.also (t := s) Does.refl (fun h0 => ?_)
  unfold execBoardRetrain at h
  obtain rfl := Host.Outcome.next.inj h
  clear h
  refine Does.ite ?_ ?_
  · assumption
  · refine Does.then boardLost_does rfl ?_
    assumption

end Sys2Proof.Laws
end

