-- ==== Sys2Proof/Laws/Streams.lean ====
section
/-! SUPPORT. Sys2Proof/Laws/Streams.lean: what each operation and meaning of Machine/Streams.lean can do, as `Does` says it: which blocks of
the state it may change, that it keeps the invariant, and that it lowers nothing that only rises. -/

namespace Sys2Proof.Laws

open Sys2Proof.Machine Sys2Proof.Safety

theorem adapterLoad_does {a0 a1} {s} :
    Does [.ram, .ramUndef, .taint, .tiers, .models] s (replySt (adapterLoad a0 a1 s)) := by
  refine Does.also (t := s) Does.refl (fun h0 => ?_)
  unfold adapterLoad
  extract_lets +onlyGivenNames y0
  extract_lets +onlyGivenNames y1
  extract_lets +onlyGivenNames y2
  extract_lets +onlyGivenNames y3
  extract_lets +onlyGivenNames y4
  extract_lets +onlyGivenNames y5
  extract_lets +onlyGivenNames y6
  refine checked_does ?_ ?_
  · assumption
  · clear_value y4 y5
    split
    · rename_i x9 x10 x11 x12
      extract_lets +onlyGivenNames y13
      refine Does.also (t := y13) ?_ (fun hy13 => ?_)
      · subst y13
        refine Does.then addObject_does rfl ?_
        assumption
      clear_value y13
      revert y13
      refine Does.intro ?_
      intro y13 hy13
      extract_lets +onlyGivenNames y14
      refine Does.done ?_
      refine Does.then writeDva_does rfl ?_
      refine Does.set_models rfl _ ?_
      assumption
    · rename_i x15 x16 x17
      refine Does.done ?_
      assumption

theorem execAdapterLoad_does {a0 a1} {s} {t} (h : (execAdapterLoad a0 a1 s) = .next t) :
    Does [.ram, .ramUndef, .mbx, .host, .taint, .tiers, .models, .spar, .out] s t := by
  refine Does.also (t := s) Does.refl (fun h0 => ?_)
  unfold execAdapterLoad at h
  obtain rfl := Host.Outcome.next.inj h
  clear h
  refine iarik_does rfl ?_ (fun c0 z1 hz2 => ?_)
  · assumption
  · refine Does.then adapterLoad_does rfl ?_
    assumption

theorem adapterDrop_does {a0} {s} :
    Does [.tiers, .models, .codec] s (replySt (adapterDrop a0 s)) := by
  refine Does.also (t := s) Does.refl (fun h0 => ?_)
  unfold adapterDrop
  extract_lets +onlyGivenNames y0
  extract_lets +onlyGivenNames y1
  refine checked_does ?_ ?_
  · assumption
  · refine Does.done ?_
    refine Does.then dropObject_does rfl ?_
    refine Does.set_models rfl _ ?_
    assumption

theorem execAdapterDrop_does {a0} {s} {t} (h : (execAdapterDrop a0 s) = .next t) :
    Does [.ram, .ramUndef, .mbx, .host, .taint, .tiers, .models, .codec, .spar, .out] s t := by
  refine Does.also (t := s) Does.refl (fun h0 => ?_)
  unfold execAdapterDrop at h
  obtain rfl := Host.Outcome.next.inj h
  clear h
  refine iarik_does rfl ?_ (fun c0 z1 hz2 => ?_)
  · assumption
  · refine Does.then adapterDrop_does rfl ?_
    assumption

theorem placeTensor_does {n s x} (h : placeTensor n s = some x) : Does [.tiers] s x.2 := by
  unfold placeTensor at h
  extract_lets m at h
  split at h
  · cases h; exact addObject_does.mono rfl
  · cases h; exact addObject_does.mono rfl
  · cases h

theorem placeTensors_does {n s x} (h : placeTensors n s = some x) : Does [.tiers] s x.2.2.2 := by
  unfold placeTensors at h
  rw [Option.bind_eq_some_iff] at h
  obtain ⟨a, ha, h⟩ := h
  rw [Option.bind_eq_some_iff] at h
  obtain ⟨b, hb, h⟩ := h
  rw [Option.map_eq_some_iff] at h
  obtain ⟨c, hc, rfl⟩ := h
  exact ((placeTensor_does ha).trans (placeTensor_does hb)).trans (placeTensor_does hc)

theorem tuneStart_does {a0 a1} {s} : Does [.ram, .ramUndef, .taint, .tiers, .models] s (replySt (tuneStart a0 a1 s)) := by
  unfold tuneStart
  extract_lets b i st ad blocks head slot room shared
  have hr : ∀ x, room = some x → Does [.ram, .ramUndef, .taint, .tiers, .models] s x.2.2.2 := fun x h => (placeTensors_does h).mono rfl
  clear_value room ad slot
  refine checked_does Does.refl ?_
  split
  · extract_lets +onlyGivenNames t s1
    have h0 := hr _ rfl
    have h1 : Does [.ram, .ramUndef, .taint, .tiers, .models] s s1 := Does.then writeDva_does rfl (Does.then writeDva_does rfl (Does.then writeDva_does rfl h0))
    clear_value s1
    exact Does.set_models rfl _ h1
  · exact Does.refl

theorem execTuneStart_does {a0 a1} {s} {t} (h : (execTuneStart a0 a1 s) = .next t) :
    Does [.ram, .ramUndef, .mbx, .host, .taint, .tiers, .models, .spar, .out] s t := by
  refine Does.also (t := s) Does.refl (fun h0 => ?_)
  unfold execTuneStart at h
  obtain rfl := Host.Outcome.next.inj h
  clear h
  refine iarik_does rfl ?_ (fun c0 z1 hz2 => ?_)
  · assumption
  · refine Does.then tuneStart_does rfl ?_
    assumption

theorem tuneStop_does {a0} {s} :
    Does [.fmtSticky, .cnt, .ram, .ramUndef, .mbx, .host, .taint, .tiers, .models, .codec, .spar, .out] s (replySt (tuneStop a0 s)) := by
  refine Does.also (t := s) Does.refl (fun h0 => ?_)
  unfold tuneStop
  extract_lets +onlyGivenNames y0
  extract_lets +onlyGivenNames y1
  extract_lets +onlyGivenNames y2
  extract_lets +onlyGivenNames y3
  refine Does.also (t := y3) ?_ (fun hy3 => ?_)
  · subst y3
    refine Does.then updTune_does rfl ?_
    assumption
  clear_value y3
  revert y3
  refine Does.intro ?_
  intro y3 hy3
  refine checked_does ?_ ?_
  · assumption
  · split
    · rename_i x4 x5 x6
      refine Does.running ?_
      refine Does.ite ?_ ?_
      · assumption
      · refine Does.then endTune_does rfl ?_
        assumption
    · rename_i x7 x8
      refine Does.running ?_
      refine Does.then endTune_does rfl ?_
      assumption

theorem execTuneStop_does {a0} {s} {t} (h : (execTuneStop a0 s) = .next t) :
    Does [.fmtSticky, .cnt, .ram, .ramUndef, .mbx, .host, .taint, .tiers, .models, .codec, .spar, .out] s t := by
  refine Does.also (t := s) Does.refl (fun h0 => ?_)
  unfold execTuneStop at h
  obtain rfl := Host.Outcome.next.inj h
  clear h
  refine iarik_does rfl ?_ (fun c0 z1 hz2 => ?_)
  · assumption
  · refine Does.then tuneStop_does rfl ?_
    assumption

theorem streamOpen_does {a0 a1} {s} :
    Does [.models] s (replySt (streamOpen a0 a1 s)) := by
  refine Does.also (t := s) Does.refl (fun h0 => ?_)
  unfold streamOpen
  extract_lets +onlyGivenNames y0
  extract_lets +onlyGivenNames y1
  extract_lets +onlyGivenNames y2
  extract_lets +onlyGivenNames y3
  extract_lets +onlyGivenNames y4
  extract_lets +onlyGivenNames y5
  extract_lets +onlyGivenNames y6
  extract_lets +onlyGivenNames y7
  extract_lets +onlyGivenNames y8
  extract_lets +onlyGivenNames y9
  extract_lets +onlyGivenNames y10
  extract_lets +onlyGivenNames y11
  extract_lets +onlyGivenNames y12
  extract_lets +onlyGivenNames y13
  refine checked_does ?_ ?_
  · assumption
  · clear_value y11
    split
    · rename_i x14
      refine Does.done ?_
      assumption
    · rename_i x15 x16
      refine Does.done ?_
      refine Does.set_models rfl _ ?_
      assumption

theorem execStreamOpen_does {a0 a1} {s} {t} (h : (execStreamOpen a0 a1 s) = .next t) :
    Does [.ram, .ramUndef, .mbx, .host, .taint, .tiers, .models, .spar, .out] s t := by
  refine Does.also (t := s) Does.refl (fun h0 => ?_)
  unfold execStreamOpen at h
  obtain rfl := Host.Outcome.next.inj h
  clear h
  refine iarik_does rfl ?_ (fun c0 z1 hz2 => ?_)
  · assumption
  · refine Does.then streamOpen_does rfl ?_
    assumption

theorem streamClose_does {a0} {s} :
    Does [.fmtSticky, .cnt, .ram, .ramUndef, .mbx, .host, .taint, .tiers, .models, .codec, .spar, .out] s (replySt (streamClose a0 s)) := by
  refine Does.also (t := s) Does.refl (fun h0 => ?_)
  unfold streamClose
  extract_lets +onlyGivenNames y0
  extract_lets +onlyGivenNames y1
  refine Does.also (t := y1) ?_ (fun hy1 => ?_)
  · subst y1
    refine Does.then updStream_does rfl ?_
    assumption
  clear_value y1
  revert y1
  refine Does.intro ?_
  intro y1 hy1
  refine checked_does ?_ ?_
  · assumption
  · split
    · rename_i x2 x3 x4
      refine Does.running ?_
      refine Does.ite ?_ ?_
      · assumption
      · refine Does.then closeStream_does rfl ?_
        assumption
    · rename_i x5 x6
      refine Does.done ?_
      assumption

theorem execStreamClose_does {a0} {s} {t} (h : (execStreamClose a0 s) = .next t) :
    Does [.fmtSticky, .cnt, .ram, .ramUndef, .mbx, .host, .taint, .tiers, .models, .codec, .spar, .out] s t := by
  refine Does.also (t := s) Does.refl (fun h0 => ?_)
  unfold execStreamClose at h
  obtain rfl := Host.Outcome.next.inj h
  clear h
  refine iarik_does rfl ?_ (fun c0 z1 hz2 => ?_)
  · assumption
  · refine Does.then streamClose_does rfl ?_
    assumption

theorem streamSubmit_does {a0 a1} {s} :
    Does [.models] s (replySt (streamSubmit a0 a1 s)) := by
  refine Does.also (t := s) Does.refl (fun h0 => ?_)
  unfold streamSubmit
  extract_lets +onlyGivenNames y0
  extract_lets +onlyGivenNames y1
  extract_lets +onlyGivenNames y2
  refine checked_does ?_ ?_
  · assumption
  · refine Does.running ?_
    refine Does.then updStream_does rfl ?_
    assumption

theorem execStreamSubmit_does {a0 a1} {s} {t} (h : (execStreamSubmit a0 a1 s) = .next t) :
    Does [.ram, .ramUndef, .mbx, .host, .taint, .tiers, .models, .spar, .out] s t := by
  refine Does.also (t := s) Does.refl (fun h0 => ?_)
  unfold execStreamSubmit at h
  obtain rfl := Host.Outcome.next.inj h
  clear h
  refine iarik_does rfl ?_ (fun c0 z1 hz2 => ?_)
  · assumption
  · refine Does.then streamSubmit_does rfl ?_
    assumption

theorem execSubmitPayloadPlaced_does {a0 a1} {s} {t} (h : (execSubmitPayloadPlaced a0 a1 s) = .next t) :
    Does [.tbu, .models] s t := by
  refine Does.also (t := s) Does.refl (fun h0 => ?_)
  unfold execSubmitPayloadPlaced at h
  obtain rfl := Host.Outcome.next.inj h
  clear h
  extract_lets +onlyGivenNames y0
  refine Does.also (t := y0) ?_ (fun hy0 => ?_)
  · subst y0
    refine Does.then reachTime_does rfl ?_
    assumption
  clear_value y0
  revert y0
  refine Does.intro ?_
  intro y0 hy0
  refine Does.then updStream_does rfl ?_
  assumption

end Sys2Proof.Laws
end

