-- ==== Sys2Proof/Laws/Spar.lean ====
section
/-! SUPPORT. Sys2Proof/Laws/Spar.lean: what each operation and meaning of Machine/Spar.lean can do, as `Does` says it: which blocks of
the state it may change, that it keeps the invariant, and that it lowers nothing that only rises. -/

namespace Sys2Proof.Laws

open Sys2Proof.Machine Sys2Proof.Safety

theorem badFlit_does {a0 a1} {s} :
    Does [.cnt, .spar, .out] s (badFlit a0 a1 s) := by
  refine Does.also (t := s) Does.refl (fun h0 => ?_)
  unfold badFlit
  extract_lets +onlyGivenNames y0
  extract_lets +onlyGivenNames y1
  refine Does.also (t := y1) ?_ (fun hy1 => ?_)
  · subst y1
    refine Does.ite ?_ ?_
    · refine Does.then count_does rfl ?_
      assumption
    · assumption
  clear_value y1
  revert y1
  refine Does.intro ?_
  intro y1 hy1
  extract_lets +onlyGivenNames y2
  refine Does.also (t := y2) ?_ (fun hy2 => ?_)
  · subst y2
    refine Does.ite ?_ ?_
    · refine Does.then count_does rfl ?_
      assumption
    · assumption
  clear_value y2
  revert y2
  refine Does.intro ?_
  intro y2 hy2
  extract_lets +onlyGivenNames y3
  refine Does.also (t := y3) ?_ (fun hy3 => ?_)
  · subst y3
    refine Does.ite ?_ ?_
    · refine Does.then count_does rfl ?_
      assumption
    · assumption
  clear_value y3
  revert y3
  refine Does.intro ?_
  intro y3 hy3
  refine Does.ite ?_ ?_
  · assumption
  · refine Does.then portSend_does rfl ?_
    refine Does.then updPort_does rfl ?_
    assumption

theorem takeFlit_does {l} {s t} {p typ f k} (hl : sub [.cnt, .spar, .out] l = true) (h : Does l s t)
    (hk : ∀ y, Does l s y → Does l s (k y)) : Does l s (takeFlit p typ f k t) := by
  unfold takeFlit
  extract_lets x s1
  have h1 : Does l s s1 := Does.ite (Does.thenVia (n := [.cnt, .spar, .out]) count_does rfl hl h) h
  clear_value s1
  refine Does.ite h (Does.ite (Does.thenVia badFlit_does rfl hl h) (Does.ite h1 (hk _ ?_)))
  exact Does.thenVia (n := [.cnt, .spar, .out]) flushWaiting_does rfl hl (Does.thenVia (n := [.cnt, .spar, .out]) updPort_does rfl hl h1)

theorem execBadFlit_does {a0 a1} {s} {t} (h : (execBadFlit a0 a1 s) = .next t) :
    Does [.cnt, .spar, .out] s t := by
  refine Does.also (t := s) Does.refl (fun h0 => ?_)
  unfold execBadFlit at h
  obtain rfl := Host.Outcome.next.inj h
  clear h
  refine Does.ite ?_ ?_
  · assumption
  · refine Does.then badFlit_does rfl ?_
    assumption

theorem execAckFlit_does {a0 a1} {s} {t} (h : (execAckFlit a0 a1 s) = .next t) :
    Does [.cnt, .spar, .out] s t := by
  refine Does.also (t := s) Does.refl (fun h0 => ?_)
  unfold execAckFlit at h
  obtain rfl := Host.Outcome.next.inj h
  clear h
  refine takeFlit_does rfl ?_ (fun z0 hz1 => ?_)
  · assumption
  · assumption

theorem replay_does {a0} {s} :
    Does [.cnt, .spar, .out] s (replay a0 s) := by
  refine Does.also (t := s) Does.refl (fun h0 => ?_)
  unfold replay
  extract_lets +onlyGivenNames y0
  extract_lets +onlyGivenNames y1
  refine Does.also (t := y1) ?_ (fun hy1 => ?_)
  · subst y1
    refine forEach_does ?_ (fun a2 z3 hz4 => ?_)
    · refine Does.then count_does rfl ?_
      assumption
    · refine Does.then emit_does rfl ?_
      assumption
  clear_value y1
  revert y1
  refine Does.intro ?_
  intro y1 hy1
  split
  · rename_i x5 x6
    assumption
  · rename_i x7 x8 x9 x10
    refine Does.then updPort_does rfl ?_
    assumption

theorem execNakFlit_does {a0 a1} {s} {t} (h : (execNakFlit a0 a1 s) = .next t) :
    Does [.cnt, .spar, .out] s t := by
  refine Does.also (t := s) Does.refl (fun h0 => ?_)
  unfold execNakFlit at h
  obtain rfl := Host.Outcome.next.inj h
  clear h
  refine takeFlit_does rfl ?_ (fun z0 hz1 => ?_)
  · assumption
  · refine Does.then replay_does rfl ?_
    assumption

theorem takeDown_does {a0} {s} :
    Does [.cnt, .spar, .maint, .out] s (takeDown a0 s) := by
  refine Does.also (t := s) Does.refl (fun h0 => ?_)
  unfold takeDown
  extract_lets +onlyGivenNames y0
  extract_lets +onlyGivenNames y1
  extract_lets +onlyGivenNames y2
  refine Does.also (t := y2) ?_ (fun hy2 => ?_)
  · subst y2
    refine Does.then updPort_does rfl ?_
    assumption
  clear_value y2
  revert y2
  refine Does.intro ?_
  intro y2 hy2
  extract_lets +onlyGivenNames y3
  extract_lets +onlyGivenNames y4
  refine Does.also (t := y4) ?_ (fun hy4 => ?_)
  · subst y4
    refine Does.set_spar rfl _ ?_
    assumption
  clear_value y4
  revert y4
  refine Does.intro ?_
  intro y4 hy4
  refine Does.then flushWaiting_does rfl ?_
  refine Does.then deviceJob_does rfl ?_
  refine Does.then count_does rfl ?_
  refine Does.then count_does rfl ?_
  assumption

theorem execPortDown_does {a0 a1} {s} {t} (h : (execPortDown a0 a1 s) = .next t) :
    Does [.cnt, .spar, .maint, .out] s t := by
  refine Does.also (t := s) Does.refl (fun h0 => ?_)
  unfold execPortDown at h
  obtain rfl := Host.Outcome.next.inj h
  clear h
  extract_lets +onlyGivenNames y0
  refine Does.ite ?_ ?_
  · assumption
  · split
    · rename_i x1 x2
      refine Does.then takeDown_does rfl ?_
      refine Does.then count_does rfl ?_
      refine Does.then updPort_does rfl ?_
      assumption
    · rename_i x3
      refine Does.ite ?_ ?_
      · refine Does.then takeDown_does rfl ?_
        assumption
      · assumption

theorem failPort_does {a0 a1} {s} :
    Does [.cnt, .host, .err, .spar, .maint, .out] s (failPort a0 a1 s) := by
  refine Does.also (t := s) Does.refl (fun h0 => ?_)
  unfold failPort
  extract_lets +onlyGivenNames y0
  refine Does.then record_does rfl ?_
  refine Does.then endJob_does rfl ?_
  refine Does.then updPort_does rfl ?_
  assumption

theorem trainFailed_does {a0} {s} :
    Does [.cnt, .host, .err, .spar, .maint, .out] s (trainFailed a0 s) := by
  refine Does.also (t := s) Does.refl (fun h0 => ?_)
  unfold trainFailed
  extract_lets +onlyGivenNames y0
  refine Does.ite ?_ ?_
  · refine Does.then count_does rfl ?_
    refine Does.then updPort_does rfl ?_
    assumption
  · refine Does.then failPort_does rfl ?_
    assumption

theorem execRetrainComplete_does {a0 a1 a2} {s} {t} (h : (execRetrainComplete a0 a1 a2 s) = .next t) :
    Does [.cnt, .host, .err, .spar, .maint, .out] s t := by
  refine Does.also (t := s) Does.refl (fun h0 => ?_)
  unfold execRetrainComplete at h
  obtain rfl := Host.Outcome.next.inj h
  clear h
  extract_lets +onlyGivenNames y0
  refine Does.also (t := y0) ?_ (fun hy0 => ?_)
  · subst y0
    refine Does.then updPort_does rfl ?_
    assumption
  clear_value y0
  revert y0
  refine Does.intro ?_
  intro y0 hy0
  refine Does.ite ?_ ?_
  · assumption
  · refine Does.ite ?_ ?_
    · refine Does.then flushWaiting_does rfl ?_
      refine Does.then endJob_does rfl ?_
      assumption
    · refine Does.then trainFailed_does rfl ?_
      assumption

theorem trainPorts_does {a0} {s} :
    Does [.spar] s (trainPorts a0 s) := by
  refine Does.also (t := s) Does.refl (fun h0 => ?_)
  unfold trainPorts
  refine forUpto_does ?_ (fun a0 z1 hz2 => ?_)
  · assumption
  · refine Does.ite ?_ ?_
    · refine Does.then updPort_does rfl ?_
      assumption
    · assumption

theorem execRouteTableApply_does {a0 a1} {s} {t} (h : (execRouteTableApply a0 a1 s) = .next t) :
    Does [.cnt, .spar, .out] s t := by
  refine Does.also (t := s) Does.refl (fun h0 => ?_)
  unfold execRouteTableApply at h
  obtain rfl := Host.Outcome.next.inj h
  clear h
  extract_lets +onlyGivenNames y0
  extract_lets +onlyGivenNames y1
  refine Does.ite ?_ ?_
  · assumption
  · refine Does.then flushWaiting_does rfl ?_
    refine Does.then count_does rfl ?_
    refine Does.set_spar rfl _ ?_
    assumption

theorem takeContrib_does {a0 a1 a2 a3 a4} {s} :
    Does [.fmtSticky, .cnt, .ram, .ramUndef, .mbx, .host, .err, .slate, .plans, .arrs, .exclStored, .norm, .normSum, .taint, .tiers, .models, .codec, .spar, .out, .free] s (takeContrib a0 a1 a2 a3 a4 s) := by
  refine Does.also (t := s) Does.refl (fun h0 => ?_)
  unfold takeContrib
  extract_lets +onlyGivenNames y0
  extract_lets +onlyGivenNames y1
  refine Does.also (t := y1) ?_ (fun hy1 => ?_)
  · subst y1
    refine Does.set_spar rfl _ ?_
    assumption
  clear_value y1
  revert y1
  refine Does.intro ?_
  intro y1 hy1
  refine Does.ite ?_ ?_
  · refine Does.then collMismatch_does rfl ?_
    assumption
  · assumption

theorem takeStat_does {a0 a1 a2} {s} :
    Does [.spar] s (takeStat a0 a1 a2 s) := by
  refine Does.also (t := s) Does.refl (fun h0 => ?_)
  unfold takeStat
  extract_lets +onlyGivenNames y0
  refine Does.set_spar rfl _ ?_
  assumption

theorem deliverData_does {a0 a1 a2 a3 a4} {s} :
    Does [.fmtSticky, .cnt, .ram, .ramUndef, .mbx, .host, .err, .slate, .plans, .arrs, .exclStored, .norm, .normSum, .taint, .tiers, .models, .codec, .spar, .out, .free] s (deliverData a0 a1 a2 a3 a4 s) := by
  refine Does.also (t := s) Does.refl (fun h0 => ?_)
  unfold deliverData
  split
  · rename_i x0 x1
    refine Does.then putMarks_does rfl ?_
    assumption
  · rename_i x2 x3
    refine Does.then takeContrib_does rfl ?_
    assumption
  · rename_i x4 x5
    split
    · rename_i x6 x7 x8
      refine Does.then writeDva_does rfl ?_
      assumption
    · rename_i x9 x10
      assumption
  · rename_i x11 x12
    refine Does.then takeStat_does rfl ?_
    assumption
  · rename_i x13 x14
    refine forUpto_does ?_ (fun a15 z16 hz17 => ?_)
    · assumption
    · refine Does.then appendRow_does rfl ?_
      assumption
  · rename_i x18 x19
    split
    · rename_i x20 x21 x22
      refine Does.then sendMsg_does rfl ?_
      assumption
    · rename_i x23 x24
      assumption
  · rename_i x25 x26
    refine Does.ite ?_ ?_
    · refine Does.ofSnd ?_
      refine Does.foldl2 (fun z27 a28 hz29 => ?_) ?_
      · refine Does.snd ?_
        refine Does.then ramPut_does rfl ?_
        assumption
      · refine Does.snd ?_
        assumption
    · assumption
  · rename_i x30 x31 x32 x33 x34 x35 x36 x37
    assumption

theorem deliverMsg_does {a0 a1} {s} :
    Does [.fmtSticky, .cnt, .ram, .ramUndef, .mbx, .host, .err, .slate, .plans, .arrs, .exclStored, .norm, .normSum, .taint, .tiers, .models, .codec, .spar, .out, .free] s (deliverMsg a0 a1 s) := by
  refine Does.also (t := s) Does.refl (fun h0 => ?_)
  unfold deliverMsg
  extract_lets +onlyGivenNames y0
  refine Does.then deliverData_does rfl ?_
  assumption

theorem deliverEarly_does {src : Nat} : ∀ {n : Nat} {s}, Does [.fmtSticky, .cnt, .ram, .ramUndef, .mbx, .host, .err, .slate, .plans, .arrs, .exclStored, .norm, .normSum, .taint, .tiers, .models, .codec, .spar, .out, .free] s (deliverEarly src n s)
  | 0, _ => Does.refl
  | n + 1, s => by
    unfold deliverEarly
    extract_lets want
    split
    · exact Does.refl
    · exact Does.trans (Does.trans (Does.set_spar rfl _ Does.refl) (deliverMsg_does.mono rfl)) deliverEarly_does

theorem messageIn_does {a0 a1 a2} {s} :
    Does [.fmtSticky, .cnt, .ram, .ramUndef, .mbx, .host, .err, .slate, .plans, .arrs, .exclStored, .norm, .normSum, .taint, .tiers, .models, .codec, .spar, .out, .free] s (messageIn a0 a1 a2 s) := by
  refine Does.also (t := s) Does.refl (fun h0 => ?_)
  unfold messageIn
  extract_lets +onlyGivenNames y0
  extract_lets +onlyGivenNames y1
  extract_lets +onlyGivenNames y2
  refine Does.ite ?_ ?_
  · refine Does.then count_does rfl ?_
    assumption
  · refine Does.ite ?_ ?_
    · refine Does.then deliverEarly_does rfl ?_
      refine Does.then deliverMsg_does rfl ?_
      refine Does.set_spar rfl _ ?_
      assumption
    · refine Does.set_spar rfl _ ?_
      assumption

theorem passOn_does {a0 a1} {s} :
    Does [.spar, .out] s (passOn a0 a1 s) := by
  refine Does.also (t := s) Does.refl (fun h0 => ?_)
  unfold passOn
  refine Does.then routeFlit_does rfl ?_
  assumption

theorem execDataFlit_does {a0 a1} {s} {t} (h : (execDataFlit a0 a1 s) = .next t) :
    Does [.fmtSticky, .cnt, .ram, .ramUndef, .mbx, .host, .err, .slate, .plans, .arrs, .exclStored, .norm, .normSum, .taint, .tiers, .models, .codec, .spar, .out, .free] s t := by
  refine Does.also (t := s) Does.refl (fun h0 => ?_)
  unfold execDataFlit at h
  obtain rfl := Host.Outcome.next.inj h
  clear h
  extract_lets +onlyGivenNames y0
  extract_lets +onlyGivenNames y1
  refine takeFlit_does rfl ?_ (fun z3 hz4 => ?_)
  · assumption
  · extract_lets +onlyGivenNames y5
    extract_lets +onlyGivenNames y6
    refine Does.ite ?_ ?_
    · refine Does.then passOn_does rfl ?_
      assumption
    · refine Does.ite ?_ ?_
      · refine Does.then messageIn_does rfl ?_
        refine Does.set_spar rfl _ ?_
        assumption
      · refine Does.set_spar rfl _ ?_
        assumption

theorem updRx_does {a0 a1} {s} :
    Does [.codec] s (updRx a0 a1 s) := by
  refine Does.also (t := s) Does.refl (fun h0 => ?_)
  unfold updRx
  extract_lets +onlyGivenNames y0
  refine Does.set_codec rfl _ ?_
  assumption

theorem takeRaw_does {a0 a1 a2 a3} {s} :
    Does [.fmtSticky, .cnt, .ram, .ramUndef, .mbx, .host, .err, .slate, .plans, .arrs, .exclStored, .norm, .normSum, .taint, .tiers, .models, .codec, .spar, .out, .free] s (takeRaw a0 a1 a2 a3 s) := by
  refine Does.also (t := s) Does.refl (fun h0 => ?_)
  unfold takeRaw
  extract_lets +onlyGivenNames y0
  extract_lets +onlyGivenNames y1
  extract_lets +onlyGivenNames y2
  refine Does.ite ?_ ?_
  · refine Does.then deliverData_does rfl ?_
    refine Does.then updRx_does rfl ?_
    assumption
  · refine Does.then updRx_does rfl ?_
    assumption

theorem abortRetrain_does {a0} {s} :
    Does [.cnt, .host, .err, .spar, .maint, .out] s (abortRetrain a0 s) := by
  refine Does.also (t := s) Does.refl (fun h0 => ?_)
  unfold abortRetrain
  refine Does.ite ?_ ?_
  · refine Does.then count_does rfl ?_
    refine Does.then failPort_does rfl ?_
    assumption
  · assumption

theorem blockLost_does {a0 a1 a2} {s} :
    Does [.fmtSticky, .cnt, .ram, .ramUndef, .mbx, .host, .err, .slate, .plans, .arrs, .exclStored, .norm, .normSum, .taint, .tiers, .models, .codec, .spar, .maint, .out, .free] s (blockLost a0 a1 a2 s) := by
  refine Does.also (t := s) Does.refl (fun h0 => ?_)
  unfold blockLost
  extract_lets +onlyGivenNames y0
  refine Does.also (t := y0) ?_ (fun hy0 => ?_)
  · subst y0
    refine Does.then abortRetrain_does rfl ?_
    refine Does.then record_does rfl ?_
    refine Does.then count_does rfl ?_
    assumption
  clear_value y0
  revert y0
  refine Does.intro ?_
  intro y0 hy0
  refine Does.ite ?_ ?_
  · refine Does.then sendTo_does rfl ?_
    refine Does.then updRx_does rfl ?_
    assumption
  · refine Does.then takeRaw_does rfl ?_
    assumption

theorem execCodecBlockReceived_does {a0 a1} {s} {t} (h : (execCodecBlockReceived a0 a1 s) = .next t) :
    Does [.fmtSticky, .cnt, .ram, .ramUndef, .mbx, .host, .err, .slate, .plans, .arrs, .exclStored, .norm, .normSum, .taint, .tiers, .models, .codec, .spar, .maint, .out, .free] s t := by
  refine Does.also (t := s) Does.refl (fun h0 => ?_)
  unfold execCodecBlockReceived at h
  obtain rfl := Host.Outcome.next.inj h
  clear h
  extract_lets +onlyGivenNames y0
  extract_lets +onlyGivenNames y1
  refine Does.ite ?_ ?_
  · assumption
  · split
    · rename_i x4 x5
      refine Does.ite ?_ ?_
      · refine Does.then sendTo_does rfl ?_
        refine Does.then updRx_does rfl ?_
        assumption
      · refine Does.then blockLost_does rfl ?_
        assumption
    · rename_i x6 x7 x8
      refine Does.ite ?_ ?_
      · refine Does.then count_does rfl ?_
        refine Does.then updRx_does rfl ?_
        assumption
      · refine Does.then takeRaw_does rfl ?_
        assumption

theorem haltGroup_does {s} :
    Does [.fmtSticky, .cnt, .ram, .ramUndef, .mbx, .host, .slate, .plans, .arrs, .exclStored, .norm, .normSum, .taint, .tiers, .models, .codec, .spar, .out, .free] s (haltGroup s) := by
  refine Does.also (t := s) Does.refl (fun h0 => ?_)
  unfold haltGroup
  refine forEach_does ?_ (fun a0 z1 hz2 => ?_)
  · assumption
  · refine Does.then haltPlan_does rfl ?_
    assumption

theorem execCtrlFlit_does {a0 a1 a2} {s} {t} (h : (execCtrlFlit a0 a1 a2 s) = .next t) :
    Does [.fmtSticky, .cnt, .ram, .ramUndef, .mbx, .host, .err, .slate, .plans, .arrs, .exclStored, .norm, .normSum, .taint, .tiers, .models, .codec, .spar, .out, .free] s t := by
  refine Does.also (t := s) Does.refl (fun h0 => ?_)
  unfold execCtrlFlit at h
  obtain rfl := Host.Outcome.next.inj h
  clear h
  extract_lets +onlyGivenNames y0
  refine takeFlit_does rfl ?_ (fun z2 hz3 => ?_)
  · assumption
  · extract_lets +onlyGivenNames y4
    extract_lets +onlyGivenNames y5
    refine Does.ite ?_ ?_
    · refine Does.then passOn_does rfl ?_
      assumption
    · split
      · rename_i x6 x7
        split
        · rename_i x8 x9 x10
          refine Does.then sendMsg_does rfl ?_
          refine Does.then count_does rfl ?_
          assumption
        · rename_i x11 x12
          assumption
      · rename_i x13 x14
        refine Does.set_codec rfl _ ?_
        assumption
      · rename_i x15
        refine Does.then haltGroup_does rfl ?_
        assumption
      · rename_i x16 x17
        refine Does.then noteMismatch_does rfl ?_
        assumption
      · rename_i x18 x19 x20
        refine Does.then addLend_does rfl ?_
        assumption
      · rename_i x21
        assumption

theorem takeSync_does {a0} {s} :
    Does [.cnt, .plans, .spar] s (takeSync a0 s) := by
  refine Does.also (t := s) Does.refl (fun h0 => ?_)
  unfold takeSync
  extract_lets +onlyGivenNames y0
  split
  · rename_i x2 x3
    assumption
  · rename_i x4 x5 x6 x7
    refine Does.ite ?_ ?_
    · refine Does.then applySync_does rfl ?_
      assumption
    · split
      · rename_i x10 x11
        dsimp only [y0]
        refine Does.set_spar rfl _ ?_
        assumption
      · rename_i x12 x13 x14
        extract_lets +onlyGivenNames y15
        refine Does.ite ?_ ?_
        · refine Does.then applySync_does rfl ?_
          assumption
        · refine Does.ite ?_ ?_
          · dsimp only [y0]
            refine Does.set_spar rfl _ ?_
            assumption
          · refine Does.then count_does rfl ?_
            assumption

theorem execSyncFlit_does {a0 a1 a2} {s} {t} (h : (execSyncFlit a0 a1 a2 s) = .next t) :
    Does [.cnt, .plans, .spar, .out] s t := by
  refine Does.also (t := s) Does.refl (fun h0 => ?_)
  unfold execSyncFlit at h
  obtain rfl := Host.Outcome.next.inj h
  clear h
  refine takeFlit_does rfl ?_ (fun z0 hz1 => ?_)
  · assumption
  · refine Does.ite ?_ ?_
    · refine Does.then passOn_does rfl ?_
      assumption
    · refine Does.then takeSync_does rfl ?_
      assumption

theorem passTime_does {a0 a1} {s} :
    Does [.spar, .out] s (passTime a0 a1 s) := by
  refine Does.also (t := s) Does.refl (fun h0 => ?_)
  unfold passTime
  extract_lets +onlyGivenNames y0
  refine forEach_does ?_ (fun a1 z2 hz3 => ?_)
  · assumption
  · refine Does.then portSend_does rfl ?_
    assumption

theorem execTimeFlit_does {a0 a1 a2 a3} {s} {t} (h : (execTimeFlit a0 a1 a2 a3 s) = .next t) :
    Does [.ready, .cnt, .tbu, .spar, .out] s t := by
  refine Does.also (t := s) Does.refl (fun h0 => ?_)
  unfold execTimeFlit at h
  obtain rfl := Host.Outcome.next.inj h
  clear h
  refine takeFlit_does rfl ?_ (fun z1 hz2 => ?_)
  · assumption
  · extract_lets +onlyGivenNames y3
    refine Does.also (t := y3) ?_ (fun hy3 => ?_)
    · subst y3
      refine Does.then correctTo_does rfl ?_
      assumption
    clear_value y3
    revert y3
    refine Does.intro ?_
    intro y3 hy3
    extract_lets +onlyGivenNames y4
    extract_lets +onlyGivenNames y5
    refine Does.also (t := y5) ?_ (fun hy5 => ?_)
    · subst y5
      refine Does.then timeSetReady_does rfl ?_
      refine Does.set_tbu rfl _ ?_
      assumption
    clear_value y5
    revert y5
    refine Does.intro ?_
    intro y5 hy5
    extract_lets +onlyGivenNames y6
    extract_lets +onlyGivenNames y7
    refine Does.also (t := y7) ?_ (fun hy7 => ?_)
    · subst y7
      refine Does.then passTime_does rfl ?_
      refine Does.set_spar rfl _ ?_
      assumption
    clear_value y7
    revert y7
    refine Does.intro ?_
    intro y7 hy7
    extract_lets +onlyGivenNames y8
    refine Does.ite ?_ ?_
    · assumption
    · refine Does.ite ?_ ?_
      · refine Does.then sendTo_does rfl ?_
        refine Does.set_spar rfl _ ?_
        assumption
      · assumption

theorem execTimeFlitSend_does {s} {t} (h : (execTimeFlitSend s) = .next t) :
    Does [.spar, .out] s t := by
  refine Does.also (t := s) Does.refl (fun h0 => ?_)
  unfold execTimeFlitSend at h
  obtain rfl := Host.Outcome.next.inj h
  clear h
  refine Does.ite ?_ ?_
  · refine forEach_does ?_ (fun a0 z1 hz2 => ?_)
    · assumption
    · refine Does.then portSend_does rfl ?_
      assumption
  · assumption

theorem execStatusFlit_does {a0 a1 a2 a3} {s} {t} (h : (execStatusFlit a0 a1 a2 a3 s) = .next t) :
    Does [.cnt, .tbu, .spar, .out] s t := by
  refine Does.also (t := s) Does.refl (fun h0 => ?_)
  unfold execStatusFlit at h
  obtain rfl := Host.Outcome.next.inj h
  clear h
  refine takeFlit_does rfl ?_ (fun z1 hz2 => ?_)
  · assumption
  · extract_lets +onlyGivenNames y3
    refine Does.also (t := y3) ?_ (fun hy3 => ?_)
    · subst y3
      refine Does.then reachTime_does rfl ?_
      assumption
    clear_value y3
    revert y3
    refine Does.intro ?_
    intro y3 hy3
    extract_lets +onlyGivenNames y4
    extract_lets +onlyGivenNames y5
    refine Does.ite ?_ ?_
    · refine Does.then passOn_does rfl ?_
      assumption
    · refine Does.ite ?_ ?_
      · assumption
      · refine Does.set_spar rfl _ ?_
        assumption

theorem execStatusFlitSend_does {s} {t} (h : (execStatusFlitSend s) = .next t) :
    Does [.spar, .out] s t := by
  refine Does.also (t := s) Does.refl (fun h0 => ?_)
  unfold execStatusFlitSend at h
  obtain rfl := Host.Outcome.next.inj h
  clear h
  refine Does.ite ?_ ?_
  · refine Does.then sendTo_does rfl ?_
    assumption
  · assumption

theorem leaveGroup_does {s} :
    Does [.fmtSticky, .cnt, .ram, .ramUndef, .mbx, .host, .tbu, .err, .slate, .plans, .arrs, .exclStored, .norm, .normSum, .taint, .tiers, .models, .codec, .spar, .out, .free] s (leaveGroup s) := by
  refine Does.also (t := s) Does.refl (fun h0 => ?_)
  unfold leaveGroup
  extract_lets +onlyGivenNames y0
  refine Does.also (t := y0) ?_ (fun hy0 => ?_)
  · subst y0
    refine forEach_does ?_ (fun a1 z2 hz3 => ?_)
    · assumption
    · refine Does.then freePlan_does rfl ?_
      refine Does.then haltPlan_does rfl ?_
      assumption
  clear_value y0
  revert y0
  refine Does.intro ?_
  intro y0 hy0
  extract_lets +onlyGivenNames y4
  refine Does.also (t := y4) ?_ (fun hy4 => ?_)
  · subst y4
    refine forEach_does ?_ (fun a5 z6 hz7 => ?_)
    · assumption
    · refine Does.ite ?_ ?_
      · refine Does.then abandonLend_does rfl ?_
        assumption
      · refine Does.ite ?_ ?_
        · refine Does.then endReclaim_does rfl ?_
          assumption
        · refine Does.then giveBack_does rfl ?_
          assumption
  clear_value y4
  revert y4
  refine Does.intro ?_
  intro y4 hy4
  extract_lets +onlyGivenNames y8
  extract_lets +onlyGivenNames y9
  extract_lets +onlyGivenNames y10
  extract_lets +onlyGivenNames y11
  refine Does.set_tbu_err_codec_spar rfl _ _ _ _ ?_ ?_
  · exact fun h => h
  assumption

theorem enterGroup_does {a0 a1 a2 a3 a4 a5 a6 a7} {s} :
    Does [.fmtSticky, .cnt, .ram, .ramUndef, .mbx, .host, .tbu, .err, .slate, .plans, .arrs, .exclStored, .norm, .normSum, .taint, .tiers, .models, .codec, .spar, .out, .free] s (enterGroup a0 a1 a2 a3 a4 a5 a6 a7 s) := by
  refine Does.also (t := s) Does.refl (fun h0 => ?_)
  unfold enterGroup
  extract_lets +onlyGivenNames y0
  refine Does.also (t := y0) ?_ (fun hy0 => ?_)
  · subst y0
    refine Does.then leaveGroup_does rfl ?_
    assumption
  clear_value y0
  revert y0
  refine Does.intro ?_
  intro y0 hy0
  extract_lets +onlyGivenNames y1
  refine Does.set_spar rfl _ ?_
  assumption

theorem flood_does {a0 a1 a2} {s} :
    Does [.spar, .out] s (flood a0 a1 a2 s) := by
  refine Does.also (t := s) Does.refl (fun h0 => ?_)
  unfold flood
  refine forEach_does ?_ (fun a0 z1 hz2 => ?_)
  · assumption
  · refine Does.then portSend_does rfl ?_
    assumption

theorem execJoinRequest_does {a0 a1 a2} {s} {t} (h : (execJoinRequest a0 a1 a2 s) = .next t) :
    Does [.spar, .out] s t := by
  refine Does.also (t := s) Does.refl (fun h0 => ?_)
  unfold execJoinRequest at h
  obtain rfl := Host.Outcome.next.inj h
  clear h
  extract_lets +onlyGivenNames y0
  refine Does.ite ?_ ?_
  · assumption
  · refine Does.then flood_does rfl ?_
    refine Does.ite ?_ ?_
    · assumption
    · refine Does.then trainPorts_does rfl ?_
      assumption

theorem execJoinConfirm_does {a0 a1 a2 a3 a4 a5} {s} {t} (h : (execJoinConfirm a0 a1 a2 a3 a4 a5 s) = .next t) :
    Does [.fmtSticky, .cnt, .ram, .ramUndef, .mbx, .host, .tbu, .err, .slate, .plans, .arrs, .exclStored, .norm, .normSum, .taint, .tiers, .models, .codec, .spar, .out, .free] s t := by
  refine Does.also (t := s) Does.refl (fun h0 => ?_)
  unfold execJoinConfirm at h
  obtain rfl := Host.Outcome.next.inj h
  clear h
  refine Does.ite ?_ ?_
  · assumption
  · refine Does.then enterGroup_does rfl ?_
    assumption

theorem groupForm_does {a0 a1} {s} :
    Does [.spar, .out] s (replySt (groupForm a0 a1 s)) := by
  refine Does.also (t := s) Does.refl (fun h0 => ?_)
  unfold groupForm
  extract_lets +onlyGivenNames y0
  extract_lets +onlyGivenNames y1
  extract_lets +onlyGivenNames y2
  extract_lets +onlyGivenNames y3
  extract_lets +onlyGivenNames y4
  extract_lets +onlyGivenNames y5
  extract_lets +onlyGivenNames y6
  refine checked_does ?_ ?_
  · assumption
  · split
    · rename_i x9 x10
      refine Does.done ?_
      assumption
    · rename_i x11 x12 x13
      extract_lets +onlyGivenNames y14
      extract_lets +onlyGivenNames y15
      refine Does.also (t := y15) ?_ (fun hy15 => ?_)
      · subst y15
        refine Does.then trainPorts_does rfl ?_
        refine Does.set_spar rfl _ ?_
        assumption
      clear_value y15
      revert y15
      refine Does.intro ?_
      intro y15 hy15
      refine Does.running ?_
      refine forEach_does ?_ (fun a16 z17 hz18 => ?_)
      · assumption
      · refine Does.then flood_does rfl ?_
        assumption

theorem execGroupForm_does {a0 a1} {s} {t} (h : (execGroupForm a0 a1 s) = .next t) :
    Does [.ram, .ramUndef, .mbx, .host, .taint, .tiers, .spar, .out] s t := by
  refine Does.also (t := s) Does.refl (fun h0 => ?_)
  unfold execGroupForm at h
  obtain rfl := Host.Outcome.next.inj h
  clear h
  split
  · rename_i x0 x1 x2
    refine Does.ite ?_ ?_
    · assumption
    · refine iarik_does rfl ?_ (fun c3 z4 hz5 => ?_)
      · assumption
      · refine Does.then groupForm_does rfl ?_
        assumption
  · rename_i x6 x7
    assumption

theorem refuseForm_does {a0 a1 a2} {s} :
    Does [.ram, .ramUndef, .mbx, .host, .taint, .tiers, .spar, .out] s (refuseForm a0 a1 a2 s) := by
  refine Does.also (t := s) Does.refl (fun h0 => ?_)
  unfold refuseForm
  extract_lets +onlyGivenNames y0
  refine Does.then finish_does rfl ?_
  refine Does.set_spar rfl _ ?_
  assumption

theorem confirmForm_does {a0} {s} :
    Does [.fmtSticky, .cnt, .ram, .ramUndef, .mbx, .host, .tbu, .err, .slate, .plans, .arrs, .exclStored, .norm, .normSum, .taint, .tiers, .models, .codec, .spar, .out, .free] s (confirmForm a0 s) := by
  refine Does.also (t := s) Does.refl (fun h0 => ?_)
  unfold confirmForm
  extract_lets +onlyGivenNames y0
  extract_lets +onlyGivenNames y1
  extract_lets +onlyGivenNames y2
  refine Does.also (t := y2) ?_ (fun hy2 => ?_)
  · subst y2
    refine forEach_does ?_ (fun a3 z4 hz5 => ?_)
    · assumption
    · refine Does.then flood_does rfl ?_
      assumption
  clear_value y2
  revert y2
  refine Does.intro ?_
  intro y2 hy2
  extract_lets +onlyGivenNames y6
  refine Does.also (t := y6) ?_ (fun hy6 => ?_)
  · subst y6
    refine Does.then enterGroup_does rfl ?_
    assumption
  clear_value y6
  revert y6
  refine Does.intro ?_
  intro y6 hy6
  extract_lets +onlyGivenNames y7
  refine Does.set_spar rfl _ ?_
  assumption

theorem settleForm_does {a0} {s} :
    Does [.ram, .ramUndef, .mbx, .host, .taint, .tiers, .spar, .out] s (settleForm a0 s) := by
  refine Does.also (t := s) Does.refl (fun h0 => ?_)
  unfold settleForm
  extract_lets +onlyGivenNames y0
  refine Does.ite ?_ ?_
  · refine Does.then finish_does rfl ?_
    refine Does.set_spar rfl _ ?_
    assumption
  · refine Does.set_spar rfl _ ?_
    assumption

theorem execJoinReply_does {a0 a1} {s} {t} (h : (execJoinReply a0 a1 s) = .next t) :
    Does [.fmtSticky, .cnt, .ram, .ramUndef, .mbx, .host, .tbu, .err, .slate, .plans, .arrs, .exclStored, .norm, .normSum, .taint, .tiers, .models, .codec, .spar, .out, .free] s t := by
  refine Does.also (t := s) Does.refl (fun h0 => ?_)
  unfold execJoinReply at h
  obtain rfl := Host.Outcome.next.inj h
  clear h
  extract_lets +onlyGivenNames y0
  split
  · rename_i x2 x3
    assumption
  · rename_i x4 x5 x6
    extract_lets +onlyGivenNames y7
    refine Does.ite ?_ ?_
    · assumption
    · split
      · rename_i x8
        refine Does.ite ?_ ?_
        · refine Does.then settleForm_does rfl ?_
          assumption
        · assumption
      · rename_i x9 x10
        refine Does.ite ?_ ?_
        · assumption
        · split
          · rename_i x11 x12 x13 x14
            refine Does.ite ?_ ?_
            · refine Does.then refuseForm_does rfl ?_
              assumption
            · refine Does.ite ?_ ?_
              · refine Does.then refuseForm_does rfl ?_
                assumption
              · refine Does.ite ?_ ?_
                · refine Does.then refuseForm_does rfl ?_
                  assumption
                · refine Does.ite ?_ ?_
                  · split
                    · rename_i x15 x16 x17
                      refine Does.then refuseForm_does rfl ?_
                      assumption
                    · rename_i x18 x19
                      refine Does.then confirmForm_does rfl ?_
                      assumption
                  · refine Does.set_spar rfl _ ?_
                    assumption
          · rename_i x20
            refine Does.then refuseForm_does rfl ?_
            assumption
          · rename_i x21
            refine Does.then refuseForm_does rfl ?_
            assumption
          · rename_i x22
            refine Does.then refuseForm_does rfl ?_
            assumption
          · rename_i x23
            assumption

theorem execMemberReachTimeout_does {a0} {s} {t} (h : (execMemberReachTimeout a0 s) = .next t) :
    Does [.ram, .ramUndef, .mbx, .host, .taint, .tiers, .spar, .out] s t := by
  refine Does.also (t := s) Does.refl (fun h0 => ?_)
  unfold execMemberReachTimeout at h
  obtain rfl := Host.Outcome.next.inj h
  clear h
  split
  · rename_i x0 x1
    assumption
  · rename_i x2 x3 x4
    refine Does.ite ?_ ?_
    · refine Does.then refuseForm_does rfl ?_
      assumption
    · assumption

theorem groupDissolve_does {a0} {s} :
    Does [.fmtSticky, .cnt, .ram, .ramUndef, .mbx, .host, .tbu, .err, .slate, .plans, .arrs, .exclStored, .norm, .normSum, .taint, .tiers, .models, .codec, .spar, .out, .free] s (replySt (groupDissolve a0 s)) := by
  refine Does.also (t := s) Does.refl (fun h0 => ?_)
  unfold groupDissolve
  refine checked_does ?_ ?_
  · assumption
  · refine Does.iteR ?_ ?_
    · refine Does.done ?_
      refine Does.then leaveGroup_does rfl ?_
      assumption
    · refine Does.running ?_
      refine Does.then sendMembers_does rfl ?_
      assumption

theorem execGroupFormDissolve_does {a0} {s} {t} (h : (execGroupFormDissolve a0 s) = .next t) :
    Does [.fmtSticky, .cnt, .ram, .ramUndef, .mbx, .host, .tbu, .err, .slate, .plans, .arrs, .exclStored, .norm, .normSum, .taint, .tiers, .models, .codec, .spar, .out, .free] s t := by
  refine Does.also (t := s) Does.refl (fun h0 => ?_)
  unfold execGroupFormDissolve at h
  obtain rfl := Host.Outcome.next.inj h
  clear h
  refine iarikIf_does rfl ?_ (fun c0 z1 hz2 => ?_)
  · assumption
  · refine Does.then groupDissolve_does rfl ?_
    assumption

theorem groupStatus_does {a0} {s} :
    Does [.ram, .ramUndef, .taint, .tiers, .spar, .out] s (replySt (groupStatus a0 s)) := by
  refine Does.also (t := s) Does.refl (fun h0 => ?_)
  unfold groupStatus
  extract_lets +onlyGivenNames y0
  extract_lets +onlyGivenNames y1
  refine checked_does ?_ ?_
  · assumption
  · refine Does.done ?_
    refine Does.then putPay_does rfl ?_
    assumption

theorem execGroupStatus_does {a0} {s} {t} (h : (execGroupStatus a0 s) = .next t) :
    Does [.ram, .ramUndef, .mbx, .host, .taint, .tiers, .spar, .out] s t := by
  refine Does.also (t := s) Does.refl (fun h0 => ?_)
  unfold execGroupStatus at h
  obtain rfl := Host.Outcome.next.inj h
  clear h
  refine iarik_does rfl ?_ (fun c0 z1 hz2 => ?_)
  · assumption
  · refine Does.then groupStatus_does rfl ?_
    assumption

theorem orphan_does {s} :
    Does [.fmtSticky, .cnt, .ram, .ramUndef, .mbx, .host, .tbu, .err, .slate, .plans, .arrs, .exclStored, .norm, .normSum, .taint, .tiers, .models, .codec, .spar, .sec, .maint, .out, .free] s (orphan s) := by
  refine Does.also (t := s) Does.refl (fun h0 => ?_)
  unfold orphan
  extract_lets +onlyGivenNames y0
  refine Does.also (t := y0) ?_ (fun hy0 => ?_)
  · subst y0
    refine Does.then haltAll_does rfl ?_
    assumption
  clear_value y0
  revert y0
  refine Does.intro ?_
  intro y0 hy0
  extract_lets +onlyGivenNames y1
  refine Does.also (t := y1) ?_ (fun hy1 => ?_)
  · subst y1
    refine Does.ite ?_ ?_
    · refine Does.then abortLocal_does rfl ?_
      assumption
    · assumption
  clear_value y1
  revert y1
  refine Does.intro ?_
  intro y1 hy1
  extract_lets +onlyGivenNames y2
  extract_lets +onlyGivenNames y3
  extract_lets +onlyGivenNames y4
  extract_lets +onlyGivenNames y5
  extract_lets +onlyGivenNames y6
  refine Does.also (t := y6) ?_ (fun hy6 => ?_)
  · subst y6
    refine Does.set_tbu_err_plans_spar_sec rfl _ _ _ _ _ ?_ ?_ ?_ ?_ ?_ ?_
    · exact fun h => h
    · exact Nat.le_refl _
    · exact Nat.le_refl _
    · exact Nat.le_refl _
    · exact Nat.le_refl _
    assumption
  clear_value y6
  revert y6
  refine Does.intro ?_
  intro y6 hy6
  refine Does.then record_does rfl ?_
  assumption

theorem execManagerLost_does {a0} {s} {t} (h : (execManagerLost a0 s) = .next t) :
    Does [.fmtSticky, .cnt, .ram, .ramUndef, .mbx, .host, .tbu, .err, .slate, .plans, .arrs, .exclStored, .norm, .normSum, .taint, .tiers, .models, .codec, .spar, .sec, .maint, .out, .free] s t := by
  refine Does.also (t := s) Does.refl (fun h0 => ?_)
  unfold execManagerLost at h
  obtain rfl := Host.Outcome.next.inj h
  clear h
  extract_lets +onlyGivenNames y0
  refine Does.also (t := y0) ?_ (fun hy0 => ?_)
  · subst y0
    refine Does.then reachTime_does rfl ?_
    assumption
  clear_value y0
  revert y0
  refine Does.intro ?_
  intro y0 hy0
  refine Does.ite ?_ ?_
  · refine Does.then orphan_does rfl ?_
    assumption
  · assumption

theorem commitLoses_does {a0} {s} :
    Does [.cnt, .ram, .ramUndef, .mbx, .host, .slate, .taint, .tiers, .models, .spar, .sec, .maint, .out] s (commitLoses a0 s) := by
  refine Does.also (t := s) Does.refl (fun h0 => ?_)
  unfold commitLoses
  extract_lets +onlyGivenNames y0
  split
  · rename_i x1 x2 x3 x4 x5 x6
    refine Does.ite ?_ ?_
    · assumption
    · refine Does.ite ?_ ?_
      · refine Does.then settleCommit_does rfl ?_
        refine Does.set_models rfl _ ?_
        assumption
      · refine Does.then abortAll_does rfl ?_
        assumption
  · rename_i x7 x8 x9 x10 x11
    refine Does.ite ?_ ?_
    · refine Does.then abortAll_does rfl ?_
      assumption
    · assumption
  · rename_i x12 x13 x14 x15
    assumption

theorem loseMember_does {a0} {s} :
    Does [.fmtSticky, .cnt, .ram, .ramUndef, .mbx, .host, .err, .slate, .plans, .arrs, .exclStored, .norm, .normSum, .taint, .tiers, .models, .codec, .spar, .sec, .maint, .out, .free] s (loseMember a0 s) := by
  refine Does.also (t := s) Does.refl (fun h0 => ?_)
  unfold loseMember
  extract_lets +onlyGivenNames y0
  extract_lets +onlyGivenNames y1
  refine Does.also (t := y1) ?_ (fun hy1 => ?_)
  · subst y1
    refine Does.set_spar rfl _ ?_
    assumption
  clear_value y1
  revert y1
  refine Does.intro ?_
  intro y1 hy1
  extract_lets +onlyGivenNames y2
  refine Does.also (t := y2) ?_ (fun hy2 => ?_)
  · subst y2
    refine Does.then haltGroup_does rfl ?_
    refine Does.then toOthers_does rfl ?_
    assumption
  clear_value y2
  revert y2
  refine Does.intro ?_
  intro y2 hy2
  extract_lets +onlyGivenNames y3
  refine Does.also (t := y3) ?_ (fun hy3 => ?_)
  · subst y3
    refine Does.then record_does rfl ?_
    assumption
  clear_value y3
  revert y3
  refine Does.intro ?_
  intro y3 hy3
  extract_lets +onlyGivenNames y4
  refine Does.also (t := y4) ?_ (fun hy4 => ?_)
  · subst y4
    refine forEach_does ?_ (fun a5 z6 hz7 => ?_)
    · assumption
    · refine Does.then finish_does rfl ?_
      assumption
  clear_value y4
  revert y4
  refine Does.intro ?_
  intro y4 hy4
  extract_lets +onlyGivenNames y8
  refine Does.also (t := y8) ?_ (fun hy8 => ?_)
  · subst y8
    refine forEach_does ?_ (fun a9 z10 hz11 => ?_)
    · assumption
    · refine Does.then waitDone_does rfl ?_
      assumption
  clear_value y8
  revert y8
  refine Does.intro ?_
  intro y8 hy8
  extract_lets +onlyGivenNames y12
  extract_lets +onlyGivenNames y13
  refine Does.also (t := y13) ?_ (fun hy13 => ?_)
  · subst y13
    split
    · rename_i x14 x15 x16
      refine Does.then finish_does rfl ?_
      refine Does.set_spar rfl _ ?_
      assumption
    · rename_i x17 x18
      assumption
  clear_value y13
  revert y13
  refine Does.intro ?_
  intro y13 hy13
  refine Does.then commitLoses_does rfl ?_
  assumption

theorem execMemberLost_does {a0 a1} {s} {t} (h : (execMemberLost a0 a1 s) = .next t) :
    Does [.fmtSticky, .cnt, .ram, .ramUndef, .mbx, .host, .tbu, .err, .slate, .plans, .arrs, .exclStored, .norm, .normSum, .taint, .tiers, .models, .codec, .spar, .sec, .maint, .out, .free] s t := by
  refine Does.also (t := s) Does.refl (fun h0 => ?_)
  unfold execMemberLost at h
  obtain rfl := Host.Outcome.next.inj h
  clear h
  extract_lets +onlyGivenNames y0
  refine Does.also (t := y0) ?_ (fun hy0 => ?_)
  · subst y0
    refine Does.then reachTime_does rfl ?_
    assumption
  clear_value y0
  revert y0
  refine Does.intro ?_
  intro y0 hy0
  split
  · rename_i x1 x2 x3
    refine Does.ite ?_ ?_
    · refine Does.then loseMember_does rfl ?_
      assumption
    · assumption
  · rename_i x4 x5
    assumption

end Sys2Proof.Laws
end

