-- ==== Sys2Proof/Laws/Maint.lean ====
section
/-! SUPPORT. Sys2Proof/Laws/Maint.lean: what each operation and meaning of Machine/Maint.lean can do, as `Does` says it: which blocks of
the state it may change, that it keeps the invariant, and that it lowers nothing that only rises. -/

namespace Sys2Proof.Laws

open Sys2Proof.Machine Sys2Proof.Safety

theorem startActivity_does {a0 a1 a2 a3} {s} :
    Does [.cnt, .slate, .spar, .maint, .out] s (startActivity a0 a1 a2 a3 s) := by
  refine Does.also (t := s) Does.refl (fun h0 => ?_)
  unfold startActivity
  extract_lets +onlyGivenNames y0
  split
  · rename_i x1
    dsimp only [y0]
    refine Does.then addJob_does rfl ?_
    assumption
  · rename_i x2
    refine Does.ite ?_ ?_
    · dsimp only [y0]
      refine Does.then addJob_does rfl ?_
      assumption
    · refine Does.then endJob_does rfl ?_
      dsimp only [y0]
      refine Does.then addJob_does rfl ?_
      assumption
  · rename_i x3
    refine Does.then askCkpt_does rfl ?_
    dsimp only [y0]
    refine Does.then addJob_does rfl ?_
    assumption
  · rename_i x4
    refine Does.ite ?_ ?_
    · dsimp only [y0]
      refine Does.then addJob_does rfl ?_
      assumption
    · refine Does.ite ?_ ?_
      · refine Does.then takeDown_does rfl ?_
        dsimp only [y0]
        refine Does.then addJob_does rfl ?_
        assumption
      · refine Does.then count_does rfl ?_
        refine Does.then updPort_does rfl ?_
        dsimp only [y0]
        refine Does.then addJob_does rfl ?_
        assumption
  · rename_i x5 x6 x7 x8 x9
    dsimp only [y0]
    refine Does.then addJob_does rfl ?_
    assumption

theorem maintStart_does {a0} {s} :
    Does [.cnt, .slate, .spar, .maint, .out] s (replySt (maintStart a0 s)) := by
  refine Does.also (t := s) Does.refl (fun h0 => ?_)
  unfold maintStart
  extract_lets +onlyGivenNames y0
  extract_lets +onlyGivenNames y1
  extract_lets +onlyGivenNames y2
  extract_lets +onlyGivenNames y3
  refine refused_does rfl ?_
  refine checked_does ?_ ?_
  · assumption
  · refine Does.done ?_
    refine forEach_does ?_ (fun a4 z5 hz6 => ?_)
    · assumption
    · refine Does.then startActivity_does rfl ?_
      assumption

theorem execMaintStart_does {a0} {s} {t} (h : (execMaintStart a0 s) = .next t) :
    Does [.cnt, .ram, .ramUndef, .mbx, .host, .slate, .taint, .tiers, .spar, .maint, .out] s t := by
  refine Does.also (t := s) Does.refl (fun h0 => ?_)
  unfold execMaintStart at h
  obtain rfl := Host.Outcome.next.inj h
  clear h
  refine iarik_does rfl ?_ (fun c0 z1 hz2 => ?_)
  · assumption
  · refine Does.then maintStart_does rfl ?_
    assumption

theorem maintStatus_does {a0} {s} :
    Does [.ram, .ramUndef, .taint, .tiers, .spar, .out] s (replySt (maintStatus a0 s)) := by
  refine Does.also (t := s) Does.refl (fun h0 => ?_)
  unfold maintStatus
  extract_lets +onlyGivenNames y0
  extract_lets +onlyGivenNames y1
  refine checked_does ?_ ?_
  · assumption
  · refine Does.done ?_
    refine Does.then putPay_does rfl ?_
    assumption

theorem execMaintStatus_does {a0} {s} {t} (h : (execMaintStatus a0 s) = .next t) :
    Does [.ram, .ramUndef, .mbx, .host, .taint, .tiers, .spar, .out] s t := by
  refine Does.also (t := s) Does.refl (fun h0 => ?_)
  unfold execMaintStatus at h
  obtain rfl := Host.Outcome.next.inj h
  clear h
  refine iarik_does rfl ?_ (fun c0 z1 hz2 => ?_)
  · assumption
  · refine Does.then maintStatus_does rfl ?_
    assumption

theorem updJob_does {a0 a1} {s} :
    Does [.maint] s (updJob a0 a1 s) := by
  refine Does.also (t := s) Does.refl (fun h0 => ?_)
  unfold updJob
  extract_lets +onlyGivenNames y0
  refine Does.set_maint rfl _ ?_
  assumption

theorem runJob_does {a0} {s} :
    Does [.maint] s (runJob a0 s) := by
  refine Does.also (t := s) Does.refl (fun h0 => ?_)
  unfold runJob
  refine Does.then updJob_does rfl ?_
  assumption

theorem startRound_does {a0} {s} :
    Does [.maint] s (startRound a0 s) := by
  refine Does.also (t := s) Does.refl (fun h0 => ?_)
  unfold startRound
  extract_lets +onlyGivenNames y0
  refine Does.ite ?_ ?_
  · assumption
  · split
    · rename_i x3 x4 x5 x6
      extract_lets +onlyGivenNames y7
      refine Does.also (t := y7) ?_ (fun hy7 => ?_)
      · subst y7
        refine Does.set_maint rfl _ ?_
        assumption
      clear_value y7
      revert y7
      refine Does.intro ?_
      intro y7 hy7
      split
      · rename_i x8 x9 x10
        refine Does.then runJob_does rfl ?_
        assumption
      · rename_i x11 x12
        assumption
    · rename_i x13 x14
      assumption

theorem execMaintJobStart_does {a0 a1} {s} {t} (h : (execMaintJobStart a0 a1 s) = .next t) :
    Does [.maint] s t := by
  refine Does.also (t := s) Does.refl (fun h0 => ?_)
  unfold execMaintJobStart at h
  obtain rfl := Host.Outcome.next.inj h
  clear h
  split
  · rename_i x0 x1
    assumption
  · rename_i x2 x3 x4
    refine Does.ite ?_ ?_
    · refine Does.ite ?_ ?_
      · refine Does.then startRound_does rfl ?_
        assumption
      · assumption
    · refine Does.ite ?_ ?_
      · assumption
      · split
        · rename_i x5 x6
          refine Does.ite ?_ ?_
          · refine Does.then runJob_does rfl ?_
            assumption
          · assumption
        · rename_i x7 x8
          refine Does.ite ?_ ?_
          · refine Does.then runJob_does rfl ?_
            assumption
          · assumption
        · rename_i x9 x10
          refine Does.ite ?_ ?_
          · refine Does.then runJob_does rfl ?_
            assumption
          · assumption
        · rename_i x11 x12 x13 x14
          refine Does.then runJob_does rfl ?_
          assumption

theorem bistArray_does {a0 a1 a2} {s} :
    Does [.cnt, .host, .err, .arrs, .exclStored, .out] s (bistArray a0 a1 a2 s) := by
  refine Does.also (t := s) Does.refl (fun h0 => ?_)
  unfold bistArray
  extract_lets +onlyGivenNames y0
  extract_lets +onlyGivenNames y1
  extract_lets +onlyGivenNames y2
  refine Does.also (t := y2) ?_ (fun hy2 => ?_)
  · subst y2
    refine Does.then applyExcl_does rfl ?_
    refine forEach_does ?_ (fun a3 z4 hz5 => ?_)
    · assumption
    · refine Does.then excludeCell_does rfl ?_
      assumption
  clear_value y2
  revert y2
  refine Does.intro ?_
  intro y2 hy2
  extract_lets +onlyGivenNames y6
  refine Does.also (t := y6) ?_ (fun hy6 => ?_)
  · subst y6
    refine Does.ite ?_ ?_
    · assumption
    · refine Does.then record_does rfl ?_
      assumption
  clear_value y6
  revert y6
  refine Does.intro ?_
  intro y6 hy6
  extract_lets +onlyGivenNames y7
  refine Does.also (t := y7) ?_ (fun hy7 => ?_)
  · subst y7
    refine Does.set_exclStored rfl _ ?_
    assumption
  clear_value y7
  revert y7
  refine Does.intro ?_
  intro y7 hy7
  refine Does.ite ?_ ?_
  · refine Does.then updArr_does rfl ?_
    assumption
  · assumption

theorem execBistRoundComplete_does {a0 a1} {s} {t} (h : (execBistRoundComplete a0 a1 s) = .next t) :
    Does [.cnt, .ram, .ramUndef, .mbx, .host, .pwr, .err, .arrs, .exclStored, .taint, .tiers, .spar, .maint, .out] s t := by
  refine Does.also (t := s) Does.refl (fun h0 => ?_)
  unfold execBistRoundComplete at h
  obtain rfl := Host.Outcome.next.inj h
  clear h
  extract_lets +onlyGivenNames y0
  extract_lets +onlyGivenNames y1
  extract_lets +onlyGivenNames y2
  extract_lets +onlyGivenNames y3
  refine Does.also (t := y3) ?_ (fun hy3 => ?_)
  · subst y3
    refine forEach_does ?_ (fun a4 z5 hz6 => ?_)
    · assumption
    · refine Does.then bistArray_does rfl ?_
      assumption
  clear_value y3
  revert y3
  refine Does.intro ?_
  intro y3 hy3
  extract_lets +onlyGivenNames y7
  extract_lets +onlyGivenNames y8
  split
  · rename_i x10 x11
    assumption
  · rename_i x12 x13 x14 x15
    extract_lets +onlyGivenNames y16
    extract_lets +onlyGivenNames y17
    refine Does.also (t := y17) ?_ (fun hy17 => ?_)
    · subst y17
      refine Does.set_maint rfl _ ?_
      assumption
    clear_value y17
    revert y17
    refine Does.intro ?_
    intro y17 hy17
    extract_lets +onlyGivenNames y18
    refine Does.also (t := y18) ?_ (fun hy18 => ?_)
    · subst y18
      refine Does.then endJobs_does rfl ?_
      assumption
    clear_value y18
    revert y18
    refine Does.intro ?_
    intro y18 hy18
    extract_lets +onlyGivenNames y19
    refine Does.also (t := y19) ?_ (fun hy19 => ?_)
    · subst y19
      refine Does.set_maint rfl _ ?_
      assumption
    clear_value y19
    revert y19
    refine Does.intro ?_
    intro y19 hy19
    extract_lets +onlyGivenNames y20
    refine Does.also (t := y20) ?_ (fun hy20 => ?_)
    · subst y20
      split
      · rename_i x21 x22 x23
        refine Does.then updJob_does rfl ?_
        assumption
      · rename_i x24 x25
        assumption
    clear_value y20
    revert y20
    refine Does.intro ?_
    intro y20 hy20
    refine Does.ite ?_ ?_
    · assumption
    · refine Does.ite ?_ ?_
      · refine Does.then startRound_does rfl ?_
        refine Does.then retarget_does rfl ?_
        refine Does.then finish_does rfl ?_
        assumption
      · refine Does.then startRound_does rfl ?_
        refine Does.then retarget_does rfl ?_
        assumption

theorem readPhysical_does {a0 a1} {s} : Does [.free] s (readPhysical a0 a1 s).2.2.2 := by
  unfold readPhysical
  extract_lets full d v bad errs outcome fixed b
  have h1 : Does [.free] s d.2 := drawWord_does.mono rfl
  by_cases hc : (!bad && decide (errs = 0)) = true
  · rw [if_pos hc]; exact h1
  · rw [if_neg hc]; exact h1.trans (Does.ofSnd (p := b) drawBytes_does)

theorem physCorrected_does {a0 a1 a2 a3 a4} {s} :
    Does [.cnt, .host, .err, .slate, .maint, .out] s (physCorrected a0 a1 a2 a3 a4 s) := by
  refine Does.also (t := s) Does.refl (fun h0 => ?_)
  unfold physCorrected
  extract_lets +onlyGivenNames y0
  refine Does.also (t := y0) ?_ (fun hy0 => ?_)
  · subst y0
    refine Does.then count_does rfl ?_
    assumption
  clear_value y0
  revert y0
  refine Does.intro ?_
  intro y0 hy0
  split
  · rename_i x1 x2 x3
    refine Does.ite ?_ ?_
    · refine Does.then queueReloc_does rfl ?_
      assumption
    · assumption
  · rename_i x4 x5
    assumption

theorem physicalRead_does {a0} {s} : Does [.cnt, .ram, .ramUndef, .host, .err, .slate, .taint, .tiers, .spar, .maint, .out, .free] s (replySt (physicalRead a0 s)) := by
  unfold physicalRead
  extract_lets a cell k pb n sb
  refine checked_does Does.refl ?_
  refine Does.iteR Does.refl ?_
  split
  · exact Does.refl
  · extract_lets r s1
    have hr : Does [.cnt, .ram, .ramUndef, .host, .err, .slate, .taint, .tiers, .spar, .maint, .out, .free] s r.2.2.2 := readPhysical_does.mono rfl
    have h1 : Does [.cnt, .ram, .ramUndef, .host, .err, .slate, .taint, .tiers, .spar, .maint, .out, .free] s s1 := Does.ite (Does.then physCorrected_does rfl hr) hr
    exact Does.then putPay_does rfl h1

theorem arrayBist_does {a0} {s} : Does [.cnt, .maint] s (replySt (arrayBist a0 s)) := by
  unfold arrayBist
  extract_lets +onlyGivenNames l
  refine refused_does rfl (checked_does Does.refl ?_)
  extract_lets s1 run m s2
  have h1 : Does [.cnt, .maint] s s1 := addJob_does.mono rfl
  have h2 : Does [.cnt, .maint] s s2 := Does.set_maint rfl _ h1
  exact Does.running (Does.ite (Does.then startRound_does rfl h2) h2)

theorem analogueChecks_does {a0} {s} :
    Does [.cnt, .spar, .maint] s (replySt (analogueChecks a0 s)) := by
  refine Does.also (t := s) Does.refl (fun h0 => ?_)
  unfold analogueChecks
  extract_lets +onlyGivenNames y0
  extract_lets +onlyGivenNames y1
  extract_lets +onlyGivenNames y2
  refine Does.also (t := y2) ?_ (fun hy2 => ?_)
  · subst y2
    refine forEach_does ?_ (fun a3 z4 hz5 => ?_)
    · assumption
    · refine Does.then count_does rfl ?_
      refine Does.then updPort_does rfl ?_
      assumption
  clear_value y2
  revert y2
  refine Does.intro ?_
  intro y2 hy2
  extract_lets +onlyGivenNames y6
  refine checked_does ?_ ?_
  · assumption
  · refine Does.running ?_
    refine Does.set_maint rfl _ ?_
    assumption

theorem loopbackFails_does {a0} {s} :
    Does [.spar, .maint] s (loopbackFails a0 s) := by
  refine Does.also (t := s) Does.refl (fun h0 => ?_)
  unfold loopbackFails
  refine Does.then endJob_does rfl ?_
  refine Does.then updPort_does rfl ?_
  assumption

theorem afterLoopback_does {a0 a1} {s} :
    Does [.cnt, .spar, .maint] s (afterLoopback a0 a1 s) := by
  refine Does.also (t := s) Does.refl (fun h0 => ?_)
  unfold afterLoopback
  extract_lets +onlyGivenNames y0
  refine Does.also (t := y0) ?_ (fun hy0 => ?_)
  · subst y0
    refine Does.then deviceJob_does rfl ?_
    refine Does.then count_does rfl ?_
    refine Does.then updPort_does rfl ?_
    assumption
  clear_value y0
  revert y0
  refine Does.intro ?_
  intro y0 hy0
  refine Does.ite ?_ ?_
  · refine Does.then loopbackFails_does rfl ?_
    assumption
  · refine Does.ite ?_ ?_
    · assumption
    · refine forEach_does ?_ (fun a1 z2 hz3 => ?_)
      · assumption
      · refine Does.then runJob_does rfl ?_
        assumption

theorem noteAnalogue_does {a0 a1} {s} :
    Does [.cnt, .host, .err, .out] s (noteAnalogue a0 a1 s) := by
  refine Does.also (t := s) Does.refl (fun h0 => ?_)
  unfold noteAnalogue
  refine forUpto_does ?_ (fun a0 z1 hz2 => ?_)
  · assumption
  · refine Does.ite ?_ ?_
    · refine Does.then record_does rfl ?_
      assumption
    · assumption

theorem failSenses_does {a0} {s} :
    Does [.cnt, .host, .err, .slate, .models, .out] s (failSenses a0 s) := by
  refine Does.also (t := s) Does.refl (fun h0 => ?_)
  unfold failSenses
  refine forEach_does ?_ (fun a0 z1 hz2 => ?_)
  · assumption
  · refine Does.ite ?_ ?_
    · refine Does.then failSubbank_does rfl ?_
      assumption
    · assumption

theorem execAnalogueChecksDone_does {a0} {s} {t} (h : (execAnalogueChecksDone a0 s) = .next t) :
    Does [.cnt, .ram, .ramUndef, .mbx, .host, .err, .slate, .taint, .tiers, .models, .spar, .maint, .out] s t := by
  refine Does.also (t := s) Does.refl (fun h0 => ?_)
  unfold execAnalogueChecksDone at h
  obtain rfl := Host.Outcome.next.inj h
  clear h
  extract_lets +onlyGivenNames y0
  split
  · rename_i x2 x3
    assumption
  · rename_i x4 x5 x6 x7
    extract_lets +onlyGivenNames y8
    extract_lets +onlyGivenNames y9
    extract_lets +onlyGivenNames y10
    extract_lets +onlyGivenNames y11
    refine Does.also (t := y11) ?_ (fun hy11 => ?_)
    · subst y11
      refine Does.set_maint rfl _ ?_
      assumption
    clear_value y11
    revert y11
    refine Does.intro ?_
    intro y11 hy11
    extract_lets +onlyGivenNames y12
    refine Does.also (t := y12) ?_ (fun hy12 => ?_)
    · subst y12
      refine forEach_does ?_ (fun a13 z14 hz15 => ?_)
      · assumption
      · refine Does.then afterLoopback_does rfl ?_
        assumption
    clear_value y12
    revert y12
    refine Does.intro ?_
    intro y12 hy12
    extract_lets +onlyGivenNames y16
    refine Does.also (t := y16) ?_ (fun hy16 => ?_)
    · subst y16
      refine Does.then noteAnalogue_does rfl ?_
      refine Does.ite ?_ ?_
      · refine Does.then failSenses_does rfl ?_
        assumption
      · assumption
    clear_value y16
    revert y16
    refine Does.intro ?_
    intro y16 hy16
    refine Does.ite ?_ ?_
    · assumption
    · refine Does.then finish_does rfl ?_
      assumption

theorem patternBlock_does {a0 a1 a2} {s} :
    Does [.cnt, .host, .err, .slate, .out] s (patternBlock a0 a1 a2 s) := by
  refine Does.also (t := s) Does.refl (fun h0 => ?_)
  unfold patternBlock
  extract_lets +onlyGivenNames y0
  refine Does.also (t := y0) ?_ (fun hy0 => ?_)
  · subst y0
    refine Does.then updPb_does rfl ?_
    assumption
  clear_value y0
  revert y0
  refine Does.intro ?_
  intro y0 hy0
  refine Does.ite ?_ ?_
  · refine Does.then retireBlock_does rfl ?_
    assumption
  · assumption

theorem patternSubbank_does {a0 a1} {s} :
    Does [.cnt, .host, .err, .slate, .out] s (patternSubbank a0 a1 s) := by
  refine Does.also (t := s) Does.refl (fun h0 => ?_)
  unfold patternSubbank
  extract_lets +onlyGivenNames y0
  extract_lets +onlyGivenNames y1
  refine Does.also (t := y1) ?_ (fun hy1 => ?_)
  · subst y1
    refine forUpto_does ?_ (fun a2 z3 hz4 => ?_)
    · assumption
    · refine Does.then patternBlock_does rfl ?_
      assumption
  clear_value y1
  revert y1
  refine Does.intro ?_
  intro y1 hy1
  refine Does.then updSb_does rfl ?_
  assumption

theorem patternStack_does {a0} {s} :
    Does [.cnt, .host, .err, .slate, .out, .free] s (patternStack a0 s) := by
  refine Does.also (t := s) Does.refl (fun h0 => ?_)
  unfold patternStack
  extract_lets +onlyGivenNames y0
  extract_lets +onlyGivenNames y1
  extract_lets +onlyGivenNames y2
  refine Does.also (t := y2) ?_ (fun hy2 => ?_)
  · subst y2
    refine Does.set_slate_free rfl _ _ ?_
    assumption
  clear_value y2
  revert y2
  refine Does.intro ?_
  intro y2 hy2
  extract_lets +onlyGivenNames y3
  extract_lets +onlyGivenNames y4
  refine Does.also (t := y4) ?_ (fun hy4 => ?_)
  · subst y4
    refine Does.then updStack_does rfl ?_
    assumption
  clear_value y4
  revert y4
  refine Does.intro ?_
  intro y4 hy4
  refine forUpto_does ?_ (fun a5 z6 hz7 => ?_)
  · assumption
  · refine Does.then patternSubbank_does rfl ?_
    assumption

theorem patterns_does {a0} {s} :
    Does [.cnt, .host, .err, .slate, .maint, .out, .free] s (replySt (patterns a0 s)) := by
  refine Does.also (t := s) Does.refl (fun h0 => ?_)
  unfold patterns
  extract_lets +onlyGivenNames y0
  extract_lets +onlyGivenNames y1
  refine Does.also (t := y1) ?_ (fun hy1 => ?_)
  · subst y1
    refine forEach_does ?_ (fun a2 z3 hz4 => ?_)
    · assumption
    · refine Does.then patternStack_does rfl ?_
      assumption
  clear_value y1
  revert y1
  refine Does.intro ?_
  intro y1 hy1
  extract_lets +onlyGivenNames y5
  refine checked_does ?_ ?_
  · assumption
  · refine Does.running ?_
    refine forEach_does ?_ (fun a6 z7 hz8 => ?_)
    · assumption
    · refine Does.then askCkpt_does rfl ?_
      assumption

theorem selftest_does {a0} {s} :
    Does [.cnt, .ram, .ramUndef, .host, .err, .slate, .taint, .tiers, .spar, .maint, .out, .free] s (replySt (selftest a0 s)) := by
  refine Does.also (t := s) Does.refl (fun h0 => ?_)
  unfold selftest
  split
  · rename_i x0 x1
    refine Does.then arrayBist_does rfl ?_
    assumption
  · rename_i x2 x3
    refine Does.then analogueChecks_does rfl ?_
    assumption
  · rename_i x4 x5
    refine Does.then physicalRead_does rfl ?_
    assumption
  · rename_i x6 x7
    refine Does.then patterns_does rfl ?_
    assumption
  · rename_i x8 x9 x10 x11 x12
    refine Does.done ?_
    assumption

theorem execSelftest_does {a0} {s} {t} (h : (execSelftest a0 s) = .next t) :
    Does [.cnt, .ram, .ramUndef, .mbx, .host, .err, .slate, .taint, .tiers, .spar, .maint, .out, .free] s t := by
  refine Does.also (t := s) Does.refl (fun h0 => ?_)
  unfold execSelftest at h
  obtain rfl := Host.Outcome.next.inj h
  clear h
  refine iarik_does rfl ?_ (fun c0 z1 hz2 => ?_)
  · assumption
  · refine Does.then selftest_does rfl ?_
    assumption

theorem followUp_does {a0} {s} :
    Does [.cnt, .host, .err, .slate, .maint, .out] s (followUp a0 s) := by
  refine Does.also (t := s) Does.refl (fun h0 => ?_)
  unfold followUp
  extract_lets +onlyGivenNames y0
  extract_lets +onlyGivenNames y1
  split
  · rename_i x2 x3
    refine Does.then queueReloc_does rfl ?_
    assumption
  · rename_i x4 x5
    refine Does.then queueReloc_does rfl ?_
    assumption
  · rename_i x6 x7
    refine Does.then retryTargets_does rfl ?_
    assumption
  · rename_i x8 x9 x10 x11
    assumption

theorem execFollowUp_does {s} {t} (h : (execFollowUp s) = .next t) :
    Does [.cnt, .host, .err, .slate, .maint, .out] s t := by
  refine Does.also (t := s) Does.refl (fun h0 => ?_)
  unfold execFollowUp at h
  obtain rfl := Host.Outcome.next.inj h
  clear h
  extract_lets +onlyGivenNames y0
  split
  · rename_i x1 x2
    assumption
  · rename_i x3 x4 x5
    refine Does.then followUp_does rfl ?_
    refine Does.set_err rfl _ ?_ ?_
    · exact fun h => h
    assumption

end Sys2Proof.Laws
end

