-- ==== Sys2Proof/Laws/Flash.lean ====
section
/-! SUPPORT. Sys2Proof/Laws/Flash.lean: what each operation and meaning of Machine/Flash.lean can do, as `Does` says it: which blocks of
the state it may change, that it keeps the invariant, and that it lowers nothing that only rises. -/

namespace Sys2Proof.Laws

open Sys2Proof.Machine Sys2Proof.Safety

theorem updBank_does {a0 a1} {s} :
    Does [.flash] s (updBank a0 a1 s) := by
  refine Does.also (t := s) Does.refl (fun h0 => ?_)
  unfold updBank
  extract_lets +onlyGivenNames y0
  refine Does.ite ?_ ?_
  · refine Does.set_flash rfl _ ?_ ?_
    · exact fun h => h
    assumption
  · refine Does.set_flash rfl _ ?_ ?_
    · exact fun h => h
    assumption

theorem redrawFlash_does {s} :
    Does [.free] s (redrawFlash s) := by
  refine Does.also (t := s) Does.refl (fun h0 => ?_)
  unfold redrawFlash
  refine Does.ite ?_ ?_
  · assumption
  · refine Does.set_free rfl _ ?_
    assumption

theorem flashErase_does {a0 a1} {s} :
    Does [.flash] s (flashErase a0 a1 s) := by
  refine Does.also (t := s) Does.refl (fun h0 => ?_)
  unfold flashErase
  extract_lets +onlyGivenNames y0
  refine Does.set_flash rfl _ ?_ ?_
  · exact fun h => filter_wf h
  assumption

theorem flashProgram_does {a0 a1} {s} :
    Does [.flash] s (flashProgram a0 a1 s) := by
  refine Does.also (t := s) Does.refl (fun h0 => ?_)
  unfold flashProgram
  extract_lets +onlyGivenNames y0
  refine Does.set_flash rfl _ ?_ ?_
  · exact fun h => memWrite_wf h
  assumption

theorem flashWord_does {a0 a1} {s} :
    Does [.flash] s (flashWord a0 a1 s) := by
  refine Does.also (t := s) Does.refl (fun h0 => ?_)
  unfold flashWord
  extract_lets +onlyGivenNames y0
  refine Does.set_flash rfl _ ?_ ?_
  · exact fun h => memWrite_wf h
  assumption

theorem dropLines_does {a0 a1} {s} :
    Does [.flash] s (dropLines a0 a1 s) := by
  refine Does.also (t := s) Does.refl (fun h0 => ?_)
  unfold dropLines
  extract_lets +onlyGivenNames y0
  extract_lets +onlyGivenNames y1
  refine Does.set_flash rfl _ ?_ ?_
  · exact fun h => h
  assumption

theorem FlashOp_apply_does {a0 a1} {s} :
    Does [.flash] s (FlashOp.apply a0 a1 s) := by
  refine Does.also (t := s) Does.refl (fun h0 => ?_)
  unfold FlashOp.apply
  extract_lets +onlyGivenNames y0
  refine Does.ite ?_ ?_
  · refine Does.set_flash rfl _ ?_ ?_
    · exact fun h => h
    assumption
  · refine Does.ite ?_ ?_
    · refine Does.then flashErase_does rfl ?_
      assumption
    · refine Does.ite ?_ ?_
      · refine Does.then flashWord_does rfl ?_
        assumption
      · refine Does.then flashProgram_does rfl ?_
        assumption

theorem romReturn_does {a0 a1 a2} {s} :
    Does [.out] s (romReturn a0 a1 a2 s) := by
  refine Does.also (t := s) Does.refl (fun h0 => ?_)
  unfold romReturn
  refine Does.then emit_does rfl ?_
  assumption

theorem startOp_does {a0 a1 a2 a3} {s} :
    Does [.flash, .out] s (startOp a0 a1 a2 a3 s) := by
  refine Does.also (t := s) Does.refl (fun h0 => ?_)
  unfold startOp
  extract_lets +onlyGivenNames y0
  refine Does.also (t := y0) ?_ (fun hy0 => ?_)
  · subst y0
    refine Does.then dropLines_does rfl ?_
    assumption
  clear_value y0
  revert y0
  refine Does.intro ?_
  intro y0 hy0
  extract_lets +onlyGivenNames y1
  refine Does.also (t := y1) ?_ (fun hy1 => ?_)
  · subst y1
    refine Does.then dropLines_does rfl ?_
    refine Does.then FlashOp_apply_does rfl ?_
    refine Does.then emit_does rfl ?_
    assumption
  clear_value y1
  revert y1
  refine Does.intro ?_
  intro y1 hy1
  refine Does.ite ?_ ?_
  · refine Does.then romReturn_does rfl ?_
    assumption
  · refine Does.then romReturn_does rfl ?_
    refine Does.then updBank_does rfl ?_
    assumption

theorem flashRoutine_does {a0 a1 a2 a3 a4 a5 a6 a7 a8} {s} :
    Does [.flash, .out] s (flashRoutine a0 a1 a2 a3 a4 a5 a6 a7 a8 s) := by
  refine Does.also (t := s) Does.refl (fun h0 => ?_)
  unfold flashRoutine
  extract_lets +onlyGivenNames y0
  extract_lets +onlyGivenNames y1
  extract_lets +onlyGivenNames y2
  extract_lets +onlyGivenNames y3
  extract_lets +onlyGivenNames y4
  clear_value y4
  split
  · rename_i x5 x6
    refine Does.then romReturn_does rfl ?_
    assumption
  · rename_i x7
    split
    · rename_i x8 x9
      refine Does.then romReturn_does rfl ?_
      assumption
    · rename_i x10
      refine Does.then startOp_does rfl ?_
      assumption

theorem execFlErase_does {a0 a1 a2 a3 a4 a5} {s} {t} (h : (execFlErase a0 a1 a2 a3 a4 a5 s) = .next t) :
    Does [.flash, .out] s t := by
  refine Does.also (t := s) Does.refl (fun h0 => ?_)
  unfold execFlErase at h
  obtain rfl := Host.Outcome.next.inj h
  clear h
  extract_lets +onlyGivenNames y0
  extract_lets +onlyGivenNames y1
  refine Does.then flashRoutine_does rfl ?_
  assumption

theorem execFlProgram_does {a0 a1 a2 a3 a4 a5 a6} {s} {t} (h : (execFlProgram a0 a1 a2 a3 a4 a5 a6 s) = .next t) :
    Does [.flash, .out] s t := by
  refine Does.also (t := s) Does.refl (fun h0 => ?_)
  unfold execFlProgram at h
  obtain rfl := Host.Outcome.next.inj h
  clear h
  extract_lets +onlyGivenNames y0
  extract_lets +onlyGivenNames y1
  refine Does.then flashRoutine_does rfl ?_
  assumption

theorem execFlWord_does {a0 a1 a2 a3 a4 a5} {s} {t} (h : (execFlWord a0 a1 a2 a3 a4 a5 s) = .next t) :
    Does [.flash, .out, .free] s t := by
  refine Does.also (t := s) Does.refl (fun h0 => ?_)
  unfold execFlWord at h
  obtain rfl := Host.Outcome.next.inj h
  clear h
  extract_lets +onlyGivenNames y0
  refine Does.also (t := y0) ?_ (fun hy0 => ?_)
  · subst y0
    refine Does.then redrawFlash_does rfl ?_
    assumption
  clear_value y0
  revert y0
  refine Does.intro ?_
  intro y0 hy0
  extract_lets +onlyGivenNames y1
  refine Does.then flashRoutine_does rfl ?_
  assumption

theorem execFlPoll_does {a0 a1} {s} {t} (h : (execFlPoll a0 a1 s) = .next t) :
    Does [.flash, .out] s t := by
  refine Does.also (t := s) Does.refl (fun h0 => ?_)
  unfold execFlPoll at h
  obtain rfl := Host.Outcome.next.inj h
  clear h
  extract_lets +onlyGivenNames y0
  refine Does.ite ?_ ?_
  · refine Does.then romReturn_does rfl ?_
    assumption
  · refine Does.ite ?_ ?_
    · refine Does.then romReturn_does rfl ?_
      assumption
    · refine Does.then romReturn_does rfl ?_
      refine Does.then updBank_does rfl ?_
      assumption

theorem execFlashOpComplete_does {a0 a1 a2} {s} {t} (h : (execFlashOpComplete a0 a1 a2 s) = .next t) :
    Does [.flash] s t := by
  refine Does.also (t := s) Does.refl (fun h0 => ?_)
  unfold execFlashOpComplete at h
  obtain rfl := Host.Outcome.next.inj h
  clear h
  split
  · rename_i x0 x1
    assumption
  · rename_i x2 x3 x4
    refine Does.then dropLines_does rfl ?_
    refine Does.then FlashOp_apply_does rfl ?_
    refine Does.then updBank_does rfl ?_
    assumption

theorem execFlashBusyRead_does {a0 a1 a2} {s} {t} (h : (execFlashBusyRead a0 a1 a2 s) = .next t) :
    Does [.out] s t := by
  refine Does.also (t := s) Does.refl (fun h0 => ?_)
  unfold execFlashBusyRead at h
  obtain rfl := Host.Outcome.next.inj h
  clear h
  extract_lets +onlyGivenNames y0
  refine Does.ite ?_ ?_
  · assumption
  · split
    · rename_i x1
      refine Does.then emit_does rfl ?_
      assumption
    · rename_i x2
      refine Does.then emit_does rfl ?_
      assumption
    · rename_i x3 x4 x5
      assumption

theorem execControllerWriteFault_does {a0 a1 a2} {s} {t} (h : (execControllerWriteFault a0 a1 a2 s) = .next t) :
    Does [.cnt, .host, .err, .out] s t := by
  refine Does.also (t := s) Does.refl (fun h0 => ?_)
  unfold execControllerWriteFault at h
  obtain rfl := Host.Outcome.next.inj h
  clear h
  refine Does.then hostAccess_does rfl ?_
  refine Does.then emit_does rfl ?_
  assumption

theorem execSltRing_does {a0 a1 a2 a3} {s} {t} (h : (execSltRing a0 a1 a2 a3 s) = .next t) :
    Does [.slate, .out] s t := by
  refine Does.also (t := s) Does.refl (fun h0 => ?_)
  unfold execSltRing at h
  obtain rfl := Host.Outcome.next.inj h
  clear h
  extract_lets +onlyGivenNames y0
  extract_lets +onlyGivenNames y1
  refine Does.ite ?_ ?_
  · refine Does.then romReturn_does rfl ?_
    assumption
  · refine Does.ite ?_ ?_
    · refine Does.then romReturn_does rfl ?_
      assumption
    · refine Does.then romReturn_does rfl ?_
      refine Does.set_slate rfl _ ?_
      assumption

theorem execSltPoll_does {a0 a1} {s} {t} (h : (execSltPoll a0 a1 s) = .next t) :
    Does [.out] s t := by
  refine Does.also (t := s) Does.refl (fun h0 => ?_)
  unfold execSltPoll at h
  obtain rfl := Host.Outcome.next.inj h
  clear h
  refine Does.ite ?_ ?_
  · refine Does.then romReturn_does rfl ?_
    assumption
  · split
    · rename_i x0 x1 x2
      refine Does.then romReturn_does rfl ?_
      assumption
    · rename_i x3 x4
      refine Does.then romReturn_does rfl ?_
      assumption

end Sys2Proof.Laws
end

