-- ==== Sys2Proof/Laws/Firmware.lean ====
section
/-! SUPPORT. Sys2Proof/Laws/Firmware.lean: what each operation and meaning of Machine/Firmware.lean can do, as `Does` says it: which blocks of
the state it may change, that it keeps the invariant, and that it lowers nothing that only rises. -/

namespace Sys2Proof.Laws

open Sys2Proof.Machine Sys2Proof.Safety

theorem eraseStaging_does {s} :
    Does [.flash] s (eraseStaging s) := by
  refine Does.also (t := s) Does.refl (fun h0 => ?_)
  unfold eraseStaging
  refine Does.then flashErase_does rfl ?_
  assumption

theorem beginStaging_does {a0 a1} {s} :
    Does [.sec, .flash] s (beginStaging a0 a1 s) := by
  refine Does.also (t := s) Does.refl (fun h0 => ?_)
  unfold beginStaging
  extract_lets +onlyGivenNames y0
  extract_lets +onlyGivenNames y1
  refine Does.also (t := y1) ?_ (fun hy1 => ?_)
  · subst y1
    refine Does.set_sec rfl _ ?_ ?_ ?_ ?_ ?_
    · exact Nat.le_refl _
    · exact Nat.le_refl _
    · exact Nat.le_refl _
    · exact Nat.le_refl _
    assumption
  clear_value y1
  revert y1
  refine Does.intro ?_
  intro y1 hy1
  extract_lets +onlyGivenNames y2
  refine Does.ite ?_ ?_
  · refine Does.then eraseStaging_does rfl ?_
    refine Does.set_sec rfl _ ?_ ?_ ?_ ?_ ?_
    · exact Nat.le_refl _
    · exact Nat.le_refl _
    · exact Nat.le_refl _
    · exact Nat.le_refl _
    assumption
  · assumption

theorem endRun_does {a0} {s} :
    Does [.sec] s (endRun a0 s) := by
  refine Does.also (t := s) Does.refl (fun h0 => ?_)
  unfold endRun
  extract_lets +onlyGivenNames y0
  refine Does.ite ?_ ?_
  · refine Does.set_sec rfl _ ?_ ?_ ?_ ?_ ?_
    · exact Nat.le_refl _
    · exact Nat.le_refl _
    · exact Nat.le_refl _
    · exact Nat.le_refl _
    assumption
  · assumption

theorem unverify_does {s} :
    Does [.sec] s (unverify s) := by
  refine Does.also (t := s) Does.refl (fun h0 => ?_)
  unfold unverify
  extract_lets +onlyGivenNames y0
  refine Does.set_sec rfl _ ?_ ?_ ?_ ?_ ?_
  · exact Nat.le_refl _
  · exact Nat.le_refl _
  · exact Nat.le_refl _
  · exact Nat.le_refl _
  assumption

theorem stageJob_does {a0} {s} :
    Does [.maint] s (stageJob a0 s) := by
  refine Does.also (t := s) Does.refl (fun h0 => ?_)
  unfold stageJob
  refine Does.then endJob_does rfl ?_
  refine Does.then addJob_does rfl ?_
  assumption

theorem fwStage_does {a0 a1} {s} :
    Does [.cnt, .sec, .flash, .maint] s (replySt (fwStage a0 a1 s)) := by
  refine Does.also (t := s) Does.refl (fun h0 => ?_)
  unfold fwStage
  extract_lets +onlyGivenNames y0
  extract_lets +onlyGivenNames y1
  extract_lets +onlyGivenNames y2
  extract_lets +onlyGivenNames y3
  extract_lets +onlyGivenNames y4
  refine Does.also (t := y4) ?_ (fun hy4 => ?_)
  · subst y4
    refine Does.then beginStaging_does rfl ?_
    assumption
  clear_value y4
  revert y4
  refine Does.intro ?_
  intro y4 hy4
  extract_lets +onlyGivenNames y5
  extract_lets +onlyGivenNames y6
  refine Does.also (t := y6) ?_ (fun hy6 => ?_)
  · subst y6
    refine Does.then flashProgram_does rfl ?_
    refine Does.set_sec rfl _ ?_ ?_ ?_ ?_ ?_
    · exact Nat.le_refl _
    · exact Nat.le_refl _
    · exact Nat.le_refl _
    · exact Nat.le_refl _
    assumption
  clear_value y6
  revert y6
  refine Does.intro ?_
  intro y6 hy6
  refine refused_does rfl ?_
  refine checked_does ?_ ?_
  · assumption
  · refine Does.iteR ?_ ?_
    · refine Does.done ?_
      refine Does.then unverify_does rfl ?_
      assumption
    · refine Does.iteR ?_ ?_
      · refine Does.done ?_
        assumption
      · refine Does.iteR ?_ ?_
        · refine Does.done ?_
          assumption
        · refine Does.done ?_
          refine Does.then stageJob_does rfl ?_
          refine Does.then endRun_does rfl ?_
          assumption

theorem execFwStage_does {a0 a1} {s} {t} (h : (execFwStage a0 a1 s) = .next t) :
    Does [.cnt, .ram, .ramUndef, .mbx, .host, .taint, .tiers, .spar, .sec, .flash, .maint, .out] s t := by
  refine Does.also (t := s) Does.refl (fun h0 => ?_)
  unfold execFwStage at h
  obtain rfl := Host.Outcome.next.inj h
  clear h
  refine iarik_does rfl ?_ (fun c0 z1 hz2 => ?_)
  · assumption
  · refine Does.then fwStage_does rfl ?_
    assumption

theorem fwDelta_does {a0 a1} {s} :
    Does [.cnt, .sec, .flash, .maint] s (replySt (fwDelta a0 a1 s)) := by
  refine Does.also (t := s) Does.refl (fun h0 => ?_)
  unfold fwDelta
  extract_lets +onlyGivenNames y0
  extract_lets +onlyGivenNames y1
  extract_lets +onlyGivenNames y2
  extract_lets +onlyGivenNames y3
  extract_lets +onlyGivenNames y4
  extract_lets +onlyGivenNames y5
  extract_lets +onlyGivenNames y6
  extract_lets +onlyGivenNames y7
  extract_lets +onlyGivenNames y8
  refine Does.also (t := y8) ?_ (fun hy8 => ?_)
  · subst y8
    refine Does.then beginStaging_does rfl ?_
    assumption
  clear_value y8
  revert y8
  refine Does.intro ?_
  intro y8 hy8
  extract_lets +onlyGivenNames y9
  extract_lets +onlyGivenNames y10
  refine Does.also (t := y10) ?_ (fun hy10 => ?_)
  · subst y10
    refine Does.then flashProgram_does rfl ?_
    refine Does.set_sec rfl _ ?_ ?_ ?_ ?_ ?_
    · exact Nat.le_refl _
    · exact Nat.le_refl _
    · exact Nat.le_refl _
    · exact Nat.le_refl _
    assumption
  clear_value y10
  revert y10
  refine Does.intro ?_
  intro y10 hy10
  refine refused_does rfl ?_
  refine checked_does ?_ ?_
  · assumption
  · refine Does.iteR ?_ ?_
    · refine Does.done ?_
      refine Does.then unverify_does rfl ?_
      assumption
    · refine Does.iteR ?_ ?_
      · refine Does.done ?_
        refine Does.then unverify_does rfl ?_
        assumption
      · refine Does.iteR ?_ ?_
        · refine Does.done ?_
          refine Does.then unverify_does rfl ?_
          assumption
        · refine Does.iteR ?_ ?_
          · refine Does.done ?_
            assumption
          · refine Does.iteR ?_ ?_
            · refine Does.done ?_
              refine Does.then unverify_does rfl ?_
              assumption
            · refine Does.iteR ?_ ?_
              · refine Does.done ?_
                assumption
              · refine Does.done ?_
                refine Does.then stageJob_does rfl ?_
                refine Does.then endRun_does rfl ?_
                assumption

theorem execFwDelta_does {a0 a1} {s} {t} (h : (execFwDelta a0 a1 s) = .next t) :
    Does [.cnt, .ram, .ramUndef, .mbx, .host, .taint, .tiers, .spar, .sec, .flash, .maint, .out, .free] s t := by
  refine Does.also (t := s) Does.refl (fun h0 => ?_)
  unfold execFwDelta at h
  obtain rfl := Host.Outcome.next.inj h
  clear h
  refine iarik_does rfl ?_ (fun c0 z1 hz2 => ?_)
  · refine Does.then redrawFlash_does rfl ?_
    assumption
  · refine Does.then fwDelta_does rfl ?_
    assumption

theorem fwVerify_does {a0} {s} :
    Does [.sec] s (replySt (fwVerify a0 s)) := by
  refine Does.also (t := s) Does.refl (fun h0 => ?_)
  unfold fwVerify
  extract_lets +onlyGivenNames y0
  extract_lets +onlyGivenNames y1
  refine checked_does ?_ ?_
  · assumption
  · refine Does.done ?_
    refine Does.set_sec rfl _ ?_ ?_ ?_ ?_ ?_
    · exact Nat.le_refl _
    · exact Nat.le_refl _
    · exact Nat.le_refl _
    · exact Nat.le_refl _
    assumption

theorem execFwVerify_does {a0} {s} {t} (h : (execFwVerify a0 s) = .next t) :
    Does [.ram, .ramUndef, .mbx, .host, .taint, .tiers, .spar, .sec, .out, .free] s t := by
  refine Does.also (t := s) Does.refl (fun h0 => ?_)
  unfold execFwVerify at h
  obtain rfl := Host.Outcome.next.inj h
  clear h
  refine iarik_does rfl ?_ (fun c0 z1 hz2 => ?_)
  · refine Does.then redrawFlash_does rfl ?_
    assumption
  · refine Does.then fwVerify_does rfl ?_
    assumption

theorem schedule_does {a0} {s} :
    Does [.sec] s (schedule a0 s) := by
  refine Does.also (t := s) Does.refl (fun h0 => ?_)
  unfold schedule
  extract_lets +onlyGivenNames y0
  refine Does.set_sec rfl _ ?_ ?_ ?_ ?_ ?_
  · exact Nat.le_refl _
  · exact Nat.le_refl _
  · exact Nat.le_refl _
  · exact Nat.le_refl _
  assumption

theorem scheduleAll_does {a0} {s} :
    Does [.spar, .sec, .out] s (scheduleAll a0 s) := by
  refine Does.also (t := s) Does.refl (fun h0 => ?_)
  unfold scheduleAll
  refine Does.then sendActivation_does rfl ?_
  refine Does.then schedule_does rfl ?_
  assumption

theorem fwActivate_does {a0} {s} :
    Does [.spar, .sec, .out] s (replySt (fwActivate a0 s)) := by
  refine Does.also (t := s) Does.refl (fun h0 => ?_)
  unfold fwActivate
  extract_lets +onlyGivenNames y0
  extract_lets +onlyGivenNames y1
  extract_lets +onlyGivenNames y2
  extract_lets +onlyGivenNames y3
  extract_lets +onlyGivenNames y4
  refine checked_does ?_ ?_
  · assumption
  · refine Does.iteR ?_ ?_
    · refine Does.done ?_
      refine Does.ite ?_ ?_
      · refine Does.set_sec rfl _ ?_ ?_ ?_ ?_ ?_
        · exact Nat.le_refl _
        · exact Nat.le_refl _
        · exact Nat.le_refl _
        · exact Nat.le_refl _
        assumption
      · assumption
    · refine Does.iteR ?_ ?_
      · refine Does.done ?_
        refine Does.then schedule_does rfl ?_
        assumption
      · refine Does.running ?_
        refine Does.then sendMembers_does rfl ?_
        refine Does.set_spar rfl _ ?_
        assumption

theorem execFwActivate_does {a0} {s} {t} (h : (execFwActivate a0 s) = .next t) :
    Does [.ram, .ramUndef, .mbx, .host, .taint, .tiers, .spar, .sec, .out] s t := by
  refine Does.also (t := s) Does.refl (fun h0 => ?_)
  unfold execFwActivate at h
  obtain rfl := Host.Outcome.next.inj h
  clear h
  refine iarik_does rfl ?_ (fun c0 z1 hz2 => ?_)
  · assumption
  · refine Does.then fwActivate_does rfl ?_
    assumption

theorem enterLifecycle_does {a0 a1} {s} : Does [.part, .sec] s (enterLifecycle a0 a1 s) := by
  unfold enterLifecycle
  extract_lets +onlyGivenNames y0 y1
  have h1 : Does [.part, .sec] s y1 := Does.ite (Does.set_part rfl _ rfl rfl Does.refl) Does.refl
  clear_value y1
  extract_lets +onlyGivenNames y2
  refine Does.set_sec rfl _ (Nat.le_refl _) ?_ (Nat.le_add_right _ _) (Nat.le_refl _) h1
  show y1.sec.floor ≤ if a1 = lcProvisioned ∨ a1 = lcDeployed ∨ a1 = lcReturned ∨ a1 = lcScrapped then max y1.sec.floor a1 else y1.sec.floor
  split
  · exact Nat.le_max_left _ _
  · exact Nat.le_refl _

theorem lifecycleSet_does {a0 a1} {s} :
    Does [.part, .sec] s (replySt (lifecycleSet a0 a1 s)) := by
  refine Does.also (t := s) Does.refl (fun h0 => ?_)
  unfold lifecycleSet
  extract_lets +onlyGivenNames y0
  extract_lets +onlyGivenNames y1
  extract_lets +onlyGivenNames y2
  refine checked_does ?_ ?_
  · assumption
  · refine Does.done ?_
    refine Does.then enterLifecycle_does rfl ?_
    assumption

theorem execLifecycleSet_does {a0 a1} {s} {t} (h : (execLifecycleSet a0 a1 s) = .next t) :
    Does [.part, .ram, .ramUndef, .mbx, .host, .taint, .tiers, .spar, .sec, .out] s t := by
  refine Does.also (t := s) Does.refl (fun h0 => ?_)
  unfold execLifecycleSet at h
  obtain rfl := Host.Outcome.next.inj h
  clear h
  refine iarik_does rfl ?_ (fun c0 z1 hz2 => ?_)
  · assumption
  · refine Does.then lifecycleSet_does rfl ?_
    assumption

theorem journalReserve_does {a0} {s} :
    Does [.flash] s (journalReserve a0 s) := by
  refine Does.also (t := s) Does.refl (fun h0 => ?_)
  unfold journalReserve
  extract_lets +onlyGivenNames y0
  extract_lets +onlyGivenNames y1
  extract_lets +onlyGivenNames y2
  extract_lets +onlyGivenNames y3
  extract_lets +onlyGivenNames y4
  extract_lets +onlyGivenNames y5
  refine Does.also (t := y5) ?_ (fun hy5 => ?_)
  · subst y5
    refine Does.ite ?_ ?_
    · dsimp only [y3]
      refine Does.then flashWord_does rfl ?_
      refine Does.then flashWord_does rfl ?_
      refine Does.then flashWord_does rfl ?_
      refine Does.then flashWord_does rfl ?_
      refine Does.then flashErase_does rfl ?_
      assumption
    · assumption
  clear_value y5
  revert y5
  refine Does.intro ?_
  intro y5 hy5
  dsimp only [y3]
  refine Does.then flashWord_does rfl ?_
  assumption

theorem takeIndex_does {s} :
    Does [.sec, .flash] s (sndSt (takeIndex s)) := by
  refine Does.also (t := s) Does.refl (fun h0 => ?_)
  unfold takeIndex
  extract_lets +onlyGivenNames y0
  extract_lets +onlyGivenNames y1
  refine Does.also (t := y1) ?_ (fun hy1 => ?_)
  · subst y1
    refine Does.ite ?_ ?_
    · refine Does.then journalReserve_does rfl ?_
      refine Does.set_sec rfl _ ?_ ?_ ?_ ?_ ?_
      · exact Nat.le_refl _
      · exact Nat.le_refl _
      · exact Nat.le_refl _
      · exact Nat.le_add_right _ _
      assumption
    · assumption
  clear_value y1
  revert y1
  refine Does.intro ?_
  intro y1 hy1
  extract_lets +onlyGivenNames y2
  refine Does.snd ?_
  refine Does.set_sec rfl _ ?_ ?_ ?_ ?_ ?_
  · exact Nat.le_refl _
  · exact Nat.le_refl _
  · exact Nat.le_refl _
  · exact Nat.le_refl _
  assumption

theorem attest_does {a0 a1} {s} :
    Does [.ram, .ramUndef, .taint, .tiers, .spar, .sec, .flash, .out] s (replySt (attest a0 a1 s)) := by
  refine Does.also (t := s) Does.refl (fun h0 => ?_)
  unfold attest
  extract_lets +onlyGivenNames y0
  extract_lets +onlyGivenNames y1
  extract_lets +onlyGivenNames y2
  refine Does.also (t := y2.2) ?_ (fun hy2 => ?_)
  · refine Does.ofSnd ?_
    subst y2
    refine Does.then takeIndex_does rfl ?_
    assumption
  clear_value y2
  revert y2
  refine Does.intro2 ?_
  intro y2 hy2
  refine checked_does ?_ ?_
  · assumption
  · refine Does.done ?_
    refine Does.then putOut_does rfl ?_
    assumption

theorem execAttest_does {a0 a1} {s} {t} (h : (execAttest a0 a1 s) = .next t) :
    Does [.ram, .ramUndef, .mbx, .host, .taint, .tiers, .spar, .sec, .flash, .out] s t := by
  refine Does.also (t := s) Does.refl (fun h0 => ?_)
  unfold execAttest at h
  obtain rfl := Host.Outcome.next.inj h
  clear h
  refine iarik_does rfl ?_ (fun c0 z1 hz2 => ?_)
  · assumption
  · refine Does.then attest_does rfl ?_
    assumption

end Sys2Proof.Laws
end

