-- ==== Sys2Proof/Laws/Regs.lean ====
section
/-! SUPPORT. Sys2Proof/Laws/Regs.lean: what each operation and meaning of Machine/Regs.lean can do, as `Does` says it: which blocks of
the state it may change, that it keeps the invariant, and that it lowers nothing that only rises. -/

namespace Sys2Proof.Laws

open Sys2Proof.Machine Sys2Proof.Safety

theorem updDma_does {a0 a1} {s} :
    Does [.host] s (updDma a0 a1 s) := by
  refine Does.also (t := s) Does.refl (fun h0 => ?_)
  unfold updDma
  extract_lets +onlyGivenNames y0
  refine Does.set_host rfl _ ?_
  assumption

theorem clearCounters_does {s} :
    Does [.cnt, .tbu] s (clearCounters s) := by
  refine Does.also (t := s) Does.refl (fun h0 => ?_)
  unfold clearCounters
  extract_lets +onlyGivenNames y0
  refine Does.set_cnt_tbu rfl _ _ ?_ ?_
  · exact fun _ _ h => absurd h List.not_mem_nil
  assumption

theorem fmtStickyWrite_does {a0} {s} :
    Does [.fmtSticky, .cnt, .tbu] s (fmtStickyWrite a0 s) := by
  refine Does.also (t := s) Does.refl (fun h0 => ?_)
  unfold fmtStickyWrite
  extract_lets +onlyGivenNames y0
  refine Does.also (t := y0) ?_ (fun hy0 => ?_)
  · subst y0
    refine Does.set_fmtSticky rfl _ ?_
    assumption
  clear_value y0
  revert y0
  refine Does.intro ?_
  intro y0 hy0
  refine Does.ite ?_ ?_
  · refine Does.then clearCounters_does rfl ?_
    assumption
  · assumption

theorem bar2HiWrite_does {a0} {s} :
    Does [.cnt, .host, .err, .out] s (bar2HiWrite a0 s) := by
  refine Does.also (t := s) Does.refl (fun h0 => ?_)
  unfold bar2HiWrite
  extract_lets +onlyGivenNames y0
  extract_lets +onlyGivenNames y1
  refine Does.ite ?_ ?_
  · refine Does.set_host rfl _ ?_
    assumption
  · refine Does.then hostAccess_does rfl ?_
    refine Does.set_host rfl _ ?_
    assumption

theorem errHeadWrite_does {a0} {s} : Does [.cnt, .host, .err, .out] s (errHeadWrite a0 s) := by
  unfold errHeadWrite
  extract_lets n
  by_cases hc : 256 ≤ a0 ∨ s.err.entries < n
  · rw [if_pos hc]; exact hostAccess_does
  · rw [if_neg hc]
    refine Does.set_err rfl _ ?_ Does.refl
    rintro ⟨h1, h2, h3⟩
    have hn : n = (a0 + 256 - s.err.head) % 256 := rfl
    refine ⟨?_, ?_, ?_⟩
    · show s.err.entries - n ≤ 256; omega
    · show a0 < 256; omega
    · show s.err.tail = (a0 + (s.err.entries - n)) % 256; omega

theorem baseWrite_does {a0 a1 a2} {s} :
    Does [.cnt, .mbx, .host, .err, .out] s (baseWrite a0 a1 a2 s) := by
  refine Does.also (t := s) Does.refl (fun h0 => ?_)
  unfold baseWrite
  extract_lets +onlyGivenNames y0
  extract_lets +onlyGivenNames y1
  extract_lets +onlyGivenNames y2
  refine Does.ite ?_ ?_
  · refine Does.then hostAccess_does rfl ?_
    assumption
  · refine Does.then updPair_does rfl ?_
    assumption

theorem pairWrite_does {a0 a1 a2} {s} :
    Does [.cnt, .mbx, .host, .err, .out] s (pairWrite a0 a1 a2 s) := by
  refine Does.also (t := s) Does.refl (fun h0 => ?_)
  unfold pairWrite
  split
  · rename_i x0
    refine Does.ite ?_ ?_
    · refine Does.then qpEnableWrite_does rfl ?_
      assumption
    · refine Does.then qpDisableWrite_does rfl ?_
      assumption
  · rename_i x1
    refine Does.then sqTailWrite_does rfl ?_
    assumption
  · rename_i x2
    refine Does.then cqHeadWrite_does rfl ?_
    assumption
  · rename_i x3
    refine Does.then updPair_does rfl ?_
    assumption
  · rename_i x4 x5 x6 x7 x8
    refine Does.then baseWrite_does rfl ?_
    assumption

theorem sltCfgWrite_does {a0} {s} :
    Does [.cnt, .host, .err, .slate, .out] s (sltCfgWrite a0 s) := by
  refine Does.also (t := s) Does.refl (fun h0 => ?_)
  unfold sltCfgWrite
  extract_lets +onlyGivenNames y0
  extract_lets +onlyGivenNames y1
  extract_lets +onlyGivenNames y2
  extract_lets +onlyGivenNames y3
  refine Does.ite ?_ ?_
  · refine Does.then hostAccess_does rfl ?_
    assumption
  · refine Does.then noteAllBlocked_does rfl ?_
    refine Does.set_slate rfl _ ?_
    assumption

theorem dmaStatus_does {a0 a1 a2} {s} :
    Does [.out] s (dmaStatus a0 a1 a2 s) := by
  refine Does.also (t := s) Does.refl (fun h0 => ?_)
  unfold dmaStatus
  extract_lets +onlyGivenNames y0
  refine Does.then emit_does rfl ?_
  refine Does.then emit_does rfl ?_
  assumption

theorem dmaNext_does {a0} {s} :
    Does [.host] s (dmaNext a0 s) := by
  refine Does.also (t := s) Does.refl (fun h0 => ?_)
  unfold dmaNext
  refine Does.then updDma_does rfl ?_
  assumption

theorem dmaEnableWrite_does {a0 a1} {s} :
    Does [.cnt, .host, .err, .out] s (dmaEnableWrite a0 a1 s) := by
  refine Does.also (t := s) Does.refl (fun h0 => ?_)
  unfold dmaEnableWrite
  extract_lets +onlyGivenNames y0
  extract_lets +onlyGivenNames y1
  refine Does.ite ?_ ?_
  · refine Does.then hostAccess_does rfl ?_
    assumption
  · refine Does.then updDma_does rfl ?_
    assumption

theorem dmaDisableWrite_does {a0 a1} {s} :
    Does [.host, .out] s (dmaDisableWrite a0 a1 s) := by
  refine Does.also (t := s) Does.refl (fun h0 => ?_)
  unfold dmaDisableWrite
  extract_lets +onlyGivenNames y0
  refine Does.also (t := y0) ?_ (fun hy0 => ?_)
  · subst y0
    refine Does.ite ?_ ?_
    · refine Does.then dmaNext_does rfl ?_
      refine Does.then dmaStatus_does rfl ?_
      assumption
    · assumption
  clear_value y0
  revert y0
  refine Does.intro ?_
  intro y0 hy0
  refine Does.then updDma_does rfl ?_
  assumption

theorem dmaTailWrite_does {a0 a1} {s} :
    Does [.cnt, .host, .err, .out] s (dmaTailWrite a0 a1 s) := by
  refine Does.also (t := s) Does.refl (fun h0 => ?_)
  unfold dmaTailWrite
  refine Does.ite ?_ ?_
  · refine Does.then hostAccess_does rfl ?_
    assumption
  · refine Does.then updDma_does rfl ?_
    assumption

theorem dmaWrite_does {a0 a1 a2} {s} :
    Does [.cnt, .host, .err, .out] s (dmaWrite a0 a1 a2 s) := by
  refine Does.also (t := s) Does.refl (fun h0 => ?_)
  unfold dmaWrite
  split
  · rename_i x0
    refine Does.ite ?_ ?_
    · refine Does.then hostAccess_does rfl ?_
      assumption
    · refine Does.then updDma_does rfl ?_
      assumption
  · rename_i x1
    refine Does.then updDma_does rfl ?_
    assumption
  · rename_i x2
    refine Does.ite ?_ ?_
    · refine Does.then dmaEnableWrite_does rfl ?_
      assumption
    · refine Does.then dmaDisableWrite_does rfl ?_
      assumption
  · rename_i x3
    refine Does.then dmaTailWrite_does rfl ?_
    assumption
  · rename_i x4
    refine Does.then updDma_does rfl ?_
    assumption
  · rename_i x5 x6 x7 x8 x9 x10
    assumption

theorem wordWrite_does {a0 a1} {s} :
    Does [.fmtSticky, .cnt, .mbx, .host, .tbu, .err, .slate, .plans, .spar, .sec, .out] s (wordWrite a0 a1 s) := by
  refine Does.also (t := s) Does.refl (fun h0 => ?_)
  unfold wordWrite
  extract_lets +onlyGivenNames y0
  extract_lets +onlyGivenNames y1
  extract_lets +onlyGivenNames y2
  extract_lets +onlyGivenNames y3
  extract_lets +onlyGivenNames y4
  refine Does.ite ?_ ?_
  · refine Does.then fmtStickyWrite_does rfl ?_
    assumption
  · refine Does.ite ?_ ?_
    · refine Does.set_host rfl _ ?_
      assumption
    · refine Does.ite ?_ ?_
      · refine Does.then bar2HiWrite_does rfl ?_
        assumption
      · refine Does.ite ?_ ?_
        · refine Does.ite ?_ ?_
          · refine Does.then updPlan_does rfl ?_
            assumption
          · assumption
        · refine Does.ite ?_ ?_
          · refine Does.then pairWrite_does rfl ?_
            assumption
          · refine Does.ite ?_ ?_
            · refine Does.set_tbu rfl _ ?_
              assumption
            · refine Does.ite ?_ ?_
              · refine Does.set_tbu rfl _ ?_
                assumption
              · refine Does.ite ?_ ?_
                · refine Does.set_err rfl _ ?_ ?_
                  · exact fun h => h
                  assumption
                · refine Does.ite ?_ ?_
                  · refine Does.set_err rfl _ ?_ ?_
                    · exact fun h => h
                    assumption
                  · refine Does.ite ?_ ?_
                    · refine Does.then errHeadWrite_does rfl ?_
                      assumption
                    · refine Does.ite ?_ ?_
                      · refine Does.then sltCfgWrite_does rfl ?_
                        assumption
                      · refine Does.ite ?_ ?_
                        · refine Does.set_spar rfl _ ?_
                          assumption
                        · refine Does.ite ?_ ?_
                          · refine Does.set_sec rfl _ ?_ ?_ ?_ ?_ ?_
                            · exact Nat.le_refl _
                            · exact Nat.le_refl _
                            · exact Nat.le_refl _
                            · exact Nat.le_refl _
                            assumption
                          · refine Does.ite ?_ ?_
                            · refine Does.then dmaWrite_does rfl ?_
                              assumption
                            · assumption

theorem write32_does {a0 a1} {s} :
    Does [.fmtSticky, .cnt, .mbx, .host, .tbu, .err, .slate, .plans, .spar, .sec, .out] s (write32 a0 a1 s) := by
  refine Does.also (t := s) Does.refl (fun h0 => ?_)
  unfold write32
  split
  · rename_i x0 x1
    refine Does.then hostAccess_does rfl ?_
    assumption
  · rename_i x2 x3 x4
    refine Does.ite ?_ ?_
    · refine Does.then bar2HiWrite_does rfl ?_
      assumption
    · refine Does.ite ?_ ?_
      · refine Does.then hostAccess_does rfl ?_
        assumption
      · refine Does.then wordWrite_does rfl ?_
        assumption

theorem barWrite_does {a0 a1 a2} {s} :
    Does [.fmtSticky, .cnt, .mbx, .host, .tbu, .err, .slate, .plans, .spar, .sec, .out] s (barWrite a0 a1 a2 s) := by
  refine Does.also (t := s) Does.refl (fun h0 => ?_)
  unfold barWrite
  refine Does.ite ?_ ?_
  · refine Does.then write32_does rfl ?_
    refine Does.then write32_does rfl ?_
    assumption
  · refine Does.ite ?_ ?_
    · refine Does.then write32_does rfl ?_
      assumption
    · refine Does.then hostAccess_does rfl ?_
      assumption

theorem execRegisterWrite_does {a0 a1 a2} {s} {t} (h : (execRegisterWrite a0 a1 a2 s) = .next t) :
    Does [.fmtSticky, .cnt, .mbx, .host, .tbu, .pwr, .err, .slate, .plans, .spar, .sec, .out] s t := by
  refine Does.also (t := s) Does.refl (fun h0 => ?_)
  unfold execRegisterWrite at h
  obtain rfl := Host.Outcome.next.inj h
  clear h
  refine busAccess_does rfl ?_ (fun z0 hz1 => ?_)
  · assumption
  · refine Does.then barWrite_does rfl ?_
    assumption

theorem execClearCounters_does {a0} {s} {t} (h : (execClearCounters a0 s) = .next t) :
    Does [.fmtSticky, .cnt, .mbx, .host, .tbu, .pwr, .err, .slate, .plans, .spar, .sec, .out] s t := by
  refine Does.also (t := s) Does.refl (fun h0 => ?_)
  unfold execClearCounters at h
  obtain rfl := Host.Outcome.next.inj h
  clear h
  refine busAccess_does rfl ?_ (fun z0 hz1 => ?_)
  · assumption
  · refine Does.then write32_does rfl ?_
    assumption

theorem execBar2BaseHiWrite_does {a0} {s} {t} (h : (execBar2BaseHiWrite a0 s) = .next t) :
    Does [.cnt, .host, .pwr, .err, .out] s t := by
  refine Does.also (t := s) Does.refl (fun h0 => ?_)
  unfold execBar2BaseHiWrite at h
  obtain rfl := Host.Outcome.next.inj h
  clear h
  refine busAccess_does rfl ?_ (fun z0 hz1 => ?_)
  · assumption
  · refine Does.then bar2HiWrite_does rfl ?_
    assumption

theorem execBar2Resize_does {a0} {s} {t} (h : (execBar2Resize a0 s) = .next t) :
    Does [.host] s t := by
  refine Does.also (t := s) Does.refl (fun h0 => ?_)
  unfold execBar2Resize at h
  obtain rfl := Host.Outcome.next.inj h
  clear h
  extract_lets +onlyGivenNames y0
  refine Does.ite ?_ ?_
  · assumption
  · refine Does.set_host rfl _ ?_
    assumption

theorem execErrHeadWrite_does {a0} {s} {t} (h : (execErrHeadWrite a0 s) = .next t) :
    Does [.cnt, .host, .pwr, .err, .out] s t := by
  refine Does.also (t := s) Does.refl (fun h0 => ?_)
  unfold execErrHeadWrite at h
  obtain rfl := Host.Outcome.next.inj h
  clear h
  refine busAccess_does rfl ?_ (fun z0 hz1 => ?_)
  · assumption
  · refine Does.then errHeadWrite_does rfl ?_
    assumption

theorem bar2Access_does {a0 a1 a2 a3} {s} :
    Does [.cnt, .ram, .ramUndef, .host, .err, .slate, .taint, .tiers, .models, .spar, .out] s (bar2Access a0 a1 a2 a3 s) := by
  refine Does.also (t := s) Does.refl (fun h0 => ?_)
  unfold bar2Access
  extract_lets +onlyGivenNames y0
  extract_lets +onlyGivenNames y1
  refine Does.also (t := y1.2) ?_ (fun hy1 => ?_)
  · refine Does.ofSnd ?_
    subst y1
    refine Does.then hostRead_does rfl ?_
    assumption
  clear_value y1
  revert y1
  refine Does.intro2 ?_
  intro y1 hy1
  refine Does.ite ?_ ?_
  · refine Does.then hostWrite_does rfl ?_
    assumption
  · refine Does.then emit_does rfl ?_
    assumption

theorem execHostBar2Access_does {a0 a1 a2 a3} {s} {t} (h : (execHostBar2Access a0 a1 a2 a3 s) = .next t) :
    Does [.cnt, .ram, .ramUndef, .host, .pwr, .err, .slate, .taint, .tiers, .models, .spar, .out] s t := by
  refine Does.also (t := s) Does.refl (fun h0 => ?_)
  unfold execHostBar2Access at h
  obtain rfl := Host.Outcome.next.inj h
  clear h
  refine Does.ite ?_ ?_
  · assumption
  · refine busAccess_does rfl ?_ (fun z0 hz1 => ?_)
    · assumption
    · refine Does.then bar2Access_does rfl ?_
      assumption

theorem poisonedWrite_does {a0 a1} {s} :
    Does [.cnt, .host, .err, .out] s (poisonedWrite a0 a1 s) := by
  refine Does.also (t := s) Does.refl (fun h0 => ?_)
  unfold poisonedWrite
  extract_lets +onlyGivenNames y0
  refine Does.then emit_does rfl ?_
  refine Does.then hostAccess_does rfl ?_
  refine Does.set_host rfl _ ?_
  assumption

theorem execPoisonedWriteTlp_does {a0 a1} {s} {t} (h : (execPoisonedWriteTlp a0 a1 s) = .next t) :
    Does [.cnt, .host, .pwr, .err, .out] s t := by
  refine Does.also (t := s) Does.refl (fun h0 => ?_)
  unfold execPoisonedWriteTlp at h
  obtain rfl := Host.Outcome.next.inj h
  clear h
  refine busAccess_does rfl ?_ (fun z0 hz1 => ?_)
  · assumption
  · refine Does.then poisonedWrite_does rfl ?_
    assumption

theorem execMsixUnmask_does {a0} {s} {t} (h : (execMsixUnmask a0 s) = .next t) :
    Does [.host, .out] s t := by
  refine Does.also (t := s) Does.refl (fun h0 => ?_)
  unfold execMsixUnmask at h
  obtain rfl := Host.Outcome.next.inj h
  clear h
  extract_lets +onlyGivenNames y0
  extract_lets +onlyGivenNames y1
  extract_lets +onlyGivenNames y2
  refine Does.also (t := y2) ?_ (fun hy2 => ?_)
  · subst y2
    refine Does.set_host rfl _ ?_
    assumption
  clear_value y2
  revert y2
  refine Does.intro ?_
  intro y2 hy2
  refine Does.ite ?_ ?_
  · assumption
  · refine Does.ite ?_ ?_
    · refine Does.then emit_does rfl ?_
      assumption
    · assumption

theorem execDmaEnable_does {a0 a1} {s} {t} (h : (execDmaEnable a0 a1 s) = .next t) :
    Does [.fmtSticky, .cnt, .mbx, .host, .tbu, .pwr, .err, .slate, .plans, .spar, .sec, .out] s t := by
  refine Does.also (t := s) Does.refl (fun h0 => ?_)
  unfold execDmaEnable at h
  obtain rfl := Host.Outcome.next.inj h
  clear h
  refine Does.ite ?_ ?_
  · assumption
  · refine busAccess_does rfl ?_ (fun z0 hz1 => ?_)
    · assumption
    · refine Does.then write32_does rfl ?_
      assumption

theorem execDmaDisable_does {a0 a1} {s} {t} (h : (execDmaDisable a0 a1 s) = .next t) :
    Does [.fmtSticky, .cnt, .mbx, .host, .tbu, .pwr, .err, .slate, .plans, .spar, .sec, .out] s t := by
  refine Does.also (t := s) Does.refl (fun h0 => ?_)
  unfold execDmaDisable at h
  obtain rfl := Host.Outcome.next.inj h
  clear h
  refine Does.ite ?_ ?_
  · assumption
  · refine busAccess_does rfl ?_ (fun z0 hz1 => ?_)
    · assumption
    · refine Does.then write32_does rfl ?_
      assumption

theorem execDmaTailDoorbell_does {a0 a1} {s} {t} (h : (execDmaTailDoorbell a0 a1 s) = .next t) :
    Does [.fmtSticky, .cnt, .mbx, .host, .tbu, .pwr, .err, .slate, .plans, .spar, .sec, .out] s t := by
  refine Does.also (t := s) Does.refl (fun h0 => ?_)
  unfold execDmaTailDoorbell at h
  obtain rfl := Host.Outcome.next.inj h
  clear h
  refine Does.ite ?_ ?_
  · assumption
  · refine busAccess_does rfl ?_ (fun z0 hz1 => ?_)
    · assumption
    · refine Does.then write32_does rfl ?_
      assumption

theorem dmaFault_does {a0} {s} :
    Does [.host, .out] s (dmaFault a0 s) := by
  refine Does.also (t := s) Does.refl (fun h0 => ?_)
  unfold dmaFault
  refine Does.then updDma_does rfl ?_
  refine Does.then dmaNext_does rfl ?_
  refine Does.then dmaStatus_does rfl ?_
  assumption

theorem dmaDone_does {a0 a1 a2} {s} :
    Does [.host, .out] s (dmaDone a0 a1 a2 s) := by
  refine Does.also (t := s) Does.refl (fun h0 => ?_)
  unfold dmaDone
  extract_lets +onlyGivenNames y0
  refine Does.also (t := y0) ?_ (fun hy0 => ?_)
  · subst y0
    refine Does.then dmaNext_does rfl ?_
    refine Does.then dmaStatus_does rfl ?_
    assumption
  clear_value y0
  revert y0
  refine Does.intro ?_
  intro y0 hy0
  refine Does.ite ?_ ?_
  · refine Does.then raiseVector_does rfl ?_
    assumption
  · assumption

theorem execDmaDescriptor_does {a0 a1 a2} {s t} (h : execDmaDescriptor a0 a1 a2 s = .next t) : Does [.cnt, .ram, .ramUndef, .host, .err, .slate, .taint, .tiers, .models, .spar, .out] s t := by
  unfold execDmaDescriptor at h
  obtain rfl := Host.Outcome.next.inj h
  refine Does.ite Does.refl ?_
  split
  · exact dmaFault_does.mono rfl
  · extract_lets +onlyGivenNames b fl
    refine Does.ite (dmaDone_does.mono rfl) ?_
    extract_lets +onlyGivenNames n r
    have hr : ∀ x, r = some x → Does [.cnt, .ram, .ramUndef, .host, .err, .slate, .taint, .tiers, .models, .spar, .out] s x.2 := by
      intro x hx
      dsimp only [r] at hx
      split at hx
      · cases hx; exact Does.ofSnd (hostRead_does.mono rfl)
      · rw [Option.map_eq_some_iff] at hx
        obtain ⟨y, _, rfl⟩ := hx
        exact Does.refl
    clear_value r
    split
    · exact dmaFault_does.mono rfl
    · have h1 := hr _ rfl
      extract_lets +onlyGivenNames dst u
      have hw : Does _ s u := Does.ite h1 (Does.ite (Does.then hostWrite_does rfl h1) (Does.then emit_does rfl h1))
      exact Does.ite (Does.then dmaFault_does rfl hw) (Does.then dmaDone_does rfl hw)

theorem execDmaBusError_does {a0} {s} {t} (h : (execDmaBusError a0 s) = .next t) :
    Does [.host, .out] s t := by
  refine Does.also (t := s) Does.refl (fun h0 => ?_)
  unfold execDmaBusError at h
  obtain rfl := Host.Outcome.next.inj h
  clear h
  refine Does.ite ?_ ?_
  · assumption
  · refine Does.then dmaFault_does rfl ?_
    assumption

end Sys2Proof.Laws
end

