-- ==== Sys2Proof/Laws/Boot.lean ====
section
/-! SUPPORT. Sys2Proof/Laws/Boot.lean: what each operation and meaning of Machine/Boot.lean can do, as `Does` says it: which blocks of
the state it may change, that it keeps the invariant, and that it lowers nothing that only rises. -/

namespace Sys2Proof.Laws

open Sys2Proof.Machine Sys2Proof.Safety

theorem copySectors_does {a0} {s} :
    Does [.flash] s (copySectors a0 s) := by
  refine Does.also (t := s) Does.refl (fun h0 => ?_)
  unfold copySectors
  refine forEach_does ?_ (fun a1 z2 hz3 => ?_)
  · assumption
  · extract_lets +onlyGivenNames y4
    refine Does.then flashProgram_does rfl ?_
    refine Does.then flashErase_does rfl ?_
    assumption

theorem noteBad_does {a0} {s} :
    Does [.sec] s (noteBad a0 s) := by
  refine Does.also (t := s) Does.refl (fun h0 => ?_)
  unfold noteBad
  extract_lets +onlyGivenNames y0
  refine Does.ite ?_ ?_
  · refine Does.set_sec rfl _ ?_ ?_ ?_ ?_ ?_
    · exact Nat.le_refl _
    · exact Nat.le_refl _
    · exact Nat.le_refl _
    · exact Nat.le_refl _
    assumption
  · refine Does.ite ?_ ?_
    · refine Does.set_sec rfl _ ?_ ?_ ?_ ?_ ?_
      · exact Nat.le_refl _
      · exact Nat.le_refl _
      · exact Nat.le_refl _
      · exact Nat.le_refl _
      assumption
    · refine Does.set_sec rfl _ ?_ ?_ ?_ ?_ ?_
      · exact Nat.le_refl _
      · exact Nat.le_refl _
      · exact Nat.le_refl _
      · exact Nat.le_refl _
      assumption

theorem tryActive_does {s} :
    Does [.sec, .flash] s (sndSt (tryActive s)) := by
  refine Does.also (t := s) Does.refl (fun h0 => ?_)
  unfold tryActive
  extract_lets +onlyGivenNames y0
  refine Does.also (t := y0) ?_ (fun hy0 => ?_)
  · subst y0
    refine Does.then noteBad_does rfl ?_
    assumption
  clear_value y0
  revert y0
  refine Does.intro ?_
  intro y0 hy0
  extract_lets +onlyGivenNames y1
  extract_lets +onlyGivenNames y2
  refine Does.also (t := y2) ?_ (fun hy2 => ?_)
  · subst y2
    refine Does.then copySectors_does rfl ?_
    refine Does.set_sec rfl _ ?_ ?_ ?_ ?_ ?_
    · exact Nat.le_refl _
    · exact Nat.le_refl _
    · exact Nat.le_refl _
    · exact Nat.le_refl _
    assumption
  clear_value y2
  revert y2
  refine Does.intro ?_
  intro y2 hy2
  extract_lets +onlyGivenNames y3
  refine Does.ite2 ?_ ?_
  · refine Does.snd ?_
    assumption
  · refine Does.ite2 ?_ ?_
    · refine Does.ite2 ?_ ?_
      · refine Does.snd ?_
        refine Does.set_sec rfl _ ?_ ?_ ?_ ?_ ?_
        · exact Nat.le_refl _
        · exact Nat.le_refl _
        · exact Nat.le_refl _
        · exact Nat.le_refl _
        assumption
      · refine Does.snd ?_
        refine Does.then noteBad_does rfl ?_
        assumption
    · refine Does.snd ?_
      refine Does.then noteBad_does rfl ?_
      assumption

theorem activationCopy_does {s} :
    Does [.sec, .flash] s (activationCopy s) := by
  refine Does.also (t := s) Does.refl (fun h0 => ?_)
  unfold activationCopy
  extract_lets +onlyGivenNames y0
  extract_lets +onlyGivenNames y1
  refine Does.also (t := y1) ?_ (fun hy1 => ?_)
  · subst y1
    refine Does.then copySectors_does rfl ?_
    refine Does.set_sec rfl _ ?_ ?_ ?_ ?_ ?_
    · exact Nat.le_refl _
    · exact Nat.le_refl _
    · exact Nat.le_refl _
    · exact Nat.le_refl _
    assumption
  clear_value y1
  revert y1
  refine Does.intro ?_
  intro y1 hy1
  refine Does.ite ?_ ?_
  · assumption
  · refine Does.then copySectors_does rfl ?_
    refine Does.then noteBad_does rfl ?_
    assumption

theorem chooseImage_does {a0} {s} :
    Does [.sec, .flash] s (sndSt (chooseImage a0 s)) := by
  refine Does.also (t := s) Does.refl (fun h0 => ?_)
  unfold chooseImage
  extract_lets +onlyGivenNames y0
  extract_lets +onlyGivenNames y1
  refine Does.also (t := y1) ?_ (fun hy1 => ?_)
  · subst y1
    refine Does.set_sec rfl _ ?_ ?_ ?_ ?_ ?_
    · exact Nat.le_refl _
    · exact Nat.le_refl _
    · exact Nat.le_refl _
    · exact Nat.le_refl _
    assumption
  clear_value y1
  revert y1
  refine Does.intro ?_
  intro y1 hy1
  extract_lets +onlyGivenNames y2
  refine Does.also (t := y2) ?_ (fun hy2 => ?_)
  · subst y2
    refine Does.then activationCopy_does rfl ?_
    assumption
  clear_value y2
  revert y2
  refine Does.intro ?_
  intro y2 hy2
  extract_lets +onlyGivenNames y3
  extract_lets +onlyGivenNames y4
  refine Does.also (t := y4) ?_ (fun hy4 => ?_)
  · subst y4
    refine Does.then noteBad_does rfl ?_
    assumption
  clear_value y4
  revert y4
  refine Does.intro ?_
  intro y4 hy4
  extract_lets +onlyGivenNames y5
  refine Does.ite2 ?_ ?_
  · refine Does.ite2 ?_ ?_
    · refine Does.ite2 ?_ ?_
      · refine Does.snd ?_
        refine Does.set_sec rfl _ ?_ ?_ ?_ ?_ ?_
        · exact Nat.le_refl _
        · exact Nat.le_refl _
        · exact Nat.le_refl _
        · exact Nat.le_refl _
        assumption
      · refine Does.snd ?_
        refine Does.then noteBad_does rfl ?_
        assumption
    · refine Does.then tryActive_does rfl ?_
      refine Does.set_sec rfl _ ?_ ?_ ?_ ?_ ?_
      · exact Nat.le_refl _
      · exact Nat.le_refl _
      · exact Nat.le_refl _
      · exact Nat.le_refl _
      assumption
  · refine Does.then tryActive_does rfl ?_
    assumption

theorem placeKept_does {s} :
    Does [.err] s (placeKept s) := by
  refine Does.also (t := s) Does.refl (fun h0 => ?_)
  unfold placeKept
  split
  · rename_i x1 x2 x3
    extract_lets +onlyGivenNames y4
    refine Does.set_err rfl _ ?_ ?_
    · exact fun h => ring_place h
    assumption
  · rename_i x5 x6
    assumption

theorem trainBoard_does {a0} {s} :
    Does [.cnt, .host, .err, .tiers, .out] s (trainBoard a0 s) := by
  refine Does.also (t := s) Does.refl (fun h0 => ?_)
  unfold trainBoard
  extract_lets +onlyGivenNames y0
  extract_lets +onlyGivenNames y1
  extract_lets +onlyGivenNames y2
  extract_lets +onlyGivenNames y3
  extract_lets +onlyGivenNames y4
  extract_lets +onlyGivenNames y5
  extract_lets +onlyGivenNames y6
  refine Does.ite ?_ ?_
  · dsimp only [y4]
    refine Does.set_tiers rfl _ ?_
    assumption
  · refine Does.ite ?_ ?_
    · dsimp only [y4]
      refine Does.set_tiers rfl _ ?_
      assumption
    · refine Does.ite ?_ ?_
      · dsimp only [y4]
        refine Does.set_tiers rfl _ ?_
        assumption
      · refine Does.then record_does rfl ?_
        refine Does.set_tiers rfl _ ?_
        assumption

theorem bootBist_does {a0} {s} :
    Does [.cnt, .host, .err, .exclStored, .out] s (bootBist a0 s) := by
  refine Does.also (t := s) Does.refl (fun h0 => ?_)
  unfold bootBist
  refine forUpto_does ?_ (fun a0 z1 hz2 => ?_)
  · refine Does.then noteAnalogue_does rfl ?_
    assumption
  · split
    · rename_i x3 x4
      assumption
    · rename_i x5 x6 x7 x8
      refine Does.then record_does rfl ?_
      refine Does.set_exclStored rfl _ ?_
      assumption

theorem loadMasks_does {s} :
    Does [.arrs] s (loadMasks s) := by
  refine Does.also (t := s) Does.refl (fun h0 => ?_)
  unfold loadMasks
  refine forUpto_does ?_ (fun a0 z1 hz2 => ?_)
  · assumption
  · split
    · rename_i x3 x4
      assumption
    · rename_i x5 x6
      refine Does.then updArr_does rfl ?_
      assumption

theorem resolveSlot_does {a0 a1 a2} {s} :
    Does [.cnt, .host, .err, .models, .out] s (resolveSlot a0 a1 a2 s) := by
  refine Does.also (t := s) Does.refl (fun h0 => ?_)
  unfold resolveSlot
  extract_lets +onlyGivenNames y0
  refine Does.ite ?_ ?_
  · refine Does.then updSlot_does rfl ?_
    assumption
  · refine Does.ite ?_ ?_
    · refine Does.then updSlot_does rfl ?_
      assumption
    · refine Does.then record_does rfl ?_
      refine Does.then updSlot_does rfl ?_
      assumption

theorem readMirrors_does {a0 a1} {s} :
    Does [.slate] s (readMirrors a0 a1 s) := by
  refine Does.also (t := s) Does.refl (fun h0 => ?_)
  unfold readMirrors
  refine Does.then updStack_does rfl ?_
  assumption

theorem mountAll_does {a0 a1} {s} :
    Does [.ready, .cnt, .host, .err, .slate, .models, .maint, .out] s (mountAll a0 a1 s) := by
  refine Does.also (t := s) Does.refl (fun h0 => ?_)
  unfold mountAll
  extract_lets +onlyGivenNames y0
  refine Does.also (t := y0) ?_ (fun hy0 => ?_)
  · subst y0
    refine forUpto_does ?_ (fun a1 z2 hz3 => ?_)
    · assumption
    · refine Does.then readMirrors_does rfl ?_
      assumption
  clear_value y0
  revert y0
  refine Does.intro ?_
  intro y0 hy0
  extract_lets +onlyGivenNames y4
  extract_lets +onlyGivenNames y5
  refine Does.also (t := y5) ?_ (fun hy5 => ?_)
  · subst y5
    refine forUpto_does ?_ (fun a7 z8 hz9 => ?_)
    · assumption
    · extract_lets +onlyGivenNames y10
      refine Does.also (t := y10) ?_ (fun hy10 => ?_)
      · subst y10
        refine Does.then mountStack_does rfl ?_
        assumption
      clear_value y10
      revert y10
      refine Does.intro ?_
      intro y10 hy10
      extract_lets +onlyGivenNames y11
      refine Does.then setStackFatal_does rfl ?_
      refine Does.then setStackReady_does rfl ?_
      refine Does.ite ?_ ?_
      · refine Does.then deviceJob_does rfl ?_
        assumption
      · assumption
  clear_value y5
  revert y5
  refine Does.intro ?_
  intro y5 hy5
  extract_lets +onlyGivenNames y12
  refine Does.also (t := y12) ?_ (fun hy12 => ?_)
  · subst y12
    refine forEach_does ?_ (fun a13 z14 hz15 => ?_)
    · assumption
    · refine Does.then resolveSlot_does rfl ?_
      assumption
  clear_value y12
  revert y12
  refine Does.intro ?_
  intro y12 hy12
  extract_lets +onlyGivenNames y16
  extract_lets +onlyGivenNames y17
  refine Does.also (t := y17) ?_ (fun hy17 => ?_)
  · subst y17
    refine Does.set_models rfl _ ?_
    assumption
  clear_value y17
  revert y17
  refine Does.intro ?_
  intro y17 hy17
  extract_lets +onlyGivenNames y18
  refine Does.set_err rfl _ ?_ ?_
  · exact fun h => h
  assumption

theorem resumeLoss_does {s} :
    Does [.spar] s (resumeLoss s) := by
  refine Does.also (t := s) Does.refl (fun h0 => ?_)
  unfold resumeLoss
  extract_lets +onlyGivenNames y0
  refine Does.ite ?_ ?_
  · assumption
  · refine Does.set_spar rfl _ ?_
    assumption

theorem bootChecks_does {a0} {s} :
    Does [.cnt, .host, .err, .slate, .models, .spar, .maint, .out] s (bootChecks a0 s) := by
  refine Does.also (t := s) Does.refl (fun h0 => ?_)
  unfold bootChecks
  extract_lets +onlyGivenNames y0
  extract_lets +onlyGivenNames y1
  refine Does.also (t := y1) ?_ (fun hy1 => ?_)
  · subst y1
    refine Does.ite ?_ ?_
    · refine forEach_does ?_ (fun a2 z3 hz4 => ?_)
      · assumption
      · refine Does.then loopbackFails_does rfl ?_
        assumption
    · assumption
  clear_value y1
  revert y1
  refine Does.intro ?_
  intro y1 hy1
  refine Does.ite ?_ ?_
  · refine Does.then failSenses_does rfl ?_
    assumption
  · assumption

theorem bringUp_does {a0 a1} {s} :
    Does [.ready, .cnt, .host, .pwr, .err, .slate, .models, .spar, .sec, .maint, .out] s (bringUp a0 a1 s) := by
  refine Does.also (t := s) Does.refl (fun h0 => ?_)
  unfold bringUp
  extract_lets +onlyGivenNames y0
  extract_lets +onlyGivenNames y1
  extract_lets +onlyGivenNames y2
  extract_lets +onlyGivenNames y3
  refine Does.also (t := y3) ?_ (fun hy3 => ?_)
  · subst y3
    refine Does.set_ready_sec rfl _ _ ?_ ?_ ?_ ?_ ?_
    · exact Nat.le_refl _
    · exact Nat.le_refl _
    · exact Nat.le_refl _
    · exact Nat.le_refl _
    assumption
  clear_value y3
  revert y3
  refine Does.intro ?_
  intro y3 hy3
  extract_lets +onlyGivenNames y4
  refine Does.also (t := y4) ?_ (fun hy4 => ?_)
  · subst y4
    refine Does.then mountAll_does rfl ?_
    refine Does.ite ?_ ?_
    · refine Does.then trainPorts_does rfl ?_
      assumption
    · assumption
  clear_value y4
  revert y4
  refine Does.intro ?_
  intro y4 hy4
  refine Does.then retarget_does rfl ?_
  refine Does.then resumeLoss_does rfl ?_
  refine Does.ite ?_ ?_
  · refine Does.then bootChecks_does rfl ?_
    assumption
  · assumption

theorem startFirmware_does {a0 a1} {s} :
    Does [.ready, .cnt, .host, .pwr, .err, .slate, .tiers, .models, .spar, .sec, .maint, .out] s (startFirmware a0 a1 s) := by
  refine Does.also (t := s) Does.refl (fun h0 => ?_)
  unfold startFirmware
  extract_lets +onlyGivenNames y0
  extract_lets +onlyGivenNames y1
  extract_lets +onlyGivenNames y2
  refine Does.also (t := y2) ?_ (fun hy2 => ?_)
  · subst y2
    refine Does.set_sec rfl _ ?_ ?_ ?_ ?_ ?_
    · exact Nat.le_max_left _ _
    · exact Nat.le_refl _
    · exact Nat.le_refl _
    · exact Nat.le_refl _
    assumption
  clear_value y2
  revert y2
  refine Does.intro ?_
  intro y2 hy2
  extract_lets +onlyGivenNames y3
  refine Does.also (t := y3) ?_ (fun hy3 => ?_)
  · subst y3
    refine Does.ite ?_ ?_
    · refine Does.then trainBoard_does rfl ?_
      assumption
    · assumption
  clear_value y3
  revert y3
  refine Does.intro ?_
  intro y3 hy3
  refine Does.ite ?_ ?_
  · refine Does.then bringUp_does rfl ?_
    assumption
  · assumption

theorem startRecovery_does {s} :
    Does [.ready, .sec] s (startRecovery s) := by
  refine Does.also (t := s) Does.refl (fun h0 => ?_)
  unfold startRecovery
  extract_lets +onlyGivenNames y0
  extract_lets +onlyGivenNames y1
  refine Does.set_ready_sec rfl _ _ ?_ ?_ ?_ ?_ ?_
  · exact Nat.le_refl _
  · exact Nat.le_refl _
  · exact Nat.le_refl _
  · exact Nat.le_refl _
  assumption

theorem bedrock_does {a0 a1 a2 a3 a4} {s} :
    Does [.ready, .cnt, .host, .pwr, .err, .slate, .arrs, .exclStored, .tiers, .models, .spar, .sec, .flash, .maint, .out, .free] s (bedrock a0 a1 a2 a3 a4 s) := by
  refine Does.also (t := s) Does.refl (fun h0 => ?_)
  unfold bedrock
  extract_lets +onlyGivenNames y0
  extract_lets +onlyGivenNames y1
  extract_lets +onlyGivenNames y2
  extract_lets +onlyGivenNames y3
  extract_lets +onlyGivenNames y4
  refine Does.also (t := y4) ?_ (fun hy4 => ?_)
  · subst y4
    refine Does.set_pwr_spar_sec rfl _ _ _ ?_ ?_ ?_ ?_ ?_
    · exact Nat.le_refl _
    · exact Nat.le_refl _
    · exact Nat.le_refl _
    · exact Nat.le_refl _
    assumption
  clear_value y4
  revert y4
  refine Does.intro ?_
  intro y4 hy4
  extract_lets +onlyGivenNames y5
  refine Does.also (t := y5) ?_ (fun hy5 => ?_)
  · subst y5
    refine Does.then loadMasks_does rfl ?_
    refine Does.ite ?_ ?_
    · refine Does.then bootBist_does rfl ?_
      refine Does.then placeKept_does rfl ?_
      assumption
    · refine Does.then placeKept_does rfl ?_
      assumption
  clear_value y5
  revert y5
  refine Does.intro ?_
  intro y5 hy5
  extract_lets +onlyGivenNames y6
  extract_lets +onlyGivenNames y7
  refine Does.also (t := y7.2) ?_ (fun hy7 => ?_)
  · refine Does.ofSnd ?_
    subst y7
    refine Does.then chooseImage_does rfl ?_
    refine Does.then redrawFlash_does rfl ?_
    assumption
  clear_value y7
  revert y7
  refine Does.intro2 ?_
  intro y7 hy7
  refine Does.ite ?_ ?_
  · refine Does.then startRecovery_does rfl ?_
    refine Does.set_sec rfl _ ?_ ?_ ?_ ?_ ?_
    · exact Nat.le_refl _
    · exact Nat.le_refl _
    · exact Nat.le_refl _
    · exact Nat.le_refl _
    assumption
  · refine Does.ite ?_ ?_
    · refine Does.then startFirmware_does rfl ?_
      assumption
    · refine Does.then startRecovery_does rfl ?_
      assumption

theorem coldBoot_does {a0 a1} {s} :
    Does [.ready, .fmtSticky, .cnt, .ram, .ramUndef, .mgmt, .mbx, .host, .tbu, .pwr, .err, .slate, .plans, .arrs, .exclStored, .norm, .normSum, .taint, .tiers, .models, .codec, .spar, .sec, .flash, .maint, .out, .free] s (coldBoot a0 a1 s) := by
  refine Does.also (t := s) Does.refl (fun h0 => ?_)
  unfold coldBoot
  extract_lets +onlyGivenNames y0
  refine Does.also (t := y0) ?_ (fun hy0 => ?_)
  · subst y0
    refine Does.then loseCold_does rfl ?_
    assumption
  clear_value y0
  revert y0
  refine Does.intro ?_
  intro y0 hy0
  extract_lets +onlyGivenNames y1
  extract_lets +onlyGivenNames y2
  refine Does.also (t := y2) ?_ (fun hy2 => ?_)
  · subst y2
    refine Does.set_pwr rfl _ ?_
    assumption
  clear_value y2
  revert y2
  refine Does.intro ?_
  intro y2 hy2
  extract_lets +onlyGivenNames y3
  refine Does.ite ?_ ?_
  · refine Does.then emit_does rfl ?_
    refine Does.set_pwr rfl _ ?_
    assumption
  · refine Does.then bedrock_does rfl ?_
    assumption

theorem warmBoot_does {a0 a1 a2 a3} {s} :
    Does [.ready, .fmtSticky, .cnt, .ram, .ramUndef, .mgmt, .mbx, .host, .pwr, .err, .slate, .plans, .arrs, .exclStored, .norm, .normSum, .taint, .tiers, .models, .codec, .spar, .sec, .flash, .maint, .out, .free] s (warmBoot a0 a1 a2 a3 s) := by
  refine Does.also (t := s) Does.refl (fun h0 => ?_)
  unfold warmBoot
  extract_lets +onlyGivenNames y0
  refine Does.also (t := y0) ?_ (fun hy0 => ?_)
  · subst y0
    refine Does.then loseVolatile_does rfl ?_
    assumption
  clear_value y0
  revert y0
  refine Does.intro ?_
  intro y0 hy0
  extract_lets +onlyGivenNames y1
  extract_lets +onlyGivenNames y2
  extract_lets +onlyGivenNames y3
  refine Does.also (t := y3) ?_ (fun hy3 => ?_)
  · subst y3
    refine Does.set_pwr_spar rfl _ _ ?_
    assumption
  clear_value y3
  revert y3
  refine Does.intro ?_
  intro y3 hy3
  refine Does.then bedrock_does rfl ?_
  assumption

theorem execPowerOnReset_does {a0} {s} {t} (h : (execPowerOnReset a0 s) = .next t) :
    Does [.ready, .fmtSticky, .cnt, .ram, .ramUndef, .mgmt, .mbx, .host, .tbu, .pwr, .err, .slate, .plans, .arrs, .exclStored, .norm, .normSum, .taint, .tiers, .models, .codec, .spar, .sec, .flash, .maint, .out, .free] s t := by
  refine Does.also (t := s) Does.refl (fun h0 => ?_)
  unfold execPowerOnReset at h
  obtain rfl := Host.Outcome.next.inj h
  clear h
  refine Does.then coldBoot_does rfl ?_
  assumption

theorem execPerstN_does {a0 a1} {s} {t} (h : (execPerstN a0 a1 s) = .next t) :
    Does [.ready, .fmtSticky, .cnt, .ram, .ramUndef, .mgmt, .mbx, .host, .tbu, .pwr, .err, .slate, .plans, .arrs, .exclStored, .norm, .normSum, .taint, .tiers, .models, .codec, .spar, .sec, .flash, .maint, .out, .free] s t := by
  refine Does.also (t := s) Does.refl (fun h0 => ?_)
  unfold execPerstN at h
  obtain rfl := Host.Outcome.next.inj h
  clear h
  refine Does.ite ?_ ?_
  · assumption
  · refine Does.then coldBoot_does rfl ?_
    assumption

theorem execFlr_does {s} {t} (h : (execFlr s) = .next t) :
    Does [.fmtSticky, .cnt, .ram, .ramUndef, .mbx, .host, .plans, .taint, .tiers, .models, .codec, .spar, .out] s t := by
  refine Does.also (t := s) Does.refl (fun h0 => ?_)
  unfold execFlr at h
  obtain rfl := Host.Outcome.next.inj h
  clear h
  extract_lets +onlyGivenNames gone
  clear_value gone
  extract_lets +onlyGivenNames y0
  refine Does.also (t := y0) ?_ (fun hy0 => ?_)
  · subst y0
    refine forUpto_does ?_ (fun a1 z2 hz3 => ?_)
    · assumption
    · refine Does.ite ?_ ?_
      · refine Does.then disablePair_does rfl ?_
        assumption
      · assumption
  clear_value y0
  revert y0
  refine Does.intro ?_
  intro y0 hy0
  extract_lets +onlyGivenNames y4
  refine Does.also (t := y4) ?_ (fun hy4 => ?_)
  · subst y4
    refine forEach_does ?_ (fun a5 z6 hz7 => ?_)
    · assumption
    · refine Does.then closeStream_does rfl ?_
      assumption
  clear_value y4
  revert y4
  refine Does.intro ?_
  intro y4 hy4
  extract_lets +onlyGivenNames y8
  refine Does.also (t := y8) ?_ (fun hy8 => ?_)
  · subst y8
    refine forEach_does ?_ (fun a9 z10 hz11 => ?_)
    · assumption
    · refine Does.then endTune_does rfl ?_
      assumption
  clear_value y8
  revert y8
  refine Does.intro ?_
  intro y8 hy8
  extract_lets +onlyGivenNames y12
  extract_lets +onlyGivenNames y13
  exact Does.set_mbx_host_plans rfl _ _ _ hy8

theorem activate_does {a0} {s} :
    Does [.ready, .fmtSticky, .cnt, .ram, .ramUndef, .mgmt, .mbx, .host, .pwr, .err, .slate, .plans, .arrs, .exclStored, .norm, .normSum, .taint, .tiers, .models, .codec, .spar, .sec, .flash, .maint, .out, .free] s (activate a0 s) := by
  refine Does.also (t := s) Does.refl (fun h0 => ?_)
  unfold activate
  extract_lets +onlyGivenNames y0
  extract_lets +onlyGivenNames y1
  refine Does.also (t := y1) ?_ (fun hy1 => ?_)
  · subst y1
    refine forEach_does ?_ (fun a2 z3 hz4 => ?_)
    · assumption
    · refine Does.then abortHeld_does rfl ?_
      assumption
  clear_value y1
  revert y1
  refine Does.intro ?_
  intro y1 hy1
  extract_lets +onlyGivenNames y5
  refine Does.also (t := y5) ?_ (fun hy5 => ?_)
  · subst y5
    refine Does.ite ?_ ?_
    · assumption
    · refine forEach_does ?_ (fun a6 z7 hz8 => ?_)
      · assumption
      · refine Does.then finish_does rfl ?_
        assumption
  clear_value y5
  revert y5
  refine Does.intro ?_
  intro y5 hy5
  extract_lets +onlyGivenNames y9
  extract_lets +onlyGivenNames y10
  extract_lets +onlyGivenNames y11
  extract_lets +onlyGivenNames y12
  refine Does.then warmBoot_does rfl ?_
  refine Does.set_spar_sec rfl _ _ ?_ ?_ ?_ ?_ ?_
  · exact Nat.le_refl _
  · exact Nat.le_refl _
  · exact Nat.le_refl _
  · exact Nat.le_refl _
  assumption

theorem execActivation_does {a0 a1} {s} {t} (h : (execActivation a0 a1 s) = .next t) :
    Does [.ready, .fmtSticky, .cnt, .ram, .ramUndef, .mgmt, .mbx, .host, .tbu, .pwr, .err, .slate, .plans, .arrs, .exclStored, .norm, .normSum, .taint, .tiers, .models, .codec, .spar, .sec, .flash, .maint, .out, .free] s t := by
  refine Does.also (t := s) Does.refl (fun h0 => ?_)
  unfold execActivation at h
  obtain rfl := Host.Outcome.next.inj h
  clear h
  extract_lets +onlyGivenNames y0
  refine Does.also (t := y0) ?_ (fun hy0 => ?_)
  · subst y0
    refine Does.then reachTime_does rfl ?_
    assumption
  clear_value y0
  revert y0
  refine Does.intro ?_
  intro y0 hy0
  extract_lets +onlyGivenNames y1
  split
  · rename_i x2 x3
    assumption
  · rename_i x4 x5 x6
    refine Does.ite ?_ ?_
    · assumption
    · refine Does.ite ?_ ?_
      · refine Does.set_sec rfl _ ?_ ?_ ?_ ?_ ?_
        · exact Nat.le_refl _
        · exact Nat.le_refl _
        · exact Nat.le_refl _
        · exact Nat.le_refl _
        assumption
      · refine Does.ite ?_ ?_
        · refine Does.then activate_does rfl ?_
          assumption
        · assumption

theorem watchdogRestart_does {a0} {s} :
    Does [.ready, .fmtSticky, .cnt, .ram, .ramUndef, .mgmt, .mbx, .host, .pwr, .err, .slate, .plans, .arrs, .exclStored, .norm, .normSum, .taint, .tiers, .models, .codec, .spar, .sec, .flash, .maint, .out, .free] s (watchdogRestart a0 s) := by
  refine Does.also (t := s) Does.refl (fun h0 => ?_)
  unfold watchdogRestart
  extract_lets +onlyGivenNames y0
  refine Does.ite ?_ ?_
  · refine Does.then warmBoot_does rfl ?_
    refine Does.set_sec rfl _ ?_ ?_ ?_ ?_ ?_
    · exact Nat.le_refl _
    · exact Nat.le_refl _
    · exact Nat.le_refl _
    · exact Nat.le_refl _
    assumption
  · assumption

theorem execBootWatchdog_does {a0} {s} {t} (h : (execBootWatchdog a0 s) = .next t) :
    Does [.ready, .fmtSticky, .cnt, .ram, .ramUndef, .mgmt, .mbx, .host, .pwr, .err, .slate, .plans, .arrs, .exclStored, .norm, .normSum, .taint, .tiers, .models, .codec, .spar, .sec, .flash, .maint, .out, .free] s t := by
  refine Does.also (t := s) Does.refl (fun h0 => ?_)
  unfold execBootWatchdog at h
  obtain rfl := Host.Outcome.next.inj h
  clear h
  refine Does.then watchdogRestart_does rfl ?_
  assumption

theorem recoveryRestart_does {a0} {s} :
    Does [.ready, .fmtSticky, .cnt, .ram, .ramUndef, .mgmt, .mbx, .host, .pwr, .err, .slate, .plans, .arrs, .exclStored, .norm, .normSum, .taint, .tiers, .models, .codec, .spar, .sec, .flash, .maint, .out, .free] s (recoveryRestart a0 s) := by
  refine Does.also (t := s) Does.refl (fun h0 => ?_)
  unfold recoveryRestart
  refine Does.ite ?_ ?_
  · refine Does.then warmBoot_does rfl ?_
    assumption
  · assumption

theorem execWarmRestart_does {a0 a1} {s t} (h : execWarmRestart a0 a1 s = .next t) : Does [.ready, .fmtSticky, .cnt, .ram, .ramUndef, .mgmt, .mbx, .host, .tbu, .pwr, .err, .slate, .plans, .arrs, .exclStored, .norm, .normSum, .taint, .tiers, .models, .codec, .spar, .sec, .flash, .maint, .out, .free] s t := by
  unfold execWarmRestart at h
  split at h
  · split at h
    · obtain rfl := Host.Outcome.next.inj h; exact Does.refl
    · exact (execActivation_does h).mono rfl
  · obtain rfl := Host.Outcome.next.inj h; exact recoveryRestart_does.mono rfl
  · split at h
    · exact (execActivation_does h).mono rfl
    · obtain rfl := Host.Outcome.next.inj h; exact Does.refl
  · obtain rfl := Host.Outcome.next.inj h; exact watchdogRestart_does.mono rfl

theorem execActivationReturnTimeout_does {a0 a1} {s} {t} (h : (execActivationReturnTimeout a0 a1 s) = .next t) :
    Does [.fmtSticky, .cnt, .ram, .ramUndef, .mbx, .host, .tbu, .err, .slate, .plans, .arrs, .exclStored, .norm, .normSum, .taint, .tiers, .models, .codec, .spar, .sec, .maint, .out, .free] s t := by
  refine Does.also (t := s) Does.refl (fun h0 => ?_)
  unfold execActivationReturnTimeout at h
  obtain rfl := Host.Outcome.next.inj h
  clear h
  extract_lets +onlyGivenNames y0
  refine Does.also (t := y0) ?_ (fun hy0 => ?_)
  · subst y0
    refine Does.then reachTime_does rfl ?_
    assumption
  clear_value y0
  revert y0
  refine Does.intro ?_
  intro y0 hy0
  split
  · rename_i x1 x2
    assumption
  · rename_i x3 x4 x5
    refine Does.ite ?_ ?_
    · assumption
    · refine Does.ite ?_ ?_
      · split
        · rename_i x6 x7 x8
          refine Does.ite ?_ ?_
          · refine Does.then loseMember_does rfl ?_
            assumption
          · assumption
        · rename_i x9 x10
          assumption
      · refine Does.ite ?_ ?_
        · refine Does.ite ?_ ?_
          · refine Does.then orphan_does rfl ?_
            assumption
          · assumption
        · assumption

theorem logRefused_does {s} :
    Does [.cnt, .host, .pwr, .err, .out] s (logRefused s) := by
  refine Does.also (t := s) Does.refl (fun h0 => ?_)
  unfold logRefused
  extract_lets +onlyGivenNames y0
  refine forEach_does ?_ (fun a1 z2 hz3 => ?_)
  · refine Does.set_pwr rfl _ ?_
    assumption
  · refine Does.then hostAccess_does rfl ?_
    assumption

theorem raiseReady_does {a0} {s} :
    Does [.ready] s (raiseReady a0 s) := by
  refine Does.also (t := s) Does.refl (fun h0 => ?_)
  unfold raiseReady
  extract_lets +onlyGivenNames y0
  extract_lets +onlyGivenNames y1
  refine Does.set_ready rfl _ ?_
  assumption

theorem startDue_does {s} :
    Does [.pwr, .slate, .maint] s (startDue s) := by
  refine Does.also (t := s) Does.refl (fun h0 => ?_)
  unfold startDue
  extract_lets +onlyGivenNames y0
  refine forEach_does ?_ (fun a1 z2 hz3 => ?_)
  · refine Does.set_pwr rfl _ ?_
    assumption
  · refine Does.ite ?_ ?_
    · refine Does.then startCkpt_does rfl ?_
      assumption
    · refine Does.then deviceJob_does rfl ?_
      assumption

theorem completeAccess_does {a0} {s} :
    Does [.fmtSticky, .cnt, .ram, .ramUndef, .mbx, .host, .tbu, .err, .slate, .plans, .taint, .tiers, .models, .spar, .sec, .out] s (completeAccess a0 s) := by
  refine Does.also (t := s) Does.refl (fun h0 => ?_)
  unfold completeAccess
  split
  · rename_i x0 x1 x2 x3
    refine Does.then barWrite_does rfl ?_
    assumption
  · rename_i x4 x5 x6 x7 x8
    refine Does.then bar2Access_does rfl ?_
    assumption
  · rename_i x9 x10 x11
    refine Does.then poisonedWrite_does rfl ?_
    assumption
  · rename_i x12
    refine Does.then timeRead_does rfl ?_
    assumption

theorem endWake_does {s} :
    Does [.fmtSticky, .cnt, .ram, .ramUndef, .mbx, .host, .tbu, .pwr, .err, .slate, .plans, .taint, .tiers, .models, .spar, .sec, .maint, .out] s (endWake s) := by
  refine Does.also (t := s) Does.refl (fun h0 => ?_)
  unfold endWake
  extract_lets +onlyGivenNames y0
  extract_lets +onlyGivenNames y1
  extract_lets +onlyGivenNames y2
  refine forEach_does ?_ (fun a3 z4 hz5 => ?_)
  · refine Does.then startDue_does rfl ?_
    refine Does.then logRefused_does rfl ?_
    refine Does.set_mbx_pwr rfl _ _ ?_
    assumption
  · refine Does.then completeAccess_does rfl ?_
    assumption

theorem execWakeExit_does {a0} {s} {t} (h : (execWakeExit a0 s) = .next t) :
    Does [.ready, .fmtSticky, .cnt, .ram, .ramUndef, .mbx, .host, .tbu, .pwr, .err, .slate, .plans, .taint, .tiers, .models, .spar, .sec, .maint, .out] s t := by
  refine Does.also (t := s) Does.refl (fun h0 => ?_)
  unfold execWakeExit at h
  obtain rfl := Host.Outcome.next.inj h
  clear h
  extract_lets +onlyGivenNames y0
  extract_lets +onlyGivenNames y1
  refine Does.also (t := y1) ?_ (fun hy1 => ?_)
  · subst y1
    refine Does.then raiseReady_does rfl ?_
    refine Does.set_pwr rfl _ ?_
    assumption
  clear_value y1
  revert y1
  refine Does.intro ?_
  intro y1 hy1
  extract_lets +onlyGivenNames y2
  refine Does.also (t := y2) ?_ (fun hy2 => ?_)
  · subst y2
    refine Does.ite ?_ ?_
    · refine Does.then trainPorts_does rfl ?_
      assumption
    · assumption
  clear_value y2
  revert y2
  refine Does.intro ?_
  intro y2 hy2
  refine Does.ite ?_ ?_
  · refine Does.ite ?_ ?_
    · refine Does.then endWake_does rfl ?_
      assumption
    · assumption
  · assumption

end Sys2Proof.Laws
end

