-- ==== Sys2Proof/Laws/Cmd.lean ====
section
/-! SUPPORT. Sys2Proof/Laws/Cmd.lean: what an Iarik command's row answers when the command may start. -/

namespace Sys2Proof.Safety

open Sys2Proof Sys2Proof.Machine

/-- A command that a row starts came from a queue of this device. -/
theorem Starts.host {s : State} {r : CmdRef} {op : Nat} {c : Cmd} (h : Starts s r op c) : c.origin = .host r.q := by
  have := List.find?_some h.found; simp at this; exact this.1.1.1.1.1

/-- It comes from this device's own queues. -/
theorem Starts.own {s : State} {r : CmdRef} {op : Nat} {c : Cmd} (h : Starts s r op c) : c.fromHost = true := by
  simp [Cmd.fromHost, Starts.host h]

end Sys2Proof.Safety

namespace Sys2Proof.Laws

open Sys2Proof Sys2Proof.Machine Sys2Proof.Safety

/-- A command whose body ends it is finished with that status and result. -/
theorem iarik_done {op : Nat} {r : CmdRef} {pay : BusRead} {body : Cmd → State → Reply} {s : State} {c : Cmd} {st : Status}
    {res : Nat} {t : State} (h : Starts s r op c) (hb : body c s = .done st res t) :
    iarik op r pay body s = finish c.id st res t := by
  simp only [iarik, h.found, h.role, h.here, h.mine, carryOut, hb, Bool.false_eq_true, if_false]

/-- A command whose body begins it is marked running. -/
theorem iarik_running {op : Nat} {r : CmdRef} {pay : BusRead} {body : Cmd → State → Reply} {s : State} {c : Cmd} {t : State}
    (h : Starts s r op c) (hb : body c s = .running t) : iarik op r pay body s = setRunning c.id t := by
  simp only [iarik, h.found, h.role, h.here, h.mine, carryOut, hb, Bool.false_eq_true, if_false]

/-- A row that is one operation of an opcode is the whole row where the operation field says so. -/
theorem iarikIf_eq {op : Nat} {r : CmdRef} {sel : Cmd → Bool} {body : Cmd → State → Reply} {s : State} {c : Cmd}
    (h : Starts s r op c) (hs : sel c = true) : iarikIf op r sel body s = iarik op r none body s := by
  simp only [iarikIf, h.found, hs, if_true]

/-- No check fails where each of them passes. -/
theorem firstFail_none {l : List (Bool × Status)} (h : ∀ p ∈ l, p.1 = false) : firstFail l = none := by
  simp only [firstFail, Option.map_eq_none_iff, List.find?_eq_none]
  intro p hp; simp [h p hp]

/-- The checks pass: the command is carried out. -/
theorem checked_pass {c : Cmd} {l : List (Bool × Status)} {s : State} {k : Reply} (hh : c.headReserved = false)
    (h : ∀ p ∈ l, p.1 = false) : checked c false l s k = k := by
  have : firstFail ((false, Status.unsupported) :: (c.headReserved, Status.badField) :: l) = none := by
    apply firstFail_none; intro p hp
    rcases List.mem_cons.mp hp with rfl | hp
    · rfl
    rcases List.mem_cons.mp hp with rfl | hp
    · exact hh
    · exact h p hp
  simp only [checked, this]

/-- The body of a command that passes its checks and ends at once. -/
theorem iarik_checked_done {op : Nat} {r : CmdRef} {pay : BusRead} {body : Cmd → State → Reply} {s : State} {c : Cmd} {st : Status}
    {res : Nat} {t : State} {l : List (Bool × Status)} (h : Starts s r op c) (hb : body c s = checked c false l s (.done st res t))
    (hl : ∀ p ∈ l, p.1 = false) : iarik op r pay body s = finish c.id st res t :=
  iarik_done h (hb.trans (checked_pass h.head hl))

/-- An engine's row carries its word out where the engine stands at a sound word of that opcode. -/
theorem withWord_at {s : State} {e : EngineId} {op : Nat} {x : At} (h : AtWord s e op x) (k : At → State → State) :
    withWord e op k s = k x s := by
  simp only [withWord, h.stands, h.sound, h.isOp, Bool.not_true, Bool.false_eq_true, if_false, if_true]

end Sys2Proof.Laws
end

