-- ==== Sys2Proof/Laws/Sideband.lean ====
section
/-! SUPPORT. Sys2Proof/Laws/Sideband.lean: what each operation and meaning of Machine/Sideband.lean can do, as `Does` says it: which blocks of
the state it may change, that it keeps the invariant, and that it lowers nothing that only rises. -/

namespace Sys2Proof.Laws

open Sys2Proof.Machine Sys2Proof.Safety

theorem execSmbusTelemetryRequest_does {s} {t} (h : (execSmbusTelemetryRequest s) = .next t) :
    Does [.out] s t := by
  refine Does.also (t := s) Does.refl (fun h0 => ?_)
  unfold execSmbusTelemetryRequest at h
  obtain rfl := Host.Outcome.next.inj h
  clear h
  refine Does.ite ?_ ?_
  · refine Does.then emit_does rfl ?_
    assumption
  · assumption

theorem execSmbusRecoveryRequest_does {a0} {s} {t} (h : (execSmbusRecoveryRequest a0 s) = .next t) :
    Does [.ready, .fmtSticky, .cnt, .ram, .ramUndef, .mgmt, .mbx, .host, .pwr, .err, .slate, .plans, .arrs, .exclStored, .norm, .normSum, .taint, .tiers, .models, .codec, .spar, .sec, .flash, .maint, .out, .free] s t := by
  refine Does.also (t := s) Does.refl (fun h0 => ?_)
  unfold execSmbusRecoveryRequest at h
  obtain rfl := Host.Outcome.next.inj h
  clear h
  extract_lets +onlyGivenNames y0
  refine Does.also (t := y0) ?_ (fun hy0 => ?_)
  · subst y0
    refine Does.then haltAll_does rfl ?_
    refine Does.then wakeEvent_does rfl ?_
    assumption
  clear_value y0
  revert y0
  refine Does.intro ?_
  intro y0 hy0
  extract_lets +onlyGivenNames y1
  refine Does.ite ?_ ?_
  · assumption
  · refine Does.ite ?_ ?_
    · refine Does.then emit_does rfl ?_
      assumption
    · refine Does.then recoveryRestart_does rfl ?_
      refine Does.then emit_does rfl ?_
      refine Does.set_sec rfl _ ?_ ?_ ?_ ?_ ?_
      · exact Nat.le_refl _
      · exact Nat.le_refl _
      · exact Nat.le_refl _
      · exact Nat.le_refl _
      assumption

theorem execMctpControlMessage_does {a0} {s} {t} (h : (execMctpControlMessage a0 s) = .next t) :
    Does [.pwr, .out] s t := by
  refine Does.also (t := s) Does.refl (fun h0 => ?_)
  unfold execMctpControlMessage at h
  obtain rfl := Host.Outcome.next.inj h
  clear h
  refine Does.ite ?_ ?_
  · refine Does.then emit_does rfl ?_
    refine Does.then wakeEvent_does rfl ?_
    assumption
  · assumption

theorem execSmbusAddressMatch_does {a0 a1} {s} {t} (h : (execSmbusAddressMatch a0 a1 s) = .next t) :
    Does [.pwr, .out] s t := by
  refine Does.also (t := s) Does.refl (fun h0 => ?_)
  unfold execSmbusAddressMatch at h
  obtain rfl := Host.Outcome.next.inj h
  clear h
  refine Does.ite ?_ ?_
  · refine Does.then emit_does rfl ?_
    assumption
  · refine Does.ite ?_ ?_
    · assumption
    · refine Does.ite ?_ ?_
      · refine Does.then emit_does rfl ?_
        refine Does.ite ?_ ?_
        · assumption
        · refine Does.then wakeEvent_does rfl ?_
          assumption
      · refine Does.ite ?_ ?_
        · refine Does.then emit_does rfl ?_
          assumption
        · assumption

theorem updSpdm_does {a0 a1} {s} :
    Does [.sec] s (updSpdm a0 a1 s) := by
  refine Does.also (t := s) Does.refl (fun h0 => ?_)
  unfold updSpdm
  extract_lets +onlyGivenNames y0
  split
  · rename_i x1
    refine Does.set_sec rfl _ ?_ ?_ ?_ ?_ ?_
    · exact Nat.le_refl _
    · exact Nat.le_refl _
    · exact Nat.le_refl _
    · exact Nat.le_refl _
    assumption
  · rename_i x2
    refine Does.set_sec rfl _ ?_ ?_ ?_ ?_ ?_
    · exact Nat.le_refl _
    · exact Nat.le_refl _
    · exact Nat.le_refl _
    · exact Nat.le_refl _
    assumption

theorem answerSpdm_does {a0 a1 a2 a3 a4 a5} {s} :
    Does [.pwr, .sec, .out] s (answerSpdm a0 a1 a2 a3 a4 a5 s) := by
  refine Does.also (t := s) Does.refl (fun h0 => ?_)
  unfold answerSpdm
  extract_lets +onlyGivenNames y0
  refine Does.also (t := y0) ?_ (fun hy0 => ?_)
  · subst y0
    refine Does.ite ?_ ?_
    · refine Does.then wakeEvent_does rfl ?_
      assumption
    · assumption
  clear_value y0
  revert y0
  refine Does.intro ?_
  intro y0 hy0
  extract_lets +onlyGivenNames y1
  extract_lets +onlyGivenNames y2
  extract_lets +onlyGivenNames y3
  refine Does.ite ?_ ?_
  · assumption
  · refine Does.ite ?_ ?_
    · refine Does.then emit_does rfl ?_
      assumption
    · refine Does.then emit_does rfl ?_
      refine Does.then updSpdm_does rfl ?_
      assumption

theorem signSpdm_does {a0 a1 a2 a3} {s} :
    Does [.pwr, .sec, .out, .free] s (signSpdm a0 a1 a2 a3 s) := by
  refine Does.also (t := s) Does.refl (fun h0 => ?_)
  unfold signSpdm
  extract_lets +onlyGivenNames y0
  refine Does.also (t := y0) ?_ (fun hy0 => ?_)
  · subst y0
    refine Does.ite ?_ ?_
    · refine Does.then wakeEvent_does rfl ?_
      assumption
    · assumption
  clear_value y0
  revert y0
  refine Does.intro ?_
  intro y0 hy0
  extract_lets +onlyGivenNames y1
  extract_lets +onlyGivenNames y2
  refine Does.also (t := y2.2) ?_ (fun hy2 => ?_)
  · refine Does.ofSnd ?_
    subst y2
    refine Does.then drawBytes_does rfl ?_
    assumption
  clear_value y2
  revert y2
  refine Does.intro2 ?_
  intro y2 hy2
  extract_lets +onlyGivenNames y3
  extract_lets +onlyGivenNames y4
  extract_lets +onlyGivenNames y5
  refine Does.also (t := y5) ?_ (fun hy5 => ?_)
  · subst y5
    assumption
  clear_value y5
  revert y5
  refine Does.intro ?_
  intro y5 hy5
  refine Does.ite ?_ ?_
  · assumption
  · refine Does.ite ?_ ?_
    · refine Does.then emit_does rfl ?_
      assumption
    · refine Does.then emit_does rfl ?_
      refine Does.then updSpdm_does rfl ?_
      refine Does.set_free rfl _ ?_
      assumption

theorem execGetVersion_does {a0 a1} {s} {t} (h : (execGetVersion a0 a1 s) = .next t) :
    Does [.pwr, .sec, .out] s t := by
  refine Does.also (t := s) Does.refl (fun h0 => ?_)
  unfold execGetVersion at h
  obtain rfl := Host.Outcome.next.inj h
  clear h
  refine Does.then answerSpdm_does rfl ?_
  assumption

theorem execGetCapabilities_does {a0 a1} {s} {t} (h : (execGetCapabilities a0 a1 s) = .next t) :
    Does [.pwr, .sec, .out] s t := by
  refine Does.also (t := s) Does.refl (fun h0 => ?_)
  unfold execGetCapabilities at h
  obtain rfl := Host.Outcome.next.inj h
  clear h
  refine Does.then answerSpdm_does rfl ?_
  assumption

theorem execNegotiateAlgorithms_does {a0 a1} {s} {t} (h : (execNegotiateAlgorithms a0 a1 s) = .next t) :
    Does [.pwr, .sec, .out] s t := by
  refine Does.also (t := s) Does.refl (fun h0 => ?_)
  unfold execNegotiateAlgorithms at h
  obtain rfl := Host.Outcome.next.inj h
  clear h
  refine Does.then answerSpdm_does rfl ?_
  assumption

theorem execGetDigests_does {a0 a1} {s} {t} (h : (execGetDigests a0 a1 s) = .next t) :
    Does [.pwr, .sec, .out] s t := by
  refine Does.also (t := s) Does.refl (fun h0 => ?_)
  unfold execGetDigests at h
  obtain rfl := Host.Outcome.next.inj h
  clear h
  refine Does.then answerSpdm_does rfl ?_
  assumption

theorem execGetCertificate_does {a0 a1} {s} {t} (h : (execGetCertificate a0 a1 s) = .next t) :
    Does [.pwr, .sec, .out] s t := by
  refine Does.also (t := s) Does.refl (fun h0 => ?_)
  unfold execGetCertificate at h
  obtain rfl := Host.Outcome.next.inj h
  clear h
  refine Does.then answerSpdm_does rfl ?_
  assumption

theorem execChallenge_does {a0 a1} {s} {t} (h : (execChallenge a0 a1 s) = .next t) :
    Does [.pwr, .sec, .out, .free] s t := by
  refine Does.also (t := s) Does.refl (fun h0 => ?_)
  unfold execChallenge at h
  obtain rfl := Host.Outcome.next.inj h
  clear h
  refine Does.then signSpdm_does rfl ?_
  assumption

theorem execGetMeasurements_does {a0 a1} {s} {t} (h : (execGetMeasurements a0 a1 s) = .next t) :
    Does [.pwr, .sec, .out, .free] s t := by
  refine Does.also (t := s) Does.refl (fun h0 => ?_)
  unfold execGetMeasurements at h
  obtain rfl := Host.Outcome.next.inj h
  clear h
  refine Does.then signSpdm_does rfl ?_
  assumption

theorem execJtagInstruction_does {a0} {s} {t} (h : (execJtagInstruction a0 s) = .next t) :
    Does [.sec] s t := by
  refine Does.also (t := s) Does.refl (fun h0 => ?_)
  unfold execJtagInstruction at h
  obtain rfl := Host.Outcome.next.inj h
  clear h
  extract_lets +onlyGivenNames y0
  refine Does.set_sec rfl _ ?_ ?_ ?_ ?_ ?_
  · exact Nat.le_refl _
  · exact Nat.le_refl _
  · exact Nat.le_refl _
  · exact Nat.le_refl _
  assumption

end Sys2Proof.Laws
end

