-- ==== Sys2Proof/Laws/Forward.lean ====
section
/-! SUPPORT. Sys2Proof/Laws/Forward.lean: what each operation and meaning of Machine/Forward.lean can do, as `Does` says it: which blocks of
the state it may change, that it keeps the invariant, and that it lowers nothing that only rises. -/

namespace Sys2Proof.Laws

open Sys2Proof.Machine Sys2Proof.Safety

theorem notForwarded_does {a0} {s} :
    Does [] s (replySt (notForwarded a0 s)) := by
  refine Does.also (t := s) Does.refl (fun h0 => ?_)
  unfold notForwarded
  refine checked_does ?_ ?_
  · assumption
  · refine Does.done ?_
    assumption

theorem memberBody_does {a0 a1} {s} :
    Does [.part, .fmtSticky, .cnt, .ram, .ramUndef, .mbx, .host, .tbu, .pwr, .err, .slate, .plans, .arrs, .exclStored, .norm, .normSum, .taint, .tiers, .models, .codec, .spar, .sec, .flash, .maint, .out, .free] s (replySt (memberBody a0 a1 s)) := by
  refine Does.also (t := s) Does.refl (fun h0 => ?_)
  unfold memberBody
  split
  · rename_i x0 x1
    refine checked_does ?_ ?_
    · assumption
    · refine Does.done ?_
      assumption
  · rename_i x2 x3
    refine Does.then identify_does rfl ?_
    assumption
  · rename_i x4 x5
    refine Does.then powerSet_does rfl ?_
    assumption
  · rename_i x6 x7
    refine Does.then modelCreate_does rfl ?_
    assumption
  · rename_i x8 x9
    refine Does.then modelStageBegin_does rfl ?_
    assumption
  · rename_i x10 x11
    refine Does.then modelShard_does rfl ?_
    assumption
  · rename_i x12 x13
    refine Does.then modelStageEnd_does rfl ?_
    assumption
  · rename_i x14 x15
    refine Does.then modelAbort_does rfl ?_
    assumption
  · rename_i x16 x17
    refine Does.then modelRepair_does rfl ?_
    assumption
  · rename_i x18 x19
    refine Does.iteR ?_ ?_
    · refine Does.done ?_
      assumption
    · refine Does.then modelDelete_does rfl ?_
      assumption
  · rename_i x20 x21
    refine Does.then adapterLoad_does rfl ?_
    assumption
  · rename_i x22 x23
    refine Does.then adapterDrop_does rfl ?_
    assumption
  · rename_i x24 x25
    refine Does.then planLoad_does rfl ?_
    assumption
  · rename_i x26 x27
    refine Does.then planStart_does rfl ?_
    assumption
  · rename_i x28 x29
    refine Does.then planStop_does rfl ?_
    assumption
  · rename_i x30 x31
    refine Does.iteR ?_ ?_
    · refine Does.then objectFree_does rfl ?_
      assumption
    · refine Does.then objectAlloc_does rfl ?_
      assumption
  · rename_i x32 x33
    refine Does.then objectMigrate_does rfl ?_
    assumption
  · rename_i x34 x35
    refine Does.then maintStart_does rfl ?_
    assumption
  · rename_i x36 x37
    refine Does.then maintStatus_does rfl ?_
    assumption
  · rename_i x38 x39
    refine Does.iteR ?_ ?_
    · refine Does.then groupDissolve_does rfl ?_
      assumption
    · refine Does.then notForwarded_does rfl ?_
      assumption
  · rename_i x40 x41
    refine Does.iteR ?_ ?_
    · refine Does.then groupReclaim_does rfl ?_
      assumption
    · refine Does.then groupLend_does rfl ?_
      assumption
  · rename_i x42 x43
    refine Does.then fwStage_does rfl ?_
    assumption
  · rename_i x44 x45
    refine Does.then fwDelta_does rfl ?_
    refine Does.then redrawFlash_does rfl ?_
    assumption
  · rename_i x46 x47
    refine Does.then fwVerify_does rfl ?_
    refine Does.then redrawFlash_does rfl ?_
    assumption
  · rename_i x48 x49
    refine Does.then fwActivate_does rfl ?_
    assumption
  · rename_i x50 x51
    refine Does.then attest_does rfl ?_
    assumption
  · rename_i x52 x53
    refine Does.then lifecycleSet_does rfl ?_
    assumption
  · rename_i x54 x55
    refine Does.then selftest_does rfl ?_
    assumption
  · rename_i x56 x57 x58 x59 x60 x61 x62 x63 x64 x65 x66 x67 x68 x69 x70 x71 x72 x73 x74 x75 x76 x77 x78 x79 x80 x81 x82 x83 x84
    refine Does.then notForwarded_does rfl ?_
    assumption

theorem acceptForwarded_does {a0 a1} {s} :
    Does [.mbx] s (sndSt (acceptForwarded a0 a1 s)) := by
  refine Does.also (t := s) Does.refl (fun h0 => ?_)
  unfold acceptForwarded
  extract_lets +onlyGivenNames y0
  extract_lets +onlyGivenNames y1
  refine Does.snd ?_
  refine Does.set_mbx rfl _ ?_
  assumption

theorem runForwarded_does {a0 a1 a2} {s} :
    Does [.part, .ready, .fmtSticky, .cnt, .ram, .ramUndef, .mgmt, .mbx, .host, .tbu, .pwr, .err, .slate, .plans, .arrs, .exclStored, .norm, .normSum, .taint, .tiers, .models, .codec, .spar, .sec, .flash, .maint, .out, .free] s (runForwarded a0 a1 a2 s) := by
  refine Does.also (t := s) Does.refl (fun h0 => ?_)
  unfold runForwarded
  extract_lets +onlyGivenNames y0
  refine Does.also (t := y0.2) ?_ (fun hy0 => ?_)
  · refine Does.ofSnd ?_
    subst y0
    refine Does.then acceptForwarded_does rfl ?_
    assumption
  clear_value y0
  revert y0
  refine Does.intro2 ?_
  intro y0 hy0
  extract_lets +onlyGivenNames y1
  refine Does.also (t := y1) ?_ (fun hy1 => ?_)
  · subst y1
    refine carryOut_does rfl ?_ (fun c2 z3 hz4 => ?_)
    · assumption
    · refine Does.then memberBody_does rfl ?_
      assumption
  clear_value y1
  revert y1
  refine Does.intro ?_
  intro y1 hy1
  refine Does.ite ?_ ?_
  · refine Does.then finish_does rfl ?_
    assumption
  · refine Does.ite ?_ ?_
    · refine Does.then askBlocks_does rfl ?_
      assumption
    · assumption

theorem execForwardedCommand_does {a0 a1 a2} {s} {t} (h : (execForwardedCommand a0 a1 a2 s) = .next t) :
    Does [.part, .ready, .fmtSticky, .cnt, .ram, .ramUndef, .mgmt, .mbx, .host, .tbu, .pwr, .err, .slate, .plans, .arrs, .exclStored, .norm, .normSum, .taint, .tiers, .models, .codec, .spar, .sec, .flash, .maint, .out, .free] s t := by
  refine Does.also (t := s) Does.refl (fun h0 => ?_)
  unfold execForwardedCommand at h
  obtain rfl := Host.Outcome.next.inj h
  clear h
  refine Does.ite ?_ ?_
  · assumption
  · refine Does.then runForwarded_does rfl ?_
    refine Does.then wakeEvent_does rfl ?_
    assumption

theorem putMember_does {a0 a1} {s} :
    Does [.ram, .ramUndef, .taint, .tiers, .spar, .out] s (putMember a0 a1 s) := by
  refine Does.also (t := s) Does.refl (fun h0 => ?_)
  unfold putMember
  refine Does.ite ?_ ?_
  · refine Does.then putOut_does rfl ?_
    assumption
  · refine Does.then putPay_does rfl ?_
    assumption

theorem noteLend_does {a0 a1 a2} {s} :
    Does [.tiers] s (noteLend a0 a1 a2 s) := by
  refine Does.also (t := s) Does.refl (fun h0 => ?_)
  unfold noteLend
  extract_lets +onlyGivenNames y0
  refine Does.ite ?_ ?_
  · refine Does.set_tiers rfl _ ?_
    assumption
  · refine Does.ite ?_ ?_
    · refine Does.then addLend_does rfl ?_
      assumption
    · assumption

theorem endForwarded_does {a0 a1 a2 a3 a4} {s} :
    Does [.ram, .ramUndef, .mbx, .host, .taint, .tiers, .spar, .out] s (endForwarded a0 a1 a2 a3 a4 s) := by
  refine Does.also (t := s) Does.refl (fun h0 => ?_)
  unfold endForwarded
  extract_lets +onlyGivenNames y0
  refine Does.also (t := y0) ?_ (fun hy0 => ?_)
  · subst y0
    refine Does.then putMember_does rfl ?_
    assumption
  clear_value y0
  revert y0
  refine Does.intro ?_
  intro y0 hy0
  extract_lets +onlyGivenNames y1
  refine Does.also (t := y1) ?_ (fun hy1 => ?_)
  · subst y1
    refine Does.ite ?_ ?_
    · refine Does.then noteLend_does rfl ?_
      assumption
    · assumption
  clear_value y1
  revert y1
  refine Does.intro ?_
  intro y1 hy1
  refine Does.then finishWith_does rfl ?_
  assumption

theorem wideLocal_does {a0} {s} :
    Does [.cnt, .ram, .ramUndef, .host, .err, .slate, .plans, .models, .codec, .spar, .sec, .maint, .out] s (wideLocal a0 s) := by
  refine Does.also (t := s) Does.refl (fun h0 => ?_)
  unfold wideLocal
  extract_lets +onlyGivenNames y0
  split
  · rename_i x1 x2
    refine Does.then createSlot_does rfl ?_
    assumption
  · rename_i x3 x4
    refine Does.then beginPlan_does rfl ?_
    assumption
  · rename_i x5 x6
    refine Does.then scheduleAll_does rfl ?_
    assumption
  · rename_i x7 x8 x9 x10
    assumption

theorem wideUndo_does {a0} {s} :
    Does [.spar, .out] s (wideUndo a0 s) := by
  refine Does.also (t := s) Does.refl (fun h0 => ?_)
  unfold wideUndo
  extract_lets +onlyGivenNames y0
  split
  · rename_i x1 x2
    refine Does.then toOthers_does rfl ?_
    assumption
  · rename_i x3 x4
    refine Does.then toOthers_does rfl ?_
    assumption
  · rename_i x5 x6 x7
    assumption

theorem createResult_does {a0 a1 a2} {s} :
    Does [.cnt, .ram, .ramUndef, .mbx, .host, .err, .slate, .plans, .taint, .tiers, .models, .codec, .spar, .sec, .maint, .out] s (createResult a0 a1 a2 s) := by
  refine Does.also (t := s) Does.refl (fun h0 => ?_)
  unfold createResult
  extract_lets +onlyGivenNames y0
  extract_lets +onlyGivenNames y1
  extract_lets +onlyGivenNames y2
  extract_lets +onlyGivenNames y3
  extract_lets +onlyGivenNames y4
  refine Does.also (t := y4) ?_ (fun hy4 => ?_)
  · subst y4
    refine Does.then wideUndo_does rfl ?_
    assumption
  clear_value y4
  revert y4
  refine Does.intro ?_
  intro y4 hy4
  refine Does.ite ?_ ?_
  · refine Does.then waitDone_does rfl ?_
    refine Does.set_spar rfl _ ?_
    assumption
  · refine Does.ite ?_ ?_
    · refine Does.then waitDone_does rfl ?_
      refine Does.then wideLocal_does rfl ?_
      assumption
    · split
      · rename_i x5 x6 x7
        refine Does.then askCreate_does rfl ?_
        assumption
      · rename_i x8 x9
        refine Does.then waitDone_does rfl ?_
        assumption

theorem deleteResult_does {a0 a1} {s} :
    Does [.cnt, .ram, .ramUndef, .mbx, .host, .err, .slate, .taint, .tiers, .models, .spar, .maint, .out] s (deleteResult a0 a1 s) := by
  refine Does.also (t := s) Does.refl (fun h0 => ?_)
  unfold deleteResult
  extract_lets +onlyGivenNames y0
  extract_lets +onlyGivenNames y1
  extract_lets +onlyGivenNames y2
  refine Does.also (t := y2) ?_ (fun hy2 => ?_)
  · subst y2
    refine Does.then sendMembers_does rfl ?_
    refine Does.set_spar rfl _ ?_
    assumption
  clear_value y2
  revert y2
  refine Does.intro ?_
  intro y2 hy2
  refine Does.ite ?_ ?_
  · refine Does.then waitDone_does rfl ?_
    assumption
  · refine Does.then ckptBoth_does rfl ?_
    refine Does.then unmapSlot_does rfl ?_
    assumption

theorem wideResult_does {a0 a1 a2} {s} :
    Does [.fmtSticky, .cnt, .ram, .ramUndef, .mbx, .host, .tbu, .err, .slate, .plans, .arrs, .exclStored, .norm, .normSum, .taint, .tiers, .models, .codec, .spar, .sec, .maint, .out, .free] s (wideResult a0 a1 a2 s) := by
  refine Does.also (t := s) Does.refl (fun h0 => ?_)
  unfold wideResult
  extract_lets +onlyGivenNames y0
  extract_lets +onlyGivenNames y1
  refine Does.also (t := y1) ?_ (fun hy1 => ?_)
  · subst y1
    refine Does.then waitDone_does rfl ?_
    refine Does.then wideUndo_does rfl ?_
    assumption
  clear_value y1
  revert y1
  refine Does.intro ?_
  intro y1 hy1
  extract_lets +onlyGivenNames y2
  refine Does.also (t := y2) ?_ (fun hy2 => ?_)
  · subst y2
    refine Does.then waitDone_does rfl ?_
    refine Does.then wideLocal_does rfl ?_
    assumption
  clear_value y2
  revert y2
  refine Does.intro ?_
  intro y2 hy2
  refine Does.ite ?_ ?_
  · refine Does.then createResult_does rfl ?_
    assumption
  · refine Does.ite ?_ ?_
    · refine Does.then deleteResult_does rfl ?_
      assumption
    · refine Does.ite ?_ ?_
      · refine Does.ite ?_ ?_
        · refine Does.then rejectStage_does rfl ?_
          assumption
        · assumption
      · refine Does.ite ?_ ?_
        · refine Does.ite ?_ ?_
          · refine Does.then leaveGroup_does rfl ?_
            assumption
          · assumption
        · refine Does.then waitDone_does rfl ?_
          assumption

theorem execForwardedResult_does {a0 a1 a2 a3 a4} {s} {t} (h : (execForwardedResult a0 a1 a2 a3 a4 s) = .next t) :
    Does [.fmtSticky, .cnt, .ram, .ramUndef, .mbx, .host, .tbu, .err, .slate, .plans, .arrs, .exclStored, .norm, .normSum, .taint, .tiers, .models, .codec, .spar, .sec, .maint, .out, .free] s t := by
  refine Does.also (t := s) Does.refl (fun h0 => ?_)
  unfold execForwardedResult at h
  obtain rfl := Host.Outcome.next.inj h
  clear h
  refine Does.ite ?_ ?_
  · assumption
  · split
    · rename_i x0 x1
      assumption
    · rename_i x2 x3 x4
      refine Does.ite ?_ ?_
      · refine Does.then endForwarded_does rfl ?_
        assumption
      · refine Does.ite ?_ ?_
        · refine Does.then wideResult_does rfl ?_
          assumption
        · refine Does.ite ?_ ?_
          · refine Does.then abortAll_does rfl ?_
            assumption
          · assumption

end Sys2Proof.Laws
end

