-- ==== Sys2Proof/Laws/State.lean ====
section
/-! SUPPORT. Sys2Proof/Laws/State.lean: each named update of the state beside each field: what an update does not write it
leaves as it was, and what it writes reads back as written. -/

namespace Sys2Proof.Laws

open Sys2Proof.Machine

/-! ## Maps -/

@[simp] theorem mget_mset {α : Type} (m : NMap α) (k : Nat) (v : α) : mget (mset m k v) k = some v := mget_mset_same m k v
@[simp] theorem mgetD_mset {α : Type} (m : NMap α) (k : Nat) (v d : α) : mgetD (mset m k v) k d = v := by simp [mgetD]
theorem mgetD_mset_other {α : Type} (m : NMap α) {k x : Nat} (v d : α) (h : x ≠ k) : mgetD (mset m k v) x d = mgetD m x d := by
  simp [mgetD, mget_mset_other m v h]
@[simp] theorem mget_mupd {α : Type} (m : NMap α) (k : Nat) (f : α → α) : mget (mupd m k f) k = (mget m k).map f := by
  induction m with
  | nil => simp [mupd, mget]
  | cons p m ih =>
    obtain ⟨i, w⟩ := p
    simp only [mupd]; split
    · simp [mget, *]
    · next h => simp only [mget, h, if_false] at ih ⊢; exact ih
theorem mget_mupd_other {α : Type} (m : NMap α) {k x : Nat} (f : α → α) (h : x ≠ k) : mget (mupd m k f) x = mget m x := by
  induction m with
  | nil => simp [mupd]
  | cons p m ih =>
    obtain ⟨i, w⟩ := p
    simp only [mupd]; split
    · next e => simp only [mget]; split
                · next e2 => exact absurd (e2 ▸ e) h
                · rfl
    · simp only [mget, ih]

/-! ## What an update reads back as -/

@[simp] theorem plan_updPlan (h : Nat) (f : PlanRt → PlanRt) (s : State) : (updPlan h f s).plan h = (s.plan h).map f := mget_mupd _ _ _
@[simp] theorem arr_updArr (a : Nat) (f : Arr → Arr) (s : State) : (updArr a f s).arr a = f (s.arr a) := mgetD_mset _ _ _ _
@[simp] theorem pair_updPair (q : Nat) (f : QPair → QPair) (s : State) : (updPair q f s).pair q = f (s.pair q) := mgetD_mset _ _ _ _
@[simp] theorem port_updPort (p : Nat) (f : Port → Port) (s : State) : (updPort p f s).port p = f (s.port p) := mgetD_mset _ _ _ _
@[simp] theorem slot_updSlot (i : Nat) (f : Slot → Slot) (s : State) : (updSlot i f s).slot i = f (s.slot i) := mgetD_mset _ _ _ _
@[simp] theorem sb_updSb (k : Nat) (f : SbSt → SbSt) (s : State) : (updSb k f s).sb k = f (s.sb k) := mgetD_mset _ _ _ _
@[simp] theorem pb_updPb (k : Nat) (f : PbSt → PbSt) (s : State) : (updPb k f s).pb k = f (s.pb k) := mgetD_mset _ _ _ _
@[simp] theorem dma_updDma (e : Nat) (f : DmaEngine → DmaEngine) (s : State) : (updDma e f s).dma e = f (s.dma e) := mgetD_mset _ _ _ _
@[simp] theorem stream_updStream (i : Nat) (f : Stream → Stream) (s : State) :
    mget (updStream i f s).models.streams i = (mget s.models.streams i).map f := mget_mupd _ _ _
@[simp] theorem out_emit (o : Out) (s : State) : (emit o s).out = s.out ++ [o] := rfl
@[simp] theorem now_reachTime (t : Nat) (s : State) : (reachTime t s).tbu.now = if s.tbu.holdTo.isSome then s.tbu.now else max s.tbu.now t := rfl
theorem arr_updArr_other {a b : Nat} (f : Arr → Arr) (s : State) (h : b ≠ a) : (updArr a f s).arr b = s.arr b := mgetD_mset_other _ _ _ h
theorem plan_updPlan_other {h k : Nat} (f : PlanRt → PlanRt) (s : State) (hk : k ≠ h) : (updPlan h f s).plan k = s.plan k :=
  mget_mupd_other _ _ hk
theorem pair_updPair_other {q r : Nat} (f : QPair → QPair) (s : State) (h : r ≠ q) : (updPair q f s).pair r = s.pair r :=
  mgetD_mset_other _ _ _ h

/-! ## What an update leaves as it was -/

@[simp] theorem emit_part (o : Out) (s : State) : (emit o s).part = s.part := rfl
@[simp] theorem emit_ready (o : Out) (s : State) : (emit o s).ready = s.ready := rfl
@[simp] theorem emit_fmtSticky (o : Out) (s : State) : (emit o s).fmtSticky = s.fmtSticky := rfl
@[simp] theorem emit_cnt (o : Out) (s : State) : (emit o s).cnt = s.cnt := rfl
@[simp] theorem emit_ram (o : Out) (s : State) : (emit o s).ram = s.ram := rfl
@[simp] theorem emit_ramUndef (o : Out) (s : State) : (emit o s).ramUndef = s.ramUndef := rfl
@[simp] theorem emit_mgmt (o : Out) (s : State) : (emit o s).mgmt = s.mgmt := rfl
@[simp] theorem emit_mbx (o : Out) (s : State) : (emit o s).mbx = s.mbx := rfl
@[simp] theorem emit_host (o : Out) (s : State) : (emit o s).host = s.host := rfl
@[simp] theorem emit_tbu (o : Out) (s : State) : (emit o s).tbu = s.tbu := rfl
@[simp] theorem emit_pwr (o : Out) (s : State) : (emit o s).pwr = s.pwr := rfl
@[simp] theorem emit_err (o : Out) (s : State) : (emit o s).err = s.err := rfl
@[simp] theorem emit_slate (o : Out) (s : State) : (emit o s).slate = s.slate := rfl
@[simp] theorem emit_plans (o : Out) (s : State) : (emit o s).plans = s.plans := rfl
@[simp] theorem emit_arrs (o : Out) (s : State) : (emit o s).arrs = s.arrs := rfl
@[simp] theorem emit_exclStored (o : Out) (s : State) : (emit o s).exclStored = s.exclStored := rfl
@[simp] theorem emit_norm (o : Out) (s : State) : (emit o s).norm = s.norm := rfl
@[simp] theorem emit_normSum (o : Out) (s : State) : (emit o s).normSum = s.normSum := rfl
@[simp] theorem emit_taint (o : Out) (s : State) : (emit o s).taint = s.taint := rfl
@[simp] theorem emit_tiers (o : Out) (s : State) : (emit o s).tiers = s.tiers := rfl
@[simp] theorem emit_models (o : Out) (s : State) : (emit o s).models = s.models := rfl
@[simp] theorem emit_codec (o : Out) (s : State) : (emit o s).codec = s.codec := rfl
@[simp] theorem emit_spar (o : Out) (s : State) : (emit o s).spar = s.spar := rfl
@[simp] theorem emit_sec (o : Out) (s : State) : (emit o s).sec = s.sec := rfl
@[simp] theorem emit_flash (o : Out) (s : State) : (emit o s).flash = s.flash := rfl
@[simp] theorem emit_maint (o : Out) (s : State) : (emit o s).maint = s.maint := rfl
@[simp] theorem emit_free (o : Out) (s : State) : (emit o s).free = s.free := rfl
@[simp] theorem emit_pending (o : Out) (s : State) : (emit o s).pending = s.pending := rfl

@[simp] theorem reachTime_part (t : Nat) (s : State) : (reachTime t s).part = s.part := rfl
@[simp] theorem reachTime_ready (t : Nat) (s : State) : (reachTime t s).ready = s.ready := rfl
@[simp] theorem reachTime_fmtSticky (t : Nat) (s : State) : (reachTime t s).fmtSticky = s.fmtSticky := rfl
@[simp] theorem reachTime_cnt (t : Nat) (s : State) : (reachTime t s).cnt = s.cnt := rfl
@[simp] theorem reachTime_ram (t : Nat) (s : State) : (reachTime t s).ram = s.ram := rfl
@[simp] theorem reachTime_ramUndef (t : Nat) (s : State) : (reachTime t s).ramUndef = s.ramUndef := rfl
@[simp] theorem reachTime_mgmt (t : Nat) (s : State) : (reachTime t s).mgmt = s.mgmt := rfl
@[simp] theorem reachTime_mbx (t : Nat) (s : State) : (reachTime t s).mbx = s.mbx := rfl
@[simp] theorem reachTime_host (t : Nat) (s : State) : (reachTime t s).host = s.host := rfl
@[simp] theorem reachTime_pwr (t : Nat) (s : State) : (reachTime t s).pwr = s.pwr := rfl
@[simp] theorem reachTime_err (t : Nat) (s : State) : (reachTime t s).err = s.err := rfl
@[simp] theorem reachTime_slate (t : Nat) (s : State) : (reachTime t s).slate = s.slate := rfl
@[simp] theorem reachTime_plans (t : Nat) (s : State) : (reachTime t s).plans = s.plans := rfl
@[simp] theorem reachTime_arrs (t : Nat) (s : State) : (reachTime t s).arrs = s.arrs := rfl
@[simp] theorem reachTime_exclStored (t : Nat) (s : State) : (reachTime t s).exclStored = s.exclStored := rfl
@[simp] theorem reachTime_norm (t : Nat) (s : State) : (reachTime t s).norm = s.norm := rfl
@[simp] theorem reachTime_normSum (t : Nat) (s : State) : (reachTime t s).normSum = s.normSum := rfl
@[simp] theorem reachTime_taint (t : Nat) (s : State) : (reachTime t s).taint = s.taint := rfl
@[simp] theorem reachTime_tiers (t : Nat) (s : State) : (reachTime t s).tiers = s.tiers := rfl
@[simp] theorem reachTime_models (t : Nat) (s : State) : (reachTime t s).models = s.models := rfl
@[simp] theorem reachTime_codec (t : Nat) (s : State) : (reachTime t s).codec = s.codec := rfl
@[simp] theorem reachTime_spar (t : Nat) (s : State) : (reachTime t s).spar = s.spar := rfl
@[simp] theorem reachTime_sec (t : Nat) (s : State) : (reachTime t s).sec = s.sec := rfl
@[simp] theorem reachTime_flash (t : Nat) (s : State) : (reachTime t s).flash = s.flash := rfl
@[simp] theorem reachTime_maint (t : Nat) (s : State) : (reachTime t s).maint = s.maint := rfl
@[simp] theorem reachTime_out (t : Nat) (s : State) : (reachTime t s).out = s.out := rfl
@[simp] theorem reachTime_free (t : Nat) (s : State) : (reachTime t s).free = s.free := rfl
@[simp] theorem reachTime_pending (t : Nat) (s : State) : (reachTime t s).pending = s.pending := rfl

@[simp] theorem updPlan_part (h : Nat) (f : PlanRt → PlanRt) (s : State) : (updPlan h f s).part = s.part := rfl
@[simp] theorem updPlan_ready (h : Nat) (f : PlanRt → PlanRt) (s : State) : (updPlan h f s).ready = s.ready := rfl
@[simp] theorem updPlan_fmtSticky (h : Nat) (f : PlanRt → PlanRt) (s : State) : (updPlan h f s).fmtSticky = s.fmtSticky := rfl
@[simp] theorem updPlan_cnt (h : Nat) (f : PlanRt → PlanRt) (s : State) : (updPlan h f s).cnt = s.cnt := rfl
@[simp] theorem updPlan_ram (h : Nat) (f : PlanRt → PlanRt) (s : State) : (updPlan h f s).ram = s.ram := rfl
@[simp] theorem updPlan_ramUndef (h : Nat) (f : PlanRt → PlanRt) (s : State) : (updPlan h f s).ramUndef = s.ramUndef := rfl
@[simp] theorem updPlan_mgmt (h : Nat) (f : PlanRt → PlanRt) (s : State) : (updPlan h f s).mgmt = s.mgmt := rfl
@[simp] theorem updPlan_mbx (h : Nat) (f : PlanRt → PlanRt) (s : State) : (updPlan h f s).mbx = s.mbx := rfl
@[simp] theorem updPlan_host (h : Nat) (f : PlanRt → PlanRt) (s : State) : (updPlan h f s).host = s.host := rfl
@[simp] theorem updPlan_tbu (h : Nat) (f : PlanRt → PlanRt) (s : State) : (updPlan h f s).tbu = s.tbu := rfl
@[simp] theorem updPlan_pwr (h : Nat) (f : PlanRt → PlanRt) (s : State) : (updPlan h f s).pwr = s.pwr := rfl
@[simp] theorem updPlan_err (h : Nat) (f : PlanRt → PlanRt) (s : State) : (updPlan h f s).err = s.err := rfl
@[simp] theorem updPlan_slate (h : Nat) (f : PlanRt → PlanRt) (s : State) : (updPlan h f s).slate = s.slate := rfl
@[simp] theorem updPlan_arrs (h : Nat) (f : PlanRt → PlanRt) (s : State) : (updPlan h f s).arrs = s.arrs := rfl
@[simp] theorem updPlan_exclStored (h : Nat) (f : PlanRt → PlanRt) (s : State) : (updPlan h f s).exclStored = s.exclStored := rfl
@[simp] theorem updPlan_norm (h : Nat) (f : PlanRt → PlanRt) (s : State) : (updPlan h f s).norm = s.norm := rfl
@[simp] theorem updPlan_normSum (h : Nat) (f : PlanRt → PlanRt) (s : State) : (updPlan h f s).normSum = s.normSum := rfl
@[simp] theorem updPlan_taint (h : Nat) (f : PlanRt → PlanRt) (s : State) : (updPlan h f s).taint = s.taint := rfl
@[simp] theorem updPlan_tiers (h : Nat) (f : PlanRt → PlanRt) (s : State) : (updPlan h f s).tiers = s.tiers := rfl
@[simp] theorem updPlan_models (h : Nat) (f : PlanRt → PlanRt) (s : State) : (updPlan h f s).models = s.models := rfl
@[simp] theorem updPlan_codec (h : Nat) (f : PlanRt → PlanRt) (s : State) : (updPlan h f s).codec = s.codec := rfl
@[simp] theorem updPlan_spar (h : Nat) (f : PlanRt → PlanRt) (s : State) : (updPlan h f s).spar = s.spar := rfl
@[simp] theorem updPlan_sec (h : Nat) (f : PlanRt → PlanRt) (s : State) : (updPlan h f s).sec = s.sec := rfl
@[simp] theorem updPlan_flash (h : Nat) (f : PlanRt → PlanRt) (s : State) : (updPlan h f s).flash = s.flash := rfl
@[simp] theorem updPlan_maint (h : Nat) (f : PlanRt → PlanRt) (s : State) : (updPlan h f s).maint = s.maint := rfl
@[simp] theorem updPlan_out (h : Nat) (f : PlanRt → PlanRt) (s : State) : (updPlan h f s).out = s.out := rfl
@[simp] theorem updPlan_free (h : Nat) (f : PlanRt → PlanRt) (s : State) : (updPlan h f s).free = s.free := rfl
@[simp] theorem updPlan_pending (h : Nat) (f : PlanRt → PlanRt) (s : State) : (updPlan h f s).pending = s.pending := rfl

@[simp] theorem updStep_part (h sc : Nat) (f : Step → Step) (s : State) : (updStep h sc f s).part = s.part := rfl
@[simp] theorem updStep_ready (h sc : Nat) (f : Step → Step) (s : State) : (updStep h sc f s).ready = s.ready := rfl
@[simp] theorem updStep_fmtSticky (h sc : Nat) (f : Step → Step) (s : State) : (updStep h sc f s).fmtSticky = s.fmtSticky := rfl
@[simp] theorem updStep_cnt (h sc : Nat) (f : Step → Step) (s : State) : (updStep h sc f s).cnt = s.cnt := rfl
@[simp] theorem updStep_ram (h sc : Nat) (f : Step → Step) (s : State) : (updStep h sc f s).ram = s.ram := rfl
@[simp] theorem updStep_ramUndef (h sc : Nat) (f : Step → Step) (s : State) : (updStep h sc f s).ramUndef = s.ramUndef := rfl
@[simp] theorem updStep_mgmt (h sc : Nat) (f : Step → Step) (s : State) : (updStep h sc f s).mgmt = s.mgmt := rfl
@[simp] theorem updStep_mbx (h sc : Nat) (f : Step → Step) (s : State) : (updStep h sc f s).mbx = s.mbx := rfl
@[simp] theorem updStep_host (h sc : Nat) (f : Step → Step) (s : State) : (updStep h sc f s).host = s.host := rfl
@[simp] theorem updStep_tbu (h sc : Nat) (f : Step → Step) (s : State) : (updStep h sc f s).tbu = s.tbu := rfl
@[simp] theorem updStep_pwr (h sc : Nat) (f : Step → Step) (s : State) : (updStep h sc f s).pwr = s.pwr := rfl
@[simp] theorem updStep_err (h sc : Nat) (f : Step → Step) (s : State) : (updStep h sc f s).err = s.err := rfl
@[simp] theorem updStep_slate (h sc : Nat) (f : Step → Step) (s : State) : (updStep h sc f s).slate = s.slate := rfl
@[simp] theorem updStep_arrs (h sc : Nat) (f : Step → Step) (s : State) : (updStep h sc f s).arrs = s.arrs := rfl
@[simp] theorem updStep_exclStored (h sc : Nat) (f : Step → Step) (s : State) : (updStep h sc f s).exclStored = s.exclStored := rfl
@[simp] theorem updStep_norm (h sc : Nat) (f : Step → Step) (s : State) : (updStep h sc f s).norm = s.norm := rfl
@[simp] theorem updStep_normSum (h sc : Nat) (f : Step → Step) (s : State) : (updStep h sc f s).normSum = s.normSum := rfl
@[simp] theorem updStep_taint (h sc : Nat) (f : Step → Step) (s : State) : (updStep h sc f s).taint = s.taint := rfl
@[simp] theorem updStep_tiers (h sc : Nat) (f : Step → Step) (s : State) : (updStep h sc f s).tiers = s.tiers := rfl
@[simp] theorem updStep_models (h sc : Nat) (f : Step → Step) (s : State) : (updStep h sc f s).models = s.models := rfl
@[simp] theorem updStep_codec (h sc : Nat) (f : Step → Step) (s : State) : (updStep h sc f s).codec = s.codec := rfl
@[simp] theorem updStep_spar (h sc : Nat) (f : Step → Step) (s : State) : (updStep h sc f s).spar = s.spar := rfl
@[simp] theorem updStep_sec (h sc : Nat) (f : Step → Step) (s : State) : (updStep h sc f s).sec = s.sec := rfl
@[simp] theorem updStep_flash (h sc : Nat) (f : Step → Step) (s : State) : (updStep h sc f s).flash = s.flash := rfl
@[simp] theorem updStep_maint (h sc : Nat) (f : Step → Step) (s : State) : (updStep h sc f s).maint = s.maint := rfl
@[simp] theorem updStep_out (h sc : Nat) (f : Step → Step) (s : State) : (updStep h sc f s).out = s.out := rfl
@[simp] theorem updStep_free (h sc : Nat) (f : Step → Step) (s : State) : (updStep h sc f s).free = s.free := rfl
@[simp] theorem updStep_pending (h sc : Nat) (f : Step → Step) (s : State) : (updStep h sc f s).pending = s.pending := rfl

@[simp] theorem updArr_part (a : Nat) (f : Arr → Arr) (s : State) : (updArr a f s).part = s.part := rfl
@[simp] theorem updArr_ready (a : Nat) (f : Arr → Arr) (s : State) : (updArr a f s).ready = s.ready := rfl
@[simp] theorem updArr_fmtSticky (a : Nat) (f : Arr → Arr) (s : State) : (updArr a f s).fmtSticky = s.fmtSticky := rfl
@[simp] theorem updArr_cnt (a : Nat) (f : Arr → Arr) (s : State) : (updArr a f s).cnt = s.cnt := rfl
@[simp] theorem updArr_ram (a : Nat) (f : Arr → Arr) (s : State) : (updArr a f s).ram = s.ram := rfl
@[simp] theorem updArr_ramUndef (a : Nat) (f : Arr → Arr) (s : State) : (updArr a f s).ramUndef = s.ramUndef := rfl
@[simp] theorem updArr_mgmt (a : Nat) (f : Arr → Arr) (s : State) : (updArr a f s).mgmt = s.mgmt := rfl
@[simp] theorem updArr_mbx (a : Nat) (f : Arr → Arr) (s : State) : (updArr a f s).mbx = s.mbx := rfl
@[simp] theorem updArr_host (a : Nat) (f : Arr → Arr) (s : State) : (updArr a f s).host = s.host := rfl
@[simp] theorem updArr_tbu (a : Nat) (f : Arr → Arr) (s : State) : (updArr a f s).tbu = s.tbu := rfl
@[simp] theorem updArr_pwr (a : Nat) (f : Arr → Arr) (s : State) : (updArr a f s).pwr = s.pwr := rfl
@[simp] theorem updArr_err (a : Nat) (f : Arr → Arr) (s : State) : (updArr a f s).err = s.err := rfl
@[simp] theorem updArr_slate (a : Nat) (f : Arr → Arr) (s : State) : (updArr a f s).slate = s.slate := rfl
@[simp] theorem updArr_plans (a : Nat) (f : Arr → Arr) (s : State) : (updArr a f s).plans = s.plans := rfl
@[simp] theorem updArr_exclStored (a : Nat) (f : Arr → Arr) (s : State) : (updArr a f s).exclStored = s.exclStored := rfl
@[simp] theorem updArr_norm (a : Nat) (f : Arr → Arr) (s : State) : (updArr a f s).norm = s.norm := rfl
@[simp] theorem updArr_normSum (a : Nat) (f : Arr → Arr) (s : State) : (updArr a f s).normSum = s.normSum := rfl
@[simp] theorem updArr_taint (a : Nat) (f : Arr → Arr) (s : State) : (updArr a f s).taint = s.taint := rfl
@[simp] theorem updArr_tiers (a : Nat) (f : Arr → Arr) (s : State) : (updArr a f s).tiers = s.tiers := rfl
@[simp] theorem updArr_models (a : Nat) (f : Arr → Arr) (s : State) : (updArr a f s).models = s.models := rfl
@[simp] theorem updArr_codec (a : Nat) (f : Arr → Arr) (s : State) : (updArr a f s).codec = s.codec := rfl
@[simp] theorem updArr_spar (a : Nat) (f : Arr → Arr) (s : State) : (updArr a f s).spar = s.spar := rfl
@[simp] theorem updArr_sec (a : Nat) (f : Arr → Arr) (s : State) : (updArr a f s).sec = s.sec := rfl
@[simp] theorem updArr_flash (a : Nat) (f : Arr → Arr) (s : State) : (updArr a f s).flash = s.flash := rfl
@[simp] theorem updArr_maint (a : Nat) (f : Arr → Arr) (s : State) : (updArr a f s).maint = s.maint := rfl
@[simp] theorem updArr_out (a : Nat) (f : Arr → Arr) (s : State) : (updArr a f s).out = s.out := rfl
@[simp] theorem updArr_free (a : Nat) (f : Arr → Arr) (s : State) : (updArr a f s).free = s.free := rfl
@[simp] theorem updArr_pending (a : Nat) (f : Arr → Arr) (s : State) : (updArr a f s).pending = s.pending := rfl

@[simp] theorem updStream_part (i : Nat) (f : Stream → Stream) (s : State) : (updStream i f s).part = s.part := rfl
@[simp] theorem updStream_ready (i : Nat) (f : Stream → Stream) (s : State) : (updStream i f s).ready = s.ready := rfl
@[simp] theorem updStream_fmtSticky (i : Nat) (f : Stream → Stream) (s : State) : (updStream i f s).fmtSticky = s.fmtSticky := rfl
@[simp] theorem updStream_cnt (i : Nat) (f : Stream → Stream) (s : State) : (updStream i f s).cnt = s.cnt := rfl
@[simp] theorem updStream_ram (i : Nat) (f : Stream → Stream) (s : State) : (updStream i f s).ram = s.ram := rfl
@[simp] theorem updStream_ramUndef (i : Nat) (f : Stream → Stream) (s : State) : (updStream i f s).ramUndef = s.ramUndef := rfl
@[simp] theorem updStream_mgmt (i : Nat) (f : Stream → Stream) (s : State) : (updStream i f s).mgmt = s.mgmt := rfl
@[simp] theorem updStream_mbx (i : Nat) (f : Stream → Stream) (s : State) : (updStream i f s).mbx = s.mbx := rfl
@[simp] theorem updStream_host (i : Nat) (f : Stream → Stream) (s : State) : (updStream i f s).host = s.host := rfl
@[simp] theorem updStream_tbu (i : Nat) (f : Stream → Stream) (s : State) : (updStream i f s).tbu = s.tbu := rfl
@[simp] theorem updStream_pwr (i : Nat) (f : Stream → Stream) (s : State) : (updStream i f s).pwr = s.pwr := rfl
@[simp] theorem updStream_err (i : Nat) (f : Stream → Stream) (s : State) : (updStream i f s).err = s.err := rfl
@[simp] theorem updStream_slate (i : Nat) (f : Stream → Stream) (s : State) : (updStream i f s).slate = s.slate := rfl
@[simp] theorem updStream_plans (i : Nat) (f : Stream → Stream) (s : State) : (updStream i f s).plans = s.plans := rfl
@[simp] theorem updStream_arrs (i : Nat) (f : Stream → Stream) (s : State) : (updStream i f s).arrs = s.arrs := rfl
@[simp] theorem updStream_exclStored (i : Nat) (f : Stream → Stream) (s : State) : (updStream i f s).exclStored = s.exclStored := rfl
@[simp] theorem updStream_norm (i : Nat) (f : Stream → Stream) (s : State) : (updStream i f s).norm = s.norm := rfl
@[simp] theorem updStream_normSum (i : Nat) (f : Stream → Stream) (s : State) : (updStream i f s).normSum = s.normSum := rfl
@[simp] theorem updStream_taint (i : Nat) (f : Stream → Stream) (s : State) : (updStream i f s).taint = s.taint := rfl
@[simp] theorem updStream_tiers (i : Nat) (f : Stream → Stream) (s : State) : (updStream i f s).tiers = s.tiers := rfl
@[simp] theorem updStream_codec (i : Nat) (f : Stream → Stream) (s : State) : (updStream i f s).codec = s.codec := rfl
@[simp] theorem updStream_spar (i : Nat) (f : Stream → Stream) (s : State) : (updStream i f s).spar = s.spar := rfl
@[simp] theorem updStream_sec (i : Nat) (f : Stream → Stream) (s : State) : (updStream i f s).sec = s.sec := rfl
@[simp] theorem updStream_flash (i : Nat) (f : Stream → Stream) (s : State) : (updStream i f s).flash = s.flash := rfl
@[simp] theorem updStream_maint (i : Nat) (f : Stream → Stream) (s : State) : (updStream i f s).maint = s.maint := rfl
@[simp] theorem updStream_out (i : Nat) (f : Stream → Stream) (s : State) : (updStream i f s).out = s.out := rfl
@[simp] theorem updStream_free (i : Nat) (f : Stream → Stream) (s : State) : (updStream i f s).free = s.free := rfl
@[simp] theorem updStream_pending (i : Nat) (f : Stream → Stream) (s : State) : (updStream i f s).pending = s.pending := rfl

@[simp] theorem updSlot_part (i : Nat) (f : Slot → Slot) (s : State) : (updSlot i f s).part = s.part := rfl
@[simp] theorem updSlot_ready (i : Nat) (f : Slot → Slot) (s : State) : (updSlot i f s).ready = s.ready := rfl
@[simp] theorem updSlot_fmtSticky (i : Nat) (f : Slot → Slot) (s : State) : (updSlot i f s).fmtSticky = s.fmtSticky := rfl
@[simp] theorem updSlot_cnt (i : Nat) (f : Slot → Slot) (s : State) : (updSlot i f s).cnt = s.cnt := rfl
@[simp] theorem updSlot_ram (i : Nat) (f : Slot → Slot) (s : State) : (updSlot i f s).ram = s.ram := rfl
@[simp] theorem updSlot_ramUndef (i : Nat) (f : Slot → Slot) (s : State) : (updSlot i f s).ramUndef = s.ramUndef := rfl
@[simp] theorem updSlot_mgmt (i : Nat) (f : Slot → Slot) (s : State) : (updSlot i f s).mgmt = s.mgmt := rfl
@[simp] theorem updSlot_mbx (i : Nat) (f : Slot → Slot) (s : State) : (updSlot i f s).mbx = s.mbx := rfl
@[simp] theorem updSlot_host (i : Nat) (f : Slot → Slot) (s : State) : (updSlot i f s).host = s.host := rfl
@[simp] theorem updSlot_tbu (i : Nat) (f : Slot → Slot) (s : State) : (updSlot i f s).tbu = s.tbu := rfl
@[simp] theorem updSlot_pwr (i : Nat) (f : Slot → Slot) (s : State) : (updSlot i f s).pwr = s.pwr := rfl
@[simp] theorem updSlot_err (i : Nat) (f : Slot → Slot) (s : State) : (updSlot i f s).err = s.err := rfl
@[simp] theorem updSlot_slate (i : Nat) (f : Slot → Slot) (s : State) : (updSlot i f s).slate = s.slate := rfl
@[simp] theorem updSlot_plans (i : Nat) (f : Slot → Slot) (s : State) : (updSlot i f s).plans = s.plans := rfl
@[simp] theorem updSlot_arrs (i : Nat) (f : Slot → Slot) (s : State) : (updSlot i f s).arrs = s.arrs := rfl
@[simp] theorem updSlot_exclStored (i : Nat) (f : Slot → Slot) (s : State) : (updSlot i f s).exclStored = s.exclStored := rfl
@[simp] theorem updSlot_norm (i : Nat) (f : Slot → Slot) (s : State) : (updSlot i f s).norm = s.norm := rfl
@[simp] theorem updSlot_normSum (i : Nat) (f : Slot → Slot) (s : State) : (updSlot i f s).normSum = s.normSum := rfl
@[simp] theorem updSlot_taint (i : Nat) (f : Slot → Slot) (s : State) : (updSlot i f s).taint = s.taint := rfl
@[simp] theorem updSlot_tiers (i : Nat) (f : Slot → Slot) (s : State) : (updSlot i f s).tiers = s.tiers := rfl
@[simp] theorem updSlot_codec (i : Nat) (f : Slot → Slot) (s : State) : (updSlot i f s).codec = s.codec := rfl
@[simp] theorem updSlot_spar (i : Nat) (f : Slot → Slot) (s : State) : (updSlot i f s).spar = s.spar := rfl
@[simp] theorem updSlot_sec (i : Nat) (f : Slot → Slot) (s : State) : (updSlot i f s).sec = s.sec := rfl
@[simp] theorem updSlot_flash (i : Nat) (f : Slot → Slot) (s : State) : (updSlot i f s).flash = s.flash := rfl
@[simp] theorem updSlot_maint (i : Nat) (f : Slot → Slot) (s : State) : (updSlot i f s).maint = s.maint := rfl
@[simp] theorem updSlot_out (i : Nat) (f : Slot → Slot) (s : State) : (updSlot i f s).out = s.out := rfl
@[simp] theorem updSlot_free (i : Nat) (f : Slot → Slot) (s : State) : (updSlot i f s).free = s.free := rfl
@[simp] theorem updSlot_pending (i : Nat) (f : Slot → Slot) (s : State) : (updSlot i f s).pending = s.pending := rfl

@[simp] theorem updTune_part (i : Nat) (f : Tune → Tune) (s : State) : (updTune i f s).part = s.part := rfl
@[simp] theorem updTune_ready (i : Nat) (f : Tune → Tune) (s : State) : (updTune i f s).ready = s.ready := rfl
@[simp] theorem updTune_fmtSticky (i : Nat) (f : Tune → Tune) (s : State) : (updTune i f s).fmtSticky = s.fmtSticky := rfl
@[simp] theorem updTune_cnt (i : Nat) (f : Tune → Tune) (s : State) : (updTune i f s).cnt = s.cnt := rfl
@[simp] theorem updTune_ram (i : Nat) (f : Tune → Tune) (s : State) : (updTune i f s).ram = s.ram := rfl
@[simp] theorem updTune_ramUndef (i : Nat) (f : Tune → Tune) (s : State) : (updTune i f s).ramUndef = s.ramUndef := rfl
@[simp] theorem updTune_mgmt (i : Nat) (f : Tune → Tune) (s : State) : (updTune i f s).mgmt = s.mgmt := rfl
@[simp] theorem updTune_mbx (i : Nat) (f : Tune → Tune) (s : State) : (updTune i f s).mbx = s.mbx := rfl
@[simp] theorem updTune_host (i : Nat) (f : Tune → Tune) (s : State) : (updTune i f s).host = s.host := rfl
@[simp] theorem updTune_tbu (i : Nat) (f : Tune → Tune) (s : State) : (updTune i f s).tbu = s.tbu := rfl
@[simp] theorem updTune_pwr (i : Nat) (f : Tune → Tune) (s : State) : (updTune i f s).pwr = s.pwr := rfl
@[simp] theorem updTune_err (i : Nat) (f : Tune → Tune) (s : State) : (updTune i f s).err = s.err := rfl
@[simp] theorem updTune_slate (i : Nat) (f : Tune → Tune) (s : State) : (updTune i f s).slate = s.slate := rfl
@[simp] theorem updTune_plans (i : Nat) (f : Tune → Tune) (s : State) : (updTune i f s).plans = s.plans := rfl
@[simp] theorem updTune_arrs (i : Nat) (f : Tune → Tune) (s : State) : (updTune i f s).arrs = s.arrs := rfl
@[simp] theorem updTune_exclStored (i : Nat) (f : Tune → Tune) (s : State) : (updTune i f s).exclStored = s.exclStored := rfl
@[simp] theorem updTune_norm (i : Nat) (f : Tune → Tune) (s : State) : (updTune i f s).norm = s.norm := rfl
@[simp] theorem updTune_normSum (i : Nat) (f : Tune → Tune) (s : State) : (updTune i f s).normSum = s.normSum := rfl
@[simp] theorem updTune_taint (i : Nat) (f : Tune → Tune) (s : State) : (updTune i f s).taint = s.taint := rfl
@[simp] theorem updTune_tiers (i : Nat) (f : Tune → Tune) (s : State) : (updTune i f s).tiers = s.tiers := rfl
@[simp] theorem updTune_codec (i : Nat) (f : Tune → Tune) (s : State) : (updTune i f s).codec = s.codec := rfl
@[simp] theorem updTune_spar (i : Nat) (f : Tune → Tune) (s : State) : (updTune i f s).spar = s.spar := rfl
@[simp] theorem updTune_sec (i : Nat) (f : Tune → Tune) (s : State) : (updTune i f s).sec = s.sec := rfl
@[simp] theorem updTune_flash (i : Nat) (f : Tune → Tune) (s : State) : (updTune i f s).flash = s.flash := rfl
@[simp] theorem updTune_maint (i : Nat) (f : Tune → Tune) (s : State) : (updTune i f s).maint = s.maint := rfl
@[simp] theorem updTune_out (i : Nat) (f : Tune → Tune) (s : State) : (updTune i f s).out = s.out := rfl
@[simp] theorem updTune_free (i : Nat) (f : Tune → Tune) (s : State) : (updTune i f s).free = s.free := rfl
@[simp] theorem updTune_pending (i : Nat) (f : Tune → Tune) (s : State) : (updTune i f s).pending = s.pending := rfl

@[simp] theorem updStage_part (f : Stage → Stage) (s : State) : (updStage f s).part = s.part := rfl
@[simp] theorem updStage_ready (f : Stage → Stage) (s : State) : (updStage f s).ready = s.ready := rfl
@[simp] theorem updStage_fmtSticky (f : Stage → Stage) (s : State) : (updStage f s).fmtSticky = s.fmtSticky := rfl
@[simp] theorem updStage_cnt (f : Stage → Stage) (s : State) : (updStage f s).cnt = s.cnt := rfl
@[simp] theorem updStage_ram (f : Stage → Stage) (s : State) : (updStage f s).ram = s.ram := rfl
@[simp] theorem updStage_ramUndef (f : Stage → Stage) (s : State) : (updStage f s).ramUndef = s.ramUndef := rfl
@[simp] theorem updStage_mgmt (f : Stage → Stage) (s : State) : (updStage f s).mgmt = s.mgmt := rfl
@[simp] theorem updStage_mbx (f : Stage → Stage) (s : State) : (updStage f s).mbx = s.mbx := rfl
@[simp] theorem updStage_host (f : Stage → Stage) (s : State) : (updStage f s).host = s.host := rfl
@[simp] theorem updStage_tbu (f : Stage → Stage) (s : State) : (updStage f s).tbu = s.tbu := rfl
@[simp] theorem updStage_pwr (f : Stage → Stage) (s : State) : (updStage f s).pwr = s.pwr := rfl
@[simp] theorem updStage_err (f : Stage → Stage) (s : State) : (updStage f s).err = s.err := rfl
@[simp] theorem updStage_slate (f : Stage → Stage) (s : State) : (updStage f s).slate = s.slate := rfl
@[simp] theorem updStage_plans (f : Stage → Stage) (s : State) : (updStage f s).plans = s.plans := rfl
@[simp] theorem updStage_arrs (f : Stage → Stage) (s : State) : (updStage f s).arrs = s.arrs := rfl
@[simp] theorem updStage_exclStored (f : Stage → Stage) (s : State) : (updStage f s).exclStored = s.exclStored := rfl
@[simp] theorem updStage_norm (f : Stage → Stage) (s : State) : (updStage f s).norm = s.norm := rfl
@[simp] theorem updStage_normSum (f : Stage → Stage) (s : State) : (updStage f s).normSum = s.normSum := rfl
@[simp] theorem updStage_taint (f : Stage → Stage) (s : State) : (updStage f s).taint = s.taint := rfl
@[simp] theorem updStage_tiers (f : Stage → Stage) (s : State) : (updStage f s).tiers = s.tiers := rfl
@[simp] theorem updStage_codec (f : Stage → Stage) (s : State) : (updStage f s).codec = s.codec := rfl
@[simp] theorem updStage_spar (f : Stage → Stage) (s : State) : (updStage f s).spar = s.spar := rfl
@[simp] theorem updStage_sec (f : Stage → Stage) (s : State) : (updStage f s).sec = s.sec := rfl
@[simp] theorem updStage_flash (f : Stage → Stage) (s : State) : (updStage f s).flash = s.flash := rfl
@[simp] theorem updStage_maint (f : Stage → Stage) (s : State) : (updStage f s).maint = s.maint := rfl
@[simp] theorem updStage_out (f : Stage → Stage) (s : State) : (updStage f s).out = s.out := rfl
@[simp] theorem updStage_free (f : Stage → Stage) (s : State) : (updStage f s).free = s.free := rfl
@[simp] theorem updStage_pending (f : Stage → Stage) (s : State) : (updStage f s).pending = s.pending := rfl

@[simp] theorem updSb_part (k : Nat) (f : SbSt → SbSt) (s : State) : (updSb k f s).part = s.part := rfl
@[simp] theorem updSb_ready (k : Nat) (f : SbSt → SbSt) (s : State) : (updSb k f s).ready = s.ready := rfl
@[simp] theorem updSb_fmtSticky (k : Nat) (f : SbSt → SbSt) (s : State) : (updSb k f s).fmtSticky = s.fmtSticky := rfl
@[simp] theorem updSb_cnt (k : Nat) (f : SbSt → SbSt) (s : State) : (updSb k f s).cnt = s.cnt := rfl
@[simp] theorem updSb_ram (k : Nat) (f : SbSt → SbSt) (s : State) : (updSb k f s).ram = s.ram := rfl
@[simp] theorem updSb_ramUndef (k : Nat) (f : SbSt → SbSt) (s : State) : (updSb k f s).ramUndef = s.ramUndef := rfl
@[simp] theorem updSb_mgmt (k : Nat) (f : SbSt → SbSt) (s : State) : (updSb k f s).mgmt = s.mgmt := rfl
@[simp] theorem updSb_mbx (k : Nat) (f : SbSt → SbSt) (s : State) : (updSb k f s).mbx = s.mbx := rfl
@[simp] theorem updSb_host (k : Nat) (f : SbSt → SbSt) (s : State) : (updSb k f s).host = s.host := rfl
@[simp] theorem updSb_tbu (k : Nat) (f : SbSt → SbSt) (s : State) : (updSb k f s).tbu = s.tbu := rfl
@[simp] theorem updSb_pwr (k : Nat) (f : SbSt → SbSt) (s : State) : (updSb k f s).pwr = s.pwr := rfl
@[simp] theorem updSb_err (k : Nat) (f : SbSt → SbSt) (s : State) : (updSb k f s).err = s.err := rfl
@[simp] theorem updSb_plans (k : Nat) (f : SbSt → SbSt) (s : State) : (updSb k f s).plans = s.plans := rfl
@[simp] theorem updSb_arrs (k : Nat) (f : SbSt → SbSt) (s : State) : (updSb k f s).arrs = s.arrs := rfl
@[simp] theorem updSb_exclStored (k : Nat) (f : SbSt → SbSt) (s : State) : (updSb k f s).exclStored = s.exclStored := rfl
@[simp] theorem updSb_norm (k : Nat) (f : SbSt → SbSt) (s : State) : (updSb k f s).norm = s.norm := rfl
@[simp] theorem updSb_normSum (k : Nat) (f : SbSt → SbSt) (s : State) : (updSb k f s).normSum = s.normSum := rfl
@[simp] theorem updSb_taint (k : Nat) (f : SbSt → SbSt) (s : State) : (updSb k f s).taint = s.taint := rfl
@[simp] theorem updSb_tiers (k : Nat) (f : SbSt → SbSt) (s : State) : (updSb k f s).tiers = s.tiers := rfl
@[simp] theorem updSb_models (k : Nat) (f : SbSt → SbSt) (s : State) : (updSb k f s).models = s.models := rfl
@[simp] theorem updSb_codec (k : Nat) (f : SbSt → SbSt) (s : State) : (updSb k f s).codec = s.codec := rfl
@[simp] theorem updSb_spar (k : Nat) (f : SbSt → SbSt) (s : State) : (updSb k f s).spar = s.spar := rfl
@[simp] theorem updSb_sec (k : Nat) (f : SbSt → SbSt) (s : State) : (updSb k f s).sec = s.sec := rfl
@[simp] theorem updSb_flash (k : Nat) (f : SbSt → SbSt) (s : State) : (updSb k f s).flash = s.flash := rfl
@[simp] theorem updSb_maint (k : Nat) (f : SbSt → SbSt) (s : State) : (updSb k f s).maint = s.maint := rfl
@[simp] theorem updSb_out (k : Nat) (f : SbSt → SbSt) (s : State) : (updSb k f s).out = s.out := rfl
@[simp] theorem updSb_free (k : Nat) (f : SbSt → SbSt) (s : State) : (updSb k f s).free = s.free := rfl
@[simp] theorem updSb_pending (k : Nat) (f : SbSt → SbSt) (s : State) : (updSb k f s).pending = s.pending := rfl

@[simp] theorem updPb_part (k : Nat) (f : PbSt → PbSt) (s : State) : (updPb k f s).part = s.part := rfl
@[simp] theorem updPb_ready (k : Nat) (f : PbSt → PbSt) (s : State) : (updPb k f s).ready = s.ready := rfl
@[simp] theorem updPb_fmtSticky (k : Nat) (f : PbSt → PbSt) (s : State) : (updPb k f s).fmtSticky = s.fmtSticky := rfl
@[simp] theorem updPb_cnt (k : Nat) (f : PbSt → PbSt) (s : State) : (updPb k f s).cnt = s.cnt := rfl
@[simp] theorem updPb_ram (k : Nat) (f : PbSt → PbSt) (s : State) : (updPb k f s).ram = s.ram := rfl
@[simp] theorem updPb_ramUndef (k : Nat) (f : PbSt → PbSt) (s : State) : (updPb k f s).ramUndef = s.ramUndef := rfl
@[simp] theorem updPb_mgmt (k : Nat) (f : PbSt → PbSt) (s : State) : (updPb k f s).mgmt = s.mgmt := rfl
@[simp] theorem updPb_mbx (k : Nat) (f : PbSt → PbSt) (s : State) : (updPb k f s).mbx = s.mbx := rfl
@[simp] theorem updPb_host (k : Nat) (f : PbSt → PbSt) (s : State) : (updPb k f s).host = s.host := rfl
@[simp] theorem updPb_tbu (k : Nat) (f : PbSt → PbSt) (s : State) : (updPb k f s).tbu = s.tbu := rfl
@[simp] theorem updPb_pwr (k : Nat) (f : PbSt → PbSt) (s : State) : (updPb k f s).pwr = s.pwr := rfl
@[simp] theorem updPb_err (k : Nat) (f : PbSt → PbSt) (s : State) : (updPb k f s).err = s.err := rfl
@[simp] theorem updPb_plans (k : Nat) (f : PbSt → PbSt) (s : State) : (updPb k f s).plans = s.plans := rfl
@[simp] theorem updPb_arrs (k : Nat) (f : PbSt → PbSt) (s : State) : (updPb k f s).arrs = s.arrs := rfl
@[simp] theorem updPb_exclStored (k : Nat) (f : PbSt → PbSt) (s : State) : (updPb k f s).exclStored = s.exclStored := rfl
@[simp] theorem updPb_norm (k : Nat) (f : PbSt → PbSt) (s : State) : (updPb k f s).norm = s.norm := rfl
@[simp] theorem updPb_normSum (k : Nat) (f : PbSt → PbSt) (s : State) : (updPb k f s).normSum = s.normSum := rfl
@[simp] theorem updPb_taint (k : Nat) (f : PbSt → PbSt) (s : State) : (updPb k f s).taint = s.taint := rfl
@[simp] theorem updPb_tiers (k : Nat) (f : PbSt → PbSt) (s : State) : (updPb k f s).tiers = s.tiers := rfl
@[simp] theorem updPb_models (k : Nat) (f : PbSt → PbSt) (s : State) : (updPb k f s).models = s.models := rfl
@[simp] theorem updPb_codec (k : Nat) (f : PbSt → PbSt) (s : State) : (updPb k f s).codec = s.codec := rfl
@[simp] theorem updPb_spar (k : Nat) (f : PbSt → PbSt) (s : State) : (updPb k f s).spar = s.spar := rfl
@[simp] theorem updPb_sec (k : Nat) (f : PbSt → PbSt) (s : State) : (updPb k f s).sec = s.sec := rfl
@[simp] theorem updPb_flash (k : Nat) (f : PbSt → PbSt) (s : State) : (updPb k f s).flash = s.flash := rfl
@[simp] theorem updPb_maint (k : Nat) (f : PbSt → PbSt) (s : State) : (updPb k f s).maint = s.maint := rfl
@[simp] theorem updPb_out (k : Nat) (f : PbSt → PbSt) (s : State) : (updPb k f s).out = s.out := rfl
@[simp] theorem updPb_free (k : Nat) (f : PbSt → PbSt) (s : State) : (updPb k f s).free = s.free := rfl
@[simp] theorem updPb_pending (k : Nat) (f : PbSt → PbSt) (s : State) : (updPb k f s).pending = s.pending := rfl

@[simp] theorem updPair_part (q : Nat) (f : QPair → QPair) (s : State) : (updPair q f s).part = s.part := rfl
@[simp] theorem updPair_ready (q : Nat) (f : QPair → QPair) (s : State) : (updPair q f s).ready = s.ready := rfl
@[simp] theorem updPair_fmtSticky (q : Nat) (f : QPair → QPair) (s : State) : (updPair q f s).fmtSticky = s.fmtSticky := rfl
@[simp] theorem updPair_cnt (q : Nat) (f : QPair → QPair) (s : State) : (updPair q f s).cnt = s.cnt := rfl
@[simp] theorem updPair_ram (q : Nat) (f : QPair → QPair) (s : State) : (updPair q f s).ram = s.ram := rfl
@[simp] theorem updPair_ramUndef (q : Nat) (f : QPair → QPair) (s : State) : (updPair q f s).ramUndef = s.ramUndef := rfl
@[simp] theorem updPair_mgmt (q : Nat) (f : QPair → QPair) (s : State) : (updPair q f s).mgmt = s.mgmt := rfl
@[simp] theorem updPair_host (q : Nat) (f : QPair → QPair) (s : State) : (updPair q f s).host = s.host := rfl
@[simp] theorem updPair_tbu (q : Nat) (f : QPair → QPair) (s : State) : (updPair q f s).tbu = s.tbu := rfl
@[simp] theorem updPair_pwr (q : Nat) (f : QPair → QPair) (s : State) : (updPair q f s).pwr = s.pwr := rfl
@[simp] theorem updPair_err (q : Nat) (f : QPair → QPair) (s : State) : (updPair q f s).err = s.err := rfl
@[simp] theorem updPair_slate (q : Nat) (f : QPair → QPair) (s : State) : (updPair q f s).slate = s.slate := rfl
@[simp] theorem updPair_plans (q : Nat) (f : QPair → QPair) (s : State) : (updPair q f s).plans = s.plans := rfl
@[simp] theorem updPair_arrs (q : Nat) (f : QPair → QPair) (s : State) : (updPair q f s).arrs = s.arrs := rfl
@[simp] theorem updPair_exclStored (q : Nat) (f : QPair → QPair) (s : State) : (updPair q f s).exclStored = s.exclStored := rfl
@[simp] theorem updPair_norm (q : Nat) (f : QPair → QPair) (s : State) : (updPair q f s).norm = s.norm := rfl
@[simp] theorem updPair_normSum (q : Nat) (f : QPair → QPair) (s : State) : (updPair q f s).normSum = s.normSum := rfl
@[simp] theorem updPair_taint (q : Nat) (f : QPair → QPair) (s : State) : (updPair q f s).taint = s.taint := rfl
@[simp] theorem updPair_tiers (q : Nat) (f : QPair → QPair) (s : State) : (updPair q f s).tiers = s.tiers := rfl
@[simp] theorem updPair_models (q : Nat) (f : QPair → QPair) (s : State) : (updPair q f s).models = s.models := rfl
@[simp] theorem updPair_codec (q : Nat) (f : QPair → QPair) (s : State) : (updPair q f s).codec = s.codec := rfl
@[simp] theorem updPair_spar (q : Nat) (f : QPair → QPair) (s : State) : (updPair q f s).spar = s.spar := rfl
@[simp] theorem updPair_sec (q : Nat) (f : QPair → QPair) (s : State) : (updPair q f s).sec = s.sec := rfl
@[simp] theorem updPair_flash (q : Nat) (f : QPair → QPair) (s : State) : (updPair q f s).flash = s.flash := rfl
@[simp] theorem updPair_maint (q : Nat) (f : QPair → QPair) (s : State) : (updPair q f s).maint = s.maint := rfl
@[simp] theorem updPair_out (q : Nat) (f : QPair → QPair) (s : State) : (updPair q f s).out = s.out := rfl
@[simp] theorem updPair_free (q : Nat) (f : QPair → QPair) (s : State) : (updPair q f s).free = s.free := rfl
@[simp] theorem updPair_pending (q : Nat) (f : QPair → QPair) (s : State) : (updPair q f s).pending = s.pending := rfl

@[simp] theorem dropCmd_part (i : Nat) (s : State) : (dropCmd i s).part = s.part := rfl
@[simp] theorem dropCmd_ready (i : Nat) (s : State) : (dropCmd i s).ready = s.ready := rfl
@[simp] theorem dropCmd_fmtSticky (i : Nat) (s : State) : (dropCmd i s).fmtSticky = s.fmtSticky := rfl
@[simp] theorem dropCmd_cnt (i : Nat) (s : State) : (dropCmd i s).cnt = s.cnt := rfl
@[simp] theorem dropCmd_ram (i : Nat) (s : State) : (dropCmd i s).ram = s.ram := rfl
@[simp] theorem dropCmd_ramUndef (i : Nat) (s : State) : (dropCmd i s).ramUndef = s.ramUndef := rfl
@[simp] theorem dropCmd_mgmt (i : Nat) (s : State) : (dropCmd i s).mgmt = s.mgmt := rfl
@[simp] theorem dropCmd_host (i : Nat) (s : State) : (dropCmd i s).host = s.host := rfl
@[simp] theorem dropCmd_tbu (i : Nat) (s : State) : (dropCmd i s).tbu = s.tbu := rfl
@[simp] theorem dropCmd_pwr (i : Nat) (s : State) : (dropCmd i s).pwr = s.pwr := rfl
@[simp] theorem dropCmd_err (i : Nat) (s : State) : (dropCmd i s).err = s.err := rfl
@[simp] theorem dropCmd_slate (i : Nat) (s : State) : (dropCmd i s).slate = s.slate := rfl
@[simp] theorem dropCmd_plans (i : Nat) (s : State) : (dropCmd i s).plans = s.plans := rfl
@[simp] theorem dropCmd_arrs (i : Nat) (s : State) : (dropCmd i s).arrs = s.arrs := rfl
@[simp] theorem dropCmd_exclStored (i : Nat) (s : State) : (dropCmd i s).exclStored = s.exclStored := rfl
@[simp] theorem dropCmd_norm (i : Nat) (s : State) : (dropCmd i s).norm = s.norm := rfl
@[simp] theorem dropCmd_normSum (i : Nat) (s : State) : (dropCmd i s).normSum = s.normSum := rfl
@[simp] theorem dropCmd_taint (i : Nat) (s : State) : (dropCmd i s).taint = s.taint := rfl
@[simp] theorem dropCmd_tiers (i : Nat) (s : State) : (dropCmd i s).tiers = s.tiers := rfl
@[simp] theorem dropCmd_models (i : Nat) (s : State) : (dropCmd i s).models = s.models := rfl
@[simp] theorem dropCmd_codec (i : Nat) (s : State) : (dropCmd i s).codec = s.codec := rfl
@[simp] theorem dropCmd_spar (i : Nat) (s : State) : (dropCmd i s).spar = s.spar := rfl
@[simp] theorem dropCmd_sec (i : Nat) (s : State) : (dropCmd i s).sec = s.sec := rfl
@[simp] theorem dropCmd_flash (i : Nat) (s : State) : (dropCmd i s).flash = s.flash := rfl
@[simp] theorem dropCmd_maint (i : Nat) (s : State) : (dropCmd i s).maint = s.maint := rfl
@[simp] theorem dropCmd_out (i : Nat) (s : State) : (dropCmd i s).out = s.out := rfl
@[simp] theorem dropCmd_free (i : Nat) (s : State) : (dropCmd i s).free = s.free := rfl
@[simp] theorem dropCmd_pending (i : Nat) (s : State) : (dropCmd i s).pending = s.pending := rfl

@[simp] theorem setRunning_part (i : Nat) (s : State) : (setRunning i s).part = s.part := rfl
@[simp] theorem setRunning_ready (i : Nat) (s : State) : (setRunning i s).ready = s.ready := rfl
@[simp] theorem setRunning_fmtSticky (i : Nat) (s : State) : (setRunning i s).fmtSticky = s.fmtSticky := rfl
@[simp] theorem setRunning_cnt (i : Nat) (s : State) : (setRunning i s).cnt = s.cnt := rfl
@[simp] theorem setRunning_ram (i : Nat) (s : State) : (setRunning i s).ram = s.ram := rfl
@[simp] theorem setRunning_ramUndef (i : Nat) (s : State) : (setRunning i s).ramUndef = s.ramUndef := rfl
@[simp] theorem setRunning_mgmt (i : Nat) (s : State) : (setRunning i s).mgmt = s.mgmt := rfl
@[simp] theorem setRunning_host (i : Nat) (s : State) : (setRunning i s).host = s.host := rfl
@[simp] theorem setRunning_tbu (i : Nat) (s : State) : (setRunning i s).tbu = s.tbu := rfl
@[simp] theorem setRunning_pwr (i : Nat) (s : State) : (setRunning i s).pwr = s.pwr := rfl
@[simp] theorem setRunning_err (i : Nat) (s : State) : (setRunning i s).err = s.err := rfl
@[simp] theorem setRunning_slate (i : Nat) (s : State) : (setRunning i s).slate = s.slate := rfl
@[simp] theorem setRunning_plans (i : Nat) (s : State) : (setRunning i s).plans = s.plans := rfl
@[simp] theorem setRunning_arrs (i : Nat) (s : State) : (setRunning i s).arrs = s.arrs := rfl
@[simp] theorem setRunning_exclStored (i : Nat) (s : State) : (setRunning i s).exclStored = s.exclStored := rfl
@[simp] theorem setRunning_norm (i : Nat) (s : State) : (setRunning i s).norm = s.norm := rfl
@[simp] theorem setRunning_normSum (i : Nat) (s : State) : (setRunning i s).normSum = s.normSum := rfl
@[simp] theorem setRunning_taint (i : Nat) (s : State) : (setRunning i s).taint = s.taint := rfl
@[simp] theorem setRunning_tiers (i : Nat) (s : State) : (setRunning i s).tiers = s.tiers := rfl
@[simp] theorem setRunning_models (i : Nat) (s : State) : (setRunning i s).models = s.models := rfl
@[simp] theorem setRunning_codec (i : Nat) (s : State) : (setRunning i s).codec = s.codec := rfl
@[simp] theorem setRunning_spar (i : Nat) (s : State) : (setRunning i s).spar = s.spar := rfl
@[simp] theorem setRunning_sec (i : Nat) (s : State) : (setRunning i s).sec = s.sec := rfl
@[simp] theorem setRunning_flash (i : Nat) (s : State) : (setRunning i s).flash = s.flash := rfl
@[simp] theorem setRunning_maint (i : Nat) (s : State) : (setRunning i s).maint = s.maint := rfl
@[simp] theorem setRunning_out (i : Nat) (s : State) : (setRunning i s).out = s.out := rfl
@[simp] theorem setRunning_free (i : Nat) (s : State) : (setRunning i s).free = s.free := rfl
@[simp] theorem setRunning_pending (i : Nat) (s : State) : (setRunning i s).pending = s.pending := rfl

@[simp] theorem updReloc_part (i : Nat) (f : Reloc → Reloc) (s : State) : (updReloc i f s).part = s.part := rfl
@[simp] theorem updReloc_ready (i : Nat) (f : Reloc → Reloc) (s : State) : (updReloc i f s).ready = s.ready := rfl
@[simp] theorem updReloc_fmtSticky (i : Nat) (f : Reloc → Reloc) (s : State) : (updReloc i f s).fmtSticky = s.fmtSticky := rfl
@[simp] theorem updReloc_cnt (i : Nat) (f : Reloc → Reloc) (s : State) : (updReloc i f s).cnt = s.cnt := rfl
@[simp] theorem updReloc_ram (i : Nat) (f : Reloc → Reloc) (s : State) : (updReloc i f s).ram = s.ram := rfl
@[simp] theorem updReloc_ramUndef (i : Nat) (f : Reloc → Reloc) (s : State) : (updReloc i f s).ramUndef = s.ramUndef := rfl
@[simp] theorem updReloc_mgmt (i : Nat) (f : Reloc → Reloc) (s : State) : (updReloc i f s).mgmt = s.mgmt := rfl
@[simp] theorem updReloc_mbx (i : Nat) (f : Reloc → Reloc) (s : State) : (updReloc i f s).mbx = s.mbx := rfl
@[simp] theorem updReloc_host (i : Nat) (f : Reloc → Reloc) (s : State) : (updReloc i f s).host = s.host := rfl
@[simp] theorem updReloc_tbu (i : Nat) (f : Reloc → Reloc) (s : State) : (updReloc i f s).tbu = s.tbu := rfl
@[simp] theorem updReloc_pwr (i : Nat) (f : Reloc → Reloc) (s : State) : (updReloc i f s).pwr = s.pwr := rfl
@[simp] theorem updReloc_err (i : Nat) (f : Reloc → Reloc) (s : State) : (updReloc i f s).err = s.err := rfl
@[simp] theorem updReloc_plans (i : Nat) (f : Reloc → Reloc) (s : State) : (updReloc i f s).plans = s.plans := rfl
@[simp] theorem updReloc_arrs (i : Nat) (f : Reloc → Reloc) (s : State) : (updReloc i f s).arrs = s.arrs := rfl
@[simp] theorem updReloc_exclStored (i : Nat) (f : Reloc → Reloc) (s : State) : (updReloc i f s).exclStored = s.exclStored := rfl
@[simp] theorem updReloc_norm (i : Nat) (f : Reloc → Reloc) (s : State) : (updReloc i f s).norm = s.norm := rfl
@[simp] theorem updReloc_normSum (i : Nat) (f : Reloc → Reloc) (s : State) : (updReloc i f s).normSum = s.normSum := rfl
@[simp] theorem updReloc_taint (i : Nat) (f : Reloc → Reloc) (s : State) : (updReloc i f s).taint = s.taint := rfl
@[simp] theorem updReloc_tiers (i : Nat) (f : Reloc → Reloc) (s : State) : (updReloc i f s).tiers = s.tiers := rfl
@[simp] theorem updReloc_models (i : Nat) (f : Reloc → Reloc) (s : State) : (updReloc i f s).models = s.models := rfl
@[simp] theorem updReloc_codec (i : Nat) (f : Reloc → Reloc) (s : State) : (updReloc i f s).codec = s.codec := rfl
@[simp] theorem updReloc_spar (i : Nat) (f : Reloc → Reloc) (s : State) : (updReloc i f s).spar = s.spar := rfl
@[simp] theorem updReloc_sec (i : Nat) (f : Reloc → Reloc) (s : State) : (updReloc i f s).sec = s.sec := rfl
@[simp] theorem updReloc_flash (i : Nat) (f : Reloc → Reloc) (s : State) : (updReloc i f s).flash = s.flash := rfl
@[simp] theorem updReloc_maint (i : Nat) (f : Reloc → Reloc) (s : State) : (updReloc i f s).maint = s.maint := rfl
@[simp] theorem updReloc_out (i : Nat) (f : Reloc → Reloc) (s : State) : (updReloc i f s).out = s.out := rfl
@[simp] theorem updReloc_free (i : Nat) (f : Reloc → Reloc) (s : State) : (updReloc i f s).free = s.free := rfl
@[simp] theorem updReloc_pending (i : Nat) (f : Reloc → Reloc) (s : State) : (updReloc i f s).pending = s.pending := rfl

@[simp] theorem updLend_part (id : Nat) (f : Lend → Lend) (s : State) : (updLend id f s).part = s.part := rfl
@[simp] theorem updLend_ready (id : Nat) (f : Lend → Lend) (s : State) : (updLend id f s).ready = s.ready := rfl
@[simp] theorem updLend_fmtSticky (id : Nat) (f : Lend → Lend) (s : State) : (updLend id f s).fmtSticky = s.fmtSticky := rfl
@[simp] theorem updLend_cnt (id : Nat) (f : Lend → Lend) (s : State) : (updLend id f s).cnt = s.cnt := rfl
@[simp] theorem updLend_ram (id : Nat) (f : Lend → Lend) (s : State) : (updLend id f s).ram = s.ram := rfl
@[simp] theorem updLend_ramUndef (id : Nat) (f : Lend → Lend) (s : State) : (updLend id f s).ramUndef = s.ramUndef := rfl
@[simp] theorem updLend_mgmt (id : Nat) (f : Lend → Lend) (s : State) : (updLend id f s).mgmt = s.mgmt := rfl
@[simp] theorem updLend_mbx (id : Nat) (f : Lend → Lend) (s : State) : (updLend id f s).mbx = s.mbx := rfl
@[simp] theorem updLend_host (id : Nat) (f : Lend → Lend) (s : State) : (updLend id f s).host = s.host := rfl
@[simp] theorem updLend_tbu (id : Nat) (f : Lend → Lend) (s : State) : (updLend id f s).tbu = s.tbu := rfl
@[simp] theorem updLend_pwr (id : Nat) (f : Lend → Lend) (s : State) : (updLend id f s).pwr = s.pwr := rfl
@[simp] theorem updLend_err (id : Nat) (f : Lend → Lend) (s : State) : (updLend id f s).err = s.err := rfl
@[simp] theorem updLend_slate (id : Nat) (f : Lend → Lend) (s : State) : (updLend id f s).slate = s.slate := rfl
@[simp] theorem updLend_plans (id : Nat) (f : Lend → Lend) (s : State) : (updLend id f s).plans = s.plans := rfl
@[simp] theorem updLend_arrs (id : Nat) (f : Lend → Lend) (s : State) : (updLend id f s).arrs = s.arrs := rfl
@[simp] theorem updLend_exclStored (id : Nat) (f : Lend → Lend) (s : State) : (updLend id f s).exclStored = s.exclStored := rfl
@[simp] theorem updLend_norm (id : Nat) (f : Lend → Lend) (s : State) : (updLend id f s).norm = s.norm := rfl
@[simp] theorem updLend_normSum (id : Nat) (f : Lend → Lend) (s : State) : (updLend id f s).normSum = s.normSum := rfl
@[simp] theorem updLend_taint (id : Nat) (f : Lend → Lend) (s : State) : (updLend id f s).taint = s.taint := rfl
@[simp] theorem updLend_models (id : Nat) (f : Lend → Lend) (s : State) : (updLend id f s).models = s.models := rfl
@[simp] theorem updLend_codec (id : Nat) (f : Lend → Lend) (s : State) : (updLend id f s).codec = s.codec := rfl
@[simp] theorem updLend_spar (id : Nat) (f : Lend → Lend) (s : State) : (updLend id f s).spar = s.spar := rfl
@[simp] theorem updLend_sec (id : Nat) (f : Lend → Lend) (s : State) : (updLend id f s).sec = s.sec := rfl
@[simp] theorem updLend_flash (id : Nat) (f : Lend → Lend) (s : State) : (updLend id f s).flash = s.flash := rfl
@[simp] theorem updLend_maint (id : Nat) (f : Lend → Lend) (s : State) : (updLend id f s).maint = s.maint := rfl
@[simp] theorem updLend_out (id : Nat) (f : Lend → Lend) (s : State) : (updLend id f s).out = s.out := rfl
@[simp] theorem updLend_free (id : Nat) (f : Lend → Lend) (s : State) : (updLend id f s).free = s.free := rfl
@[simp] theorem updLend_pending (id : Nat) (f : Lend → Lend) (s : State) : (updLend id f s).pending = s.pending := rfl

@[simp] theorem updTab_part (e : Nat) (f : TabSt → TabSt) (s : State) : (updTab e f s).part = s.part := rfl
@[simp] theorem updTab_ready (e : Nat) (f : TabSt → TabSt) (s : State) : (updTab e f s).ready = s.ready := rfl
@[simp] theorem updTab_fmtSticky (e : Nat) (f : TabSt → TabSt) (s : State) : (updTab e f s).fmtSticky = s.fmtSticky := rfl
@[simp] theorem updTab_cnt (e : Nat) (f : TabSt → TabSt) (s : State) : (updTab e f s).cnt = s.cnt := rfl
@[simp] theorem updTab_ram (e : Nat) (f : TabSt → TabSt) (s : State) : (updTab e f s).ram = s.ram := rfl
@[simp] theorem updTab_ramUndef (e : Nat) (f : TabSt → TabSt) (s : State) : (updTab e f s).ramUndef = s.ramUndef := rfl
@[simp] theorem updTab_mgmt (e : Nat) (f : TabSt → TabSt) (s : State) : (updTab e f s).mgmt = s.mgmt := rfl
@[simp] theorem updTab_mbx (e : Nat) (f : TabSt → TabSt) (s : State) : (updTab e f s).mbx = s.mbx := rfl
@[simp] theorem updTab_host (e : Nat) (f : TabSt → TabSt) (s : State) : (updTab e f s).host = s.host := rfl
@[simp] theorem updTab_tbu (e : Nat) (f : TabSt → TabSt) (s : State) : (updTab e f s).tbu = s.tbu := rfl
@[simp] theorem updTab_pwr (e : Nat) (f : TabSt → TabSt) (s : State) : (updTab e f s).pwr = s.pwr := rfl
@[simp] theorem updTab_err (e : Nat) (f : TabSt → TabSt) (s : State) : (updTab e f s).err = s.err := rfl
@[simp] theorem updTab_slate (e : Nat) (f : TabSt → TabSt) (s : State) : (updTab e f s).slate = s.slate := rfl
@[simp] theorem updTab_plans (e : Nat) (f : TabSt → TabSt) (s : State) : (updTab e f s).plans = s.plans := rfl
@[simp] theorem updTab_arrs (e : Nat) (f : TabSt → TabSt) (s : State) : (updTab e f s).arrs = s.arrs := rfl
@[simp] theorem updTab_exclStored (e : Nat) (f : TabSt → TabSt) (s : State) : (updTab e f s).exclStored = s.exclStored := rfl
@[simp] theorem updTab_norm (e : Nat) (f : TabSt → TabSt) (s : State) : (updTab e f s).norm = s.norm := rfl
@[simp] theorem updTab_normSum (e : Nat) (f : TabSt → TabSt) (s : State) : (updTab e f s).normSum = s.normSum := rfl
@[simp] theorem updTab_taint (e : Nat) (f : TabSt → TabSt) (s : State) : (updTab e f s).taint = s.taint := rfl
@[simp] theorem updTab_tiers (e : Nat) (f : TabSt → TabSt) (s : State) : (updTab e f s).tiers = s.tiers := rfl
@[simp] theorem updTab_models (e : Nat) (f : TabSt → TabSt) (s : State) : (updTab e f s).models = s.models := rfl
@[simp] theorem updTab_spar (e : Nat) (f : TabSt → TabSt) (s : State) : (updTab e f s).spar = s.spar := rfl
@[simp] theorem updTab_sec (e : Nat) (f : TabSt → TabSt) (s : State) : (updTab e f s).sec = s.sec := rfl
@[simp] theorem updTab_flash (e : Nat) (f : TabSt → TabSt) (s : State) : (updTab e f s).flash = s.flash := rfl
@[simp] theorem updTab_maint (e : Nat) (f : TabSt → TabSt) (s : State) : (updTab e f s).maint = s.maint := rfl
@[simp] theorem updTab_out (e : Nat) (f : TabSt → TabSt) (s : State) : (updTab e f s).out = s.out := rfl
@[simp] theorem updTab_free (e : Nat) (f : TabSt → TabSt) (s : State) : (updTab e f s).free = s.free := rfl
@[simp] theorem updTab_pending (e : Nat) (f : TabSt → TabSt) (s : State) : (updTab e f s).pending = s.pending := rfl

@[simp] theorem updColl_part (h sc : Nat) (f : HubCtx → HubCtx) (s : State) : (updColl h sc f s).part = s.part := rfl
@[simp] theorem updColl_ready (h sc : Nat) (f : HubCtx → HubCtx) (s : State) : (updColl h sc f s).ready = s.ready := rfl
@[simp] theorem updColl_fmtSticky (h sc : Nat) (f : HubCtx → HubCtx) (s : State) : (updColl h sc f s).fmtSticky = s.fmtSticky := rfl
@[simp] theorem updColl_cnt (h sc : Nat) (f : HubCtx → HubCtx) (s : State) : (updColl h sc f s).cnt = s.cnt := rfl
@[simp] theorem updColl_ram (h sc : Nat) (f : HubCtx → HubCtx) (s : State) : (updColl h sc f s).ram = s.ram := rfl
@[simp] theorem updColl_ramUndef (h sc : Nat) (f : HubCtx → HubCtx) (s : State) : (updColl h sc f s).ramUndef = s.ramUndef := rfl
@[simp] theorem updColl_mgmt (h sc : Nat) (f : HubCtx → HubCtx) (s : State) : (updColl h sc f s).mgmt = s.mgmt := rfl
@[simp] theorem updColl_mbx (h sc : Nat) (f : HubCtx → HubCtx) (s : State) : (updColl h sc f s).mbx = s.mbx := rfl
@[simp] theorem updColl_host (h sc : Nat) (f : HubCtx → HubCtx) (s : State) : (updColl h sc f s).host = s.host := rfl
@[simp] theorem updColl_tbu (h sc : Nat) (f : HubCtx → HubCtx) (s : State) : (updColl h sc f s).tbu = s.tbu := rfl
@[simp] theorem updColl_pwr (h sc : Nat) (f : HubCtx → HubCtx) (s : State) : (updColl h sc f s).pwr = s.pwr := rfl
@[simp] theorem updColl_err (h sc : Nat) (f : HubCtx → HubCtx) (s : State) : (updColl h sc f s).err = s.err := rfl
@[simp] theorem updColl_slate (h sc : Nat) (f : HubCtx → HubCtx) (s : State) : (updColl h sc f s).slate = s.slate := rfl
@[simp] theorem updColl_arrs (h sc : Nat) (f : HubCtx → HubCtx) (s : State) : (updColl h sc f s).arrs = s.arrs := rfl
@[simp] theorem updColl_exclStored (h sc : Nat) (f : HubCtx → HubCtx) (s : State) : (updColl h sc f s).exclStored = s.exclStored := rfl
@[simp] theorem updColl_norm (h sc : Nat) (f : HubCtx → HubCtx) (s : State) : (updColl h sc f s).norm = s.norm := rfl
@[simp] theorem updColl_normSum (h sc : Nat) (f : HubCtx → HubCtx) (s : State) : (updColl h sc f s).normSum = s.normSum := rfl
@[simp] theorem updColl_taint (h sc : Nat) (f : HubCtx → HubCtx) (s : State) : (updColl h sc f s).taint = s.taint := rfl
@[simp] theorem updColl_tiers (h sc : Nat) (f : HubCtx → HubCtx) (s : State) : (updColl h sc f s).tiers = s.tiers := rfl
@[simp] theorem updColl_models (h sc : Nat) (f : HubCtx → HubCtx) (s : State) : (updColl h sc f s).models = s.models := rfl
@[simp] theorem updColl_codec (h sc : Nat) (f : HubCtx → HubCtx) (s : State) : (updColl h sc f s).codec = s.codec := rfl
@[simp] theorem updColl_spar (h sc : Nat) (f : HubCtx → HubCtx) (s : State) : (updColl h sc f s).spar = s.spar := rfl
@[simp] theorem updColl_sec (h sc : Nat) (f : HubCtx → HubCtx) (s : State) : (updColl h sc f s).sec = s.sec := rfl
@[simp] theorem updColl_flash (h sc : Nat) (f : HubCtx → HubCtx) (s : State) : (updColl h sc f s).flash = s.flash := rfl
@[simp] theorem updColl_maint (h sc : Nat) (f : HubCtx → HubCtx) (s : State) : (updColl h sc f s).maint = s.maint := rfl
@[simp] theorem updColl_out (h sc : Nat) (f : HubCtx → HubCtx) (s : State) : (updColl h sc f s).out = s.out := rfl
@[simp] theorem updColl_free (h sc : Nat) (f : HubCtx → HubCtx) (s : State) : (updColl h sc f s).free = s.free := rfl
@[simp] theorem updColl_pending (h sc : Nat) (f : HubCtx → HubCtx) (s : State) : (updColl h sc f s).pending = s.pending := rfl

@[simp] theorem updStrm_part (h sc : Nat) (f : HubCtx → HubCtx) (s : State) : (updStrm h sc f s).part = s.part := rfl
@[simp] theorem updStrm_ready (h sc : Nat) (f : HubCtx → HubCtx) (s : State) : (updStrm h sc f s).ready = s.ready := rfl
@[simp] theorem updStrm_fmtSticky (h sc : Nat) (f : HubCtx → HubCtx) (s : State) : (updStrm h sc f s).fmtSticky = s.fmtSticky := rfl
@[simp] theorem updStrm_cnt (h sc : Nat) (f : HubCtx → HubCtx) (s : State) : (updStrm h sc f s).cnt = s.cnt := rfl
@[simp] theorem updStrm_ram (h sc : Nat) (f : HubCtx → HubCtx) (s : State) : (updStrm h sc f s).ram = s.ram := rfl
@[simp] theorem updStrm_ramUndef (h sc : Nat) (f : HubCtx → HubCtx) (s : State) : (updStrm h sc f s).ramUndef = s.ramUndef := rfl
@[simp] theorem updStrm_mgmt (h sc : Nat) (f : HubCtx → HubCtx) (s : State) : (updStrm h sc f s).mgmt = s.mgmt := rfl
@[simp] theorem updStrm_mbx (h sc : Nat) (f : HubCtx → HubCtx) (s : State) : (updStrm h sc f s).mbx = s.mbx := rfl
@[simp] theorem updStrm_host (h sc : Nat) (f : HubCtx → HubCtx) (s : State) : (updStrm h sc f s).host = s.host := rfl
@[simp] theorem updStrm_tbu (h sc : Nat) (f : HubCtx → HubCtx) (s : State) : (updStrm h sc f s).tbu = s.tbu := rfl
@[simp] theorem updStrm_pwr (h sc : Nat) (f : HubCtx → HubCtx) (s : State) : (updStrm h sc f s).pwr = s.pwr := rfl
@[simp] theorem updStrm_err (h sc : Nat) (f : HubCtx → HubCtx) (s : State) : (updStrm h sc f s).err = s.err := rfl
@[simp] theorem updStrm_slate (h sc : Nat) (f : HubCtx → HubCtx) (s : State) : (updStrm h sc f s).slate = s.slate := rfl
@[simp] theorem updStrm_arrs (h sc : Nat) (f : HubCtx → HubCtx) (s : State) : (updStrm h sc f s).arrs = s.arrs := rfl
@[simp] theorem updStrm_exclStored (h sc : Nat) (f : HubCtx → HubCtx) (s : State) : (updStrm h sc f s).exclStored = s.exclStored := rfl
@[simp] theorem updStrm_norm (h sc : Nat) (f : HubCtx → HubCtx) (s : State) : (updStrm h sc f s).norm = s.norm := rfl
@[simp] theorem updStrm_normSum (h sc : Nat) (f : HubCtx → HubCtx) (s : State) : (updStrm h sc f s).normSum = s.normSum := rfl
@[simp] theorem updStrm_taint (h sc : Nat) (f : HubCtx → HubCtx) (s : State) : (updStrm h sc f s).taint = s.taint := rfl
@[simp] theorem updStrm_tiers (h sc : Nat) (f : HubCtx → HubCtx) (s : State) : (updStrm h sc f s).tiers = s.tiers := rfl
@[simp] theorem updStrm_models (h sc : Nat) (f : HubCtx → HubCtx) (s : State) : (updStrm h sc f s).models = s.models := rfl
@[simp] theorem updStrm_codec (h sc : Nat) (f : HubCtx → HubCtx) (s : State) : (updStrm h sc f s).codec = s.codec := rfl
@[simp] theorem updStrm_spar (h sc : Nat) (f : HubCtx → HubCtx) (s : State) : (updStrm h sc f s).spar = s.spar := rfl
@[simp] theorem updStrm_sec (h sc : Nat) (f : HubCtx → HubCtx) (s : State) : (updStrm h sc f s).sec = s.sec := rfl
@[simp] theorem updStrm_flash (h sc : Nat) (f : HubCtx → HubCtx) (s : State) : (updStrm h sc f s).flash = s.flash := rfl
@[simp] theorem updStrm_maint (h sc : Nat) (f : HubCtx → HubCtx) (s : State) : (updStrm h sc f s).maint = s.maint := rfl
@[simp] theorem updStrm_out (h sc : Nat) (f : HubCtx → HubCtx) (s : State) : (updStrm h sc f s).out = s.out := rfl
@[simp] theorem updStrm_free (h sc : Nat) (f : HubCtx → HubCtx) (s : State) : (updStrm h sc f s).free = s.free := rfl
@[simp] theorem updStrm_pending (h sc : Nat) (f : HubCtx → HubCtx) (s : State) : (updStrm h sc f s).pending = s.pending := rfl

@[simp] theorem updRun_part (a idx : Nat) (f : FRun → FRun) (s : State) : (updRun a idx f s).part = s.part := rfl
@[simp] theorem updRun_ready (a idx : Nat) (f : FRun → FRun) (s : State) : (updRun a idx f s).ready = s.ready := rfl
@[simp] theorem updRun_fmtSticky (a idx : Nat) (f : FRun → FRun) (s : State) : (updRun a idx f s).fmtSticky = s.fmtSticky := rfl
@[simp] theorem updRun_cnt (a idx : Nat) (f : FRun → FRun) (s : State) : (updRun a idx f s).cnt = s.cnt := rfl
@[simp] theorem updRun_ram (a idx : Nat) (f : FRun → FRun) (s : State) : (updRun a idx f s).ram = s.ram := rfl
@[simp] theorem updRun_ramUndef (a idx : Nat) (f : FRun → FRun) (s : State) : (updRun a idx f s).ramUndef = s.ramUndef := rfl
@[simp] theorem updRun_mgmt (a idx : Nat) (f : FRun → FRun) (s : State) : (updRun a idx f s).mgmt = s.mgmt := rfl
@[simp] theorem updRun_mbx (a idx : Nat) (f : FRun → FRun) (s : State) : (updRun a idx f s).mbx = s.mbx := rfl
@[simp] theorem updRun_host (a idx : Nat) (f : FRun → FRun) (s : State) : (updRun a idx f s).host = s.host := rfl
@[simp] theorem updRun_tbu (a idx : Nat) (f : FRun → FRun) (s : State) : (updRun a idx f s).tbu = s.tbu := rfl
@[simp] theorem updRun_pwr (a idx : Nat) (f : FRun → FRun) (s : State) : (updRun a idx f s).pwr = s.pwr := rfl
@[simp] theorem updRun_err (a idx : Nat) (f : FRun → FRun) (s : State) : (updRun a idx f s).err = s.err := rfl
@[simp] theorem updRun_slate (a idx : Nat) (f : FRun → FRun) (s : State) : (updRun a idx f s).slate = s.slate := rfl
@[simp] theorem updRun_plans (a idx : Nat) (f : FRun → FRun) (s : State) : (updRun a idx f s).plans = s.plans := rfl
@[simp] theorem updRun_exclStored (a idx : Nat) (f : FRun → FRun) (s : State) : (updRun a idx f s).exclStored = s.exclStored := rfl
@[simp] theorem updRun_norm (a idx : Nat) (f : FRun → FRun) (s : State) : (updRun a idx f s).norm = s.norm := rfl
@[simp] theorem updRun_normSum (a idx : Nat) (f : FRun → FRun) (s : State) : (updRun a idx f s).normSum = s.normSum := rfl
@[simp] theorem updRun_taint (a idx : Nat) (f : FRun → FRun) (s : State) : (updRun a idx f s).taint = s.taint := rfl
@[simp] theorem updRun_tiers (a idx : Nat) (f : FRun → FRun) (s : State) : (updRun a idx f s).tiers = s.tiers := rfl
@[simp] theorem updRun_models (a idx : Nat) (f : FRun → FRun) (s : State) : (updRun a idx f s).models = s.models := rfl
@[simp] theorem updRun_codec (a idx : Nat) (f : FRun → FRun) (s : State) : (updRun a idx f s).codec = s.codec := rfl
@[simp] theorem updRun_spar (a idx : Nat) (f : FRun → FRun) (s : State) : (updRun a idx f s).spar = s.spar := rfl
@[simp] theorem updRun_sec (a idx : Nat) (f : FRun → FRun) (s : State) : (updRun a idx f s).sec = s.sec := rfl
@[simp] theorem updRun_flash (a idx : Nat) (f : FRun → FRun) (s : State) : (updRun a idx f s).flash = s.flash := rfl
@[simp] theorem updRun_maint (a idx : Nat) (f : FRun → FRun) (s : State) : (updRun a idx f s).maint = s.maint := rfl
@[simp] theorem updRun_out (a idx : Nat) (f : FRun → FRun) (s : State) : (updRun a idx f s).out = s.out := rfl
@[simp] theorem updRun_free (a idx : Nat) (f : FRun → FRun) (s : State) : (updRun a idx f s).free = s.free := rfl
@[simp] theorem updRun_pending (a idx : Nat) (f : FRun → FRun) (s : State) : (updRun a idx f s).pending = s.pending := rfl

@[simp] theorem updProg_part (a idx : Nat) (f : InProg → InProg) (s : State) : (updProg a idx f s).part = s.part := rfl
@[simp] theorem updProg_ready (a idx : Nat) (f : InProg → InProg) (s : State) : (updProg a idx f s).ready = s.ready := rfl
@[simp] theorem updProg_fmtSticky (a idx : Nat) (f : InProg → InProg) (s : State) : (updProg a idx f s).fmtSticky = s.fmtSticky := rfl
@[simp] theorem updProg_cnt (a idx : Nat) (f : InProg → InProg) (s : State) : (updProg a idx f s).cnt = s.cnt := rfl
@[simp] theorem updProg_ram (a idx : Nat) (f : InProg → InProg) (s : State) : (updProg a idx f s).ram = s.ram := rfl
@[simp] theorem updProg_ramUndef (a idx : Nat) (f : InProg → InProg) (s : State) : (updProg a idx f s).ramUndef = s.ramUndef := rfl
@[simp] theorem updProg_mgmt (a idx : Nat) (f : InProg → InProg) (s : State) : (updProg a idx f s).mgmt = s.mgmt := rfl
@[simp] theorem updProg_mbx (a idx : Nat) (f : InProg → InProg) (s : State) : (updProg a idx f s).mbx = s.mbx := rfl
@[simp] theorem updProg_host (a idx : Nat) (f : InProg → InProg) (s : State) : (updProg a idx f s).host = s.host := rfl
@[simp] theorem updProg_tbu (a idx : Nat) (f : InProg → InProg) (s : State) : (updProg a idx f s).tbu = s.tbu := rfl
@[simp] theorem updProg_pwr (a idx : Nat) (f : InProg → InProg) (s : State) : (updProg a idx f s).pwr = s.pwr := rfl
@[simp] theorem updProg_err (a idx : Nat) (f : InProg → InProg) (s : State) : (updProg a idx f s).err = s.err := rfl
@[simp] theorem updProg_slate (a idx : Nat) (f : InProg → InProg) (s : State) : (updProg a idx f s).slate = s.slate := rfl
@[simp] theorem updProg_plans (a idx : Nat) (f : InProg → InProg) (s : State) : (updProg a idx f s).plans = s.plans := rfl
@[simp] theorem updProg_exclStored (a idx : Nat) (f : InProg → InProg) (s : State) : (updProg a idx f s).exclStored = s.exclStored := rfl
@[simp] theorem updProg_norm (a idx : Nat) (f : InProg → InProg) (s : State) : (updProg a idx f s).norm = s.norm := rfl
@[simp] theorem updProg_normSum (a idx : Nat) (f : InProg → InProg) (s : State) : (updProg a idx f s).normSum = s.normSum := rfl
@[simp] theorem updProg_taint (a idx : Nat) (f : InProg → InProg) (s : State) : (updProg a idx f s).taint = s.taint := rfl
@[simp] theorem updProg_tiers (a idx : Nat) (f : InProg → InProg) (s : State) : (updProg a idx f s).tiers = s.tiers := rfl
@[simp] theorem updProg_models (a idx : Nat) (f : InProg → InProg) (s : State) : (updProg a idx f s).models = s.models := rfl
@[simp] theorem updProg_codec (a idx : Nat) (f : InProg → InProg) (s : State) : (updProg a idx f s).codec = s.codec := rfl
@[simp] theorem updProg_spar (a idx : Nat) (f : InProg → InProg) (s : State) : (updProg a idx f s).spar = s.spar := rfl
@[simp] theorem updProg_sec (a idx : Nat) (f : InProg → InProg) (s : State) : (updProg a idx f s).sec = s.sec := rfl
@[simp] theorem updProg_flash (a idx : Nat) (f : InProg → InProg) (s : State) : (updProg a idx f s).flash = s.flash := rfl
@[simp] theorem updProg_maint (a idx : Nat) (f : InProg → InProg) (s : State) : (updProg a idx f s).maint = s.maint := rfl
@[simp] theorem updProg_out (a idx : Nat) (f : InProg → InProg) (s : State) : (updProg a idx f s).out = s.out := rfl
@[simp] theorem updProg_free (a idx : Nat) (f : InProg → InProg) (s : State) : (updProg a idx f s).free = s.free := rfl
@[simp] theorem updProg_pending (a idx : Nat) (f : InProg → InProg) (s : State) : (updProg a idx f s).pending = s.pending := rfl

@[simp] theorem updLine_part (a k lb ln : Nat) (f : SweepLine → SweepLine) (s : State) : (updLine a k lb ln f s).part = s.part := rfl
@[simp] theorem updLine_ready (a k lb ln : Nat) (f : SweepLine → SweepLine) (s : State) : (updLine a k lb ln f s).ready = s.ready := rfl
@[simp] theorem updLine_fmtSticky (a k lb ln : Nat) (f : SweepLine → SweepLine) (s : State) : (updLine a k lb ln f s).fmtSticky = s.fmtSticky := rfl
@[simp] theorem updLine_cnt (a k lb ln : Nat) (f : SweepLine → SweepLine) (s : State) : (updLine a k lb ln f s).cnt = s.cnt := rfl
@[simp] theorem updLine_ram (a k lb ln : Nat) (f : SweepLine → SweepLine) (s : State) : (updLine a k lb ln f s).ram = s.ram := rfl
@[simp] theorem updLine_ramUndef (a k lb ln : Nat) (f : SweepLine → SweepLine) (s : State) : (updLine a k lb ln f s).ramUndef = s.ramUndef := rfl
@[simp] theorem updLine_mgmt (a k lb ln : Nat) (f : SweepLine → SweepLine) (s : State) : (updLine a k lb ln f s).mgmt = s.mgmt := rfl
@[simp] theorem updLine_mbx (a k lb ln : Nat) (f : SweepLine → SweepLine) (s : State) : (updLine a k lb ln f s).mbx = s.mbx := rfl
@[simp] theorem updLine_host (a k lb ln : Nat) (f : SweepLine → SweepLine) (s : State) : (updLine a k lb ln f s).host = s.host := rfl
@[simp] theorem updLine_tbu (a k lb ln : Nat) (f : SweepLine → SweepLine) (s : State) : (updLine a k lb ln f s).tbu = s.tbu := rfl
@[simp] theorem updLine_pwr (a k lb ln : Nat) (f : SweepLine → SweepLine) (s : State) : (updLine a k lb ln f s).pwr = s.pwr := rfl
@[simp] theorem updLine_err (a k lb ln : Nat) (f : SweepLine → SweepLine) (s : State) : (updLine a k lb ln f s).err = s.err := rfl
@[simp] theorem updLine_slate (a k lb ln : Nat) (f : SweepLine → SweepLine) (s : State) : (updLine a k lb ln f s).slate = s.slate := rfl
@[simp] theorem updLine_plans (a k lb ln : Nat) (f : SweepLine → SweepLine) (s : State) : (updLine a k lb ln f s).plans = s.plans := rfl
@[simp] theorem updLine_exclStored (a k lb ln : Nat) (f : SweepLine → SweepLine) (s : State) : (updLine a k lb ln f s).exclStored = s.exclStored := rfl
@[simp] theorem updLine_norm (a k lb ln : Nat) (f : SweepLine → SweepLine) (s : State) : (updLine a k lb ln f s).norm = s.norm := rfl
@[simp] theorem updLine_normSum (a k lb ln : Nat) (f : SweepLine → SweepLine) (s : State) : (updLine a k lb ln f s).normSum = s.normSum := rfl
@[simp] theorem updLine_taint (a k lb ln : Nat) (f : SweepLine → SweepLine) (s : State) : (updLine a k lb ln f s).taint = s.taint := rfl
@[simp] theorem updLine_tiers (a k lb ln : Nat) (f : SweepLine → SweepLine) (s : State) : (updLine a k lb ln f s).tiers = s.tiers := rfl
@[simp] theorem updLine_models (a k lb ln : Nat) (f : SweepLine → SweepLine) (s : State) : (updLine a k lb ln f s).models = s.models := rfl
@[simp] theorem updLine_codec (a k lb ln : Nat) (f : SweepLine → SweepLine) (s : State) : (updLine a k lb ln f s).codec = s.codec := rfl
@[simp] theorem updLine_spar (a k lb ln : Nat) (f : SweepLine → SweepLine) (s : State) : (updLine a k lb ln f s).spar = s.spar := rfl
@[simp] theorem updLine_sec (a k lb ln : Nat) (f : SweepLine → SweepLine) (s : State) : (updLine a k lb ln f s).sec = s.sec := rfl
@[simp] theorem updLine_flash (a k lb ln : Nat) (f : SweepLine → SweepLine) (s : State) : (updLine a k lb ln f s).flash = s.flash := rfl
@[simp] theorem updLine_maint (a k lb ln : Nat) (f : SweepLine → SweepLine) (s : State) : (updLine a k lb ln f s).maint = s.maint := rfl
@[simp] theorem updLine_out (a k lb ln : Nat) (f : SweepLine → SweepLine) (s : State) : (updLine a k lb ln f s).out = s.out := rfl
@[simp] theorem updLine_free (a k lb ln : Nat) (f : SweepLine → SweepLine) (s : State) : (updLine a k lb ln f s).free = s.free := rfl
@[simp] theorem updLine_pending (a k lb ln : Nat) (f : SweepLine → SweepLine) (s : State) : (updLine a k lb ln f s).pending = s.pending := rfl

@[simp] theorem updPort_part (p : Nat) (f : Port → Port) (s : State) : (updPort p f s).part = s.part := rfl
@[simp] theorem updPort_ready (p : Nat) (f : Port → Port) (s : State) : (updPort p f s).ready = s.ready := rfl
@[simp] theorem updPort_fmtSticky (p : Nat) (f : Port → Port) (s : State) : (updPort p f s).fmtSticky = s.fmtSticky := rfl
@[simp] theorem updPort_cnt (p : Nat) (f : Port → Port) (s : State) : (updPort p f s).cnt = s.cnt := rfl
@[simp] theorem updPort_ram (p : Nat) (f : Port → Port) (s : State) : (updPort p f s).ram = s.ram := rfl
@[simp] theorem updPort_ramUndef (p : Nat) (f : Port → Port) (s : State) : (updPort p f s).ramUndef = s.ramUndef := rfl
@[simp] theorem updPort_mgmt (p : Nat) (f : Port → Port) (s : State) : (updPort p f s).mgmt = s.mgmt := rfl
@[simp] theorem updPort_mbx (p : Nat) (f : Port → Port) (s : State) : (updPort p f s).mbx = s.mbx := rfl
@[simp] theorem updPort_host (p : Nat) (f : Port → Port) (s : State) : (updPort p f s).host = s.host := rfl
@[simp] theorem updPort_tbu (p : Nat) (f : Port → Port) (s : State) : (updPort p f s).tbu = s.tbu := rfl
@[simp] theorem updPort_pwr (p : Nat) (f : Port → Port) (s : State) : (updPort p f s).pwr = s.pwr := rfl
@[simp] theorem updPort_err (p : Nat) (f : Port → Port) (s : State) : (updPort p f s).err = s.err := rfl
@[simp] theorem updPort_slate (p : Nat) (f : Port → Port) (s : State) : (updPort p f s).slate = s.slate := rfl
@[simp] theorem updPort_plans (p : Nat) (f : Port → Port) (s : State) : (updPort p f s).plans = s.plans := rfl
@[simp] theorem updPort_arrs (p : Nat) (f : Port → Port) (s : State) : (updPort p f s).arrs = s.arrs := rfl
@[simp] theorem updPort_exclStored (p : Nat) (f : Port → Port) (s : State) : (updPort p f s).exclStored = s.exclStored := rfl
@[simp] theorem updPort_norm (p : Nat) (f : Port → Port) (s : State) : (updPort p f s).norm = s.norm := rfl
@[simp] theorem updPort_normSum (p : Nat) (f : Port → Port) (s : State) : (updPort p f s).normSum = s.normSum := rfl
@[simp] theorem updPort_taint (p : Nat) (f : Port → Port) (s : State) : (updPort p f s).taint = s.taint := rfl
@[simp] theorem updPort_tiers (p : Nat) (f : Port → Port) (s : State) : (updPort p f s).tiers = s.tiers := rfl
@[simp] theorem updPort_models (p : Nat) (f : Port → Port) (s : State) : (updPort p f s).models = s.models := rfl
@[simp] theorem updPort_codec (p : Nat) (f : Port → Port) (s : State) : (updPort p f s).codec = s.codec := rfl
@[simp] theorem updPort_sec (p : Nat) (f : Port → Port) (s : State) : (updPort p f s).sec = s.sec := rfl
@[simp] theorem updPort_flash (p : Nat) (f : Port → Port) (s : State) : (updPort p f s).flash = s.flash := rfl
@[simp] theorem updPort_maint (p : Nat) (f : Port → Port) (s : State) : (updPort p f s).maint = s.maint := rfl
@[simp] theorem updPort_out (p : Nat) (f : Port → Port) (s : State) : (updPort p f s).out = s.out := rfl
@[simp] theorem updPort_free (p : Nat) (f : Port → Port) (s : State) : (updPort p f s).free = s.free := rfl
@[simp] theorem updPort_pending (p : Nat) (f : Port → Port) (s : State) : (updPort p f s).pending = s.pending := rfl

@[simp] theorem updRx_part (m : Nat) (f : ChanSt → ChanSt) (s : State) : (updRx m f s).part = s.part := rfl
@[simp] theorem updRx_ready (m : Nat) (f : ChanSt → ChanSt) (s : State) : (updRx m f s).ready = s.ready := rfl
@[simp] theorem updRx_fmtSticky (m : Nat) (f : ChanSt → ChanSt) (s : State) : (updRx m f s).fmtSticky = s.fmtSticky := rfl
@[simp] theorem updRx_cnt (m : Nat) (f : ChanSt → ChanSt) (s : State) : (updRx m f s).cnt = s.cnt := rfl
@[simp] theorem updRx_ram (m : Nat) (f : ChanSt → ChanSt) (s : State) : (updRx m f s).ram = s.ram := rfl
@[simp] theorem updRx_ramUndef (m : Nat) (f : ChanSt → ChanSt) (s : State) : (updRx m f s).ramUndef = s.ramUndef := rfl
@[simp] theorem updRx_mgmt (m : Nat) (f : ChanSt → ChanSt) (s : State) : (updRx m f s).mgmt = s.mgmt := rfl
@[simp] theorem updRx_mbx (m : Nat) (f : ChanSt → ChanSt) (s : State) : (updRx m f s).mbx = s.mbx := rfl
@[simp] theorem updRx_host (m : Nat) (f : ChanSt → ChanSt) (s : State) : (updRx m f s).host = s.host := rfl
@[simp] theorem updRx_tbu (m : Nat) (f : ChanSt → ChanSt) (s : State) : (updRx m f s).tbu = s.tbu := rfl
@[simp] theorem updRx_pwr (m : Nat) (f : ChanSt → ChanSt) (s : State) : (updRx m f s).pwr = s.pwr := rfl
@[simp] theorem updRx_err (m : Nat) (f : ChanSt → ChanSt) (s : State) : (updRx m f s).err = s.err := rfl
@[simp] theorem updRx_slate (m : Nat) (f : ChanSt → ChanSt) (s : State) : (updRx m f s).slate = s.slate := rfl
@[simp] theorem updRx_plans (m : Nat) (f : ChanSt → ChanSt) (s : State) : (updRx m f s).plans = s.plans := rfl
@[simp] theorem updRx_arrs (m : Nat) (f : ChanSt → ChanSt) (s : State) : (updRx m f s).arrs = s.arrs := rfl
@[simp] theorem updRx_exclStored (m : Nat) (f : ChanSt → ChanSt) (s : State) : (updRx m f s).exclStored = s.exclStored := rfl
@[simp] theorem updRx_norm (m : Nat) (f : ChanSt → ChanSt) (s : State) : (updRx m f s).norm = s.norm := rfl
@[simp] theorem updRx_normSum (m : Nat) (f : ChanSt → ChanSt) (s : State) : (updRx m f s).normSum = s.normSum := rfl
@[simp] theorem updRx_taint (m : Nat) (f : ChanSt → ChanSt) (s : State) : (updRx m f s).taint = s.taint := rfl
@[simp] theorem updRx_tiers (m : Nat) (f : ChanSt → ChanSt) (s : State) : (updRx m f s).tiers = s.tiers := rfl
@[simp] theorem updRx_models (m : Nat) (f : ChanSt → ChanSt) (s : State) : (updRx m f s).models = s.models := rfl
@[simp] theorem updRx_spar (m : Nat) (f : ChanSt → ChanSt) (s : State) : (updRx m f s).spar = s.spar := rfl
@[simp] theorem updRx_sec (m : Nat) (f : ChanSt → ChanSt) (s : State) : (updRx m f s).sec = s.sec := rfl
@[simp] theorem updRx_flash (m : Nat) (f : ChanSt → ChanSt) (s : State) : (updRx m f s).flash = s.flash := rfl
@[simp] theorem updRx_maint (m : Nat) (f : ChanSt → ChanSt) (s : State) : (updRx m f s).maint = s.maint := rfl
@[simp] theorem updRx_out (m : Nat) (f : ChanSt → ChanSt) (s : State) : (updRx m f s).out = s.out := rfl
@[simp] theorem updRx_free (m : Nat) (f : ChanSt → ChanSt) (s : State) : (updRx m f s).free = s.free := rfl
@[simp] theorem updRx_pending (m : Nat) (f : ChanSt → ChanSt) (s : State) : (updRx m f s).pending = s.pending := rfl

@[simp] theorem updDma_part (e : Nat) (f : DmaEngine → DmaEngine) (s : State) : (updDma e f s).part = s.part := rfl
@[simp] theorem updDma_ready (e : Nat) (f : DmaEngine → DmaEngine) (s : State) : (updDma e f s).ready = s.ready := rfl
@[simp] theorem updDma_fmtSticky (e : Nat) (f : DmaEngine → DmaEngine) (s : State) : (updDma e f s).fmtSticky = s.fmtSticky := rfl
@[simp] theorem updDma_cnt (e : Nat) (f : DmaEngine → DmaEngine) (s : State) : (updDma e f s).cnt = s.cnt := rfl
@[simp] theorem updDma_ram (e : Nat) (f : DmaEngine → DmaEngine) (s : State) : (updDma e f s).ram = s.ram := rfl
@[simp] theorem updDma_ramUndef (e : Nat) (f : DmaEngine → DmaEngine) (s : State) : (updDma e f s).ramUndef = s.ramUndef := rfl
@[simp] theorem updDma_mgmt (e : Nat) (f : DmaEngine → DmaEngine) (s : State) : (updDma e f s).mgmt = s.mgmt := rfl
@[simp] theorem updDma_mbx (e : Nat) (f : DmaEngine → DmaEngine) (s : State) : (updDma e f s).mbx = s.mbx := rfl
@[simp] theorem updDma_tbu (e : Nat) (f : DmaEngine → DmaEngine) (s : State) : (updDma e f s).tbu = s.tbu := rfl
@[simp] theorem updDma_pwr (e : Nat) (f : DmaEngine → DmaEngine) (s : State) : (updDma e f s).pwr = s.pwr := rfl
@[simp] theorem updDma_err (e : Nat) (f : DmaEngine → DmaEngine) (s : State) : (updDma e f s).err = s.err := rfl
@[simp] theorem updDma_slate (e : Nat) (f : DmaEngine → DmaEngine) (s : State) : (updDma e f s).slate = s.slate := rfl
@[simp] theorem updDma_plans (e : Nat) (f : DmaEngine → DmaEngine) (s : State) : (updDma e f s).plans = s.plans := rfl
@[simp] theorem updDma_arrs (e : Nat) (f : DmaEngine → DmaEngine) (s : State) : (updDma e f s).arrs = s.arrs := rfl
@[simp] theorem updDma_exclStored (e : Nat) (f : DmaEngine → DmaEngine) (s : State) : (updDma e f s).exclStored = s.exclStored := rfl
@[simp] theorem updDma_norm (e : Nat) (f : DmaEngine → DmaEngine) (s : State) : (updDma e f s).norm = s.norm := rfl
@[simp] theorem updDma_normSum (e : Nat) (f : DmaEngine → DmaEngine) (s : State) : (updDma e f s).normSum = s.normSum := rfl
@[simp] theorem updDma_taint (e : Nat) (f : DmaEngine → DmaEngine) (s : State) : (updDma e f s).taint = s.taint := rfl
@[simp] theorem updDma_tiers (e : Nat) (f : DmaEngine → DmaEngine) (s : State) : (updDma e f s).tiers = s.tiers := rfl
@[simp] theorem updDma_models (e : Nat) (f : DmaEngine → DmaEngine) (s : State) : (updDma e f s).models = s.models := rfl
@[simp] theorem updDma_codec (e : Nat) (f : DmaEngine → DmaEngine) (s : State) : (updDma e f s).codec = s.codec := rfl
@[simp] theorem updDma_spar (e : Nat) (f : DmaEngine → DmaEngine) (s : State) : (updDma e f s).spar = s.spar := rfl
@[simp] theorem updDma_sec (e : Nat) (f : DmaEngine → DmaEngine) (s : State) : (updDma e f s).sec = s.sec := rfl
@[simp] theorem updDma_flash (e : Nat) (f : DmaEngine → DmaEngine) (s : State) : (updDma e f s).flash = s.flash := rfl
@[simp] theorem updDma_maint (e : Nat) (f : DmaEngine → DmaEngine) (s : State) : (updDma e f s).maint = s.maint := rfl
@[simp] theorem updDma_out (e : Nat) (f : DmaEngine → DmaEngine) (s : State) : (updDma e f s).out = s.out := rfl
@[simp] theorem updDma_free (e : Nat) (f : DmaEngine → DmaEngine) (s : State) : (updDma e f s).free = s.free := rfl
@[simp] theorem updDma_pending (e : Nat) (f : DmaEngine → DmaEngine) (s : State) : (updDma e f s).pending = s.pending := rfl

@[simp] theorem updJob_part (j : Nat) (f : Job → Job) (s : State) : (updJob j f s).part = s.part := rfl
@[simp] theorem updJob_ready (j : Nat) (f : Job → Job) (s : State) : (updJob j f s).ready = s.ready := rfl
@[simp] theorem updJob_fmtSticky (j : Nat) (f : Job → Job) (s : State) : (updJob j f s).fmtSticky = s.fmtSticky := rfl
@[simp] theorem updJob_cnt (j : Nat) (f : Job → Job) (s : State) : (updJob j f s).cnt = s.cnt := rfl
@[simp] theorem updJob_ram (j : Nat) (f : Job → Job) (s : State) : (updJob j f s).ram = s.ram := rfl
@[simp] theorem updJob_ramUndef (j : Nat) (f : Job → Job) (s : State) : (updJob j f s).ramUndef = s.ramUndef := rfl
@[simp] theorem updJob_mgmt (j : Nat) (f : Job → Job) (s : State) : (updJob j f s).mgmt = s.mgmt := rfl
@[simp] theorem updJob_mbx (j : Nat) (f : Job → Job) (s : State) : (updJob j f s).mbx = s.mbx := rfl
@[simp] theorem updJob_host (j : Nat) (f : Job → Job) (s : State) : (updJob j f s).host = s.host := rfl
@[simp] theorem updJob_tbu (j : Nat) (f : Job → Job) (s : State) : (updJob j f s).tbu = s.tbu := rfl
@[simp] theorem updJob_pwr (j : Nat) (f : Job → Job) (s : State) : (updJob j f s).pwr = s.pwr := rfl
@[simp] theorem updJob_err (j : Nat) (f : Job → Job) (s : State) : (updJob j f s).err = s.err := rfl
@[simp] theorem updJob_slate (j : Nat) (f : Job → Job) (s : State) : (updJob j f s).slate = s.slate := rfl
@[simp] theorem updJob_plans (j : Nat) (f : Job → Job) (s : State) : (updJob j f s).plans = s.plans := rfl
@[simp] theorem updJob_arrs (j : Nat) (f : Job → Job) (s : State) : (updJob j f s).arrs = s.arrs := rfl
@[simp] theorem updJob_exclStored (j : Nat) (f : Job → Job) (s : State) : (updJob j f s).exclStored = s.exclStored := rfl
@[simp] theorem updJob_norm (j : Nat) (f : Job → Job) (s : State) : (updJob j f s).norm = s.norm := rfl
@[simp] theorem updJob_normSum (j : Nat) (f : Job → Job) (s : State) : (updJob j f s).normSum = s.normSum := rfl
@[simp] theorem updJob_taint (j : Nat) (f : Job → Job) (s : State) : (updJob j f s).taint = s.taint := rfl
@[simp] theorem updJob_tiers (j : Nat) (f : Job → Job) (s : State) : (updJob j f s).tiers = s.tiers := rfl
@[simp] theorem updJob_models (j : Nat) (f : Job → Job) (s : State) : (updJob j f s).models = s.models := rfl
@[simp] theorem updJob_codec (j : Nat) (f : Job → Job) (s : State) : (updJob j f s).codec = s.codec := rfl
@[simp] theorem updJob_spar (j : Nat) (f : Job → Job) (s : State) : (updJob j f s).spar = s.spar := rfl
@[simp] theorem updJob_sec (j : Nat) (f : Job → Job) (s : State) : (updJob j f s).sec = s.sec := rfl
@[simp] theorem updJob_flash (j : Nat) (f : Job → Job) (s : State) : (updJob j f s).flash = s.flash := rfl
@[simp] theorem updJob_out (j : Nat) (f : Job → Job) (s : State) : (updJob j f s).out = s.out := rfl
@[simp] theorem updJob_free (j : Nat) (f : Job → Job) (s : State) : (updJob j f s).free = s.free := rfl
@[simp] theorem updJob_pending (j : Nat) (f : Job → Job) (s : State) : (updJob j f s).pending = s.pending := rfl

end Sys2Proof.Laws
end

