-- ==== Sys2Proof/Laws/Step.lean ====
section
/-! SUPPORT. Sys2Proof/Laws/Step.lean: what each operation and meaning of Machine/Step.lean can do, as `Does` says it: which blocks of
the state it may change, that it keeps the invariant, and that it lowers nothing that only rises. -/

namespace Sys2Proof.Laws

open Sys2Proof.Machine Sys2Proof.Safety

theorem State_withFetchWord_does {a1 a2} {s} :
    Does [.pending] s (State.withFetchWord s a1 a2) := by
  refine Does.also (t := s) Does.refl (fun h0 => ?_)
  unfold Sys2Proof.Machine.State.withFetchWord
  split
  · rename_i x0 x1 x2
    refine Does.set_pending rfl _ ?_
    assumption
  · rename_i x3 x4
    assumption

end Sys2Proof.Laws
end

