-- ==== Sys2Proof/Tests/Slice0.lean ====
section
/-! SUPPORT. Sys2Proof/Tests/Slice0.lean: the model's own tests: ill-formed commands that WellFormed refuses, the spec's worked
examples, and for every statement a concrete state and operands that meet its hypotheses. -/

namespace Sys2Proof.Tests

open Sys2Proof Sys2Proof.Machine Sys2Proof.Safety

set_option Elab.async false

/-! ## Small states -/

/-- The submission that the tests fetch: tag 0x23 on pair 0. -/
def entry (op a0 a1 a2 a3 len : Nat) : Submission :=
  { opcode := BitVec.ofNat 16 op, tag := 0x23, flags := 0, res := 0, seq := 7, payLen := len, payAddr := 0x10000, a0 := BitVec.ofNat 64 a0,
    a1 := BitVec.ofNat 64 a1, a2 := BitVec.ofNat 64 a2, a3 := BitVec.ofNat 64 a3, a4 := 0 }

/-- A fetched command of that submission. -/
def cmd (op : Nat) (a0 a1 a2 a3 len : Nat := 0) : Cmd :=
  { id := 1, origin := .host 0, sub := entry op a0 a1 a2 a3 len, running := false, discard := false, fwdTo := none }

/-- The row's name for it. -/
def ref : CmdRef := ⟨0, 0x23⟩

/-- Pair 0 in service with 16 entries, the command's tag running. -/
def pair0 : QPair := { QPair.reset with enable := true, sizeLog2 := 4, ready := true, tagsRun := [0x23], sqHead := 1, sqTail := 1 }

/-- An EL4-X that has booted: everything ready, both stacks mounted, board memory trained, DEPLOYED, 1 s of system time. -/
def up : State :=
  { State.reset with
    ready := {
      mbx := true, time := true, slateW := true, slateE := true, arraysW := true, arraysE := true, boardMem := true, spar := true
      codec := true, tune := true, attest := true }
    slate := { Slate.reset with stackW := { Stack.reset with mounted := true }, stackE := { Stack.reset with mounted := true } }
    tiers := { Tiers.reset with trained := true, channels := 32, rate := 3, density := 1 }
    sec := { Sec.reset with lifecycle := 3, bootLifecycle := 3, identity := true }
    tbu := { Tbu.reset with now := 1000000000 } }

/-- The same device in DIAGNOSTIC. -/
def diagnostic : State := { up with sec := { up.sec with lifecycle := 4, bootLifecycle := 4 } }

/-- A state with one command fetched on pair 0. -/
def fetched (c : Cmd) (s : State) : State :=
  { s with mbx := { pairs := [(0, pair0)], lastServed := 0, cmds := [c], nextId := 2, quiet := false } }

/-- The manager of a group of two, this device member 0; and its worker, member 1. -/
def asManager (s : State) : State :=
  { s with spar := { s.spar with
      st := 1, member := 0, manager := 0, size := 2, rows := 1, cols := 2
      members := [(0, { serial := 0, st := 1, epochs := [], lastStatus := 0 }), (1, { serial := 1, st := 1, epochs := [], lastStatus := 0 })]
      routes := [(1, 0)] } }
def asWorker (s : State) : State :=
  { s with spar := { s.spar with st := 2, member := 1, manager := 0, size := 2, rows := 1, cols := 2, routes := [(0, 0)] } }

/-- Model slot 0 serves a model of one layer with a weight object. -/
def slot0 : Slot :=
  { Slot.reset with st := .serving, count := 1, epoch := 1, layers := 1, objs := [{ number := 1, kind := 1, line := 0, inLen := 32, outLen := 32 }] }
def withModel (m : Slot) (s : State) : State := { s with models := { s.models with slots := [(0, m)], created := 1 } }

/-- A stage session of slot 0 on this device alone. -/
def stage0 : Stage :=
  { id := 1, slot := 0, members := 1, reader := 0, layered := false, unitLayers := 0, mixed := false, prior := .serving, objs := [], held := [], parity := [],
    clean := [0], round := [], ending := none, blocks := [], committed := 0, failed := false, floor := false, staged := [0], endCmd := none }
def staging (g : Stage) (s : State) : State :=
  { s with models := { s.models with slots := [(0, { slot0 with st := .staging })], created := 1, stage := some g } }

/-- An adapter image for a target of 32 by 32 elements, and its adapter and object at the first address of object space. -/
def image : Bytes :=
  let head := toLE 8 (modelId 0 1) ++ [1, 1, 0, 0, 0, 0, 0, 0] ++ toLE 8 (2 ^ 57 + 1) ++ toLE 4 32 ++ toLE 4 32
  head ++ List.replicate (68 * (parseAdapter head 0).lines) 0
def adapter0 : Adapter := parseAdapter image objBase
def object0 (kind : Nat) : Obj := { dva := objBase, kind := kind, size := 65536, kvC := 128, kvH := 1, pages := [.board 0], backing := 0 }
def withAdapter (s : State) : State :=
  { s with models := { s.models with adapters := [adapter0] }, tiers := { s.tiers with objs := [object0 4], boardUsed := [0] } }
def withObject (o : Obj) (s : State) : State :=
  { s with tiers := { s.tiers with objs := s.tiers.objs ++ [o], boardUsed := o.pages.filterMap (fun p => match p with | .board f => some f | _ => none) } }

/-- A plan of one schedule of 1 ms on array 0, in fence mode or not, with these fetch and execute words. -/
def plan0 (el3 : Bool) (fw ew cw sw : List QWord) : Plan :=
  { el3 := el3, group := false, seed := none, length := 4096, arrays := 1, maintM := 1, pSched := 0, planId := 0, regs := [(64, 100)],
    scheds := [{ period := 1000000, offset := 0, deadline := 1000000, wcStep := 1000, inLead := 0, rt := false, fetchEp := [(0, 0)],
                 execEp := [(0, 0)], collEp := some 0, strmEp := some 0 }],
    counters := [{ number := 1, group := false, planKind := true, sched := 0, init := 0 }],
    regions := [{ array := 0, kind := 2, offset := 0, length := 4096 }, { array := 0, kind := 0, offset := 65536, length := 65536 }],
    blocks := [{ tier := 0, coded := false, sym := 0, offset := 0, length := 64, deadline := 0, fallback := 0, table := 0 }],
    fallbacks := [{ action := 0, subSym := 0, subOffset := 0 }],
    qpoints := [{ qp := 0, format := 0, carried := false, stochastic := false, segBlocks := 1, windowK := 1, headroomN := 0, underU := 0,
                  satLimit := 0, allowance := 0, seedMaxabs := 0, model := 0, vein := [] }],
    symbols := [{ kind := 0, ident := BitVec.ofNat 64 (modelId 0 1) }],
    preload := [], fetchW := [(0, fw)], execW := [(0, ew)], collW := cw, strmW := sw }
def loaded (p : Plan) : PlanRt :=
  { plan := p, st := .loaded, stalled := false, anchor := 0, freeOnStop := false, stopCmds := [], nextK := [], steps := [], ctr := [], gidx := [],
    keys := [], coll := [], strm := [], collIdx := [], waitTo := 0, frames := [] }
/-- The plan is loaded under handle 0. -/
def withPlan (p : PlanRt) (s : State) : State := { s with plans := [(0, p)] }

/-- Stream 0 in slot 0, on row 0 of schedule 0 of plan 0. -/
def stream0 : Stream :=
  { slot := 0, handle := 0, sched := 0, row := 0, pair := 0, adapter := none, period := 1000000, deadline := 1000000, pos := 0, kv := [],
    outAddr := 0, outLen := 0, outDva := false, held := [], appended := [], outPos := 0, closing := none, orphan := false, input := none, hist := [] }
def withStream (st : Stream) (s : State) : State := { s with models := { s.models with streams := [(0, st)] } }

/-- An engine word of an opcode with these other bits. -/
def word (op : Nat) (fields : Nat := 0) : QWord := BitVec.ofNat 128 (op * 2 ^ 120 + fields)

/-- A plan image of one schedule on array 0: each sequence is an AT_TIME, the execute one an END_STEP (R190, R191). -/
def planImage : Bytes :=
  let dir (l : List (Nat × Nat × Nat)) : Bytes := l.flatMap (fun x => toLE 4 x.1 ++ (toLE 4 x.2.1 ++ (toLE 4 x.2.2 ++ toLE 4 0)))
  let zeros (n : Nat) : Bytes := List.replicate n 0
  let ones (n : Nat) : Bytes := List.replicate n 0xFF
  [-- header
   toLE 4 0x4C504C45, toLE 2 0x0401, toLE 2 0, toLE 4 3216, toLE 4 0xC2DEA745, toLE 8 1, [1, 0, 1, 0], toLE 4 0, toLE 8 0x42, zeros 24,
   dir [(256, 512, 64), (768, 512, 64), (0, 0, 0), (1280, 16, 1), (0, 0, 0), (1296, 16, 1), (1312, 560, 1), (1872, 1312, 321), (0, 0, 0), (0, 0, 0),
        (0, 0, 0), (3184, 32, 2)],
   -- streams of the 64 arrays, the stream engine's words, the symbol
   toLE 4 0, toLE 4 1, zeros 504, toLE 4 1, toLE 4 1, zeros 504, toLE 16 (3 * 2 ^ 120), 4 :: zeros 15,
   -- the schedule
   toLE 4 1000000, toLE 4 0, toLE 4 1000000, toLE 4 1000, toLE 4 0, zeros 12, toLE 4 0, ones 252, toLE 4 0, ones 252, ones 4, toLE 4 0, toLE 8 0,
   -- declarations: no counter, no budgets, one STREAMS region; the words
   toLE 4 0, toLE 4 1, toLE 8 0, zeros 1280, [0, 2, 0, 0], toLE 4 0, toLE 4 64, toLE 4 0, toLE 16 (3 * 2 ^ 120), toLE 16 (4 * 2 ^ 120)].flatten

/-- A byte string cut into `k` pieces of `n` bytes and the rest. -/
def cut (n : Nat) : Nat → Bytes → List Bytes
  | 0, l => [l]
  | k + 1, l => l.take n :: cut n k (l.drop n)

theorem cut_flatten (n : Nat) : ∀ k l, (cut n k l).flatten = l
  | 0, l => by simp [cut]
  | k + 1, l => by simp [cut, cut_flatten n k]

/-- A checksum register run over pieces, with its value after each. -/
def crcSteps : Word → List Bytes → List Word → Bool
  | _, [], [] => true
  | c, b :: l, w :: ws => decide (b.foldl (crcByte 0x82F63B78) c = w) && crcSteps w l ws
  | _, _, _ => false

theorem crcSteps_sound : ∀ (l : List Bytes) (ws : List Word) (c : Word), crcSteps c l ws = true →
    l.flatten.foldl (crcByte 0x82F63B78) c = (c :: ws).getLast (List.cons_ne_nil _ _)
  | [], [], _, _ => rfl
  | b :: l, w :: ws, c, h => by
    simp only [crcSteps, Bool.and_eq_true, decide_eq_true_eq] at h
    rw [List.flatten_cons, List.foldl_append, h.1, crcSteps_sound l ws w h.2, List.getLast_cons (List.cons_ne_nil _ _)]
  | [], _ :: _, _, h => by simp [crcSteps] at h
  | _ :: _, [], _, h => by simp [crcSteps] at h

/-- The image's checksum, in 48 pieces. -/
theorem planImage_crc : crc32c (planImage.take 12 ++ [0, 0, 0, 0] ++ planImage.drop 16) = 0xC2DEA745 := by
  have h := crcSteps_sound (cut 67 47 (planImage.take 12 ++ [0, 0, 0, 0] ++ planImage.drop 16))
    [2511497665, 2710026336, 1581684550, 1490689755, 2949288002, 1122194117, 2931762234, 1089691102, 4037327405, 18925086,
     973295070, 1920537531, 1083170639, 112440550, 4111464925, 2698515979, 1254983917, 105897350, 2922951629, 1558633706,
     1496987330, 1563649038, 403475960, 2733698278, 1295988926, 3162595197, 184551119, 2092705530, 3493007538, 2993870509,
     2290513942, 2574881964, 1266794404, 7276011, 3650294773, 1787902664, 334665603, 920561260, 1311481772, 3948092203,
     4218946341, 1622677543, 1941176624, 1859455140, 151582532, 2244955649, 2867026972, 1025595578] 0xFFFFFFFF (by decide +kernel)
  rw [cut_flatten] at h
  rw [crc32c, crc, h]; decide

theorem planImage_header : headerOk planImage = true := by
  unfold headerOk
  rw [planImage_crc]
  decide +kernel

/-- The plan it holds. -/
def imagePlan : Plan :=
  { el3 := false, group := false, seed := none, length := 3216, arrays := 1, maintM := 1, pSched := 0, planId := 0x42,
    scheds := [{ period := 1000000, offset := 0, deadline := 1000000, wcStep := 1000, inLead := 0, rt := false, fetchEp := [(0, 0)],
                 execEp := [(0, 0)], collEp := none, strmEp := some 0 }],
    counters := [], regs := List.replicate 320 (0, 0), regions := [{ array := 0, kind := 2, offset := 0, length := 64 }], blocks := [],
    fallbacks := [], qpoints := [], symbols := [{ kind := 4, ident := 0 }], preload := [], fetchW := [(0, [word 3])], execW := [(0, [word 4])],
    collW := [], strmW := [word 3] }

theorem planImage_parse : parsePlan planImage = some imagePlan := by
  unfold parsePlan
  rw [planImage_header]
  decide +kernel

/-- Port 0 is UP, its peer member 1. -/
def withPort (st : Nat) (s : State) : State :=
  { s with spar := { s.spar with ports := [(0, { Port.reset with st := st, peer := 1, lanesOk := 15 })] } }
/-- A good flit of a type for member 0 from member 1. -/
def flit (typ : BitVec 4) (dst : BitVec 6 := 0) : Flit :=
  { typ := typ, seq := 0, ack := 0, dst := dst, src := 1, len := 0, chanSeq := 0, eom := false, resBits := false, payload := [], fecFixed := false, fecBad := false,
    crcBad := false }
/-- What Bedrock meets at a boot where nothing fails. -/
def env0 : BootEnv :=
  { recoveryLow := false, roleHigh := false, bistFail := [], analogue := ⟨0, 0, []⟩, unreadA := [], unreadB := [], fail8533 := [], fail7500 := [], fail6400 := [], density := 1, ranks2 := false,
    tjHot := false, mbxSet := true }

/-- A step of schedule 0, begun at its nominal start. -/
def step0 : Machine.Step :=
  { k := 0, nominal := 1000000000, seed := 0, ended := [], collDone := false, strmDone := false, rows := [(0, 0)], flags := [], pend := [],
    epochs := [], vectors := [], lostSt := [], busyRec := [], offRec := false, stallRec := false }
/-- The bytes of engine words. -/
def wordBytes (l : List QWord) : Bytes := l.flatMap (fun w => toLE 16 w.toNat)
/-- A descriptor of 32 cells with one line each, its mask at byte 65536 (R112, R113), with an element format and a form. -/
def descBytes (elem form scale : Nat) : Bytes :=
  toLE 2 0 ++ toLE 2 1 ++ toLE 2 1 ++ toLE 1 (elem + 16 * scale + 64 * form) ++ [0] ++ toLE 2 32 ++ toLE 2 0 ++ toLE 4 0 ++ toLE 4 65536 ++ toLE 2 1
/-- Plan 0 runs a step on array 0, whose engines stand at the first fetch word, at the first of the queue, and at the hub words; a
descriptor stands at byte 65664 of its store. -/
def standing (p : Plan) (q : List QWord) (desc : Bytes := descBytes 0 0 0) (s : State := up) : State :=
  { s with
    plans := [(0, { loaded p with st := .running, steps := [(0, step0)], nextK := [(0, 1)], coll := [(0, { pc := 0, waiting := false, prog := [] })],
                                  strm := [(0, { pc := 0, waiting := false, prog := [] })] })]
    arrs := [(0, { Arr.reset with cur := some (0, 0), queue := indexed q })]
    ram := memWrite ramFill (memWrite ramFill (memWrite ramFill [] (storeDva 0 0) (wordBytes (p.fetchOf 0 ++ p.execOf 0)))
      (storeDva 0 65536) [0xFF, 0xFF, 0xFF, 0xFF]) (storeDva 0 65664) desc }
/-- The word an engine stands at, and the plan of handle 0. -/
def atOf (s : State) (e : EngineId) : At := (s.at e).getD ⟨0, 0, 0, 0, .f, 0, loaded (plan0 false [] [] [] [])⟩
def planOf (s : State) : PlanRt := (s.plan 0).getD (loaded (plan0 false [] [] [] []))
theorem at_some {s : State} {e : EngineId} (h : (s.at e).isSome = true) : s.at e = some (atOf s e) := by
  unfold atOf; revert h; cases s.at e <;> simp
theorem atWord {s : State} {e : EngineId} {op : Nat}
    (h : ((s.at e).isSome && (atOf s e).ok s && decide (wOp (atOf s e).w = op)) = true) : AtWord s e op (atOf s e) := by
  simp only [Bool.and_eq_true, decide_eq_true_eq] at h
  exact ⟨at_some h.1.1, h.1.2, h.2⟩

/-- A block of 64 bytes in a state of its fetch, and a run of that one block. -/
def fentry (st : EntrySt) (tier deadline : Nat) : FEntry :=
  { blk := { tier := tier, coded := false, sym := 0, offset := 0, length := 64, deadline := deadline, fallback := 0, table := 0 }, dva := 0, st := st
    sent := 0, data := [], tainted := false, marks := 0, lands := [], tok := 0, ntok := 0, skipped := false }
def frun (e : FEntry) : FRun :=
  { index := 0, word := word 0x10, kv := 0, row := 0, dests := [0], toPort := false, off := 65536, rep := 1, lines := 0, done := 0, entries := [e], since := 0 }

/-- A shard of session 1: layer 0, index 1, one record of one line (R318). -/
def shard (sum : Word := 0xCE034F9E) : Bytes :=
  toLE 4 0x44534C45 ++ toLE 2 1 ++ [0, 0] ++ toLE 2 0 ++ toLE 2 1 ++ toLE 4 0 ++ toLE 8 1 ++ toLE 4 76 ++ toLE 4 sum.toNat ++
    List.replicate 32 0 ++ (toLE 4 0 ++ toLE 2 1 ++ [0, 0] ++ List.replicate 68 0)

/-- The shard's checksum, in three pieces. -/
theorem shard_crc : crc32c (shard.take 28 ++ shard.drop 64) = 0xCE034F9E := by
  have h := crcSteps_sound (cut 40 2 (shard.take 28 ++ shard.drop 64)) [1916924044, 3942931322, 838643809] 0xFFFFFFFF (by decide +kernel)
  rw [cut_flatten] at h
  rw [crc32c, crc, h]; decide

theorem shard_ok : shardOk shard = true := by
  unfold shardOk
  rw [shard_crc]
  decide +kernel

/-- A command starts where these can be evaluated. -/
theorem starts_of {s : State} {r : CmdRef} {op : Nat} {c : Cmd}
    (h : (decide (s.startable r op = some c) && !s.roleRefuses c && decide (s.fwdCheck c = none) && decide (s.fwdMember c = none) &&
      !c.headReserved) = true) : Starts s r op c := by
  simp only [Bool.and_eq_true, decide_eq_true_eq, Bool.not_eq_true'] at h
  exact ⟨h.1.1.1.1, h.1.1.1.2, h.1.1.2, h.1.2, h.2⟩

/-- The device is awake where its power state can be evaluated. -/
theorem awake_of {s : State} (h : (decide (s.pwr.state = .run) && !s.pwr.waking && !s.restarting) = true) : Awake s := by
  simp only [Bool.and_eq_true, decide_eq_true_eq, Bool.not_eq_true'] at h
  exact ⟨h.1.1, h.1.2, h.2⟩

/-! ## Ill-formed commands, each refused for one operand -/

theorem test_wf_pair : (Instr.nop ⟨64, 0⟩).wf = false ∧ (Instr.nop ⟨63, 0⟩).wf = true := by decide +kernel
theorem test_wf_array : (Instr.sweep 64 [] []).wf = false ∧ (Instr.sweep 63 [] []).wf = true := by decide +kernel
theorem test_wf_sweep : (Instr.sweep 0 [1024] []).wf = false ∧ (Instr.veinSweep 0 ⟨[], [⟨0, ⟨0, 512, true⟩⟩]⟩).wf = false ∧
    (Instr.transposeSweep 63 ⟨[1023], [⟨0, ⟨1023, 511, true⟩⟩]⟩).wf = true := by decide +kernel
theorem test_wf_codec : (Instr.codecBlockReceived ⟨64, 0⟩ ⟨[], 0⟩).wf = false ∧ (Instr.codecBlockReceived ⟨0, 8⟩ ⟨[], 0⟩).wf = false ∧
    (Instr.codecBlockReceived ⟨63, 7⟩ ⟨[], 0⟩).wf = true := by decide +kernel
theorem test_wf_engine : (Instr.engineNop (.coll 32 0)).wf = false ∧ (Instr.engineNop (.strm 31 16)).wf = false ∧
    (Instr.engineNop (.fetch 64)).wf = false ∧ (Instr.engineNop (.exec 64)).wf = false ∧ (Instr.engineNop (.strm 31 15)).wf = true := by decide +kernel
theorem test_wf_step : (Instr.stepEnd 32 0 0).wf = false ∧ (Instr.stepEnd 0 16 0).wf = false ∧ (Instr.normStatCombine 31 4096).wf = false := by
  decide +kernel
theorem test_wf_flit : (Instr.dataFlit 0 { flit 1 with payload := List.replicate 241 0 }).wf = false ∧ (Instr.dataFlit 8 (flit 1)).wf = false ∧
    (Instr.dataFlit 7 (flit 1)).wf = true := by decide +kernel
theorem test_wf_line : (Instr.lineReadComplete 0 1024 0 0 0 .plan 0 false).wf = false ∧ (Instr.lineReadComplete 0 0 9 0 0 .plan 0 false).wf = false ∧
    (Instr.lineReadComplete 0 0 0 32 0 .plan 0 false).wf = false ∧ (Instr.lineReadComplete 0 0 0 0 256 .plan 0 false).wf = false := by decide +kernel
theorem test_wf_block : (Instr.gcErase 0 0 0 36).wf = false ∧ (Instr.gcErase 63 1023 8 35).wf = true := by decide +kernel
theorem test_wf_host : (Instr.registerWrite 0 9 0).wf = false ∧ (Instr.registerWrite 0 0 0).wf = false ∧ (Instr.poisonedWriteTlp 6 0).wf = false ∧
    (Instr.msixUnmask 2048).wf = false ∧ (Instr.dmaBusError 4).wf = false := by decide +kernel
theorem test_wf_group : (Instr.memberLost 64 0).wf = false ∧ (Instr.reclaimLimit (2 ^ 32)).wf = false ∧ (Instr.portDown 8 none).wf = false ∧
    (Instr.boardRetrain 32 false).wf = false := by decide +kernel
theorem test_wf_routine : (Instr.flPoll 4 0).wf = false ∧ (Instr.flPoll 0 2).wf = false ∧ (Instr.sltRing 0 0 (2 ^ 32) 1).wf = false ∧
    (Instr.checkpointCommit 2 false).wf = false ∧ (Instr.tuneUpdateComplete 16).wf = false ∧ (Instr.submitPayloadPlaced 256 0).wf = false := by
  decide +kernel

/-! ## The spec's worked examples -/

/-- 01, the example after R19: line address 0x8A3F_2C15. -/
theorem test_line_address : lineAddr 0x8A3F2C15 = ⟨34, 575, 1, 12, 0x15⟩ := by decide +kernel
/-- 13, the example after R289: the same line's bytes. -/
theorem test_line_dva : codeBase + 64 * 0x8A3F2C15 = 0x10228FCB0540 ∧ scaleBase + 4 * 0x8A3F2C15 = 0x104228FCB054 := by decide +kernel
/-- 02, the example after R58: one N4 block gives -35.75. -/
theorem test_n4_block :
    let line : Bytes := [0x9F, 0x07] ++ List.replicate 62 0 ++ [0x4B, 0, 0, 0]
    let row : ActRow := { codes := [0x35, 0xC2] ++ List.replicate 62 0, recs := [⟨0x3F80, 3, 0⟩], bad := false, flags := 0 }
    let st : SwSt := { acc := [], pend := [], scale := [], open_ := [], nan := 0, bad := 0, t2 := 0, clip := 0, sat := 0 }
    mget (applyGroup none { parseDesc (descBytes 0 0 1) with accBase := 0 } true 0 0 0 0 0 line false 0 row st).acc 0 = some 0xC20F0000 := by decide +kernel
/-- 04, the example after R121: a fold of -777.5 x 2^-4, then a Vein term of 5 x 2^-20, give 0x42C0_2601. -/
theorem test_scaled_total :
    let st : SwSt := { acc := [(0, 0xC4426000), (256, 0x4310AB00)], pend := [], scale := [], open_ := [], nan := 0, bad := 0, t2 := 0, clip := 0, sat := 0 }
    let st := st.fold none 0 0x3D80 (dy 1)
    mget st.acc 256 = some 0x42C02600 ∧ mget st.acc 0 = some 0 ∧ mget (st.add none 256 ⟨5, -20⟩ 0).acc 256 = some 0x42C02601 := by decide +kernel
/-- 03, the first example: six elements of a LIVE segment. -/
theorem test_live_segment :
    let r := quantSeg (parseQp []) none false 0 []
      [(0, 0x40280000), (1, 0xBF680000), (2, 0x3FA80000), (3, 0xBFD80000), (4, 0x3E400000), (5, 0xBDC00000)]
    r.scale = 0x3EC0 ∧ r.coded.codes = [7, 0xE, 4, 0xB, 1, 0] ∧ r.coded.sat = 0 := by decide +kernel
/-- 03, the second example: the carried scale, and a segment that overflows it and is quantised again. -/
theorem test_carried_segment :
    let q : QPoint := { parseQp [] with carried := true, windowK := 4, headroomN := 4, satLimit := 1 }
    let l := [(0, 0x40600000), (1, 0xC0500000), (2, 0x40440000), (3, 0x40400000)]
    let r := quantSeg q (some (carriedScale q 0x4010)) false 1 [] l
    carriedScale q 0x4010 = 0x3ECE ∧ r.out = .ovf ∧ r.scale = 0x3F00 ∧ r.coded.codes = [7, 9, 6, 6] := by decide +kernel
/-- 07, the example of a first SWEEP. -/
theorem test_sweep_word :
    let w : QWord := 0x200500280000007E100000B004008000
    wOp w = 0x20 ∧ wCtr w = 40 ∧ wDesc w = 0x100000 ∧ wf w 32 17 * 64 = 0x8000 ∧ wf w 48 33 = 88 ∧ wf w 64 49 * 64 = 0x20000 ∧ wf w 73 65 = 63 := by
  decide +kernel
/-- 08, the example: a CODED block of 16 bytes under a table in slot 2. -/
theorem test_coded_block :
    let t := (List.range 256).map (fun s => if s = 0 then 1 else if s = 0x77 ∨ s = 0x99 then 3 else 10)
    (encodeBlock (some t) 2 true [0, 0, 0x77, 0, 0x99, 0, 0, 1, 0, 0, 0, 0, 0, 0, 0x77, 0]).1.take 8 = [0x15, 0, 0x20, 0, 0x44, 0x19, 0, 8] := by
  decide +kernel
/-- 12, the example: the completion of a stream step. -/
theorem test_completion_entry :
    cqEntry 0x0123 0 0x0005 44 (7 + 0x0A2C * 2 ^ 48) false = [0x23, 1, 0, 0, 5, 0, 0x2C, 0, 7, 0, 0, 0, 0, 0, 0x2C, 0x0A] := by decide +kernel
/-- 12, the example: the first 32 bytes of its submission. -/
theorem test_submission_entry :
    (subBytes { entry 0x0302 17 0 0 0 5632 with tag := 0x0123, seq := 0x1F40, payAddr := 0x1234567000 }).take 32 =
      [2, 3, 0x23, 1, 0, 0, 0, 0, 0x40, 0x1F, 0, 0, 0, 0x16, 0, 0, 0, 0x70, 0x56, 0x34, 0x12, 0, 0, 0, 0x11, 0, 0, 0, 0, 0, 0, 0] := by decide +kernel

/-! ## Witnesses: the whole machine, encodings, numbers, the mailbox, records and memory -/

/-- The parts of the invariant of a state that can be evaluated. -/
theorem inv_of {s : State}
    (h : (Memory.wf ramFill s.ram && Memory.wf ramFill s.mgmt && Memory.wf flashFill s.flash.mem && decide (∀ p ∈ s.cnt, p.2 ≤ 0xFFFFFFFF) &&
      decide (s.err.entries ≤ 256) && decide (s.err.head < 256) && decide (s.err.tail = (s.err.head + s.err.entries) % 256)) = true) :
    Safety.Inv s := by
  simp only [Bool.and_eq_true, decide_eq_true_eq] at h
  exact ⟨h.1.1.1.1.1.1, h.1.1.1.1.1.2, h.1.1.1.1.2, h.1.1.1.2, h.1.1.2, h.1.2, h.2⟩

theorem witness_StepRunsTheFrontCommand : ∃ s c rest, State.pending s = c :: rest :=
  ⟨{ up with pending := [.nop ref, .commandFetch none] }, .nop ref, [.commandFetch none], rfl⟩

theorem witness_StepIdlesOnEmptyQueue : ∃ s, State.pending s = [] := ⟨State.reset, rfl⟩

theorem witness_StepsKeepTheInvariant : ∃ s t, Safety.Inv s ∧ step s = .next t :=
  ⟨{ fetched (cmd 0) up with pending := [.nop ref] }, _, inv_of (by decide +kernel), rfl⟩

theorem witness_NothingThatOnlyRisesFalls : ∃ s t, step s = .next t := ⟨{ fetched (cmd 0) up with pending := [.nop ref] }, _, rfl⟩

theorem witness_CommandsKeepTheirFrame : ∃ c s t, exec c s = .next t := ⟨.nop ref, fetched (cmd 0) up, _, rfl⟩

theorem witness_SubmissionEntriesRoundTrip : ∃ x : Submission, x.payLen < 2 ^ 32 := ⟨entry 1 2 3 4 5 (2 ^ 32 - 1), by decide +kernel⟩

theorem witness_LiveScaleIsTheLeastAbove :
    (∃ (qmax : Nat) (mx : Word), qmax = 6 ∧ fSign mx = false ∧ fFinite mx = true ∧ fZero mx = false) ∧
    (∃ (qmax : Nat) (mx : Word), qmax = 7 ∧ fSign mx = false ∧ fFinite mx = true ∧ fZero mx = false) :=
  ⟨⟨6, 0x7F7FFFFF, by decide +kernel⟩, ⟨7, 0x00000001, by decide +kernel⟩⟩

theorem witness_QuantiserNeverEmitsMinusEight :
    ∃ (q : QPoint) (carried : Option Half) (cold : Bool) (left : Nat) (vein : List Nat) (l : List (Nat × Word)), q.format ≠ 1 ∧
      ∃ c, c ∈ (quantSeg q carried cold left vein l).coded.codes :=
  ⟨parseQp [], none, false, 0, [], [(0, 0xC1000000)], by decide +kernel, 9, by decide +kernel⟩

theorem witness_ZeroSegmentsTakeScaleOne :
    ∃ (vein : List Nat) (l : List (Nat × Word)), fZero (segMax vein l) = true ∧ l.length = 5 :=
  ⟨[4], [(0, 0), (1, 0x7F800000), (2, 0xFF800000), (3, 0x7FC00000), (4, 0x3F800000)], by decide +kernel⟩

/-- Pair 0 with its next entry unread, and the tag 0x23 in use, its completions in memory of the device or not. -/
def dup (dva : Bool) (posted : List Half) : State :=
  { up with
    pwr := { up.pwr with state := .run }
    mbx := { pairs := [(0, { pair0 with sqTail := 2, tagsRun := if posted = [] then [0x23] else [], tagsPosted := posted, cqDva := dva, cqBase := 65536 })]
             lastServed := 0, cmds := [], nextId := 2, quiet := false } }

theorem witness_TagsInUseAreRefused :
    (∃ s q bus b, State.nextPair s = some q ∧ s.sqEntry q bus = some b ∧ (parseSub b).tag ∈ (s.pair q).tagsRun ∧ (s.pair q).cqDva = false) ∧
    (∃ s q bus b, State.nextPair s = some q ∧ s.sqEntry q bus = some b ∧ (parseSub b).tag ∈ (s.pair q).tagsPosted ∧ (s.pair q).cqDva = true ∧
      s.writable ((s.pair q).cqBase.toNat + 16 * (s.pair q).cqTail) 16 = true) :=
  ⟨⟨dup false [], 0, some (subBytes (entry 0 0 0 0 0 0)), subBytes (entry 0 0 0 0 0 0), by decide +kernel⟩,
   ⟨dup true [0x23], 0, some (subBytes (entry 0 0 0 0 0 0)), subBytes (entry 0 0 0 0 0 0), by decide +kernel⟩⟩

theorem witness_CompletionsArePosted :
    (∃ s q, (State.pair s q).enable = true ∧ (s.pair q).cqDva = false ∧ (s.pair q).cqTail + 1 = (s.pair q).n) ∧
    (∃ s q, (State.pair s q).enable = true ∧ (s.pair q).cqDva = false ∧ (s.pair q).cqTail + 1 ≠ (s.pair q).n) :=
  ⟨⟨{ up with mbx := { up.mbx with pairs := [(63, { pair0 with cqTail := 15 })] } }, 63, by decide +kernel⟩, ⟨fetched (cmd 0) up, 0, by decide +kernel⟩⟩

/-- `ADAPTER_DROP` of the adapter, with a stream that binds it, a plan that names it, or neither. -/
def dropping (bound named : Bool) : State :=
  let v := fetched (cmd 0x0201 objBase) (withAdapter up)
  let v := if bound then { v with models := { v.models with streams := [(0, { stream0 with adapter := some objBase })] } } else v
  if named then
    withPlan { loaded { plan0 false [] [] [] [] with symbols := [{ kind := 2, ident := BitVec.ofNat 64 objBase }] } with st := .running } v
  else v

theorem witness_AdapterDropNeedsAnUnboundAdapter :
    ∀ x ∈ [(true, false), (false, true), (false, false)], ∃ s r c a, Starts s r 0x0201 c ∧ c.argReserved all64 0 0 0 0 = false ∧ c.sub.payLen = 0 ∧
      s.adapter (c.arg 0) = some a ∧ s.boundToStream (c.arg 0) = x.1 ∧ s.namedByPlan (c.arg 0) = x.2 ∧ s.migrating (c.arg 0) = false := by
  intro x hx
  refine ⟨dropping x.1 x.2, ref, cmd 0x0201 objBase, adapter0, ⟨?_, ?_, ?_, ?_, ?_⟩, ?_⟩ <;> revert x <;> decide +kernel

theorem witness_ReservedHeadsAreRejected :
    ∃ s r op c, State.startable s r op = some c ∧ s.roleRefuses c = false ∧ s.fwdCheck c = none ∧ s.fwdMember c = none ∧ c.headReserved = true ∧ op = 0x0803 :=
  let c : Cmd := { cmd 0x0803 with sub := { entry 0x0803 0 0 0 0 0 with res := 0x8000 } }
  ⟨fetched c up, ref, 0x0803, c, by decide +kernel⟩

/-- A record of class DG, and a ring whose newest it is. -/
def degraded : ErrEntry :=
  { recSeq := 0, cls := .dg, cont := false, prior := false, scope := 0, code := 0x0101, time := 0, planId := 0, cmdSeq := 0, status := 0, count := 1, detail := [] }
def ringOf (n : Nat) : State := { up with err := { up.err with entries := n, tail := n % 256, ring := [((n + 255) % 256, degraded)] } }

theorem witness_ErrorRingKeepsTheOldest :
    ∀ x ∈ [(0, 0), (254, 1), (255, 1), (256, 0)], ∃ s cls code i, Safety.Inv s ∧ s.err.entries = x.1 ∧ (RecInfo.conts i).length = x.2 ∧
      s.err.merges cls code (detail32 i.detail) s.tbu.now = false ∧ ∃ y, mget s.err.ring s.err.newest = some y ∧ cls.code < y.cls.code := by
  intro x hx
  refine ⟨ringOf x.1, .ce, 0x0102, { conts := List.replicate x.2 [] }, inv_of ?_, rfl, by simp, ?_, degraded, ?_, by decide +kernel⟩ <;>
    revert x <;> decide +kernel

/-- Array 0 stands at one word of its queue. -/
def sweeping (op : Nat) : State :=
  match op with
  | 0x20 => standing (plan0 false [] [] [] []) [word 0x20 (2052 + 1024 * 2 ^ 17 + 2 ^ 33 + 1024 * 2 ^ 49)]
  | 0x21 => standing (plan0 false [] [] [] []) [word 0x21 (2052 + 1024 * 2 ^ 17 + 2 ^ 33)] (descBytes 4 1 2)
  | 0x22 => standing (plan0 false [] [] [] []) [word 0x22 (2052 + 1024 * 2 ^ 17 + 2 ^ 33 + 1024 * 2 ^ 49 + 2 ^ 75)]
  | _ => standing (plan0 false [] [] [] []) [word 0x23 (2052 + 1024 * 2 ^ 17 + 2 ^ 116 + 1024 * 2 ^ 42)]

theorem witness_SweepsLeaveMemoryAlone : ∀ op ∈ [0x20, 0x21, 0x22], ∃ s x, AtWord s (.exec 0) op x := by
  intro op h
  exact ⟨sweeping op, atOf (sweeping op) (.exec 0), atWord (by revert op; decide +kernel)⟩

theorem witness_DrainStoresInItsRun : ∃ s a x, Safety.Inv s ∧ AtWord s (.exec a) 0x23 x ∧ s.drainBlocked a x.w = false ∧
    s.keepRun a x.w = some (65536, 128) ∧ x.p.plan.covers a 65536 128 = true :=
  ⟨sweeping 0x23, 0, atOf (sweeping 0x23) (.exec 0), inv_of (by decide +kernel), atWord (by decide +kernel), by decide +kernel, by decide +kernel,
   by decide +kernel⟩

theorem witness_HostWritesStoreTheirBytes : ∃ s o, ∃ data : Bytes, Safety.Inv s ∧ s.pwr.state = .run ∧ o + data.length ≤ 2 ^ s.host.bar2SizeLog2 ∧
    s.host.bar2Base + o + data.length + s.hubReserved * pageBytes ≤ hubBytes ∧ data.length = 256 :=
  ⟨{ up with pwr := { up.pwr with state := .run } }, 0, List.replicate 256 1, inv_of (by decide +kernel), by decide +kernel⟩

theorem witness_FlashRoutinesStayInTheirArea : ∃ s addr, Safety.Inv s ∧ flashCore ≤ addr :=
  ⟨up, flashCore + flashBytes - 8, inv_of (by decide +kernel), by decide +kernel⟩

/-! ## Witnesses: packages and authorisations, where the named signature algorithms accept -/

/-- A package of 8,192 bytes for every part (R443). -/
def package : Bytes :=
  toLE 4 0x57464C45 ++ toLE 2 1 ++ [0, 5] ++ List.replicate 8 0 ++ toLE 4 8192 ++ [7] ++ List.replicate 3 0 ++ List.replicate 8168 0
/-- Its keys are the part's, and the flash holds these bytes. -/
def verifying (m : Mem) : State :=
  fetched (cmd 0x0802) { up with
    part := { up.part with fwEcdsaHash := Config.sha384 (slice package 80 96), fwLmsHash := Config.sha256 (slice package 176 56) }
    flash := { up.flash with mem := m } }
/-- The package stands in STAGING. -/
def staged : Mem := memWrite flashFill [] stagingBase package
/-- An authorisation by the owner of the transition from DEPLOYED to SCRAPPED (R459). -/
def authorisation : Bytes :=
  toLE 4 0x434F4C45 ++ [6, 3, 1, 0] ++ List.replicate 8 0 ++ toLE 4 1 ++ List.replicate 2232 0

theorem flashByte_verifying (m : Mem) (a : Nat) : (verifying m).flashByte a = memGet flashFill m a := rfl

theorem package_length : package.length = 8192 := by
  unfold package
  rw [List.length_append, List.length_replicate]
  rfl

theorem read_written (base : Nat) (b : Bytes) : (verifying (memWrite flashFill [] base b)).flashRead base b.length = b := by
  apply List.ext_getElem
  · rw [State.flashRead, List.length_map, List.length_range]
  · intro i h1 h2
    simp only [State.flashRead, List.getElem_map, List.getElem_range, flashByte_verifying]
    exact Laws.memGet_memWrite_same rfl h2

theorem package_read : (verifying staged).flashRead stagingBase 8192 = package := by
  rw [← package_length]
  exact read_written stagingBase package

theorem package_form : manifestOk .x 0 package = true := by decide +kernel

theorem package_at : (verifying staged).packageAt stagingBase = package := by
  unfold State.packageAt
  rw [package_read, show min imageBytes (max 8192 (pkgLength package)) = 8192 by decide +kernel, package_read]

theorem witness_FirmwareVerifies (he : ∀ k d s, Config.ecdsaVerify k d s = true) (hl : ∀ k m s, Config.lmsVerify k m s = true) :
    ∃ s r c, Starts (redrawFlash s) r 0x0802 c ∧ c.argReserved 0 0 0 0 0 = false ∧ c.sub.payLen = 0 ∧
      let v := redrawFlash s
      v.imageOk stagingBase = true ∧ v.sec.counter ≤ pkgSec (v.flashRead stagingBase 8192) := by
  refine ⟨verifying staged, ref, cmd 0x0802, ⟨by decide +kernel, by decide +kernel, by decide +kernel, by decide +kernel, by decide +kernel⟩,
    by decide +kernel, by decide +kernel, ?_⟩
  show (verifying staged).imageOk stagingBase = true ∧ _ ≤ pkgSec ((verifying staged).flashRead stagingBase 8192)
  rw [package_read]
  refine ⟨?_, by decide +kernel⟩
  rw [State.imageOk, package_at, packageOk, signaturesOk, he, hl, show manifestOk (verifying staged).part.variant 0 package = true from package_form]
  simp [show (verifying staged).part.fwEcdsaHash = Config.sha384 (slice package 80 96) from rfl,
    show (verifying staged).part.fwLmsHash = Config.sha256 (slice package 176 56) from rfl]

theorem witness_LifecycleSets (he : ∀ k d s, Config.ecdsaVerify k d s = true) (hl : ∀ k m s, Config.lmsVerify k m s = true) :
    ∃ s r pay c b w, Starts s r 0x0901 c ∧ c.argReserved 7 0 0 0 0 = false ∧ s.payload c pay = some b ∧ c.sub.payLen = 2252 ∧
      c.fld 0 2 0 ≤ 6 ∧ authReserved b s.sec.lifecycle (c.fld 0 2 0) = false ∧ s.authorised b (c.fld 0 2 0) = true ∧
      authority s.sec.lifecycle (c.fld 0 2 0) = some w ∧ (c.fld 0 2 0 = lcReturned → ∀ m ∈ s.models.slots, m.2.st = .empty) := by
  refine ⟨fetched (cmd 0x0901 6 0 0 0 2252) { up with part := { up.part with
      ownEcdsaHash := Config.sha384 (slice authorisation 64 96), ownLmsHash := Config.sha256 (slice authorisation 160 56) } },
    ref, some authorisation, cmd 0x0901 6 0 0 0 2252, authorisation, 1,
    ⟨by decide +kernel, by decide +kernel, by decide +kernel, by decide +kernel, by decide +kernel⟩, by decide +kernel, by decide +kernel,
    by decide +kernel, by decide +kernel, by decide +kernel, ?_, by decide +kernel, by decide +kernel⟩
  unfold State.authorised
  dsimp only
  rw [he, hl]
  simp only [Bool.and_eq_true, decide_eq_true_eq]
  exact ⟨⟨⟨⟨⟨⟨⟨⟨⟨by decide +kernel, by decide +kernel⟩, by decide +kernel⟩, by decide +kernel⟩, by decide +kernel⟩, by decide +kernel⟩,
    by rw [if_neg (by decide +kernel)]; rfl⟩, by rw [if_neg (by decide +kernel)]; rfl⟩, trivial⟩, trivial⟩

/-! ## Witnesses: sweeps and the Slate's reads -/

/-- The word of a sweep that clears, of the line of one row by one chunk; and the word as it runs. -/
def clearing : QWord := word 0x20 (2052 + 1024 * 2 ^ 17 + 2 ^ 33 + 1024 * 2 ^ 49 + 2 ^ 114)
def lineSweep (w : QWord) (order : List Nat) : InProg :=
  { index := 0, word := w, issued := [], order := order, open_ := [], ecc := [], recv := [], freed := 0, data := [], flags := 0 }
/-- Array 0 stands at the word, with these sweeps in progress and these lines in its latch; its line lies in sub-bank 1. -/
def swept (prog : List InProg) (latch : List SweepLine) : State :=
  { standing (plan0 false [] [] [] []) [clearing] (toLE 2 8192 ++ (descBytes 0 0 1).drop 2) with
    arrs := [(0, { Arr.reset with cur := some (0, 0), queue := [(1, clearing)], prog := prog, latch := latch })] }
/-- The sweep's line, being applied until a time or not yet. -/
def latchLine (fin : Option Nat) : SweepLine :=
  { idx := 0, k := 1, seqL := 0, comes := 0, ends := 0, ended := true, waits := [], fixed := [], fin := fin }

theorem witness_SweepWordsComplete :
    (∀ op ∈ [0x20, 0x21, 0x22], ∃ s x, AtWord s (.exec 0) op x ∧ s.sweepFree 0 x.w = true) ∧
    (∃ s x, AtWord s (.exec 0) 0x20 x ∧ s.sweepFree 0 x.w = false ∧ s.sweepStalls 0 x.w = true) ∧
    (∃ (s : State) (x : At), wClear x.w = true ∧
      0 ∈ sweepKeys x.w (s.descOf 0 (wDesc x.w)) ((s.rankedCells 0 (s.descOf 0 (wDesc x.w))).map (·.2))) ∧
    (∃ (s : State) (e : SweepLine) (l : List SweepLine) (i : InProg), (s.arr 0).latch = e :: l ∧ s.applying 0 = some i ∧ e.fin = none ∧
      e.waits = [] ∧ i.index = e.idx) :=
  ⟨fun op h => ⟨sweeping op, atOf (sweeping op) (.exec 0), atWord (by revert op; decide +kernel), by revert op; decide +kernel⟩,
   ⟨swept [lineSweep clearing []] [], atOf (swept [lineSweep clearing []] []) (.exec 0), atWord (by decide +kernel), by decide +kernel⟩,
   ⟨swept [] [], atOf (swept [] []) (.exec 0), by decide +kernel⟩,
   ⟨swept [lineSweep clearing []] [latchLine none], latchLine none, [], lineSweep clearing [], by decide +kernel⟩⟩

/-- A reconstruction of sub-bank 0 of cell 0 of array 1, and a state that holds it; and one that holds a line of that place. -/
def recon0 (read : List Nat) : Recon :=
  { array := 1, cell := 0, k := 0, lblock := 0, line := 0, plan := true, t := 0, found := 0, read := read }
def rebuilding (read : List Nat) : State := { up with slate := { up.slate with recons := [recon0 read] } }
def mapped : State :=
  { up with slate := { up.slate with
      sbs := [(sbKey 1 0 0, { SbSt.reset with map := [(0, 0)] })], lines := [(lnKey (sbKey 1 0 0) 0 0, ⟨List.replicate 80 0⟩)] } }

theorem witness_SlateReadsComplete :
    (∃ s, State.mountedAt s 0 = true ∧ s.stripeReads 0 1 (slotStart 0 1) false = [] ∧ (s.nextRead 0 1 (slotStart 0 1 + slotLen)).isSome = true) ∧
    (∃ s, State.mountedAt s 1 = true ∧ s.stripeReads 1 2 0 false = [recon0 []]) ∧
    (∃ s : State, s.slate.stackW.mounted = true ∨ s.slate.stackE.mounted = true) ∧
    (∃ s, State.mountedAt s 1 = true ∧ mhas ((slotEnd 1 0 s).sb (sbKey 1 0 0)).map 0 = true ∧ ((slotEnd 1 0 s).sb (sbKey 1 0 0)).failed = false ∧
      0 ∉ ((slotEnd 1 0 s).sb (sbKey 1 0 0)).lost ∧ 0 ∉ ((slotEnd 1 0 s).arr 1).excl) ∧
    (∃ s l, State.stored s 1 0 0 0 0 = some l ∧ misdirected (l.meta 0) 0 0 = false ∧ rereadKey 1 0 0 0 0 ∉ s.slate.rereads ∧
      s.slate.relocBits.toNat = 5) ∧
    (∃ s, ((applyHead 0 s).arr 0).latch = [latchLine (some 7)]) ∧
    (∃ s i, ((applyHead 0 s).arr 0).latch = [] ∧ (applyHead 0 s).applying 0 = some i ∧ wPort i.word = true ∧ i.freed < i.order.length) ∧
    (∃ s r, State.reconRead s r = true ∧ s.slate.recons = [r]) :=
  ⟨⟨swept [lineSweep clearing []] [], by decide +kernel⟩, ⟨rebuilding [], by decide +kernel⟩, ⟨up, by decide +kernel⟩,
   ⟨mapped, by decide +kernel⟩, ⟨mapped, ⟨List.replicate 80 0⟩, by decide +kernel⟩,
   ⟨swept [lineSweep clearing []] [latchLine (some 7)], by decide +kernel⟩,
   ⟨swept [lineSweep (clearing ||| word 0 (2 ^ 74)) [0]] [], lineSweep (clearing ||| word 0 (2 ^ 74)) [0], by decide +kernel⟩,
   ⟨rebuilding [1, 2, 3, 4, 5, 6, 7, 8], recon0 [1, 2, 3, 4, 5, 6, 7, 8], by decide +kernel⟩⟩

/-! ## Witnesses: the families of commands -/

def atArraysTakeTheFirstDueStep2 : State :=
  { standing (plan0 false [word 3] [word 4] [] []) [] with arrs := [] }

theorem witness_ArraysTakeTheFirstDueStep :
    (∃ l x, firstStep l = some x) ∧
    (∃ (s : State), ∃ a t n h sc ep p x,
      let u := reachTime t s
      let w := hold (.fetch a) (bindStep a h sc ep p x u)
      (u.arr a).cur = none ∧ firstStep (u.startable? a) = some (n, h, sc, ep) ∧ u.plan h = some p ∧ u.stepOf h sc = some x ∧ (∀ y,
      w.at (.fetch a) = some y → y.ok w = true)) ∧
    (∃ (s : State), ∃ a t c, (s.arr a).cur = some c ∧ (∀ x, (reachTime t s).at (.fetch a) = some x → x.ok (reachTime t s) = true)) :=
  ⟨⟨[(5, 1, 0, 0), (5, 0, 1, 0)], (5, 0, 1, 0), by decide +kernel⟩,
   ⟨atArraysTakeTheFirstDueStep2, 0, 1000000000, 1000000000, 0, 0, 0, planOf atArraysTakeTheFirstDueStep2, step0,
    by decide +kernel, by decide +kernel, by decide +kernel, by decide +kernel,
    fun y h => by
    rw [at_some (s := hold (.fetch 0) (bindStep 0 0 0 0 (planOf atArraysTakeTheFirstDueStep2) step0 (reachTime 1000000000 atArraysTakeTheFirstDueStep2))) (by decide +kernel)] at h
    cases h; decide +kernel⟩,
   ⟨standing (plan0 false [word 3] [] [] []) [], 0, 0, (0, 0), by decide +kernel,
    fun x h => by
    rw [at_some (s := reachTime 0 (standing (plan0 false [word 3] [] [] []) [])) (by decide +kernel)] at h
    cases h; decide +kernel⟩⟩

theorem witness_CountersAddSaturateAndClear :
    ∃ (s : State), ∃ e x, AtWord s e 0x02 x ∧ (wX x.w = true ∨ s.earlierDone e = true) ∧ (∃ p, s.plan x.h = some p) :=
  ⟨standing (plan0 false [] [] [] []) [word 2 (2 ^ 96 + 65535)], .exec 0,
   atOf (standing (plan0 false [] [] [] []) [word 2 (2 ^ 96 + 65535)]) (.exec 0), atWord (by decide +kernel),
   .inr (by decide +kernel), ⟨planOf (standing (plan0 false [] [] [] []) [word 2 (2 ^ 96 + 65535)]), by decide +kernel⟩⟩

def atRecvStoresItsRun1 : State :=
  { standing (plan0 false [] [] [] []) [] with arrs := [(0, { Arr.reset with cur := some (0, 0), prog := [(InProg.plain ⟨0, 0, 7, word 0x27 (1024 * 2 ^ 44), .e, 0, loaded (plan0 false [] [] [] [])⟩)] })] }

theorem witness_RecvStoresItsRun :
    ∃ (s : State), ∃ a idx i h sc p,
    let v := fabricSends a (flushLatch a 3 s)
    Safety.Inv s ∧ (v.arr a).prog.find? (fun i => decide (i.index = idx)) = some i ∧ v.holder a = some (h, sc, p) ∧
    wOp i.word = 0x27 :=
  ⟨atRecvStoresItsRun1, 0, 7, (InProg.plain ⟨0, 0, 7, word 0x27 (1024 * 2 ^ 44), .e, 0, loaded (plan0 false [] [] [] [])⟩), 0, 0,
   planOf atRecvStoresItsRun1, ⟨by decide +kernel, by decide +kernel, by decide +kernel, by decide +kernel, by decide +kernel,
   by decide +kernel, by decide +kernel⟩, by decide +kernel⟩

theorem witness_DeviceCommandsComplete :
    (∃ (s : State), ∃ r c, Starts s r 0x0000 c ∧ c.argReserved 0 0 0 0 0 = false ∧ c.sub.payLen = 0) ∧
    (∃ (s : State), ∃ r c, Starts s r 0x0001 c ∧ c.argReserved 0 0 0 0 0 = false ∧ 256 ≤ c.sub.payLen) ∧
    (∃ (s : State), ∃ r c, Starts s r 0x0002 c ∧ c.argReserved all64 1 0 0 0 = false ∧ c.fld 1 0 0 = 0 ∧ c.sub.payLen = 0 ∧
      s.spar.st ≠ 2) ∧
    (∃ (s : State), ∃ r c e, Starts s r 0x0002 c ∧ c.argReserved all64 1 0 0 0 = false ∧ c.fld 1 0 0 = 1 ∧ c.arg 0 % secondNs = 0 ∧
      c.sub.payLen = 0 ∧ s.spar.st ≠ 2 ∧ s.tbu.lastEdge = some e ∧ s.tbu.now ≤ e + 2 * secondNs) ∧
    (∃ (s : State), ∃ r c, Starts s r 0x0003 c ∧ c.argReserved 0x37FFFF 0 0 0 0 = false ∧ c.sub.payLen = 0 ∧ c.fld 0 18 16 = 0 ∧
      (c.fld 0 15 0 = 0 ∨ (150 ≤ c.fld 0 15 0 ∧ c.fld 0 15 0 ≤ s.part.variant.tdp)) ∧ s.pwr.entry = none) :=
  ⟨⟨fetched (cmd 0x0000) up, ref, (cmd 0x0000), starts_of (by decide +kernel), by decide +kernel⟩,
   ⟨fetched (cmd 0x0001 0 0 0 0 256) up, ref, (cmd 0x0001 0 0 0 0 256), starts_of (by decide +kernel), by decide +kernel⟩,
   ⟨fetched (cmd 0x0002 5000000000) up, ref, (cmd 0x0002 5000000000), starts_of (by decide +kernel), by decide +kernel⟩,
   ⟨fetched (cmd 0x0002 5000000000 1) ({ up with tbu := { up.tbu with lastEdge := some 0, now := 2000000000 } }), ref,
    (cmd 0x0002 5000000000 1), 0, starts_of (by decide +kernel), by decide +kernel⟩,
   ⟨fetched (cmd 0x0003 150) up, ref, (cmd 0x0003 150), starts_of (by decide +kernel), by decide +kernel⟩⟩

theorem witness_StagingCommandsComplete :
    (∃ (s : State), ∃ r c i, Starts s r 0x0100 c ∧ c.argReserved 0x1FFF000F 0 0 0 0 = false ∧ c.sub.payLen = 0 ∧ c.fld 0 1 0 ≤ 1 ∧
      1 ≤ c.fld 0 28 16 ∧ c.fld 0 28 16 ≤ 4096 ∧ s.emptySlot = some i ∧ i < 16) ∧
    (∃ (s : State), ∃ r pay c b, Starts s r 0x0101 c ∧ c.argReserved 0xFF3F01FF all64 0 0 0 = false ∧ s.payload c pay = some b ∧
      s.maskOk (c.arg 1) (c.fld 0 21 16) = true ∧ (c.fld 0 31 24 ≠ 0 ↔ bit (c.arg 0) 4 = true) ∧
      (if bit (c.arg 0) 7 then c.sub.payLen = 0 else objTableOk s.part.variant b = true) ∧
      ((s.slot (c.fld 0 3 0)).st = .partialSwap ↔ bit (c.arg 0) 7 = true) ∧ (s.slot (c.fld 0 3 0)).st ≠ .empty ∧
      ((s.slot (c.fld 0 3 0)).st = .broken → bit (c.arg 0) 8 = true) ∧ (bit (c.arg 0) 4 = true →
      (s.slot (c.fld 0 3 0)).st ≠ .created ∧ (s.slot (c.fld 0 3 0)).st ≠ .broken) ∧ s.models.stage = none ∧
      s.models.commit = none ∧ s.activeJobs < 64 ∧ s.wideMembers c = []) ∧
    (∃ (s : State), ∃ r pay c b g, Starts s r 0x0102 c ∧ c.argReserved 0xFFFF all64 low32 0 0 = false ∧ s.payload c pay = some b ∧
      64 ≤ b.length ∧ b.length ≤ 2 ^ 20 ∧ b.length = 64 + u b 24 4 ∧ u b 4 2 = c.fld 0 15 0 ∧ s.models.stage = some g ∧
      g.id = c.fld 0 15 0 ∧ g.reader = s.spar.member ∧ (shardOk b = true → u b 6 1 = 0)) ∧
    (∃ (s : State), ∃ r c g, Starts s r 0x0103 c ∧ c.argReserved 0xFFFF 0 0 0 0 = false ∧ c.sub.payLen = 0 ∧ s.models.stage = some g ∧
      g.id = c.fld 0 15 0 ∧ g.endCmd = none ∧ s.layersIn g = true ∧ s.spar.st ≠ 1) :=
  ⟨⟨fetched (cmd 0x0100 (4096 * 65536 + 1)) up, ref, (cmd 0x0100 (4096 * 65536 + 1)), 0, starts_of (by decide +kernel),
    by decide +kernel⟩,
   ⟨fetched (cmd 0x0101 0 1 0 0 16) (withModel slot0 up), ref, (some (toLE 2 1 ++ [1, 0] ++ toLE 4 0 ++ toLE 4 32 ++ toLE 4 1)),
    (cmd 0x0101 0 1 0 0 16), toLE 2 1 ++ [1, 0] ++ toLE 4 0 ++ toLE 4 32 ++ toLE 4 1, starts_of (by decide +kernel),
    by decide +kernel⟩,
   ⟨fetched (cmd 0x0102 1 0 0 0 64) (staging stage0 up), ref, (some (toLE 4 0 ++ toLE 2 1 ++ List.replicate 58 0)),
    (cmd 0x0102 1 0 0 0 64), toLE 4 0 ++ toLE 2 1 ++ List.replicate 58 0, stage0, starts_of (by decide +kernel),
    by decide +kernel⟩,
   ⟨fetched (cmd 0x0103 1) (staging stage0 up), ref, (cmd 0x0103 1), stage0, starts_of (by decide +kernel), by decide +kernel⟩⟩

theorem witness_ModelCommandsComplete :
    (∃ (s : State), ∃ r c g, Starts s r 0x0104 c ∧ c.argReserved all64 0xFFFFFF 0 0 0 = false ∧ c.sub.payLen = 0 ∧
      s.models.stage = some g ∧ g.id = c.fld 1 15 0 ∧ c.fld 1 23 16 = (if g.layered then g.committed else 0) ∧
      (c.arg 0 = 0 ∨ s.tbu.now + 2000000 ≤ c.arg 0) ∧ (∀ m ∈ g.memberList, m ∈ g.staged) ∧ g.endCmd = none ∧
      s.allCommitted g = false ∧ s.models.commit = none) ∧
    (∃ (s : State), ∃ r c g, Starts s r 0x0105 c ∧ c.argReserved 0xFFFF 0 0 0 0 = false ∧ c.sub.payLen = 0 ∧ s.models.stage = some g ∧
      g.id = c.fld 0 15 0 ∧ s.pastDecision c = false ∧ s.spar.st ≠ 1) ∧
    (∃ (s : State), ∃ r pay c b, Starts s r 0x0106 c ∧ c.argReserved 0xF all64 low32 0 0 = false ∧ s.payload c pay = some b ∧ b ≠ [] ∧
      b.length % 80 = 0 ∧ b.length ≤ 80 * 4096 ∧ (s.slot (c.fld 0 3 0)).st ∈ [SlotSt.serving, .staging, .committing,
      .partialSwap] ∧ (∀ x ∈ items 80 b, RepairRec.formOk (parseRepair x) = true ∧
      s.repairOk (c.fld 0 3 0) (parseRepair x) = true ∧ s.repairMeetsCommit (c.fld 0 3 0) (parseRepair x) = false)) ∧
    (∃ (s : State), ∃ r c, Starts s r 0x0107 c ∧ c.argReserved 0xF 0 0 0 0 = false ∧ c.sub.payLen = 0 ∧
      (s.slot (c.fld 0 3 0)).st ≠ .empty ∧ ((s.slot (c.fld 0 3 0)).st = .broken ∨ s.modelInUse (c.fld 0 3 0) = false) ∧
      s.wideMembers c = []) :=
  ⟨⟨fetched (cmd 0x0104 1002000000 1) (staging stage0 up), ref, (cmd 0x0104 1002000000 1), stage0, starts_of (by decide +kernel),
    by decide +kernel⟩,
   ⟨fetched (cmd 0x0105 1) (staging stage0 up), ref, (cmd 0x0105 1), stage0, starts_of (by decide +kernel), by decide +kernel⟩,
   ⟨fetched (cmd 0x0106 0 0 0 0 80) ({ withModel { slot0 with tags := [(0, 0)] } up with slate := { up.slate with sbs := [(0, { SbSt.reset with map := [(0, 0)] })] } }),
    ref, (some (toLE 4 0 ++ [1] ++ List.replicate 75 0)), (cmd 0x0106 0 0 0 0 80), (toLE 4 0 ++ [1] ++ List.replicate 75 0),
    starts_of (by decide +kernel), by decide +kernel⟩,
   ⟨fetched (cmd 0x0107) (withModel slot0 up), ref, (cmd 0x0107), starts_of (by decide +kernel), by decide +kernel⟩⟩

def atAdapterAndTuningCommandsComplete3 : State :=
  fetched (cmd 0x0202 (64 * 256) (2 ^ 57 + 1) (objBase + 65536) (objBase + 131072) 32) (withStream { stream0 with adapter := some objBase } (withModel slot0 { withAdapter up with tiers := { up.tiers with objs := [object0 4, { object0 1 with dva := objBase + 65536, pages := [.board 1] }, { object0 5 with dva := objBase + 131072, pages := [.board 2] }], boardUsed := [0, 1, 2] } }))

theorem witness_AdapterAndTuningCommandsComplete :
    (∃ (s : State), ∃ r pay c b i a ps, Starts s r 0x0200 c ∧ c.argReserved 0xF all64 0 0 0 = false ∧ s.payload c pay = some b ∧
      c.fld 0 3 0 ≤ 1 ∧ s.adapterOk b = true ∧ (c.arg 1 ≠ 0 → s.dvaFree (c.arg 1) (cdiv b.length pageBytes) = true) ∧
      s.modelSlot (u b 0 8) = some i ∧ (s.slot i).st ∈ [SlotSt.serving, .staging, .committing] ∧ s.models.adapters.length < 4096 ∧
      s.takePages (c.fld 0 3 0) 0 (cdiv b.length pageBytes) = some ps ∧
      (if c.arg 1 = 0 then s.chooseDva (cdiv b.length pageBytes) else some (c.arg 1)) = some a) ∧
    (∃ (s : State), ∃ r c a, Starts s r 0x0201 c ∧ c.argReserved all64 0 0 0 0 = false ∧ c.sub.payLen = 0 ∧
      s.adapter (c.arg 0) = some a ∧ s.boundToStream (c.arg 0) = false ∧ s.namedByPlan (c.arg 0) = false ∧
      s.migrating (c.arg 0) = false) ∧
    (∃ (s : State), ∃ r pay c b st a j ma mo va s', Starts s r 0x0202 c ∧ s.part.variant.tune = true ∧
      c.argReserved 0x1FFFF all64 all64 all64 0 = false ∧ s.payload c pay = some b ∧ b.length = 32 ∧ 1 ≤ c.fld 0 14 8 ∧
      c.fld 0 14 8 ≤ 64 ∧ tuneParamsOk b = true ∧ mget s.models.streams (c.fld 0 7 0) = some st ∧
      s.weightOf st.slot (c.arg 1) = true ∧ st.adapter.bind s.adapter = some a ∧ s.tuneObj (c.arg 2) 1 = true ∧
      s.tuneObj (c.arg 3) (tensorBytes 16 a.blocks) = true ∧ (∀ x ∈ s.models.streams, x.1 ≠ c.fld 0 7 0 →
      x.2.adapter ≠ some a.dva) ∧ (∀ t ∈ s.models.tunes, t.2.adapter ≠ a.dva) ∧ st.closing = none ∧
      lowest (fun j => (mget s.models.tunes j).isNone) 16 = some j ∧ placeTensors a.blocks s = some (ma, mo, va, s')) ∧
    (∃ (s : State), ∃ r c t, Starts s r 0x0203 c ∧ s.part.variant.tune = true ∧ c.argReserved 0x10F 0 0 0 0 = false ∧
      (if bit (c.arg 0) 8 then 24 ≤ c.sub.payLen else c.sub.payLen = 0) ∧ mget s.models.tunes (c.fld 0 3 0) = some t) :=
  ⟨⟨fetched (cmd 0x0200 1 0 0 0 image.length) (withModel slot0 up), ref, (some image), (cmd 0x0200 1 0 0 0 image.length), image,
    0, objBase, [.board 0], starts_of (by decide +kernel), by decide +kernel⟩,
   ⟨fetched (cmd 0x0201 objBase) (withAdapter up), ref, (cmd 0x0201 objBase), adapter0, starts_of (by decide +kernel),
    by decide +kernel⟩,
   ⟨atAdapterAndTuningCommandsComplete3, ref,
    (some (toLE 4 0x3F666666 ++ toLE 4 0x3F7FBE77 ++ toLE 4 0x3F800000 ++ toLE 4 0x3F800000 ++ List.replicate 16 0)),
    (cmd 0x0202 (64 * 256) (2 ^ 57 + 1) (objBase + 65536) (objBase + 131072) 32),
    (toLE 4 0x3F666666 ++ toLE 4 0x3F7FBE77 ++ toLE 4 0x3F800000 ++ toLE 4 0x3F800000 ++ List.replicate 16 0),
    { stream0 with adapter := some objBase }, adapter0, 0,
    ((placeTensors adapter0.blocks atAdapterAndTuningCommandsComplete3).get (by decide +kernel)).1,
    ((placeTensors adapter0.blocks atAdapterAndTuningCommandsComplete3).get (by decide +kernel)).2.1,
    ((placeTensors adapter0.blocks atAdapterAndTuningCommandsComplete3).get (by decide +kernel)).2.2.1,
    ((placeTensors adapter0.blocks atAdapterAndTuningCommandsComplete3).get (by decide +kernel)).2.2.2,
    starts_of (by decide +kernel), by decide +kernel⟩,
   ⟨fetched (cmd 0x0203 0 0) ({ withAdapter up with models := { (withAdapter up).models with tunes := [(0, { stream := 0, adapter := objBase, mse := true, bias := false, lossHead := 0, saved := 0, grad := 0, b1 := 0, b2 := 0, lr := 0, eps := 0, wd := 0, n := 1, steps := 0, stepT := 0, sum := [], master := 0, mom := 0, var := 0, work := [[]], apply := false, stopping := none })] } }),
    ref, (cmd 0x0203 0 0), { stream := 0, adapter := objBase, mse := true, bias := false, lossHead := 0, saved := 0, grad := 0, b1 := 0, b2 := 0, lr := 0, eps := 0, wd := 0, n := 1, steps := 0, stepT := 0, sum := [], master := 0, mom := 0, var := 0, work := [[]], apply := false, stopping := none },
    starts_of (by decide +kernel), by decide +kernel⟩⟩

theorem witness_StreamCommandsComplete :
    (∃ (s : State), ∃ r pay c b p y i, Starts s r 0x0300 c ∧ c.argReserved 0xFFFFFFF all64 all64 low32 0 = false ∧
      s.payload c pay = some b ∧ openPayOk b = true ∧ (if bit (c.arg 0) 27 then ∃ a, s.adapter (c.arg 1) = some a ∧
      s.modelSlot a.model.toNat = some (c.fld 0 3 0) else c.arg 1 = 0) ∧ s.plan (c.fld 0 8 4) = some p ∧
      s.openFields c b p.plan = true ∧ (p.st = .loaded ∨ p.st = .running) ∧ s.modelSym p.plan (c.fld 0 3 0) = some y ∧
      (∀ x ∈ s.models.streams, ¬ (x.2.handle = c.fld 0 8 4 ∧ x.2.sched = c.fld 0 12 9 ∧ x.2.row = c.fld 0 20 13 ∧
      x.2.orphan = false)) ∧ s.quantMeets (c.fld 0 8 4) (c.fld 0 12 9) (c.fld 0 20 13) (c.fld 0 3 0) p.plan = false ∧
      (s.slot (c.fld 0 3 0)).st ∈ [SlotSt.serving, .staging, .committing, .partialSwap] ∧
      lowest (fun i => (mget s.models.streams i).isNone) 256 = some i ∧ s.histFits (freshHist p.plan y).length = true) ∧
    (∃ (s : State), ∃ r c st, Starts s r 0x0301 c ∧ c.argReserved 0xFF 0 0 0 0 = false ∧ c.sub.payLen = 0 ∧
      mget s.models.streams (c.fld 0 7 0) = some st ∧ st.closing = none) ∧
    (∃ (s : State), ∃ r pay c b st, Starts s r 0x0302 c ∧ c.argReserved 0xFF 0 0 0 0 = false ∧ s.payload c pay = some b ∧
      mget s.models.streams (c.fld 0 7 0) = some st ∧ s.submitLen (c.fld 0 7 0) st b.length = true ∧ st.closing = none ∧
      st.pair = r.q ∧ st.held.length < 4) ∧
    (∃ (s : State), ∃ i st x l, mget s.models.streams i = some st ∧ st.held = x :: l ∧ x.placed = none) :=
  ⟨⟨fetched (cmd 0x0300 0 0 (1000000 + 1000000 * 2 ^ 32) 0 32) (withPlan (loaded (plan0 false [] [] [] [])) (withModel slot0 up)),
    ref, (some (List.replicate 32 0)), (cmd 0x0300 0 0 (1000000 + 1000000 * 2 ^ 32) 0 32), (List.replicate 32 0),
    loaded (plan0 false [] [] [] []), 0, 0, starts_of (by decide +kernel), by decide +kernel, by decide +kernel,
    by decide +kernel, by rw [if_neg (by decide +kernel)]; decide +kernel, by decide +kernel⟩,
   ⟨fetched (cmd 0x0301) (withStream stream0 up), ref, (cmd 0x0301), stream0, starts_of (by decide +kernel), by decide +kernel⟩,
   ⟨fetched (cmd 0x0302 0 0 0 0 16) (withStream stream0 up), ref, (some (List.replicate 16 0)), (cmd 0x0302 0 0 0 0 16),
    List.replicate 16 0, stream0, starts_of (by decide +kernel), by decide +kernel⟩,
   ⟨withStream { stream0 with held := [{ cmd := 1, data := [], placed := none }] } up, 0, { stream0 with held := [{ cmd := 1, data := [], placed := none }] },
    { cmd := 1, data := [], placed := none }, [], by decide +kernel⟩⟩

theorem witness_ObjectCommandsComplete :
    (∃ (s : State), ∃ r c a ps, Starts s r 0x0500 c ∧ c.fld 0 3 0 = 0 ∧
      c.argReserved 0x3FFFFF (if c.fld 0 11 4 = 3 then 0x1FFFFFFFFFF else all64) all64 all64 0 = false ∧ c.sub.payLen = 0 ∧
      placeable (c.fld 0 11 4) (c.fld 0 15 12) = true ∧ (c.fld 0 15 12 ≠ 4 → c.fld 0 21 16 = 0) ∧ (c.fld 0 15 12 = 2 →
      s.part.variant.ports ≠ 0 ∧ s.spar.st ≠ 0) ∧ (if c.fld 0 11 4 = 3 then c.fld 1 31 0 ≠ 0 ∧ c.fld 1 31 0 % 128 = 0 ∧
      1 ≤ c.fld 1 40 32 ∧ c.fld 1 40 32 ≤ 256 else c.arg 1 ≠ 0) ∧
      let size := if c.fld 0 11 4 = 3 then kvBytes (c.fld 1 31 0) (c.fld 1 40 32) else c.arg 1
      (c.arg 2 ≠ 0 → s.dvaFree (c.arg 2) (cdiv size pageBytes) = true) ∧ (c.fld 0 15 12 = 4 →
      s.storeTaken (c.fld 0 21 16) + cdiv size pageBytes ≤ 4) ∧
      s.takePages (c.fld 0 15 12) (c.fld 0 21 16) (cdiv size pageBytes) = some ps ∧
      (if c.arg 2 = 0 then s.chooseDva (cdiv size pageBytes) else some (c.arg 2)) = some a) ∧
    (∃ (s : State), ∃ r c o, Starts s r 0x0500 c ∧ c.fld 0 3 0 = 1 ∧ c.argReserved 0xF all64 0 0 0 = false ∧ c.sub.payLen = 0 ∧
      s.obj (c.arg 1) = some o ∧ s.namedByPlan (c.arg 1) = false ∧ s.boundToStream (c.arg 1) = false ∧
      s.migrating (c.arg 1) = false) ∧
    (∃ (s : State), ∃ r c o ps, Starts s r 0x0501 c ∧ c.argReserved 0xF all64 all64 0 0 = false ∧ c.sub.payLen = 0 ∧ c.fld 0 3 0 ≤ 2 ∧
      (c.fld 0 3 0 = 2 → o.kind = 3 ∧ s.part.variant.ports ≠ 0 ∧ s.spar.st ≠ 0) ∧ s.obj (c.arg 1) = some o ∧
      c.fld 2 31 0 < o.pages.length ∧ c.fld 2 31 0 + c.fld 2 63 32 ≤ o.pages.length ∧ (∀ p ∈ o.pages, p ≠ .dropped) ∧
      s.migrating (c.arg 1) = false ∧ (c.fld 0 3 0 ≠ 0 → s.heldInHub (c.arg 1) = false) ∧
      let idx := o.toMove (if c.fld 2 63 32 = 0 then 0 else c.fld 2 31 0) (if c.fld 2 63 32 = 0 then o.pages.length else c.fld 2 63 32) (c.fld 0 3 0)
      s.takePages (c.fld 0 3 0) 0 idx.length = some ps ∧ ps.length = idx.length) ∧
    (∃ (s : State), ∃ id m p rest, s.tiers.migrs.find? (fun m => decide (m.obj = id)) = some m ∧ m.left = p :: rest) :=
  ⟨⟨fetched (cmd 0x0500 (3 * 16 + 4096) (128 + 256 * 2 ^ 32)) up, ref, (cmd 0x0500 (3 * 16 + 4096) (128 + 256 * 2 ^ 32)), objBase,
    (List.range 67).map PageAt.board, starts_of (by decide +kernel), by and_intros <;> decide +kernel⟩,
   ⟨fetched (cmd 0x0500 1 objBase) (withObject (object0 1) up), ref, (cmd 0x0500 1 objBase), object0 1,
    starts_of (by decide +kernel), by decide +kernel⟩,
   ⟨fetched (cmd 0x0501 0 objBase (2 ^ 32)) (withObject (object0 1) up), ref, (cmd 0x0501 0 objBase (2 ^ 32)), object0 1,
    [.hub 0], starts_of (by decide +kernel), by and_intros <;> decide +kernel⟩,
   ⟨{ up with tiers := { up.tiers with migrs := [{ obj := objBase, tier := 0, left := [(0, .hub 0)], copies := 1, dirty := false, switched := 0, cmd := none, lend := none }] } },
    objBase, { obj := objBase, tier := 0, left := [(0, .hub 0)], copies := 1, dirty := false, switched := 0, cmd := none, lend := none },
    (0, .hub 0), [], by decide +kernel⟩⟩

theorem witness_LendCommandsComplete :
    (∃ (s : State), ∃ r c ps, Starts s r 0x0701 c ∧ s.part.variant.ports ≠ 0 ∧ c.fld 0 1 0 = 0 ∧
      c.argReserved 0x3FF all64 0 0 0 = false ∧ c.sub.payLen = 0 ∧ s.spar.st ≠ 0 ∧ s.spar.st ≠ 3 ∧
      (if bit (c.arg 0) 9 then c.fld 0 8 3 = 0 else c.fld 0 8 3 ≠ s.spar.member ∧ (s.spar.st = 1 →
      mhas s.spar.members (c.fld 0 8 3) = true ∨ c.fld 0 8 3 = s.spar.manager)) ∧
      s.takePages (if bit (c.arg 0) 2 then 1 else 0) 0 (c.arg 1) = some ps) ∧
    (∃ (s : State), ∃ r c l, Starts s r 0x0701 c ∧ s.part.variant.ports ≠ 0 ∧ c.fld 0 1 0 = 1 ∧ c.argReserved 3 all64 0 0 0 = false ∧
      c.sub.payLen = 0 ∧ s.tiers.lends.find? (fun x => decide (x.id = c.arg 1) && decide (x.lender = s.spar.member)) = some l ∧
      l.reclaiming = false) ∧
    (∃ (s : State), ∃ i l, s.tiers.lends.find? (fun x => decide (x.id = i)) = some l ∧ l.lender ≠ s.spar.member ∧ l.reclaiming = false) ∧
    (∃ (s : State), ∃ m i l, s.tiers.lends.find? (fun x => decide (x.id = i)) = some l ∧ l.lender = s.spar.member ∧
      l.reclaiming = true ∧ m ∉ l.reported) ∧
    (∃ (s : State), ∃ i l, s.tiers.lends.find? (fun x => decide (x.id = i)) = some l ∧ l.reclaiming = true) :=
  ⟨⟨fetched (cmd 0x0701 8 1) (asManager up), ref, (cmd 0x0701 8 1), [.hub 0], starts_of (by decide +kernel), by decide +kernel⟩,
   ⟨fetched (cmd 0x0701 1 1) ({ asManager up with tiers := { up.tiers with lends := [{ id := 1, lender := 0, borrower := some 1, hubPool := true, frames := [0], reclaiming := false, reported := [], dropped := 0, cmd := none, closed := false }] } }),
    ref, (cmd 0x0701 1 1), { id := 1, lender := 0, borrower := some 1, hubPool := true, frames := [0], reclaiming := false, reported := [], dropped := 0, cmd := none, closed := false },
    starts_of (by decide +kernel), by decide +kernel⟩,
   ⟨{ asWorker up with tiers := { up.tiers with lends := [{ id := 1, lender := 0, borrower := some 1, hubPool := true, frames := [0], reclaiming := false, reported := [], dropped := 0, cmd := none, closed := false }] } },
    1, { id := 1, lender := 0, borrower := some 1, hubPool := true, frames := [0], reclaiming := false, reported := [], dropped := 0, cmd := none, closed := false },
    by decide +kernel⟩,
   ⟨{ asManager up with tiers := { up.tiers with lends := [{ id := 1, lender := 0, borrower := some 1, hubPool := true, frames := [0], reclaiming := true, reported := [], dropped := 0, cmd := none, closed := false }] } },
    1, 1, { id := 1, lender := 0, borrower := some 1, hubPool := true, frames := [0], reclaiming := true, reported := [], dropped := 0, cmd := none, closed := false },
    by decide +kernel⟩,
   ⟨{ asWorker up with tiers := { up.tiers with lends := [{ id := 1, lender := 0, borrower := some 1, hubPool := true, frames := [0], reclaiming := true, reported := [], dropped := 0, cmd := none, closed := false }] } },
    1, { id := 1, lender := 0, borrower := some 1, hubPool := true, frames := [0], reclaiming := true, reported := [], dropped := 0, cmd := none, closed := false },
    by decide +kernel⟩⟩

theorem witness_BoardEventsComplete :
    (∃ (s : State), ∃ unit, unit % 64 = 0 ∧ boardBase ≤ unit ∧ unit < boardBase + s.boardBytes) ∧
    (∃ (s : State), ∃ ch, s.tiers.trained = true ∧ s.tiers.unavailable = false ∧ ch < s.part.variant.channels) ∧
    (∃ (s : State), ∃ unit o p, unit ∈ s.tiers.rewrites ∧
      let s1 := { s with tiers := { s.tiers with rewrites := s.tiers.rewrites.filter (· ≠ unit) } }
      s1.objOnBoard unit = some o ∧ s1.takePages 1 0 1 = some [p]) :=
  ⟨⟨up, boardBase + up.boardBytes - 64, by decide +kernel⟩,
   ⟨up, 31, by decide +kernel⟩,
   ⟨{ withObject (object0 1) up with tiers := { (withObject (object0 1) up).tiers with rewrites := [boardBase] } }, boardBase,
    object0 1, .board 1, by decide +kernel, by decide +kernel, by decide +kernel⟩⟩

theorem witness_PlanCommandsComplete :
    (∃ (s : State), ∃ r pay c b p h fs, Starts s r 0x0400 c ∧ c.argReserved 0x3F 0 0 0 0 = false ∧ s.payload c pay = some b ∧ b ≠ [] ∧
      (c.fld 0 5 5 = 0 → c.fld 0 4 0 = 0) ∧ planAbsent s.part.variant b = false ∧ parsePlan b = some p ∧ s.planOk b p = true ∧
      s.loadHandle c = some h ∧ takeFrames s.tiers.boardUsed s.boardFrames (cdiv b.length pageBytes) = some fs ∧
      s.planRoom p = true ∧ s.ready.boardMem = true) ∧
    (∃ (s : State), ∃ r c p, Starts s r 0x0401 c ∧ c.argReserved 0x1F all64 0 0 0 = false ∧ c.sub.payLen = 0 ∧
      s.tbu.now + 100000 ≤ c.arg 1 ∧ s.plan (c.fld 0 4 0) = some p ∧ (∀ x ∈ s.startChecks c, x.1 = false) ∧ s.wide c p = false) ∧
    (∃ (s : State), ∃ r c p, Starts s r 0x0402 c ∧ c.argReserved 0x31F 0 0 0 0 = false ∧ c.sub.payLen = 0 ∧ c.fld 0 9 8 ≠ 3 ∧
      s.plan (c.fld 0 4 0) = some p ∧ s.wide c p = false) :=
  ⟨⟨fetched (cmd 0x0400 0 0 0 0 3216) up, ref, (some planImage), (cmd 0x0400 0 0 0 0 3216), planImage, imagePlan, 0, [0],
    starts_of (by decide +kernel), by decide +kernel, by decide +kernel, by decide +kernel, by decide +kernel, by decide +kernel,
    planImage_parse, by decide +kernel⟩,
   ⟨fetched (cmd 0x0401 0 1000100000) (withPlan (loaded (plan0 false [] [] [] [])) (withModel slot0 up)), ref,
    (cmd 0x0401 0 1000100000), loaded (plan0 false [] [] [] []), starts_of (by decide +kernel), by decide +kernel⟩,
   ⟨fetched (cmd 0x0402 512) (withPlan (loaded (plan0 false [] [] [] [])) up), ref, (cmd 0x0402 512),
    loaded (plan0 false [] [] [] []), starts_of (by decide +kernel), by decide +kernel⟩⟩

theorem witness_MaintenanceCommandsComplete :
    (∃ (s : State), ∃ r c, Starts s r 0x0600 c ∧ s.maintFields c = true ∧ (c.fld 0 3 0 = 9 → c.fld 0 10 8 < s.part.variant.ports) ∧
      (c.fld 0 3 0 ≠ 9 → ∀ i ∈ c.maintScopes,
      if bit (c.arg 0) 12 then (s.stack i).mounted = false ∨ (s.stack i).readOnly = true else (s.stack i).mounted = true) ∧
      (c.fld 0 3 0 = 9 → (s.port (c.fld 0 10 8)).st ≠ portFailed) ∧ (∀ i ∈ c.maintScopes, s.jobActive (c.fld 0 3 0) i = false) ∧
      s.activeJobs + c.maintScopes.length ≤ 64) ∧
    (∃ (s : State), ∃ r c, Starts s r 0x0601 c ∧ c.argReserved 0xFFFF 0 0 0 0 = false) ∧
    (∃ (s : State), ∃ job power j, s.maint.jobs.find? (fun j => decide (j.id = job) && decide (j.st < 2)) = some j ∧ j.st = 0 ∧
      j.activity ≠ 6 ∧ (j.activity = 2 → s.models.stage = none) ∧ (j.activity = 4 → power + 16 * 24 ≤ 16 * s.pwr.capW) ∧
      (j.activity = 7 → s.maint.bistRound = [])) ∧
    (∃ (s : State), ∃ f, nextFollowUp s.err.waiting = some f) :=
  ⟨⟨fetched (cmd 0x0600 32) up, ref, (cmd 0x0600 32), starts_of (by decide +kernel), by decide +kernel⟩,
   ⟨fetched (cmd 0x0601 65535) up, ref, (cmd 0x0601 65535), starts_of (by decide +kernel), by decide +kernel⟩,
   ⟨{ up with maint := { up.maint with jobs := [{ id := 1, activity := 4, st := 0, progress := 0, scope := 2, seq := 0, start := 0, finish := 0, cmd := none, paused := false }] } },
    1, (16 * 276), { id := 1, activity := 4, st := 0, progress := 0, scope := 2, seq := 0, start := 0, finish := 0, cmd := none, paused := false },
    by decide +kernel⟩,
   ⟨{ up with err := { up.err with waiting := [{ cls := .ce, code := 0x0101, detail := [] }] } }, { cls := .ce, code := 0x0101, detail := [] },
    by decide +kernel⟩⟩

theorem witness_SelfTestsComplete :
    (∃ (s : State), ∃ r c, Starts s r 0x0A00 c ∧ c.fld 0 7 0 = 0 ∧ c.argReserved 0xFF all64 0 0 0 = false ∧ c.sub.payLen = 0 ∧
      let l := (List.range 64).filter (fun a => bit (c.arg 1) a)
      l ≠ [] ∧ s.sec.lifecycle ∈ [1, 4, 5] ∧ (∀ a ∈ l, ∀ p ∈ s.plans, p.2.active = false ∨ p.2.plan.uses a = false) ∧
      s.activeJobs < 64) ∧
    (∃ (s : State), ∃ r c, Starts s r 0x0A00 c ∧ c.fld 0 7 0 = 1 ∧ c.argReserved 0xFF 0xFF1F 0 0 0 = false ∧ c.sub.payLen = 0 ∧
      (bit (c.arg 1) 0 = false → portsIn (c.fld 1 15 8) = []) ∧ (∀ p ∈ portsIn (c.fld 1 15 8), p < s.part.variant.ports) ∧
      s.sec.lifecycle ∈ [1, 4, 5] ∧ (s.spar.st = 1 ∨ s.spar.st = 2 → ∀ p ∈ portsIn (c.fld 1 15 8), (s.port p).st ≠ portUp)) ∧
    (∃ (s : State), ∃ r c, Starts s r 0x0A00 c ∧ c.fld 0 7 0 = 2 ∧ c.argReserved 0xFF (2 ^ 34 - 1) 0 0 0 = false ∧ c.fld 1 19 16 ≤ 8 ∧
      c.fld 1 25 20 < physBlocks s.part.variant ∧ (if c.fld 1 19 16 = 8 then 86 else 82) ≤ c.sub.payLen) ∧
    (∃ (s : State), ∃ r c, Starts s r 0x0A00 c ∧ c.fld 0 7 0 = 3 ∧ c.argReserved 0xFF 3 0 0 0 = false ∧ c.sub.payLen = 0 ∧
      c.fld 1 1 0 ≠ 3 ∧ s.sec.lifecycle ∈ [1, 5] ∧ (∀ m ∈ s.models.slots, m.2.st = .empty) ∧ s.plans = []) ∧
    (∃ (s : State), ∃ x l, s.maint.bist = x :: l ∧ s.maint.bistRound ≠ [] ∧ x.left = []) ∧
    (∃ (s : State), ∃ (res : AnalogueResult), ∃ x l, s.maint.analog = x :: l ∧ (∀ p ∈ portsIn x.ports.toNat, s.jobActive 9 p = false) ∧
      res.failed &&& x.checks = 0) :=
  ⟨⟨fetched (cmd 0x0A00 0 (2 ^ 63)) diagnostic, ref, (cmd 0x0A00 0 (2 ^ 63)), starts_of (by decide +kernel),
    by and_intros <;> decide +kernel⟩,
   ⟨fetched (cmd 0x0A00 1 (1 + 128 * 256)) diagnostic, ref, (cmd 0x0A00 1 (1 + 128 * 256)), starts_of (by decide +kernel),
    by decide +kernel⟩,
   ⟨fetched (cmd 0x0A00 2 (8 * 2 ^ 16 + 35 * 2 ^ 20) 0 0 86) up, ref, (cmd 0x0A00 2 (8 * 2 ^ 16 + 35 * 2 ^ 20) 0 0 86),
    starts_of (by decide +kernel), by decide +kernel⟩,
   ⟨fetched (cmd 0x0A00 3 0) ({ up with sec := { up.sec with lifecycle := 5 } }), ref, (cmd 0x0A00 3 0),
    starts_of (by decide +kernel), by decide +kernel⟩,
   ⟨{ up with maint := { up.maint with bist := [{ cmd := 9, left := [], total := 1, cells := 0, logic := 0 }], bistRound := [5] } },
    { cmd := 9, left := [], total := 1, cells := 0, logic := 0 }, [], by decide +kernel⟩,
   ⟨{ up with maint := { up.maint with analog := [{ cmd := 9, checks := 31, ports := 1 }] } }, { failed := 0, ports := 0, subbanks := [] },
    { cmd := 9, checks := 31, ports := 1 }, [], by decide +kernel⟩⟩

theorem witness_FirmwareCommandsComplete :
    (∃ (s : State), ∃ r pay c b, Starts s r 0x0800 c ∧ s.payload c pay = some b ∧ stageBad c (some b) = false ∧
      s.stageBlocked c false = false ∧ s.activeJobs < 64 ∧
      (bit (c.arg 0) 32 = true ∨ s.sec.stageRun = false ∨ ∀ x ∈ s.sec.written, meets (c.fld 0 24 0) b.length x.1 x.2 = false)) ∧
    (∃ (s : State), ∃ r pay c b, Starts (redrawFlash s) r 0x0801 c ∧ (redrawFlash s).payload c pay = some b ∧
      stageBad c (some b) = false ∧ (redrawFlash s).stageBlocked c true = false ∧ s.activeJobs < 64 ∧
      let v := redrawFlash s
      let had := if bit (c.arg 0) 32 || !v.sec.isDelta then [] else v.sec.delta
      c.fld 0 24 0 = had.length ∧ bit (c.arg 0) 33 = false ∧ ((had ++ b).length < 8192 ∨ slice (had ++ b) 24 48 = v.activeDigest)) ∧
    (∃ (s : State), ∃ r c, Starts s r 0x0803 c ∧ c.argReserved all64 1 0 0 0 = false ∧ c.sub.payLen = 0 ∧
      bit (c.arg 1) 0 = (decide (s.spar.st = 1) && !s.sec.recovery) ∧ s.tbu.now + 10000000 ≤ c.arg 0 ∧ s.sec.stagingOk = true ∧
      s.wideMembers c = []) ∧
    (∃ (s : State), ∃ r pay c b, Starts s r 0x0900 c ∧ c.argReserved 0 all64 low32 0 0 = false ∧ s.payload c pay = some b ∧
      c.sub.payLen = 80 ∧ 5396 ≤ c.fld 2 31 0 ∧ slice b 0 48 ∈ s.sec.doe.hashes ++ s.sec.smbus.hashes ∧
      s.sec.lifecycle ∉ [lcBlank, lcManufacture, lcScrapped] ∧ s.sec.lmsGone = false) :=
  ⟨⟨fetched (cmd 0x0800 (2 ^ 32) 0 0 0 256) up, ref, (some (List.replicate 256 0)), (cmd 0x0800 (2 ^ 32) 0 0 0 256),
    (List.replicate 256 0), starts_of (by decide +kernel), by decide +kernel, by decide +kernel, by decide +kernel,
    by decide +kernel, .inl (by decide +kernel)⟩,
   ⟨fetched (cmd 0x0801 (2 ^ 32) 0 0 0 256) up, ref, (some (List.replicate 256 0)), (cmd 0x0801 (2 ^ 32) 0 0 0 256),
    (List.replicate 256 0), starts_of (by decide +kernel), by decide +kernel, by decide +kernel, by decide +kernel,
    by decide +kernel, by decide +kernel, by decide +kernel, .inl (by decide +kernel)⟩,
   ⟨fetched (cmd 0x0803 1010000000) ({ up with sec := { up.sec with stagingOk := true } }), ref, (cmd 0x0803 1010000000),
    starts_of (by decide +kernel), by decide +kernel⟩,
   ⟨fetched (cmd 0x0900 0 0 5396 0 80) ({ up with sec := { up.sec with doe := { up.sec.doe with hashes := [List.replicate 48 0] } } }),
    ref, (some (List.replicate 80 0)), (cmd 0x0900 0 0 5396 0 80), List.replicate 80 0, starts_of (by decide +kernel),
    by decide +kernel⟩⟩

theorem witness_GroupCommandsComplete :
    (∃ (s : State), ∃ r pay c b me, Starts s r 0x0700 c ∧ s.part.variant.ports ≠ 0 ∧ bit (c.arg 0) 0 = false ∧
      c.argReserved 0xFFFF 0 0 0 0 = false ∧ s.payload c pay = some b ∧ b.length = 16 * c.fld 0 15 9 ∧ c.sub.payLen = b.length ∧
      (∀ i, i < (formMembers b).length → leNat (slice b (16 * i + 9) 7) = 0) ∧
      topologyOk s.part.variant (bit (c.arg 0) 2) (c.fld 0 5 3 + 1) (c.fld 0 8 6 + 1) (formMembers b) = true ∧
      (formMembers b).find? (fun m => decide (m.2 = s.part.serial)) = some me ∧ (s.spar.roleWorker = true →
      bit (c.arg 0) 1 = true) ∧ s.spar.st ≠ 1 ∧ s.spar.st ≠ 2 ∧ s.ready.spar = true ∧ s.spar.forming = none ∧
      s.models.stage = none) ∧
    (∃ (s : State), ∃ r c, Starts s r 0x0700 c ∧ s.part.variant.ports ≠ 0 ∧ bit (c.arg 0) 0 = true ∧ c.argReserved 1 0 0 0 0 = false ∧
      c.sub.payLen = 0 ∧ (s.spar.st = 1 ∨ s.spar.st = 2) ∧ (∀ p ∈ s.plans, p.2.active = false ∨ p.2.plan.group = false)) ∧
    (∃ (s : State), ∃ r c, Starts s r 0x0702 c ∧ c.argReserved 0 0 0 0 0 = false) ∧
    (∃ (s : State), ∃ m k, s.spar.forming = some k ∧ m ∈ k.members.map (·.1)) ∧
    (∃ (s : State), ∃ m k, s.spar.forming = some k ∧ m ∈ k.members.map (·.1) ∧ m ∉ k.ready ∧ s.spar.st ≠ 1) ∧
    (∃ (s : State), s.part.variant.ports ≠ 0 ∧ s.ready.spar = true ∧ s.sparEntering = false ∧ s.pwr.state = .run ∧ s.pwr.waking = false) ∧
    (∃ (s : State), s.spar.st ≠ 1 ∧ s.spar.st ≠ 2 ∧ s.part.variant.ports ≠ 0) :=
  ⟨⟨fetched (cmd 0x0700 (2 * 512) 0 0 0 32) up, ref, (some (toLE 8 0 ++ toLE 8 0 ++ toLE 8 1 ++ toLE 8 1)),
    (cmd 0x0700 (2 * 512) 0 0 0 32), (toLE 8 0 ++ toLE 8 0 ++ toLE 8 1 ++ toLE 8 1), (0, 0), starts_of (by decide +kernel),
    by decide +kernel⟩,
   ⟨fetched (cmd 0x0700 1) (asManager up), ref, (cmd 0x0700 1), starts_of (by decide +kernel), by decide +kernel⟩,
   ⟨fetched (cmd 0x0702) up, ref, (cmd 0x0702), starts_of (by decide +kernel), by decide +kernel⟩,
   ⟨{ up with spar := { up.spar with forming := some { cmd := 1, torus := false, rows := 1, cols := 2, members := [(0, 0), (1, 1)], ready := [0], joined := [0] } } },
    1, { cmd := 1, torus := false, rows := 1, cols := 2, members := [(0, 0), (1, 1)], ready := [0], joined := [0] },
    by decide +kernel⟩,
   ⟨{ up with spar := { up.spar with forming := some { cmd := 1, torus := false, rows := 1, cols := 2, members := [(0, 0), (1, 1)], ready := [0], joined := [0] } } },
    1, { cmd := 1, torus := false, rows := 1, cols := 2, members := [(0, 0), (1, 1)], ready := [0], joined := [0] },
    by decide +kernel⟩,
   ⟨up, by decide +kernel⟩,
   ⟨up, by decide +kernel⟩⟩

theorem witness_ForwardingAndLossComplete :
    (∃ (s : State), ∃ src entry, s.spar.st = 2 ∧ src = s.spar.manager ∧
      let a := acceptForwarded src entry (wakeEvent false s)
      a.1.op = 0 ∧ a.2.roleRefuses a.1 = false ∧ a.1.headReserved = false ∧ a.1.argReserved 0 0 0 0 0 = false ∧
      a.1.sub.payLen = 0 ∧ a.2.pwr.entry = none) ∧
    (∃ (s : State), ∃ m r c, s.spar.st = 1 ∧ s.sentCmd r = some c ∧ c.fwdTo = some m) ∧
    (∃ (s : State), ∃ t, s.spar.st = 2 ∧ s.spar.lastTime + 1000000 ≤ (reachTime t s).tbu.now ∧ s.spar.suspended = none ∧
      (reachTime t s).activating = false) ∧
    (∃ (s : State), ∃ m t x, mget s.spar.members m = some x ∧ s.spar.st = 1 ∧ m ≠ s.spar.member ∧ x.st = 1 ∧
      x.lastStatus + 1000000 ≤ (reachTime t s).tbu.now ∧ s.spar.suspended = none ∧ (reachTime t s).activating = false) :=
  ⟨⟨asWorker up, 0, subBytes (entry 0 0 0 0 0 0), by and_intros <;> decide +kernel⟩,
   ⟨asManager (fetched { cmd 0x0001 with running := true, fwdTo := some 1 } up), 1, ref, { cmd 0x0001 with running := true, fwdTo := some 1 },
    by decide +kernel⟩,
   ⟨asWorker up, 0, by decide +kernel⟩,
   ⟨asManager up, 1, 0, { serial := 1, st := 1, epochs := [], lastStatus := 0 }, by decide +kernel⟩⟩

theorem witness_LinkFlitsComplete :
    (∃ (s : State), ∃ p f, FlitComes s p 1 f) ∧
    (∃ (s : State), ∃ p f, (s.port p).st = portUp ∧ p < s.part.variant.ports ∧ (s.port p).good f = false) ∧
    (∃ (s : State), ∃ p f, FlitComes s p 2 f) ∧
    (∃ (s : State), ∃ p f, FlitComes s p 3 f) ∧
    (∃ (s : State), ∃ p f, FlitComes s p 7 f ∧ f.dst.toNat = (tookFlit p f s).spar.member) :=
  ⟨⟨withPort 2 (asManager up), 0, flit 1, ⟨by decide +kernel, by decide +kernel, by decide +kernel, by decide +kernel⟩⟩,
   ⟨withPort 2 (asManager up), 0, { flit 1 with crcBad := true }, by decide +kernel⟩,
   ⟨withPort 2 (asManager up), 0, flit 2, ⟨by decide +kernel, by decide +kernel, by decide +kernel, by decide +kernel⟩⟩,
   ⟨withPort 2 (asManager up), 0, flit 3, ⟨by decide +kernel, by decide +kernel, by decide +kernel, by decide +kernel⟩⟩,
   ⟨withPort 2 (asManager up), 0, flit 7, ⟨by decide +kernel, by decide +kernel, by decide +kernel, by decide +kernel⟩,
    by decide +kernel⟩⟩

theorem witness_GroupFlitsAndPortsComplete :
    (∃ (s : State), ∃ p f, FlitComes s p 4 f ∧ f.dst.toNat = (tookFlit p f s).spar.member) ∧
    (∃ (s : State), ∃ p f, FlitComes s p 5 f ∧ (tookFlit p f s).spar.st = 2) ∧
    (∃ (s : State), s.spar.st = 1) ∧
    (∃ (s : State), ∃ p f m, FlitComes s p 6 f ∧ f.dst.toNat = (tookFlit p f s).spar.member ∧ (tookFlit p f s).spar.st = 1 ∧
      mget (tookFlit p f s).spar.members f.src.toNat = some m) ∧
    (∃ (s : State), s.spar.st = 2) ∧
    (∃ (s : State), ∃ p, (s.port p).st = portUp ∧ p < s.part.variant.ports) ∧
    (∃ (s : State), ∃ p, (s.port p).st = portTraining ∧ p < s.part.variant.ports) ∧
    (∃ (s : State), (s.spar.st = 1 ∨ s.spar.st = 2)) :=
  ⟨⟨withPort 2 (asManager up), 0, flit 4, ⟨by decide +kernel, by decide +kernel, by decide +kernel, by decide +kernel⟩,
    by decide +kernel⟩,
   ⟨withPort 2 (asWorker up), 0, flit 5, ⟨by decide +kernel, by decide +kernel, by decide +kernel, by decide +kernel⟩,
    by decide +kernel⟩,
   ⟨asManager up, by decide +kernel⟩,
   ⟨withPort 2 (asManager up), 0, flit 6, { serial := 1, st := 1, epochs := [], lastStatus := 0 }, ⟨by decide +kernel,
    by decide +kernel, by decide +kernel, by decide +kernel⟩, by decide +kernel⟩,
   ⟨asWorker up, by decide +kernel⟩,
   ⟨withPort 2 (asManager up), 0, by decide +kernel⟩,
   ⟨withPort 1 up, 0, by decide +kernel⟩,
   ⟨asManager up, by decide +kernel⟩⟩

theorem witness_CodecBlocksComplete :
    ∃ (s : State), ∃ src port, src ∈ s.groupList ∧ src ≠ s.spar.member ∧ (s.spar.st = 1 ∨ s.spar.st = 2) ∧
    port < s.part.variant.ports :=
  ⟨asManager up, 1, 0, by decide +kernel⟩

theorem witness_QueuePairCommandsComplete :
    (∃ (s : State), ∃ q, s.nextPair = some q) ∧
    (∃ (s : State), ∃ q bus b, (s.pair q).enable = true ∧ (s.pair q).retry = true ∧ q < 64 ∧ s.sqEntry q bus = some b) ∧
    (∃ (s : State), ∃ q, ∃ (v : Word), Awake s ∧ q < 64 ∧ v.toNat < (s.pair q).n ∧ v.toNat < 1024) ∧
    (∃ (s : State), ∃ q, ∃ (v : Word), Awake s ∧ q < 64 ∧ v.toNat < (s.pair q).n ∧ v.toNat < 1024) ∧
    (∃ (s : State), ∃ q, ∃ (v : Word), Awake s ∧ q < 64 ∧ bit v.toNat 0 = true ∧ bit v.toNat 7 = false ∧ 4 ≤ bits v.toNat 4 1 ∧
      bits v.toNat 4 1 ≤ 10 ∧ (s.pair q).enable = false) ∧
    (∃ (s : State), ∃ q, ∃ (v : Word), Awake s ∧ q < 64 ∧ bit v.toNat 0 = false ∧ bit v.toNat 7 = false) ∧
    (∃ (s : State), ∃ q, (s.pair q).irqEn = true ∧ 0 < (s.pair q).unsig) :=
  ⟨⟨{ up with mbx := { up.mbx with pairs := [(63, { pair0 with sqTail := 2, tagsRun := [] })] } }, 63, by decide +kernel⟩,
   ⟨{ up with mbx := { up.mbx with pairs := [(63, { pair0 with retry := true })] } }, 63, (some []), (slice [] 0 64),
    by decide +kernel⟩,
   ⟨{ up with mbx := { up.mbx with pairs := [(63, { pair0 with sizeLog2 := 10 })] } }, 63, 1023, awake_of (by decide +kernel),
    by decide +kernel⟩,
   ⟨{ up with mbx := { up.mbx with pairs := [(63, { pair0 with sizeLog2 := 10 })] } }, 63, 1023, awake_of (by decide +kernel),
    by decide +kernel⟩,
   ⟨up, 63, (1 + 2 * 10), awake_of (by decide +kernel), by decide +kernel⟩,
   ⟨up, 63, 0, awake_of (by decide +kernel), by decide +kernel⟩,
   ⟨{ up with mbx := { up.mbx with pairs := [(63, { pair0 with irqEn := true, unsig := 1 })] } }, 63, by decide +kernel⟩⟩

theorem witness_RegisterCommandsComplete :
    (∃ (s : State), ∃ o, ∃ (v : Dword), ∃ m, Awake s ∧ o % 4 = 0 ∧ reservedBits o = some m ∧ v.toNat < 2 ^ 32 ∧ o ≠ 0x14) ∧
    (∃ (s : State), ∃ (v : Word), Awake s ∧ Nat.land v.toNat 0x7FFFFF80 = 0 ∧ bit v.toNat 31 = true) ∧
    (∃ (s : State), ∃ t, Awake (reachTime t s)) ∧
    (∃ (s : State), ∃ (v : Word), Awake s ∧ v.toNat < 2 ^ 16 ∧ (v.toNat * 2 ^ 32 + s.host.bar2Lo.toNat) % 2 ^ s.host.bar2SizeLog2 = 0) ∧
    (∃ (s : State), ∃ n, 30 ≤ n ∧ n ≤ 39 ∧ n ≠ s.host.bar2SizeLog2) ∧
    (∃ (s : State), ∃ (v : Word), Awake s ∧ v.toNat < 256 ∧ (v.toNat + 256 - s.err.head) % 256 ≤ s.err.entries) ∧
    (∃ (s : State), ∃ o, Awake s ∧ o % 8 = 0) ∧
    (∃ (s : State), ∃ o n, Awake s ∧ ¬ (n = 4 ∧ o % 4 = 0) ∧ ¬ (n = 8 ∧ o % 8 = 0)) :=
  ⟨⟨up, 0x10010, 1, 0x80, awake_of (by decide +kernel), by decide +kernel⟩,
   ⟨up, 0x8000007F, awake_of (by decide +kernel), by decide +kernel⟩,
   ⟨up, 0, awake_of (by decide +kernel)⟩,
   ⟨up, 0xFFFF, awake_of (by decide +kernel), by decide +kernel⟩,
   ⟨up, 39, by decide +kernel⟩,
   ⟨{ up with err := { up.err with entries := 256 } }, 255, awake_of (by decide +kernel), by decide +kernel⟩,
   ⟨up, 0x18, awake_of (by decide +kernel), by decide +kernel⟩,
   ⟨up, 0x18, 2, awake_of (by decide +kernel), by decide +kernel⟩⟩

theorem witness_HostAccessesComplete :
    (∃ (s : State), ∃ off, ∃ (data : Bytes), Awake s ∧ off + data.length ≤ 2 ^ s.host.bar2SizeLog2) ∧
    (∃ (s : State), ∃ off n, Awake s ∧ off + n ≤ 2 ^ s.host.bar2SizeLog2) ∧
    (∃ (s : State), Awake s) ∧
    (∃ v, v < 2048) ∧
    (∃ (s : State), ∃ e, ∃ (v : Word), Awake s ∧ e < 4 ∧ bit v.toNat 0 = true ∧ v.toNat < 2 ^ 16 ∧ 4 ≤ bits v.toNat 4 1 ∧
      bits v.toNat 4 1 ≤ 12 ∧ (s.dma e).enable = false) ∧
    (∃ (s : State), ∃ e, ∃ (v : Word), Awake s ∧ e < 4 ∧ bit v.toNat 0 = false ∧ v.toNat < 2 ^ 16) ∧
    (∃ (s : State), ∃ e, ∃ (v : Word), Awake s ∧ e < 4 ∧ v.toNat < (s.dma e).n ∧ v.toNat < 4096) ∧
    (∃ (s : State), ∃ e b, ∃ (x : Bytes), s.pwr.state = .run ∧ e < 4 ∧ s.dmaBusy e = true ∧ b.length = 32 ∧ dmaBad b = false ∧
      bit (u b 20 1) 0 = false ∧ x ≠ []) ∧
    (∃ (s : State), ∃ e, s.pwr.state = .run ∧ e < 4 ∧ s.dmaBusy e = true) :=
  ⟨⟨up, (2 ^ 30 - 1), [0xFF], awake_of (by decide +kernel), by decide +kernel⟩,
   ⟨up, (2 ^ 30 - 1), 1, awake_of (by decide +kernel), by decide +kernel⟩,
   ⟨up, awake_of (by decide +kernel)⟩,
   ⟨2047, by decide +kernel⟩,
   ⟨up, 3, (1 + 2 * 12), awake_of (by decide +kernel), by decide +kernel⟩,
   ⟨up, 3, 0, awake_of (by decide +kernel), by decide +kernel⟩,
   ⟨{ up with host := { up.host with dma := [(3, { DmaEngine.reset with enable := true, sizeLog2 := 12, tail := 1 })] } }, 3,
    4095, awake_of (by decide +kernel), by decide +kernel⟩,
   ⟨{ up with host := { up.host with dma := [(3, { DmaEngine.reset with enable := true, sizeLog2 := 12, tail := 1 })] } }, 3,
    List.replicate 16 0 ++ toLE 4 64 ++ List.replicate 12 0, [1, 2, 3, 4], by decide +kernel⟩,
   ⟨{ up with host := { up.host with dma := [(3, { DmaEngine.reset with enable := true, sizeLog2 := 12, tail := 1 })] } }, 3,
    by decide +kernel⟩⟩

theorem witness_ResetsComplete :
    (∃ (s : State), s.pwr.thermtrip = false ∧ s.pwr.state ≠ .off) ∧
    (∃ (s : State), s.sec.started = true ∧ s.ready.mbx = false ∧ s.pwr.thermtrip = false ∧ s.pwr.state = .run ∧ s.flashQuiet = true) ∧
    (∃ (s : State), s.sec.recoveryReq = true ∧ s.flashQuiet = true) ∧
    (∃ (s : State), ∃ t ta,
      let u := reachTime t s
      u.sec.actTime = some ta ∧ ta ≤ u.tbu.now ∧ u.sec.actDeferred = false ∧ u.models.stage = none ∧
      (if u.sec.recovery then u.flashQuiet else u.quiesced) = true) ∧
    (∃ (s : State), ∃ t ta,
      let u := reachTime t s
      u.spar.suspended = some ta ∧ ta + 3 * secondNs ≤ u.tbu.now) :=
  ⟨⟨up, by decide +kernel⟩,
   ⟨{ up with ready := Ready.reset, sec := { up.sec with started := true } }, by decide +kernel⟩,
   ⟨{ up with sec := { up.sec with recoveryReq := true } }, by decide +kernel⟩,
   ⟨{ up with sec := { up.sec with actTime := some 1000000000 } }, 0, 1000000000, by decide +kernel, by decide +kernel⟩,
   ⟨{ asManager up with spar := { (asManager up).spar with suspended := some 0 } }, 3000000000, 0, by decide +kernel,
    by decide +kernel⟩⟩

theorem witness_SidebandCommandsComplete :
    (∃ (s : State), s.smbusUp = true) ∧
    (∃ (s : State), s.smbusUp = true ∧ s.sec.recovery = false) ∧
    (∃ (s : State), s.smbusUp = true) ∧
    (∃ (s : State), s.pwr.state = .deepSleep) ∧
    (∃ (s : State), s.pwr.entry = none ∧ (s.pwr.state = .deepSleep ∨ s.pwr.state = .idle ∨ s.pwr.state = .sleep)) ∧
    (∃ (s : State), ∃ ir, jtagAllowed s.sec.bootLifecycle ir = true) :=
  ⟨⟨up, by decide +kernel⟩,
   ⟨up, by decide +kernel⟩,
   ⟨up, by decide +kernel⟩,
   ⟨{ up with pwr := { up.pwr with state := .deepSleep } }, by decide +kernel⟩,
   ⟨{ up with pwr := { up.pwr with state := .deepSleep } }, by decide +kernel, .inl (by decide +kernel)⟩,
   ⟨{ up with sec := { up.sec with bootLifecycle := 0 } }, 1, by decide +kernel⟩⟩

theorem witness_SpdmCommandsComplete :
    ∃ (s : State), ∃ tr, s.spdmUp tr = true :=
  ⟨up, .doe, by decide +kernel⟩

theorem witness_TimebaseEventsComplete :
    (∃ (s : State), ∃ rising, s.spar.st ≠ 2 ∧ rising ≠ s.tbu.ppsPol) ∧
    (∃ (s : State), ∃ t e, s.tbu.lastAccepted = some e ∧ s.tbu.locked = true ∧ s.tbu.source = 1 ∧
      e + 1500000000 ≤ (reachTime t s).tbu.now) ∧
    (∃ (s : State), s.tbu.refEn = true) ∧
    (∃ (s : State), ∃ t id x m, s.tbu.ppsSet = [(id, x, m)] ∧
      let v := reachTime t s
      m + 2 * secondNs ≤ v.tbu.now) :=
  ⟨⟨up, true, by decide +kernel⟩,
   ⟨{ up with tbu := { up.tbu with lastAccepted := some 0, locked := true, source := 1 } }, 1500000000, 0, by decide +kernel⟩,
   ⟨{ up with tbu := { up.tbu with refEn := true } }, by decide +kernel⟩,
   ⟨{ up with tbu := { up.tbu with ppsSet := [(1, 0, 0)] } }, 2000000000, 1, 0, 0, by decide +kernel, by decide +kernel⟩⟩

theorem witness_PowerEventsComplete :
    (∃ (s : State), ∃ e, s.pwr.entry = some e) ∧
    (∃ (s : State), ∃ e, s.pwr.entry = some e) ∧
    (∃ (s : State), ∃ d, s.pwr.waking = true ∧ d = s.pwr.wakeStep + 1 ∧ d ≤ 4) ∧
    (∃ (s : State), s.pwr.waking = true ∧ s.pwr.wakeStep = 4) ∧
    (∃ (s : State), s.pwr.held = []) ∧
    (∃ (s : State), ∃ w, s.pwr.ramp = some w) ∧
    (∃ tj, 1600 ≤ tj) ∧
    (∃ (s : State), s.pwr.thermtrip = false) ∧
    (∃ (s : State), s.pwr.state = .run) :=
  ⟨⟨{ up with pwr := { up.pwr with entry := some { cmd := 1, target := .sleep, block := 1, delayNs := 0, final := false } } },
    { cmd := 1, target := .sleep, block := 1, delayNs := 0, final := false }, by decide +kernel⟩,
   ⟨{ up with pwr := { up.pwr with entry := some { cmd := 1, target := .sleep, block := 1, delayNs := 0, final := false } } },
    { cmd := 1, target := .sleep, block := 1, delayNs := 0, final := false }, by decide +kernel⟩,
   ⟨{ up with pwr := { up.pwr with waking := true, wakeStep := 3 } }, 4, by decide +kernel⟩,
   ⟨{ up with pwr := { up.pwr with waking := true, wakeStep := 4 } }, by decide +kernel⟩,
   ⟨up, by decide +kernel⟩,
   ⟨{ up with pwr := { up.pwr with ramp := some 3 } }, 3, by decide +kernel⟩,
   ⟨1600, by decide +kernel⟩,
   ⟨up, by decide +kernel⟩,
   ⟨up, by decide +kernel⟩⟩

def atOrderingWordsComplete3 : State :=
  { standing (plan0 false [] [] [] []) [word 1 (2 ^ 96)] with arrs := [(0, { Arr.reset with cur := some (0, 0), queue := [(0, word 1 (2 ^ 96))], ewaiting := true })] }

def atOrderingWordsComplete5 : State :=
  standing (plan0 false [] [] [] []) [word 2 (2 ^ 115 + 2 ^ 116 + 2 ^ 96)]

def atOrderingWordsComplete9 : State :=
  standing (plan0 false [word 0x13 (4 + 8 * 65535)] [] [] []) []

theorem witness_OrderingWordsComplete :
    (∃ (s : State), ∃ e x, AtWord s e 0x00 x) ∧
    (∃ (s : State), ∃ e x, AtWord s e 0x01 x) ∧
    (∃ (s : State), ∃ e x, AtWord s e 0x01 x ∧ s.waitingAt e = true ∧ wf x.w 31 0 ≤ s.ctrVal x.h (wCtr x.w)) ∧
    (∃ (s : State), ∃ e x, AtWord s e 0x02 x ∧ wRst x.w = false ∧ (wX x.w = true ∨ s.earlierDone e = true)) ∧
    (∃ (s : State), ∃ e x, AtWord s e 0x02 x ∧ wRst x.w = true ∧ (wX x.w = true ∨ s.earlierDone e = true)) ∧
    (∃ (s : State), ∃ e x, AtWord s e 0x03 x) ∧
    (∃ (s : State), ∃ a x, AtWord s (.exec a) 0x04 x ∧ s.earlierDone (.exec a) = true ∧ (s.arr a).runs = [] ∧
      x.p.plan.fetchEnd a x.sc ≤ (s.arr a).fpc) ∧
    (∃ (s : State), ∃ a x, AtWord s (.fetch a) 0x05 x ∧ (s.arr a).queue = [] ∧ (s.arr a).prog = [] ∧ (s.arr a).rel = []) ∧
    (∃ (s : State), ∃ a x, AtWord s (.fetch a) 0x13 x) ∧
    (∃ (s : State), ∃ a h sc p, s.holder a = some (h, sc, p) ∧ p.plan.el3 = false ∧ (s.arr a).copied = false ∧
      (s.arr a).queue.length < 64) ∧
    (∃ (s : State), ∃ a h sc p x, s.holder a = some (h, sc, p) ∧ p.plan.el3 = true ∧ (s.arr a).queue.length < 64 ∧
      s.at (.fetch a) = some x ∧ x.ok s = true ∧ executeOnly (wOp x.w) = true) :=
  ⟨⟨standing (plan0 false [word 0] [] [] []) [], .fetch 0, atOf (standing (plan0 false [word 0] [] [] []) []) (.fetch 0),
    atWord (by decide +kernel)⟩,
   ⟨standing (plan0 false [] [] [] []) [word 1 (2 ^ 96 + 5)], .exec 0,
    atOf (standing (plan0 false [] [] [] []) [word 1 (2 ^ 96 + 5)]) (.exec 0), atWord (by decide +kernel)⟩,
   ⟨atOrderingWordsComplete3, .exec 0, atOf atOrderingWordsComplete3 (.exec 0), atWord (by decide +kernel), by decide +kernel⟩,
   ⟨standing (plan0 false [] [] [] []) [word 2 (2 ^ 96 + 65535)], .exec 0,
    atOf (standing (plan0 false [] [] [] []) [word 2 (2 ^ 96 + 65535)]) (.exec 0), atWord (by decide +kernel), by decide +kernel,
    .inr (by decide +kernel)⟩,
   ⟨atOrderingWordsComplete5, .exec 0, atOf atOrderingWordsComplete5 (.exec 0), atWord (by decide +kernel), by decide +kernel,
    .inl (by decide +kernel)⟩,
   ⟨standing (plan0 false [word 3] [] [] []) [], .fetch 0, atOf (standing (plan0 false [word 3] [] [] []) []) (.fetch 0),
    atWord (by decide +kernel)⟩,
   ⟨standing (plan0 false [] [word 4] [] []) [word 4], 0, atOf (standing (plan0 false [] [word 4] [] []) [word 4]) (.exec 0),
    atWord (by decide +kernel), by decide +kernel⟩,
   ⟨standing (plan0 true [word 5] [] [] []) [], 0, atOf (standing (plan0 true [word 5] [] [] []) []) (.fetch 0),
    atWord (by decide +kernel), by decide +kernel⟩,
   ⟨atOrderingWordsComplete9, 0, atOf atOrderingWordsComplete9 (.fetch 0), atWord (by decide +kernel)⟩,
   ⟨standing (plan0 false [word 3] [word 4] [] []) [], 0, 0, 0, planOf (standing (plan0 false [word 3] [word 4] [] []) []),
    by decide +kernel⟩,
   ⟨standing (plan0 true [word 4] [] [] []) [], 0, 0, 0, planOf (standing (plan0 true [word 4] [] [] []) []),
    atOf (standing (plan0 true [word 4] [] [] []) []) (.fetch 0), by decide +kernel, by decide +kernel, by decide +kernel,
    at_some (by decide +kernel), by decide +kernel⟩⟩

def atStepMomentsComplete2 : State :=
  { standing (plan0 false [word 3 (16 * 999999)] [] [] []) [] with arrs := [(0, { Arr.reset with cur := some (0, 0), fwaiting := true })] }

def atStepMomentsComplete3 : State :=
  { standing (plan0 false [word 3] [word 4] [] []) [] with arrs := [] }

theorem witness_StepMomentsComplete :
    (∃ (s : State), ∃ h sc t p c,
      let u := reachTime t s
      let nom := p.nominal c (mgetD p.nextK sc 0)
      u.plan h = some p ∧ p.plan.scheds[sc]? = some c ∧ p.st = .running ∧ mhas p.steps sc = false ∧ nom ≤ u.tbu.now ∧
      u.holdForSwitch p.plan nom = false ∧ u.activating = false ∧ u.pwr.state = .run) ∧
    (∃ (s : State), ∃ e t x k,
      let u := reachTime t s
      (∀ a, e = .fetch a → (u.arr a).cur ≠ none) ∧ AtWord u e 0x03 x ∧ u.stepOf x.h x.sc = some k ∧ u.waitingAt e = true ∧
      k.nominal + wf x.w 35 4 ≤ u.tbu.now) ∧
    (∃ (s : State), ∃ a t n h sc ep p x,
      let u := reachTime t s
      (u.arr a).cur = none ∧ firstStep (u.startable? a) = some (n, h, sc, ep) ∧ u.plan h = some p ∧ u.stepOf h sc = some x) ∧
    (∃ (s : State), ∃ h sc t p c x,
      let u := reachTime t s
      u.plan h = some p ∧ p.plan.scheds[sc]? = some c ∧ mget p.steps sc = some x ∧ p.stepDone x = true) ∧
    (∃ (s : State), ∃ h sc t p c x,
      let u := reachTime t s
      u.plan h = some p ∧ p.plan.scheds[sc]? = some c ∧ mget p.steps sc = some x ∧ x.stallRec = false ∧
      x.nominal + 4 * c.period ≤ u.tbu.now) :=
  ⟨⟨withPlan ({ loaded (plan0 false [word 3] [word 4] [] []) with st := .running, anchor := 1000000000 }) up, 0, 0, 0,
    { loaded (plan0 false [word 3] [word 4] [] []) with st := .running, anchor := 1000000000 },
    (plan0 false [] [] [] []).scheds.headD (parseSched []), by decide +kernel, by decide +kernel⟩,
   ⟨atStepMomentsComplete2, .fetch 0, 1000999999, atOf (reachTime 1000999999 atStepMomentsComplete2) (.fetch 0), step0,
    fun a h => by cases h; decide +kernel, atWord (by decide +kernel), by decide +kernel⟩,
   ⟨atStepMomentsComplete3, 0, 0, 1000000000, 0, 0, 0, planOf atStepMomentsComplete3, step0, by decide +kernel, by decide +kernel⟩,
   ⟨withPlan { loaded (plan0 false [] [] [] []) with st := .running, steps := [(0, { step0 with ended := [0], collDone := true, strmDone := true })] } up,
    0, 0, 0, { loaded (plan0 false [] [] [] []) with st := .running, steps := [(0, { step0 with ended := [0], collDone := true, strmDone := true })] },
    (plan0 false [] [] [] []).scheds.headD (parseSched []), { step0 with ended := [0], collDone := true, strmDone := true },
    by decide +kernel, by decide +kernel⟩,
   ⟨withPlan { loaded (plan0 false [] [] [] []) with st := .running, steps := [(0, step0)] } up, 0, 0, 1004000000,
    { loaded (plan0 false [] [] [] []) with st := .running, steps := [(0, step0)] },
    (plan0 false [] [] [] []).scheds.headD (parseSched []), step0, by decide +kernel, by decide +kernel⟩⟩

def atFetchWordsComplete1 : State :=
  standing (plan0 false [word 0x10 (2 ^ 112 + 2 ^ 96 + 2 ^ 21 + 1024 * 2 ^ 39)] [] [] []) []

def atFetchWordsComplete2 : State :=
  standing (plan0 false [word 0x10 (2 ^ 112 + 2 ^ 96 + 2 ^ 21 + 2 ^ 37 + 2052 * 2 ^ 39)] [] [] []) []

def atFetchWordsComplete3 : State :=
  { standing (plan0 false [word 0x11 (2 ^ 112 + 2 ^ 96 + 2 ^ 21 + 1024 * 2 ^ 39 + 1030 * 2 ^ 60)] [] [] []) [] with ram := memWrite ramFill (memWrite ramFill [] (storeDva 0 0) (wordBytes [word 0x11 (2 ^ 112 + 2 ^ 96 + 2 ^ 21 + 1024 * 2 ^ 39 + 1030 * 2 ^ 60)])) (storeDva 0 65920) [1] }

def atFetchWordsComplete4 : State :=
  withObject (object0 3) (withStream { stream0 with kv := [(0, objBase)] } (standing { plan0 false [word 0x12 (2 ^ 112 + 2 ^ 96 + 2052 * 2 ^ 51)] [] [] [] with symbols := [{ kind := 3, ident := 0 }] } []))

def atFetchWordsComplete5 : State :=
  { standing { plan0 false [word 0x12 (2 ^ 112 + 2 ^ 96 + 2052 * 2 ^ 51)] [] [] [] with symbols := [{ kind := 3, ident := 0 }] } [] with plans := [(0, { (loaded ({ plan0 false [word 0x12 (2 ^ 112 + 2 ^ 96 + 2052 * 2 ^ 51)] [] [] [] with symbols := [{ kind := 3, ident := 0 }] })) with st := .running, steps := [(0, { step0 with rows := [] })] })] }

theorem witness_FetchWordsComplete :
    (∃ (s : State), ∃ a x, AtWord s (.fetch a) 0x10 x ∧ wf x.w 38 37 ≠ 1) ∧
    (∃ (s : State), ∃ a x, AtWord s (.fetch a) 0x10 x ∧ wf x.w 38 37 = 1) ∧
    (∃ (s : State), ∃ a x, AtWord s (.fetch a) 0x11 x) ∧
    (∃ (s : State), ∃ a x i st tmpl o, AtWord s (.fetch a) 0x12 x ∧ s.rowStream x.h x.sc (wf x.w 7 0) = some i ∧
      mget s.models.streams i = some st ∧ x.p.plan.blocks[wf x.w 50 30]? = some tmpl ∧
      (mget st.kv (wf x.w 27 8)).bind s.obj = some o ∧ wf x.w 79 72 < o.kvH) ∧
    (∃ (s : State), ∃ a x, AtWord s (.fetch a) 0x12 x ∧ s.rowStream x.h x.sc (wf x.w 7 0) = none) ∧
    (∃ (s : State), ∃ a x, s.at (.fetch a) = some x) :=
  ⟨⟨atFetchWordsComplete1, 0, atOf atFetchWordsComplete1 (.fetch 0), atWord (by decide +kernel), by decide +kernel⟩,
   ⟨atFetchWordsComplete2, 0, atOf atFetchWordsComplete2 (.fetch 0), atWord (by decide +kernel), by decide +kernel⟩,
   ⟨atFetchWordsComplete3, 0, atOf atFetchWordsComplete3 (.fetch 0), atWord (by decide +kernel)⟩,
   ⟨atFetchWordsComplete4, 0, atOf atFetchWordsComplete4 (.fetch 0), 0, { stream0 with kv := [(0, objBase)] },
    (plan0 false [] [] [] []).blocks.headD (parseBlk []), object0 3, atWord (by decide +kernel), by decide +kernel⟩,
   ⟨atFetchWordsComplete5, 0, atOf atFetchWordsComplete5 (.fetch 0), atWord (by decide +kernel), by decide +kernel⟩,
   ⟨standing (plan0 false [word 0x10] [] [] []) [], 0, atOf (standing (plan0 false [word 0x10] [] [] []) []) (.fetch 0),
    at_some (by decide +kernel)⟩⟩

def atFetchMomentsComplete1 : State :=
  { standing (plan0 false [word 0x10] [] [] []) [] with arrs := [(0, { Arr.reset with cur := some (0, 0), runs := [(frun (fentry .queued 0 0))], budget := [(0, 64)], tokens := [(0, 6400000)], filled := [(0, 1000000000)] })] }

def atFetchMomentsComplete2 : State :=
  { standing (plan0 false [word 0x10] [] [] []) [] with arrs := [(0, { Arr.reset with cur := some (0, 0), runs := [(frun (fentry .issued 0 0))], budget := [(0, 64)], tokens := [(0, 6400000)], filled := [(0, 1000000000)] })] }

def atFetchMomentsComplete3 : State :=
  { standing (plan0 false [word 0x10] [] [] []) [] with arrs := [(0, { Arr.reset with cur := some (0, 0), runs := [(frun (fentry .issued 0 0))], budget := [(0, 64)], tokens := [(0, 6400000)], filled := [(0, 1000000000)] })] }

def atFetchMomentsComplete4 : State :=
  { standing (plan0 false [word 0x10] [] [] []) [] with arrs := [(0, { Arr.reset with cur := some (0, 0), runs := [(frun (fentry .queued 1 500000))], budget := [(0, 64)], tokens := [(0, 6400000)], filled := [(0, 1000000000)] })] }

theorem witness_FetchMomentsComplete :
    (∃ (s : State), ∃ (a : Nat), ∃ (run : Nat), ∃ (entry : Nat), ∃ h sc p, ∃ (r : FRun), ∃ (e : FEntry), ∃ off n, s.holder a = some (h,
      sc, p) ∧ s.run a run = some r ∧ r.entries[entry]? = some e ∧ r.request e = some (off, n) ∧ e.st = .queued ∧
      (∀ y ∈ r.entries.take entry, y.st ≠ .queued)) ∧
    (∃ (s : State), ∃ (a : Nat), ∃ (run : Nat), ∃ (entry : Nat), ∃ t h sc p, ∃ (r : FRun), ∃ (e : FEntry),
      let v := reachTime t s
      v.holder a = some (h, sc, p) ∧ v.run a run = some r ∧ r.entries[entry]? = some e ∧ e.st = .issued ∧
      (v.tbu.now ≤ v.deadlineOf h sc e ∨ e.blk.tier = 0) ∧ e.blk.coded = false ∧ e.tainted = false) ∧
    (∃ (s : State), ∃ (a : Nat), ∃ (run : Nat), ∃ (entry : Nat), ∃ h sc p, ∃ (r : FRun), ∃ (e : FEntry), s.holder a = some (h, sc, p) ∧
      s.run a run = some r ∧ r.entries[entry]? = some e ∧ ((e.st = .queued ∧ 0 < e.sent) ∨ e.st = .issued)) ∧
    (∃ (s : State), ∃ (a : Nat), ∃ (run : Nat), ∃ (entry : Nat), ∃ t h sc p, ∃ (r : FRun), ∃ (e : FEntry),
      let v := reachTime t s
      v.holder a = some (h, sc, p) ∧ v.run a run = some r ∧ r.entries[entry]? = some e ∧ (e.st = .queued ∨ e.st = .issued) ∧
      e.blk.tier ≠ 0 ∧ p.plan.waits e = false ∧ v.deadlineOf h sc e ≤ v.tbu.now) ∧
    (∃ (s : State), ∃ a run entry x, (s.arr a).late.find? (fun x => decide (x.2.1 = run) && decide (x.2.2 = entry)) = some x) ∧
    (∃ (s : State), ∃ a l rest, (s.arr a).port = l :: rest) :=
  ⟨⟨atFetchMomentsComplete1, 0, 0, 0, 0, 0, planOf atFetchMomentsComplete1, (frun (fentry .queued 0 0)), (fentry .queued 0 0), 0,
    64, by decide +kernel⟩,
   ⟨atFetchMomentsComplete2, 0, 0, 0, 0, 0, 0, planOf atFetchMomentsComplete2, (frun (fentry .issued 0 0)), (fentry .issued 0 0),
    by decide +kernel, by decide +kernel, by decide +kernel, by decide +kernel, .inr (by decide +kernel), by decide +kernel⟩,
   ⟨atFetchMomentsComplete3, 0, 0, 0, 0, 0, planOf atFetchMomentsComplete3, (frun (fentry .issued 0 0)), (fentry .issued 0 0),
    by decide +kernel, by decide +kernel, by decide +kernel, .inr (by decide +kernel)⟩,
   ⟨atFetchMomentsComplete4, 0, 0, 0, 1000500000, 0, 0, planOf atFetchMomentsComplete4, (frun (fentry .queued 1 500000)),
    (fentry .queued 1 500000), by decide +kernel, by decide +kernel, by decide +kernel, .inl (by decide +kernel),
    by decide +kernel⟩,
   ⟨{ up with arrs := [(0, { Arr.reset with late := [(0, 0, 0)] })] }, 0, 0, 0, (0, 0, 0), by decide +kernel⟩,
   ⟨{ up with arrs := [(0, { Arr.reset with port := [{ desc := 65664, index := 0, run := 0, rep := 1, data := [], absent := false, key := false }], prog := [(InProg.plain ⟨0, 0, 0, word 0x20 (2052 + 2 ^ 74), .e, 0, loaded (plan0 false [] [] [] [])⟩)] })] },
    0, { desc := 65664, index := 0, run := 0, rep := 1, data := [], absent := false, key := false }, [], by decide +kernel⟩⟩

def atResultWordsComplete1 : State :=
  standing (plan0 false [] [] [] []) [word 0x23 (2052 + 1024 * 2 ^ 17 + 2 ^ 116 + 1024 * 2 ^ 42)]

def atResultWordsComplete3 : State :=
  { standing (plan0 false [] [] [] []) [] with norm := [(0, [{ array := 0, row := 0, sx := 0, sq := 0 }])] }

def atResultWordsComplete4 : State :=
  standing (plan0 false [] [] [] []) [word 0x25 (1024 * 2 ^ 48 + 1024 * 2 ^ 64)]

def atResultWordsComplete5 : State :=
  { standing (plan0 false [] [] [] []) [] with arrs := [(0, { Arr.reset with cur := some (0, 0), rel := [{ index := 0, word := word 0x25, writes := [(65536, [1])], flags := 0, pend := none, last := true, time := 0 }] })] }

theorem witness_ResultWordsComplete :
    (∃ (s : State), ∃ a x, AtWord s (.exec a) 0x23 x) ∧
    (∃ (s : State), ∃ a x, AtWord s (.exec a) 0x24 x ∧ (tableNeed (wPostOp x.w) 1 ≠ 0 → ∀ t,
      s.tableAt x.p.plan (u (s.storeRd a (wf x.w 47 32 * 64) 4) 0 4) = some t → tableBad (wPostOp x.w) (wPostN x.w) t = false)) ∧
    (∃ (s : State), ∃ h slot p q l c, s.plan h = some p ∧ mgetD s.norm (h * 4096 + slot) [] = q :: l ∧ slot < 4096 ∧
      (s.arr q.array).cur = some c ∧ (∀ a ∈ s.contributors p.plan c.2 h (h * 4096 + slot), ∃ y ∈ q :: l, y.array = a)) ∧
    (∃ (s : State), ∃ a x q, AtWord s (.exec a) 0x25 x ∧ s.quantPoint x = some q) ∧
    (∃ (s : State), ∃ a e rest h sc p, (s.arr a).rel = e :: rest ∧ s.holder a = some (h, sc, p)) :=
  ⟨⟨atResultWordsComplete1, 0, atOf atResultWordsComplete1 (.exec 0), atWord (by decide +kernel)⟩,
   ⟨standing (plan0 false [] [] [] []) [word 0x24 (2 ^ 16)], 0,
    atOf (standing (plan0 false [] [] [] []) [word 0x24 (2 ^ 16)]) (.exec 0), atWord (by decide +kernel),
    fun h => absurd h (by decide +kernel)⟩,
   ⟨atResultWordsComplete3, 0, 0, planOf atResultWordsComplete3, { array := 0, row := 0, sx := 0, sq := 0 }, [], (0, 0),
    by decide +kernel⟩,
   ⟨atResultWordsComplete4, 0, atOf atResultWordsComplete4 (.exec 0), (plan0 false [] [] [] []).qpoints.headD (parseQp []),
    atWord (by decide +kernel), by decide +kernel⟩,
   ⟨atResultWordsComplete5, 0, { index := 0, word := word 0x25, writes := [(65536, [1])], flags := 0, pend := none, last := true, time := 0 },
    [], 0, 0, planOf atResultWordsComplete5, by decide +kernel⟩⟩

def atDataWordsComplete1 : State :=
  standing (plan0 false [] [] [] []) [word 0x26 (1024 + 16 * 2 ^ 16 + 1024 * 2 ^ 54)]

def atDataWordsComplete2 : State :=
  standing (plan0 false [] [] [] []) [word 0x27 (1024 + 16 * 2 ^ 16 + 1024 * 2 ^ 44)]

def atDataWordsComplete4 : State :=
  standing { plan0 false [] [] [word 0x30 (4 + 64 * 2 ^ 68)] [] with group := true } []

def atDataWordsComplete5 : State :=
  standing (plan0 false [] [] [] [word 0x31 (1024 * 2 ^ 25 + 2 ^ 41)]) []

theorem witness_DataWordsComplete :
    (∃ (s : State), ∃ a x, AtWord s (.exec a) 0x26 x) ∧
    (∃ (s : State), ∃ a x, AtWord s (.exec a) 0x27 x) ∧
    (∃ (s : State), ∃ h sc x, AtWord s (.coll h sc) 0x30 x ∧ wf x.w 2 2 = 0) ∧
    (∃ (s : State), ∃ h sc x k, AtWord s (.coll h sc) 0x30 x ∧ wf x.w 2 2 = 1 ∧ s.stepOf h sc = some k) ∧
    (∃ (s : State), ∃ h sc x, AtWord s (.strm h sc) 0x31 x) :=
  ⟨⟨atDataWordsComplete1, 0, atOf atDataWordsComplete1 (.exec 0), atWord (by decide +kernel)⟩,
   ⟨atDataWordsComplete2, 0, atOf atDataWordsComplete2 (.exec 0), atWord (by decide +kernel)⟩,
   ⟨standing (plan0 false [] [] [word 0x30 (64 * 2 ^ 68)] []) [], 0, 0,
    atOf (standing (plan0 false [] [] [word 0x30 (64 * 2 ^ 68)] []) []) (.coll 0 0), atWord (by decide +kernel),
    by decide +kernel⟩,
   ⟨atDataWordsComplete4, 0, 0, atOf atDataWordsComplete4 (.coll 0 0), step0, atWord (by decide +kernel), by decide +kernel⟩,
   ⟨atDataWordsComplete5, 0, 0, atOf atDataWordsComplete5 (.strm 0 0), atWord (by decide +kernel)⟩⟩

def atWordCompletionCompletes1 : State :=
  { standing (plan0 false [] [] [] []) [] with arrs := [(0, { Arr.reset with cur := some (0, 0), prog := [(InProg.plain ⟨0, 0, 7, word 0x26, .e, 0, loaded (plan0 false [] [] [] [])⟩)] })] }

def atWordCompletionCompletes2 : State :=
  { standing (plan0 false [] [] [] []) [] with plans := [(0, { loaded (plan0 false [] [] [] []) with st := .running, coll := [(0, { pc := 1, waiting := false, prog := [(InProg.plain ⟨0, 0, 7, word 0x30 (64 * 2 ^ 68), .e, 0, loaded (plan0 false [] [] [] [])⟩)] })] })] }

def atWordCompletionCompletes3 : State :=
  { standing (plan0 false [] [] [] []) [] with plans := [(0, { loaded (plan0 false [] [] [] []) with st := .running, strm := [(0, { pc := 1, waiting := false, prog := [(InProg.plain ⟨0, 0, 7, word 0x31 (1024 * 2 ^ 25 + 2 ^ 41), .e, 0, loaded (plan0 false [] [] [] [])⟩)] })] })] }

theorem witness_WordCompletionCompletes :
    (∃ (s : State), ∃ a idx i h sc p,
      let v := fabricSends a (flushLatch a 3 s)
      (v.arr a).prog.find? (fun i => decide (i.index = idx)) = some i ∧ v.holder a = some (h, sc, p)) ∧
    (∃ (s : State), ∃ h sc idx i p,
      let v := runRounds h sc idx (s.spar.contrib.length + 1) s
      (v.progOf (.coll h sc)).find? (fun i => decide (i.index = idx)) = some i ∧ v.plan h = some p) ∧
    (∃ (s : State), ∃ h sc idx i p, (s.progOf (.strm h sc)).find? (fun i => decide (i.index = idx)) = some i ∧ s.plan h = some p) :=
  ⟨⟨atWordCompletionCompletes1, 0, 7, (InProg.plain ⟨0, 0, 7, word 0x26, .e, 0, loaded (plan0 false [] [] [] [])⟩), 0, 0,
    planOf atWordCompletionCompletes1, by decide +kernel, by decide +kernel⟩,
   ⟨atWordCompletionCompletes2, 0, 0, 7, (InProg.plain ⟨0, 0, 7, word 0x30 (64 * 2 ^ 68), .e, 0,
    loaded (plan0 false [] [] [] [])⟩), planOf atWordCompletionCompletes2, by decide +kernel, by decide +kernel⟩,
   ⟨atWordCompletionCompletes3, 0, 0, 7, (InProg.plain ⟨0, 0, 7, word 0x31 (1024 * 2 ^ 25 + 2 ^ 41), .e, 0,
    loaded (plan0 false [] [] [] [])⟩), planOf atWordCompletionCompletes3, by decide +kernel⟩⟩

theorem witness_SlateWritesComplete :
    (∃ (s : State), ∃ a c k pb i r, s.mountedAt a = true ∧ a ∉ s.maint.bistRound ∧
      (s.relocsOf a (fun r => decide (r.k = k) && decide (mget r.target c = some pb) && !decide (c ∈ r.copied))).head? = some (i,
      r) ∧ r.copyRead c = true ∧ 0 < mgetD r.pulses c 0 ∧ s.reconIn a c k r.lblock = false) ∧
    (∃ (s : State), ∃ a c k pb g x, s.mountedAt a = true ∧ a ∉ s.maint.bistRound ∧ s.slate.relocs = [] ∧ s.models.stage = some g ∧
      g.blocks.find? (fun b => decide (b.sb = sbKey a c k) && decide (b.pb = pb)) = some x ∧
      (s.pb (pbKey (sbKey a c k) pb)).programming = true ∧ 0 < (s.pb (pbKey (sbKey a c k) pb)).pulses ∧ s.jobRunning 4 2 = true) ∧
    (∃ (s : State), ∃ a c k pb, s.mountedAt a = true ∧ (s.pb (pbKey (sbKey a c k) pb)).erasing = true) ∧
    (∃ (s : State), ∃ a r, s.mountedAt a = true ∧ mget s.slate.rings a = some r ∧ r.done < r.count) ∧
    (∃ (s : State), ∃ a c lb g, s.mountedAt a = true ∧ a ∉ s.maint.bistRound ∧ s.models.stage = some g ∧
      s.parityReady g a c lb = true ∧ s.parityRead g a c lb = true) :=
  ⟨⟨{ up with slate := { up.slate with relocs := [{ pri := 4, causes := [.wear], array := 1, cell := some 0, k := 0, lblock := 0, target := [(0, 5)], lines := [(0, 256)], pulses := [(0, 1)], copied := [], repl := [], cmd := none }] } },
    1, 0, 0, 5, 0, { pri := 4, causes := [.wear], array := 1, cell := some 0, k := 0, lblock := 0, target := [(0, 5)], lines := [(0, 256)], pulses := [(0, 1)], copied := [], repl := [], cmd := none },
    by decide +kernel⟩,
   ⟨{ staging { stage0 with blocks := [{ sb := sbKey 1 0 0, lb := 0, pb := 5, layer := 0, shard := 0 }] } up with slate := { up.slate with pbs := [(pbKey (sbKey 1 0 0) 5, { PbSt.reset with programming := true, pulses := 1 })] }, maint := { up.maint with jobs := [{ id := 0, activity := 4, st := 1, progress := 0, scope := 2, seq := 0, start := 0, finish := 0, cmd := none, paused := false }] } },
    1, 0, 0, 5, { stage0 with blocks := [{ sb := sbKey 1 0 0, lb := 0, pb := 5, layer := 0, shard := 0 }] }, { sb := sbKey 1 0 0, lb := 0, pb := 5, layer := 0, shard := 0 },
    by decide +kernel⟩,
   ⟨{ up with slate := { up.slate with pbs := [(pbKey (sbKey 1 0 0) 5, { PbSt.reset with erasing := true })] } }, 1, 0, 0, 5,
    by decide +kernel⟩,
   ⟨{ up with slate := { up.slate with rings := [(1, { addr := 4096, count := 2, done := 0, firstFail := none })] } }, 1,
    { addr := 4096, count := 2, done := 0, firstFail := none }, by decide +kernel⟩,
   ⟨staging { stage0 with blocks := [{ sb := sbKey 1 0 0, lb := 0, pb := 5, layer := 0, shard := 0 }], endCmd := some 3, parity := [(sbKey 1 0 0 * 32, 256)] } up,
    1, 0, 0, { stage0 with blocks := [{ sb := sbKey 1 0 0, lb := 0, pb := 5, layer := 0, shard := 0 }], endCmd := some 3, parity := [(sbKey 1 0 0 * 32, 256)] },
    by decide +kernel⟩⟩

theorem witness_SlateUpkeepCompletes :
    (∃ (s : State), ∃ i, i < 2 ∧ (s.stack i).mounted = true) ∧
    (∃ (s : State), ∃ i k, i < 2 ∧ (s.stack i).ckpt = some k ∧ s.maint.bistRound = [] ∧ k.aDone = false) ∧
    (∃ (s : State), ∃ i k, i < 2 ∧ (s.stack i).ckpt = some k ∧ s.maint.bistRound = [] ∧ k.aDone = true) ∧
    (∃ (s : State), ∃ a k lb, s.mountedAt a = true ∧ s.threshold ≤ mgetD s.slate.groups (groupKey a k lb) 0) ∧
    (∃ (s : State), ∃ a, s.mountedAt a = true ∧ (s.arr a).cur = none) ∧
    (∃ (s : State), ∃ a c, s.pwr.state = .run ∧ s.activating = false ∧ s.mountedAt a = true ∧ a ∉ s.maint.bistRound ∧
      s.scrubWaits a c = false) ∧
    (∃ (s : State), ∃ a c k m f, s.mountedAt a = true ∧ s.models.stage = none ∧ s.activating = false ∧ a ∉ s.maint.bistRound ∧
      (s.sb (sbKey a c k)).failed = false ∧ leastErased (s.knownErases (sbKey a c k)) (s.sb (sbKey a c k)).map = some m ∧
      s.takeBlock (sbKey a c k) = some f ∧ m.2.2 + 2000 < s.mostErases (sbKey a c k) ∧ s.slate.relocs = []) ∧
    (∃ (s : State), ∃ a c k pb, s.mountedAt a = true ∧ pb < physBlocks s.part.variant ∧ s.activating = false ∧ a ∉ s.maint.bistRound ∧
      s.gcMay a (sbKey a c k) pb = true) :=
  ⟨⟨up, 0, by decide +kernel⟩,
   ⟨{ up with slate := { up.slate with stackW := { up.slate.stackW with ckpt := some { seq := 1, final := false, aDone := false, snap := [], disturb := [], cmds := [], pulsed := [], reinit := false, again := none } } } },
    0, { seq := 1, final := false, aDone := false, snap := [], disturb := [], cmds := [], pulsed := [], reinit := false, again := none },
    by decide +kernel⟩,
   ⟨{ up with slate := { up.slate with stackE := { up.slate.stackE with ckpt := some { seq := 1, final := false, aDone := true, snap := [], disturb := [], cmds := [], pulsed := [], reinit := false, again := none } } } },
    1, { seq := 1, final := false, aDone := true, snap := [], disturb := [], cmds := [], pulsed := [], reinit := false, again := none },
    by decide +kernel⟩,
   ⟨{ up with slate := { up.slate with threshE8 := 1, groups := [(groupKey 1 0 0, 100000000)] } }, 1, 0, 0, by decide +kernel⟩,
   ⟨up, 1, by decide +kernel⟩,
   ⟨{ up with pwr := { up.pwr with state := .run } }, 1, 0, by decide +kernel⟩,
   ⟨{ up with slate := { up.slate with sbs := [(sbKey 1 0 0, { SbSt.reset with map := [(3, 0), (4, 1)] })], lines := [(lnKey (sbKey 1 0 0) 0 0, fillLine 3 0 0), (lnKey (sbKey 1 0 0) 1 0, fillLine 4 0 2001)] } },
    1, 0, 0, (3, 0, 0), 2, by decide +kernel⟩,
   ⟨{ up with slate := { up.slate with stackW := { up.slate.stackW with mirA := { Mirror.reset with seq := 1, commits := [(0, commitLine 1 false 0)] }, mirB := { Mirror.reset with seq := 1, commits := [(0, commitLine 1 false 0)] } }, lines := [(lnKey (sbKey 1 0 0) 5 0, ⟨List.replicate 80 0⟩)] } },
    1, 0, 0, 5, by decide +kernel⟩⟩

theorem witness_SwapMomentsComplete :
    (∃ (s : State), ∃ b g,
      let key := u b 8 2 * 65536 + u b 12 4
      s.models.stage = some g ∧ shardOk b = true ∧ u b 4 2 = g.id ∧ u b 6 1 = 0 ∧ key ∉ g.held) ∧
    (∃ (s : State), ∃ m g, s.models.stage = some g ∧ s.spar.st = 1 ∧ m ∈ g.memberList) ∧
    (∃ (s : State), ∃ g, s.models.stage = some g ∧ s.spar.st = 2 ∧ s.models.commit = none ∧ s.spar.member ∈ g.staged) ∧
    (∃ (s : State), ∃ t c, s.models.commit = some c ∧ c.decided = false ∧ c.tc ≤ (reachTime t s).tbu.now + 1000000) ∧
    (∃ (s : State), ∃ a t c g,
      let v := reachTime t s
      s.models.commit = some c ∧ s.models.stage = some g ∧ c.decided = true ∧ c.tc ≤ v.tbu.now ∧ a < 64 ∧ a ∉ c.switched ∧
      v.pastSteps a c.tc = true) ∧
    (∃ (s : State), ∃ c g, s.models.commit = some c ∧ s.models.stage = some g ∧ c.ckpt = true ∧ s.slate.stackW.ckpt = none ∧
      s.slate.stackE.ckpt = none) ∧
    (∃ (s : State), ∃ c, s.models.commit = some c ∧ s.spar.st = 1) ∧
    (∃ (s : State), ∃ i t a sum rest, mget s.models.tunes i = some t ∧ s.adapter t.adapter = some a ∧ t.work = sum :: rest) :=
  ⟨⟨staging stage0 up, shard, stage0, by decide +kernel, shard_ok, by decide +kernel⟩,
   ⟨asManager (staging { stage0 with members := 3 } up), 1, { stage0 with members := 3 }, by decide +kernel⟩,
   ⟨asWorker (staging { stage0 with members := 3, staged := [1] } up), { stage0 with members := 3, staged := [1] },
    by decide +kernel⟩,
   ⟨{ staging stage0 up with models := { (staging stage0 up).models with commit := some { cmd := none, slot := 0, tc := 1002000000, epoch := 2, unit := none, acked := [], durable := [], decided := false, switched := [], ckpt := false, seq := 1, lostMember := false } } },
    1001000000, { cmd := none, slot := 0, tc := 1002000000, epoch := 2, unit := none, acked := [], durable := [], decided := false, switched := [], ckpt := false, seq := 1, lostMember := false },
    by decide +kernel⟩,
   ⟨{ staging stage0 up with models := { (staging stage0 up).models with commit := some { cmd := none, slot := 0, tc := 1002000000, epoch := 2, unit := none, acked := [], durable := [], decided := true, switched := [], ckpt := false, seq := 1, lostMember := false } } },
    63, 1002000000, { cmd := none, slot := 0, tc := 1002000000, epoch := 2, unit := none, acked := [], durable := [], decided := true, switched := [], ckpt := false, seq := 1, lostMember := false },
    stage0, by decide +kernel, by decide +kernel⟩,
   ⟨{ staging stage0 up with models := { (staging stage0 up).models with commit := some { cmd := none, slot := 0, tc := 1002000000, epoch := 2, unit := none, acked := [], durable := [], decided := true, switched := [], ckpt := true, seq := 1, lostMember := false } } },
    { cmd := none, slot := 0, tc := 1002000000, epoch := 2, unit := none, acked := [], durable := [], decided := true, switched := [], ckpt := true, seq := 1, lostMember := false },
    stage0, by decide +kernel⟩,
   ⟨asManager ({ staging stage0 up with models := { (staging stage0 up).models with commit := some { cmd := none, slot := 0, tc := 1002000000, epoch := 2, unit := none, acked := [], durable := [], decided := false, switched := [], ckpt := false, seq := 1, lostMember := false } } }),
    { cmd := none, slot := 0, tc := 1002000000, epoch := 2, unit := none, acked := [], durable := [], decided := false, switched := [], ckpt := false, seq := 1, lostMember := false },
    by decide +kernel⟩,
   ⟨{ withAdapter up with models := { (withAdapter up).models with tunes := [(0, { stream := 0, adapter := objBase, mse := true, bias := false, lossHead := 0, saved := 0, grad := 0, b1 := 0, b2 := 0, lr := 0, eps := 0, wd := 0, n := 1, steps := 0, stepT := 0, sum := [], master := 0, mom := 0, var := 0, work := [[]], apply := false, stopping := none })] } },
    0, { stream := 0, adapter := objBase, mse := true, bias := false, lossHead := 0, saved := 0, grad := 0, b1 := 0, b2 := 0, lr := 0, eps := 0, wd := 0, n := 1, steps := 0, stepT := 0, sum := [], master := 0, mom := 0, var := 0, work := [[]], apply := false, stopping := none },
    adapter0, [], [], by decide +kernel⟩⟩

theorem witness_FlashRoutinesComplete :
    (∃ (s : State), ∃ lr addr count, ∃ (flags : Word),
      let a := addr - flashCore
      let n := count * sectorBytes
      flashCore ≤ addr ∧ (∃ r, flashRegion a = some r ∧ a + n ≤ r.2) ∧ flags.toNat ≤ 1 ∧
      (flags.getLsbD 0 = true ∨ bankOf lr ≠ some (a / bankBytes)) ∧ (s.bank (a / bankBytes)).op = none ∧ a % sectorBytes = 0 ∧
      0 < count ∧ count ≤ 8 ∧ a < journalBase ∧ (flags.getLsbD 0 = true → count = 1)) ∧
    (∃ (s : State), ∃ lr addr src count, ∃ (flags : Word),
      let a := addr - flashCore
      let n := count * 256
      flashCore ≤ addr ∧ (∃ r, flashRegion a = some r ∧ a + n ≤ r.2) ∧ flags.toNat ≤ 1 ∧
      (flags.getLsbD 0 = true ∨ bankOf lr ≠ some (a / bankBytes)) ∧ (s.bank (a / bankBytes)).op = none ∧ a % 256 = 0 ∧ 0 < count ∧
      count ≤ 8 ∧ a < journalBase ∧ src + n ≤ mgmtBytes ∧ (∀ i < n / 8, s.wordErased (a / 8 + i) = true)) ∧
    (∃ (s : State), ∃ lr addr value, ∃ (flags : Word),
      let a := addr - flashCore
      let v := redrawFlash s
      flashCore ≤ addr ∧ (∃ r, flashRegion a = some r ∧ a + 8 ≤ r.2) ∧ flags.toNat ≤ 1 ∧
      (flags.getLsbD 0 = true ∨ bankOf lr ≠ some (a / bankBytes)) ∧ (s.bank (a / bankBytes)).op = none ∧ a % 8 = 0 ∧
      v.wordCheck (a / 8) value = none) ∧
    (∃ i, i < 2) ∧
    (∃ (s : State), ∃ i o, i < 2 ∧ (s.bank i).op = some o) ∧
    (∃ (s : State), ∃ addr i o, i < 2 ∧ (s.bank i).op = some o ∧ flashCore + o.start ≤ addr ∧ addr < flashCore + o.start + o.length) ∧
    (∃ (s : State), ∃ a ring count, a < 64 ∧ ring % 64 = 0 ∧ 0 < count ∧ count ≤ 4096 ∧ ring + 16 * count ≤ hubBytes ∧ (∀ r,
      mget s.slate.rings a = some r → r.count ≤ r.done)) ∧
    (∃ a, a < 64) :=
  ⟨⟨up, flashCore + bankBytes, flashCore + bankBytes, 1, 1, by decide +kernel, ⟨(stagingBase, configBase), by decide +kernel⟩,
    by decide +kernel, .inl (by decide +kernel), by decide +kernel⟩,
   ⟨up, 0, flashCore + bankBytes, 0, 1, 0, by decide +kernel, ⟨(stagingBase, configBase), by decide +kernel⟩, by decide +kernel,
    .inr (by decide +kernel), by decide +kernel⟩,
   ⟨up, 0, flashCore + bankBytes, 5, 0, by decide +kernel, ⟨(stagingBase, configBase), by decide +kernel⟩, by decide +kernel,
    .inr (by decide +kernel), by decide +kernel⟩,
   ⟨1, by decide +kernel⟩,
   ⟨{ up with flash := { up.flash with bank1 := { Bank.reset with op := some { start := bankBytes, length := 256, erase := true, data := [], word := false } } } },
    1, { start := bankBytes, length := 256, erase := true, data := [], word := false }, by decide +kernel⟩,
   ⟨{ up with flash := { up.flash with bank1 := { Bank.reset with op := some { start := bankBytes, length := 256, erase := true, data := [], word := false } } } },
    flashCore + bankBytes, 1, { start := bankBytes, length := 256, erase := true, data := [], word := false }, by decide +kernel⟩,
   ⟨up, 63, 64, 4096, by decide +kernel, by decide +kernel, by decide +kernel, by decide +kernel, by decide +kernel,
    fun r h => nomatch h⟩,
   ⟨63, by decide +kernel⟩⟩

end Sys2Proof.Tests
end

section
/-! Proofs about the quantiser (chapter 03): when a magnitude rounds to at most a given code, what `quantInt` and `quantSeg`
emit, and R39. -/

namespace Sys2Proof.Proofs

open Sys2Proof.Machine

/-! ## Rounding half up

A magnitude a x 2^e is compared with 1/2 and its odd multiples at the smaller of the exponents e and -1. -/

theorem natCast_mul_two_pow (a k : Nat) : ((a * 2 ^ k : Nat) : Int) = a * 2 ^ k :=
  (Int.natCast_mul a (2 ^ k)).trans (congrArg _ (Int.natCast_pow 2 k))

theorem nearestAway_of_half_le (a k : Nat) : nearestAway ⟨a, (k : Int) - 1⟩ = (a * 2 ^ k + 1) / 2 := by
  have hmin : min ((k : Int) - 1) (-1) = -1 := by omega
  have hk : ((k : Int) - 1 - -1).toNat = k := by omega
  have hnum : ((a : Int) * 2 ^ k + 1 * 2 ^ 0).natAbs = a * 2 ^ k + 1 := by
    rw [← natCast_mul_two_pow]
    omega
  simp only [nearestAway, Dy.add, hmin, hk, Dy.floor]
  exact congrArg (· / 2) hnum

theorem nearestAway_of_lt_half (a k : Nat) : nearestAway ⟨a, -1 - (k : Int)⟩ = (a + 2 ^ k) / (2 * 2 ^ k) := by
  have hmin : min (-1 - (k : Int)) (-1) = -1 - k := by omega
  have hzero : (-1 - (k : Int) - (-1 - k)).toNat = 0 := by omega
  have hk : (-1 - (-1 - (k : Int))).toNat = k := by omega
  have hden : (-(-1 - (k : Int))).toNat = k + 1 := by omega
  have hneg : ¬ 0 ≤ -1 - (k : Int) := by omega
  have hnum : ((a : Int) * 2 ^ 0 + 1 * 2 ^ k).natAbs = a + 2 ^ k := by
    rw [Int.pow_zero, Int.mul_one, ← Nat.one_mul (2 ^ k), ← Int.natCast_one, ← natCast_mul_two_pow]
    exact Int.natAbs_natCast (a + 1 * 2 ^ k)
  simp only [nearestAway, Dy.add, hmin, hzero, hk, Dy.floor, hden, if_neg hneg, hnum]
  rw [Nat.pow_succ, Nat.mul_comm (2 ^ k)]

theorem halves_le_of_half_le (n a k : Nat) : Dy.le ⟨n, -1⟩ ⟨a, (k : Int) - 1⟩ = decide (n ≤ a * 2 ^ k) := by
  have hmin : min ((k : Int) - 1) (-1) = -1 := by omega
  have hk : ((k : Int) - 1 - -1).toNat = k := by omega
  simp only [Dy.le, Dy.neg, Dy.add, hmin, hk, Int.sub_self, Int.toNat_zero, Int.pow_zero, Int.mul_one, ← natCast_mul_two_pow]
  exact decide_eq_decide.2 (by omega)

theorem halves_le_of_lt_half (n a k : Nat) : Dy.le ⟨n, -1⟩ ⟨a, -1 - (k : Int)⟩ = decide (n * 2 ^ k ≤ a) := by
  have hmin : min (-1 - (k : Int)) (-1) = -1 - k := by omega
  have hk : (-1 - (-1 - (k : Int))).toNat = k := by omega
  simp only [Dy.le, Dy.neg, Dy.add, hmin, hk, Int.sub_self, Int.toNat_zero, Int.pow_zero, Int.mul_one, Int.neg_mul, ← natCast_mul_two_pow]
  exact decide_eq_decide.2 (by omega)

/-- An exponent is at or above that of 1/2, or below it. -/
theorem exponent_cases (e : Int) : (∃ k : Nat, e = k - 1) ∨ ∃ k : Nat, e = -1 - k := by
  rcases Int.le_total (-1) e with h | h
  · exact .inl ⟨(e + 1).toNat, by omega⟩
  · exact .inr ⟨(-1 - e).toNat, by omega⟩

/-- Rounding half up gives at most `n` exactly below n + 1/2, which is where the quantiser saturates (R84, R85). -/
theorem nearestAway_le_iff {q : Dy} {n : Nat} (h : 0 ≤ q.m) :
    nearestAway q ≤ n ↔ Dy.le ⟨2 * (n : Int) + 1, -1⟩ q = false := by
  obtain ⟨m, e⟩ := q
  obtain ⟨a, rfl⟩ := Int.eq_ofNat_of_zero_le h
  change _ ↔ Dy.le ⟨((2 * n + 1 : Nat) : Int), -1⟩ _ = false
  obtain ⟨k, rfl⟩ | ⟨k, rfl⟩ := exponent_cases e
  · rw [nearestAway_of_half_le, halves_le_of_half_le, decide_eq_false_iff_not]
    omega
  · have hpos : 0 < 2 * 2 ^ k := Nat.mul_pos Nat.two_pos (Nat.two_pow_pos k)
    have hsplit : (n + 1) * (2 * 2 ^ k) = (2 * n + 1) * 2 ^ k + 2 ^ k := by
      rw [← Nat.mul_assoc, ← Nat.succ_mul]
      exact congrArg (· * 2 ^ k) (by omega)
    rw [nearestAway_of_lt_half, halves_le_of_lt_half, decide_eq_false_iff_not, ← Nat.lt_succ_iff,
      Nat.div_lt_iff_lt_mul hpos, hsplit, Nat.add_lt_add_iff_right, Nat.not_le]

/-! ## Codes -/

theorem quot32_nonneg {x s q : Dy} (h : quot32 x s = some q) : 0 ≤ q.m := by
  simp only [quot32, Option.ite_none_left_eq_some] at h
  obtain ⟨-, h⟩ := h
  split at h
  · cases h; exact Int.le_refl 0
  · cases h; exact Int.natCast_nonneg _

/-- The code of a quantised element is a signed code of a magnitude within qmax, also for NaN, infinities and saturations (R84). -/
theorem quantInt_code (w qmax : Nat) (x : Word) (s : Dy) :
    ∃ neg, ∃ m ≤ qmax, (quantInt w qmax x s).code = twosCode w neg m := by
  unfold quantInt
  split
  · exact ⟨false, 0, Nat.zero_le _, rfl⟩
  split
  · exact ⟨_, qmax, Nat.le_refl _, rfl⟩
  split
  · exact ⟨_, qmax, Nat.le_refl _, rfl⟩
  next q hq =>
    split
    · exact ⟨_, qmax, Nat.le_refl _, rfl⟩
    next hlt =>
      exact ⟨_, _, (nearestAway_le_iff (quot32_nonneg hq)).2 ((Bool.not_eq_true _).mp hlt), rfl⟩

/-- The INT4 codes of -7 to +7: every 4-bit code but 0b1000. -/
def IsInt4Emitted (c : Nat) : Prop := c < 16 ∧ c ≠ 8 ∧ -7 ≤ int4Val c ∧ int4Val c ≤ 7

theorem isInt4Emitted_twosCode (neg : Bool) {m : Nat} (h : m ≤ 7) : IsInt4Emitted (twosCode 4 neg m) := by
  unfold IsInt4Emitted
  revert neg m
  decide

theorem isInt4Emitted_quantInt (x : Word) (s : Dy) : IsInt4Emitted (quantInt 4 7 x s).code := by
  obtain ⟨neg, m, hm, hcode⟩ := quantInt_code 4 7 x s
  exact hcode ▸ isInt4Emitted_twosCode neg hm

/-! ## Segments -/

/-- Whatever its scale mode decides, a segment is emitted with the codes of one scale. -/
theorem quantSeg_coded (q : QPoint) (carried : Option Half) (cold : Bool) (left : Nat) (vein : List Nat) (l : List (Nat × Word)) :
    ∃ s, (quantSeg q carried cold left vein l).coded = codeSeg (decide (q.format = 1)) s vein l := by
  unfold quantSeg
  cases carried with
  | none => exact ⟨_, rfl⟩
  | some s =>
    dsimp only
    split
    · exact ⟨_, rfl⟩
    split
    · split <;> exact ⟨_, rfl⟩
    split
    · split <;> exact ⟨_, rfl⟩
    · exact ⟨_, rfl⟩

theorem mem_codeSeg_int4 {s : Dy} {vein : List Nat} {l : List (Nat × Word)} {c : Nat} (h : c ∈ (codeSeg false s vein l).codes) :
    c = 0 ∨ ∃ x, c = (quantInt 4 7 x s).code := by
  simp only [codeSeg, codedOf, List.map_map, List.mem_map, Function.comp_apply] at h
  obtain ⟨x, -, rfl⟩ := h
  split
  · exact .inl rfl
  · exact .inr ⟨x.2, rfl⟩

/-- Settles O9: a segment's codes are those of one scale, each is 0 or a signed code of a magnitude of at most 7. -/
theorem quantiserNeverEmitsMinusEight : Obligations.QuantiserNeverEmitsMinusEight := by
  intro q carried cold left vein l hformat c hc
  obtain ⟨s, hcoded⟩ := quantSeg_coded q carried cold left vein l
  rw [hcoded, decide_eq_false hformat] at hc
  obtain rfl | ⟨x, rfl⟩ := mem_codeSeg_int4 hc
  · exact isInt4Emitted_twosCode false (Nat.zero_le 7)
  · exact isInt4Emitted_quantInt x s

end Sys2Proof.Proofs
end

section
/-! Proofs about the scales (chapter 03): order on exact numbers, upward rounding, the LIVE scale of R79, and the segments of
max-abs 0 of R81. -/

namespace Sys2Proof.Proofs

open Sys2Proof.Machine

/-! ## Order on exact numbers

Magnitudes m x 2^e are compared in units of a power of two that divides them all. -/

theorem dyLe_iff_units (m n i j : Nat) (z : Int) :
    Dy.le ⟨m, z + i⟩ ⟨n, z + j⟩ = true ↔ m * 2 ^ i ≤ n * 2 ^ j := by
  have hi : (z + i - min (z + j) (z + i)).toNat = i - min i j := by omega
  have hj : (z + j - min (z + j) (z + i)).toNat = j - min i j := by omega
  have hle : Dy.le ⟨m, z + i⟩ ⟨n, z + j⟩ = true ↔ m * 2 ^ (i - min i j) ≤ n * 2 ^ (j - min i j) := by
    refine decide_eq_true_iff.trans ?_
    simp only [Dy.neg, Dy.add, hi, hj, Int.neg_mul, ← natCast_mul_two_pow]
    omega
  rw [hle, ← Nat.mul_le_mul_right_iff (Nat.two_pow_pos (min i j)), Nat.mul_assoc, Nat.mul_assoc,
    Nat.pow_sub_mul_pow 2 (Nat.min_le_left i j), Nat.pow_sub_mul_pow 2 (Nat.min_le_right i j)]

theorem dyLe_add_right (m n k : Nat) (e : Int) : Dy.le ⟨m, e⟩ ⟨n, e + k⟩ = true ↔ m ≤ n * 2 ^ k := by
  simpa using dyLe_iff_units m n 0 k e

/-- Three exponents are a common one plus natural numbers. -/
theorem common_exponent (e f g : Int) : ∃ z : Int, ∃ i j k : Nat, e = z + i ∧ f = z + j ∧ g = z + k :=
  ⟨min e (min f g), (e - min e (min f g)).toNat, (f - min e (min f g)).toNat, (g - min e (min f g)).toNat,
    by omega, by omega, by omega⟩

theorem dyLe_trans {l m n : Nat} {e f g : Int} (h₁ : Dy.le ⟨l, e⟩ ⟨m, f⟩ = true) (h₂ : Dy.le ⟨m, f⟩ ⟨n, g⟩ = true) :
    Dy.le ⟨l, e⟩ ⟨n, g⟩ = true := by
  obtain ⟨z, i, j, k, rfl, rfl, rfl⟩ := common_exponent e f g
  rw [dyLe_iff_units] at *
  exact Nat.le_trans h₁ h₂

theorem dyLe_shift_left (m n k : Nat) (e f : Int) :
    Dy.le ⟨(m * 2 ^ k : Nat), e⟩ ⟨n, f⟩ = true ↔ Dy.le ⟨m, e + k⟩ ⟨n, f⟩ = true := by
  obtain ⟨z, i, j, -, rfl, rfl, -⟩ := common_exponent e f f
  rw [Int.add_assoc, ← Int.natCast_add, dyLe_iff_units, dyLe_iff_units, Nat.mul_assoc, ← Nat.pow_add, Nat.add_comm k]

theorem dyLe_shift_right (m n k : Nat) (e f : Int) :
    Dy.le ⟨m, e⟩ ⟨(n * 2 ^ k : Nat), f⟩ = true ↔ Dy.le ⟨m, e⟩ ⟨n, f + k⟩ = true := by
  obtain ⟨z, i, j, -, rfl, rfl, -⟩ := common_exponent e f f
  rw [Int.add_assoc, ← Int.natCast_add, dyLe_iff_units, dyLe_iff_units, Nat.mul_assoc, ← Nat.pow_add, Nat.add_comm k]

/-- A number that is not above another lies in no higher binade. -/
theorem binade_lt_of_dyLe {m n a b : Nat} {e f : Int} (hm : 2 ^ a ≤ m) (hn : n < 2 ^ b) (h : Dy.le ⟨m, e⟩ ⟨n, f⟩ = true) :
    e + a < f + b := by
  obtain ⟨z, i, j, -, rfl, rfl, -⟩ := common_exponent e f f
  rw [dyLe_iff_units] at h
  have hlt : 2 ^ (a + i) < 2 ^ (b + j) := by
    rw [Nat.pow_add, Nat.pow_add]
    calc 2 ^ a * 2 ^ i ≤ m * 2 ^ i := Nat.mul_le_mul_right _ hm
      _ ≤ n * 2 ^ j := h
      _ < 2 ^ b * 2 ^ j := Nat.mul_lt_mul_of_pos_right hn (Nat.two_pow_pos j)
  have := (Nat.pow_lt_pow_iff_right (by decide)).1 hlt
  omega

/-- Numbers of 8 significant bits are ordered by exponent, then by significand. -/
theorem dyLe_normal_iff {m n : Nat} {e f : Int} (hm : 128 ≤ m ∧ m < 256) (hn : 128 ≤ n ∧ n < 256) :
    Dy.le ⟨m, e⟩ ⟨n, f⟩ = true ↔ e < f ∨ e = f ∧ m ≤ n := by
  by_cases hef : e ≤ f
  · obtain ⟨k, rfl⟩ := Int.le.dest hef
    rw [dyLe_add_right]
    cases k with
    | zero => omega
    | succ k =>
      have := Nat.mul_le_mul_left n (Nat.pow_le_pow_right Nat.two_pos (Nat.le_add_left 1 k))
      omega
  · have hnot : ¬ Dy.le ⟨m, e⟩ ⟨n, f⟩ = true := fun h => by
      have := binade_lt_of_dyLe (a := 7) (b := 8) hm.1 hn.2 h
      omega
    exact iff_of_false hnot (by omega)

theorem mul_dy (m n : Nat) (e : Int) : Dy.mul ⟨m, e⟩ (dy n) = ⟨(m * n : Nat), e⟩ := by
  simp only [Dy.mul, dy, Int.add_zero, Int.natCast_mul]

/-! ## Rounding upward -/

theorem lt_two_pow_size (n : Nat) : n < 2 ^ size n := by
  unfold size
  split
  · omega
  · exact Nat.lt_log2_self

theorem two_pow_le_of_lt_size {n k : Nat} (h : k < size n) : 2 ^ k ≤ n := by
  unfold size at h
  split at h
  · omega
  · exact (Nat.le_log2 ‹_›).1 (Nat.le_of_lt_succ h)

theorem cdiv_le_iff {a b t : Nat} (hb : 0 < b) : cdiv a b ≤ t ↔ a ≤ t * b := by
  rw [cdiv, ← Nat.lt_succ_iff, Nat.div_lt_iff_lt_mul hb, Nat.succ_mul]
  omega

theorem le_cdiv_mul {a b : Nat} (hb : 0 < b) : a ≤ cdiv a b * b := (cdiv_le_iff hb).1 (Nat.le_refl _)

/-- Rounding upward to `p` bits gives the least number of at most `p` significant bits that is not below. -/
theorem ceilTo_le_iff {p n m : Nat} {e f : Int} (hm : m < 2 ^ p) :
    Dy.le ⟨(ceilTo p n e).1, (ceilTo p n e).2⟩ ⟨m, f⟩ = true ↔ Dy.le ⟨n, e⟩ ⟨m, f⟩ = true := by
  by_cases hsize : size n ≤ p
  · simp [ceilTo, Nat.sub_eq_zero_of_le hsize, cdiv]
  simp only [ceilTo]
  refine ⟨dyLe_trans ((dyLe_add_right ..).2 (le_cdiv_mul (Nat.two_pow_pos _))), fun h => ?_⟩
  have hbinade : e + (size n - 1 : Nat) < f + p := binade_lt_of_dyLe (two_pow_le_of_lt_size (by omega)) hm h
  have hexp : e + (size n - p : Nat) ≤ f := by omega
  obtain ⟨k, rfl⟩ := Int.le.dest hexp
  rw [dyLe_add_right, cdiv_le_iff (Nat.two_pow_pos _), Nat.mul_assoc, ← Nat.pow_add, Nat.add_comm k, ← dyLe_add_right (e := e)]
  rwa [Int.natCast_add, ← Int.add_assoc]

theorem ceilTo_fst_bounds {p n : Nat} {e : Int} (h : p < size n) :
    2 ^ p ≤ (ceilTo (p + 1) n e).1 ∧ (ceilTo (p + 1) n e).1 ≤ 2 ^ (p + 1) := by
  have hlo : 2 ^ p * 2 ^ (size n - (p + 1)) ≤ n := by
    rw [← Nat.pow_add]
    exact two_pow_le_of_lt_size (by omega)
  have hhi : n ≤ 2 ^ (p + 1) * 2 ^ (size n - (p + 1)) := by
    rw [← Nat.pow_add, Nat.add_sub_of_le h]
    exact Nat.le_of_lt (lt_two_pow_size n)
  have hpos := Nat.two_pow_pos (size n - (p + 1))
  exact ⟨Nat.le_of_mul_le_mul_right (Nat.le_trans hlo (le_cdiv_mul hpos)) hpos, (cdiv_le_iff hpos).2 hhi⟩

/-! ## The quotient

`quot` marks an inexact quotient in its last bit, so it compares with even numbers as the exact quotient does. -/

theorem quot_dy_snd (a b : Nat) (e : Int) : (quot ⟨a, e⟩ (dy b)).2 = e - (29 + size b : Nat) := by
  simp only [quot, dy, Int.natAbs_natCast]
  omega

theorem sticky_le_iff {n b t : Nat} (hb : 0 < b) : 2 * (n / b) + (if n % b = 0 then 0 else 1) ≤ t * 2 ↔ n ≤ t * b := by
  split
  next hdvd =>
    obtain ⟨q, rfl⟩ := Nat.dvd_of_mod_eq_zero hdvd
    rw [Nat.mul_div_cancel_left q hb, Nat.mul_comm b, Nat.mul_le_mul_right_iff hb]
    omega
  next hdvd =>
    have hlt := Nat.div_lt_iff_lt_mul (x := n) (y := t) hb
    have hne : n ≠ t * b := fun h => hdvd (h ▸ Nat.mul_mod_left t b)
    omega

theorem quot_dy_fst (a b : Nat) (e : Int) :
    (quot ⟨a, e⟩ (dy b)).1 = 2 * (a * 2 ^ (28 + size b) / b) + (if a * 2 ^ (28 + size b) % b = 0 then 0 else 1) := rfl

theorem two_pow_le_quot_dy_fst {a b : Nat} {e : Int} (ha : 0 < a) (hb : 0 < b) : 2 ^ 29 ≤ (quot ⟨a, e⟩ (dy b)).1 := by
  have h : 2 ^ 28 ≤ a * 2 ^ (28 + size b) / b := by
    rw [Nat.le_div_iff_mul_le hb, Nat.pow_add]
    exact Nat.le_trans (Nat.mul_le_mul_left _ (Nat.le_of_lt (lt_two_pow_size b))) (Nat.le_mul_of_pos_left _ ha)
  rw [quot_dy_fst]
  omega

theorem quot_dy_le_iff {a b m : Nat} {e f : Int} (ha : 0 < a) (hb : 0 < b) (hm : m < 2 ^ 29) :
    Dy.le ⟨(quot ⟨a, e⟩ (dy b)).1, (quot ⟨a, e⟩ (dy b)).2⟩ ⟨m, f⟩ = true ↔ Dy.le ⟨a, e⟩ (Dy.mul ⟨m, f⟩ (dy b)) = true := by
  rw [mul_dy]
  have hexp := quot_dy_snd a b e
  by_cases hf : (quot ⟨a, e⟩ (dy b)).2 < f
  · obtain ⟨k, hk⟩ := Int.le.dest hf
    generalize (quot ⟨a, e⟩ (dy b)).2 = z at *
    obtain rfl : e = z + (28 + size b + 1 : Nat) := by omega
    obtain rfl : f = z + (k + 1 : Nat) := by omega
    rw [dyLe_add_right, dyLe_iff_units, quot_dy_fst, Nat.pow_succ, ← Nat.mul_assoc, sticky_le_iff hb, Nat.mul_right_comm m b,
      ← Nat.mul_assoc, Nat.mul_right_comm _ 2, ← Nat.mul_le_mul_right_iff Nat.two_pos, Nat.mul_assoc a, ← Nat.pow_succ]
  · refine iff_of_false (fun h => hf ?_) (fun h => hf ?_)
    · have := binade_lt_of_dyLe (two_pow_le_quot_dy_fst ha hb) hm h
      omega
    · have hmb : m * b < 2 ^ (29 + size b) := by
        rw [Nat.pow_add]
        exact Nat.mul_lt_mul_of_lt_of_le' hm (Nat.le_of_lt (lt_two_pow_size b)) hb
      have := binade_lt_of_dyLe (a := 0) ha hmb h
      omega

theorem size_quot_dy {a b : Nat} {e : Int} (ha : 0 < a) (hb : 0 < b) : 29 < size (quot ⟨a, e⟩ (dy b)).1 :=
  (Nat.pow_lt_pow_iff_right (by decide)).1 (Nat.lt_of_le_of_lt (two_pow_le_quot_dy_fst ha hb) (lt_two_pow_size _))

/-! ## Patterns -/

theorem fVal_of_fSign_false {w : Word} (h : fSign w = false) :
    fVal w = ⟨(if fExp w = 0 then fFrac w else 2 ^ 23 + fFrac w : Nat), if fExp w = 0 then -149 else (fExp w : Int) - 150⟩ := by
  simp only [fVal, h, Bool.false_eq_true, if_false]

/-- The magnitude bits are the exponent field above the fraction field. -/
theorem fExp_fFrac (w : Word) : fExp w < 256 ∧ fFrac w < 2 ^ 23 ∧ w.toNat % 2 ^ 31 = fExp w * 2 ^ 23 + fFrac w := by
  have hsplit := Nat.mod_mul (a := 2 ^ 23) (b := 2 ^ 8) (x := w.toNat)
  have hfrac : fFrac w = w.toNat % 2 ^ 23 := rfl
  have hexp : fExp w = w.toNat / 2 ^ 23 % 2 ^ 8 := congrArg (· % 2 ^ 8) (Nat.shiftRight_eq_div_pow ..)
  rw [hfrac, hexp]
  omega

theorem fVal_pos {w : Word} (hsign : fSign w = false) (hfin : fFinite w = true) (hzero : fZero w = false) :
    ∃ a : Nat, ∃ e : Int, fVal w = ⟨a, e⟩ ∧ 0 < a ∧ a < 2 ^ 24 ∧ e ≤ 104 := by
  obtain ⟨hexp, hfrac, hmag⟩ := fExp_fFrac w
  rw [fFinite, bne_iff_ne] at hfin
  rw [fZero, decide_eq_false_iff_not, hmag] at hzero
  refine ⟨_, _, fVal_of_fSign_false hsign, ?_⟩
  split <;> omega

theorem validScale_iff {h : Half} : validScale h = true ↔ 0x80 ≤ h.toNat ∧ h.toNat ≤ 0x7F7F := by
  simp only [validScale, Bool.and_eq_true, decide_eq_true_eq]

theorem bVal_of_validScale {h : Half} (hh : validScale h = true) :
    bVal h = ⟨((128 + h.toNat % 128) * 2 ^ 16 : Nat), (h.toNat / 128 : Nat) - 134 - (16 : Nat)⟩ := by
  rw [validScale_iff] at hh
  have hnum : (h.setWidth 32 <<< 16 : Word).toNat = h.toNat * 2 ^ 16 := by
    simp only [BitVec.toNat_shiftLeft, BitVec.toNat_setWidth, Nat.shiftLeft_eq]
    omega
  have hsign : fSign (h.setWidth 32 <<< 16) = false := by
    rw [fSign, BitVec.getLsbD, hnum]
    exact Nat.testBit_lt_two_pow (by omega)
  have hexp : fExp (h.setWidth 32 <<< 16) = h.toNat / 128 := by
    simp only [fExp, bits, hnum, Nat.shiftRight_eq_div_pow]
    omega
  have hfrac : fFrac (h.setWidth 32 <<< 16) = h.toNat % 128 * 2 ^ 16 := by
    simp only [fFrac, bits, hnum, Nat.shiftRight_eq_div_pow]
    omega
  rw [bVal, fVal_of_fSign_false hsign, hexp, hfrac, if_neg (by omega), if_neg (by omega), Nat.add_mul, Int.sub_sub]
  rfl

theorem dyLe_bVal_iff {n : Nat} {e : Int} {h : Half} (hh : validScale h = true) :
    Dy.le ⟨n, e⟩ (bVal h) = true ↔ Dy.le ⟨n, e⟩ ⟨(128 + h.toNat % 128 : Nat), (h.toNat / 128 : Nat) - 134⟩ = true := by
  rw [bVal_of_validScale hh, dyLe_shift_right, Int.sub_add_cancel]

theorem dyLe_bVal_mul_iff {n b : Nat} {e : Int} {h : Half} (hh : validScale h = true) :
    Dy.le ⟨n, e⟩ (Dy.mul (bVal h) (dy b)) = true ↔
      Dy.le ⟨n, e⟩ (Dy.mul ⟨(128 + h.toNat % 128 : Nat), (h.toNat / 128 : Nat) - 134⟩ (dy b)) = true := by
  rw [bVal_of_validScale hh, mul_dy, mul_dy, Nat.mul_right_comm, dyLe_shift_right, Int.sub_add_cancel]

/-- The pattern number of c x 2^e with 128 ≤ c ≤ 256, or that of 2^-126 below it. -/
def scaleNum (c : Nat) (e : Int) : Nat := if e < -133 then 0x80 else (e + 134).toNat * 128 + (c - 128)

theorem belowMin_normal_iff {c : Nat} {e : Int} (hc : 128 ≤ c ∧ c < 256) : belowMin c e = true ↔ e < -133 := by
  have h : Dy.le ⟨((128 : Nat) : Int), -133⟩ ⟨c, e⟩ = true ↔ Dy.le ⟨((1 : Nat) : Int), -126⟩ ⟨c, e⟩ = true :=
    dyLe_shift_left 1 c 7 (-133) e
  rw [dyLe_normal_iff (by decide) hc] at h
  rw [belowMin, Dy.lt, Bool.not_eq_true', ← Bool.not_eq_true]
  refine (not_congr h.symm).trans ?_
  omega

theorem belowMin_256 (e : Int) : belowMin 256 e = belowMin 128 (e + 1) := by
  have h := dyLe_shift_right 1 128 1 (-126) e
  exact congrArg (!·) (Bool.eq_iff_iff.2 h)

theorem bf16Up_eq_scaleNum {a b : Dy} {c : Nat} {e : Int} (h : ceilTo 8 (quot a b).1 (quot a b).2 = (c, e)) (hc : 128 ≤ c ∧ c ≤ 256) :
    bf16Up a b = BitVec.ofNat 16 (scaleNum c e) := by
  simp only [bf16Up, h, scaleNum]
  rcases Nat.lt_or_eq_of_le hc.2 with hlt | rfl
  · have hlog : Nat.log2 c = 7 := (Nat.log2_eq_iff (by omega)).2 ⟨hc.1, hlt⟩
    simp only [belowMin_normal_iff ⟨hc.1, hlt⟩, hlog, Nat.le_refl, if_true, Nat.sub_self, Nat.shiftLeft_zero]
    split
    · rfl
    · exact congrArg _ (by omega)
  · have hlog : Nat.log2 256 = 8 := (Nat.log2_eq_iff (by decide)).2 (by decide)
    have hbelow : belowMin 256 e = true ↔ e + 1 < -133 := by rw [belowMin_256, belowMin_normal_iff (by decide)]
    have hfrac : (if 8 ≤ 7 then 256 <<< (7 - 8) else 256 >>> (8 - 7)) % 128 = 0 := by decide
    simp only [hbelow, hlog, hfrac]
    split
    · rw [if_pos (by omega)]
      rfl
    · refine congrArg _ ?_
      split <;> omega

theorem scaleNum_le_iff_of_lt {c : Nat} {e : Int} {h : Half} (hc : 128 ≤ c ∧ c < 256) (hh : validScale h = true) :
    scaleNum c e ≤ h.toNat ↔ Dy.le ⟨c, e⟩ (bVal h) = true := by
  rw [dyLe_bVal_iff hh, dyLe_normal_iff hc (by omega), scaleNum]
  rw [validScale_iff] at hh
  split <;> omega

theorem scaleNum_le_iff {c : Nat} {e : Int} {h : Half} (hc : 128 ≤ c ∧ c ≤ 256) (hh : validScale h = true) :
    scaleNum c e ≤ h.toNat ↔ Dy.le ⟨c, e⟩ (bVal h) = true := by
  rcases Nat.lt_or_eq_of_le hc.2 with hlt | rfl
  · exact scaleNum_le_iff_of_lt ⟨hc.1, hlt⟩ hh
  · have hnum : scaleNum 256 e = scaleNum 128 (e + 1) := by
      unfold scaleNum
      split <;> split <;> omega
    rw [hnum, scaleNum_le_iff_of_lt (by decide) hh, dyLe_bVal_iff hh, dyLe_bVal_iff hh]
    exact (dyLe_shift_left 128 _ 1 e _).symm

/-! ## The least scale at or above a quotient (R79, R80, R99) -/

theorem scaleNum_quot_le_iff {a b c : Nat} {d e : Int} {h : Half} (ha : 0 < a) (hb : 0 < b)
    (hceil : ceilTo 8 (quot ⟨a, d⟩ (dy b)).1 (quot ⟨a, d⟩ (dy b)).2 = (c, e)) (hc : 128 ≤ c ∧ c ≤ 256) (hh : validScale h = true) :
    scaleNum c e ≤ h.toNat ↔ Dy.le ⟨a, d⟩ ((bVal h).mul (dy b)) = true := by
  have hround := ceilTo_le_iff (p := 8) (n := (quot ⟨a, d⟩ (dy b)).1) (e := (quot ⟨a, d⟩ (dy b)).2)
    (m := 128 + h.toNat % 128) (f := (h.toNat / 128 : Nat) - 134) (by omega)
  rw [hceil] at hround
  rw [scaleNum_le_iff hc hh, dyLe_bVal_iff hh, dyLe_bVal_mul_iff hh, hround, quot_dy_le_iff ha hb (by omega)]

/-- Where some valid scale is not below a / b, the scales not below it are those from `bf16Up` on. -/
theorem bf16Up_spec {a b : Nat} {d : Int} (ha : 0 < a) (hb : 0 < b) (htop : Dy.le ⟨a, d⟩ ((bVal 0x7F7F).mul (dy b)) = true) :
    validScale (bf16Up ⟨a, d⟩ (dy b)) = true ∧ ∀ h, validScale h = true →
      ((bf16Up ⟨a, d⟩ (dy b)).toNat ≤ h.toNat ↔ Dy.le ⟨a, d⟩ ((bVal h).mul (dy b)) = true) := by
  rcases hceil : ceilTo 8 (quot ⟨a, d⟩ (dy b)).1 (quot ⟨a, d⟩ (dy b)).2 with ⟨c, e⟩
  have hc : 128 ≤ c ∧ c ≤ 256 := by
    have := ceilTo_fst_bounds (p := 7) (n := (quot ⟨a, d⟩ (dy b)).1) (e := (quot ⟨a, d⟩ (dy b)).2)
      (Nat.lt_trans (by decide) (size_quot_dy ha hb))
    rwa [hceil] at this
  have hmax : scaleNum c e ≤ 0x7F7F := (scaleNum_quot_le_iff (h := 0x7F7F) ha hb hceil hc (by decide)).2 htop
  have hmin : 0x80 ≤ scaleNum c e := by
    unfold scaleNum
    split <;> omega
  have hnum : (bf16Up ⟨a, d⟩ (dy b)).toNat = scaleNum c e := by
    rw [bf16Up_eq_scaleNum hceil hc, BitVec.toNat_ofNat]
    omega
  rw [validScale_iff, hnum]
  exact ⟨⟨hmin, hmax⟩, fun h hh => scaleNum_quot_le_iff ha hb hceil hc hh⟩

/-- Settles O8: a max-abs is below 2^128, so 0x7F7F is not below its quotient by 6 or 7, and the scale is the least such. -/
theorem liveScaleIsTheLeastAbove : Obligations.LiveScaleIsTheLeastAbove := by
  intro qmax mx hq hsign hfin hzero
  obtain ⟨a, d, hval, hpos, hlt, hd⟩ := fVal_pos hsign hfin hzero
  have htop : Dy.le ⟨a, d⟩ ((bVal 0x7F7F).mul (dy qmax)) = true := by
    obtain ⟨k, hk⟩ := Int.le.dest hd
    rw [dyLe_bVal_mul_iff (by decide), mul_dy]
    change Dy.le ⟨a, d⟩ ⟨(255 * qmax : Nat), 120⟩ = true
    rw [show (120 : Int) = d + (16 + k : Nat) by omega, dyLe_add_right, Nat.pow_add, ← Nat.mul_assoc]
    exact Nat.le_trans (by omega) (Nat.le_mul_of_pos_right _ (Nat.two_pow_pos k))
  obtain ⟨hvalid, hle⟩ := bf16Up_spec hpos (by omega) htop
  simp only [liveScale, hzero, Bool.false_eq_true, if_false, hval]
  exact ⟨hvalid, (hle _ hvalid).1 (Nat.le_refl _), fun h hh => (hle h hh).2⟩

/-! ## Segments of max-abs 0 (R81) -/

theorem toNat_fAbs (w : Word) : (fAbs w).toNat = w.toNat % 2 ^ 31 := by
  rw [fAbs, BitVec.toNat_and]
  exact Nat.and_two_pow_sub_one_eq_mod w.toNat 31

/-- One element taken into a max-abs. -/
def maxStep (m x : Word) : Word := if fFinite x && decide (m.toNat < (fAbs x).toNat) then fAbs x else m

theorem maxAbs_eq_foldl_maxStep (l : List Word) : maxAbs l = l.foldl maxStep 0 := rfl

theorem maxStep_lt {m : Word} (x : Word) (h : m.toNat < 2 ^ 31) : (maxStep m x).toNat < 2 ^ 31 := by
  unfold maxStep
  split
  · rw [toNat_fAbs]
    exact Nat.mod_lt _ (by decide)
  · exact h

theorem le_maxStep (m x : Word) : m.toNat ≤ (maxStep m x).toNat := by
  unfold maxStep
  split
  next h => exact Nat.le_of_lt (of_decide_eq_true (Bool.and_eq_true_iff.1 h).2)
  next => exact Nat.le_refl _

theorem fAbs_le_maxStep (m : Word) {x : Word} (hfin : fFinite x = true) : (fAbs x).toNat ≤ (maxStep m x).toNat := by
  rw [maxStep, hfin, Bool.true_and]
  split
  next => exact Nat.le_refl _
  next h => exact Nat.le_of_not_lt (mt decide_eq_true h)

theorem maxAbs_lt (l : List Word) : (maxAbs l).toNat < 2 ^ 31 := by
  rw [maxAbs_eq_foldl_maxStep]
  exact List.foldlRecOn (motive := fun m : Word => m.toNat < 2 ^ 31) _ _ (by decide) fun _ hm x _ => maxStep_lt x hm

theorem fAbs_le_foldl_maxStep {x : Word} (hfin : fFinite x = true) (l : List Word) (m : Word)
    (h : (fAbs x).toNat ≤ m.toNat ∨ x ∈ l) : (fAbs x).toNat ≤ (l.foldl maxStep m).toNat := by
  induction l generalizing m with
  | nil => exact h.resolve_right List.not_mem_nil
  | cons y l ih =>
    refine ih _ ?_
    obtain h | h := h
    · exact .inl (Nat.le_trans h (le_maxStep m y))
    · obtain rfl | h := List.mem_cons.1 h
      · exact .inl (fAbs_le_maxStep m hfin)
      · exact .inr h

theorem fAbs_le_maxAbs {l : List Word} {x : Word} (hx : x ∈ l) (hfin : fFinite x = true) : (fAbs x).toNat ≤ (maxAbs l).toNat :=
  fAbs_le_foldl_maxStep hfin l 0 (.inr hx)

theorem fZero_of_fZero_segMax {vein : List Nat} {l : List (Nat × Word)} {x : Nat × Word} (h : fZero (segMax vein l) = true)
    (hx : x ∈ l) (hvein : x.1 ∉ vein) (hfin : fFinite x.2 = true) : fZero x.2 = true := by
  have hmem : x.2 ∈ (l.filter (fun x => !decide (x.1 ∈ vein))).map (·.2) :=
    List.mem_map_of_mem (List.mem_filter.2 ⟨hx, by simpa using hvein⟩)
  have hle := fAbs_le_maxAbs hmem hfin
  have hlt := maxAbs_lt ((l.filter (fun x => !decide (x.1 ∈ vein))).map (·.2))
  rw [toNat_fAbs] at hle
  rw [fZero, decide_eq_true_eq] at h ⊢
  rw [segMax, Nat.mod_eq_of_lt hlt] at h
  omega

theorem fVal_of_fZero {x : Word} (h : fZero x = true) : fVal x = ⟨0, -149⟩ := by
  obtain ⟨-, -, hmag⟩ := fExp_fFrac x
  rw [fZero, decide_eq_true_eq, hmag] at h
  have hexp : fExp x = 0 := by omega
  have hfrac : fFrac x = 0 := by omega
  simp [fVal, hexp, hfrac]

theorem rne_zero_fst (p : Nat) (emin e : Int) : (rne p emin 0 e).1 = 0 := by
  simp only [rne]
  split
  · rfl
  · simp [Nat.ne_of_lt (Nat.two_pow_pos _)]

theorem not_dyLe_zero (e f : Int) : Dy.le ⟨1, e⟩ ⟨0, f⟩ = false := by
  obtain ⟨z, i, j, -, rfl, rfl, -⟩ := common_exponent e f f
  have hpos := Nat.two_pow_pos i
  rw [← Bool.not_eq_true]
  refine mt (dyLe_iff_units 1 0 i j z).1 ?_
  omega

theorem quot32_zero (e : Int) (s : Dy) : quot32 ⟨0, e⟩ s = some ⟨0, 0⟩ := by
  simp [quot32, quot, rne_zero_fst, not_dyLe_zero, belowMin, Dy.lt]

/-- A pattern is NaN, infinite or finite. -/
theorem word_cases (x : Word) : fNan x = true ∧ fInf x = false ∨ fNan x = false ∧ fInf x = true ∨
    fNan x = false ∧ fInf x = false ∧ fFinite x = true := by
  unfold fNan fInf fFinite
  by_cases hexp : fExp x = 255 <;> by_cases hfrac : fFrac x = 0 <;> simp [hexp, hfrac]

/-- Where the finite elements are zeros, no code depends on the scale: that of an infinity is qmax, every other is 0 (R84). -/
theorem quantInt_code_of_zero {x : Word} (h : fFinite x = true → fZero x = true) (s : Dy) :
    (quantInt 4 7 x s).code = if fInf x then (if fSign x then 9 else 7) else 0 := by
  unfold quantInt
  obtain ⟨hnan, hinf⟩ | ⟨hnan, hinf⟩ | ⟨hnan, hinf, hfin⟩ := word_cases x
  · simp [hnan, hinf]
  · simp [hnan, hinf, twosCode]
  · have hround : nearestAway ⟨0, 0⟩ = 0 := by decide
    have hsat : Dy.le ⟨15, -1⟩ ⟨0, 0⟩ = false := by decide
    simp [hnan, hinf, fVal_of_fZero (h hfin), quot32_zero, hround, hsat, twosCode]

theorem quantF4_code_of_zero {x : Word} (h : fFinite x = true → fZero x = true) (s : Dy) :
    (quantF4 x s).code = if fInf x then (if fSign x then 15 else 7) else 0 := by
  unfold quantF4
  obtain ⟨hnan, hinf⟩ | ⟨hnan, hinf⟩ | ⟨hnan, hinf, hfin⟩ := word_cases x
  · simp [hnan, hinf]
  · simp [hnan, hinf, f4Code]
  · have hround : f4Nearest ⟨0, 0⟩ = 0 := by decide
    have hsat : Dy.le (dy 7) ⟨0, 0⟩ = false := by decide
    simp [hnan, hinf, fVal_of_fZero (h hfin), quot32_zero, hround, hsat, f4Code]

theorem quantSeg_of_fZero {q : QPoint} {carried : Option Half} {cold : Bool} {left : Nat} {vein : List Nat} {l : List (Nat × Word)}
    (h : fZero (segMax vein l) = true) :
    (quantSeg q carried cold left vein l).scale = 0x3F80 ∧
      (quantSeg q carried cold left vein l).coded = codeSeg (decide (q.format = 1)) (bVal 0x3F80) vein l := by
  cases carried <;> simp [quantSeg, liveScale, h]

/-- Settles O10: in either mode scale and codes are those of LIVE, where every finite element is a zero. -/
theorem zeroSegmentsTakeScaleOne : Obligations.ZeroSegmentsTakeScaleOne := by
  intro q carried cold left vein l hzero
  obtain ⟨hscale, hcoded⟩ := quantSeg_of_fZero (q := q) (carried := carried) (cold := cold) (left := left) hzero
  refine ⟨hscale, ?_⟩
  simp only [hcoded, codeSeg, codedOf, List.map_map]
  refine List.map_congr_left fun x hx => ?_
  simp only [Function.comp_apply, decide_eq_true_eq]
  split
  · rfl
  next hvein =>
    have helem := fZero_of_fZero_segMax hzero hx hvein
    split
    · exact quantF4_code_of_zero helem _
    · exact quantInt_code_of_zero helem _

end Sys2Proof.Proofs
end

section
/-! Proofs about adapters (chapter 10): the last check of a command, what freeing an object changes, and R311. -/

namespace Sys2Proof.Proofs

open Sys2Proof.Machine Sys2Proof.Laws

/-! ## The last check of a command (R372) -/

/-- Where the checks before the last pass, the last one decides. -/
theorem checked_last {c : Cmd} {l : List (Bool × Status)} {fails : Bool} {st : Status} {s : State} {k : Reply}
    (hhead : c.headReserved = false) (hpass : ∀ p ∈ l, p.1 = false) :
    checked c false (l ++ [(fails, st)]) s k = if fails then .done st 0 s else k := by
  cases fails with
  | false => exact checked_pass hhead (by simpa [or_imp, forall_and] using hpass)
  | true =>
    have hnone : l.find? (·.1) = none := List.find?_eq_none.2 fun p hp => by simp [hpass p hp]
    have hfirst : firstFail ((false, .unsupported) :: (c.headReserved, .badField) :: (l ++ [(true, st)])) = some st := by
      simp [firstFail, hhead, hnone]
    simp only [checked, hfirst, if_true]

/-! ## An object is freed (R293) -/

@[simp] theorem freePages_objs (ps : List PageAt) (s : State) : (freePages ps s).tiers.objs = s.tiers.objs := by
  refine List.foldlRecOn (motive := fun t : Tiers => t.objs = s.tiers.objs) ps _ rfl fun t ht p _ => ?_
  cases p <;> exact ht

@[simp] theorem dropRefs_tiers (dva : Nat) (s : State) : (dropRefs dva s).tiers = s.tiers := rfl

theorem dropObject_models (dva : Nat) (s : State) : (dropObject dva s).models = s.models :=
  dropObject_does.frame .models (by decide)

theorem dropObject_objs (dva : Nat) (s : State) :
    (dropObject dva s).tiers.objs = s.tiers.objs.filter (fun o => decide (o.dva ≠ dva)) := by
  unfold dropObject
  split
  next => simp
  next hobj =>
    rw [State.obj, List.find?_eq_none] at hobj
    exact (List.filter_eq_self.2 fun o ho => by simpa using hobj o ho).symm

/-! ## ADAPTER_DROP (R311) -/

/-- The state in which an adapter is listed no more. -/
def unlistAdapter (dva : Nat) (s : State) : State :=
  { s with models := { s.models with adapters := s.models.adapters.filter (fun a => decide (a.dva ≠ dva)) } }

theorem adapter_unlistAdapter (dva : Nat) (s : State) : (unlistAdapter dva s).adapter dva = none := by
  simp [State.adapter, unlistAdapter]

theorem adapter_dropObject (dva id : Nat) (s : State) : (dropObject dva s).adapter id = s.adapter id := by
  rw [State.adapter, dropObject_models, State.adapter]

/-- The answer to `ADAPTER_DROP` of an adapter, where its entry is sound. -/
theorem adapterDrop_eq {s : State} {c : Cmd} {a : Adapter} (hhead : c.headReserved = false)
    (hargs : c.argReserved all64 0 0 0 0 = false) (hlen : c.sub.payLen = 0) (hadapter : s.adapter (c.arg 0) = some a) :
    adapterDrop c s =
      if s.boundToStream (c.arg 0) || s.namedByPlan (c.arg 0) || s.migrating (c.arg 0) then .done .wrongState 0 s
      else .done .ok 0 (dropObject (c.arg 0) (unlistAdapter (c.arg 0) s)) := by
  have hfields : (c.argReserved all64 0 0 0 0 || decide (c.sub.payLen ≠ 0) || (s.adapter (c.arg 0)).isNone) = false := by
    simp [hargs, hlen, hadapter]
  exact checked_last (l := [(_, .badField)]) hhead (List.forall_mem_singleton.2 hfields)

/-- Settles O13: past its field checks the command has one check left, whether something holds the adapter; passing it, it frees the object. -/
theorem adapterDropNeedsAnUnboundAdapter : Obligations.AdapterDropNeedsAnUnboundAdapter := by
  intro s r c a hstarts hargs hlen hadapter
  have hbody := adapterDrop_eq hstarts.head hargs hlen hadapter
  have hrow {st : Status} {t : State} (h : adapterDrop c s = .done st 0 t) : exec (.adapterDrop r) s = .next (finish c.id st 0 t) :=
    congrArg Host.Outcome.next (iarik_done hstarts h)
  refine ⟨fun hbound => hrow ?_, fun _ hheld => hrow ?_, fun hbound hplan hmigr => ?_⟩
  · simp [hbody, hbound]
  · obtain h | h := hheld <;> simp [hbody, h]
  · have hdone : adapterDrop c s = .done .ok 0 (dropObject (c.arg 0) (unlistAdapter (c.arg 0) s)) := by
      simp [hbody, hbound, hplan, hmigr]
    exact ⟨_, hrow hdone, (adapter_dropObject ..).trans (adapter_unlistAdapter ..), dropObject_objs ..⟩

end Sys2Proof.Proofs
end

section
/-! Proofs about the error ring (chapter 17): where the entries of a new record go, what a record leaves in the counters and the
error block, and R495 with R496. -/

namespace Sys2Proof.Proofs

open Sys2Proof.Machine Sys2Proof.Laws

/-! ## Counters (R499) -/

@[simp] theorem count_err (off : Nat) (s : State) : (count off s).err = s.err := rfl
@[simp] theorem count_tbu (off : Nat) (s : State) : (count off s).tbu = s.tbu := rfl
theorem count_cnt (off : Nat) (s : State) : (count off s).cnt = mset s.cnt off (min (mgetD s.cnt off 0 + 1) 0xFFFFFFFF) := rfl

theorem mgetD_count_same (off : Nat) (s : State) : mgetD (count off s).cnt off 0 = min (mgetD s.cnt off 0 + 1) 0xFFFFFFFF := by
  rw [count_cnt, mgetD_mset]

theorem mgetD_count_other {off k : Nat} (s : State) (h : k ≠ off) : mgetD (count off s).cnt k 0 = mgetD s.cnt k 0 := by
  rw [count_cnt, mgetD_mset_other _ _ _ h]

/-- The class counters are none of the other counters that a record raises: `ERR_LOST` stands before them, `records_merged` after. -/
theorem errCnt_ne_lost (i : Nat) : errCnt i ≠ 0x40010 := by
  unfold errCnt
  omega

theorem errCnt_class_ne_merged (cls : ErrClass) : errCnt cls.code ≠ errCnt 6 := by
  cases cls <;> decide

/-! ## Entries written at the tail -/

@[simp] theorem push_entries (l : List ErrEntry) (e : Err) : (e.push l).entries = e.entries + l.length := by
  induction l generalizing e with
  | nil => rfl
  | cons x l ih => simp only [Err.push, ih, List.length_cons]; omega

@[simp] theorem push_overrun (l : List ErrEntry) (e : Err) : (e.push l).overrun = e.overrun := by
  induction l generalizing e with
  | nil => rfl
  | cons x l ih => simp only [Err.push, ih]

/-- An entry that the tail does not pass stays as it was. -/
theorem mget_push_other {j : Nat} (l : List ErrEntry) {e : Err} (htail : e.tail < 256)
    (hj : ∀ k < l.length, (e.tail + k) % 256 ≠ j) : mget (e.push l).ring j = mget e.ring j := by
  induction l generalizing e with
  | nil => rfl
  | cons x l ih =>
    have hfirst : j ≠ e.tail := fun h => hj 0 (by simp) ((Nat.mod_eq_of_lt htail).trans h.symm)
    have hrest : ∀ k < l.length, ((e.tail + 1) % 256 + k) % 256 ≠ j := fun k hk h =>
      hj (k + 1) (by simpa using hk) (by omega)
    exact (ih (Nat.mod_lt _ (by decide)) hrest).trans (mget_mset_other _ _ hfirst)

/-- The first of at most 256 entries is the one at the old tail: the others do not come round to it. -/
theorem mget_push_tail {x : ErrEntry} {l : List ErrEntry} {e : Err} (hlen : l.length < 256) :
    mget (e.push (x :: l)).ring e.tail = some x :=
  (mget_push_other l (Nat.mod_lt _ (by decide)) fun k hk => by simp only; omega).trans (mget_mset _ _ _)

/-! ## Where a new record goes (R495, R496) -/

/-- R496: the continuations that are written with the first entry: all of them, or none. -/
def fitting (e : Err) (conts : List ErrEntry) : List ErrEntry := if e.entries + conts.length < 256 then conts else []

theorem fitting_of_fits {e : Err} {conts : List ErrEntry} (h : e.entries + conts.length < 256) : fitting e conts = conts := if_pos h

theorem fitting_of_not_fits {e : Err} {conts : List ErrEntry} (h : 256 ≤ e.entries + conts.length) : fitting e conts = [] :=
  if_neg (Nat.not_lt.2 h)

theorem fitting_length_lt {e : Err} (conts : List ErrEntry) (hfree : e.entries < 256) : (fitting e conts).length < 256 := by
  unfold fitting
  split
  · omega
  · simp

theorem place_of_free {e : Err} (x : ErrEntry) (conts : List ErrEntry) (hfree : e.entries < 256) :
    e.place x conts = (e.push (x :: fitting e conts), false) := by
  have hfits : conts.length < 256 - e.entries ↔ e.entries + conts.length < 256 := by omega
  unfold Err.place fitting
  rw [if_neg (by omega)]
  simp only [hfits]
  split <;> rfl

/-- R495: the ring in which the newest entry is overwritten, unless its class is higher. -/
def overwritten (e : Err) (x : ErrEntry) : NMap ErrEntry :=
  match mget e.ring e.newest with
  | some y => if y.cls.code ≤ x.cls.code then mset e.ring e.newest x else e.ring
  | none => e.ring

theorem place_of_full {e : Err} (x : ErrEntry) (conts : List ErrEntry) (hfull : e.entries = 256) :
    e.place x conts = ({ e with ring := overwritten e x }, true) := by
  unfold Err.place overwritten
  rw [if_pos (by omega)]
  cases mget e.ring e.newest with
  | none => rfl
  | some y => dsimp only; split <;> rfl

theorem overwritten_other (e : Err) (x : ErrEntry) {k : Nat} (hk : k ≠ e.newest) : mget (overwritten e x) k = mget e.ring k := by
  unfold overwritten
  split
  · split
    · exact mget_mset_other _ _ hk
    · rfl
  · rfl

theorem overwritten_of_higher {e : Err} {x y : ErrEntry} (hnew : mget e.ring e.newest = some y) (h : x.cls.code < y.cls.code) :
    mget (overwritten e x) e.newest = some y := by
  simp [overwritten, hnew, Nat.not_le.2 h]

theorem overwritten_of_le {e : Err} {x y : ErrEntry} (hnew : mget e.ring e.newest = some y) (h : y.cls.code ≤ x.cls.code) :
    mget (overwritten e x) e.newest = some x := by
  simp [overwritten, hnew, h]

/-! ## What a record leaves in the counters and the error block -/

/-- The first entry of a new record (R491). -/
def firstEntry (cls : ErrClass) (code : Nat) (i : RecInfo) (s : State) : ErrEntry :=
  { recSeq := s.err.recSeq, cls := cls, cont := false, prior := false, scope := if cls = .ft then i.scope else 0,
    code := code, time := i.time.getD s.tbu.now, planId := i.planId, cmdSeq := i.cmdSeq, status := i.status, count := 1,
    detail := detail32 i.detail }

/-- A continuation entry of a new record. -/
def contEntry (cls : ErrClass) (s : State) (d : Bytes) : ErrEntry :=
  { recSeq := s.err.recSeq, cls := cls, cont := true, prior := false, scope := 0, code := 0, time := 0, planId := 0,
    cmdSeq := 0, status := 0, count := 0, detail := detail32 d }

/-- The ring with a new record placed, and the mark of a lost record. -/
def placed (cls : ErrClass) (code : Nat) (i : RecInfo) (s : State) : Err × Bool :=
  s.err.place (firstEntry cls code i s) (i.conts.map (contEntry cls s))

/-- The error block once a new record is placed. -/
def loggedErr (cls : ErrClass) (code : Nat) (i : RecInfo) (s : State) : Err :=
  let p := placed cls code i s
  { p.1 with
    recSeq := (s.err.recSeq + 1) % 2 ^ 32
    overrun := p.1.overrun || p.2
    dgSeen := p.1.dgSeen || (decide (cls = .dg) && s.err.takes cls)
    ctSeen := p.1.ctSeen || (decide (cls = .ct) && s.err.takes cls)
    kept := if cls = .ft then some (firstEntry cls code i s) else p.1.kept
    waiting := addFollowUp ⟨cls, code, detail32 i.detail⟩ p.1.waiting }

/-- A lost record is counted in `ERR_LOST` (R495). -/
def countLost (lost : Bool) (s : State) : State := if lost then count 0x40010 s else s

/-- A record is reported: by interrupt and, where it is fatal, to AER. -/
def reported (cls : ErrClass) (s : State) : State :=
  let t := if s.err.irqEn && (decide (s.err.irqMin.toNat ≤ cls.code) || decide (cls = .ft)) then raiseVector s.err.vector.toNat s else s
  if cls = .ft then emit .aerInternal { t with host := { t.host with aerInternal := true } } else t

theorem countLost_err (lost : Bool) (s : State) : (countLost lost s).err = s.err := by
  cases lost <;> rfl

theorem reported_does {cls : ErrClass} {s : State} : Does [.host, .out] s (reported cls s) := by
  unfold reported
  extract_lets t
  have ht : Does [.host, .out] s t := Does.ite raiseVector_does Does.refl
  exact Does.ite (Does.then emit_does rfl (Does.set_host rfl _ ht)) ht

theorem reported_err (cls : ErrClass) (s : State) : (reported cls s).err = s.err := reported_does.frame .err (by decide)
theorem reported_cnt (cls : ErrClass) (s : State) : (reported cls s).cnt = s.cnt := reported_does.frame .cnt (by decide)

theorem record_of_merges {cls : ErrClass} {code : Nat} {i : RecInfo} {s : State}
    (h : s.err.merges cls code (detail32 i.detail) s.tbu.now = true) :
    record cls code i s = count (errCnt 6) { count (errCnt cls.code) s with err := s.err.merge } :=
  if_pos h

theorem record_of_not_merges {cls : ErrClass} {code : Nat} {i : RecInfo} {s : State}
    (h : s.err.merges cls code (detail32 i.detail) s.tbu.now = false) :
    record cls code i s =
      reported cls (countLost (placed cls code i s).2 { count (errCnt cls.code) s with err := loggedErr cls code i s }) := by
  refine (if_neg (ne_true_of_eq_false h)).trans ?_
  have herr := countLost_err (placed cls code i s).2 { count (errCnt cls.code) s with err := loggedErr cls code i s }
  unfold reported
  rw [herr]
  rfl

theorem record_err {cls : ErrClass} {code : Nat} {i : RecInfo} {s : State}
    (h : s.err.merges cls code (detail32 i.detail) s.tbu.now = false) : (record cls code i s).err = loggedErr cls code i s := by
  rw [record_of_not_merges h, reported_err, countLost_err]

theorem record_cnt {cls : ErrClass} {code : Nat} {i : RecInfo} {s : State}
    (h : s.err.merges cls code (detail32 i.detail) s.tbu.now = false) :
    (record cls code i s).cnt = (countLost (placed cls code i s).2 (count (errCnt cls.code) s)).cnt := by
  rw [record_of_not_merges h, reported_cnt]
  cases (placed cls code i s).2 <;> rfl

/-- R495: the class counter counts every record, merged, written or lost. -/
theorem mgetD_record_class (cls : ErrClass) (code : Nat) (i : RecInfo) (s : State) :
    mgetD (record cls code i s).cnt (errCnt cls.code) 0 = min (mgetD s.cnt (errCnt cls.code) 0 + 1) 0xFFFFFFFF := by
  cases h : s.err.merges cls code (detail32 i.detail) s.tbu.now with
  | true => rw [record_of_merges h, mgetD_count_other _ (errCnt_class_ne_merged cls), mgetD_count_same]
  | false =>
    rw [record_cnt h]
    cases (placed cls code i s).2 with
    | true => exact (mgetD_count_other _ (errCnt_ne_lost _)).trans (mgetD_count_same ..)
    | false => exact mgetD_count_same ..

section
variable {cls : ErrClass} {code : Nat} {i : RecInfo} {s : State}

/-- R496: where an entry is free, the first entry goes to the tail with the continuations that fit, and nothing is lost. -/
theorem placed_of_free (hfree : s.err.entries < 256) :
    placed cls code i s =
      (s.err.push (firstEntry cls code i s :: fitting s.err (i.conts.map (contEntry cls s))), false) :=
  place_of_free _ _ hfree

theorem placed_of_full (hfull : s.err.entries = 256) :
    placed cls code i s = ({ s.err with ring := overwritten s.err (firstEntry cls code i s) }, true) :=
  place_of_full _ _ hfull

theorem loggedErr_entries_of_free (hfree : s.err.entries < 256) :
    (loggedErr cls code i s).entries = s.err.entries + 1 + (fitting s.err (i.conts.map (contEntry cls s))).length := by
  rw [loggedErr, placed_of_free hfree]
  simp only [push_entries, List.length_cons]
  omega

theorem loggedErr_overrun_of_free (hfree : s.err.entries < 256) : (loggedErr cls code i s).overrun = s.err.overrun := by
  rw [loggedErr, placed_of_free hfree]
  simp

theorem loggedErr_tail_of_free (hfree : s.err.entries < 256) :
    mget (loggedErr cls code i s).ring s.err.tail = some (firstEntry cls code i s) := by
  rw [loggedErr, placed_of_free hfree]
  exact mget_push_tail (fitting_length_lt _ hfree)

/-- R495: a full ring keeps its entries but, at most, the newest. -/
theorem loggedErr_of_full (hfull : s.err.entries = 256) :
    (loggedErr cls code i s).entries = 256 ∧ (loggedErr cls code i s).head = s.err.head ∧ (loggedErr cls code i s).overrun = true ∧
      (loggedErr cls code i s).ring = overwritten s.err (firstEntry cls code i s) := by
  rw [loggedErr, placed_of_full hfull]
  exact ⟨hfull, rfl, Bool.or_true _, rfl⟩

theorem mgetD_record_lost (hnew : s.err.merges cls code (detail32 i.detail) s.tbu.now = false) (hfull : s.err.entries = 256) :
    mgetD (record cls code i s).cnt 0x40010 0 = min (mgetD s.cnt 0x40010 0 + 1) 0xFFFFFFFF := by
  rw [record_cnt hnew, placed_of_full hfull]
  exact (mgetD_count_same ..).trans (by rw [mgetD_count_other _ (errCnt_ne_lost _).symm])

end

/-- Settles O15: a record that does not merge is placed, at the tail where an entry is free and over the newest at most where none is. -/
theorem errorRingKeepsTheOldest : Obligations.ErrorRingKeepsTheOldest := by
  intro s cls code i _
  have hconts : (i.conts.map (contEntry cls s)).length = i.conts.length := List.length_map _
  refine ⟨mgetD_record_class cls code i s, fun hnew => ?_⟩
  rw [record_err hnew]
  refine ⟨fun hfits => ?_, fun hfree hlong => ?_, fun hfree => ?_, fun hfull => ?_⟩
  · have hfree : s.err.entries < 256 := Nat.lt_of_le_of_lt (Nat.le_add_right ..) hfits
    refine ⟨?_, loggedErr_overrun_of_free hfree⟩
    rw [loggedErr_entries_of_free hfree, fitting_of_fits (hconts.symm ▸ hfits), hconts]
  · refine ⟨?_, loggedErr_overrun_of_free hfree⟩
    rw [loggedErr_entries_of_free hfree, fitting_of_not_fits (hconts.symm ▸ hlong)]
    rfl
  · exact ⟨_, loggedErr_tail_of_free hfree, rfl, rfl, rfl, rfl⟩
  · obtain ⟨hentries, hhead, hoverrun, hring⟩ := loggedErr_of_full (cls := cls) (code := code) (i := i) hfull
    rw [hring]
    exact ⟨hentries, hhead, hoverrun, mgetD_record_lost hnew hfull, fun _ hk => overwritten_other _ _ hk, fun y hy =>
      ⟨overwritten_of_higher (x := firstEntry cls code i s) hy, fun hle => ⟨_, overwritten_of_le hy hle, rfl, rfl, rfl⟩⟩⟩

end Sys2Proof.Proofs
end

section
/-! Proofs about the whole machine: what every command does, and so what every step keeps. -/

namespace Sys2Proof.Proofs

open Sys2Proof Sys2Proof.Machine Sys2Proof.Safety Sys2Proof.Laws

/-! ## The whole machine -/

/-- What each command does: only the blocks listed for it change, it keeps the invariant, and lowers nothing that only rises. -/
theorem exec_does {s t : State} : ∀ {c : Instr}, exec c s = .next t → Does (touches c) s t
  | .nop .., h => execNop_does h
  | .identify .., h => execIdentify_does h
  | .timeSet .., h => execTimeSet_does h
  | .powerSet .., h => execPowerSet_does h
  | .modelCreate .., h => execModelCreate_does h
  | .modelStageBegin .., h => execModelStageBegin_does h
  | .modelShard .., h => execModelShard_does h
  | .modelStageEnd .., h => execModelStageEnd_does h
  | .modelCommit .., h => execModelCommit_does h
  | .modelAbort .., h => execModelAbort_does h
  | .modelRepair .., h => execModelRepair_does h
  | .modelDelete .., h => execModelDelete_does h
  | .adapterLoad .., h => execAdapterLoad_does h
  | .adapterDrop .., h => execAdapterDrop_does h
  | .tuneStart .., h => execTuneStart_does h
  | .tuneStop .., h => execTuneStop_does h
  | .streamOpen .., h => execStreamOpen_does h
  | .streamClose .., h => execStreamClose_does h
  | .streamSubmit .., h => execStreamSubmit_does h
  | .submitPayloadPlaced .., h => execSubmitPayloadPlaced_does h
  | .planLoad .., h => execPlanLoad_does h
  | .planStart .., h => execPlanStart_does h
  | .planStop .., h => execPlanStop_does h
  | .objectPlaceAlloc .., h => execObjectPlaceAlloc_does h
  | .objectPlaceFree .., h => execObjectPlaceFree_does h
  | .objectMigrate .., h => execObjectMigrate_does h
  | .pageCopyComplete .., h => execPageCopyComplete_does h
  | .maintStart .., h => execMaintStart_does h
  | .maintStatus .., h => execMaintStatus_does h
  | .groupForm .., h => execGroupForm_does h
  | .groupFormDissolve .., h => execGroupFormDissolve_does h
  | .groupLend .., h => execGroupLend_does h
  | .groupLendReclaim .., h => execGroupLendReclaim_does h
  | .groupStatus .., h => execGroupStatus_does h
  | .fwStage .., h => execFwStage_does h
  | .fwDelta .., h => execFwDelta_does h
  | .fwVerify .., h => execFwVerify_does h
  | .fwActivate .., h => execFwActivate_does h
  | .attest .., h => execAttest_does h
  | .lifecycleSet .., h => execLifecycleSet_does h
  | .selftest .., h => execSelftest_does h
  | .commandFetch .., h => execCommandFetch_does h
  | .forwardedCommand .., h => execForwardedCommand_does h
  | .sqTailDoorbell .., h => execSqTailDoorbell_does h
  | .cqHeadDoorbell .., h => execCqHeadDoorbell_does h
  | .qpEnable .., h => execQpEnable_does h
  | .qpDisable .., h => execQpDisable_does h
  | .sqFetchRetry .., h => execSqFetchRetry_does h
  | .coalesceTimerExpiry .., h => execCoalesceTimerExpiry_does h
  | .registerWrite .., h => execRegisterWrite_does h
  | .clearCounters .., h => execClearCounters_does h
  | .tbuNowRead .., h => execTbuNowRead_does h
  | .bar2BaseHiWrite .., h => execBar2BaseHiWrite_does h
  | .bar2Resize .., h => execBar2Resize_does h
  | .errHeadWrite .., h => execErrHeadWrite_does h
  | .hostBar2Access .., h => execHostBar2Access_does h
  | .poisonedWriteTlp .., h => execPoisonedWriteTlp_does h
  | .msixUnmask .., h => execMsixUnmask_does h
  | .dmaEnable .., h => execDmaEnable_does h
  | .dmaDisable .., h => execDmaDisable_does h
  | .dmaTailDoorbell .., h => execDmaTailDoorbell_does h
  | .dmaDescriptor .., h => execDmaDescriptor_does h
  | .dmaBusError .., h => execDmaBusError_does h
  | .flr, h => execFlr_does h
  | .perstN kind _, h => execPerstN_does (a0 := kind) h
  | .powerOnReset .., h => execPowerOnReset_does h
  | .warmRestart .., h => execWarmRestart_does h
  | .bootWatchdog .., h => execBootWatchdog_does h
  | .activation .., h => execActivation_does h
  | .activationReturnTimeout .., h => execActivationReturnTimeout_does h
  | .smbusTelemetryRequest, h => execSmbusTelemetryRequest_does h
  | .smbusRecoveryRequest .., h => execSmbusRecoveryRequest_does h
  | .mctpControlMessage .., h => execMctpControlMessage_does h
  | .smbusAddressMatch .., h => execSmbusAddressMatch_does h
  | .getVersion .., h => execGetVersion_does h
  | .getCapabilities .., h => execGetCapabilities_does h
  | .negotiateAlgorithms .., h => execNegotiateAlgorithms_does h
  | .getDigests .., h => execGetDigests_does h
  | .getCertificate .., h => execGetCertificate_does h
  | .challenge .., h => execChallenge_does h
  | .getMeasurements .., h => execGetMeasurements_does h
  | .wakeNLow, h => execWakeNLow_does h
  | .prochotNAssert, h => execProchotNAssert_does h
  | .prochotNRelease, h => execProchotNRelease_does h
  | .cadPpsEdge .., h => execCadPpsEdge_does h
  | .ppsHoldoverTimeout .., h => execPpsHoldoverTimeout_does h
  | .cadRefPresent, h => execCadRefPresent_does h
  | .cadRefLost, h => execCadRefLost_does h
  | .thermtrip, h => execThermtrip_does h
  | .thermalLimitTick .., h => execThermalLimitTick_does h
  | .supplyFault, h => execSupplyFault_does h
  | .entryBlockReady .., h => execEntryBlockReady_does h
  | .entryDelayExpired, h => execEntryDelayExpired_does h
  | .wakeExit .., h => execWakeExit_does h
  | .powerArbiterTick .., h => execPowerArbiterTick_does h
  | .pstateChangeComplete, h => execPstateChangeComplete_does h
  | .stepStart .., h => execStepStart_does h
  | .atTimeRelease .., h => execAtTimeRelease_does h
  | .stepEnd .., h => execStepEnd_does h
  | .stepStalled .., h => execStepStalled_does h
  | .queueCopy .., h => execQueueCopy_does h
  | .engineNop .., h => execEngineNop_does h
  | .wait .., h => execWait_does h
  | .waitSatisfied .., h => execWaitSatisfied_does h
  | .signal .., h => execSignal_does h
  | .resetCounter .., h => execResetCounter_does h
  | .atTime .., h => execAtTime_does h
  | .endStep .., h => execEndStep_does h
  | .fence .., h => execFence_does h
  | .fetchList .., h => execFetchList_does h
  | .multicast .., h => execMulticast_does h
  | .kvFetch .., h => execKvFetch_does h
  | .regulate .., h => execRegulate_does h
  | .bucketRequestIssue .., h => execBucketRequestIssue_does h
  | .fetchEntryArrival .., h => execFetchEntryArrival_does h
  | .fetchEntryError .., h => execFetchEntryError_does h
  | .fallbackDeadline .., h => execFallbackDeadline_does h
  | .lateEntryDrop .., h => execLateEntryDrop_does h
  | .streamPortLineWrite .., h => execStreamPortLineWrite_does h
  | .sweep .., h => execSweep_does h
  | .veinSweep .., h => execVeinSweep_does h
  | .transposeSweep .., h => execTransposeSweep_does h
  | .drain .., h => execDrain_does h
  | .post .., h => execPost_does h
  | .normStatCombine .., h => execNormStatCombine_does h
  | .quant .., h => execQuant_does h
  | .quantSegmentRelease .., h => execQuantSegmentRelease_does h
  | .send .., h => execSend_does h
  | .recv .., h => execRecv_does h
  | .collective .., h => execCollective_does h
  | .streamIo .., h => execStreamIo_does h
  | .wordCompletion .., h => execWordCompletion_does h
  | .slateSlotStart .., h => execSlateSlotStart_does h
  | .lineReadComplete .., h => execLineReadComplete_does h
  | .latchPositionFree .., h => execLatchPositionFree_does h
  | .reconstructionComplete .., h => execReconstructionComplete_does h
  | .blockProgramComplete .., h => execBlockProgramComplete_does h
  | .blockEraseComplete .., h => execBlockEraseComplete_does h
  | .slateDescriptor .., h => execSlateDescriptor_does h
  | .parityPass .., h => execParityPass_does h
  | .checkpointInterval .., h => execCheckpointInterval_does h
  | .checkpointCommit .., h => execCheckpointCommit_does h
  | .readCountThreshold .., h => execReadCountThreshold_does h
  | .relocationSwitch .., h => execRelocationSwitch_does h
  | .scrubPass .., h => execScrubPass_does h
  | .wearCheck .., h => execWearCheck_does h
  | .gcErase .., h => execGcErase_does h
  | .commitDecision .., h => execCommitDecision_does h
  | .commitAckTimeout .., h => execCommitAckTimeout_does h
  | .commitSwitch .., h => execCommitSwitch_does h
  | .commitDurable, h => execCommitDurable_does h
  | .shardReceived .., h => execShardReceived_does h
  | .tuneUpdateComplete .., h => execTuneUpdateComplete_does h
  | .boardRetrain .., h => execBoardRetrain_does h
  | .boardPatrol .., h => execBoardPatrol_does h
  | .poisonRewriteComplete .., h => execPoisonRewriteComplete_does h
  | .codecBlockReceived .., h => execCodecBlockReceived_does h
  | .dataFlit .., h => execDataFlit_does h
  | .badFlit .., h => execBadFlit_does h
  | .ackFlit .., h => execAckFlit_does h
  | .nakFlit .., h => execNakFlit_does h
  | .syncFlit .., h => execSyncFlit_does h
  | .timeFlit .., h => execTimeFlit_does h
  | .timeFlitSend, h => execTimeFlitSend_does h
  | .statusFlit .., h => execStatusFlit_does h
  | .statusFlitSend, h => execStatusFlitSend_does h
  | .ctrlFlit .., h => execCtrlFlit_does h
  | .joinRequest .., h => execJoinRequest_does h
  | .joinConfirm .., h => execJoinConfirm_does h
  | .portDown .., h => execPortDown_does h
  | .retrainComplete .., h => execRetrainComplete_does h
  | .routeTableApply .., h => execRouteTableApply_does h
  | .managerLost .., h => execManagerLost_does h
  | .memberLost .., h => execMemberLost_does h
  | .reclaimNotice .., h => execReclaimNotice_does h
  | .reclaimLimit .., h => execReclaimLimit_does h
  | .flErase .., h => execFlErase_does h
  | .flProgram .., h => execFlProgram_does h
  | .flWord .., h => execFlWord_does h
  | .flPoll .., h => execFlPoll_does h
  | .sltRing .., h => execSltRing_does h
  | .sltPoll .., h => execSltPoll_does h
  | .flashOpComplete .., h => execFlashOpComplete_does h
  | .flashBusyRead .., h => execFlashBusyRead_does h
  | .controllerWriteFault .., h => execControllerWriteFault_does h
  | .followUp, h => execFollowUp_does h
  | .maintJobStart .., h => execMaintJobStart_does h
  | .bistRoundComplete .., h => execBistRoundComplete_does h
  | .forwardedResult .., h => execForwardedResult_does h
  | .stageReport .., h => execStageReport_does h
  | .commitAcknowledge .., h => execCommitAcknowledge_does h
  | .reclaimReport .., h => execReclaimReport_does h
  | .joinReply .., h => execJoinReply_does h
  | .memberReachTimeout .., h => execMemberReachTimeout_does h
  | .timeSetPpsTimeout .., h => execTimeSetPpsTimeout_does h
  | .slewComplete, h => execSlewComplete_does h
  | .powerLoss, h => execPowerLoss_does h
  | .clockFault, h => execClockFault_does h
  | .fwFault, h => execFwFault_does h
  | .mgmtUe, h => execMgmtUe_does h
  | .analogueChecksDone .., h => execAnalogueChecksDone_does h
  | .jtagInstruction .., h => execJtagInstruction_does h
theorem pending_not_mem_touches (c : Instr) : Block.pending ∉ touches c := by
  cases c <;> exact of_decide_eq_true rfl

theorem step_of_pending_nil {s : State} (h : s.pending = []) : step s = .next s := by
  simp only [step, h]

theorem step_of_pending_cons {s : State} {c : Instr} {rest : List Instr} (h : s.pending = c :: rest) :
    step s = exec c { s with pending := rest } := by
  simp only [step, h]

/-- A step keeps what every command and every change of the queue keeps. -/
theorem step_keeps {R : State → State → Prop} (hrefl : ∀ s, R s s)
    (hexec : ∀ c rest s t, exec c { s with pending := rest } = .next t → R s t) {s t : State} (h : step s = .next t) : R s t := by
  cases hp : s.pending with
  | nil =>
    rw [step_of_pending_nil hp] at h
    cases h
    exact hrefl s
  | cons c rest =>
    rw [step_of_pending_cons hp] at h
    exact hexec c rest s t h

theorem pending_does (rest : List Instr) (s : State) : Does [.pending] s { s with pending := rest } :=
  Does.set_pending rfl rest Does.refl

/-- Settles O1: the step's second case. -/
theorem stepRunsTheFrontCommand : Obligations.StepRunsTheFrontCommand := fun _ _ _ => step_of_pending_cons

/-- Settles O2: the step's first case. -/
theorem stepIdlesOnEmptyQueue : Obligations.StepIdlesOnEmptyQueue := fun _ => step_of_pending_nil

/-- Settles O3: the memories and the counters are empty, and so is the error ring. -/
theorem resetMeetsInvariant : Obligations.ResetMeetsInvariant where
  ram := rfl
  mgmt := rfl
  flash := rfl
  cnt := fun _ h => absurd h List.not_mem_nil
  ents := Nat.zero_le _
  head := Nat.zero_lt_succ _
  tail := rfl

/-- Settles O4: taking a command off the queue keeps the invariant, and so does the command. -/
theorem stepsKeepTheInvariant : Obligations.StepsKeepTheInvariant := fun _ _ hs h =>
  step_keeps (R := fun s t => Inv s → Inv t) (fun _ => id)
    (fun _ rest s _ he hs => (exec_does he).inv ((pending_does rest s).inv hs)) h hs

/-- Settles O5: taking a command off the queue lowers nothing, and neither does the command. -/
theorem nothingThatOnlyRisesFalls : Obligations.NothingThatOnlyRisesFalls := fun _ _ =>
  step_keeps rises_refl (fun _ rest s _ he => rises_trans (pending_does rest s).rises (exec_does he).rises)

/-- Settles O6: the frame of what each command does, and the queue is in no command's list. -/
theorem commandsKeepTheirFrame : Obligations.CommandsKeepTheirFrame := fun c _ _ h =>
  ⟨(exec_does h).frame, (exec_does h).frame .pending (pending_not_mem_touches c)⟩

end Sys2Proof.Proofs
end

section
/-! Proofs about the submission entry (chapter 12): little-endian fields that stand one after the other, and R365. -/

namespace Sys2Proof.Proofs

open Sys2Proof Sys2Proof.Machine

/-! ## Little-endian fields -/

@[simp] theorem length_toLE (n v : Nat) : (toLE n v).length = n := by
  induction n generalizing v with
  | zero => rfl
  | succ n ih => simp [toLE, ih]

theorem leNat_toLE (n v : Nat) : leNat (toLE n v) = v % 256 ^ n := by
  induction n generalizing v with
  | zero => simp [toLE, leNat, Nat.mod_one]
  | succ n ih => rw [Nat.pow_succ', Nat.mod_mul, ← ih, toLE, leNat, BitVec.toNat_ofNat]

theorem slice_zero_append {a : Bytes} {n : Nat} (b : Bytes) (h : a.length = n) : slice (a ++ b) 0 n = a := by
  simp [slice, ← h]

theorem slice_append {a : Bytes} {off : Nat} (b : Bytes) (n : Nat) (h : a.length ≤ off) :
    slice (a ++ b) off n = slice b (off - a.length) n := by
  rw [slice, List.drop_append, List.drop_eq_nil_of_le h, List.nil_append, slice]

/-- The field that stands first. -/
theorem u_toLE_append (n v : Nat) (b : Bytes) : u (toLE n v ++ b) 0 n = v % 256 ^ n := by
  rw [u, slice_zero_append b (length_toLE n v), leNat_toLE]

theorem u_toLE (n v : Nat) : u (toLE n v) 0 n = v % 256 ^ n := by
  simpa using u_toLE_append n v []

/-- A field that stands after another one. -/
theorem u_toLE_append_after {k off : Nat} (v : Nat) (b : Bytes) (n : Nat) (h : k ≤ off) :
    u (toLE k v ++ b) off n = u b (off - k) n := by
  rw [u, slice_append b n (by simpa using h), length_toLE, u]

/-! ## The submission entry (R365) -/

theorem length_subBytes (x : Submission) : (subBytes x).length = 64 := by
  simp [subBytes]

/-- Each field reads back modulo its width. -/
theorem parseSub_subBytes {x : Submission} (h : x.payLen < 2 ^ 32) : parseSub (subBytes x) = x := by
  simp (disch := omega) [parseSub, subBytes, List.append_assoc, u_toLE_append_after, u_toLE_append, u_toLE, Nat.mod_eq_of_lt]

/-- Settles O7: the fields stand one after the other, each at the offset and with the width that the parser reads. -/
theorem submissionEntriesRoundTrip : Obligations.SubmissionEntriesRoundTrip := fun x h =>
  ⟨length_subBytes x, parseSub_subBytes h⟩

end Sys2Proof.Proofs
end

section
/-! Proofs about completions and fetched entries (chapter 12): what posting a completion leaves, the duplicate tag of R366, and
the reserved bits of an entry's head (R372). -/

namespace Sys2Proof.Proofs

open Sys2Proof Sys2Proof.Machine Sys2Proof.Safety Sys2Proof.Laws

/-! ## A completion is posted (R368, R370) -/

theorem raiseVector_mbx (v : Nat) (s : State) : (raiseVector v s).mbx = s.mbx := raiseVector_does.frame .mbx (by decide)

theorem mem_out_raiseVector {o : Out} {s : State} (v : Nat) (h : o ∈ s.out) : o ∈ (raiseVector v s).out := by
  unfold raiseVector
  split
  · exact List.mem_append_left _ h
  · exact h

theorem pair_of_mbx {s t : State} (h : t.mbx = s.mbx) (q : Nat) : t.pair q = s.pair q := by rw [State.pair, h, State.pair]

/-- The interrupt of a pair: raised with its count of waiting completions cleared, or left. -/
theorem pairIrq_cases (q : Nat) (s : State) :
    pairIrq q s = s ∨ ∃ v, pairIrq q s = raiseVector v (updPair q (fun p => { p with unsig := 0 }) s) := by
  unfold pairIrq
  extract_lets p
  split
  · exact .inr ⟨_, rfl⟩
  · exact .inl rfl

theorem pair_pairIrq (q : Nat) (s : State) : ∃ n, (pairIrq q s).pair q = { s.pair q with unsig := n } := by
  obtain h | ⟨v, h⟩ := pairIrq_cases q s <;> rw [h]
  · exact ⟨(s.pair q).unsig, rfl⟩
  · exact ⟨0, by rw [pair_of_mbx (raiseVector_mbx ..), pair_updPair]⟩

theorem pair_pairIrq_other {q r : Nat} (s : State) (hr : r ≠ q) : (pairIrq q s).pair r = s.pair r := by
  obtain h | ⟨v, h⟩ := pairIrq_cases q s <;> rw [h]
  rw [pair_of_mbx (raiseVector_mbx ..), pair_updPair_other _ _ hr]

theorem pairIrq_cmds (q : Nat) (s : State) : (pairIrq q s).mbx.cmds = s.mbx.cmds := by
  obtain h | ⟨v, h⟩ := pairIrq_cases q s <;> rw [h]
  rw [raiseVector_mbx]; rfl

theorem mem_out_pairIrq {o : Out} {q : Nat} {s : State} (ho : o ∈ s.out) : o ∈ (pairIrq q s).out := by
  obtain h | ⟨v, h⟩ := pairIrq_cases q s <;> rw [h]
  · exact ho
  · exact mem_out_raiseVector v ho

/-- The pair once a completion stands at its tail. -/
def completed (tag : Half) (dup : Bool) (p : QPair) : QPair :=
  { p with
    cqTail := if p.cqTail + 1 = p.n then 0 else p.cqTail + 1
    phase := if p.cqTail + 1 = p.n then !p.phase else p.phase
    tagsRun := if dup then p.tagsRun else p.tagsRun.erase tag
    tagsPosted := p.tagsPosted ++ [tag]
    unsig := p.unsig + 1 }

/-- The state with a completion entry written at a pair's tail. -/
def cqWritten (q : Nat) (e : Bytes) (s : State) : State :=
  if (s.pair q).cqDva then writeDva ((s.pair q).cqBase.toNat + 16 * (s.pair q).cqTail) e s
  else emit (.hostWrite ((s.pair q).cqBase.toNat + 16 * (s.pair q).cqTail) e) s

theorem cqWritten_mbx (q : Nat) (e : Bytes) (s : State) : (cqWritten q e s).mbx = s.mbx := by
  unfold cqWritten
  split
  · exact writeDva_does.frame .mbx (by decide)
  · rfl

@[simp] theorem updPair_cmds (q : Nat) (f : QPair → QPair) (s : State) : (updPair q f s).mbx.cmds = s.mbx.cmds := rfl

theorem updPair_congr {q : Nat} {f g : QPair → QPair} {s : State} (h : f (s.pair q) = g (s.pair q)) : updPair q f s = updPair q g s := by
  rw [updPair, h, updPair]

/-- A pair in service whose completion queue takes the entry gets it, and its interrupt is looked at. -/
theorem postCq_eq {q : Nat} {s : State} (tag : Half) (st cflags result : Nat) (dup : Bool) (hen : (s.pair q).enable = true)
    (hw : (s.pair q).cqDva = true → s.writable ((s.pair q).cqBase.toNat + 16 * (s.pair q).cqTail) 16 = true) :
    postCq q tag st cflags result dup s = pairIrq q (updPair q (completed tag dup)
      (cqWritten q (cqEntry tag st cflags (s.pair q).sqHead result (s.pair q).phase) s)) := by
  have hw' : ((s.pair q).cqDva && !s.writable ((s.pair q).cqBase.toNat + 16 * (s.pair q).cqTail) 16) = false := by
    cases h : (s.pair q).cqDva <;> simp [hw, h]
  have hpair := pair_of_mbx (cqWritten_mbx q (cqEntry tag st cflags (s.pair q).sqHead result (s.pair q).phase) s) q
  simp only [postCq, hen, hw', Bool.not_true, Bool.false_eq_true, if_false]
  refine congrArg (pairIrq q) (updPair_congr (s := cqWritten q _ s) ?_)
  rw [hpair]
  simp only [completed, decide_eq_true_eq]

section
variable {q : Nat} {s : State} (tag : Half) (st cflags result : Nat) (dup : Bool) (hen : (s.pair q).enable = true)
  (hw : (s.pair q).cqDva = true → s.writable ((s.pair q).cqBase.toNat + 16 * (s.pair q).cqTail) 16 = true)
include hen hw

theorem pair_postCq : ∃ n, (postCq q tag st cflags result dup s).pair q = { completed tag dup (s.pair q) with unsig := n } := by
  rw [postCq_eq tag st cflags result dup hen hw]
  obtain ⟨n, h⟩ := pair_pairIrq q (updPair q (completed tag dup)
    (cqWritten q (cqEntry tag st cflags (s.pair q).sqHead result (s.pair q).phase) s))
  exact ⟨n, by rw [h, pair_updPair, pair_of_mbx (cqWritten_mbx ..)]⟩

theorem postCq_cmds_of_posted : (postCq q tag st cflags result dup s).mbx.cmds = s.mbx.cmds := by
  rw [postCq_eq tag st cflags result dup hen hw, pairIrq_cmds, updPair_cmds, cqWritten_mbx]

theorem pair_postCq_other {r : Nat} (hr : r ≠ q) : (postCq q tag st cflags result dup s).pair r = s.pair r := by
  rw [postCq_eq tag st cflags result dup hen hw, pair_pairIrq_other _ hr, pair_updPair_other _ _ hr, pair_of_mbx (cqWritten_mbx ..)]

end

theorem mem_out_postCq {q : Nat} {s : State} (tag : Half) (st cflags result : Nat) (dup : Bool) (hen : (s.pair q).enable = true)
    (hhost : (s.pair q).cqDva = false) :
    .hostWrite ((s.pair q).cqBase.toNat + 16 * (s.pair q).cqTail) (cqEntry tag st cflags (s.pair q).sqHead result (s.pair q).phase) ∈
      (postCq q tag st cflags result dup s).out := by
  rw [postCq_eq tag st cflags result dup hen (fun h => by simp [hhost] at h)]
  exact mem_out_pairIrq (by simp [cqWritten, hhost])

/-- Settles O12: the entry is written to host memory and the pair is completed. -/
theorem completionsArePosted : Obligations.CompletionsArePosted := by
  intro s q tag st cflags result p hen hhost t
  have hw : (s.pair q).cqDva = true → s.writable ((s.pair q).cqBase.toNat + 16 * (s.pair q).cqTail) 16 = true :=
    fun h => absurd (hhost.symm.trans h) Bool.false_ne_true
  obtain ⟨n, hpair⟩ := pair_postCq tag st cflags result false hen hw
  refine ⟨mem_out_postCq tag st cflags result false hen hhost, ?_⟩
  rw [show t.pair q = _ from hpair]
  exact ⟨rfl, rfl, rfl, rfl, fun r hr => pair_postCq_other tag st cflags result false hen hw hr⟩

/-! ## An entry is fetched (R364, R366) -/

/-- The state with the entry at a pair's `sq_head` taken. -/
def headTaken (q : Nat) (s : State) : State :=
  updPair q (fun p => { p with sqHead := (p.sqHead + 1) % p.n, retry := false }) { s with mbx := { s.mbx with lastServed := q } }

theorem pair_headTaken (q : Nat) (s : State) :
    (headTaken q s).pair q = { s.pair q with sqHead := ((s.pair q).sqHead + 1) % (s.pair q).n, retry := false } :=
  pair_updPair ..

theorem acceptEntry_of_inUse {q : Nat} {b : Bytes} {s : State} (h : (s.pair q).inUse (parseSub b).tag = true) :
    acceptEntry q b s = postCq q (parseSub b).tag 0x0002 0x4000 0 true (headTaken q s) :=
  if_pos h

theorem execCommandFetch_eq {s : State} {q : Nat} {bus : BusRead} {b : Bytes} (hq : s.nextPair = some q) (hb : s.sqEntry q bus = some b) :
    exec (.commandFetch bus) s = .next (acceptEntry q b s) := by
  simp only [exec, execCommandFetch, hq, fetchFrom, hb]

theorem enable_of_nextPair {s : State} {q : Nat} (h : s.nextPair = some q) : (s.pair q).enable = true := by
  have hf := List.find?_some h
  simp only [State.fetchable, Bool.and_eq_true] at hf
  simp only [hf]

/-- R363: where a completion queue in the device's range cannot take the entry, the completion is lost and the tag is freed. -/
theorem postCq_of_lost {q : Nat} {s : State} (tag : Half) (st cflags result : Nat) (dup : Bool) (hen : (s.pair q).enable = true)
    (hdva : (s.pair q).cqDva = true) (hw : s.writable ((s.pair q).cqBase.toNat + 16 * (s.pair q).cqTail) 16 = false) :
    postCq q tag st cflags result dup s = updPair q (fun p => { p with
      ringErr := true, tagsRun := if dup then (s.pair q).tagsRun else (s.pair q).tagsRun.erase tag }) s := by
  simp only [postCq, hen, hdva, hw, Bool.not_true, Bool.not_false, Bool.and_self, Bool.false_eq_true, if_false, if_true]

/-- Settles O11: the entry's completion is posted as a duplicate's, which frees no tag. -/
theorem tagsInUseAreRefused : Obligations.TagsInUseAreRefused := by
  intro s q bus b p x a hq hb huse
  have hinUse : (s.pair q).inUse (parseSub b).tag = true := by simpa [QPair.inUse] using huse
  refine ⟨_, execCommandFetch_eq hq hb, ?_⟩
  rw [acceptEntry_of_inUse hinUse]
  have hpair := pair_headTaken q s
  have hen : ((headTaken q s).pair q).enable = true := by rw [hpair]; exact enable_of_nextPair hq
  have hdva : ((headTaken q s).pair q).cqDva = p.cqDva := by rw [hpair]
  have haddr : ((headTaken q s).pair q).cqBase.toNat + 16 * ((headTaken q s).pair q).cqTail = a := by rw [hpair]
  have hwr (n : Nat) : (headTaken q s).writable n 16 = s.writable n 16 := rfl
  cases hlost : p.cqDva && !s.writable a 16 with
  | true =>
    obtain ⟨hd, hnw⟩ : p.cqDva = true ∧ s.writable a 16 = false := by simpa using hlost
    rw [postCq_of_lost _ _ _ _ _ hen (hdva.trans hd) (by rw [haddr, hwr, hnw])]
    refine ⟨rfl, by rw [pair_updPair, hpair]; rfl, fun h => ?_, fun _ h => ?_⟩
    · exact absurd (hd.symm.trans h) Bool.false_ne_true.symm
    · exact absurd (h.symm.trans hnw) Bool.false_ne_true.symm
  | false =>
    have hw : ((headTaken q s).pair q).cqDva = true → (headTaken q s).writable
        (((headTaken q s).pair q).cqBase.toNat + 16 * ((headTaken q s).pair q).cqTail) 16 = true := by
      rw [hdva, haddr, hwr]
      intro hd
      simpa [hd] using hlost
    obtain ⟨n, hdone⟩ := pair_postCq x.tag 0x0002 0x4000 0 true hen hw
    refine ⟨postCq_cmds_of_posted _ _ _ _ _ hen hw, ?_, fun hhost => ⟨?_, ?_⟩, fun _ _ => ?_⟩
    · rw [hdone, hpair]; rfl
    · rw [hdone, hpair]; rfl
    · have hmem := mem_out_postCq x.tag 0x0002 0x4000 0 true hen (hdva.trans hhost)
      rwa [haddr, hpair] at hmem
    · rw [hdone, hpair]; rfl

/-! ## A reserved bit in the head (R372 check 3) -/

theorem checked_of_headReserved {c : Cmd} {l : List (Bool × Status)} {s : State} {k : Reply} (h : c.headReserved = true) :
    checked c false l s k = .done .badField 0 s := by
  simp [checked, firstFail, h]

/-- A command that starts here ends with the answer of its body. -/
theorem iarik_of_done {op : Nat} {r : CmdRef} {pay : BusRead} {body : Cmd → State → Reply} {s t : State} {c : Cmd} {st : Status} {n : Nat}
    (hfound : s.startable r op = some c) (hrole : s.roleRefuses c = false) (hhere : s.fwdCheck c = none) (hmine : s.fwdMember c = none)
    (hbody : body c s = .done st n t) : iarik op r pay body s = finish c.id st n t := by
  simp only [iarik, hfound, hrole, hhere, hmine, carryOut, hbody, Bool.false_eq_true, if_false]

theorem finish_pwr (id : Nat) (st : Status) (n : Nat) (s : State) : (finish id st n s).pwr = s.pwr := finish_does.frame .pwr (by decide)

/-- A `POWER_SET` that asks for no entry has no handshake to run. -/
theorem execPowerSet_of_done {r : CmdRef} {s t : State} {id : Nat} {st : Status} {n : Nat} (h : iarik 0x0003 r none powerSet s = finish id st n t)
    (hentry : t.pwr.entry = s.pwr.entry) : exec (.powerSet r) s = .next (finish id st n t) := by
  have hstays : (s.pwr.entry.isNone && (finish id st n t).pwr.entry.isSome) = false := by
    rw [finish_pwr, hentry]
    cases s.pwr.entry <;> rfl
  simp only [exec, execPowerSet, h, hstays, Bool.false_eq_true, if_false]

/-- Settles O14: the head's reserved bits are the first check of every one of the bodies. -/
theorem reservedHeadsAreRejected : Obligations.ReservedHeadsAreRejected := by
  intro s r pay c p hp hfound hrole hhere hmine hhead
  have row {op : Nat} {pay : BusRead} {body : Cmd → State → Reply} {l : List (Bool × Status)} {k : Reply}
      (hfound : s.startable r op = some c) (hbody : body c s = checked c false l s k) :
      (.next (iarik op r pay body s) : Host.Outcome State Fault Refusal) = .next (finish c.id .badField 0 s) :=
    congrArg Host.Outcome.next (iarik_of_done hfound hrole hhere hmine (hbody.trans (checked_of_headReserved hhead)))
  by_cases hpower : p = (0x0003, .powerSet r)
  · subst hpower
    exact execPowerSet_of_done (iarik_of_done hfound hrole hhere hmine (checked_of_headReserved hhead)) rfl
  by_cases hbegin : p = (0x0101, .modelStageBegin r pay)
  · subst hbegin
    exact congrArg Host.Outcome.next (iarik_of_done hfound hrole hhere hmine (congrArg refused (checked_of_headReserved hhead)))
  by_cases hstage : p = (0x0800, .fwStage r pay)
  · subst hstage
    exact congrArg Host.Outcome.next (iarik_of_done hfound hrole hhere hmine (congrArg refused (checked_of_headReserved hhead)))
  simp only [List.mem_cons, List.not_mem_nil, hpower, hbegin, hstage, false_or, or_false] at hp
  rcases hp with rfl | rfl | rfl | rfl | rfl | rfl | rfl | rfl | rfl | rfl | rfl | rfl | rfl | rfl | rfl | rfl | rfl | rfl | rfl <;>
    exact row hfound rfl

end Sys2Proof.Proofs
end

section
/-! Proofs about the doorbells and enables of the queue pairs (chapter 12, R361-R364, R370). -/

namespace Sys2Proof.Proofs

open Sys2Proof Sys2Proof.Machine Sys2Proof.Safety Sys2Proof.Laws

/-! ## Accesses of the host (R471) -/

/-- A device that is awake carries an access out as it comes. -/
theorem busAccess_of_awake {s : State} (h : Awake s) (x : HostAcc) (bar off value : Nat) (k : State → State) :
    busAccess x bar off value k s = k s := by
  simp only [busAccess, h.run, h.up, h.started, Bool.false_eq_true, if_false]

/-! ## Doorbells and enables (R361-R363) -/

theorem sqTailWrite_of_lt {q v : Nat} {s : State} (hq : q < 64) (hn : v < (s.pair q).n) (hv : v < 1024) :
    sqTailWrite q v s = updPair q (fun p => { p with sqTail := v }) s := by
  simp only [sqTailWrite, Nat.not_le.2 hq, Nat.not_le.2 hv, Nat.not_le.2 hn, if_false]

theorem cqHeadWrite_of_lt {q v : Nat} {s : State} (hq : q < 64) (hn : v < (s.pair q).n) (hv : v < 1024) :
    cqHeadWrite q v s = updPair q (fun p => { p with cqHead := v, tagsPosted := p.tagsPosted.drop ((v + p.n - p.cqHead) % p.n) }) s := by
  simp only [cqHeadWrite, Nat.not_le.2 hq, Nat.not_le.2 hv, Nat.not_le.2 hn, if_false]

/-- A pair that comes into service, its indices 0. -/
def enabled (v : Nat) (ready : Bool) (p : QPair) : QPair :=
  { p.withCtrl v with
    sqTail := 0, sqHead := 0, cqTail := 0, cqHead := 0, phase := true, tagsRun := [], tagsPosted := [], unsig := 0,
    retry := false, ready := ready }

theorem qpEnableWrite_of_disabled {q v : Nat} {s : State} (hq : q < 64) (hen : bit v 0 = true) (hres : bit v 7 = false)
    (hlo : 4 ≤ bits v 4 1) (hhi : bits v 4 1 ≤ 10) (hoff : (s.pair q).enable = false) :
    qpEnableWrite q v s = updPair q (enabled v (s.ready.mbx && (!s.sec.recovery || decide (q = 0)))) s := by
  simp only [qpEnableWrite, hen, hres, hoff, Nat.not_le.2 hq, Nat.not_lt.2 hlo, Nat.not_lt.2 hhi, decide_false, Bool.not_true,
    Bool.or_self, Bool.false_and, Bool.false_eq_true, if_false]
  rfl

theorem qpDisableWrite_of_lt {q v : Nat} {s : State} (hq : q < 64) (hen : bit v 0 = false) (hres : bit v 7 = false) :
    qpDisableWrite q v s = updPair q (fun p => { p.withCtrl v with ready := false }) (if (s.pair q).enable then disablePair q s else s) := by
  simp only [qpDisableWrite, hen, hres, Nat.not_le.2 hq, decide_false, Bool.or_self, Bool.false_eq_true, if_false]

/-- Settles O40: each row's checks pass, and what is left is the change of the pair. -/
theorem queuePairCommandsComplete : Obligations.QueuePairCommandsComplete := by
  refine ⟨?_, ?_, ?_, ?_, ?_, ?_, ?_⟩
  · intro s q bus hq
    simp only [exec, execCommandFetch, hq, fetchFrom] <;> rfl
  · intro s q bus b hen hretry hq hb
    simp only [exec, execSqFetchRetry, hen, hretry, hq, decide_true, Bool.and_self, if_true, fetchFrom, hb]
  · intro s q v hawake hq hn hv
    exact congrArg Host.Outcome.next ((busAccess_of_awake hawake ..).trans (sqTailWrite_of_lt hq hn hv))
  · intro s q v hawake hq hn hv
    exact congrArg Host.Outcome.next ((busAccess_of_awake hawake ..).trans (cqHeadWrite_of_lt hq hn hv))
  · intro s q v hawake hq hen hres hlo hhi hoff
    refine ⟨_, congrArg Host.Outcome.next
      ((busAccess_of_awake hawake ..).trans (qpEnableWrite_of_disabled hq hen hres hlo hhi hoff)), ?_⟩
    rw [pair_updPair]
    refine ⟨hen, ?_, rfl, rfl, rfl, rfl, rfl, rfl, rfl⟩
    exact congrArg (2 ^ ·) ((BitVec.toNat_ofNat ..).trans (Nat.mod_eq_of_lt (by omega)))
  · intro s q v hawake hq hen hres
    refine ⟨_, congrArg Host.Outcome.next ((busAccess_of_awake hawake ..).trans (qpDisableWrite_of_lt hq hen hres)), ?_⟩
    rw [pair_updPair]
    exact ⟨hen, rfl⟩
  · intro s q hirq hunsig
    simp only [exec, execCoalesceTimerExpiry, hirq, hunsig, decide_true, Bool.and_self, if_true]

end Sys2Proof.Proofs
end

section
/-! Proofs about the timebase (chapter 13, R209, R228, R415, R416) and the device commands of chapter 12 and 16 (R379, R380, R475). -/

namespace Sys2Proof.Proofs

open Sys2Proof Sys2Proof.Machine Sys2Proof.Safety Sys2Proof.Laws

/-! ## Corrections of the timebase (R209) -/

theorem plans_any_active {s : State} : s.plans.any (fun p => p.2.active) = false ↔ ∀ p ∈ s.plans, p.2.active = false := by
  simp [List.any_eq_false]

/-- A correction that is slewed. -/
theorem correctTo_slewed {target : Nat} {s : State} (hd : (target : Int) - s.tbu.now ≠ 0)
    (h : s.plans.any (fun p => p.2.active) = true ∨ ((target : Int) - s.tbu.now).natAbs ≤ 1000000) :
    correctTo target s = { s with tbu := { s.tbu with
      slewLeft := (target : Int) - s.tbu.now, slewFrom := s.tbu.now, slewing := true, holdTo := none } } := by
  have hslew : (s.plans.any (fun p => p.2.active) || decide (((target : Int) - s.tbu.now).natAbs ≤ 1000000)) = true := by simpa using h
  simp only [correctTo, hd, hslew, if_false, if_true]

/-- A step forwards. -/
theorem correctTo_forwards {target : Nat} {s : State} (hidle : ∀ p ∈ s.plans, p.2.active = false)
    (hd : 1000000 < (target : Int) - s.tbu.now) :
    correctTo target s = { s with tbu := { s.tbu with now := target, slewLeft := 0, slewing := false, holdTo := none } } := by
  have hne : (target : Int) - s.tbu.now ≠ 0 := by omega
  have hbig : ¬ ((target : Int) - s.tbu.now).natAbs ≤ 1000000 := by omega
  have hpos : 0 < (target : Int) - s.tbu.now := by omega
  simp only [correctTo, hne, plans_any_active.2 hidle, hbig, hpos, decide_false, Bool.or_self, Bool.false_eq_true, if_false, if_true]

/-- A step backwards is a hold. -/
theorem correctTo_backwards {target : Nat} {s : State} (hidle : ∀ p ∈ s.plans, p.2.active = false)
    (hd : (target : Int) - s.tbu.now < -1000000) :
    correctTo target s = { s with tbu := { s.tbu with slewLeft := 0, slewing := false, holdTo := some s.tbu.now } } := by
  have hne : (target : Int) - s.tbu.now ≠ 0 := by omega
  have hbig : ¬ ((target : Int) - s.tbu.now).natAbs ≤ 1000000 := by omega
  have hneg : ¬ 0 < (target : Int) - s.tbu.now := by omega
  simp only [correctTo, hne, plans_any_active.2 hidle, hbig, hneg, decide_false, Bool.or_self, Bool.false_eq_true, if_false]

theorem correctTo_takePhase (target : Nat) (s : State) : (correctTo target s).tbu.takePhase = s.tbu.takePhase := by
  unfold correctTo
  extract_lets d
  split
  · rfl
  split
  · rfl
  split <;> rfl

/-! ## The rows of the timebase (R228, R415, R416) -/

theorem execPpsHoldoverTimeout_eq {s : State} {t e : Nat} (hacc : s.tbu.lastAccepted = some e) (hlock : s.tbu.locked = true)
    (hsrc : s.tbu.source = 1) (htime : e + 1500000000 ≤ (reachTime t s).tbu.now) :
    exec (.ppsHoldoverTimeout t) s = .next { reachTime t s with tbu := { (reachTime t s).tbu with
      locked := false, source := 0, holdover := true, holdoverSeen := true, goodEdges := 0 } } := by
  have hacc' : (reachTime t s).tbu.lastAccepted = some e := hacc
  have hdue : ((reachTime t s).tbu.locked && decide ((reachTime t s).tbu.source = 1) &&
      decide (e + 1500000000 ≤ (reachTime t s).tbu.now)) = true := by
    rw [decide_eq_true htime, Bool.and_true]
    show (s.tbu.locked && decide (s.tbu.source = 1)) = true
    rw [hlock, hsrc]
    rfl
  simp only [exec, execPpsHoldoverTimeout, hacc', hdue, if_true]

/-- The one `TIME_SET` that waits meets no edge in time. -/
theorem execTimeSetPpsTimeout_single {s : State} {t id x m : Nat} (hset : s.tbu.ppsSet = [(id, x, m)])
    (htime : m + 2 * secondNs ≤ (reachTime t s).tbu.now) :
    exec (.timeSetPpsTimeout t) s =
      .next (finish id .aborted 0 { reachTime t s with tbu := { (reachTime t s).tbu with ppsSet := [] } }) := by
  have hset' : (reachTime t s).tbu.ppsSet = [(id, x, m)] := hset
  simp only [exec, execTimeSetPpsTimeout, hset', htime, List.filter_cons, List.filter_nil, decide_true, Bool.not_true,
    Bool.false_eq_true, if_true, if_false, forEach, List.foldl_cons, List.foldl_nil]

/-- Settles O46: each row's guard is a hypothesis, and a correction is one of its three cases. -/
theorem timebaseEventsComplete : Obligations.TimebaseEventsComplete := by
  refine ⟨?_, ?_, ?_, ?_, ?_, ?_, ?_⟩
  · intro s t rising hst hpol v w
    have hguard : ¬ (decide (s.spar.st = 2) || (rising == s.tbu.ppsPol)) = true := by simp [hst, hpol]
    exact congrArg Host.Outcome.next (if_neg hguard)
  · intro s t e hacc hlock hsrc htime
    exact ⟨_, execPpsHoldoverTimeout_eq hacc hlock hsrc htime, rfl, rfl, rfl, rfl⟩
  · intro s href
    exact ⟨_, congrArg Host.Outcome.next (if_pos href), rfl⟩
  · intro s
    exact ⟨_, rfl, rfl⟩
  · intro s t id x m hset v htime
    exact execTimeSetPpsTimeout_single hset htime
  · intro s target d
    refine ⟨fun h hd => correctTo_slewed hd h, fun hidle hd => ?_, fun hidle hd => ?_⟩
    · rw [correctTo_forwards hidle hd]
      exact ⟨rfl, rfl⟩
    · rw [correctTo_backwards hidle hd]
      exact ⟨rfl, fun t => rfl⟩
  · intro s
    rfl

/-! ## The device commands (R379, R380, R475) -/

theorem timeSet_now {s : State} {c : Cmd} (hhead : c.headReserved = false) (hargs : c.argReserved all64 1 0 0 0 = false)
    (hpps : c.fld 1 0 0 = 0) (hlen : c.sub.payLen = 0) (hst : s.spar.st ≠ 2) :
    let u := timeSetReady (correctTo (c.arg 0) { s with tbu := { s.tbu with takePhase := true } })
    timeSet c s = .done .ok u.tbu.now u := by
  simp only [timeSet, hpps]
  exact checked_pass hhead (by simp [hargs, hlen, hst])

theorem timeSet_at_pps {s : State} {c : Cmd} {e : Nat} (hhead : c.headReserved = false) (hargs : c.argReserved all64 1 0 0 0 = false)
    (hpps : c.fld 1 0 0 = 1) (hwhole : c.arg 0 % secondNs = 0) (hlen : c.sub.payLen = 0) (hst : s.spar.st ≠ 2)
    (hedge : s.tbu.lastEdge = some e) (hrecent : s.tbu.now ≤ e + 2 * secondNs) :
    timeSet c s = .running { s with tbu := { s.tbu with ppsSet := s.tbu.ppsSet ++ [(c.id, c.arg 0, s.tbu.now)] } } := by
  simp only [timeSet, hpps, hedge]
  exact checked_pass hhead (by simp [hargs, hwhole, hlen, hst, hrecent])

/-- The state with the cap and `p_fast` of a `POWER_SET` in force. -/
def capSet (c : Cmd) (s : State) : State :=
  retarget { s with pwr := { s.pwr with capW := if c.fld 0 15 0 = 0 then s.pwr.capW else c.fld 0 15 0, pFast := c.fld 0 21 20 } }

/-- A P-state change leaves everything of the power block but the change itself. -/
theorem retarget_pwr (s : State) : ∃ r p, (retarget s).pwr = { s.pwr with ramp := r, pstate := p } := by
  unfold retarget
  extract_lets w t
  split
  · exact ⟨_, _, rfl⟩
  · exact ⟨_, _, rfl⟩

theorem capSet_pwr (c : Cmd) (s : State) : ∃ r p, (capSet c s).pwr =
    { s.pwr with capW := if c.fld 0 15 0 = 0 then s.pwr.capW else c.fld 0 15 0, pFast := c.fld 0 21 20, ramp := r, pstate := p } :=
  retarget_pwr _

theorem powerSet_no_entry {s : State} {c : Cmd} (hhead : c.headReserved = false) (hargs : c.argReserved 0x37FFFF 0 0 0 0 = false)
    (hlen : c.sub.payLen = 0) (hst : c.fld 0 18 16 = 0)
    (hcap : c.fld 0 15 0 = 0 ∨ (150 ≤ c.fld 0 15 0 ∧ c.fld 0 15 0 ≤ s.part.variant.tdp)) :
    powerSet c s = .done .ok 0 (capSet c s) := by
  have hcap' : (decide (c.fld 0 15 0 ≠ 0) && (decide (c.fld 0 15 0 < 150) || decide (s.part.variant.tdp < c.fld 0 15 0))) = false := by
    simp only [Bool.and_eq_false_iff, Bool.or_eq_false_iff, decide_eq_false_iff_not]
    omega
  simp only [powerSet, hst]
  exact checked_pass hhead (by simp only [hargs, hlen, hcap']; simp)

/-- Settles O23: each command's checks pass; what is left is its effect. -/
theorem deviceCommandsComplete : Obligations.DeviceCommandsComplete := by
  refine ⟨?_, ?_, ?_, ?_, ?_⟩
  · intro s r c hstarts hargs hlen
    exact congrArg Host.Outcome.next (iarik_checked_done hstarts rfl (by simp [hargs, hlen]))
  · intro s r c hstarts hargs hlen
    exact congrArg Host.Outcome.next (iarik_checked_done hstarts rfl (by simp [hargs, hlen]))
  · intro s r c hstarts hargs hpps hlen hst
    refine ⟨_, congrArg Host.Outcome.next (iarik_done hstarts (timeSet_now hstarts.head hargs hpps hlen hst)), rfl, ?_, fun hd hidle => ?_⟩
    · exact correctTo_takePhase ..
    · have hstep : 1000000 < (c.arg 0 : Int) - (s.tbu.now : Int) := by omega
      exact congrArg (fun s : State => s.tbu.now) (correctTo_forwards (s := { s with tbu := { s.tbu with takePhase := true } }) hidle hstep)
  · intro s r c e hstarts hargs hpps hwhole hlen hst hedge hrecent
    exact congrArg Host.Outcome.next (iarik_running hstarts (timeSet_at_pps hstarts.head hargs hpps hwhole hlen hst hedge hrecent))
  · intro s r c hstarts hargs hlen hst hcap hentry
    obtain ⟨ramp, pstate, hpwr⟩ := capSet_pwr c s
    refine ⟨capSet c s, execPowerSet_of_done (iarik_done hstarts (powerSet_no_entry hstarts.head hargs hlen hst hcap)) ?_, ?_, ?_⟩
    all_goals rw [hpwr]

end Sys2Proof.Proofs
end

section
/-! Proofs about the engines' ordering words (chapters 06 and 07): what an engine's move past a word leaves as it was, the step a
free array takes (R211), and the counters (R206). -/

namespace Sys2Proof.Proofs

open Sys2Proof Sys2Proof.Machine Sys2Proof.Safety Sys2Proof.Laws

/-! ## The first step that is due (R211) -/

/-- One due step comes no later than another: by nominal start, then handle, then schedule. -/
def DueBefore (x y : Nat × Nat × Nat × Nat) : Prop :=
  x.1 < y.1 ∨ (x.1 = y.1 ∧ (x.2.1 < y.2.1 ∨ (x.2.1 = y.2.1 ∧ x.2.2.1 ≤ y.2.2.1)))

theorem DueBefore.refl (x : Nat × Nat × Nat × Nat) : DueBefore x x := .inr ⟨rfl, .inr ⟨rfl, Nat.le_refl _⟩⟩

theorem DueBefore.trans {x y z : Nat × Nat × Nat × Nat} (h : DueBefore x y) (h' : DueBefore y z) : DueBefore x z := by
  unfold DueBefore at *
  omega

theorem firstStep_eq_none {l : List (Nat × Nat × Nat × Nat)} : firstStep l = none ↔ l = [] := by
  cases l with
  | nil => simp [firstStep]
  | cons x l =>
    simp only [firstStep]
    split <;> simp
    split <;> simp

/-- The first step due is one of those due, and none comes before it. -/
theorem firstStep_spec {l : List (Nat × Nat × Nat × Nat)} {x : Nat × Nat × Nat × Nat} (h : firstStep l = some x) :
    x ∈ l ∧ ∀ y ∈ l, DueBefore x y := by
  induction l generalizing x with
  | nil => simp [firstStep] at h
  | cons z l ih =>
    simp only [firstStep] at h
    cases hrest : firstStep l with
    | none =>
      rw [hrest] at h
      obtain rfl := Option.some.inj h
      obtain rfl := firstStep_eq_none.1 hrest
      exact ⟨List.mem_singleton_self _, List.forall_mem_singleton.2 (DueBefore.refl _)⟩
    | some y =>
      obtain ⟨hmem, hfirst⟩ := ih hrest
      simp only [hrest] at h
      split at h
      next hlt =>
        obtain rfl := Option.some.inj h
        have hz : DueBefore y z := by unfold DueBefore; omega
        exact ⟨List.mem_cons_of_mem _ hmem, List.forall_mem_cons.2 ⟨hz, hfirst⟩⟩
      next hge =>
        obtain rfl := Option.some.inj h
        have hy : DueBefore z y := by unfold DueBefore; omega
        exact ⟨List.mem_cons_self, List.forall_mem_cons.2 ⟨DueBefore.refl _, fun w hw => hy.trans (hfirst w hw)⟩⟩

/-! ## Moving past a word (R212) -/

theorem arr_of_arrs {s t : State} (h : t.arrs = s.arrs) (a : Nat) : t.arr a = s.arr a := by rw [State.arr, h, State.arr]

theorem settleFetch_arrs (a : Nat) (s : State) : (settleFetch a s).arrs = s.arrs := settleFetch_does.frame .arrs (by decide)
theorem settleHub_arrs (h sc : Nat) (s : State) : (settleHub h sc s).arrs = s.arrs := settleHub_does.frame .arrs (by decide)

/-- An engine that goes on changes no array but its own. -/
theorem arr_advance_other {e : EngineId} {a : Nat} (s : State) (hf : e ≠ .fetch a) (he : e ≠ .exec a) : (advance e s).arr a = s.arr a := by
  cases e with
  | fetch b =>
    have hne : a ≠ b := fun h => hf (h ▸ rfl)
    exact (arr_of_arrs (settleFetch_arrs ..) a).trans (arr_updArr_other _ _ hne)
  | exec b =>
    have hne : a ≠ b := fun h => he (h ▸ rfl)
    exact arr_updArr_other _ _ hne
  | coll h sc => exact arr_of_arrs (settleHub_arrs ..) a
  | strm h sc => exact arr_of_arrs (settleHub_arrs ..) a

/-- The fetch engine that goes on stays in its step. -/
theorem cur_advance_fetch (a : Nat) (s : State) : ((advance (.fetch a) s).arr a).cur = (s.arr a).cur := by
  rw [advance, arr_of_arrs (settleFetch_arrs ..), arr_updArr]

/-! ## An engine's row (R266) -/

/-- Where the word an engine stands at is sound, its row changes nothing or carries the word out. -/
theorem withWord_cases {e : EngineId} {op : Nat} (k : At → State → State) {s : State} (hsound : ∀ x, s.at e = some x → x.ok s = true) :
    withWord e op k s = s ∨ ∃ x, s.at e = some x ∧ wOp x.w = op ∧ withWord e op k s = k x s := by
  unfold withWord
  cases hat : s.at e with
  | none => exact .inl rfl
  | some x =>
    simp only [hsound x hat, Bool.not_true, Bool.false_eq_true, if_false]
    split
    next hop => exact .inr ⟨x, rfl, hop, rfl⟩
    next => exact .inl rfl

/-! ## A release at an AT_TIME (R210, R211, R236) -/

/-- A free array takes the first step that is due. -/
def takeStep (a : Nat) (s : State) : State :=
  if (s.arr a).cur.isNone then
    match firstStep (s.startable? a) with
    | some (_, h, sc, ep) => match s.plan h, s.stepOf h sc with
      | some p, some x => hold (.fetch a) (bindStep a h sc ep p x s)
      | _, _ => s
    | none => s
  else s

/-- The engine goes on where its release has come. -/
def releaseWord (e : EngineId) (x : At) (s : State) : State :=
  match s.stepOf x.h x.sc with
  | some k => if s.waitingAt e && decide (k.nominal + wf x.w 35 4 ≤ s.tbu.now) then advance e s else s
  | none => s

theorem execAtTimeRelease_fetch (a t : Nat) (s : State) :
    exec (.atTimeRelease (.fetch a) t) s = .next (withWord (.fetch a) 0x03 (releaseWord (.fetch a)) (takeStep a (reachTime t s))) := rfl

theorem takeStep_of_free {a n h sc ep : Nat} {p : PlanRt} {x : Step} {s : State} (hfree : (s.arr a).cur = none)
    (hfirst : firstStep (s.startable? a) = some (n, h, sc, ep)) (hplan : s.plan h = some p) (hstep : s.stepOf h sc = some x) :
    takeStep a s = hold (.fetch a) (bindStep a h sc ep p x s) := by
  simp only [takeStep, hfree, Option.isNone_none, if_true, hfirst, hplan, hstep]

theorem takeStep_of_busy {a : Nat} {c : Nat × Nat} {s : State} (hcur : (s.arr a).cur = some c) : takeStep a s = s := by
  simp only [takeStep, hcur, Option.isNone_some, Bool.false_eq_true, if_false]

theorem cur_hold_bindStep (a h sc ep : Nat) (p : PlanRt) (x : Step) (s : State) :
    ((hold (.fetch a) (bindStep a h sc ep p x s)).arr a).cur = some (h, sc) := by
  rw [hold, arr_updArr, bindStep, arr_updArr]

/-- A release leaves the array in its step. -/
theorem cur_release {a : Nat} {s : State} (hsound : ∀ x, s.at (.fetch a) = some x → x.ok s = true) :
    ((withWord (.fetch a) 0x03 (releaseWord (.fetch a)) s).arr a).cur = (s.arr a).cur := by
  obtain h | ⟨x, -, -, h⟩ := withWord_cases (releaseWord (.fetch a)) hsound <;> rw [h]
  unfold releaseWord
  split
  · split
    · exact cur_advance_fetch a s
    · rfl
  · rfl

/-- Settles O16: `firstStep` takes a least one, a free array is bound to it, and a release leaves every array in its step. -/
theorem arraysTakeTheFirstDueStep : Obligations.ArraysTakeTheFirstDueStep := by
  refine ⟨fun l x h => firstStep_spec h, ?_, ?_⟩
  · intro s a t n h sc ep p x u w hfree hfirst hplan hstep hsound
    refine ⟨_, execAtTimeRelease_fetch a t s, ?_⟩
    rw [takeStep_of_free hfree hfirst hplan hstep, cur_release hsound, cur_hold_bindStep]
  · intro s a t c hcur hsound
    refine ⟨_, execAtTimeRelease_fetch a t s, ?_⟩
    rw [takeStep_of_busy (s := reachTime t s) hcur, cur_release hsound]
    exact hcur

/-! ## Counters (R206) -/

theorem ctrVal_of_plans {s t : State} (h : t.plans = s.plans) (k n : Nat) : t.ctrVal k n = s.ctrVal k n := by
  rw [State.ctrVal, State.plan, h, State.ctrVal, State.plan]

/-- A change of a plan that leaves its counters leaves every counter's value. -/
theorem ctrVal_updPlan {h : Nat} {f : PlanRt → PlanRt} (hf : ∀ p, (f p).ctr = p.ctr) (s : State) (k n : Nat) :
    (updPlan h f s).ctrVal k n = s.ctrVal k n := by
  by_cases hk : k = h
  · subst hk
    rw [State.ctrVal, plan_updPlan, State.ctrVal]
    cases s.plan k with
    | none => rfl
    | some p => exact congrArg (fun m => mgetD m n 0) (hf p)
  · rw [State.ctrVal, plan_updPlan_other _ _ hk, State.ctrVal]

theorem ctrVal_updStep (h sc : Nat) (f : Step → Step) (s : State) (k n : Nat) : (updStep h sc f s).ctrVal k n = s.ctrVal k n := by
  refine ctrVal_updPlan ?_ s k n
  exact fun _ => rfl

theorem ctrVal_updColl (h sc : Nat) (f : HubCtx → HubCtx) (s : State) (k n : Nat) : (updColl h sc f s).ctrVal k n = s.ctrVal k n := by
  refine ctrVal_updPlan ?_ s k n
  exact fun _ => rfl

theorem ctrVal_updStrm (h sc : Nat) (f : HubCtx → HubCtx) (s : State) (k n : Nat) : (updStrm h sc f s).ctrVal k n = s.ctrVal k n := by
  refine ctrVal_updPlan ?_ s k n
  exact fun _ => rfl

theorem ctrVal_settleFetch (a : Nat) (s : State) (k n : Nat) : (settleFetch a s).ctrVal k n = s.ctrVal k n := by
  unfold settleFetch
  split
  · extract_lets r
    split
    · exact ctrVal_updStep ..
    · rfl
  · rfl

theorem ctrVal_settleHub (h sc : Nat) (s : State) (k n : Nat) : (settleHub h sc s).ctrVal k n = s.ctrVal k n := by
  unfold settleHub
  split
  · exact ctrVal_updStep ..
  · rfl

/-- An engine that goes on leaves every counter's value. -/
theorem ctrVal_advance (e : EngineId) (s : State) (k n : Nat) : (advance e s).ctrVal k n = s.ctrVal k n := by
  cases e with
  | fetch a => exact ctrVal_settleFetch ..
  | exec a => rfl
  | coll h sc => exact (ctrVal_settleHub ..).trans (ctrVal_updColl ..)
  | strm h sc => exact (ctrVal_settleHub ..).trans (ctrVal_updStrm ..)

theorem ctrVal_set_same {h n v : Nat} {s : State} (hplan : ∃ p, s.plan h = some p) :
    (updPlan h (fun p => { p with ctr := mset p.ctr n v }) s).ctrVal h n = v := by
  obtain ⟨p, hp⟩ := hplan
  rw [State.ctrVal, plan_updPlan, hp]
  exact mgetD_mset ..

theorem ctrVal_set_other {h n v k m : Nat} (s : State) (hne : (k, m) ≠ (h, n)) :
    (updPlan h (fun p => { p with ctr := mset p.ctr n v }) s).ctrVal k m = s.ctrVal k m := by
  by_cases hk : k = h
  · subst hk
    have hm : m ≠ n := fun hmn => hne (hmn ▸ rfl)
    rw [State.ctrVal, plan_updPlan, State.ctrVal]
    cases s.plan k with
    | none => rfl
    | some p => exact mgetD_mset_other _ _ _ hm
  · rw [State.ctrVal, plan_updPlan_other _ _ hk, State.ctrVal]

/-- The value that a SIGNAL or a RESET leaves in its counter. -/
def signalled (reset : Bool) (v old : Nat) : Nat := if reset then 0 else min (old + v) 0xFFFFFFFF

/-- A SIGNAL or RESET writes its counter, and besides only counts and sends. -/
theorem signalCtr_plans (h n v : Nat) (reset : Bool) (s : State) :
    (signalCtr h n v reset s).plans =
      (updPlan h (fun p => { p with ctr := mset p.ctr n (signalled reset v (s.ctrVal h n)) }) s).plans := by
  have hwrite : (if reset then clearCtr h n s else addCtr h n v s).plans =
      (updPlan h (fun p => { p with ctr := mset p.ctr n (signalled reset v (s.ctrVal h n)) }) s).plans := by
    cases reset with
    | true => rfl
    | false =>
      simp only [addCtr, signalled, Bool.false_eq_true, if_false]
      split
      · exact count_does.frame .plans (by decide)
      · rfl
  rw [← hwrite]
  unfold signalCtr
  extract_lets t
  split
  · split
    · split
      · exact toOthers_does.frame .plans (by decide)
      · rfl
    · rfl
  · rfl

section
variable {e : EngineId} {h n v : Nat} {reset : Bool} {s : State}

theorem ctrVal_advance_signalCtr_same (hplan : ∃ p, s.plan h = some p) :
    (advance e (signalCtr h n v reset s)).ctrVal h n = signalled reset v (s.ctrVal h n) := by
  rw [ctrVal_advance, ctrVal_of_plans (signalCtr_plans ..), ctrVal_set_same hplan]

theorem ctrVal_advance_signalCtr_other {k m : Nat} (hne : (k, m) ≠ (h, n)) :
    (advance e (signalCtr h n v reset s)).ctrVal k m = s.ctrVal k m := by
  rw [ctrVal_advance, ctrVal_of_plans (signalCtr_plans ..), ctrVal_set_other s hne]

theorem ram_advance_signalCtr : (advance e (signalCtr h n v reset s)).ram = s.ram := by
  have hadv : (advance e (signalCtr h n v reset s)).ram = (signalCtr h n v reset s).ram := advance_does.frame .ram (by decide)
  exact hadv.trans (signalCtr_does.frame .ram (by decide))

theorem arr_advance_signalCtr_other {a : Nat} (hf : e ≠ .fetch a) (he : e ≠ .exec a) :
    (advance e (signalCtr h n v reset s)).arr a = s.arr a :=
  (arr_advance_other _ hf he).trans (arr_of_arrs (signalCtr_does.frame .arrs (by decide)) a)

end

theorem execSignal_eq {s : State} {e : EngineId} {x : At} (hat : AtWord s e 0x02 x) (hrst : wRst x.w = false)
    (hnow : wX x.w = true ∨ s.earlierDone e = true) :
    exec (.signal e) s = .next (advance e (signalCtr x.h (wCtr x.w) (wf x.w 15 0) false s)) := by
  refine congrArg Host.Outcome.next ((withWord_at hat _).trans ?_)
  have hgo : (wX x.w || s.earlierDone e) = true := by simpa using hnow
  simp only [hrst, hgo, Bool.false_eq_true, if_false, if_true]

theorem execResetCounter_eq {s : State} {e : EngineId} {x : At} (hat : AtWord s e 0x02 x) (hrst : wRst x.w = true)
    (hnow : wX x.w = true ∨ s.earlierDone e = true) :
    exec (.resetCounter e) s = .next (advance e (signalCtr x.h (wCtr x.w) 0 true s)) := by
  refine congrArg Host.Outcome.next ((withWord_at hat _).trans ?_)
  have hgo : (wX x.w || s.earlierDone e) = true := by simpa using hnow
  simp only [hrst, hgo, Bool.not_true, Bool.false_eq_true, if_false, if_true]

/-- Settles O17: the row writes its counter and goes on, and going on leaves the counters, the memory and the other arrays. -/
theorem countersAddSaturateAndClear : Obligations.CountersAddSaturateAndClear := by
  intro s e x hat hnow hplan n
  refine ⟨fun hrst => ⟨_, execSignal_eq hat hrst hnow, ?_⟩, fun hrst => ⟨_, execResetCounter_eq hat hrst hnow, ?_⟩⟩
  all_goals exact ⟨ctrVal_advance_signalCtr_same hplan, fun h m hne => ctrVal_advance_signalCtr_other hne, ram_advance_signalCtr,
    fun a hf he => arr_advance_signalCtr_other hf he⟩

end Sys2Proof.Proofs
end

section
/-! Proofs about the ordering words (chapter 07, R236, R237) and the moments of a step (chapter 06, R210-R213). -/

namespace Sys2Proof.Proofs

open Sys2Proof Sys2Proof.Machine Sys2Proof.Safety Sys2Proof.Laws

/-! ## The ordering words -/

/-- A row of a fetch engine whose word's copy can be read is the row of that word. -/
theorem withCopy_at {s : State} {a op : Nat} {x : At} (h : AtWord s (.fetch a) op x) (k : At → State → State) :
    withCopy a false op k s = k x s := by
  rw [withCopy, if_neg Bool.false_ne_true, withWord_at h]

theorem execEndStep_eq {s : State} {a : Nat} {x : At} (hat : AtWord s (.exec a) 0x04 x) (hdone : s.earlierDone (.exec a) = true)
    (hruns : (s.arr a).runs = []) (hfetch : x.p.plan.fetchEnd a x.sc ≤ (s.arr a).fpc) :
    exec (.endStep a) s = .next (endArray x.h x.sc a (advance (.exec a) s)) := by
  refine congrArg Host.Outcome.next ((withWord_at hat _).trans (if_pos ?_))
  simp [hdone, hruns, hfetch]

theorem execFence_eq {s : State} {a : Nat} {x : At} (hat : AtWord s (.fetch a) 0x05 x) (hqueue : (s.arr a).queue = [])
    (hprog : (s.arr a).prog = []) (hrel : (s.arr a).rel = []) : exec (.fence ⟨a, false⟩) s = .next (advance (.fetch a) s) := by
  refine congrArg Host.Outcome.next ((withCopy_at hat _).trans (if_pos ?_))
  simp [hqueue, hprog, hrel]

theorem execQueueCopy_of_split {s : State} {a h sc : Nat} {p : PlanRt} (hholder : s.holder a = some (h, sc, p)) (hmode : p.plan.el3 = false)
    (hcopied : (s.arr a).copied = false) (hroom : (s.arr a).queue.length < 64) :
    exec (.queueCopy ⟨a, false⟩) s =
      .next (updArr a (fun r => { r with
        queue := r.queue ++ [(r.epc, s.copyWord p.plan a ((p.plan.fetchOf a).length + (s.arr a).epc))], epc := r.epc + 1,
        copied := decide (wOp (s.copyWord p.plan a ((p.plan.fetchOf a).length + (s.arr a).epc)) = 0x04) ||
          decide (p.plan.execEnd a sc ≤ r.epc + 1) }) s) := by
  simp only [exec, execQueueCopy, hholder, hmode, hcopied, Nat.not_le.2 hroom, Bool.false_eq_true, if_false]

theorem execQueueCopy_of_fence {s : State} {a h sc : Nat} {p : PlanRt} {x : At} (hholder : s.holder a = some (h, sc, p))
    (hmode : p.plan.el3 = true) (hroom : (s.arr a).queue.length < 64) (hat : s.at (.fetch a) = some x) (hsound : x.ok s = true)
    (hexec : executeOnly (wOp x.w) = true) :
    exec (.queueCopy ⟨a, false⟩) s =
      .next (advance (.fetch a) (updArr a (fun r => { r with queue := r.queue ++ [(x.idx, x.w)] }) s)) := by
  simp only [exec, execQueueCopy, hholder, hmode, hat, hsound, hexec, Nat.not_le.2 hroom, Bool.and_self, Bool.false_eq_true, if_false, if_true]

/-- Settles O48: the engine's row carries its word out, and the word's own condition is a hypothesis. -/
theorem orderingWordsComplete : Obligations.OrderingWordsComplete := by
  refine ⟨?_, ?_, ?_, ?_, ?_, ?_, ?_, ?_, ?_, ?_, ?_⟩
  · exact fun s e x hat => congrArg Host.Outcome.next (withWord_at hat _)
  · exact fun s e x hat => congrArg Host.Outcome.next (withWord_at hat _)
  · intro s e x hat hwait hval
    refine congrArg Host.Outcome.next ((withWord_at hat _).trans (if_pos ?_))
    simp [hwait, hval]
  · exact fun s e x hat hrst hnow => execSignal_eq hat hrst hnow
  · exact fun s e x hat hrst hnow => execResetCounter_eq hat hrst hnow
  · exact fun s e x hat => congrArg Host.Outcome.next (withWord_at hat _)
  · exact fun s a x => execEndStep_eq
  · exact fun s a x => execFence_eq
  · exact fun s a x hat => congrArg Host.Outcome.next (withCopy_at hat _)
  · exact fun s a h sc p => execQueueCopy_of_split
  · exact fun s a h sc p x => execQueueCopy_of_fence

/-! ## A step starts, is taken and ends (R210-R213) -/

section
variable {s : State} {h sc t : Nat} {p : PlanRt} {c : Sched}

theorem execStepStart_eq (hplan : (reachTime t s).plan h = some p) (hsched : p.plan.scheds[sc]? = some c) (hrun : p.st = .running)
    (hnone : mhas p.steps sc = false) (hcome : p.nominal c (mgetD p.nextK sc 0) ≤ (reachTime t s).tbu.now)
    (hswitch : (reachTime t s).holdForSwitch p.plan (p.nominal c (mgetD p.nextK sc 0)) = false)
    (hact : (reachTime t s).activating = false) (hpwr : (reachTime t s).pwr.state = .run) :
    exec (.stepStart h sc t) s = .next (startStep h sc p c (reachTime t s)) := by
  simp only [exec, execStepStart, hplan, hsched]
  refine congrArg Host.Outcome.next (if_pos ?_)
  simp only [hrun, hnone, hcome, hswitch, hact, hpwr, decide_true, Bool.not_false, Bool.and_self]

theorem execStepEnd_eq {x : Step} (hplan : (reachTime t s).plan h = some p) (hsched : p.plan.scheds[sc]? = some c)
    (hstep : mget p.steps sc = some x) (hdone : p.stepDone x = true) :
    exec (.stepEnd h sc t) s = .next (endStep h sc p c x (reachTime t s)) := by
  simp only [exec, execStepEnd, hplan, hsched, hstep, hdone, if_true]

end

/-- A release of a word of another opcode changes nothing. -/
theorem withWord_of_other {s : State} {e : EngineId} {op op' : Nat} {x : At} (h : AtWord s e op x) (hne : op ≠ op')
    (k : At → State → State) : withWord e op' k s = s := by
  have hop : ¬ wOp x.w = op' := h.isOp.symm ▸ hne
  simp only [withWord, h.stands, h.sound, hop, Bool.not_true, Bool.false_eq_true, if_false]

theorem releaseWord_of_come {s : State} {e : EngineId} {x : At} {k : Step} (hstep : s.stepOf x.h x.sc = some k) (hwait : s.waitingAt e = true)
    (hcome : k.nominal + wf x.w 35 4 ≤ s.tbu.now) : releaseWord e x s = advance e s := by
  simp only [releaseWord, hstep, hwait, hcome, decide_true, Bool.and_self, if_true]

/-- An engine that is no free array waits as it stands. -/
theorem execAtTimeRelease_of_bound {s : State} {e : EngineId} {t : Nat}
    (hbound : ∀ a, e = .fetch a → ((reachTime t s).arr a).cur ≠ none) :
    exec (.atTimeRelease e t) s = .next (withWord e 0x03 (releaseWord e) (reachTime t s)) := by
  cases e with
  | fetch a =>
    obtain ⟨c, hc⟩ := Option.ne_none_iff_exists'.1 (hbound a rfl)
    rw [execAtTimeRelease_fetch, takeStep_of_busy hc]
  | exec a => rfl
  | coll h sc => rfl
  | strm h sc => rfl

theorem waitingAt_hold_fetch (a : Nat) (s : State) : (hold (.fetch a) s).waitingAt (.fetch a) = true := by
  rw [State.waitingAt, hold, arr_updArr]

/-- Settles O49: each moment's guard is a hypothesis; a free array first takes its step. -/
theorem stepMomentsComplete : Obligations.StepMomentsComplete := by
  refine ⟨?_, ?_, ?_, ?_, ?_⟩
  · exact fun s h sc t p c => execStepStart_eq
  · intro s e t x k u hbound hat hstep hwait hcome
    rw [execAtTimeRelease_of_bound hbound, withWord_at hat, releaseWord_of_come hstep hwait hcome]
  · intro s a t n h sc ep p x u hfree hfirst hplan hstep v
    have hrow : exec (.atTimeRelease (.fetch a) t) s = .next (withWord (.fetch a) 0x03 (releaseWord (.fetch a)) v) := by
      rw [execAtTimeRelease_fetch, takeStep_of_free hfree hfirst hplan hstep]
    refine ⟨fun op y hat hne => ?_, fun y k hat hstep hcome => ?_⟩
    · rw [hrow, withWord_of_other hat hne]
    · rw [hrow, withWord_at hat, releaseWord_of_come hstep (waitingAt_hold_fetch ..) hcome]
  · exact fun s h sc t p c x => execStepEnd_eq
  · intro s h sc t p c x u hplan hsched hstep hrec hold
    have hguard : (x.stallRec || decide (u.tbu.now < x.nominal + 4 * c.period)) = false := by
      simp [hrec, hold]
    simp only [exec, execStepStalled, show (reachTime t s).plan h = some p from hplan, hsched, hstep]
    exact congrArg Host.Outcome.next (if_neg (ne_true_of_eq_false hguard))

end Sys2Proof.Proofs
end

section
/-! Proofs about the sweeps (chapters 04 and 07): what the array's operations leave of the arrays, and what a sweep word changes. -/

namespace Sys2Proof.Proofs

open Sys2Proof Sys2Proof.Machine Sys2Proof.Safety Sys2Proof.Laws

/-! ## What an operation leaves of the arrays -/

/-- From `s` to `t` no array but `a` changes, and `a` keeps what `f` reads of it. -/
structure ArrKeeps {α : Type} (a : Nat) (f : Arr → α) (s t : State) : Prop where
  others : ∀ b, b ≠ a → t.arr b = s.arr b
  own    : f (t.arr a) = f (s.arr a)

section
variable {α β : Type} {a : Nat} {f : Arr → α} {s t u : State}

theorem ArrKeeps.of_arrs (h : t.arrs = s.arrs) : ArrKeeps a f s t := ⟨fun b _ => arr_of_arrs h b, congrArg f (arr_of_arrs h a)⟩

theorem ArrKeeps.refl : ArrKeeps a f s s := .of_arrs rfl

theorem ArrKeeps.trans (h : ArrKeeps a f s t) (h' : ArrKeeps a f t u) : ArrKeeps a f s u :=
  ⟨fun b hb => (h'.others b hb).trans (h.others b hb), h'.own.trans h.own⟩

theorem ArrKeeps.updArr {g : Arr → Arr} (hg : ∀ r, f (g r) = f r) : ArrKeeps a f s (updArr a g s) :=
  ⟨fun _ hb => arr_updArr_other _ _ hb, (congrArg f (arr_updArr ..)).trans (hg _)⟩

theorem ArrKeeps.ite {c : Prop} [Decidable c] (h : ArrKeeps a f s t) (h' : ArrKeeps a f s u) : ArrKeeps a f s (if c then t else u) := by
  split <;> assumption

theorem ArrKeeps.forEach {l : List β} {g : β → State → State} (h : ∀ x t, ArrKeeps a f t (g x t)) : ArrKeeps a f s (forEach l g s) := by
  induction l generalizing s with
  | nil => exact .refl
  | cons x l ih => exact (h x s).trans ih

/-- What reads more of the array is kept only where what reads less of it is. -/
theorem ArrKeeps.map (h : ArrKeeps a f s t) (g : α → β) : ArrKeeps a (fun r => g (f r)) s t := ⟨h.others, congrArg g h.own⟩

end

/-! ## A sweep issues (R123, R139, R244) -/

/-- What a parity error leaves of an array: all but the reasons of its entries and the cells to exclude. -/
def unlessParity (r : Arr) : NMap Word × List InProg × List (Nat × QWord) × List PortLine := (r.acc, r.prog, r.queue, r.port)

theorem excludeCell_keeps {α : Type} {f : Arr → α} (hf : ∀ r l, f { r with exclPend := l } = f r) (a c : Nat) (s : State) :
    ArrKeeps a f s (excludeCell a c s) := by
  unfold excludeCell
  extract_lets r
  refine .ite .refl (.trans (.updArr (g := fun r => { r with exclPend := r.exclPend ++ [c] }) fun _ => hf ..) (.of_arrs ?_))
  rw [record_does.frame .arrs (by decide), count_does.frame .arrs (by decide)]

theorem cellParity_keeps (a : Nat) (w : QWord) (cells : List Nat) (s : State) : ArrKeeps a unlessParity s (cellParity a w cells s) := by
  unfold cellParity
  extract_lets d
  refine .forEach fun c t => .ite .refl (.trans (.updArr ?_) (excludeCell_keeps (fun _ _ => rfl) ..))
  exact fun _ => rfl

/-- The array once a sweep has issued: what clearing, the window and the absent columns left of it. -/
def swept (a : Nat) (x : At) (s : State) : State :=
  updArr a (fun r => { r with
    twin := if wOp x.w = 0x22 then mset r.twin (wDesc x.w) ((wf x.w 95 88 + 1) * 32) else r.twin
    absent := mset r.absent (wDesc x.w) [] }) (countBadRows a x.w (clearEntries a x.w (exclLoss a x.w s)))

theorem beginSweep_eq (a : Nat) (x : At) (parity : List Nat) (ecc : List SweepEcc) (s : State) :
    beginSweep a x parity ecc s = issue (.exec a) { InProg.plain x with ecc := ecc } (cellParity a x.w parity (swept a x s)) := rfl

/-- What a sweep's issue reads of its array besides the entries it clears. -/
def lists (r : Arr) : List InProg × List (Nat × QWord) × List PortLine := (r.prog, r.queue, r.port)

theorem exclLoss_arrs (a : Nat) (w : QWord) (s : State) : (exclLoss a w s).arrs = s.arrs := exclLoss_does.frame .arrs (by decide)
theorem countBadRows_arrs (a : Nat) (w : QWord) (s : State) : (countBadRows a w s).arrs = s.arrs := countBadRows_does.frame .arrs (by decide)

theorem clearEntries_keeps (a : Nat) (w : QWord) (s : State) : ArrKeeps a lists s (clearEntries a w s) := by
  unfold clearEntries
  refine .ite (.updArr ?_) .refl
  exact fun _ => by simp only [lists]

theorem swept_keeps (a : Nat) (x : At) (s : State) : ArrKeeps a lists s (swept a x s) := by
  have hexcl : ArrKeeps a lists s (exclLoss a x.w s) := .of_arrs (exclLoss_arrs ..)
  have hbad : ArrKeeps a lists (clearEntries a x.w (exclLoss a x.w s)) (countBadRows a x.w (clearEntries a x.w (exclLoss a x.w s))) :=
    .of_arrs (countBadRows_arrs ..)
  refine ((hexcl.trans (clearEntries_keeps ..)).trans hbad).trans (.updArr ?_)
  exact fun _ => rfl

/-- An issue puts its word in progress and takes it from the queue, and leaves every other array. -/
theorem arr_issue_exec (a : Nat) (i : InProg) (s : State) :
    (issue (.exec a) i s).arr a = { s.arr a with prog := (s.arr a).prog ++ [i], queue := (s.arr a).queue.drop 1, ewaiting := false } := by
  simp [issue, advance]

theorem arr_issue_exec_other {a b : Nat} (i : InProg) (s : State) (hb : b ≠ a) : (issue (.exec a) i s).arr b = s.arr b := by
  simp [issue, advance, arr_updArr_other _ _ hb]

theorem cellParity_swept_keeps (a : Nat) (x : At) (parity : List Nat) (s : State) :
    ArrKeeps a lists s (cellParity a x.w parity (swept a x s)) :=
  (swept_keeps a x s).trans ((cellParity_keeps a x.w parity _).map Prod.snd)

theorem lists_beginSweep (a : Nat) (x : At) (parity : List Nat) (ecc : List SweepEcc) (s : State) :
    lists ((beginSweep a x parity ecc s).arr a) =
      ((s.arr a).prog ++ [{ InProg.plain x with ecc := ecc }], (s.arr a).queue.drop 1, (s.arr a).port) := by
  have hown := (cellParity_swept_keeps a x parity s).own
  simp only [lists, Prod.mk.injEq] at hown
  obtain ⟨hprog, hqueue, hport⟩ := hown
  rw [beginSweep_eq, arr_issue_exec, lists, hprog, hqueue, hport]

theorem arr_beginSweep_other {a b : Nat} (x : At) (parity : List Nat) (ecc : List SweepEcc) (s : State) (hb : b ≠ a) :
    (beginSweep a x parity ecc s).arr b = s.arr b := by
  rw [beginSweep_eq, arr_issue_exec_other _ _ hb]
  exact (cellParity_swept_keeps a x parity s).others b hb

/-! ## The entries that a sweep clears (R123) -/

theorem mgetD_clear (l : List Nat) (m : NMap Word) (k : Nat) (h : k ∈ l ∨ mgetD m k 0 = 0) :
    mgetD (l.foldl (fun m k => mset m k 0) m) k 0 = 0 := by
  induction l generalizing m with
  | nil => exact h.resolve_left (List.not_mem_nil)
  | cons j l ih =>
    refine ih _ ?_
    by_cases hj : k = j
    · exact .inr (hj ▸ mgetD_mset ..)
    · exact (h.imp_left fun hk => (List.mem_cons.mp hk).resolve_left hj).imp_right ((mgetD_mset_other m _ _ hj).trans ·)

/-! ## What the stores hold is read from RAM alone -/

theorem ramAt_of_ram {s t : State} (h : t.ram = s.ram) (hu : t.ramUndef = s.ramUndef) (k : Nat) : t.ramAt k = s.ramAt k := by
  rw [State.ramAt, h, hu, State.ramAt]

theorem Does.ramAt {l : List Block} {s t : State} (h : Does l s t) (hr : Block.ram ∉ l := by decide) (hu : Block.ramUndef ∉ l := by decide) (k : Nat) :
    t.ramAt k = s.ramAt k := ramAt_of_ram (h.frame .ram hr) (h.frame .ramUndef hu) k

theorem storeRd_of_ramAt {s t : State} (h : ∀ k, t.ramAt k = s.ramAt k) (a off n : Nat) : t.storeRd a off n = s.storeRd a off n := by
  simp only [State.storeRd, h]

theorem descOf_of_ramAt {s t : State} (h : ∀ k, t.ramAt k = s.ramAt k) (a off : Nat) : t.descOf a off = s.descOf a off :=
  congrArg parseDesc (storeRd_of_ramAt h ..)

theorem rankedCells_of {s t : State} (h : ∀ k, t.ramAt k = s.ramAt k) (ha : t.arrs = s.arrs) (a : Nat) (d : Desc) :
    t.rankedCells a d = s.rankedCells a d := by
  simp only [State.rankedCells, State.cellsOf, storeRd_of_ramAt h, arr_of_arrs ha]

/-- The keys of the entries that a sweep word clears. -/
def cleared (a : Nat) (w : QWord) (s : State) : List Nat :=
  sweepKeys w (s.descOf a (wDesc w)) ((s.rankedCells a (s.descOf a (wDesc w))).map (·.2))

theorem cleared_exclLoss (a : Nat) (w : QWord) (s : State) : cleared a w (exclLoss a w s) = cleared a w s := by
  have hram : ∀ k, (exclLoss a w s).ramAt k = s.ramAt k := Does.ramAt exclLoss_does
  simp only [cleared, descOf_of_ramAt hram, rankedCells_of hram (exclLoss_arrs ..)]

theorem acc_clearEntries {a : Nat} {w : QWord} (s : State) (hw : wClear w = true) :
    ((clearEntries a w s).arr a).acc = (cleared a w s).foldl (fun m k => mset m k 0) (s.arr a).acc := by
  simp only [clearEntries, hw, if_true, arr_updArr, cleared]

theorem acc_swept {a : Nat} {x : At} (s : State) (hw : wClear x.w = true) :
    ((swept a x s).arr a).acc = (cleared a x.w s).foldl (fun m k => mset m k 0) (s.arr a).acc := by
  rw [swept, arr_updArr, arr_of_arrs (countBadRows_arrs ..), acc_clearEntries _ hw, cleared_exclLoss, arr_of_arrs (exclLoss_arrs ..)]

theorem acc_beginSweep {a : Nat} {x : At} (parity : List Nat) (ecc : List SweepEcc) (s : State) (hw : wClear x.w = true) :
    ((beginSweep a x parity ecc s).arr a).acc = (cleared a x.w s).foldl (fun m k => mset m k 0) (s.arr a).acc := by
  have hown := (cellParity_keeps a x.w parity (swept a x s)).own
  simp only [unlessParity, Prod.mk.injEq] at hown
  obtain ⟨hacc, -⟩ := hown
  rw [beginSweep_eq, arr_issue_exec, hacc, acc_swept s hw]

/-! ## The sweep rows -/

theorem exec_sweep {s : State} {a op : Nat} {parity : List Nat} {ecc : List SweepEcc} {x : At} {c : Instr}
    (hc : (c, op) ∈ [(Instr.sweep a parity ecc, 0x20), (.veinSweep a ⟨parity, ecc⟩, 0x21), (.transposeSweep a ⟨parity, ecc⟩, 0x22)])
    (hat : AtWord s (.exec a) op x) : exec c s = .next (sweepWord a parity ecc x s) := by
  simp only [List.mem_cons, Prod.mk.injEq, List.not_mem_nil, or_false] at hc
  obtain ⟨rfl, rfl⟩ | ⟨rfl, rfl⟩ | ⟨rfl, rfl⟩ := hc
  · exact congrArg Host.Outcome.next (withWord_at hat _)
  · exact congrArg Host.Outcome.next (withWord_at hat _)
  · exact congrArg Host.Outcome.next (withWord_at hat _)

theorem waitCycles_arrs (a : Nat) (s : State) : (waitCycles a s).arrs = s.arrs := waitCycles_does.frame .arrs (by decide)

theorem arr_sweepWord_other {a b : Nat} (parity : List Nat) (ecc : List SweepEcc) (x : At) (s : State) (hb : b ≠ a) :
    (sweepWord a parity ecc x s).arr b = s.arr b := by
  unfold sweepWord
  split
  · exact arr_beginSweep_other x parity ecc s hb
  · split
    · exact arr_of_arrs (waitCycles_arrs ..) b
    · rfl

/-- Settles O18: a sweep that issues touches its own array, one that stalls only a counter. -/
theorem sweepsLeaveMemoryAlone : Obligations.SweepsLeaveMemoryAlone := by
  intro s a parity ecc x c op hc hat
  exact ⟨_, exec_sweep hc hat, Does.ramAt sweepWord_does, fun b hb => arr_sweepWord_other parity ecc x s hb⟩

/-- Settles O52: the issue's lists, the cleared keys, and the head of the latch. -/
theorem sweepWordsComplete : Obligations.SweepWordsComplete := by
  refine ⟨fun s a parity ecc x c op hc hat => ⟨fun hfree => ?_, fun hfree => ?_⟩, fun s a x parity ecc hw k hk => ?_,
    fun s a e l i hl hi hfin hwaits hidx => ?_⟩
  · have hlists := lists_beginSweep a x parity ecc s
    simp only [lists, Prod.mk.injEq] at hlists
    refine ⟨beginSweep a x parity ecc s, ?_, rfl, hlists⟩
    rw [exec_sweep hc hat, sweepWord, if_pos hfree]
  · rw [exec_sweep hc hat, sweepWord, hfree]
    rfl
  · rw [acc_beginSweep parity ecc s hw]
    exact mgetD_clear _ _ _ (.inl hk)
  · simp [applyHead, hl, hi, hfin, hwaits, hidx]

end Sys2Proof.Proofs
end

section
/-! Proofs about the fetch engines (chapter 06, 07): the words that begin a run, and the moments of a run. -/

namespace Sys2Proof.Proofs

open Sys2Proof Sys2Proof.Machine Sys2Proof.Safety Sys2Proof.Laws

/-! ## The fetch words -/

/-- A word whose copy cannot be read is malformed, whatever its opcode (R266). -/
theorem withCopy_unreadable {s : State} {a : Nat} {x : At} (h : s.at (.fetch a) = some x) (op : Nat) (k : At → State → State) :
    withCopy a true op k s = engineFault x.h a x.idx s := by
  simp [withCopy, h]

/-- Settles O50: each word's run, by where its lines go and whether its row has a stream. -/
theorem fetchWordsComplete : Obligations.FetchWordsComplete := by
  refine ⟨fun s a x hat hport => ?_, fun s a x hat hport => ?_, fun s a x hat => ?_, fun s a x i st tmpl o hat hrow hst htmpl ho hhead => ?_,
    fun s a x hat hrow => ?_, fun s a x hx c hc => ?_⟩
  · refine congrArg Host.Outcome.next ((withCopy_at hat _).trans ?_)
    simp [hport]
  · refine congrArg Host.Outcome.next ((withCopy_at hat _).trans ?_)
    simp [hport]
  · exact congrArg Host.Outcome.next (withCopy_at hat _)
  · refine congrArg Host.Outcome.next ((withCopy_at hat _).trans ?_)
    simp [hrow, hst, htmpl, ho, Nat.not_le.mpr hhead]
  · refine congrArg Host.Outcome.next ((withCopy_at hat _).trans ?_)
    simp [hrow]
  · simp only [List.mem_cons, List.not_mem_nil, or_false] at hc
    obtain rfl | rfl | rfl | rfl | rfl := hc <;> exact congrArg Host.Outcome.next (withCopy_unreadable hx _ _)

/-! ## The moments of a run, on two runs of one word

The statement's update of the arrived entry is made in every run of the word's index, and reads the part of a KV set (`kv`) from the run that
it updates; the model reads it once, from the first run of that index. They part where an array holds two runs of one index and different
`kv`. -/

/-- An entry of hub SRAM, with no data, in this state. -/
def bareEntry (st : EntrySt) : FEntry :=
  { blk := ⟨0, false, 0, 0, 0, 0, 0, 0⟩, dva := 0, st := st, sent := 0, data := [], tainted := false, marks := 0, lands := [], tok := 0,
    ntok := 0, skipped := false }

/-- A run of word 0 whose second entry has been requested. -/
def runOf (kv : Nat) : FRun :=
  { index := 0, word := 0, kv := kv, row := 0, dests := [], toPort := false, off := 0, rep := 0, lines := 0, done := 0,
    entries := [bareEntry .queued, bareEntry .issued], since := 0 }

/-- A running plan with nothing in it. -/
def barePlan : PlanRt :=
  { plan := { el3 := false, group := false, seed := none, length := 0, arrays := 0, maintM := 0, pSched := 0, planId := 0, scheds := [],
              counters := [], regs := [], regions := [], blocks := [], fallbacks := [], qpoints := [], symbols := [], preload := [],
              fetchW := [], execW := [], collW := [], strmW := [] }
    st := .running, stalled := false, anchor := 0, freeOnStop := false, stopCmds := [], nextK := [], steps := [], ctr := [], gidx := [],
    keys := [], coll := [], strm := [], collIdx := [], waitTo := 0, frames := [] }

/-- Array 0 in a step of that plan, with two runs of word 0, of which the second fetches values. -/
def twoRuns : State :=
  updArr 0 (fun r => { r with cur := some (0, 0), runs := [runOf 0, runOf 2] }) { State.reset with plans := [(0, barePlan)] }

/-- Does nothing land for the second entry of array 0's second run? -/
def secondRunBare : Host.Outcome State Fault Refusal → Bool
  | .next t => (((t.arr 0).runs[1]?).bind (fun r => r.entries[1]?)).any (fun e => e.lands.isEmpty)
  | _ => false

theorem execFetchEntryArrival_twoRuns : secondRunBare (execFetchEntryArrival 0 0 1 0 twoRuns) = true := by decide

/-- Refutes O51: on an array with two runs of word 0, the arrival of the first run's entry leaves the second run's without lines (`kv = 0` of the
first run decides), where the statement gives it the 128 value lines of its own `kv = 2`. -/
theorem not_fetchMomentsComplete : ¬ Obligations.FetchMomentsComplete := by
  intro h
  obtain ⟨-, harrives, -⟩ := h
  have harrival := harrives twoRuns 0 0 1 0 0 0 barePlan (runOf 0) (bareEntry .issued) rfl rfl rfl rfl (.inr rfl) rfl rfl
  have hbare := execFetchEntryArrival_twoRuns.symm.trans (congrArg secondRunBare harrival)
  revert hbare
  decide

end Sys2Proof.Proofs
end

section
/-! Proofs about the result and data words (chapters 04, 07, 08): what each does at the word its engine stands at, and how it completes. -/

namespace Sys2Proof.Proofs

open Sys2Proof Sys2Proof.Machine Sys2Proof.Safety Sys2Proof.Laws

/-! ## What QUANT leaves of the arrays -/

/-- What each change of a list keeps, all of them together keep. -/
theorem forEach_keeps {α β : Type} (f : State → β) {g : α → State → State} (h : ∀ x t, f (g x t) = f t) (l : List α) (s : State) :
    f (forEach l g s) = f s := by
  induction l generalizing s with
  | nil => rfl
  | cons x l ih => exact (ih (g x s)).trans (h x s)

theorem undefine_arrs (k n : Nat) (s : State) : (undefine k n s).arrs = s.arrs := undefine_does.frame .arrs (by decide)
theorem flagRow_arrs (h sc b : Nat) (f : Half) (s : State) : (flagRow h sc b f s).arrs = s.arrs := flagRow_does.frame .arrs (by decide)
theorem stick_arrs (c : Bool) (i : Nat) (s : State) : (stick c i s).arrs = s.arrs := stick_does.frame .arrs (by decide)
theorem countBy_arrs (off n : Nat) (s : State) : (countBy off n s).arrs = s.arrs := countBy_does.frame .arrs (by decide)
theorem holdBlocks_arrs (q : QPoint) (p : Plan) (a : Nat) (s : State) : (holdBlocks q p a s).arrs = s.arrs :=
  holdBlocks_does.frame .arrs (by decide)

theorem queue_quantWord (a : Nat) (x : At) (q : QPoint) (s : State) : ((quantWord a x q s).arr a).queue = (s.arr a).queue.drop 1 := by
  unfold quantWord
  extract_lets _ _ _ _ res rels s1 s2 s3 s4 s5
  have h1 : s1.arrs = s.arrs := holdBlocks_arrs ..
  have h2 : s2.arrs = s1.arrs := forEach_keeps State.arrs (fun _ _ => forEach_keeps State.arrs (fun _ _ => undefine_arrs ..) _ _) _ _
  have h3 : s3.arrs = s2.arrs := forEach_keeps State.arrs (fun _ _ => countBy_arrs ..) _ _
  have h4 : s4.arrs = s3.arrs := stick_arrs ..
  have h5 : s5.arrs = s4.arrs := forEach_keeps State.arrs (fun _ _ => flagRow_arrs ..) _ _
  have hqueue : (s5.arr a).queue = (s.arr a).queue := congrArg Arr.queue (arr_of_arrs (by rw [h5, h4, h3, h2, h1]) a)
  simp only [advance, arr_updArr, hqueue]

/-! ## The result words -/

/-- A drain is carried out where nothing blocks it and its kept run lies in the plan's regions (R124, R126). -/
theorem execDrain_at {s : State} {a : Nat} {x : At} (ecc : List EccHit) (hat : AtWord s (.exec a) 0x23 x) :
    execDrain a ecc s = .next (if (flushLatch a 3 s).drainBlocked a x.w then waitCycles a (flushLatch a 3 s)
      else if !(match s.keepRun a x.w with | some k => x.p.plan.covers a k.1 k.2 | none => true) then engineFault x.h a x.idx (flushLatch a 3 s)
      else drainWord a ecc x (flushLatch a 3 s)) :=
  congrArg Host.Outcome.next (withWord_at hat _)

theorem norm_returnStat (key : Nat) (sums : List (Nat × ((Word × Word) × Nat))) (s : State) : (returnStat key sums s).norm = mdel s.norm key :=
  congrArg (mdel · key) (stick_does.frame .norm (by decide))

theorem normSum_returnStat (key : Nat) (sums : List (Nat × ((Word × Word) × Nat))) (s : State) :
    (returnStat key sums s).normSum = mset s.normSum key (sums.foldl (fun m x => mset m x.1 x.2.1) (mgetD s.normSum key [])) := by
  have hsum : (stick (sums.any (fun x => decide (x.2.2 ≠ 0))) 2 s).normSum = s.normSum := stick_does.frame .normSum (by decide)
  rw [returnStat, hsum]

/-- Settles O53: each word's guards, the statistic's two ways, and the release. -/
theorem resultWordsComplete : Obligations.ResultWordsComplete := by
  refine ⟨fun s a ecc x hat => ?_, fun s a x hat htable => ?_, fun s h slot p q l c hp hparts hslot hcur hall => ?_,
    fun s a x q hat hq => ⟨?_, queue_quantWord a x q s⟩, fun s a e rest h sc p hrel hholder => ?_⟩
  · intro v
    refine ⟨fun hblocked => (execDrain_at ecc hat).trans ?_, fun hblocked hkeep => (execDrain_at ecc hat).trans ?_⟩
    · exact congrArg Host.Outcome.next (if_pos hblocked)
    · refine congrArg Host.Outcome.next ((if_neg (Bool.eq_false_iff.mp hblocked)).trans (if_neg ?_))
      cases hrun : s.keepRun a x.w with
      | none => simp
      | some k => simp [hkeep k hrun]
  · refine congrArg Host.Outcome.next ((withWord_at hat _).trans (if_neg ?_))
    by_cases hneed : tableNeed (wPostOp x.w) 1 = 0
    · simp [hneed]
    · cases htab : s.tableAt x.p.plan (u (s.storeRd a (wf x.w 47 32 * 64) 4) 0 4) with
      | none => simp
      | some t => simp [htable hneed t htab]
  · intro key sums
    have hthere : (decide (slot < 4096) && (s.contributors p.plan c.2 h key).all (fun a => (q :: l).any (fun x => decide (x.array = a)))) = true := by
      simpa [hslot] using hall
    have hexec : exec (.normStatCombine h slot) s =
        .next (if p.plan.group && decide (s.spar.st ∈ [1, 2]) then combineStat key sums s else returnStat key sums s) := by
      refine congrArg Host.Outcome.next ?_
      simp only [hp, hparts, hcur]
      exact if_pos hthere
    refine ⟨fun halone => ⟨_, hexec.trans (congrArg Host.Outcome.next (if_neg ?_)), norm_returnStat .., normSum_returnStat ..⟩,
      fun hgroup hst => hexec.trans (congrArg Host.Outcome.next (if_pos ?_))⟩
    · rcases halone with hgroup | hst
      · simp [hgroup]
      · simp only [hst, decide_false, Bool.and_false, Bool.false_eq_true, not_false_eq_true]
    · simp only [hgroup, hst, decide_true, Bool.and_true]
  · refine congrArg Host.Outcome.next ((withWord_at hat _).trans ?_)
    rw [hq]
  · refine congrArg Host.Outcome.next ?_
    simp only [hrel, hholder] <;> rfl

/-! ## The words that move data -/

theorem fabricSends_of_none {a : Nat} {s : State} (h : ∀ j ∈ (s.arr a).prog, j.unsent = false) : fabricSends a s = s := by
  have hcount : (s.arr a).prog.countP InProg.unsent = 0 := by simpa [List.countP_eq_zero] using h
  unfold fabricSends
  split
  · simp [hcount, forUpto]
  · rfl

theorem startSend_of_local {x : At} (data : Bytes) (s : State) (hremote : sendRemote x.w = false) (hstored : sendStored x.w = false) :
    startSend x data s = s := by
  simp [startSend, hremote, hstored]

theorem unsent_of_local {i : InProg} (h : sendRemote i.word = false) : i.unsent = false := by
  have hbit : ¬ wf i.word 50 50 = 1 := by simpa [sendRemote] using h
  simp [InProg.unsent, hbit]

/-- Settles O54: what each word takes as it issues. -/
theorem dataWordsComplete : Obligations.DataWordsComplete := by
  refine ⟨fun s a x hat => ?_, fun s a x hat => congrArg Host.Outcome.next (withWord_at hat _), fun s h sc x hat hscope => ?_,
    fun s h sc x k hat hscope hk => ?_, fun s h sc x hat => congrArg Host.Outcome.next (withWord_at hat _)⟩
  · intro data i
    have hexec : exec (.send a) s = .next (fabricSends a (issue (.exec a) i (startSend x data s))) :=
      congrArg Host.Outcome.next (withWord_at hat _)
    refine ⟨hexec, fun hremote hstored hsent => hexec.trans (congrArg Host.Outcome.next ?_)⟩
    rw [startSend_of_local _ _ hremote hstored]
    refine fabricSends_of_none fun j hj => ?_
    rw [arr_issue_exec] at hj
    rcases List.mem_append.mp hj with hj | hj
    · exact hsent j hj
    · rw [List.mem_singleton.mp hj]
      exact unsent_of_local hremote
  · exact congrArg Host.Outcome.next ((withWord_at hat _).trans (if_pos hscope))
  · refine congrArg Host.Outcome.next ((withWord_at hat _).trans ((if_neg (by omega)).trans ?_))
    simp only [hk, Bool.or_eq_true, decide_eq_true_eq]
    rfl

/-! ## How a word completes -/

/-- The words of the three sweeps are no SEND, RECV, POST or DRAIN (R233). -/
theorem not_isSweep {w : QWord} (h : wOp w ∈ [0x23, 0x24, 0x26, 0x27]) : isSweep w = false := by
  simp only [List.mem_cons, List.not_mem_nil, or_false] at h
  simp only [isSweep, List.mem_cons, List.not_mem_nil, or_false, decide_eq_false_iff_not]
  omega

theorem not_normPending {s : State} {a h : Nat} {w : QWord} (hw : wOp w ≠ 0x24) : s.normPending a h w = false := by
  simp [State.normPending, hw]

/-- What the completion of a word leaves, by what its work leaves: once that is done, the word is gone and its counter signalled (R257). -/
def endWord (e : EngineId) (h idx : Nat) (w : QWord) (v : State) : Option State → State
  | some t => sigOf h w (dropProg e idx t)
  | none => v

/-- Settles O55: what completes each kind of word. -/
theorem wordCompletionCompletes : Obligations.WordCompletionCompletes := by
  refine ⟨fun s a idx i h sc p => ?_, fun s h sc idx i p => ?_, fun s h sc idx i p hi hp => ?_⟩
  · intro e v hi hholder
    have hexec : exec (.wordCompletion e idx) s = .next (endWord e h idx i.word v (completeWord a h sc p i v)) := by
      simp only [v] at hi hholder
      show execWordCompletion (.exec a) idx s = _
      simp only [execWordCompletion, State.progOf, hi, hholder]
      rfl
    refine ⟨fun hsweep hport => hexec.trans (congrArg Host.Outcome.next ?_), fun hsweep hport => hexec.trans (congrArg Host.Outcome.next ?_),
      fun hop => hexec.trans (congrArg Host.Outcome.next ?_), fun hop => hexec.trans (congrArg Host.Outcome.next ?_),
      fun hop => hexec.trans (congrArg Host.Outcome.next ?_)⟩
    · rw [completeWord, if_pos (by simp [hsweep, hport])]
      cases v.portDone a i <;> rfl
    · rw [completeWord, if_neg (by simp [hport]), if_pos hsweep]
      cases v.sweepApplied a i <;> rfl
    · have hrest : completeWord a h sc p i v = deliverSend h sc a i p.plan v := by
        simp [completeWord, not_isSweep (w := i.word) (by simp [hop]), not_normPending (w := i.word) (by omega), hop]
      exact congrArg (endWord e h idx i.word v) hrest
    · have hrest : completeWord a h sc p i v = some (putStore a (wf i.word 59 44 * 64) i.data i.flags v) := by
        simp [completeWord, not_isSweep (w := i.word) (by simp [hop]), not_normPending (w := i.word) (by omega), hop]
      exact congrArg (endWord e h idx i.word v) hrest
    · have hrest : completeWord a h sc p i v = some v := by
        rcases hop with hop | ⟨hop, hstat⟩
        · simp [completeWord, not_isSweep (w := i.word) (by simp [hop]), not_normPending (w := i.word) (by omega), hop]
        · simp [completeWord, not_isSweep (w := i.word) (by simp [hop]), hstat, hop]
      exact congrArg (endWord e h idx i.word v) hrest
  · intro v hi hp
    simp only [v] at hi hp
    refine congrArg Host.Outcome.next ?_
    simp only [hi, hp]
    rfl
  · refine congrArg Host.Outcome.next ?_
    simp only [hi, hp]

end Sys2Proof.Proofs
end

section
/-! Proofs about memory: what a write leaves of every byte of RAM, and the words and accesses that store (chapters 04, 07, 09, 13). -/

namespace Sys2Proof.Proofs

open Sys2Proof Sys2Proof.Machine Sys2Proof.Safety Sys2Proof.Laws

/-! ## One byte of RAM after a write -/

/-- Does an undefined run hold a byte of RAM? -/
def inRun (j : Nat) (r : Nat × Nat × Nat) : Bool := decide (r.1 ≤ j) && decide (j < r.1 + r.2.1)

/-- A byte is a free value of the first undefined run that holds it, else what is stored. -/
theorem ramAt_eq (s : State) (j : Nat) :
    s.ramAt j = match (s.ramUndef.find? (inRun j)).map (·.2.2) with
      | some d => Config.freeByte d j
      | none => memGet ramFill s.ram j := by
  unfold State.ramAt
  show (match s.ramUndef.find? (inRun j) with | some r => _ | none => _) = _
  cases s.ramUndef.find? (inRun j) <;> rfl

/-- What a cut leaves of one undefined run: its bytes before and after the cut. -/
def leftOf (a n : Nat) (r : Nat × Nat × Nat) : List (Nat × Nat × Nat) :=
  [(r.1, min r.2.1 (a - r.1), r.2.2), (max r.1 (a + n), r.1 + r.2.1 - max r.1 (a + n), r.2.2)].filter (fun x => decide (x.2.1 ≠ 0))

theorem cutRuns_cons (a n : Nat) (r : Nat × Nat × Nat) (l : List (Nat × Nat × Nat)) : cutRuns a n (r :: l) = leftOf a n r ++ cutRuns a n l := rfl

theorem find_leftOf (a n j : Nat) (r : Nat × Nat × Nat) :
    ((leftOf a n r).find? (inRun j)).map (·.2.2) = if a ≤ j ∧ j < a + n then none else if inRun j r then some r.2.2 else none := by
  have hbefore : inRun j (r.1, min r.2.1 (a - r.1), r.2.2) = true ↔ inRun j r = true ∧ j < a := by
    simp only [inRun, Bool.and_eq_true, decide_eq_true_eq]; omega
  have hafter : inRun j (max r.1 (a + n), r.1 + r.2.1 - max r.1 (a + n), r.2.2) = true ↔ inRun j r = true ∧ a + n ≤ j := by
    simp only [inRun, Bool.and_eq_true, decide_eq_true_eq]; omega
  have hlen (x : Nat × Nat × Nat) : decide (decide (x.2.1 ≠ 0) = true ∧ inRun j x = true) = inRun j x := by
    rw [Bool.eq_iff_iff]
    simp only [inRun, Bool.and_eq_true, decide_eq_true_eq]; omega
  simp only [leftOf, List.find?_filter, hlen, List.find?_cons, List.find?_nil]
  by_cases hr : inRun j r = true
  · by_cases hj : j < a
    · have hout : ¬(a ≤ j ∧ j < a + n) := by omega
      simp [hbefore.mpr ⟨hr, hj⟩, hout, hr]
    · have hfirst : inRun j (r.1, min r.2.1 (a - r.1), r.2.2) = false := Bool.eq_false_iff.mpr fun h => hj (hbefore.mp h).2
      by_cases hj' : a + n ≤ j
      · have hout : ¬(a ≤ j ∧ j < a + n) := by omega
        simp [hfirst, hafter.mpr ⟨hr, hj'⟩, hout, hr]
      · have hin : a ≤ j ∧ j < a + n := by omega
        have hlast : inRun j (max r.1 (a + n), r.1 + r.2.1 - max r.1 (a + n), r.2.2) = false :=
          Bool.eq_false_iff.mpr fun h => hj' (hafter.mp h).2
        simp only [hfirst, hlast, hin, and_self, if_true, Option.map_none]
  · have hfirst : inRun j (r.1, min r.2.1 (a - r.1), r.2.2) = false := Bool.eq_false_iff.mpr fun h => hr (hbefore.mp h).1
    have hlast : inRun j (max r.1 (a + n), r.1 + r.2.1 - max r.1 (a + n), r.2.2) = false :=
      Bool.eq_false_iff.mpr fun h => hr (hafter.mp h).1
    simp [hfirst, hlast, hr]

/-- Cutting a run out takes its bytes from every undefined run, and no others. -/
theorem find_cutRuns (a n j : Nat) (l : List (Nat × Nat × Nat)) :
    ((cutRuns a n l).find? (inRun j)).map (·.2.2) = if a ≤ j ∧ j < a + n then none else (l.find? (inRun j)).map (·.2.2) := by
  induction l with
  | nil => simp [cutRuns]
  | cons r l ih =>
    rw [cutRuns_cons, List.find?_append, Option.map_or, find_leftOf, ih, List.find?_cons]
    by_cases hcut : a ≤ j ∧ j < a + n
    · simp only [hcut, and_self, if_true, Option.or_none]
    · simp only [hcut, if_false]
      cases inRun j r <;> rfl

/-! ## RAM in its canonical form -/

/-- One byte written is read back, and every other byte reads as before. -/
theorem ramAt_ramPut {s : State} (h : Memory.wf ramFill s.ram = true) (k j : Nat) (b : Byte) :
    (ramPut k b s).ramAt j = if j = k then b else s.ramAt j := by
  have hundef : ((ramPut k b s).ramUndef.find? (inRun j)).map (·.2.2) =
      if j = k then none else (s.ramUndef.find? (inRun j)).map (·.2.2) := by
    by_cases hnil : s.ramUndef = []
    · simp [ramPut, hnil]
    · have hcut := find_cutRuns k 1 j s.ramUndef
      simp only [Nat.lt_succ_iff, ← Nat.le_antisymm_iff, eq_comm (a := k)] at hcut
      simp only [ramPut, hnil, if_false, hcut]
  rw [ramAt_eq, ramAt_eq, hundef]
  by_cases hj : j = k
  · subst hj
    simp only [if_true]
    exact memGet_memSet_same h
  · simp only [hj, if_false]
    rw [show (ramPut k b s).ram = memSet ramFill s.ram k b from rfl, memGet_memSet_other h hj]

theorem inv_ramPut {k : Nat} {b : Byte} {s : State} (h : Safety.Inv s) : Safety.Inv (ramPut k b s) := ramPut_does.inv h

/-- Writing the rest of a run behind its first byte writes the run. -/
theorem getD_written (k j : Nat) (x : Byte) (b : Bytes) (old : Byte) :
    (if k + 1 ≤ j ∧ j < k + 1 + b.length then b.getD (j - (k + 1)) 0 else if j = k then x else old) =
      if k ≤ j ∧ j < k + (x :: b).length then (x :: b).getD (j - k) 0 else old := by
  rw [List.length_cons]
  by_cases hj : j = k
  · subst hj
    rw [if_neg (by omega), if_pos rfl, if_pos (by omega), Nat.sub_self, List.getD_cons_zero]
  · by_cases hin : k + 1 ≤ j ∧ j < k + 1 + b.length
    · rw [if_pos hin, if_pos (by omega), show j - k = (j - (k + 1)) + 1 by omega, List.getD_cons_succ]
    · rw [if_neg hin, if_neg hj, if_neg (by omega)]

theorem ramAt_storeWr {s : State} (h : Safety.Inv s) (a off j : Nat) (b : Bytes) :
    (storeWr a off b s).ramAt j =
      if storeDva a off ≤ j ∧ j < storeDva a off + b.length then b.getD (j - storeDva a off) 0 else s.ramAt j := by
  induction b generalizing s off with
  | nil =>
    rw [if_neg (by rw [List.length_nil]; omega)]
    rfl
  | cons x b ih =>
    have hnext : storeDva a (off + 1) = storeDva a off + 1 := rfl
    rw [storeWr, ih (inv_ramPut h), ramAt_ramPut h.ram, hnext, getD_written]


theorem ramAt_putStore {s : State} (h : Safety.Inv s) (a off j : Nat) (b : Bytes) (fl : Half) :
    (putStore a off b fl s).ramAt j =
      if storeDva a off ≤ j ∧ j < storeDva a off + b.length then b.getD (j - storeDva a off) 0 else s.ramAt j := by
  rw [putStore, Does.ramAt setTaint_does, ramAt_storeWr h]

/-! ## The transpose window of an array (R135, R136)

The latch and the accumulator errors leave it alone. -/

theorem record_arrs (cls : ErrClass) (code : Nat) (i : RecInfo) (s : State) : (record cls code i s).arrs = s.arrs :=
  record_does.frame .arrs (by decide)

theorem count_arrs (off : Nat) (s : State) : (count off s).arrs = s.arrs := count_does.frame .arrs (by decide)

theorem eccHit_keeps (a : Nat) (d : Desc) (runs : List (Nat × Nat)) (hit : EccHit) (s : State) : ArrKeeps a Arr.twin s (eccHit a d runs hit s) := by
  unfold eccHit
  extract_lets read key s1 s2 mark
  have h1 : ArrKeeps a Arr.twin s s1 := by
    refine .updArr ?_
    exact fun _ => rfl
  have h2 : ArrKeeps a Arr.twin s s2 := h1.trans (.of_arrs ((record_arrs ..).trans (count_arrs ..)))
  refine .ite .refl (.ite (.of_arrs (count_arrs ..)) ?_)
  split
  · refine h2.trans (.updArr ?_)
    exact fun _ => rfl
  · exact .ite h2 (h2.trans (excludeCell_keeps (fun _ _ => rfl) ..))

theorem recordUnmapped_keeps (a : Nat) (w : QWord) (l : Nat) (s : State) : ArrKeeps a Arr.twin s (recordUnmapped a w l s) := by
  unfold recordUnmapped
  extract_lets p
  split
  · refine .trans (.updArr ?_) (.of_arrs (record_arrs ..))
    exact fun _ => rfl
  · exact .refl

theorem putSweep_keeps (a : Nat) (i : InProg) (l : Nat) (last : Bool) (st : SwSt) (s : State) : ArrKeeps a Arr.twin s (putSweep a i l last st s) := by
  unfold putSweep
  extract_lets d st'
  refine .trans (.trans (.updArr ?_) (.updArr ?_)) (.of_arrs (countFmt_does.frame .arrs (by decide)))
  · exact fun _ => rfl
  · exact fun _ => rfl

theorem applySlateLine_keeps (a : Nat) (i : InProg) (e : SweepLine) (s : State) : ArrKeeps a Arr.twin s (applySlateLine a i e s) :=
  ((recordUnmapped_keeps a i.word e.seqL s).trans (.forEach fun _ _ => eccHit_keeps ..)).trans (putSweep_keeps ..)

theorem applyHead_keeps (a : Nat) (s : State) : ArrKeeps a Arr.twin s (applyHead a s) := by
  unfold applyHead
  split
  · refine .ite .refl ((applySlateLine_keeps ..).trans (.trans (.of_arrs (reconWait_does.frame .arrs (by decide))) (.updArr ?_)))
    exact fun _ => rfl
  · exact .refl

theorem freeHead_keeps (a : Nat) (s : State) : ArrKeeps a Arr.twin s (freeHead a s) := by
  refine .updArr fun r => ?_
  split
  · rfl
  · split <;> rfl

theorem flushLatch_keeps (a n : Nat) (s : State) : ArrKeeps a Arr.twin s (flushLatch a n s) := by
  induction n generalizing s with
  | zero => exact .refl
  | succ n ih =>
    unfold flushLatch
    extract_lets s1
    have h1 : ArrKeeps a Arr.twin s s1 := applyHead_keeps a s
    split
    · exact .ite (h1.trans ((freeHead_keeps a s1).trans (ih _))) h1
    · exact h1

/-! ## A DRAIN stores where its KEEP says (R126, R128) -/

theorem keepRun_of {s t : State} {a : Nat} (hram : ∀ k, t.ramAt k = s.ramAt k) (htwin : (t.arr a).twin = (s.arr a).twin) (w : QWord) :
    t.keepRun a w = s.keepRun a w := by
  simp only [State.keepRun, State.windowOf, descOf_of_ramAt hram, htwin]

/-- Elements of a row that a DRAIN reads (R126, R135). -/
def drainWidth (a : Nat) (w : QWord) (s : State) : Nat := if wXpose w then s.windowOf a w else (s.descOf a (wDesc w)).cols

theorem length_drainRow (a : Nat) (w : QWord) (b : Nat) (s : State) : (s.drainRow a w b).1.elems.length = drainWidth a w s := by
  unfold State.drainRow drainWidth
  dsimp only
  split <;> simp only [List.length_map, List.length_range]

theorem length_wordBytes (l : List Word) : (wordBytes l).length = 4 * l.length := by
  induction l with
  | nil => rfl
  | cons x l ih => rw [wordBytes, List.flatMap_cons, List.length_append, length_toLE, ← wordBytes, ih, List.length_cons]; omega

theorem le_units (n : Nat) : n ≤ units n := by
  unfold units cdiv
  omega

/-- Writes that each leave a byte as it is leave it as it is together. -/
theorem ramAt_forEach {α : Type} {l : List α} {g : α → State → State} {k : Nat} {s : State} (h : Safety.Inv s) (hinv : ∀ x t, Safety.Inv t → Safety.Inv (g x t))
    (hg : ∀ x ∈ l, ∀ t, Safety.Inv t → (g x t).ramAt k = t.ramAt k) : (forEach l g s).ramAt k = s.ramAt k := by
  induction l generalizing s with
  | nil => rfl
  | cons x l ih =>
    exact (ih (hinv x s h) fun y hy => hg y (List.mem_cons_of_mem x hy)).trans (hg x (List.mem_cons_self ..) s h)

theorem inv_putStore {a off : Nat} {b : Bytes} {fl : Half} {s : State} (h : Safety.Inv s) : Safety.Inv (putStore a off b fl s) := putStore_does.inv h

/-- Rows of one width, kept one after another in whole units, change no byte before or behind them. -/
theorem ramAt_keepRows {a off n : Nat} {rows : List RowD} {s : State} (h : Safety.Inv s) (hrows : ∀ y ∈ rows, y.elems.length = n) {k : Nat}
    (hk : k < storeDva a off ∨ storeDva a off + rows.length * units (4 * n) ≤ k) : (keepRows a off rows s).ramAt k = s.ramAt k := by
  refine ramAt_forEach h (fun x t ht => inv_putStore ht) fun x hx t ht => ?_
  obtain ⟨hrow, hrange⟩ : x.2 ∈ rows ∧ x.1 < rows.length := ⟨(List.of_mem_zip hx).2, List.mem_range.mp (List.of_mem_zip hx).1⟩
  have hlen : x.2.elems.length = n := hrows x.2 hrow
  have hunit : 4 * n ≤ units (4 * n) := le_units _
  have hend : x.1 * units (4 * n) + units (4 * n) ≤ rows.length * units (4 * n) := by
    rw [← Nat.succ_mul]
    exact Nat.mul_le_mul_right _ hrange
  have hbase : storeDva a (off + x.1 * units (4 * n)) = storeDva a off + x.1 * units (4 * n) := (Nat.add_assoc ..).symm
  rw [ramAt_putStore ht, length_wordBytes, hlen, hbase, if_neg (by omega)]

theorem drainWidth_of {s t : State} {a : Nat} (hram : ∀ k, t.ramAt k = s.ramAt k) (htwin : (t.arr a).twin = (s.arr a).twin) (w : QWord) :
    drainWidth a w t = drainWidth a w s := by
  simp only [drainWidth, State.windowOf, descOf_of_ramAt hram, htwin]

theorem keepRun_length {s : State} {a : Nat} {w : QWord} {run : Nat × Nat} (h : s.keepRun a w = some run) :
    run.2 = (s.descOf a (wDesc w)).groups * units (4 * drainWidth a w s) := by
  unfold State.keepRun at h
  split at h
  · exact (congrArg Prod.snd (Option.some.inj h)).symm
  · nomatch h

/-- What a DRAIN leaves before its rows are kept: its reads' errors, its counts and the entries no longer pending. -/
theorem drainWord_ramAt {a : Nat} {ecc : List EccHit} {x : At} {s : State} (h : Safety.Inv s) {k : Nat}
    (hk : ∀ run, s.keepRun a x.w = some run → k < storeDva a run.1 ∨ storeDva a run.1 + run.2 ≤ k) :
    (drainWord a ecc x s).ramAt k = s.ramAt k := by
  unfold drainWord
  extract_lets d s1 out rows bads s2 names read s3 s4
  have hd1 : Does [.cnt, .host, .err, .arrs, .out] s s1 := forEach_does Does.refl fun _ _ hx => Does.trans hx eccHit_does
  have hram1 : ∀ k, s1.ramAt k = s.ramAt k := Does.ramAt hd1
  have hram2 : ∀ k, s2.ramAt k = s1.ramAt k := fun k => by
    rw [Does.ramAt accSats_does, Does.ramAt stick_does, Does.ramAt countBy_does]
  have hram3 : ∀ k, s3.ramAt k = s.ramAt k := fun k => by
    rw [Does.ramAt updArr_does, hram2, hram1]
  have hkeep1 : ArrKeeps a Arr.twin s s1 := .forEach fun _ _ => eccHit_keeps ..
  have hkeep3 : ArrKeeps a Arr.twin s s3 := by
    refine (hkeep1.trans (.of_arrs ?_)).trans (.updArr ?_)
    · rw [accSats_does.frame .arrs (by decide), stick_arrs, countBy_arrs]
    · exact fun _ => rfl
  have hinv3 : Safety.Inv s3 := updArr_does.inv (accSats_does.inv (stick_does.inv (countBy_does.inv (hd1.inv h))))
  have hrun : s3.keepRun a x.w = s.keepRun a x.w := keepRun_of hram3 hkeep3.own x.w
  have hlen : rows.length = d.groups := by simp only [rows, out, List.length_map, List.length_range]
  have hrows : ∀ y ∈ rows, y.elems.length = drainWidth a x.w s := by
    intro y hy
    simp only [rows, out, List.map_map, List.mem_map] at hy
    obtain ⟨b, -, rfl⟩ := hy
    exact (length_drainRow a x.w b s1).trans (drainWidth_of hram1 hkeep1.own x.w)
  rw [Does.ramAt issue_does, Does.ramAt flagRows_does]
  cases hcase : s.keepRun a x.w with
  | none =>
    have hs4 : s4 = s3 := by simp only [s4, hrun, hcase]
    rw [hs4, hram3]
  | some run =>
    have hs4 : s4 = keepRows a run.1 rows s3 := by simp only [s4, hrun, hcase]
    have hout := hk run hcase
    rw [keepRun_length hcase] at hout
    rw [hs4, ramAt_keepRows hinv3 hrows (by rw [hlen]; exact hout), hram3]

/-- Settles O20: the drain's own run is the one its word names before the latch is applied, and only the kept rows store. -/
theorem drainStoresInItsRun : Obligations.DrainStoresInItsRun := by
  intro s a ecc x h hat hfree hcovers
  obtain ⟨hdrain, -⟩ := resultWordsComplete
  obtain ⟨-, hruns⟩ := hdrain s a ecc x hat
  refine ⟨_, hruns hfree hcovers, fun k hk => ?_⟩
  have hram : ∀ k, (flushLatch a 3 s).ramAt k = s.ramAt k := Does.ramAt flushLatch_does
  have hrun : (flushLatch a 3 s).keepRun a x.w = s.keepRun a x.w := keepRun_of hram (flushLatch_keeps a 3 s).own x.w
  rw [drainWord_ramAt (flushLatch_does.inv h) (by rw [hrun]; exact hk), hram]

/-! ## A RECV stores the bytes it took (R254, R257) -/

/-- Settles O19: of what the completion does, only the store of the bytes taken changes RAM. -/
theorem recvStoresItsRun : Obligations.RecvStoresItsRun := by
  intro s a idx i h sc p v hinv hi hholder hop
  obtain ⟨hwords, -⟩ := wordCompletionCompletes
  obtain ⟨-, -, -, hrecv, -⟩ := hwords s a idx i h sc p hi hholder
  have hv : Safety.Inv v := fabricSends_does.inv (flushLatch_does.inv hinv)
  refine ⟨_, hrecv hop, fun k => ?_⟩
  rw [Does.ramAt sigOf_does, Does.ramAt dropProg_does, ramAt_putStore hv, Does.ramAt fabricSends_does, Does.ramAt flushLatch_does]

/-! ## Host accesses through BAR2 (R290, R399) -/

/-- Hub SRAM below the pages the device reserves is plain RAM (R290). -/
theorem loc_of_hub {s : State} {a : Nat} (h : a + s.hubReserved * pageBytes < hubBytes) : s.loc a = .ram a := by
  have hlow : a < hubBytes := by omega
  have hown : ¬ hubBytes ≤ a + s.hubReserved * pageBytes := by omega
  rw [State.loc, if_pos hlow, State.hubLoc, decide_eq_false hown, Bool.false_and, if_neg Bool.false_ne_true]

theorem putByte_of_ram {s : State} {a k : Nat} (b : Byte) (h : s.loc a = .ram k) : putByte a b s = markDirty k (ramPut k b s) := by
  rw [putByte, h]

theorem hubReserved_putByte (a : Nat) (b : Byte) (s : State) : (putByte a b s).hubReserved = s.hubReserved := by
  have hmodels : (putByte a b s).models = s.models := putByte_does.frame .models (by decide)
  have hplans : (putByte a b s).plans = s.plans := putByte_does.frame .plans (by decide)
  have hnorm : (putByte a b s).norm = s.norm := putByte_does.frame .norm (by decide)
  simp only [State.hubReserved, State.histories, hmodels, hplans, hnorm]

theorem ramAt_putBytes {a j : Nat} {b : Bytes} {s : State} (h : Safety.Inv s) (hb : a + b.length + s.hubReserved * pageBytes ≤ hubBytes) :
    (putBytes a b s).ramAt j = if a ≤ j ∧ j < a + b.length then b.getD (j - a) 0 else s.ramAt j := by
  induction b generalizing s a with
  | nil =>
    rw [if_neg (by rw [List.length_nil]; omega)]
    rfl
  | cons x b ih =>
    rw [List.length_cons] at hb
    have hloc : s.loc a = .ram a := loc_of_hub (by omega)
    have hrest : a + 1 + b.length + (putByte a x s).hubReserved * pageBytes ≤ hubBytes := by rw [hubReserved_putByte]; omega
    rw [putBytes, ih (putByte_does.inv h) hrest, putByte_of_ram x hloc, Does.ramAt markDirty_does, ramAt_ramPut h.ram, getD_written]

theorem ramAt_writeDva (a j : Nat) (b : Bytes) (s : State) : (writeDva a b s).ramAt j = (putBytes a b s).ramAt j := by
  unfold writeDva
  extract_lets s1 s2
  have h2 : s2.ramAt j = s1.ramAt j := by
    unfold s2
    split
    · rfl
    · have htaint : Does [.taint] s1 (overRam a b.length (fun k n s => setTaint k n 0 s) s1) :=
        overRam_does Does.refl fun _ _ _ hy => Does.trans hy setTaint_does
      rw [Does.ramAt htaint]
  split
  · exact h2
  · rw [Does.ramAt clearPoison_does, h2]

theorem ramAt_hostWrite (bar off a j : Nat) (b : Bytes) (s : State) : (hostWrite bar off a b s).ramAt j = (putBytes a b s).ramAt j := by
  unfold hostWrite
  extract_lets bad s'
  have hs' : s'.ramAt j = (putBytes a b s).ramAt j := by rw [Does.ramAt tellLent_does, ramAt_writeDva]
  split
  · rw [Does.ramAt hostAccess_does, Does.ramAt count_does, hs']
  · exact hs'

theorem ramAt_bar2Read (off len k : Nat) (data : Bytes) (s : State) : (bar2Access false off len data s).ramAt k = s.ramAt k := by
  have hread : (sndSt (hostRead 2 off (s.host.bar2Base + off) len s)).ramAt k = s.ramAt k := by rw [Does.ramAt hostRead_does]
  exact hread

/-- Settles O21: awake, the access is carried out at once; below the reserved pages every byte of it is plain RAM. -/
theorem hostWritesStoreTheirBytes : Obligations.HostWritesStoreTheirBytes := by
  intro s o len data h hawake
  refine ⟨fun hwin hhub => ?_, ?_⟩
  · have hexec : exec (.hostBar2Access true o len data) s = .next (hostWrite 2 o (s.host.bar2Base + o) data s) :=
      congrArg Host.Outcome.next ((if_neg (Nat.not_lt.mpr hwin)).trans (busAccess_of_awake hawake ..))
    exact ⟨_, hexec, fun k => (ramAt_hostWrite ..).trans (ramAt_putBytes h hhub)⟩
  · have hexec : exec (.hostBar2Access false o len data) s =
        .next (if 2 ^ s.host.bar2SizeLog2 < o + len then s else bar2Access false o len data s) :=
      congrArg (fun t => Host.Outcome.next (if 2 ^ s.host.bar2SizeLog2 < o + len then s else t)) (busAccess_of_awake hawake ..)
    refine ⟨_, hexec, fun k => ?_⟩
    split
    · rfl
    · rw [ramAt_bar2Read]

end Sys2Proof.Proofs
end

section
/-! Proofs about the code flash (chapter 14): which bytes a routine can change, and how each routine goes on once its checks pass. -/

namespace Sys2Proof.Proofs

open Sys2Proof Sys2Proof.Machine Sys2Proof.Safety Sys2Proof.Laws

/-! ## What an operation leaves of the bytes outside its area -/

/-- Entries taken out of a memory in its canonical form leave the byte of every address whose entry stays. -/
theorem memGet_filter {f : Byte} {m : Mem} {p : Host.Cell → Bool} (h : Memory.wf f m = true) {k : Nat} (hp : ∀ c : Host.Cell, c.1 = k → p c = true) :
    memGet f (m.filter p) k = memGet f m k := by
  induction m with
  | nil => rfl
  | cons c m ih =>
    obtain ⟨-, habove, hrest⟩ := wf_cons.mp h
    have htail : k < c.1 → memGet f (m.filter p) k = f := fun hk =>
      memGet_above fun d hd => Nat.lt_trans hk (habove d (List.mem_filter.mp hd).1)
    by_cases hc : p c = true
    · rw [List.filter_cons_of_pos hc, memGet, memGet, ih hrest]
    · have hne : c.1 ≠ k := fun he => hc (hp c he)
      rw [List.filter_cons_of_neg hc, memGet, if_neg hne]
      split
      · next hk => exact htail hk
      · exact ih hrest

theorem length_memRead (f : Byte) (m : Mem) (a n : Nat) : (memRead f m a n).length = n := by
  induction n generalizing a with
  | zero => rfl
  | succ n ih => rw [memRead, List.length_cons, ih]

/-- An operation that is no erase stores as many bytes as its area has. -/
def FlashOp.Fits (o : FlashOp) : Prop :=
  o.erase = false → if o.word then o.length = 8 else o.data.length = o.length

section
variable {s : State} {o : FlashOp} {k : Nat}

theorem flashMem_apply (h : Memory.wf flashFill s.flash.mem = true) (ho : FlashOp.Fits o) (ok : Bool) (hk : k < o.start ∨ o.start + o.length ≤ k) :
    memGet flashFill (o.apply ok s).flash.mem k = memGet flashFill s.flash.mem k := by
  unfold FlashOp.apply
  split
  · rfl
  · split
    · exact memGet_filter h fun c hc => by simpa [hc] using hk
    · next herase =>
      have hlen := ho (Bool.eq_false_iff.mpr herase)
      split
      · next hword =>
        rw [if_pos hword] at hlen
        exact memGet_memWrite_other h (by rw [length_toLE]; omega)
      · next hword =>
        rw [if_neg hword] at hlen
        exact memGet_memWrite_other h (by omega)

theorem updBank_mem (i : Nat) (f : Bank → Bank) : (updBank i f s).flash.mem = s.flash.mem := by
  unfold updBank
  split <;> rfl

theorem flashMem_startOp (h : Memory.wf flashFill s.flash.mem = true) (ho : FlashOp.Fits o) (core : Nat) (stall ok : Bool)
    (hk : k < o.start ∨ o.start + o.length ≤ k) :
    memGet flashFill (startOp core stall ok o s).flash.mem k = memGet flashFill s.flash.mem k := by
  unfold startOp
  extract_lets s1 s2
  split
  · exact flashMem_apply (s := emit (.stall core) s1) h ho ok hk
  · exact congrArg (memGet flashFill · k) (updBank_mem (s := s1) _ _)

/-- A routine changes no byte outside the area of its operation, whether its checks pass or not. -/
theorem flashMem_flashRoutine (h : Memory.wf flashFill s.flash.mem = true) (ho : FlashOp.Fits o) (core lr addr n : Nat) (flags : Word) (bad : Bool)
    (late : Option Status) (ok : Bool) (hk : k < o.start ∨ o.start + o.length ≤ k) :
    memGet flashFill (flashRoutine core lr addr n flags bad late ok o s).flash.mem k = memGet flashFill s.flash.mem k := by
  unfold flashRoutine
  extract_lets a stall bank region st
  clear_value st
  cases st with
  | some st => rfl
  | none =>
    cases late with
    | some st => rfl
    | none => exact flashMem_startOp h ho core stall ok hk

theorem redrawFlash_flash (s : State) : (redrawFlash s).flash = s.flash := by
  unfold redrawFlash
  split <;> rfl

end

/-- The operation that FL_ERASE starts. -/
def eraseOp (addr count : Nat) : FlashOp := { start := addr - flashCore, length := count * sectorBytes, erase := true, data := [], word := false }

/-- The operation that FL_PROGRAM starts. -/
def programOp (addr count src : Nat) (mgmt : Mem) : FlashOp :=
  { start := addr - flashCore, length := count * 256, erase := false, data := memRead ramFill mgmt src (count * 256), word := false }

/-- The operation that FL_WORD starts. -/
def wordOp (addr : Nat) (v : Dword) : FlashOp := { start := addr - flashCore, length := 8, erase := false, data := toLE 8 v.toNat, word := true }

theorem fits_eraseOp (addr count : Nat) : FlashOp.Fits (eraseOp addr count) := fun he => nomatch he
theorem fits_programOp (addr count src : Nat) (mgmt : Mem) : FlashOp.Fits (programOp addr count src mgmt) := fun _ => length_memRead ..
theorem fits_wordOp (addr : Nat) (v : Dword) : FlashOp.Fits (wordOp addr v) := fun _ => rfl

/-- FL_ERASE's own checks 2 fail (R432). -/
def eraseBad (addr count : Nat) (flags : Word) : Bool :=
  let a := addr - flashCore
  decide (a % sectorBytes ≠ 0) || decide (count = 0) || decide (8 < count) || decide (journalBase ≤ a) || (flags.getLsbD 0 && decide (1 < count))

/-- FL_PROGRAM's own checks 2 fail (R432). -/
def programBad (addr src count : Nat) : Bool :=
  let a := addr - flashCore
  decide (a % 256 ≠ 0) || decide (count = 0) || decide (8 < count) || decide (journalBase ≤ a) || decide (mgmtBytes < src + count * 256)

section
variable (s : State) (core lr addr src count : Nat) (v : Dword) (flags : Word) (ok : Bool)

theorem execFlErase_eq : execFlErase core lr addr count flags ok s =
    .next (flashRoutine core lr addr (count * sectorBytes) flags (eraseBad addr count flags) none ok (eraseOp addr count) s) := rfl

theorem execFlProgram_eq : execFlProgram core lr addr src count flags ok s =
    .next (flashRoutine core lr addr (count * 256) flags (programBad addr src count)
      (if (List.range (count * 256 / 8)).all (fun i => s.wordErased ((addr - flashCore) / 8 + i)) then none else some .wrongState) ok
      (programOp addr count src s.mgmt) s) := rfl

theorem execFlWord_eq : execFlWord core lr addr v flags ok s =
    .next (flashRoutine core lr addr 8 flags (decide ((addr - flashCore) % 8 ≠ 0)) ((redrawFlash s).wordCheck ((addr - flashCore) / 8) v) ok
      (wordOp addr v) (redrawFlash s)) := rfl

end

/-- Settles O22: each routine's operation covers the area it names. -/
theorem flashRoutinesStayInTheirArea : Obligations.FlashRoutinesStayInTheirArea := by
  intro s core lr addr src count flags ok v c n h haddr hc
  simp only [List.mem_cons, Prod.mk.injEq, List.not_mem_nil, or_false] at hc
  obtain ⟨rfl, rfl⟩ | ⟨rfl, rfl⟩ | ⟨rfl, rfl⟩ := hc
  · refine ⟨_, execFlErase_eq .., fun k hk => ?_⟩
    exact flashMem_flashRoutine h.flash (fits_eraseOp addr count) core lr addr _ flags _ none ok (by simpa only [eraseOp] using hk)
  · refine ⟨_, execFlProgram_eq .., fun k hk => ?_⟩
    exact flashMem_flashRoutine h.flash (fits_programOp addr count src s.mgmt) core lr addr _ flags _ _ ok (by simpa only [programOp] using hk)
  · have hflash : (redrawFlash s).flash = s.flash := redrawFlash_flash s
    refine ⟨_, execFlWord_eq .., fun k hk => ?_⟩
    rw [← hflash]
    exact flashMem_flashRoutine (hflash ▸ h.flash) (fits_wordOp addr v) core lr addr 8 flags _ _ ok (by simpa only [wordOp] using hk)

/-! ## The routines' checks (R432) -/

/-- A routine whose checks all pass starts its operation. -/
theorem flashRoutine_passes {s : State} {core lr addr n : Nat} {flags : Word} {ok : Bool} {o : FlashOp} (haddr : flashCore ≤ addr)
    (hregion : ∃ r, flashRegion (addr - flashCore) = some r ∧ addr - flashCore + n ≤ r.2) (hflags : flags.toNat ≤ 1)
    (hself : flags.getLsbD 0 = true ∨ bankOf lr ≠ some ((addr - flashCore) / bankBytes))
    (hidle : (s.bank ((addr - flashCore) / bankBytes)).op = none) :
    flashRoutine core lr addr n flags false none ok o s = startOp core (flags.getLsbD 0) ok o s := by
  obtain ⟨r, hr, hn⟩ := hregion
  have hbank : (!flags.getLsbD 0 && decide (bankOf lr = some ((addr - flashCore) / bankBytes))) = false := by
    rcases hself with hstall | hother
    · rw [hstall]
      rfl
    · simp [hother]
  simp only [flashRoutine, hr, hidle, hbank]
  rw [firstFail_none]
  simp [haddr, hn, hflags]

/-- Is this core address in the area that a bank's operation is busy with (R426)? -/
def busyAt (addr : Nat) (b : Bank) : Bool :=
  match b.op with
  | some o => decide (flashCore + o.start ≤ addr) && decide (addr < flashCore + o.start + o.length)
  | none => false

theorem execFlashBusyRead_eq (core addr kind : Nat) (s : State) : execFlashBusyRead core addr kind s =
    .next (if !busyAt addr s.flash.bank0 && !busyAt addr s.flash.bank1 then s
      else match kind with
        | 0 => emit (.coreFault core 0x21) s
        | 1 => emit (.coreFault core 0x22) s
        | _ => s) := rfl

theorem busy_of_bank {s : State} {addr i : Nat} (hi : i < 2) (h : busyAt addr (s.bank i) = true) :
    (!busyAt addr s.flash.bank0 && !busyAt addr s.flash.bank1) = false := by
  obtain rfl | rfl : i = 0 ∨ i = 1 := by omega
  · have h0 : busyAt addr s.flash.bank0 = true := h
    simp [h0]
  · have h1 : busyAt addr s.flash.bank1 = true := h
    simp [h1]

theorem bank_redrawFlash (i : Nat) (s : State) : (redrawFlash s).bank i = s.bank i := by
  simp only [State.bank, redrawFlash_flash]

/-! ## A record takes back no message -/

theorem mem_out_emit {o : Out} (x : Out) {s : State} (h : o ∈ s.out) : o ∈ (emit x s).out := List.mem_append_left _ h

theorem mem_out_count {o : Out} (off : Nat) {s : State} (h : o ∈ s.out) : o ∈ (count off s).out := by
  rwa [count_does.frame .out (by decide)]

theorem mem_out_record {o : Out} (cls : ErrClass) (code : Nat) (i : RecInfo) {s : State} (h : o ∈ s.out) : o ∈ (record cls code i s).out := by
  unfold record
  extract_lets det s1 x ct p e0 e s2 s3 s4
  have h1 : o ∈ s1.out := mem_out_count _ h
  split
  · exact mem_out_count _ h1
  · have h3 : o ∈ s3.out := by
      unfold s3
      split
      · exact mem_out_count _ h1
      · exact h1
    have h4 : o ∈ s4.out := by
      unfold s4
      split
      · exact mem_out_raiseVector _ h3
      · exact h3
    split
    · exact mem_out_emit _ h4
    · exact h4

/-- Settles O60: the checks of each routine, and the moments of a bank and of a ring. -/
theorem flashRoutinesComplete : Obligations.FlashRoutinesComplete := by
  refine ⟨fun s core lr addr count flags ok => ?_, fun s core lr addr src count flags ok => ?_, fun s core lr addr value flags ok => ?_,
    fun s core i hi => ⟨fun hop => ?_, fun hop => ?_⟩, fun s i ok fa o hi hop => ?_, fun s core addr i o hi hop hlo hhi => ?_,
    fun s core reg value => ?_, fun s core a ring count ha hring hcount hmax hfit hfree => ?_, fun s core a ha => ⟨fun r hr => ?_, fun hr => ?_⟩⟩
  · intro a n haddr hregion hflags hself hidle halign hpos hmax hjournal hstall
    have hone : (flags.getLsbD 0 && decide (1 < count)) = false := by
      cases hbit : flags.getLsbD 0 with
      | false => rfl
      | true => exact decide_eq_false (by rw [hstall hbit]; decide)
    have hbad : eraseBad addr count flags = false := by
      simp only [a] at halign hjournal
      simp only [eraseBad, hone, Bool.or_false, Bool.or_eq_false_iff, decide_eq_false_iff_not]
      omega
    refine (execFlErase_eq ..).trans (congrArg Host.Outcome.next ?_)
    rw [hbad]
    exact flashRoutine_passes haddr hregion hflags hself hidle
  · intro a n haddr hregion hflags hself hidle halign hpos hmax hjournal hsrc herased
    have hbad : programBad addr src count = false := by
      simp only [a, n] at halign hjournal hsrc
      simp only [programBad, Bool.or_eq_false_iff, decide_eq_false_iff_not]
      omega
    have hlate : (List.range (count * 256 / 8)).all (fun i => s.wordErased ((addr - flashCore) / 8 + i)) = true := by
      simpa using herased
    refine (execFlProgram_eq ..).trans (congrArg Host.Outcome.next ?_)
    rw [hbad, if_pos hlate]
    exact flashRoutine_passes haddr hregion hflags hself hidle
  · intro a v haddr hregion hflags hself hidle halign hcheck
    refine (execFlWord_eq ..).trans (congrArg Host.Outcome.next ?_)
    rw [hcheck, decide_eq_false (Classical.not_not.mpr halign)]
    exact flashRoutine_passes haddr hregion hflags hself ((congrArg Bank.op (bank_redrawFlash ..)).trans hidle)
  · refine congrArg Host.Outcome.next ((if_neg (Nat.not_le.mpr hi)).trans (if_pos ?_))
    exact Option.isSome_iff_ne_none.mpr hop
  · refine congrArg Host.Outcome.next ((if_neg (Nat.not_le.mpr hi)).trans (if_neg ?_))
    simp [hop]
  · refine congrArg Host.Outcome.next ?_
    simp only [hi, if_true, hop]
  · have hbusy : busyAt addr (s.bank i) = true := by simp [busyAt, hop, hlo, hhi]
    have hexec (kind : Nat) := execFlashBusyRead_eq core addr kind s
    rw [busy_of_bank hi hbusy] at hexec
    exact ⟨hexec 0, hexec 1, hexec 2⟩
  · exact ⟨_, rfl, mem_out_record _ _ _ (List.mem_append_right _ (List.mem_singleton_self _))⟩
  · have hargs : ¬(64 ≤ a ∨ ring % 64 ≠ 0 ∨ count = 0 ∨ 4096 < count ∨ hubBytes < ring + 16 * count) := by omega
    refine ⟨_, congrArg Host.Outcome.next ((if_neg hargs).trans (if_neg ?_)), mget_mset ..⟩
    cases hr : mget s.slate.rings a with
    | none => simp
    | some r => simp [hfree r hr]
  · refine congrArg Host.Outcome.next ((if_neg (Nat.not_le.mpr ha)).trans ?_)
    rw [hr]
  · refine congrArg Host.Outcome.next ((if_neg (Nat.not_le.mpr ha)).trans ?_)
    rw [hr]

end Sys2Proof.Proofs
end

section
/-! Proofs about the commands on models (chapters 10 and 12): creation, stage sessions, shards, commits, repair and deletion. -/

namespace Sys2Proof.Proofs

open Sys2Proof Sys2Proof.Machine Sys2Proof.Safety Sys2Proof.Laws

/-! ## Commands of this device's own queues -/

theorem argReservedW_own {s : State} {r : CmdRef} {op : Nat} {c : Cmd} (h : Starts s r op c) (m0 m1 m2 : Nat) :
    c.argReservedW m0 m1 m2 = c.argReserved m0 m1 m2 0 0 := by
  rw [Cmd.argReservedW, if_pos h.own]

/-! ## Staging (R307, R317-R321) -/

/-- The session that an opening makes (R317). -/
def opened (c : Cmd) (id : Nat) (b : Bytes) (s : State) : Stage :=
  let m := s.slot (c.fld 0 3 0)
  let resume := bit (c.arg 0) 7
  { id := id, slot := c.fld 0 3 0, members := c.sub.a1, reader := c.fld 0 21 16, layered := resume || bit (c.arg 0) 4,
    unitLayers := if resume then m.unitLayers else c.fld 0 31 24, mixed := if bit (c.arg 0) 5 then bit (c.arg 0) 6 else m.isMixed,
    prior := m.st, objs := if resume then m.objs else (items 16 b).map parseSObj, held := [], clean := [], round := [], ending := none,
    blocks := [], committed := m.units, parity := [], failed := false, floor := false, staged := [], endCmd := none }

theorem stage_openStage (c : Cmd) (id : Nat) (b : Bytes) (s : State) : (openStage c id b s).models.stage = some (opened c id b s) := rfl

/-- On a member of the session the slot becomes STAGING, or goes on as the swap that it is amid (R305, R317). -/
theorem slot_openStage {c : Cmd} {id : Nat} {b : Bytes} {s : State} (hmine : s.spar.member ∈ (opened c id b s).memberList) :
    ((openStage c id b s).slot (c.fld 0 3 0)).st = .staging ∨ ((openStage c id b s).slot (c.fld 0 3 0)).midSwap = true := by
  have hslot : (openStage c id b s).slot (c.fld 0 3 0) = { s.slot (c.fld 0 3 0) with
      st := if (s.slot (c.fld 0 3 0)).midSwap then (s.slot (c.fld 0 3 0)).st else .staging
      polMixed := if bit (c.arg 0) 5 then some (bit (c.arg 0) 6) else (s.slot (c.fld 0 3 0)).polMixed
      unitLayers := (opened c id b s).unitLayers } := by
    have hupd : (if s.spar.member ∈ (opened c id b s).memberList then updSlot (c.fld 0 3 0) (fun m => { m with
        st := if m.midSwap then m.st else .staging
        polMixed := if bit (c.arg 0) 5 then some (bit (c.arg 0) 6) else m.polMixed
        unitLayers := (opened c id b s).unitLayers }) s else s) = _ := if_pos hmine
    exact (congrArg (State.slot · (c.fld 0 3 0)) hupd).trans (slot_updSlot ..)
  rw [hslot]
  cases hmid : (s.slot (c.fld 0 3 0)).midSwap with
  | true => exact .inr hmid
  | false => exact .inl rfl

/-- Settles O24: each body's checks pass, and none of it needs another member. -/
theorem stagingCommandsComplete : Obligations.StagingCommandsComplete := by
  refine ⟨fun s r c i hs hargs hlen hfmt hlo hhi hslot hi => ⟨fun hwide => ?_, fun hwide => ?_⟩,
    fun s r pay c b hs hargs hpay hmask hlay hobjs hpart hne hbroken hfresh hstage hcommit hjobs hwide => ?_,
    fun s r pay c b g hs hargs hpay hmin hmax hlen hid hstage hg hreader hdata => ?_,
    fun s r c g hs hargs hlen hstage hg hend hlayers hst => ?_⟩
  · refine congrArg Host.Outcome.next (iarik_running hs ((checked_pass hs.head ?_).trans ?_))
    · simp [argReservedW_own hs, hargs, hlen, hs.own, hslot]; omega
    · simp [hs.own, hslot, hwide]
  · refine ⟨createSlot c i (s.models.created + 1) s,
      congrArg Host.Outcome.next (iarik_done hs ((checked_pass hs.head ?_).trans ?_)), ?_⟩
    · simp [argReservedW_own hs, hargs, hlen, hs.own, hslot]; omega
    · simp [hs.own, hslot, hwide]
    · simp [createSlot, State.slot, Slot.reset]
  · refine ⟨openStage c (s.models.nextStage % 65536) b s, opened c (s.models.nextStage % 65536) b s,
      congrArg Host.Outcome.next (iarik_done hs ((congrArg refused (checked_pass hs.head ?_)).trans ?_)), rfl, rfl, rfl, rfl, rfl,
      fun hmine _ => slot_openStage hmine⟩
    · have hunits : if bit (c.arg 0) 4 = true then ¬c.fld 0 31 24 = 0 else c.fld 0 31 24 = 0 := by
        split
        · next hbit => exact hlay.mpr hbit
        · next hbit => exact Classical.not_not.mp fun hne => hbit (hlay.mp hne)
      have hresume : (decide ((s.slot (c.fld 0 3 0)).st = .partialSwap) != bit (c.arg 0) 7) = false :=
        bne_eq_false_iff_eq.mpr (Bool.eq_iff_iff.mpr (decide_eq_true_iff.trans hpart))
      have hnew : (bit (c.arg 0) 4 && (decide ((s.slot (c.fld 0 3 0)).st = .created) ||
          (decide ((s.slot (c.fld 0 3 0)).st = .broken) && bit (c.arg 0) 8))) = false := by
        cases hbit : bit (c.arg 0) 4 with
        | false => rfl
        | true => simp [hfresh hbit]
      have hmend : (decide ((s.slot (c.fld 0 3 0)).st = .broken) && !bit (c.arg 0) 8) = false := by
        simpa using hbroken
      simp [argReservedW_own hs, hargs, hpay, hmask, hnew, hne, hresume, hmend, hstage, hcommit, hjobs]
      exact ⟨hunits, hobjs⟩
    · simp [hwide, hs.own, hpay, refused]
  · have hdest : (shardOk b && decide (u b 6 1 = 1)) = false := by
      cases hok : shardOk b with
      | false => rfl
      | true => simp [hdata hok]
    refine congrArg Host.Outcome.next (iarik_done hs ((checked_pass hs.head ?_).trans ?_))
    · simp [hargs, hpay, hstage, hg, hs.own, hid, hmin, ← hlen]
      omega
    · simp [hs.own, hstage, hreader, hpay, hdest]
  · refine congrArg Host.Outcome.next ?_
    by_cases hall : s.allCommitted g = true
    · refine (iarik_done hs ((checked_pass hs.head ?_).trans ?_)).trans (if_pos hall).symm
      · simp [argReservedW_own hs, hargs, hlen, hstage, hg, hlayers, hend]
      · simp [hstage, hall, hs.own, hst]
    · refine (iarik_running hs ((checked_pass hs.head ?_).trans ?_)).trans (if_neg hall).symm
      · simp [argReservedW_own hs, hargs, hlen, hstage, hg, hlayers, hend]
      · simp [hstage, hall, hs.own, hst, forEach]

/-! ## Commits (R309, R322, R323) -/

/-- From one commit to another its command, slot, time and epoch stay. -/
def SameCommit (k k' : Commit) : Prop := k'.cmd = k.cmd ∧ k'.slot = k.slot ∧ k'.tc = k.tc ∧ k'.epoch = k.epoch

theorem commit_beginSwitch {s : State} {k : Commit} (hk : s.models.commit = some k) : ∃ k', (beginSwitch s).models.commit = some k' ∧ SameCommit k k' := by
  unfold beginSwitch
  split
  · next c g hc hg =>
    obtain rfl : c = k := Option.some.inj (hc.symm.trans hk)
    exact ⟨_, rfl, rfl, rfl, rfl, rfl⟩
  · exact ⟨k, hk, rfl, rfl, rfl, rfl⟩

theorem commit_settleDecision {s : State} {k : Commit} (hk : s.models.commit = some k) :
    ∃ k', (settleDecision s).models.commit = some k' ∧ SameCommit k k' := by
  unfold settleDecision
  split
  · next c g hc hg =>
    obtain rfl : c = k := Option.some.inj (hc.symm.trans hk)
    split
    · split
      · exact commit_beginSwitch hk
      · exact ⟨_, rfl, rfl, rfl, rfl, rfl⟩
    · exact ⟨c, hk, rfl, rfl, rfl, rfl⟩
  · exact ⟨k, hk, rfl, rfl, rfl, rfl⟩

/-- The commit that MODEL_COMMIT makes of a session (R309, R322). -/
def commitOf (c : Cmd) (g : Stage) (s : State) : Commit :=
  { cmd := some c.id, slot := g.slot, tc := if c.arg 0 = 0 then s.tbu.now + 5000000 else c.arg 0,
    epoch := if (s.slot g.slot).midSwap then (s.slot g.slot).epoch
      else if 0 < g.committed then s.highEpoch g.slot else nextEpoch (s.highEpoch g.slot),
    unit := if g.layered then some g.committed else none, acked := if s.spar.member ∈ g.memberList then [s.spar.member] else [],
    durable := [], decided := false, switched := [], ckpt := false, seq := 0, lostMember := false }

/-- The state in which the members have been sent a session's decision. -/
def decided (c : Cmd) (g : Stage) (s : State) : State :=
  let k := commitOf c g s
  let t := forEach (g.memberList.filter (· ≠ s.spar.member)) (fun m s => sendTo m (.decision k.tc k.epoch g.slot) s) s
  { t with models := { t.models with commit := some k } }

/-! ## Abort (R321) -/

theorem models_closeStage (st : Nat) (s : State) : (closeStage st s).models = { s.models with stage := none } := by
  rw [closeStage, resumeActivation_does.frame .models (by decide), endJob_does.frame .models (by decide)]

theorem commit_leaveStage (g : Stage) (s : State) : (leaveStage g s).models.commit = s.models.commit := by
  have hblocks := forEach_keeps State.models (g := fun (b : StagedBlk) s => updPb (pbKey b.sb b.pb) (fun p => { p with programming := false }) s)
    (fun _ _ => updPb_does.frame .models (by decide)) g.blocks s
  unfold leaveStage
  extract_lets t
  have ht : t.models.commit = s.models.commit := congrArg Models.commit hblocks
  split
  · exact ht
  · exact ht

theorem stage_abortLocal (s : State) : (abortLocal s).models.stage = none := by
  unfold abortLocal
  split
  · next h => exact h
  · rw [models_closeStage]

theorem commit_abortLocal {s : State} (h : s.models.stage.isSome) : (abortLocal s).models.commit = none := by
  unfold abortLocal
  split
  · next hnone => simp [hnone] at h
  · rw [models_closeStage, count_does.frame .models (by decide)]
    exact commit_leaveStage _ _

/-! ## Repair (R159, R383) -/

theorem length_cutItems (n k : Nat) (b : Bytes) : (cutItems n k b).length = k := by
  induction k generalizing b with
  | zero => rfl
  | succ k ih => rw [cutItems, List.length_cons, ih]

/-- Settles O25: each body's checks pass; what a decision, an abort and a repair leave is read off their steps. -/
theorem modelCommandsComplete : Obligations.ModelCommandsComplete := by
  refine ⟨fun s r c g hs hargs hlen hstage hid hunit htime hstaged hend hall hcommit => ?_,
    fun s r c g hs hargs hlen hstage hid hpast hst => ?_,
    fun s r pay c b hs hargs hpay hne hmod hmax hst hrecs => ?_,
    fun s r c hs hargs hlen hne hfree hwide => ?_⟩
  · have hnounit : (!g.layered && decide (c.fld 1 23 16 ≠ 0)) = false := by
      cases hl : g.layered <;> simp [hl, hunit]
    have hunitOk : (!g.layered || decide (c.fld 1 23 16 = g.committed)) = true := by
      cases hl : g.layered <;> simp [hl, hunit]
    have hintime : (decide (c.arg 0 ≠ 0) && decide (c.arg 0 < s.tbu.now + 2000000)) = false := by
      rcases htime with h0 | hlate
      · simp [h0]
      · simp [Nat.not_lt.mpr hlate]
    have hin : g.memberList.all (fun m => decide (m ∈ g.staged)) = true := by simpa using hstaged
    obtain ⟨k, hk, hcmd, hslot, htc, hepoch⟩ := commit_settleDecision (s := decided c g s) rfl
    refine ⟨settleDecision (decided c g s), k, congrArg Host.Outcome.next (iarik_running hs ((checked_pass hs.head ?_).trans ?_)), hk, hcmd, hslot,
      htc, hepoch⟩
    · simp only [hstage, hargs, hlen, hnounit, hintime, hid, hin, hend, hunitOk, hall, hcommit]
      simp
    · simp only [hstage]
      rfl
  · refine ⟨abortLocal s, congrArg Host.Outcome.next (iarik_done hs ((checked_pass hs.head ?_).trans ?_)),
      stage_abortLocal s, commit_abortLocal (by rw [hstage]; rfl)⟩
    · simp [hargs, hlen, hstage, hid, hpast]
    · simp [hstage, hst]
  · intro ls
    refine congrArg Host.Outcome.next (iarik_running hs ((checked_pass hs.head ?_).trans ?_))
    · have hcount : (items 80 b).length ≤ 4096 := by
        rw [items, length_cutItems]
        omega
      simp [hargs, hpay, hmod, hne, hst, hcount]
      exact ⟨⟨fun x hx => (hrecs x hx).1, fun x hx => (hrecs x hx).2.1⟩, fun x hx => (hrecs x hx).2.2⟩
    · simp [hpay, ls]
  · refine congrArg Host.Outcome.next (iarik_running hs ((checked_pass hs.head ?_).trans ?_))
    · simp [argReservedW_own hs, hargs, hlen, hne]
      exact hfree.resolve_left
    · simp [hwide, hs.own]

end Sys2Proof.Proofs
end

section
/-! Proofs about placed objects, lends and the board tier (chapters 09, 12 and 13). -/

namespace Sys2Proof.Proofs

open Sys2Proof Sys2Proof.Machine Sys2Proof.Safety Sys2Proof.Laws

/-! ## Commands that start -/

/-- A command that a row starts is one of the row's opcode. -/
theorem op_of_starts {s : State} {r : CmdRef} {op : Nat} {c : Cmd} (h : Starts s r op c) : c.op = op := by
  have hfound := List.find?_some h.found
  simp only [Bool.and_eq_true, decide_eq_true_eq] at hfound
  obtain ⟨⟨⟨⟨-, hop⟩, -⟩, -⟩, -⟩ := hfound
  exact hop

/-- A command whose checks all pass answers as its body does, also where the part might lack a unit (R372). -/
theorem checked_pass_of_present {c : Cmd} {absent : Bool} {l : List (Bool × Status)} {s : State} {k : Reply} (habsent : absent = false)
    (hhead : c.headReserved = false) (h : ∀ p ∈ l, p.1 = false) : checked c absent l s k = k := by
  subst habsent
  exact checked_pass hhead h

/-! ## Objects (R292-R296) -/

theorem obj_dropObject (dva : Nat) (s : State) : (dropObject dva s).obj dva = none := by
  unfold dropObject
  split
  · simp [State.obj]
  · next h => exact h

/-- The object that OBJECT_PLACE ALLOC makes at an address, on these pages (R292, R297). -/
def allocated (c : Cmd) (a : Nat) (ps : List PageAt) : Obj :=
  { dva := a, kind := c.fld 0 11 4, size := if c.fld 0 11 4 = 3 then kvBytes (c.fld 1 31 0) (c.fld 1 40 32) else c.arg 1,
    kvC := if c.fld 0 11 4 = 3 then c.fld 1 31 0 else 0, kvH := if c.fld 0 11 4 = 3 then c.fld 1 40 32 else 0, pages := ps,
    backing := if c.fld 0 11 4 = 3 then 0 else c.arg 3 }

/-- The migration that OBJECT_MIGRATE starts, of these pages (R294). -/
def ordered (c : Cmd) (left : List (Nat × PageAt)) : Migr :=
  { obj := c.arg 1, tier := c.fld 0 3 0, left := left, copies := 1, dirty := false, switched := 0, cmd := some c.id, lend := none }

/-- A migration joins those in progress. -/
def addMigr (m : Migr) (s : State) : State := { s with tiers := { s.tiers with migrs := s.tiers.migrs ++ [m] } }

/-- The pages that a migration moves are of the object, and none of them has been dropped. -/
theorem page_of_toMove {o : Obj} (h : ∀ p ∈ o.pages, p ≠ .dropped) {first n tier i : Nat} (hi : i ∈ o.toMove first n tier) :
    o.pages.getD i .dropped ≠ .dropped := by
  obtain ⟨-, hpage⟩ := List.mem_filter.mp hi
  cases hp : o.pages[i]? with
  | none => simp [hp] at hpage
  | some p => simpa [List.getD_eq_getElem?_getD, hp] using h p (List.mem_of_getElem? hp)

/-- Settles O28: each body's checks pass; a migration of an object without dropped pages has no page to map at once. -/
theorem objectCommandsComplete : Obligations.ObjectCommandsComplete := by
  refine ⟨fun s r c a ps hs hop hargs hlen hplace hcode hneigh hform => ?_, fun s r c o hs hop hargs hlen hobj hplan hbound hmigr => ?_,
    fun s r c o ps hs hargs hlen htier hneigh hobj hfirst hlast hmapped hidle hhub => ?_, fun s id m p rest hm hleft => ?_⟩
  · intro size hreq hstore hpages hdva
    have habsent : s.absentUnit c = false := by
      have hmissing : c.fld 0 15 12 = 2 → s.part.variant.ports ≠ 0 := fun h => (hneigh h).1
      simpa [State.absentUnit, op_of_starts hs, hop] using hmissing
    have hnew : (if c.arg 2 = 0 then s.chooseDva (cdiv size pageBytes) else some (c.arg 2)) ≠ none := by simp [hdva]
    refine ⟨addObject (allocated c a ps) s, allocated c a ps,
      congrArg Host.Outcome.next ((iarikIf_eq hs (by simp [hop])).trans
        (iarik_done hs ((checked_pass_of_present habsent hs.head ?_).trans ?_))), rfl, rfl, rfl, rfl, rfl⟩
    · have hgiven : (decide (c.arg 2 ≠ 0) && !s.dvaFree (c.arg 2) (cdiv size pageBytes)) = false := by
        simpa using hreq
      have hsize : (if c.fld 0 11 4 = 3 then decide (c.fld 1 31 0 = 0) || decide (c.fld 1 31 0 % 128 ≠ 0) || decide (c.fld 1 40 32 = 0) ||
          decide (256 < c.fld 1 40 32) else decide (size = 0)) = false := by
        simp only [size]
        split at hform
        · next hkv =>
          obtain ⟨hcap, hmod, hlow, hhigh⟩ := hform
          simp only [hkv, if_true, Bool.or_eq_false_iff, decide_eq_false_iff_not]
          omega
        · next hkv => simp [hkv, hform]
      have hroom : (decide (c.fld 0 15 12 = 4) && decide (4 < s.storeTaken (c.fld 0 21 16) + cdiv size pageBytes)) = false := by
        simpa using hstore
      simp only [size] at hgiven hsize hroom hpages hdva
      simp only [decide_eq_true_eq]
      simp only [hgiven, hsize, hroom, hpages, hdva]
      simp [hop, hargs, hlen, hplace]
      exact ⟨hcode, fun h => (hneigh h).2⟩
    · simp only [size] at hpages hdva
      simp only [decide_eq_true_eq]
      simp only [hpages, hdva]
      rfl
  · refine ⟨dropObject (c.arg 1) (unlistAdapter (c.arg 1) s),
      congrArg Host.Outcome.next ((iarikIf_eq hs (decide_eq_true hop)).trans (iarik_checked_done hs rfl ?_)), obj_dropObject _ _, ?_⟩
    · simp [hargs, hlen, hobj, hplan, hbound, hmigr]
    · rw [adapter_dropObject, adapter_unlistAdapter]
  · intro idx hpages hcount
    have habsent : s.absentUnit c = false := by
      have hmissing : c.fld 0 3 0 = 2 → s.part.variant.ports ≠ 0 := fun h => (hneigh h).2.1
      simpa [State.absentUnit, op_of_starts hs] using hmissing
    have hpage : ∀ x ∈ idx.zip ps, o.pages.getD x.1 .dropped ≠ .dropped := fun x hx => page_of_toMove hmapped (List.of_mem_zip hx).1
    have hgone : (idx.zip ps).filter (fun x => decide (o.pages.getD x.1 .dropped = .dropped)) = [] :=
      List.filter_eq_nil_iff.mpr fun x hx => by simpa using hpage x hx
    have hlive : (idx.zip ps).filter (fun x => !decide (o.pages.getD x.1 .dropped = .dropped)) = idx.zip ps :=
      List.filter_eq_self.mpr fun x hx => by simpa using hpage x hx
    simp only [idx] at hgone hlive hpages
    have hreply : objectMigrate c s = if idx.zip ps = [] then .done .ok 0 (usePages ps s)
        else .running (addMigr (ordered c (idx.zip ps)) (usePages ps s)) := by
      simp only [objectMigrate, hobj, decide_eq_true_eq]
      refine (checked_pass_of_present habsent hs.head ?_).trans ?_
      · simp [hargs, hlen, hidle, hpages]
        exact ⟨⟨⟨⟨htier, fun h => (hneigh h).1⟩, fun h => (if_neg h).symm ▸ hlast⟩, hfirst⟩, fun h => (hneigh h).2.2, hhub⟩
      · simp only [hpages, hgone, hlive]
        rfl
    by_cases hidx : idx = []
    · refine ⟨usePages ps s, ?_, by simp [hidx, usePages]⟩
      rw [if_pos hidx]
      exact congrArg Host.Outcome.next (iarik_done hs (hreply.trans (if_pos (by simp [hidx]))))
    · refine ⟨addMigr (ordered c (idx.zip ps)) (usePages ps s), ?_, by rw [if_neg hidx]; rfl⟩
      rw [if_neg hidx]
      refine congrArg Host.Outcome.next (iarik_running hs (hreply.trans (if_neg ?_)))
      intro hnil
      have hlength : (idx.zip ps).length = idx.length := by simp [hcount]
      exact hidx (List.length_eq_zero_iff.mp (by rw [← hlength, hnil]; rfl))
  · intro put
    refine congrArg Host.Outcome.next ?_
    simp only [hm, hleft, Bool.and_eq_true, decide_eq_true_eq]
    rfl

/-! ## Lends (R300-R302) -/

theorem absentUnit_lend {s : State} {r : CmdRef} {c : Cmd} (h : Starts s r 0x0701 c) (hports : s.part.variant.ports ≠ 0) :
    s.absentUnit c = false := by
  simp [State.absentUnit, op_of_starts h, hports]

/-- The lend that GROUP_LEND LEND makes of these pages (R300). -/
def lent (c : Cmd) (ps : List PageAt) (s : State) : Lend :=
  { id := s.spar.member * 2 ^ 24 + s.tiers.nextLend % 2 ^ 24, lender := s.spar.member, borrower := if bit (c.arg 0) 9 then none else some (c.fld 0 8 3),
    hubPool := !bit (c.arg 0) 2, frames := ps.filterMap (fun p => match p with | .hub f => some f | .board f => some f | _ => none),
    reclaiming := false, reported := [], dropped := 0, cmd := none, closed := false }

/-- A lend is listed, and its borrowers are told of it. -/
def lendOut (l : Lend) (s : State) : State :=
  let v := { s with tiers := { s.tiers with lends := s.tiers.lends ++ [l], nextLend := s.tiers.nextLend + 1 } }
  forEach (v.borrowersOf l) (fun m s => sendTo m (.lend l.id l.frames.length) s) v

theorem tiers_lendOut (l : Lend) (s : State) :
    (lendOut l s).tiers = { s.tiers with lends := s.tiers.lends ++ [l], nextLend := s.tiers.nextLend + 1 } :=
  forEach_keeps State.tiers (fun _ _ => sendTo_does.frame .tiers (by decide)) _ _

/-- Settles O29: each row's guard passes, and what the members are told leaves the tiers alone. -/
theorem lendCommandsComplete : Obligations.LendCommandsComplete := by
  refine ⟨fun s r c ps hs hports hop hargs hlen hst hst' hto hpages => ?_, fun s r c l hs hports hop hargs hlen hl hidle => ?_,
    fun s i l hl hlender hidle => ?_, fun s m i n l hl hlender hrec hm => ?_, fun s i l hl hrec => ?_⟩
  · have habsent := absentUnit_lend hs hports
    have hpool : (if (!bit (c.arg 0) 2) = true then 0 else 1) = if bit (c.arg 0) 2 then 1 else 0 := by
      cases bit (c.arg 0) 2 <;> rfl
    refine ⟨_, lent c ps s, congrArg Host.Outcome.next ((iarikIf_eq hs (by simp [hop])).trans (iarik_done hs
      ((checked_pass_of_present habsent hs.head ?_).trans (show _ = Reply.done .ok (lent c ps s).id (lendOut (lent c ps s) (usePages ps s)) from ?_)))), ?_, rfl, rfl, rfl, rfl⟩
    · simp only [hpool, hpages]
      split at hto
      · next hall => simp [hop, hargs, hlen, hst, hst', hall, hto]
      · next hall =>
        simp [hop, hargs, hlen, hst, hst', hall]
        exact ⟨fun h hm => (hto.2 h).resolve_left (by simp [hm]), hto.1⟩
    · simp only [hpool, hpages]
      rfl
    · rw [tiers_lendOut]
      rfl
  · intro l' w v
    refine congrArg Host.Outcome.next ((iarikIf_eq hs (decide_eq_true hop)).trans
      (iarik_running hs ((checked_pass_of_present (absentUnit_lend hs hports) hs.head ?_).trans ?_)))
    · simp [hargs, hlen, hl, hidle]
    · simp only [hl]
      exact (apply_ite Reply.running _ _ _).symm
  · intro v w
    refine congrArg Host.Outcome.next ?_
    simp only [hl, hlender, hidle, decide_false, Bool.or_self, Bool.false_eq_true, if_false]
    rfl
  · intro l'
    refine congrArg Host.Outcome.next ?_
    simp only [hl]
    exact if_neg (by simp [hlender, hrec, hm])
  · refine congrArg Host.Outcome.next ?_
    simp only [hl, hrec]
    rfl

/-! ## The board tier (R303, R410-R412) -/

theorem ready_boardLost (fail : Word) (s : State) : (boardLost fail s).ready.boardMem = false := by
  unfold boardLost
  extract_lets r t s1 s2 named s3
  have h2 : s2.ready = s1.ready := record_does.frame .ready (by decide)
  have h3 : s3.ready = s2.ready := forEach_keeps State.ready (fun _ _ => record_does.frame .ready (by decide)) _ _
  have h4 : (forEach (s3.plans.filter (fun p => !p.2.active)) (fun p s => freePlan p.1 s) s3).ready = s3.ready :=
    forEach_keeps State.ready (fun _ _ => freePlan_does.frame .ready (by decide)) _ _
  rw [h4, h3, h2]

/-- Settles O30. -/
theorem boardEventsComplete : Obligations.BoardEventsComplete := by
  refine ⟨fun s unit halign hlo hhi => ⟨?_, fun c => ?_⟩, fun s ch htrained havail hch => ⟨_, ?_, ready_boardLost _ _, rfl⟩, fun s ch => ?_,
    fun s unit b o p hunit => ?_⟩
  · refine congrArg Host.Outcome.next ?_
    rw [if_neg (by simp [halign, hlo, hhi]), if_neg Bool.false_ne_true, if_pos rfl]
  · refine congrArg Host.Outcome.next ?_
    rw [if_neg (by simp [halign, hlo, hhi]), if_pos rfl]
  · refine congrArg Host.Outcome.next (if_neg ?_)
    simp [htrained, havail, hch]
  · exact congrArg Host.Outcome.next (if_pos rfl)
  · intro s1 old i ho hp
    simp only [s1] at ho hp
    refine congrArg Host.Outcome.next ?_
    simp only [hunit, decide_true, Bool.not_true, Bool.false_eq_true, if_false, ho, hp]
    rfl

end Sys2Proof.Proofs
end

section
/-! Proofs about adapters, tuning sessions and streams (chapters 10 and 12). -/

namespace Sys2Proof.Proofs

open Sys2Proof Sys2Proof.Machine Sys2Proof.Safety Sys2Proof.Laws

/-! ## What a write leaves alone -/

theorem objs_markDirty (k : Nat) (s : State) : (markDirty k s).tiers.objs = s.tiers.objs := by
  unfold markDirty
  split <;> rfl

theorem objs_putByte (a : Nat) (b : Byte) (s : State) : (putByte a b s).tiers.objs = s.tiers.objs := by
  unfold putByte
  split
  · rw [objs_markDirty, ramPut_does.frame .tiers (by decide)]
  · rfl

theorem objs_putBytes (a : Nat) (b : Bytes) (s : State) : (putBytes a b s).tiers.objs = s.tiers.objs := by
  induction b generalizing a s with
  | nil => rfl
  | cons x b ih => exact (ih _ _).trans (objs_putByte a x s)

theorem tiers_overRam {f : Nat → Nat → State → State} (hf : ∀ k n t, (f k n t).tiers = t.tiers) (a n : Nat) (s : State) :
    (overRam a n f s).tiers = s.tiers := by
  unfold overRam
  split
  · rfl
  · refine forEach_keeps State.tiers (fun p t => ?_) _ _
    split
    · exact hf _ _ _
    · rfl

/-- A write changes what pages hold, and not which objects lie on them. -/
theorem objs_writeDva (a : Nat) (b : Bytes) (s : State) : (writeDva a b s).tiers.objs = s.tiers.objs := by
  unfold writeDva
  extract_lets s1 s2
  have h2 : s2.tiers = s1.tiers := by
    simp only [s2]
    split
    · rfl
    · exact tiers_overRam (fun _ _ _ => setTaint_does.frame .tiers (by decide)) _ _ _
  have h1 : s2.tiers.objs = s.tiers.objs := (congrArg (·.objs) h2).trans (objs_putBytes a b s)
  split
  · exact h1
  · exact Eq.trans rfl h1

theorem models_writeDva (a : Nat) (b : Bytes) (s : State) : (writeDva a b s).models = s.models :=
  writeDva_does.frame .models (by decide)

/-! ## Adapters and tuning sessions (R310, R311, R326, R329) -/

/-- The object that holds an adapter's image. -/
def imageObj (a : Nat) (b : Bytes) (ps : List PageAt) : Obj :=
  { dva := a, kind := 4, size := b.length, kvC := 0, kvH := 0, pages := ps, backing := 0 }

/-- The adapter of an image joins those listed. -/
def listAdapter (x : Adapter) (s : State) : State := { s with models := { s.models with adapters := s.models.adapters ++ [x] } }

/-- The session that TUNE_START opens, with its tensors at three addresses (R326). -/
def newTune (c : Cmd) (b : Bytes) (a : Adapter) (ma mo va : Nat) : Tune :=
  let w (k : Nat) : Word := BitVec.ofNat 32 (u b (4 * k) 4)
  { stream := c.fld 0 7 0, adapter := a.dva, mse := bit (c.arg 0) 15, bias := bit (c.arg 0) 16, lossHead := c.sub.a1, saved := c.arg 2,
    grad := c.arg 3, b1 := w 0, b2 := w 1, lr := w 2, eps := w 3, wd := w 4, n := c.fld 0 14 8, steps := 0, stepT := 0,
    sum := [], master := ma, mom := mo, var := va, work := [], apply := false, stopping := none }

/-- The masters are written from the adapter, the moments as zero (R326). -/
def fillTensors (s : State) (a : Adapter) (ma mo va : Nat) (s' : State) : State :=
  let zero := List.replicate (32 * a.blocks) (0 : Byte) ++ List.replicate a.blocks (0x7F : Byte)
  writeDva va zero (writeDva mo zero (writeDva ma (s.mastersFrom a) s'))

/-- A session is listed. -/
def listTune (j : Nat) (t : Tune) (s : State) : State := { s with models := { s.models with tunes := mset s.models.tunes j t } }

theorem streams_updTune (i : Nat) (f : Tune → Tune) (s : State) : (updTune i f s).models.streams = s.models.streams := rfl

theorem absentUnit_tune {s : State} {r : CmdRef} {op : Nat} {c : Cmd} (h : Starts s r op c) (hop : op = 0x0202 ∨ op = 0x0203)
    (htune : s.part.variant.tune = true) : s.absentUnit c = false := by
  have hc : c.op = op := op_of_starts h
  rcases hop with rfl | rfl <;> simp [State.absentUnit, hc, htune]

/-- Settles O26: each body's checks pass, and what it writes leaves the listed adapters, objects and sessions alone. -/
theorem adapterAndTuningCommandsComplete : Obligations.AdapterAndTuningCommandsComplete := by
  refine ⟨fun s r pay c b i a ps hs hargs hpay htier himage hreq hslot hst hroom hpages hdva => ?_,
    fun s r c a hs hargs hlen hadapter hbound hplan hmigr => ?_,
    fun s r pay c b st a j ma mo va s' hs htune hargs hpay hlen hlow hhigh hparams hst hweight hadapter hsaved hgrad hstreams htunes hopen hfree hroom => ?_,
    fun s r c t hs htune hargs hlen ht => ?_⟩
  · have hnew : (decide (c.arg 1 ≠ 0) && !s.dvaFree (c.arg 1) (cdiv b.length pageBytes)) = false := by simpa using hreq
    refine ⟨writeDva a b (listAdapter (parseAdapter b a) (addObject (imageObj a b ps) s)),
      congrArg Host.Outcome.next (iarik_done hs ((checked_pass hs.head ?_).trans ?_)), ?_, imageObj a b ps, ?_, rfl, rfl, rfl⟩
    · simp only [hpay, Option.getD_some, hslot, hpages, hdva, hnew]
      simp [hargs, htier, himage, hst, hroom]
    · simp only [hpay, Option.getD_some, hpages, hdva]
      rfl
    · rw [models_writeDva]
      exact congrArg (·.adapters ++ _) (addObject_does.frame .models (by decide))
    · rw [objs_writeDva]
      exact List.mem_append_right _ (List.mem_singleton_self _)
  · refine ⟨dropObject (c.arg 0) (unlistAdapter (c.arg 0) s), congrArg Host.Outcome.next (iarik_done hs ?_),
      (adapter_dropObject ..).trans (adapter_unlistAdapter ..)⟩
    rw [adapterDrop_eq hs.head hargs hlen hadapter]
    simp [hbound, hplan, hmigr]
  · refine ⟨listTune j (newTune c b a ma mo va) (fillTensors s a ma mo va s'), newTune c b a ma mo va,
      congrArg Host.Outcome.next (iarik_done hs ((checked_pass_of_present (absentUnit_tune hs (.inl rfl) htune) hs.head ?_).trans ?_)),
      mget_mset _ _ _, rfl, rfl, rfl, rfl, rfl, rfl, rfl⟩
    · have hother : s.models.streams.any (fun x => decide (x.1 ≠ c.fld 0 7 0) && decide (x.2.adapter = some a.dva)) = false := by
        simpa using hstreams
      have hidle : s.models.tunes.any (fun t => decide (t.2.adapter = a.dva)) = false := by simpa using htunes
      simp only [hpay, Option.getD_some, hst, Option.bind_some, hadapter, hother, hidle, hroom, hfree]
      simp [hargs, hlen, hhigh, hparams, hweight, hsaved, hgrad, hopen]
      omega
    · simp only [hpay, Option.getD_some, hst, Option.bind_some, hadapter, hroom, hfree]
      rfl
  · intro v
    have hbody : tuneStop c s = .running (match mget s.models.streams t.stream with
        | some st => if v.inStep st then v else endTune (c.fld 0 3 0) (bit (c.arg 0) 8) v
        | none => endTune (c.fld 0 3 0) (bit (c.arg 0) 8) v) := by
      refine (checked_pass_of_present (absentUnit_tune hs (.inr rfl) htune) hs.head ?_).trans ?_
      · simp [ht, hargs]
        split at hlen <;> simp [*]
      · simp only [ht, Option.bind_some, streams_updTune]
        cases mget s.models.streams t.stream <;> rfl
    exact congrArg Host.Outcome.next (iarik_running hs hbody)

/-! ## Streams (R312, R384-R386) -/

/-- The stream that STREAM_OPEN opens (R312). -/
def newStream (c : Cmd) (b : Bytes) (hist : NMap (List Half)) : Machine.Stream :=
  { slot := c.fld 0 3 0, handle := c.fld 0 8 4, sched := c.fld 0 12 9, row := c.fld 0 20 13, pair := c.fld 0 26 21,
    adapter := if bit (c.arg 0) 27 then some (c.arg 1) else none, period := c.fld 2 31 0, deadline := c.fld 2 63 32,
    pos := c.fld 3 31 0, kv := (kvBindings b).foldl (fun m x => mset m x.1 x.2) [], outAddr := u b 0 8,
    outLen := u b 8 4, outDva := decide (u b 12 1 = 1), held := [], appended := [], outPos := 0, closing := none,
    orphan := false, input := none, hist := hist }

/-- A stream is listed. -/
def listStream (i : Nat) (st : Machine.Stream) (s : State) : State := { s with models := { s.models with streams := mset s.models.streams i st } }

/-- A submission joins those a stream holds (R384). -/
def withHeld (c : Cmd) (b : Bytes) (st : Machine.Stream) : Machine.Stream := { st with held := st.held ++ [{ cmd := c.id, data := b, placed := none }] }

theorem stream_updStream_of_some {i : Nat} {f : Machine.Stream → Machine.Stream} {s : State} {st : Machine.Stream} (h : mget s.models.streams i = some st) :
    mget (updStream i f s).models.streams i = some (f st) := by
  rw [stream_updStream, h, Option.map_some]

/-- Settles O27: each body's checks pass, and the stream is found where it was written. -/
theorem streamCommandsComplete : Obligations.StreamCommandsComplete := by
  refine ⟨fun s r pay c b p y i hs hargs hpay hlayout hadapter hplan hfields hst hsym halone hquant hslot hfree hfits => ?_,
    fun s r c st hs hargs hlen hst hopen => ?_, fun s r pay c b st hs hargs hpay hst hlen hopen hpair hroom => ?_,
    fun s i t st x l hst hheld hplaced => ?_⟩
  · refine ⟨listStream i (newStream c b (freshHist p.plan y)) s, newStream c b (freshHist p.plan y),
      congrArg Host.Outcome.next (iarik_done hs ((checked_pass hs.head ?_).trans ?_)), mget_mset _ _ _,
      rfl, rfl, rfl, rfl, rfl, rfl, rfl, rfl, rfl, rfl⟩
    · have hnone : s.models.streams.any (fun x => decide (x.2.handle = c.fld 0 8 4) && decide (x.2.sched = c.fld 0 12 9) &&
          decide (x.2.row = c.fld 0 20 13) && !x.2.orphan) = false := by
        simp only [List.any_eq_false, Bool.and_eq_true, decide_eq_true_eq, Bool.not_eq_true']
        exact fun x hx ⟨⟨⟨hh, hsc⟩, hrow⟩, ho⟩ => halone x hx ⟨hh, hsc, hrow, ho⟩
      simp only [hpay, Option.getD_some, hplan, hsym, hfree, hnone]
      split at hadapter
      · next hnamed =>
        obtain ⟨a, ha, hmodel⟩ := hadapter
        simp [hargs, hlayout, hnamed, ha, hmodel, hfields, hquant, hslot, hfits]
        exact hst.resolve_left
      · next hnamed =>
        simp [hargs, hlayout, hnamed, hadapter, hfields, hquant, hslot, hfits]
        exact hst.resolve_left
    · simp only [hpay, Option.getD_some, hplan, hsym, hfree]
      rfl
  · intro v
    refine congrArg Host.Outcome.next (iarik_running hs ((checked_pass hs.head ?_).trans ?_))
    · simp [hargs, hlen, hst, hopen]
    · simp only [hst]
      rfl
  · refine ⟨updStream (c.fld 0 7 0) (withHeld c b) s, withHeld c b st,
      congrArg Host.Outcome.next (iarik_running hs ((checked_pass hs.head ?_).trans ?_)), stream_updStream_of_some hst, rfl⟩
    · simp [hargs, hpay, hst, hlen, hopen, hpair, hroom, hs.host]
    · simp only [hpay]
      rfl
  · refine ⟨updStream i (fun st => { st with held := placeFirst (reachTime t s).tbu.now st.held }) (reachTime t s),
      { st with held := placeFirst (reachTime t s).tbu.now st.held }, rfl, rfl, stream_updStream_of_some hst, ?_⟩
    simp only [hheld, placeFirst, hplaced, Option.isNone_none, if_true]
    rfl

end Sys2Proof.Proofs
end

section
/-! Proofs about the plan commands (chapters 06 and 12). -/

namespace Sys2Proof.Proofs

open Sys2Proof Sys2Proof.Machine Sys2Proof.Safety Sys2Proof.Laws

/-! ## PLAN_LOAD (R193) -/

/-- The state in which a plan is held LOADED under a handle, its image not yet written: its frames are in use, its counters are gone. -/
def holdPlan (h : Nat) (p : Plan) (fs : List Nat) (s : State) : State :=
  { s with
    plans := mset s.plans h (PlanRt.fresh p fs)
    tiers := { s.tiers with boardUsed := fs ++ s.tiers.boardUsed }
    cnt := s.cnt.filter (fun x => !(decide (planCnt h 0 ≤ x.1) && decide (x.1 ≤ planCnt h 7))) }

theorem plan_writeFrames (h : Nat) (fs : List Nat) (b : Bytes) (s : State) : (writeFrames fs b s).plan h = s.plan h :=
  congrArg (mget · h) (forEach_keeps State.plans (fun _ _ => writeDva_does.frame .plans (by decide)) _ _)

theorem cnt_writeFrames (fs : List Nat) (b : Bytes) (s : State) : (writeFrames fs b s).cnt = s.cnt :=
  forEach_keeps State.cnt (fun _ _ => writeDva_does.frame .cnt (by decide)) _ _

theorem plan_holdPlan (h : Nat) (p : Plan) (fs : List Nat) (s : State) : (holdPlan h p fs s).plan h = some (PlanRt.fresh p fs) :=
  mget_mset _ _ _

/-- A key whose entries a filter drops is not there afterwards. -/
theorem mget_filter_none {α : Type} {m : NMap α} {keep : Nat × α → Bool} {k : Nat} (h : ∀ v, keep (k, v) = false) :
    mget (m.filter keep) k = none := by
  induction m with
  | nil => rfl
  | cons x m ih =>
    by_cases hx : keep x = true
    · have hk : x.1 ≠ k := fun hk => absurd hx (by simpa [← hk] using h x.2)
      simpa [List.filter_cons, hx, mget, hk] using ih
    · simpa [List.filter_cons, hx] using ih

theorem cnt_holdPlan {h i : Nat} (hi : i < 8) (p : Plan) (fs : List Nat) (s : State) : mget (holdPlan h p fs s).cnt (planCnt h i) = none := by
  refine mget_filter_none fun v => ?_
  have hin : planCnt h 0 ≤ planCnt h i ∧ planCnt h i ≤ planCnt h 7 := by simp only [planCnt]; omega
  simp [hin]

/-! ## PLAN_START (R195) -/

theorem plans_storeWr (a off : Nat) (b : Bytes) (s : State) : (storeWr a off b s).plans = s.plans := storeWr_does.frame .plans (by decide)

/-- A started plan runs from its anchor, with no step begun. -/
theorem plan_startPlan {h anchor : Nat} {s : State} {p : PlanRt} (hp : s.plan h = some p) : ∃ q, (startPlan h anchor s).plan h = some q ∧
    q.st = .running ∧ q.anchor = anchor ∧ q.steps = [] ∧ q.nextK = [] ∧ q.stopCmds = [] := by
  have hwritten {q : Plan} {words : Nat → Bytes} :
      (forEach q.preload (fun i s => storeWr i.array i.offset i.data s)
        (forEach p.plan.arrayList (fun a s => storeWr a (p.plan.streamsAt a) (words a) s) s)).plan h = some p :=
    (congrArg (mget · h) ((forEach_keeps State.plans (fun _ _ => plans_storeWr _ _ _ _) _ _).trans
      (forEach_keeps State.plans (fun _ _ => plans_storeWr _ _ _ _) _ _))).trans hp
  simp only [startPlan, hp]
  exact ⟨_, (mget_mupd _ _ _).trans (congrArg _ hwritten), rfl, rfl, rfl, rfl, rfl⟩

/-! ## PLAN_STOP (R223-R226) -/

/-- A stop of a loaded plan: at once, of a plan that does not run, or at its barrier. -/
theorem stopPlan_eq {h : Nat} {s : State} {p : PlanRt} (hp : s.plan h = some p) (mode id : Nat) :
    stopPlan h mode id s =
      if mode = 1 then waitDone id 64 0 (haltPlan h s)
      else if p.active = false then waitDone id 64 0 (if mode = 2 then freePlan h s else s)
      else
        let v := updPlan h (fun p => { p with st := .stopping, freeOnStop := p.freeOnStop || decide (mode = 2),
                                              stopCmds := p.stopCmds ++ [(id, decide (mode = 2))] }) s
        if p.steps = [] then endStopped h v else v := by
  simp only [stopPlan, hp, Bool.not_eq_true']

/-- Settles O31: each body's checks pass; what the tables' check and the preload write leaves the plans alone. -/
theorem planCommandsComplete : Obligations.PlanCommandsComplete := by
  refine ⟨fun s r pay c b p h fs hs hargs hpay hb hhandle habsent hparse hok hh hframes hroom hmem => ?_,
    fun s r c p hs hargs hlen hlead hplan hstart hwide => ?_, fun s r c p hs hargs hlen hmode hplan hwide => ?_⟩
  · refine ⟨writeFrames fs b (holdPlan h p fs s), PlanRt.fresh p fs,
      congrArg Host.Outcome.next (iarik_done hs ((checked_pass_of_present ?_ hs.head ?_).trans ?_)),
      (plan_writeFrames ..).trans (plan_holdPlan ..), rfl, rfl, rfl, fun i hi => ?_⟩
    · simpa only [hpay, Option.getD_some] using habsent
    · simp only [hpay, Option.getD_some, hparse, hok, hh, hframes, hroom]
      simp [hargs, hb, hmem]
      exact hhandle
    · simp only [hpay, Option.getD_some, hparse, hh, hframes]
      rfl
    · rw [cnt_writeFrames, cnt_holdPlan hi]
  · obtain ⟨q, hq⟩ := plan_startPlan (h := c.fld 0 4 0) (anchor := c.arg 1) (s := checkPlanTables (c.fld 0 4 0) s) (p := p)
      ((congrArg (mget · _) (checkPlanTables_does.frame .plans (by decide))).trans hplan)
    refine ⟨beginPlan (c.fld 0 4 0) (c.arg 1) s, q, congrArg Host.Outcome.next (iarik_done hs ((checked_pass hs.head ?_).trans ?_)), hq⟩
    · refine List.forall_mem_cons.mpr ⟨?_, hstart⟩
      simp [hargs, hlen, hlead]
    · simp only [hplan]
      exact if_neg (by simp [hwide])
  · refine congrArg Host.Outcome.next (iarik_running hs ((checked_pass hs.head ?_).trans ?_))
    · simp [hargs, hlen, hmode, hplan]
    · simp only [hplan, hwide, Bool.false_eq_true, if_false]
      exact congrArg Reply.running (stopPlan_eq hplan _ _)

end Sys2Proof.Proofs
end

section
/-! Proofs about maintenance and self-test (chapters 12 and 17). -/

namespace Sys2Proof.Proofs

open Sys2Proof Sys2Proof.Machine Sys2Proof.Safety Sys2Proof.Laws

/-! ## Maintenance (R389, R390, R500, R503-R506) -/

theorem absentUnit_maint {s : State} {r : CmdRef} {c : Cmd} (h : Starts s r 0x0600 c)
    (hport : c.fld 0 3 0 = 9 → c.fld 0 10 8 < s.part.variant.ports) : s.absentUnit c = false := by
  simpa [State.absentUnit, op_of_starts h] using hport

/-- A queued job that runs is listed as running from now. -/
theorem mem_jobs_runJob {s : State} {j : Job} (hj : j ∈ s.maint.jobs) (hst : j.st = 0) :
    ∃ k ∈ (runJob j.id s).maint.jobs, k.id = j.id ∧ k.st = 1 ∧ k.start = s.tbu.now :=
  ⟨{ j with st := 1, start := s.tbu.now }, List.mem_map.mpr ⟨j, hj, by simp [hst]⟩, rfl, rfl, rfl⟩

/-- Settles O32. -/
theorem maintenanceCommandsComplete : Obligations.MaintenanceCommandsComplete := by
  refine ⟨fun s r c hs hfields hport hstack hst hidle hjobs => ?_, fun s r c hs hargs => ?_,
    fun s job power j hj hst hbist hgc hckpt hround => ?_, fun s f hf => ?_⟩
  · refine congrArg Host.Outcome.next (iarik_done hs (congrArg refused
      (checked_pass_of_present (absentUnit_maint hs hport) hs.head ?_)))
    have hmounted : (decide (c.fld 0 3 0 ≠ 9) && c.maintScopes.any (fun i =>
        if bit (c.arg 0) 12 then (s.stack i).mounted && !(s.stack i).readOnly else !(s.stack i).mounted)) = false := by
      refine Bool.and_eq_false_iff.mpr (Classical.or_iff_not_imp_left.mpr fun hother => List.any_eq_false.mpr fun i hi => ?_)
      have hi' := hstack (fun h => hother (decide_eq_false (Classical.not_not.mpr h))) i hi
      cases hreinit : bit (c.arg 0) 12 with
      | false =>
        rw [hreinit, if_neg Bool.false_ne_true] at hi'
        simp only [Bool.false_eq_true, if_false, hi', Bool.not_true, not_false_eq_true]
      | true =>
        rw [hreinit, if_pos rfl] at hi'
        obtain h | h := hi' <;> simp [h]
    have halone : c.maintScopes.any (s.jobActive (c.fld 0 3 0)) = false := by simpa using hidle
    simp only [hmounted, halone]
    simp [hfields]
    exact ⟨hst, hjobs⟩
  · intro l
    exact congrArg Host.Outcome.next (iarik_checked_done hs rfl (by simp [hargs]))
  · have hid : j.id = job := by
      have := List.find?_some hj
      simp only [Bool.and_eq_true, decide_eq_true_eq] at this
      exact this.1
    refine ⟨runJob job s, congrArg Host.Outcome.next ?_, hid ▸ mem_jobs_runJob (List.mem_of_find?_eq_some hj) hst⟩
    simp only [hj, hbist, if_false, hst, ne_eq, not_true_eq_false]
    split
    · next h => simp [hgc h]
    · next h => simp [hckpt h]
    · next h => simp [hround h]
    · rfl
  · refine congrArg Host.Outcome.next ?_
    simp only [hf]

/-! ## The destructive patterns (R512)

The statement's checkpoints are asked for in a fold whose own state is named `s` as well, so that its count of retired blocks subtracts what is
retired in the state reached, where the model subtracts what was retired before the test. -/

/-- SELFTEST 0x03 runs the patterns and then asks for the checkpoint of each stack, with the blocks that the patterns retired as its result. -/
theorem exec_selftest_patterns {s : State} {r : CmdRef} {c : Cmd} (hs : Starts s r 0x0A00 c) (hop : c.fld 0 7 0 = 3)
    (hargs : c.argReserved 0xFF 3 0 0 0 = false) (hlen : c.sub.payLen = 0) (hsel : c.fld 1 1 0 ≠ 3) (hlc : s.sec.lifecycle ∈ [1, 5])
    (hempty : ∀ m ∈ s.models.slots, m.2.st = .empty) (hplans : s.plans = []) :
    exec (.selftest r) s = .next (setRunning c.id (forEach (stacksOf (c.fld 1 1 0)) (fun i t => askCkpt i true false true (some (c.id,
      (forEach (stacksOf (c.fld 1 1 0)) patternStack s).retiredIn (stacksOf (c.fld 1 1 0)) - s.retiredIn (stacksOf (c.fld 1 1 0)))) t)
      (forEach (stacksOf (c.fld 1 1 0)) patternStack s))) := by
  refine congrArg Host.Outcome.next (iarik_running hs ?_)
  have hblank : s.models.slots.any (fun m => decide (m.2.st ≠ .empty)) = false := by simpa using hempty
  have hmay : testPermitted 3 s.sec.lifecycle = true := decide_eq_true hlc
  simp only [selftest, hop]
  refine (checked_pass hs.head ?_).trans rfl
  simp only [hblank, hmay]
  simp [hargs, hlen, hsel, hplans]

/-- Blocks retired in the sub-banks of a stack, over a map as it is stored. -/
def retiredOf (l : List Nat) (m : NMap SbSt) : Nat := (m.map (fun p => if l.any (fun i => inStack i p.1) then p.2.retired.length else 0)).sum

theorem retiredIn_eq (s : State) (l : List Nat) : s.retiredIn l = retiredOf l s.slate.sbs := rfl

theorem retiredOf_cons (l : List Nat) (x : Nat × SbSt) (m : NMap SbSt) :
    retiredOf l (x :: m) = (if l.any (fun i => inStack i x.1) then x.2.retired.length else 0) + retiredOf l m := List.sum_cons

/-- A sub-bank that takes no block back loses none from the count. -/
theorem retiredOf_le_mset (l : List Nat) (m : NMap SbSt) {k : Nat} {v : SbSt} (h : (mgetD m k SbSt.reset).retired.length ≤ v.retired.length) :
    retiredOf l m ≤ retiredOf l (mset m k v) := by
  induction m with
  | nil => exact Nat.zero_le _
  | cons x m ih =>
    obtain ⟨i, w⟩ := x
    unfold mset
    split
    · exact retiredOf_cons l (k, v) _ ▸ Nat.le_add_left _ _
    · split
      · next hk =>
        subst hk
        simp only [retiredOf_cons]
        have hw : w.retired.length ≤ v.retired.length := by simpa [mgetD, mget] using h
        split <;> omega
      · next hk =>
        simp only [retiredOf_cons]
        have := ih (by simpa [mgetD, mget, hk] using h)
        omega

theorem length_le_addOnce (l : List Nat) (x : Nat) : l.length ≤ (addOnce l x).length := by
  unfold addOnce
  split <;> simp

theorem sbs_retireBlock (a c k pb lb : Nat) (s : State) :
    (retireBlock a c k pb lb s).slate.sbs = (updSb (sbKey a c k) (fun b => { b with retired := addOnce b.retired pb }) s).slate.sbs :=
  congrArg (·.sbs) ((record_does.frame .slate (by decide)).trans (count_does.frame .slate (by decide)))

theorem stackW_retireBlock (a c k pb lb : Nat) (s : State) : (retireBlock a c k pb lb s).slate.stackW = s.slate.stackW :=
  congrArg (·.stackW) ((record_does.frame .slate (by decide)).trans (count_does.frame .slate (by decide)))

/-- A block of the patterns leaves its sub-bank's entry as it was, or with a block more retired. -/
theorem sbs_patternBlock (draw sb pb : Nat) (s : State) : ∃ v : SbSt, (mgetD s.slate.sbs (sbKey (sb / 9 / 1024) (sb / 9 % 1024) (sb % 9)) SbSt.reset).retired.length ≤
    v.retired.length ∧ ((patternBlock draw sb pb s).slate.sbs = s.slate.sbs ∨
      (patternBlock draw sb pb s).slate.sbs = mset s.slate.sbs (sbKey (sb / 9 / 1024) (sb / 9 % 1024) (sb % 9)) v) := by
  refine ⟨{ mgetD s.slate.sbs (sbKey (sb / 9 / 1024) (sb / 9 % 1024) (sb % 9)) SbSt.reset with
    retired := addOnce (mgetD s.slate.sbs (sbKey (sb / 9 / 1024) (sb / 9 % 1024) (sb % 9)) SbSt.reset).retired pb }, length_le_addOnce _ _, ?_⟩
  unfold patternBlock
  split
  · exact .inr (sbs_retireBlock ..)
  · exact .inl rfl

theorem stackW_patternBlock (draw sb pb : Nat) (s : State) : (patternBlock draw sb pb s).slate.stackW = s.slate.stackW := by
  unfold patternBlock
  split
  · exact stackW_retireBlock ..
  · rfl

/-! ### A property that every round of a loop keeps -/

theorem forUpto_keeps {P : State → Prop} {n : Nat} {f : Nat → State → State} {s : State} (h : ∀ i t, P t → P (f i t)) (hs : P s) : P (forUpto n f s) := by
  unfold forUpto
  induction List.range n generalizing s with
  | nil => exact hs
  | cons i l ih => exact ih (h i s hs)

theorem forUpto_succ (n : Nat) (f : Nat → State → State) (s : State) : forUpto (n + 1) f s = forUpto n (fun i => f (i + 1)) (f 0 s) := by
  simp [forUpto, List.range_succ_eq_map, List.foldl_map]

/-- The patterns in a sub-bank take no block back. -/
theorem retiredOf_le_patternSubbank (l : List Nat) (draw sb : Nat) (s : State) :
    retiredOf l s.slate.sbs ≤ retiredOf l (patternSubbank draw sb s).slate.sbs := by
  have hblocks : retiredOf l s.slate.sbs ≤ retiredOf l (forUpto (physBlocks s.part.variant) (patternBlock draw sb) s).slate.sbs := by
    refine forUpto_keeps (P := fun t => retiredOf l s.slate.sbs ≤ retiredOf l t.slate.sbs) (fun pb t ht => Nat.le_trans ht ?_) (Nat.le_refl _)
    obtain ⟨v, hv, hsame | hset⟩ := sbs_patternBlock draw sb pb t
    · exact Nat.le_of_eq (congrArg (retiredOf l) hsame.symm)
    · rw [hset]
      exact retiredOf_le_mset l _ hv
  exact Nat.le_trans hblocks (retiredOf_le_mset l _ (Nat.le_refl _))

theorem stackW_patternSubbank (draw sb : Nat) (s : State) : (patternSubbank draw sb s).slate.stackW = s.slate.stackW :=
  forUpto_keeps (P := fun t => t.slate.stackW = s.slate.stackW) (fun pb t ht => (stackW_patternBlock draw sb pb t).trans ht) rfl

/-! ### A map that lists sub-bank 0 after sub-bank 1 -/

/-- Sub-bank 0 with one block retired. -/
def worn : SbSt := { SbSt.reset with retired := [0] }

/-- A map in which sub-bank 0 stands behind sub-bank 1, so that a change of sub-bank 0 is put before both. -/
def unsorted : NMap SbSt := [(1, SbSt.reset), (0, worn)]

/-- The map as it was, or with another entry for sub-bank 0 before it, in which a block is retired. -/
def Behind (m : NMap SbSt) : Prop := m = unsorted ∨ ∃ v : SbSt, 1 ≤ v.retired.length ∧ m = (0, v) :: unsorted

theorem one_le_of_behind {m : NMap SbSt} (h : Behind m) : 1 ≤ (mgetD m 0 SbSt.reset).retired.length := by
  obtain rfl | ⟨v, hv, rfl⟩ := h
  · decide
  · exact hv

theorem mset_of_behind {m : NMap SbSt} (h : Behind m) (v : SbSt) : mset m 0 v = (0, v) :: unsorted := by
  obtain rfl | ⟨w, -, rfl⟩ := h <;> rfl

theorem behind_patternSubbank {draw : Nat} {s : State} (h : s.slate.sbs = unsorted) :
    ∃ v : SbSt, 1 ≤ v.retired.length ∧ (patternSubbank draw 0 s).slate.sbs = (0, v) :: unsorted := by
  have hblocks : Behind (forUpto (physBlocks s.part.variant) (patternBlock draw 0) s).slate.sbs := by
    refine forUpto_keeps (P := fun t => Behind t.slate.sbs) (fun pb t ht => ?_) (.inl h)
    obtain ⟨v, hv, hsame | hset⟩ := sbs_patternBlock draw 0 pb t
    · exact hsame ▸ ht
    · exact .inr ⟨v, Nat.le_trans (one_le_of_behind ht) hv, hset.trans (mset_of_behind ht v)⟩
  refine ⟨_, ?_, mset_of_behind hblocks _⟩
  exact one_le_of_behind hblocks

/-- What a stack's patterns start from: its lines, queues and mirrors cleared. -/
def patternBase (i : Nat) (s : State) : State :=
  let s := { s with
    free := s.free + 1
    slate := { s.slate with
      lines := s.slate.lines.filter (fun l => !inStack i (l.1 / 256 / 64))
      groups := s.slate.groups.filter (fun g => decide (g.1 / (9 * 32) / 32 ≠ i))
      blocked := s.slate.blocked.filter (fun g => decide (g / (9 * 32) / 32 ≠ i))
      rebuilt := s.slate.rebuilt.filter (fun l => !inStack i (l.1 / 256 / 64))
      relocs := s.slate.relocs.filter (fun r => decide (r.array / 32 ≠ i))
      recons := s.slate.recons.filter (fun r => decide (r.array / 32 ≠ i)) } }
  updStack i (fun t => { t with mirA := { Mirror.reset with erases := t.mirA.erases + 3 }, mirB := { Mirror.reset with erases := t.mirB.erases + 3 }, ckpt := none }) s

/-- Stack West's patterns go through sub-bank 0 and then the others. -/
theorem patternStack_eq (s : State) : patternStack 0 s =
    forUpto 294911 (fun j t => patternSubbank s.free (0 * (32 * 1024 * 9) + (j + 1)) t) (patternSubbank s.free 0 (patternBase 0 s)) :=
  forUpto_succ 294911 (fun j t => patternSubbank s.free (0 * (32 * 1024 * 9) + j) t) (patternBase 0 s)

/-- The patterns of stack West on that map count the retired block of sub-bank 0 twice. -/
theorem two_le_retiredIn_patternStack {s : State} (h : s.slate.sbs = unsorted) : 2 ≤ (patternStack 0 s).retiredIn [0] := by
  obtain ⟨v, hv, hfirst⟩ := behind_patternSubbank (draw := s.free) (s := patternBase 0 s) h
  have hsum : 2 ≤ retiredOf [0] ((0, v) :: unsorted) := by
    have hworn : retiredOf [0] unsorted = 1 := by decide
    have hin : [0].any (fun i => inStack i 0) = true := by decide
    rw [retiredOf_cons, hworn]
    simp only [hin, if_true]
    omega
  rw [patternStack_eq, retiredIn_eq]
  exact forUpto_keeps (P := fun t => 2 ≤ retiredOf [0] t.slate.sbs) (fun _ t ht => Nat.le_trans ht (retiredOf_le_patternSubbank ..)) (hfirst ▸ hsum)

theorem ckpt_patternStack (s : State) : (patternStack 0 s).slate.stackW.ckpt = none := by
  rw [patternStack_eq]
  refine forUpto_keeps (P := fun t => t.slate.stackW.ckpt = none) (fun _ t ht => ?_) ?_
  · rw [stackW_patternSubbank, ht]
  · rw [stackW_patternSubbank]
    rfl

/-- A checkpoint asked for on a stack that has none holds the command that asked. -/
theorem cmds_askCkpt {s : State} (h : s.slate.stackW.ckpt = none) (x : Nat × Nat) :
    (askCkpt 0 true false true (some x) s).slate.stackW.ckpt.map (·.cmds) = some [x] := by
  have hnone : ((clearMaps 0 s).stack 0).ckpt = none := h
  unfold askCkpt
  simp only [if_true, hnone]
  rw [deviceJob_does.frame .slate (by decide)]
  rfl

/-- SELFTEST 0x03 of stack West. -/
def patternCmd : Cmd :=
  { id := 1, origin := .host 0, running := false, discard := false, fwdTo := none
    sub := { opcode := 0x0A00, tag := 0, flags := 0, res := 0, seq := 0, payLen := 0, payAddr := 0, a0 := 3, a1 := 0, a2 := 0, a3 := 0, a4 := 0 } }

/-- A device in MANUFACTURE with that command fetched and that map. -/
def unsortedMap : State :=
  { State.reset with
    mbx := { State.reset.mbx with cmds := [patternCmd] }
    sec := { State.reset.sec with lifecycle := 1 }
    slate := { State.reset.slate with sbs := unsorted } }

theorem starts_patternCmd : Starts unsortedMap ⟨0, 0⟩ 0x0A00 patternCmd where
  found := by decide
  role := by decide
  here := by decide
  mine := by decide
  head := by decide

/-- The commands that stack West's checkpoint will end. -/
def ckptCmds : Host.Outcome State Fault Refusal → Option (List (Nat × Nat))
  | .next t => t.slate.stackW.ckpt.map (·.cmds)
  | _ => none

theorem forEach_singleton {α : Type} (a : α) (f : α → State → State) (s : State) : forEach [a] f s = f a s := rfl

/-- The checkpoint asked for in a state holds the count taken in that state. -/
theorem ckptCmds_asked (id : Nat) (n : State → Nat) {t : State} (h : t.slate.stackW.ckpt = none) :
    ckptCmds (.next (setRunning id (forEach [0] (fun i u => askCkpt i true false true (some (id, n u)) u) t))) = some [(id, n t)] :=
  (congrArg (·.stackW.ckpt.map (·.cmds)) (setRunning_does.frame .slate (by decide))).trans (cmds_askCkpt h _)

/-- Refutes O33: where the stored map lists sub-bank 0 behind sub-bank 1, the patterns of stack West put a second entry for it before both, so
that the model answers at least one block more retired than before; the statement's fold subtracts the count of the state that it has
reached from itself, and says 0. -/
theorem not_selfTestsComplete : ¬ Obligations.SelfTestsComplete := by
  intro h
  obtain ⟨-, -, -, hpatterns, -⟩ := h
  have hsel : stacksOf (patternCmd.fld 1 1 0) = [0] := by decide
  have hstated := hpatterns unsortedMap ⟨0, 0⟩ patternCmd starts_patternCmd (by decide) (by decide) (by decide) (by decide) (by decide)
    (by decide) (by decide)
  have hmodel := exec_selftest_patterns starts_patternCmd (by decide) (by decide) (by decide) (by decide) (by decide) (by decide) (by decide)
  simp only [hsel] at hstated hmodel
  have hafter : 2 ≤ (forEach [0] patternStack unsortedMap).retiredIn [0] := forEach_singleton 0 patternStack _ ▸ two_le_retiredIn_patternStack rfl
  have hnone : (forEach [0] patternStack unsortedMap).slate.stackW.ckpt = none := forEach_singleton 0 patternStack _ ▸ ckpt_patternStack _
  have hbefore : unsortedMap.retiredIn [0] = 1 := by decide
  have hboth := congrArg ckptCmds (hmodel.symm.trans hstated)
  generalize forEach [0] patternStack unsortedMap = t at hafter hnone hboth
  have hcounts := (ckptCmds_asked patternCmd.id (fun _ => _) hnone).symm.trans (hboth.trans (ckptCmds_asked patternCmd.id (fun u => _ - u.retiredIn [0]) hnone))
  have hretired : t.retiredIn [0] - unsortedMap.retiredIn [0] = t.retiredIn [0] - t.retiredIn [0] := by simpa using hcounts
  omega

end Sys2Proof.Proofs
end

section
/-! Proofs about firmware, the lifecycle and attestation (chapters 12 and 15). -/

namespace Sys2Proof.Proofs

open Sys2Proof Sys2Proof.Machine Sys2Proof.Safety Sys2Proof.Laws

/-! ## Staging (R446-R449) -/

theorem sec_flashProgram (a : Nat) (b : Bytes) (s : State) : (flashProgram a b s).sec = s.sec := flashProgram_does.frame .sec (by decide)

/-- A staging run leaves STAGING unverified. -/
theorem stagingOk_beginStaging (first delta : Bool) (s : State) : (beginStaging first delta s).sec.stagingOk = false := by
  unfold beginStaging
  extract_lets s1
  split
  · exact congrArg (·.stagingOk) (flashErase_does.frame .sec (by decide))
  · rfl

theorem activeJobs_redrawFlash (s : State) : (redrawFlash s).activeJobs = s.activeJobs := by
  rw [State.activeJobs, redrawFlash_does.frame .maint (by decide), State.activeJobs]

/-- A command that ends well is refused nothing. -/
theorem refused_done {r : Reply} {n : Nat} {t : State} (h : r = .done .ok n t) : refused r = .done .ok n t := by
  rw [h]
  rfl

theorem transitions_enterLifecycle (b : Bytes) (dest : Nat) (s : State) :
    (enterLifecycle b dest s).sec.transitions = s.sec.transitions + 1 := by
  unfold enterLifecycle
  split <;> rfl

/-- Settles O34: no check of a body fails, and what a staging run, a reservation or a transition writes is read off its definition. -/
theorem firmwareCommandsComplete : Obligations.FirmwareCommandsComplete := by
  refine ⟨fun s r pay c b hs hpay hbad hblocked hjobs hmeets => ?_, fun s r pay c b hs hpay hbad hblocked hjobs => ?_,
    fun s r c hs hargs hlen => ?_, fun s r c hs hargs hlen hgroup hlead hok hwide => ?_,
    fun s r pay c b hs hargs hpay hlen hbuf hhash hlc hleft => ?_, fun s r pay c b w hs hargs hpay hlen hdest hres hauth hallowed hempty => ?_⟩
  · intro v w
    refine ⟨congrArg Host.Outcome.next (iarik_done hs (refused_done ((checked_pass hs.head ?_).trans ?_))),
      ?_⟩
    · simp [hpay, hbad]
    · have hmeet : (!bit (c.arg 0) 32 && s.sec.stageRun && s.sec.written.any (fun x => meets (c.fld 0 24 0) b.length x.1 x.2)) = false := by
        obtain h | h | h := hmeets
        · simp [h]
        · simp [h]
        · have hnone : s.sec.written.any (fun x => meets (c.fld 0 24 0) b.length x.1 x.2) = false := by simpa using h
          simp [hnone]
      simp only [hpay, Option.getD_some, hmeet, hblocked, Bool.false_eq_true, if_false]
      exact if_neg (by omega)
    · simp only [w, sec_flashProgram]
      exact stagingOk_beginStaging _ _ _
  · intro v had hoff hlast hdigest w
    refine congrArg Host.Outcome.next (iarik_done hs (refused_done ((checked_pass hs.head ?_).trans ?_)))
    · simp [hpay, hbad]
    · have hjobs' : ¬64 ≤ v.activeJobs := by rw [activeJobs_redrawFlash]; omega
      have hbase : (decide (8192 ≤ (had ++ b).length) && decide (slice (had ++ b) 24 48 ≠ v.activeDigest)) = false := by
        obtain h | h := hdigest
        · simp only [decide_eq_false (Nat.not_le.mpr h), Bool.false_and]
        · simp [h]
      have hat : decide (c.fld 0 24 0 ≠ had.length) = false := by simp [hoff]
      simp only [had, v] at hat hbase hjobs'
      simp only [hpay, Option.getD_some, hlast, Bool.false_and, hblocked, hat, hbase, Bool.false_eq_true, if_false]
      exact if_neg hjobs'
  · intro v n hok hcounter
    refine congrArg Host.Outcome.next (iarik_checked_done hs rfl ?_)
    simp [hargs, hlen, hok, hcounter, v, n]
  · refine ⟨schedule (c.arg 0) s, congrArg Host.Outcome.next (iarik_done hs ((checked_pass hs.head ?_).trans ?_)), rfl, rfl⟩
    · simp [argReservedW_own hs, hargs, hlen, hs.own, hgroup, hok]
      exact hlead
    · simp only [hs.own, hwide]
      rfl
  · intro i
    refine ⟨congrArg Host.Outcome.next (iarik_done hs ((checked_pass hs.head ?_).trans ?_)), rfl⟩
    · have hmay : decide (s.sec.lifecycle ∈ [lcBlank, lcManufacture, lcScrapped]) = false := decide_eq_false hlc
      have hlisted : decide (slice b 0 48 ∈ s.sec.doe.hashes ++ s.sec.smbus.hashes) = true := decide_eq_true hhash
      simp only [hpay, Option.getD_some, hmay, hleft, hlisted]
      simp [hargs, hlen, hbuf]
    · simp only [hpay]
      rfl
  · refine ⟨enterLifecycle b (c.fld 0 2 0) s, congrArg Host.Outcome.next (iarik_done hs ((checked_pass hs.head ?_).trans ?_)), rfl, ?_⟩
    · simp [hpay, hargs, hlen, hdest, hres, hauth, hallowed]
      exact fun h a m hm => hempty h (a, m) hm
    · simp only [hpay]
      rfl
    · exact transitions_enterLifecycle ..

end Sys2Proof.Proofs
end

section
/-! Proofs about groups, forwarding and the loss of members (chapters 11 and 12). -/

namespace Sys2Proof.Proofs

open Sys2Proof Sys2Proof.Machine Sys2Proof.Safety Sys2Proof.Laws

/-! ## Forming and leaving a group (R334-R338, R391, R392) -/

theorem absentUnit_group {s : State} {r : CmdRef} {c : Cmd} (h : Starts s r 0x0700 c) (hports : s.part.variant.ports ≠ 0) :
    s.absentUnit c = false := by
  simp [State.absentUnit, op_of_starts h, hports]

theorem part_trainPorts (failedToo : Bool) (s : State) : (trainPorts failedToo s).part = s.part := trainPorts_does.frame .part (by decide)

/-- Settles O35: each body's checks pass, and a reply of a member of the formation is looked at by its kind. -/
theorem groupCommandsComplete : Obligations.GroupCommandsComplete := by
  refine ⟨fun s r pay c b me hs hports hop hargs hpay hlen hpaylen hres htop hme hrole hst hst' hready hidle hstage => ?_,
    fun s r c hs hports hop hargs hlen hst hplans => ?_, fun s r c hs hargs => ?_, fun s m k hk hm => ?_, fun s m k hk hm hready hst => ?_,
    fun s mgr m hports hready hentering hrun hwake => ?_, fun s mgr m n torus rows cols hst hst' hports => ?_⟩
  · intro k
    have hfound : s.startable r 0x0700 = some c := hs.found
    refine congrArg Host.Outcome.next ?_
    simp only [hfound, hop, Bool.false_eq_true, if_false]
    refine iarik_running hs ((checked_pass_of_present (absentUnit_group hs hports) hs.head ?_).trans ?_)
    · have hserial : (formMembers b).any (fun m => decide (m.2 = s.part.serial)) = true :=
        List.any_eq_true.mpr ⟨me, List.mem_of_find?_eq_some hme, by simpa using List.find?_some hme⟩
      have hzero : (List.range (formMembers b).length).any (fun i => decide (leNat (slice b (16 * i + 9) 7) ≠ 0)) = false := by simpa using hres
      simp only [hpay, Option.getD_some, htop, hserial, hzero]
      simp [hargs, hlen, hpaylen, hst, hst', hready, hidle, hstage]
      exact hrole
    · simp only [hpay, Option.getD_some, hme, part_trainPorts]
      rfl
  · have hnone : s.plans.any (fun p => p.2.active && p.2.plan.group) = false := by
      simp only [List.any_eq_false, Bool.and_eq_true, not_and]
      intro p hp hactive
      obtain h | h := hplans p hp
      · exact absurd hactive (by simp [h])
      · simp [h]
    have hbody : groupDissolve c s = if s.wideMembers c = [] then .done .ok 0 (leaveGroup s)
        else .running (sendMembers c (s.wideMembers c) false 0 0 [] s) := by
      refine (checked_pass_of_present (absentUnit_group hs hports) hs.head ?_).trans rfl
      simp only [hnone]
      simp [hargs, hlen]
      exact hst.resolve_left
    refine congrArg Host.Outcome.next ((iarikIf_eq hs hop).trans ?_)
    split
    · next h => exact iarik_done hs (hbody.trans (if_pos h))
    · next h => exact iarik_running hs (hbody.trans (if_neg h))
  · intro n
    exact congrArg Host.Outcome.next (iarik_checked_done hs rfl (by simp [hargs]))
  · intro k'
    have hany : (!k.members.any (fun x => decide (x.1 = m))) = false := by simpa using hm
    refine ⟨fun isM hst hm => ?_, fun hst => ?_, fun hst => ⟨?_, ?_, ?_, fun isM ok => ?_, fun ok hbig => ?_, ?_⟩⟩
    · have hfits : (isM && (k.torus || decide (5 < k.members.length))) = false := by
        cases isM with
        | false => rfl
        | true => simpa using hm rfl
      refine congrArg Host.Outcome.next ?_
      simp only [hk, hany, hst, hfits]
      rfl
    · refine congrArg Host.Outcome.next ?_
      simp only [hk, hany, hst]
      rfl
    · simp [exec, execJoinReply, hk, hany, hst]
    · simp [exec, execJoinReply, hk, hany, hst]
    · simp [exec, execJoinReply, hk, hany, hst]
    · simp [exec, execJoinReply, hk, hany, hst]
    · have hwide : (k.torus || decide (5 < k.members.length)) = true := by simpa using hbig
      simp [exec, execJoinReply, hk, hany, hst, hwide]
    · simp [exec, execJoinReply, hk, hany, hst]
  · have hany : k.members.any (fun x => decide (x.1 = m)) = true := by simpa using hm
    refine congrArg Host.Outcome.next ?_
    simp only [hk, hany]
    exact if_pos (by simp [hst, hready])
  · refine congrArg Host.Outcome.next ((if_neg ?_).trans ?_)
    · simp [hports, hready, hentering, hwake, hrun]
    · split <;> rfl
  · refine ⟨_, congrArg Host.Outcome.next (if_neg ?_), rfl, rfl, rfl, rfl, rfl, rfl, rfl⟩
    simp [hst, hst', hports]

/-! ## Forwarded commands (R376, R377) -/

/-- A forwarded NOP ends as it arrives. -/
theorem runForwarded_nop {src : Nat} {entry : Bytes} {pay : BusRead} {s : State} (hop : (acceptForwarded src entry s).1.op = 0)
    (hrole : (acceptForwarded src entry s).2.roleRefuses (acceptForwarded src entry s).1 = false)
    (hhead : (acceptForwarded src entry s).1.headReserved = false)
    (hargs : (acceptForwarded src entry s).1.argReserved 0 0 0 0 0 = false) (hlen : (acceptForwarded src entry s).1.sub.payLen = 0)
    (hentry : (acceptForwarded src entry s).2.pwr.entry = none) :
    runForwarded src entry pay s = finish (acceptForwarded src entry s).1.id .ok 0 (acceptForwarded src entry s).2 := by
  have hbody : memberBody pay (acceptForwarded src entry s).1 (acceptForwarded src entry s).2 = .done .ok 0 (acceptForwarded src entry s).2 := by
    simp only [memberBody, hop]
    exact checked_pass hhead (by simp [hargs, hlen])
  have hknown : (0 : Nat) ∈ opcodes := by decide
  simp only [runForwarded, carryOut, hop, hknown, not_true_eq_false, if_false, hrole, Bool.false_eq_true, hbody, finish_pwr, hentry]
  exact if_neg (by simp)

/-! ## Loss (R352-R355) -/

/-- The fatal states of the device and of the group. -/
def fatals (e : Err) : Bool × Bool := (e.fatalDev, e.fatalGroup)

theorem fatals_push (e : Err) (l : List ErrEntry) : fatals (e.push l) = fatals e := by
  induction l generalizing e with
  | nil => rfl
  | cons x l ih => exact ih _

theorem fatals_place (e : Err) (x : ErrEntry) (l : List ErrEntry) : fatals (e.place x l).1 = fatals e := by
  unfold Err.place
  extract_lets free
  split
  · split
    · split <;> rfl
    · rfl
  · split <;> exact fatals_push ..

/-- A record does not touch the fatal states. -/
theorem fatals_record (cls : ErrClass) (code : Nat) (i : RecInfo) (s : State) : fatals (record cls code i s).err = fatals s.err := by
  cases h : s.err.merges cls code (detail32 i.detail) s.tbu.now with
  | true =>
    rw [record_of_merges h]
    rfl
  | false =>
    rw [record_err h]
    exact fatals_place ..

theorem fatalGroup_record (cls : ErrClass) (code : Nat) (i : RecInfo) (s : State) : (record cls code i s).err.fatalGroup = s.err.fatalGroup :=
  congrArg Prod.snd (fatals_record cls code i s)

theorem fatalDev_record (cls : ErrClass) (code : Nat) (i : RecInfo) (s : State) : (record cls code i s).err.fatalDev = s.err.fatalDev :=
  congrArg Prod.fst (fatals_record cls code i s)

theorem lossDue_of {s : State} {last : Nat} (hlate : last + 1000000 ≤ s.tbu.now) (hact : s.activating = false) (hsus : s.spar.suspended = none) :
    s.lossDue last = true := by
  simp [State.lossDue, hlate, hact, hsus]

/-- Settles O36: each row's guard passes; neither a record nor the passing of time touches what it reads. -/
theorem forwardingAndLossComplete : Obligations.ForwardingAndLossComplete := by
  refine ⟨fun s src entry pay hst hsrc => ?_, fun s m r st res out c hst hc hm => ?_, fun s t hst hlate hsus hact => ?_,
    fun s m t x hx hst hm hx' hlate hsus hact => ?_⟩
  · intro a hop hrole hhead hargs hlen hentry
    refine congrArg Host.Outcome.next ((if_neg ?_).trans (runForwarded_nop hop hrole hhead hargs hlen hentry))
    have hsame : (wakeEvent false s).spar = s.spar := wakeEvent_does.frame .spar (by decide)
    simp [hst, hsrc]
  · refine congrArg Host.Outcome.next ?_
    simp only [hst, hc, hm, endForwarded, Bool.and_eq_true, decide_eq_true_eq]
    rfl
  · refine ⟨orphan (reachTime t s), congrArg Host.Outcome.next (if_pos ?_), ?_, ?_, fatalGroup_record .., ?_, ?_⟩
    · exact Bool.and_eq_true_iff.mpr ⟨decide_eq_true hst, lossDue_of hlate hact hsus⟩
    · exact congrArg (·.st) (record_does.frame .spar (by decide))
    · exact congrArg (·.memberLost) (record_does.frame .spar (by decide))
    · exact congrArg (·.locked) (record_does.frame .tbu (by decide))
    · exact congrArg (·.holdover) (record_does.frame .tbu (by decide))
  · refine congrArg Host.Outcome.next ?_
    have hlook : mget (reachTime t s).spar.members m = some x := hx
    have hlost : (reachTime t s).lossDue x.lastStatus = true := lossDue_of hlate hact hsus
    simp only [hlook]
    exact if_pos (by simp [hlost, hm, hx', hst])

end Sys2Proof.Proofs
end

section
/-! Proofs about the flits, ports and coded blocks of the fabric (chapters 08 and 11). -/

namespace Sys2Proof.Proofs

open Sys2Proof Sys2Proof.Machine Sys2Proof.Safety Sys2Proof.Laws

/-! ## Flits (R339-R343) -/

/-- A good flit of the type that a row names is taken in order, and then does what the row says. -/
theorem takeFlit_eq {s : State} {p typ : Nat} {f : Flit} (h : FlitComes s p typ f) (k : State → State) : takeFlit p typ f k s = k (tookFlit p f s) := by
  have hup : (decide ((s.port p).st ≠ portUp) || decide (s.part.variant.ports ≤ p)) = false := by simp [h.up, h.fitted]
  have hgood : (!(s.port p).good f) = false := by simp [h.good]
  simp only [takeFlit, hup, hgood, Bool.false_eq_true, if_false, h.isTyp, ne_eq, not_true_eq_false]
  rfl

/-- Settles O37: a good flit is taken in order, and what its row then does is read off the definition. -/
theorem linkFlitsComplete : Obligations.LinkFlitsComplete := by
  refine ⟨fun s p f h => congrArg Host.Outcome.next (takeFlit_eq h _), fun s p f hup hp hbad => congrArg Host.Outcome.next (if_neg ?_),
    fun s p f h => congrArg Host.Outcome.next (takeFlit_eq h _), fun s p f h => congrArg Host.Outcome.next (takeFlit_eq h _), fun s p f h hdst => ?_⟩
  · simp [hup, hp, hbad]
  · intro t
    have hhere : ¬f.dst.toNat ≠ t.spar.member := Classical.not_not.mpr hdst
    refine ⟨?_, fun hh => ?_, fun i n => ?_, fun i => ?_, fun n b hb => ?_⟩
    · exact congrArg Host.Outcome.next ((takeFlit_eq h _).trans (if_neg hhere))
    · exact congrArg Host.Outcome.next ((takeFlit_eq h _).trans (if_neg hhere))
    · exact congrArg Host.Outcome.next ((takeFlit_eq h _).trans (if_neg hhere))
    · exact congrArg Host.Outcome.next ((takeFlit_eq h _).trans (if_neg hhere))
    · refine congrArg Host.Outcome.next ((takeFlit_eq h _).trans ((if_neg hhere).trans ?_))
      simp only [t] at hb
      simp only [hb]
      rfl

/-! ### What sending leaves alone -/

/-- The fabric's state is as it was but for the ports and what waits for them. -/
def SameBut (s t : State) : Prop := ∃ ports waiting, t.spar = { s.spar with ports := ports, waiting := waiting }

theorem SameBut.refl (s : State) : SameBut s s := ⟨_, _, rfl⟩

theorem SameBut.trans {s t v : State} : SameBut s t → SameBut t v → SameBut s v := by
  rintro ⟨_, _, h⟩ ⟨ports, waiting, h'⟩
  exact ⟨ports, waiting, by rw [h', h]⟩

theorem sameBut_forEach {α : Type} {f : α → State → State} (h : ∀ a t, SameBut t (f a t)) (l : List α) (s : State) : SameBut s (forEach l f s) := by
  unfold forEach
  induction l generalizing s with
  | nil => exact .refl s
  | cons a l ih => exact (h a s).trans (ih _)

theorem sameBut_portSend (p : Nat) (f : TxFlit) (s : State) : SameBut s (portSend p f s) := ⟨_, s.spar.waiting, rfl⟩

theorem sameBut_routeFlit (f : TxFlit) (s : State) : SameBut s (routeFlit f s) := by
  unfold routeFlit
  extract_lets wait
  split
  · exact ⟨s.spar.ports, _, rfl⟩
  · split
    · exact ⟨s.spar.ports, _, rfl⟩
    · exact sameBut_portSend _ _ _

theorem sameBut_sendTo (m : Nat) (x : SparMsg) (s : State) : SameBut s (sendTo m x s) := by
  unfold sendTo
  extract_lets f
  split
  · exact sameBut_forEach (fun p t => sameBut_portSend p f t) _ _
  · exact sameBut_routeFlit _ _

theorem sameBut_flushWaiting (s : State) : SameBut s (flushWaiting s) :=
  SameBut.trans (t := { s with spar := { s.spar with waiting := [] } }) ⟨s.spar.ports, [], rfl⟩ (sameBut_forEach sameBut_routeFlit _ _)

theorem sameBut_passTime (port now : Nat) (s : State) : SameBut s (passTime port now s) :=
  sameBut_forEach (fun p t => sameBut_portSend p _ t) _ _

/-! ### Time (R351) -/

/-- What a worker takes from a TIME flit, before it passes it on. -/
def followTime (time : Nat) (s : State) : State :=
  let v := correctTo time s
  let v := timeSetReady { v with tbu := { v.tbu with locked := true, source := 2, holdover := false } }
  { v with spar := { v.spar with lastTime := v.tbu.now } }

/-- The join that waited for the manager's time is acknowledged. -/
def ackJoin (s : State) : State :=
  if s.spar.joinAck then sendTo s.spar.manager (.joinAnswer .joined) { s with spar := { s.spar with joinAck := false } } else s

theorem tbu_ackJoin (s : State) : (ackJoin s).tbu = s.tbu := by
  unfold ackJoin
  split
  · exact sendTo_does.frame .tbu (by decide)
  · rfl

theorem ready_ackJoin (s : State) : (ackJoin s).ready = s.ready := by
  unfold ackJoin
  split
  · exact sendTo_does.frame .ready (by decide)
  · rfl

theorem lastTime_ackJoin (s : State) : (ackJoin s).spar.lastTime = s.spar.lastTime := by
  unfold ackJoin
  split
  · obtain ⟨_, _, h⟩ := sameBut_sendTo s.spar.manager (.joinAnswer .joined) { s with spar := { s.spar with joinAck := false } }
    rw [h]
  · rfl

theorem joinAck_ackJoin (s : State) : (ackJoin s).spar.joinAck = false := by
  unfold ackJoin
  split
  · obtain ⟨_, _, h⟩ := sameBut_sendTo s.spar.manager (.joinAnswer .joined) { s with spar := { s.spar with joinAck := false } }
    rw [h]
  · next h => exact Bool.eq_false_iff.mpr h

/-- Settles O38: sending changes no more of the fabric's state than the ports and what waits for them. -/
theorem groupFlitsAndPortsComplete : Obligations.GroupFlitsAndPortsComplete := by
  refine ⟨fun s p f op h hdst => ?_, fun s p f now delay h hst => ?_, fun s hst => congrArg Host.Outcome.next (if_pos hst),
    fun s p f epochs t m h hdst hst hm => ?_, fun s hst => congrArg Host.Outcome.next (if_pos hst), fun s p l hup hp => ?_,
    fun s p peer htrain hp => ⟨?_, ?_⟩, fun s routes hops hst => ?_⟩
  · exact congrArg Host.Outcome.next ((takeFlit_eq h _).trans (if_neg (Classical.not_not.mpr hdst)))
  · have htbu : (passTime p (now + delay) (followTime (now + delay) (tookFlit p f s))).tbu = (followTime (now + delay) (tookFlit p f s)).tbu :=
      passTime_does.frame .tbu (by decide)
    have hready : (passTime p (now + delay) (followTime (now + delay) (tookFlit p f s))).ready = (followTime (now + delay) (tookFlit p f s)).ready :=
      passTime_does.frame .ready (by decide)
    obtain ⟨_, _, hspar⟩ := sameBut_passTime p (now + delay) (followTime (now + delay) (tookFlit p f s))
    refine ⟨ackJoin (passTime p (now + delay) (followTime (now + delay) (tookFlit p f s))),
      congrArg Host.Outcome.next ((takeFlit_eq h _).trans ((if_neg (Classical.not_not.mpr hst)).trans rfl)), ?_, ?_, ?_, ?_, ?_, joinAck_ackJoin _⟩
    · rw [tbu_ackJoin, htbu]
      rfl
    · rw [tbu_ackJoin, htbu]
      rfl
    · rw [tbu_ackJoin, htbu]
      rfl
    · rw [ready_ackJoin, hready]
      rfl
    · rw [lastTime_ackJoin, tbu_ackJoin, htbu, hspar]
      rfl
  · refine ⟨_, congrArg Host.Outcome.next ((takeFlit_eq h _).trans ((if_neg (Classical.not_not.mpr hdst)).trans (if_neg (Classical.not_not.mpr hst)))), ?_⟩
    exact (mget_mupd _ _ _).trans (congrArg (Option.map _) hm)
  · refine congrArg Host.Outcome.next (if_neg ?_)
    simp [hup, hp]
  · refine congrArg Host.Outcome.next ((if_neg ?_).trans (if_pos rfl))
    simp [htrain, hp]
  · refine congrArg Host.Outcome.next ((if_neg ?_).trans (if_neg Bool.false_ne_true))
    simp [htrain, hp]
  · refine ⟨_, congrArg Host.Outcome.next (if_neg ?_), ?_⟩
    · omega
    · obtain ⟨_, _, h⟩ := sameBut_flushWaiting (count 0x6004C { s with spar := { s.spar with routes :=
        (routes.filter (fun r => decide (r.1 < 64) && decide (r.2 < s.part.variant.ports))).foldl (fun m r => mset m r.1 r.2) [], routeLong := decide (10 < hops) } })
      rw [h]
      exact congrArg (·.routes) (count_does.frame .spar (by decide))

/-! ## Coded blocks (R280-R282, R286) -/

/-- Settles O39: a block of another member of the group is looked at by what it expands to. -/
theorem codecBlocksComplete : Obligations.CodecBlocksComplete := by
  intro s src port block copy hsrc hother hst hport c h
  have hcomes : (!decide (src ∈ s.groupList) || decide (src = s.spar.member) || (decide (s.spar.st ≠ 1) && decide (s.spar.st ≠ 2)) ||
      decide (s.part.variant.ports ≤ port)) = false := by
    obtain hst | hst := hst <;> simp [hsrc, hother, hst, hport]
  refine ⟨fun raw hraw htyp => ?_, fun raw hraw htyp => ?_, fun hbad htries => ?_, fun hbad htries => ?_⟩
  · refine congrArg Host.Outcome.next ?_
    simp only [c] at hraw
    simp only [hcomes, hraw]
    exact if_neg htyp
  · refine congrArg Host.Outcome.next ?_
    simp only [c] at hraw
    simp only [hcomes, hraw]
    exact if_pos htyp
  · refine congrArg Host.Outcome.next ?_
    simp only [c] at hbad
    simp only [hcomes, hbad]
    exact if_pos htries
  · refine congrArg Host.Outcome.next ?_
    simp only [c] at hbad
    simp only [hcomes, hbad]
    exact if_neg (Nat.not_lt.mpr htries)

end Sys2Proof.Proofs
end

section
/-! Proofs about registers, the host's accesses and its DMA engines (chapters 09 and 13). -/

namespace Sys2Proof.Proofs

open Sys2Proof Sys2Proof.Machine Sys2Proof.Safety Sys2Proof.Laws

/-! ## Words (R10, R404) -/

/-- A write of a listed word with no reserved bit set reaches it. -/
theorem write32_of_listed {o v m : Nat} {s : State} (hm : reservedBits o = some m) (ho : o ≠ 0x14) :
    write32 o v s = if Nat.land v m = 0 then wordWrite o v s else hostAccess 0 o v 0 s := by
  simp only [write32, hm, if_neg ho, ne_eq, ite_not]

/-- Settles O41: an awake device carries each access out, and a word with no reserved bit set reaches its register. -/
theorem registerCommandsComplete : Obligations.RegisterCommandsComplete := by
  refine ⟨fun s o v m hawake ho hm hv hne => ?_, fun s v hawake hres hclear => ?_, fun s t hawake => ?_, fun s v hawake hv hbase => ?_,
    fun s n hlo hhi hne => ?_, fun s v hawake hv hn => ?_, fun s o v hawake ho => ?_, fun s o n v hawake h4 h8 => ?_, fun s => ⟨?_, rfl⟩⟩
  · refine congrArg Host.Outcome.next ((busAccess_of_awake hawake ..).trans ((if_neg (by omega)).trans ((if_pos ⟨rfl, ho⟩).trans ?_)))
    rw [Nat.mod_eq_of_lt hv, write32_of_listed hm hne]
  · have hwrite : write32 8 v.toNat s = clearCounters { s with fmtSticky := s.fmtSticky &&& ~~~ BitVec.ofNat 7 v.toNat } :=
      (write32_of_listed (o := 8) rfl (by decide)).trans ((if_pos hres).trans (if_pos hclear))
    exact ⟨_, congrArg Host.Outcome.next ((busAccess_of_awake hawake ..).trans hwrite), rfl, rfl, rfl⟩
  · exact ⟨timeRead (reachTime t s), congrArg Host.Outcome.next (busAccess_of_awake hawake ..), rfl, BitVec.toNat_ofNat _ _, rfl⟩
  · exact congrArg Host.Outcome.next ((busAccess_of_awake hawake ..).trans (if_pos ⟨hv, hbase⟩))
  · exact congrArg Host.Outcome.next (if_neg (by omega))
  · exact congrArg Host.Outcome.next ((busAccess_of_awake hawake ..).trans (if_neg (by omega)))
  · exact congrArg Host.Outcome.next ((busAccess_of_awake hawake ..).trans (if_pos ⟨rfl, ho⟩))
  · exact congrArg Host.Outcome.next ((busAccess_of_awake hawake ..).trans ((if_neg h8).trans (if_neg h4)))
  · cases h : s.part.variant <;> simp [State.configWord, h, Variant.deviceId]

/-! ## Errors of the host's side -/

theorem aerPoisoned_raiseVector (v : Nat) (s : State) : (raiseVector v s).host.aerPoisoned = s.host.aerPoisoned := by
  unfold raiseVector
  split <;> rfl

theorem aerPoisoned_reported (cls : ErrClass) (s : State) : (reported cls s).host.aerPoisoned = s.host.aerPoisoned := by
  unfold reported
  extract_lets t
  have ht : t.host.aerPoisoned = s.host.aerPoisoned := by
    simp only [t]
    split
    · exact aerPoisoned_raiseVector _ _
    · rfl
  split <;> exact ht

/-- A record does not touch the host's mark of poisoned writes. -/
theorem aerPoisoned_record (cls : ErrClass) (code : Nat) (i : RecInfo) (s : State) : (record cls code i s).host.aerPoisoned = s.host.aerPoisoned := by
  cases h : s.err.merges cls code (detail32 i.detail) s.tbu.now with
  | true =>
    rw [record_of_merges h]
    rfl
  | false =>
    rw [record_of_not_merges h, aerPoisoned_reported]
    cases (placed cls code i s).2 <;> rfl

/-! ## DMA engines (R402, R403) -/

/-- A value below a power of two shares no bit with the bits from there on. -/
theorem land_high_eq_zero {v n h : Nat} (hv : v < 2 ^ n) : Nat.land v (2 ^ n * h) = 0 := by
  refine Nat.eq_of_testBit_eq fun i => ?_
  have hand : (v &&& 2 ^ n * h).testBit i = (v.testBit i && (2 ^ n * h).testBit i) := Nat.testBit_and ..
  refine hand.trans ?_
  rw [Nat.testBit_two_pow_mul, Nat.zero_testBit]
  by_cases hi : n ≤ i
  · simp [Nat.testBit_lt_two_pow (Nat.lt_of_lt_of_le hv (Nat.pow_le_pow_right (by decide) hi))]
  · simp [hi]

/-- A write of the control word of an engine, with no reserved bit set. -/
theorem write32_dmaControl {e v : Nat} {s : State} (he : e < 4) (hv : v < 2 ^ 16) :
    write32 (0x90000 + 64 * e + 8) v s = if bit v 0 then dmaEnableWrite e v s else dmaDisableWrite e v s := by
  have hclear : Nat.land v 0xFFFF0000 = 0 := land_high_eq_zero (n := 16) (h := 0xFFFF) hv
  have hword : reservedBits (0x90000 + 64 * e + 8) = some 0xFFFF0000 ∧ wordWrite (0x90000 + 64 * e + 8) v s = dmaWrite e 8 v s := by
    obtain rfl | rfl | rfl | rfl : e = 0 ∨ e = 1 ∨ e = 2 ∨ e = 3 := by omega
    all_goals exact ⟨rfl, rfl⟩
  rw [write32_of_listed hword.1 (by omega), if_pos hclear, hword.2]
  rfl

theorem write32_dmaTail {e v : Nat} {s : State} (he : e < 4) (hv : v < 4096) :
    write32 (0x90000 + 64 * e + 0xC) v s = dmaTailWrite e v s := by
  have hclear : Nat.land v 0xFFFFF000 = 0 := land_high_eq_zero (n := 12) (h := 0xFFFFF) hv
  have hword : reservedBits (0x90000 + 64 * e + 0xC) = some 0xFFFFF000 ∧ wordWrite (0x90000 + 64 * e + 0xC) v s = dmaTailWrite e v s := by
    obtain rfl | rfl | rfl | rfl : e = 0 ∨ e = 1 ∨ e = 2 ∨ e = 3 := by omega
    all_goals exact ⟨rfl, rfl⟩
  rw [write32_of_listed hword.1 (by omega), if_pos hclear, hword.2]

theorem dmaFault_halts (e : Nat) (s : State) : ((dmaFault e s).dma e).halted = true ∧ ((dmaFault e s).dma e).busErr = true := by
  unfold dmaFault
  rw [dma_updDma]
  exact ⟨rfl, rfl⟩

/-- Settles O42: what becomes of an access follows the power state; a record leaves the marks of the host's side alone. -/
theorem hostAccessesComplete : Obligations.HostAccessesComplete := by
  refine ⟨fun s off len data hawake hin => ?_, fun s x bar off v k => ⟨?_, fun hrun hwake => ?_, fun hdeep => ?_, fun hrun hwake hre o n w => ?_⟩,
    fun s o n v => rfl, fun s off n data hawake hin => ?_, fun s bar off hawake => ?_, fun s v hv => ?_,
    fun s e v hawake he hen hv hlo hhi hoff => ?_, fun s e v hawake he hen hv => ?_, fun s e v hawake he hn hv => ?_,
    fun s e b x hrun he hbusy hb hbad hfrom hx => ?_, fun s e hrun he hbusy => ?_⟩
  · exact congrArg Host.Outcome.next ((if_neg (Nat.not_lt.mpr hin)).trans (busAccess_of_awake hawake ..))
  · rintro (h | h) <;> simp only [busAccess, h]
  · simp only [busAccess, hrun, hwake, if_true]
  · simp only [busAccess, hdeep]
  · simp only [busAccess, hrun, hwake, hre, Bool.false_eq_true, if_false, if_true, restartAccess]
  · exact congrArg Host.Outcome.next ((if_neg (Nat.not_lt.mpr hin)).trans (busAccess_of_awake hawake ..))
  · refine ⟨poisonedWrite bar off s, congrArg Host.Outcome.next (busAccess_of_awake hawake ..), aerPoisoned_record .., ?_⟩
    exact List.mem_append_right _ (List.mem_singleton_self _)
  · refine ⟨_, congrArg Host.Outcome.next (if_neg (Nat.not_le.mpr hv)), ?_⟩
    have hunmasked : v ∈ addOnce s.host.unmasked v := by
      unfold addOnce
      split <;> simp_all
    by_cases hpend : v ∈ s.host.pba
    · simp [hpend, hunmasked, emit]
    · simp [hpend, hunmasked]
  · have hvalue : dmaEnableWrite e v.toNat s = _ := if_neg (by simp [hoff]; omega)
    refine ⟨_, congrArg Host.Outcome.next ((if_neg (by simp [he, hen])).trans ((busAccess_of_awake hawake ..).trans
      ((write32_dmaControl he hv).trans ((if_pos hen).trans hvalue)))), ?_⟩
    rw [dma_updDma]
    refine ⟨rfl, ?_, by simp [hoff], by simp [hoff], by simp [hoff], rfl⟩
    exact congrArg (2 ^ ·) ((BitVec.toNat_ofNat ..).trans (Nat.mod_eq_of_lt (by omega)))
  · refine ⟨_, congrArg Host.Outcome.next ((if_neg (by simp [he, hen])).trans ((busAccess_of_awake hawake ..).trans
      ((write32_dmaControl he hv).trans (if_neg (by simp [hen]))))), ?_⟩
    unfold dmaDisableWrite
    rw [dma_updDma]
  · exact congrArg Host.Outcome.next ((if_neg (by omega)).trans ((busAccess_of_awake hawake ..).trans
      ((write32_dmaTail he hv).trans (if_neg (by omega)))))
  · have hlen : 4 ≤ u b 16 4 := by
      simp only [dmaBad, Bool.or_eq_false_iff, decide_eq_false_iff_not] at hbad
      omega
    have hsome : x.take (u b 16 4) ≠ [] := by
      simp [hx]
      omega
    have hslice : slice b 0 32 = b := by simpa using slice_zero_append [] hb
    have hturn : (decide (4 ≤ e) || !s.dmaBusy e || decide (s.pwr.state ≠ .run)) = false := by simp [he, hbusy, hrun]
    intro v
    refine congrArg Host.Outcome.next ?_
    simp only [hturn, hslice, hbad, hfrom, hsome, Bool.false_eq_true, if_false, Option.map_some]
    have hshort : (x.take (u b 16 4)).length < u b 16 4 ↔ x.length < u b 16 4 := by
      rw [List.length_take]
      omega
    simp only [hshort]
    rfl
  · refine ⟨dmaFault e s, congrArg Host.Outcome.next (if_neg ?_), dmaFault_halts e s⟩
    simp [he, hbusy, hrun]

end Sys2Proof.Proofs
end

section
/-! Proofs about the resets (chapters 13 and 15). -/

namespace Sys2Proof.Proofs

open Sys2Proof Sys2Proof.Machine Sys2Proof.Safety Sys2Proof.Laws

/-! ## What a boot keeps of the security state (R440, R451) -/

/-- The cause of the last reset and the scheduled time of an activation are as they were. -/
def KeepsCause (s t : State) : Prop := t.sec.lastReset = s.sec.lastReset ∧ t.sec.actTime = s.sec.actTime

theorem KeepsCause.refl (s : State) : KeepsCause s s := ⟨rfl, rfl⟩

theorem KeepsCause.trans {s t v : State} (h : KeepsCause s t) (h' : KeepsCause t v) : KeepsCause s v := ⟨h'.1.trans h.1, h'.2.trans h.2⟩

theorem KeepsCause.of_changed {s t v : State} (h : KeepsCause t v) (hreset : t.sec.lastReset = s.sec.lastReset) (htime : t.sec.actTime = s.sec.actTime) :
    KeepsCause s v := ⟨h.1.trans hreset, h.2.trans htime⟩

theorem keepsCause_of_sec {s t : State} (h : t.sec = s.sec) : KeepsCause s t := by
  rw [KeepsCause, h]
  exact ⟨rfl, rfl⟩

theorem KeepsCause.snd {α : Type} {s t : State} {a : α} (h : KeepsCause s t) : KeepsCause s (sndSt (a, t)) := h

theorem KeepsCause.ofSnd {α : Type} {s : State} {p : α × State} (h : KeepsCause s (sndSt p)) : KeepsCause s p.2 := h

theorem KeepsCause.ite2 {α : Type} {s : State} {t v : α × State} {c : Prop} [Decidable c] (ht : KeepsCause s (sndSt t))
    (hv : KeepsCause s (sndSt v)) : KeepsCause s (sndSt (if c then t else v)) := by split <;> assumption

theorem keepsCause_noteBad (staging : Bool) (s : State) : KeepsCause s (noteBad staging s) := by
  unfold noteBad
  generalize s.imageOk (if staging then stagingBase else activeBase) = ok
  cases ok <;> cases staging <;> exact ⟨rfl, rfl⟩

theorem keepsCause_copySectors (l : List Nat) (s : State) : KeepsCause s (copySectors l s) :=
  keepsCause_of_sec (copySectors_does.frame .sec (by decide))

theorem keepsCause_tryActive (s : State) : KeepsCause s (sndSt (tryActive s)) := by
  unfold tryActive
  extract_lets +onlyGivenNames t
  have ht : KeepsCause s t := keepsCause_noteBad _ _
  clear_value t
  extract_lets +onlyGivenNames _ v
  have hv : KeepsCause t v := (keepsCause_copySectors _ _).of_changed rfl rfl
  clear_value v
  refine .ite2 (KeepsCause.refl s).snd (.ite2 (.ite2 ?_ ?_) ?_)
  · exact KeepsCause.snd ((ht.trans hv).trans ⟨rfl, rfl⟩)
  · exact ((ht.trans hv).trans (keepsCause_noteBad false v)).snd
  · exact (ht.trans (keepsCause_noteBad true t)).snd

theorem keepsCause_activationCopy (s : State) : KeepsCause s (activationCopy s) := by
  unfold activationCopy
  extract_lets +onlyGivenNames _ t
  have ht : KeepsCause s t := (keepsCause_copySectors _ _).of_changed rfl rfl
  split
  · exact ht
  · exact (ht.trans (keepsCause_noteBad _ _)).trans (keepsCause_copySectors _ _)

theorem keepsCause_chooseImage (own : Bool) (s : State) : KeepsCause s (sndSt (chooseImage own s)) := by
  unfold chooseImage
  extract_lets +onlyGivenNames _ t
  have ht : KeepsCause s t := ⟨rfl, rfl⟩
  clear_value t
  extract_lets +onlyGivenNames v _ w
  have hv : KeepsCause t v := keepsCause_activationCopy _
  have hw : KeepsCause t w := keepsCause_noteBad _ _
  clear_value v w
  refine .ite2 (.ite2 (.ite2 ?_ ?_) ?_) (ht.trans (keepsCause_tryActive t))
  · exact KeepsCause.snd ((ht.trans hv).trans ⟨rfl, rfl⟩)
  · exact ((ht.trans hv).trans (keepsCause_noteBad false v)).snd
  · exact (ht.trans hw).trans ((keepsCause_tryActive _).of_changed rfl rfl)

theorem keepsCause_bringUp (full : Bool) (env : BootEnv) (s : State) : KeepsCause s (bringUp full env s) := by
  unfold bringUp
  extract_lets +onlyGivenNames v _ _ t u
  have hu : KeepsCause t u := by
    refine keepsCause_of_sec ((mountAll_does.frame .sec (by decide)).trans ?_)
    split
    · exact trainPorts_does.frame .sec (by decide)
    · rfl
  have hchecks : KeepsCause u (if full then bootChecks env u else u) := by
    split
    · exact keepsCause_of_sec (bootChecks_does.frame .sec (by decide))
    · exact .refl u
  refine (show KeepsCause s t from ⟨rfl, rfl⟩).trans ((hu.trans hchecks).trans (keepsCause_of_sec ?_))
  exact (retarget_does.frame .sec (by decide)).trans (resumeLoss_does.frame .sec (by decide))

theorem keepsCause_startFirmware (full : Bool) (env : BootEnv) (s : State) : KeepsCause s (startFirmware full env s) := by
  unfold startFirmware
  extract_lets +onlyGivenNames m _ t u
  have hu : KeepsCause t u := by
    simp only [u]
    split
    · exact keepsCause_of_sec (trainBoard_does.frame .sec (by decide))
    · exact .refl t
  have ht : KeepsCause s u := (show KeepsCause s t from ⟨rfl, rfl⟩).trans hu
  split
  · exact ht.trans (keepsCause_bringUp _ _ _)
  · exact ht

/-! ## What a boot keeps of power and of the group (R451, R452) -/

theorem state_retarget (s : State) : (retarget s).pwr.state = s.pwr.state := by
  unfold retarget
  extract_lets w
  split <;> rfl

theorem state_bringUp (full : Bool) (env : BootEnv) (s : State) : (bringUp full env s).pwr.state = s.pwr.state := by
  unfold bringUp
  extract_lets +onlyGivenNames v _ _ t u
  have hu : u.pwr = t.pwr := by
    refine (mountAll_does.frame .pwr (by decide)).trans ?_
    split
    · exact trainPorts_does.frame .pwr (by decide)
    · rfl
  have hchecks : (if full then bootChecks env u else u).pwr = u.pwr := by
    split
    · exact bootChecks_does.frame .pwr (by decide)
    · rfl
  exact (state_retarget _).trans (congrArg Pwr.state ((resumeLoss_does.frame .pwr (by decide)).trans (hchecks.trans hu)))

theorem state_startFirmware (full : Bool) (env : BootEnv) (s : State) : (startFirmware full env s).pwr.state = s.pwr.state := by
  unfold startFirmware
  extract_lets +onlyGivenNames m _ t u
  have hu : u.pwr = t.pwr := by
    simp only [u]
    split
    · exact trainBoard_does.frame .pwr (by decide)
    · rfl
  split
  · exact (state_bringUp _ _ _).trans (congrArg Pwr.state hu)
  · exact congrArg Pwr.state hu

theorem suspended_trainPorts (failedToo : Bool) (s : State) : (trainPorts failedToo s).spar.suspended = s.spar.suspended := by
  unfold trainPorts
  refine forUpto_keeps (P := fun t => t.spar.suspended = s.spar.suspended) (fun p t ht => ?_) rfl
  split
  · exact ht
  · exact ht

theorem suspended_resumeLoss (s : State) : (resumeLoss s).spar.suspended = s.spar.suspended := by
  unfold resumeLoss
  split <;> rfl

theorem suspended_bringUp_warm (env : BootEnv) (s : State) : (bringUp false env s).spar.suspended = s.spar.suspended := by
  unfold bringUp
  extract_lets +onlyGivenNames v _ _ t u
  have hu : u.spar.suspended = t.spar.suspended := by
    refine (congrArg Spar.suspended (mountAll_does.frame .spar (by decide))).trans ?_
    split
    · exact suspended_trainPorts _ _
    · rfl
  rw [if_neg Bool.false_ne_true]
  exact (congrArg Spar.suspended (retarget_does.frame .spar (by decide))).trans ((suspended_resumeLoss u).trans hu)

theorem suspended_startFirmware_warm (env : BootEnv) (s : State) : (startFirmware false env s).spar.suspended = s.spar.suspended := by
  unfold startFirmware
  extract_lets +onlyGivenNames m _ t u
  split
  · exact suspended_bringUp_warm _ _
  · rfl

/-! ## Bedrock (R437-R442) -/

/-- The state as Bedrock begins, before the masks are loaded. -/
def bedrockStart (full : Bool) (cause : Nat) (env : BootEnv) (s : State) : State :=
  { s with
    sec := { s.sec with
      lifecycle := max s.sec.lifecycle s.sec.floor, bootLifecycle := max s.sec.lifecycle s.sec.floor, lastReset := cause
      activeBad := s.sec.activeBad && !full, stagingBad := s.sec.stagingBad && !full, rollback := s.sec.rollback && !full
      copyResumed := s.sec.copyResumed && !full, watchdog := s.sec.watchdog && !full, bootedCopy := false }
    spar := { s.spar with roleWorker := if full then env.roleHigh else s.spar.roleWorker }
    pwr := { s.pwr with state := .run } }

/-- The state in which Bedrock chooses what to boot. -/
def bedrockLoaded (full : Bool) (cause : Nat) (env : BootEnv) (s : State) : State :=
  loadMasks (if full then bootBist env (placeKept (bedrockStart full cause env s)) else placeKept (bedrockStart full cause env s))

/-- What Bedrock boots from there. -/
def bedrockChoose (full force own : Bool) (env : BootEnv) (t : State) : State :=
  if env.recoveryLow || t.sec.recoveryReq || force then startRecovery { t with sec := { t.sec with recoveryReq := false } }
  else if (chooseImage own (redrawFlash t)).1 then startFirmware full env (chooseImage own (redrawFlash t)).2
  else startRecovery (chooseImage own (redrawFlash t)).2

theorem bedrock_eq (full force own : Bool) (cause : Nat) (env : BootEnv) (s : State) :
    bedrock full force own cause env s = bedrockChoose full force own env (bedrockLoaded full cause env s) := by
  unfold bedrock
  extract_lets +onlyGivenNames lc _ _ _ t v r
  have hv : v = bedrockLoaded full cause env s := rfl
  clear_value v
  rw [← hv, bedrockChoose]

/-- The masks and the kept record are all that is loaded. -/
theorem bedrockLoaded_does {full : Bool} {cause : Nat} {env : BootEnv} {s : State} :
    Does [.cnt, .host, .err, .arrs, .exclStored, .out] (bedrockStart full cause env s) (bedrockLoaded full cause env s) := by
  unfold bedrockLoaded
  refine Does.then loadMasks_does rfl (Does.ite (Does.then bootBist_does rfl (placeKept_does.mono rfl)) (placeKept_does.mono rfl))

theorem sec_bedrockLoaded (full : Bool) (cause : Nat) (env : BootEnv) (s : State) :
    (bedrockLoaded full cause env s).sec = (bedrockStart full cause env s).sec := bedrockLoaded_does.frame .sec (by decide)

theorem keepsCause_bedrock (full force own : Bool) (cause : Nat) (env : BootEnv) (s : State) :
    KeepsCause (bedrockStart full cause env s) (bedrock full force own cause env s) := by
  have hload : KeepsCause _ (bedrockLoaded full cause env s) := keepsCause_of_sec (sec_bedrockLoaded full cause env s)
  rw [bedrock_eq]
  generalize bedrockLoaded full cause env s = t at hload ⊢
  unfold bedrockChoose
  have hchoose : KeepsCause t (chooseImage own (redrawFlash t)).2 :=
    (keepsCause_of_sec (redrawFlash_does.frame .sec (by decide))).trans (keepsCause_chooseImage own _).ofSnd
  refine hload.trans ?_
  split
  · exact ⟨rfl, rfl⟩
  · split
    · exact hchoose.trans (keepsCause_startFirmware full env _)
    · exact hchoose.trans ⟨rfl, rfl⟩

theorem state_bedrock (full force own : Bool) (cause : Nat) (env : BootEnv) (s : State) : (bedrock full force own cause env s).pwr.state = .run := by
  have hload : (bedrockLoaded full cause env s).pwr = (bedrockStart full cause env s).pwr := bedrockLoaded_does.frame .pwr (by decide)
  rw [bedrock_eq]
  generalize bedrockLoaded full cause env s = t at hload ⊢
  unfold bedrockChoose
  have hchoose : (chooseImage own (redrawFlash t)).2.pwr = t.pwr :=
    ((Does.ofSnd chooseImage_does).frame .pwr (by decide)).trans (redrawFlash_does.frame .pwr (by decide))
  split
  · exact congrArg Pwr.state hload
  · split
    · exact (state_startFirmware full env _).trans (congrArg Pwr.state (hchoose.trans hload))
    · exact congrArg Pwr.state (hchoose.trans hload)

theorem suspended_bedrock_warm (force own : Bool) (cause : Nat) (env : BootEnv) (s : State) :
    (bedrock false force own cause env s).spar.suspended = s.spar.suspended := by
  have hload : (bedrockLoaded false cause env s).spar = (bedrockStart false cause env s).spar := bedrockLoaded_does.frame .spar (by decide)
  rw [bedrock_eq]
  generalize bedrockLoaded false cause env s = t at hload ⊢
  unfold bedrockChoose
  have hchoose : (chooseImage own (redrawFlash t)).2.spar = t.spar :=
    ((Does.ofSnd chooseImage_does).frame .spar (by decide)).trans (redrawFlash_does.frame .spar (by decide))
  split
  · exact congrArg Spar.suspended hload
  · split
    · exact (suspended_startFirmware_warm env _).trans (congrArg Spar.suspended (hchoose.trans hload))
    · exact congrArg Spar.suspended (hchoose.trans hload)

/-- R441, R457: a forced boot is in recovery mode. -/
theorem bedrock_forced (own : Bool) (cause : Nat) (env : BootEnv) (s : State) :
    (bedrock false true own cause env s).sec =
      { (bedrockStart false cause env s).sec with recoveryReq := false, recovery := true, started := false, secVersion := 0, fwVersion := 0 } := by
  rw [bedrock_eq, bedrockChoose, if_pos (Bool.or_true _), ← sec_bedrockLoaded]
  generalize bedrockLoaded false cause env s = t
  rfl

theorem plans_warmBoot (force own : Bool) (cause : Nat) (env : BootEnv) (s : State) : (warmBoot force own cause env s).plans = [] :=
  bedrock_does.frame .plans (by decide)

theorem mbx_warmBoot (force own : Bool) (cause : Nat) (env : BootEnv) (s : State) : (warmBoot force own cause env s).mbx = Mbx.reset :=
  bedrock_does.frame .mbx (by decide)

/-! ## FLR (R374, R403) -/

/-- The keys of a map. -/
def mapKeys {α : Type} (m : NMap α) : List Nat := m.map (·.1)

theorem mapKeys_mdel {α : Type} (m : NMap α) (k : Nat) : mapKeys (mdel m k) = (mapKeys m).erase k := by
  induction m with
  | nil => rfl
  | cons p m ih =>
    obtain ⟨i, w⟩ := p
    by_cases h : i = k
    · simp [mapKeys, mdel, h]
    · simpa [mapKeys, mdel, h] using ih

theorem mapKeys_mupd {α : Type} (m : NMap α) (k : Nat) (f : α → α) : mapKeys (mupd m k f) = mapKeys m := by
  induction m with
  | nil => rfl
  | cons p m ih =>
    obtain ⟨i, w⟩ := p
    rw [mupd]
    split
    · rfl
    · exact congrArg (i :: ·) ih

theorem erase_mapKeys_of_mget_none {α : Type} {m : NMap α} {k : Nat} (h : mget m k = none) : (mapKeys m).erase k = mapKeys m := by
  induction m with
  | nil => rfl
  | cons p m ih =>
    obtain ⟨i, w⟩ := p
    by_cases hi : i = k
    · simp [mget, hi] at h
    · rw [mget, if_neg hi] at h
      simpa [mapKeys, hi] using ih h

/-- Where each change takes its own key away, a change for every key leaves none. -/
theorem forEach_mapKeys_eq_nil {α : Type} {m : State → NMap α} {f : Nat → State → State}
    (h : ∀ i s, mapKeys (m (f i s)) = (mapKeys (m s)).erase i) (s : State) : m (forEach (mapKeys (m s)) f s) = [] := by
  have key : ∀ l t, mapKeys (m t) = l → mapKeys (m (forEach l f t)) = [] := by
    intro l
    induction l with
    | nil => exact fun t ht => ht
    | cons i l ih => exact fun t ht => ih (f i t) (by rw [h, ht, List.erase_cons_head])
  exact List.map_eq_nil_iff.mp (key _ s rfl)

theorem models_finishOpt (id : Option Nat) (st : Status) (n : Nat) (s : State) : (finishOpt id st n s).models = s.models :=
  finishOpt_does.frame .models (by decide)

theorem models_finish (id : Nat) (st : Status) (n : Nat) (s : State) : (finish id st n s).models = s.models :=
  finish_does.frame .models (by decide)

theorem models_dropObject (dva : Nat) (s : State) : (dropObject dva s).models = s.models := dropObject_does.frame .models (by decide)

/-- The keys of the streams and of the tuning sessions are as they were. -/
def SameKeys (s t : State) : Prop :=
  mapKeys t.models.streams = mapKeys s.models.streams ∧ mapKeys t.models.tunes = mapKeys s.models.tunes

theorem SameKeys.trans {s t v : State} (h : SameKeys s t) (h' : SameKeys t v) : SameKeys s v := ⟨h'.1.trans h.1, h'.2.trans h.2⟩

theorem sameKeys_of_models {s t : State} (h : t.models = s.models) : SameKeys s t := by
  rw [SameKeys, h]
  exact ⟨rfl, rfl⟩

theorem sameKeys_applyCopy (i : Nat) (s : State) : SameKeys s (applyCopy i s) := by
  unfold applyCopy
  split
  · exact ⟨rfl, rfl⟩
  split
  · exact ⟨rfl, rfl⟩
  · extract_lets bl t
    have ht : t.models = s.models := forEach_keeps State.models (fun x v =>
      (tuneNans_does.frame .models (by decide)).trans ((models_writeDva _ _ _).trans (models_writeDva _ _ _))) _ s
    exact (sameKeys_of_models ht).trans ⟨rfl, mapKeys_mupd _ _ _⟩

theorem sameKeys_abortHeld (i : Nat) (s : State) : SameKeys s (abortHeld i s) := by
  unfold abortHeld
  split
  · exact (sameKeys_of_models (forEach_keeps State.models (fun x v => finishStream_does.frame .models (by decide)) _ s)).trans
      ⟨mapKeys_mupd _ _ _, rfl⟩
  · exact ⟨rfl, rfl⟩

/-- A session that ends goes, and no stream does. -/
theorem mapKeys_endTune (i : Nat) (keep : Bool) (s : State) :
    mapKeys (endTune i keep s).models.streams = mapKeys s.models.streams ∧
      mapKeys (endTune i keep s).models.tunes = (mapKeys s.models.tunes).erase i := by
  unfold endTune
  split
  next hi => exact ⟨rfl, (erase_mapKeys_of_mget_none hi).symm⟩
  next t ht =>
    extract_lets +onlyGivenNames v
    have hv : SameKeys s v := by
      simp only [v]
      split
      · exact sameKeys_applyCopy i s
      · exact ⟨rfl, rfl⟩
    clear_value v
    extract_lets +onlyGivenNames _ w x
    have hw : mapKeys w.models.streams = mapKeys s.models.streams ∧ mapKeys w.models.tunes = (mapKeys s.models.tunes).erase i :=
      ⟨hv.1, (mapKeys_mdel _ _).trans (congrArg (List.erase · i) hv.2)⟩
    have hx : x.models = w.models := by
      simp only [x]
      split
      · rfl
      · simp only [models_dropObject]
    rw [← hx] at hw
    clear_value x
    split
    · extract_lets +onlyGivenNames y
      have hy : y.models = x.models := by
        simp only [y]
        split
        · split
          · exact putPay_does.frame .models (by decide)
          · rfl
        · rfl
      rw [models_finish, hy]
      exact hw
    · exact hw

theorem mapKeys_closeStream (i : Nat) (s : State) : mapKeys (closeStream i s).models.streams = (mapKeys s.models.streams).erase i := by
  unfold closeStream
  split
  next st hst =>
    rw [models_finishOpt]
    refine (mapKeys_mdel _ _).trans (congrArg (List.erase · i) ?_)
    exact (forEach_keeps (fun t => mapKeys t.models.streams) (fun x t => (mapKeys_endTune _ _ t).1) _ _).trans (sameKeys_abortHeld i s).1
  next hst => exact (erase_mapKeys_of_mget_none hst).symm

theorem plans_disablePairs (s : State) : (forUpto 64 (fun q s => if mhas s.mbx.pairs q then disablePair q s else s) s).plans = s.plans := by
  refine forUpto_keeps (P := fun t => t.plans = s.plans) (fun q t ht => ?_) rfl
  split
  · exact (disablePair_does.frame .plans (by decide)).trans ht
  · exact ht

/-- A device reset by FLR holds no pair, stream or session; its Slate and timebase are as they were, and its plans but for their
steps' streams. -/
theorem flr_takes (s : State) : ∃ v, execFlr s = .next v ∧ v.mbx.pairs = [] ∧ v.host.bar2Base = 0 ∧ v.host.msixEnable = false ∧ v.host.dma = [] ∧
    v.models.streams = [] ∧ v.models.tunes = [] ∧ v.slate = s.slate ∧ v.tbu = s.tbu ∧
    v.plans = mmap (fun _ p => { p with steps := mmap (fun _ k => { k with rows := [] }) p.steps }) s.plans := by
  obtain ⟨v, hv⟩ : ∃ v, execFlr s = .next v := ⟨_, rfl⟩
  have hslate : v.slate = s.slate := (execFlr_does hv).frame .slate (by decide)
  have htbu : v.tbu = s.tbu := (execFlr_does hv).frame .tbu (by decide)
  refine ⟨v, hv, ?_⟩
  unfold execFlr at hv
  extract_lets +onlyGivenNames gone u at hv
  have hu : u.plans = s.plans := plans_disablePairs s
  clear_value gone u
  extract_lets +onlyGivenNames w at hv
  have hclosed : w.models.streams = [] := forEach_mapKeys_eq_nil (m := fun t => t.models.streams) mapKeys_closeStream u
  have hw : w.plans = u.plans := forEach_keeps State.plans (fun i t => closeStream_does.frame .plans (by decide)) _ u
  clear_value w
  extract_lets +onlyGivenNames x at hv
  have hstreams : mapKeys x.models.streams = mapKeys w.models.streams :=
    forEach_keeps (fun t => mapKeys t.models.streams) (fun i t => (mapKeys_endTune i false t).1) _ w
  have htunes : x.models.tunes = [] := forEach_mapKeys_eq_nil (m := fun t => t.models.tunes) (fun i t => (mapKeys_endTune i false t).2) w
  have hx : x.plans = w.plans := forEach_keeps State.plans (fun i t => endTune_does.frame .plans (by decide)) _ w
  clear_value x
  rw [hclosed] at hstreams
  obtain rfl := Host.Outcome.next.inj hv
  exact ⟨rfl, rfl, rfl, rfl, List.map_eq_nil_iff.mp hstreams, htunes, hslate, htbu, by rw [← hu, ← hw, ← hx]⟩

/-! ## The other resets (R437, R441, R451, R452, R457) -/

/-- What a cold boot leaves at its reset values. -/
theorem coldBoot_takes (s : State) (cause : Nat) (env : BootEnv) : let v := coldBoot cause env s
    v.plans = [] ∧ v.mbx = Mbx.reset ∧ v.tbu = Tbu.reset ∧ v.ram = [] ∧ v.codec = Codec.reset ∧ v.fmtSticky = 0 ∧ v.taint = [] ∧
    (if env.tjHot then v.pwr.thermtrip = true ∧ v.pwr.state = .off else v.pwr.state = .run ∧ v.sec.lastReset = cause) := by
  unfold coldBoot
  extract_lets +onlyGivenNames t _ u
  by_cases hhot : env.tjHot = true
  · simp only [if_pos hhot]
    exact ⟨rfl, rfl, rfl, rfl, rfl, rfl, rfl, rfl, rfl⟩
  · simp only [if_neg hhot]
    exact ⟨bedrock_does.frame .plans (by decide), bedrock_does.frame .mbx (by decide), bedrock_does.frame .tbu (by decide),
      bedrock_does.frame .ram (by decide), bedrock_does.frame .codec (by decide), bedrock_does.frame .fmtSticky (by decide),
      bedrock_does.frame .taint (by decide), state_bedrock _ _ _ _ _ _, (keepsCause_bedrock _ _ _ _ _ _).1⟩

/-- A forced restart comes up in recovery mode. -/
theorem warmBoot_forced (cause : Nat) (env : BootEnv) (s : State) : let v := warmBoot true false cause env s
    v.sec.recovery = true ∧ v.sec.lastReset = cause ∧ v.sec.watchdog = s.sec.watchdog ∧ v.sec.recoveryReq = false ∧ v.plans = [] := by
  intro v
  have hv : v.sec = _ := bedrock_forced false cause env _
  exact ⟨by rw [hv], by rw [hv]; rfl, by rw [hv]; exact Bool.and_true _, by rw [hv], plans_warmBoot _ _ _ _ _⟩

theorem watchdogRestart_eq {s : State} (env : BootEnv) (hstart : s.sec.started = true) (hmbx : s.ready.mbx = false) (htrip : s.pwr.thermtrip = false)
    (hrun : s.pwr.state = .run) (hquiet : s.flashQuiet = true) :
    watchdogRestart env s = warmBoot true false 5 env { s with sec := { s.sec with watchdog := true } } :=
  if_pos (by simp [hstart, hmbx, htrip, hrun, hquiet])

theorem recoveryRestart_eq {s : State} (env : BootEnv) (hreq : s.sec.recoveryReq = true) (hquiet : s.flashQuiet = true) :
    recoveryRestart env s = warmBoot true false 3 env s :=
  if_pos (by rw [hreq, hquiet]; rfl)

theorem sameBut_of_spar {s t : State} (h : t.spar = s.spar) : SameBut s t := ⟨s.spar.ports, s.spar.waiting, h⟩

theorem sameBut_postFor (c : Cmd) (st cflags result : Nat) (s : State) : SameBut s (postFor c st cflags result s) := by
  unfold postFor
  split
  · split
    · exact .refl s
    · exact sameBut_of_spar (postCq_does.frame .spar (by decide))
  · exact sameBut_sendTo _ _ s

theorem sameBut_flushReserved (s : State) : SameBut s (flushReserved s) :=
  sameBut_forEach (fun id t => by
    split
    · split
      · exact (sameBut_of_spar (dropCmd_does.frame .spar (by decide))).trans (sameBut_postFor _ _ _ _ _)
      · exact .refl t
    · exact .refl t) _ s

theorem sameBut_finish (id : Nat) (st : Status) (result : Nat) (s : State) : SameBut s (finish id st result s) := by
  unfold finish finishWith
  split
  · exact ((sameBut_of_spar (dropCmd_does.frame .spar (by decide))).trans (sameBut_postFor _ _ _ _ _)).trans (sameBut_flushReserved _)
  · exact .refl s

theorem sameBut_finishStream (pair id st cflags result : Nat) (s : State) : SameBut s (finishStream pair id st cflags result s) := by
  unfold finishStream
  split
  · extract_lets t v
    have hv : SameBut s v := by
      simp only [v]
      split
      · split <;> exact sameBut_of_spar rfl
      · exact sameBut_of_spar rfl
    clear_value v
    refine (hv.trans ?_).trans (sameBut_flushReserved _)
    split
    · exact .refl v
    · exact sameBut_of_spar (postCq_does.frame .spar (by decide))
  · exact .refl s

theorem sameBut_abortHeld (i : Nat) (s : State) : SameBut s (abortHeld i s) := by
  unfold abortHeld
  split
  · exact (sameBut_forEach (fun x t => sameBut_finishStream _ _ _ _ _ t) _ s).trans (sameBut_of_spar rfl)
  · exact .refl s

/-- What the activation brings to an end before the restart. -/
def activateStart (s : State) : State :=
  if s.sec.recovery then s
  else forEach ((forEach (s.models.streams.map (·.1)) abortHeld s).maint.bist.map (·.cmd)) (fun id s => finish id .aborted 0 s)
    (forEach (s.models.streams.map (·.1)) abortHeld s)

theorem sameBut_activateStart (s : State) : SameBut s (activateStart s) := by
  unfold activateStart
  split
  · exact .refl s
  · exact (sameBut_forEach sameBut_abortHeld _ s).trans (sameBut_forEach (fun id t => sameBut_finish _ _ _ t) _ _)

theorem sec_activateStart (s : State) : (activateStart s).sec = s.sec := by
  unfold activateStart
  split
  · rfl
  · exact (forEach_keeps State.sec (fun id t => finish_does.frame .sec (by decide)) _ _).trans
      (forEach_keeps State.sec (fun i t => abortHeld_does.frame .sec (by decide)) _ s)

/-- The state with the record of an activation written and the search for members suspended. -/
def activateRecorded (s : State) : State :=
  { activateStart s with
    sec := { (activateStart s).sec with actRecord := true }
    spar := { (activateStart s).spar with
      suspended := if decide ((activateStart s).spar.st = 1) || decide ((activateStart s).spar.st = 2) then s.sec.actTime
        else (activateStart s).spar.suspended } }

theorem suspended_warmBoot_own (force : Bool) (cause : Nat) (env : BootEnv) (s : State) :
    (warmBoot force true cause env s).spar.suspended = s.spar.suspended := suspended_bedrock_warm _ _ _ _ _

theorem activate_eq (env : BootEnv) (s : State) : activate env s = warmBoot false true (if s.sec.recovery then 4 else 2) env (activateRecorded s) := by
  have hsec := sec_activateStart s
  unfold activate
  extract_lets +onlyGivenNames ta _ t grouped cause
  have ht : t = activateStart s := rfl
  clear_value t
  subst ht
  rw [← hsec]
  simp only [activateRecorded, grouped, cause, ta]

/-- The activation's own restart: what comes to an end before it is none of what the boot looks at. -/
theorem activate_takes (env : BootEnv) (s : State) : let v := activate env s
    v.plans = [] ∧ v.mbx = Mbx.reset ∧ v.sec.actTime = none ∧ v.sec.lastReset = (if s.sec.recovery then 4 else 2) ∧
    (s.spar.st = 1 ∨ s.spar.st = 2 → v.spar.suspended = s.sec.actTime) := by
  obtain ⟨ports, waiting, hspar⟩ := sameBut_activateStart s
  simp only [activate_eq]
  refine ⟨plans_warmBoot _ _ _ _ _, mbx_warmBoot _ _ _ _ _, (keepsCause_bedrock _ _ _ _ _ _).2, (keepsCause_bedrock _ _ _ _ _ _).1, fun hst => ?_⟩
  refine (suspended_warmBoot_own _ _ _ _).trans (if_pos ?_)
  rw [hspar]
  simpa using hst

/-- The clock never stands behind its own time. -/
theorem reachTime_now (s : State) : reachTime s.tbu.now s = s := by
  unfold reachTime
  rw [Nat.max_self, ite_self]

/-- R451: an activation that is due, with no session open and the device at rest. -/
theorem execActivation_eq {s : State} {t ta : Nat} (env : BootEnv) (hta : (reachTime t s).sec.actTime = some ta) (hdue : ta ≤ (reachTime t s).tbu.now)
    (hopen : (reachTime t s).sec.actDeferred = false) (hstage : (reachTime t s).models.stage = none)
    (hquiet : (if (reachTime t s).sec.recovery then (reachTime t s).flashQuiet else (reachTime t s).quiesced) = true) :
    execActivation t env s = .next (activate env (reachTime t s)) := by
  unfold execActivation
  generalize reachTime t s = u at *
  have hpast : ¬ (decide (u.tbu.now < ta) || u.sec.actDeferred) = true := by simp [hopen, hdue]
  have hnone : ¬ u.models.stage.isSome = true := by simp [hstage]
  simp only [hta]
  rw [if_neg hpast, if_neg hnone, if_pos hquiet]

/-- R452: what the end of the wait for a member does. -/
def returnTimeout (m : Nat) (u : State) : State :=
  match u.spar.suspended with
  | none => u
  | some ta =>
    if u.tbu.now < ta + 3 * secondNs then u
    else if u.spar.st = 1 then
      match mget u.spar.members m with
      | some x => if decide (m ≠ u.spar.member) && decide (x.st = 1) && decide (x.lastStatus ≤ ta) then loseMember m u else u
      | none => u
    else if u.spar.st = 2 then
      if decide (m = u.spar.manager) && decide (u.spar.lastTime ≤ ta) then orphan u else u
    else u

theorem returnTimeout_manager {m ta : Nat} {u : State} {x : Member} (hsus : u.spar.suspended = some ta) (hlate : ¬ u.tbu.now < ta + 3 * secondNs)
    (hst : u.spar.st = 1) (hx : mget u.spar.members m = some x) (hm : m ≠ u.spar.member) (hjoined : x.st = 1) (hlast : x.lastStatus ≤ ta) :
    returnTimeout m u = loseMember m u := by
  have hlost : (decide (m ≠ u.spar.member) && decide (x.st = 1) && decide (x.lastStatus ≤ ta)) = true := by simp [hm, hjoined, hlast]
  simp only [returnTimeout, hsus, hx]
  rw [if_neg hlate, if_pos hst, if_pos hlost]

theorem returnTimeout_worker {m ta : Nat} {u : State} (hsus : u.spar.suspended = some ta) (hlate : ¬ u.tbu.now < ta + 3 * secondNs)
    (hst : u.spar.st = 2) (hm : m = u.spar.manager) (hlast : u.spar.lastTime ≤ ta) : returnTimeout m u = orphan u := by
  have hlost : (decide (m = u.spar.manager) && decide (u.spar.lastTime ≤ ta)) = true := by simp [hm, hlast]
  have hworker : ¬ u.spar.st = 1 := by omega
  simp only [returnTimeout, hsus]
  rw [if_neg hlate, if_neg hworker, if_pos hst, if_pos hlost]

/-- Settles O43: what each reset leaves. -/
theorem resetsComplete : Obligations.ResetsComplete := by
  unfold Obligations.ResetsComplete
  refine ⟨fun s env => rfl, fun s kind env htrip hoff => ?_, coldBoot_takes, flr_takes, fun s env hstart hmbx htrip hrun hquiet => ?_,
    fun s env hreq hquiet => ?_, fun s t env ta => ?_, fun s m t ta x => ?_⟩
  · exact congrArg Host.Outcome.next (if_neg (by simp [htrip, hoff]))
  · have h := watchdogRestart_eq env hstart hmbx htrip hrun hquiet
    obtain ⟨hrec, hcause, hdog, _, hplans⟩ := warmBoot_forced 5 env { s with sec := { s.sec with watchdog := true } }
    exact ⟨congrArg Host.Outcome.next h, congrArg Host.Outcome.next h, hrec, hcause, hdog, hplans⟩
  · obtain ⟨hrec, hcause, _, hreq', hplans⟩ := warmBoot_forced 3 env s
    exact ⟨congrArg Host.Outcome.next (recoveryRestart_eq env hreq hquiet), hrec, hcause, hreq', hplans⟩
  · intro u hta hdue hopen hstage hquiet
    obtain ⟨hplans, hmbx, hact, hcause, hsus⟩ := activate_takes env u
    have hcomes := execActivation_eq (s := s) (t := t) env hta hdue hopen hstage hquiet
    have hnow : reachTime u.tbu.now u = u := reachTime_now u
    have hcomes' := execActivation_eq (s := u) (t := u.tbu.now) (ta := ta) env (by rw [hnow]; exact hta) (by rw [hnow]; exact hdue)
      (by rw [hnow]; exact hopen) (by rw [hnow]; exact hstage) (by rw [hnow]; exact hquiet)
    rw [hnow] at hcomes'
    refine ⟨hcomes, hplans, hmbx, hact, hcause, fun hst => (hsus hst).trans hta, ?_⟩
    show execWarmRestart _ env u = _
    by_cases hrec : u.sec.recovery = true
    · simp only [if_pos hrec]
      exact (if_pos hrec).trans hcomes'
    · simp only [if_neg hrec]
      exact (if_neg hrec).trans hcomes'
  · intro u hsus hdue
    have hlate : ¬ u.tbu.now < ta + 3 * secondNs := Nat.not_lt.mpr hdue
    have hexec : exec (.activationReturnTimeout m t) s = .next (returnTimeout m u) := rfl
    exact ⟨fun hst hx hm hjoined hlast => hexec.trans (congrArg _ (returnTimeout_manager hsus hlate hst hx hm hjoined hlast)),
      fun hst hm hlast => hexec.trans (congrArg _ (returnTimeout_worker hsus hlate hst hm hlast))⟩

end Sys2Proof.Proofs
end

section
/-! Proofs about the sideband, SPDM and power (chapters 13, 15 and 16). -/

namespace Sys2Proof.Proofs

open Sys2Proof Sys2Proof.Machine Sys2Proof.Safety Sys2Proof.Laws

/-! ## Waking (R474) -/

theorem wakeEvent_deepSleep {s : State} (h : s.pwr.state = .deepSleep) :
    wakeEvent true s = { s with pwr := { s.pwr with state := .run, waking := true, wakeStep := 0 } } :=
  if_pos (.inr (.inr ⟨rfl, h⟩))

theorem wakeEvent_asleep {s : State} (h : s.pwr.state = .deepSleep ∨ s.pwr.state = .idle ∨ s.pwr.state = .sleep) :
    wakeEvent true s = { s with pwr := { s.pwr with state := .run, waking := true, wakeStep := 0 } } := by
  refine if_pos ?_
  obtain h | h | h := h <;> simp [h]

/-! ## P-states (R482-R484) -/

/-- A new target moves the P-state and its ramp, and nothing else of the power block. -/
theorem pwr_retarget (s : State) : ∃ ramp pstate, (retarget s).pwr = { s.pwr with ramp := ramp, pstate := pstate } := by
  unfold retarget
  extract_lets w
  split
  · exact ⟨_, _, rfl⟩
  · exact ⟨_, _, rfl⟩

/-! ## The sideband (R407, R408, R418, R457, R474) -/

/-- Settles O44: each row's guard passes. -/
theorem sidebandCommandsComplete : Obligations.SidebandCommandsComplete := by
  refine ⟨fun s hup => congrArg Host.Outcome.next (if_pos hup), fun s env hup hrec => congrArg Host.Outcome.next ?_,
    fun s msg hup => congrArg Host.Outcome.next (if_pos hup), fun s hdeep => ⟨emit .smbusNak (wakeEvent true s), congrArg Host.Outcome.next ?_, ?_⟩,
    fun s hentry hlow => ⟨_, congrArg Host.Outcome.next (if_neg ?_), ?_⟩, fun s => ?_, fun s => ?_, fun s ir hir => ?_⟩
  · exact (if_neg (by simp [hup])).trans (if_neg (by simp [hrec]))
  · exact (if_neg (by simp [hdeep])).trans ((if_neg (by simp)).trans (if_pos hdeep))
  · rw [wakeEvent_deepSleep hdeep]
    exact ⟨rfl, rfl, rfl⟩
  · obtain h | h | h := hlow <;> simp [h, hentry]
  · rw [wakeEvent_asleep hlow]
    exact ⟨rfl, rfl, rfl⟩
  · obtain ⟨ramp, pstate, h⟩ := pwr_retarget { s with pwr := { s.pwr with prochot := true, hotSeen := true } }
    exact ⟨_, rfl, by rw [h], by rw [h]⟩
  · obtain ⟨ramp, pstate, h⟩ := pwr_retarget { s with pwr := { s.pwr with prochot := false } }
    exact ⟨_, rfl, by rw [h]⟩
  · exact ⟨_, rfl, if_pos hir⟩

/-! ## SPDM (R465, R466) -/

/-- The state in which a transport's request is answered: SMBus wakes the device. -/
def spdmState (tr : Transport) (s : State) : State := if tr = .smbus then wakeEvent false s else s

theorem spdm_spdmState (tr tr' : Transport) (s : State) : (spdmState tr s).spdm tr' = s.spdm tr' := by
  have hsec : (spdmState tr s).sec = s.sec := by
    unfold spdmState
    split
    · exact wakeEvent_does.frame .sec (by decide)
    · rfl
  cases tr' <;> simp [State.spdm, hsec]

theorem out_spdmState (tr : Transport) (s : State) : (spdmState tr s).out = s.out := by
  unfold spdmState
  split
  · exact wakeEvent_does.frame .out (by decide)
  · rfl

theorem spdm_updSpdm (tr : Transport) (f : Spdm → Spdm) (s : State) : (updSpdm tr f s).spdm tr = f (s.spdm tr) := by
  cases tr <;> rfl

theorem spdm_emit (tr : Transport) (o : Out) (s : State) : (emit o s).spdm tr = s.spdm tr := by
  cases tr <;> rfl

theorem out_updSpdm (tr : Transport) (f : Spdm → Spdm) (s : State) : (updSpdm tr f s).out = s.out := by
  cases tr <;> rfl

/-- A request in its order is answered, and the connection moves on. -/
theorem answerSpdm_eq {tr : Transport} {code need stage : Nat} {req : Bytes} {given : State → Bytes} {s : State} (hup : s.spdmUp tr = true)
    (hneed : need ≤ (s.spdm tr).stage) : ∃ body, answerSpdm tr code need stage req given s =
      emit (.spdm tr body) (updSpdm tr (fun c => { c with
        stage := max stage (if code = spdmGetVersion then 0 else c.stage)
        transcript := (if code = spdmGetVersion then [] else (s.spdm tr).transcript) ++ req ++ body }) (spdmState tr s)) := by
  have hneed' : ¬ ((spdmState tr s).spdm tr).stage < need := by rw [spdm_spdmState]; omega
  refine ⟨Config.spdmBody code (req ++ given (spdmState tr s)) ((spdmState tr s).spdm tr).transcript, ?_⟩
  rw [← spdm_spdmState tr tr s]
  exact (if_neg (by simp [hup])).trans (if_neg hneed')

theorem answerSpdm_takes {tr : Transport} {code need stage : Nat} {req : Bytes} {given : State → Bytes} {s : State} (hup : s.spdmUp tr = true)
    (hneed : need ≤ (s.spdm tr).stage) :
    ∃ v body, answerSpdm tr code need stage req given s = v ∧ v.out = s.out ++ [.spdm tr body] ∧
      (v.spdm tr).stage = max stage (if code = spdmGetVersion then 0 else (s.spdm tr).stage) ∧
      (v.spdm tr).transcript = (if code = spdmGetVersion then [] else (s.spdm tr).transcript) ++ req ++ body := by
  obtain ⟨body, heq⟩ := answerSpdm_eq (code := code) (stage := stage) (req := req) (given := given) hup hneed
  refine ⟨_, body, heq, ?_, ?_, ?_⟩
  · exact congrArg (· ++ [Out.spdm tr body]) ((out_updSpdm _ _ _).trans (out_spdmState _ _))
  · rw [spdm_emit, spdm_updSpdm, spdm_spdmState]
  · rw [spdm_emit, spdm_updSpdm]

/-- A signed exchange draws its nonce and its signature. -/
theorem signSpdm_eq {tr : Transport} {code : Nat} {req : Bytes} {given : State → Bytes} {s : State} (hup : s.spdmUp tr = true)
    (hstage : 3 ≤ (s.spdm tr).stage) : ∃ body h free, signSpdm tr code req given s =
      emit (.spdm tr body) (updSpdm tr (fun c => { c with
        transcript := if code = spdmChallenge then [] else c.transcript, hashes := (c.hashes ++ [h]).drop (c.hashes.length - 3) })
        { spdmState tr s with free := free }) := by
  have hstage' : ¬ ((spdmState tr s).spdm tr).stage < 3 := by rw [spdm_spdmState]; omega
  have heq : signSpdm tr code req given s = _ := (if_neg (by simp [hup])).trans (if_neg hstage')
  exact ⟨_, _, _, heq⟩

theorem spdm_setFree (tr : Transport) (s : State) (n : Nat) : State.spdm { s with free := n } tr = s.spdm tr := by
  cases tr <;> rfl

/-- A signed exchange on a connection that has come so far. -/
theorem signSpdm_takes {tr : Transport} {code : Nat} {req : Bytes} {given : State → Bytes} {s : State} (hup : s.spdmUp tr = true)
    (hstage : 3 ≤ (s.spdm tr).stage) : ∃ v body h, signSpdm tr code req given s = v ∧ v.out = s.out ++ [.spdm tr body] ∧
      (v.spdm tr).transcript = (if code = spdmChallenge then [] else (s.spdm tr).transcript) ∧
      (v.spdm tr).hashes = ((s.spdm tr).hashes ++ [h]).drop ((s.spdm tr).hashes.length - 3) := by
  obtain ⟨body, h, free, heq⟩ := signSpdm_eq (code := code) (req := req) (given := given) hup hstage
  refine ⟨_, body, h, heq, ?_, ?_, ?_⟩
  · exact congrArg (· ++ [Out.spdm tr body]) ((out_updSpdm _ _ _).trans (out_spdmState _ _))
  · rw [spdm_emit, spdm_updSpdm, spdm_setFree, spdm_spdmState]
  · rw [spdm_emit, spdm_updSpdm, spdm_setFree, spdm_spdmState]

/-- Settles O45: every request is an answer in its order or a signed exchange. -/
theorem spdmCommandsComplete : Obligations.SpdmCommandsComplete := by
  intro s tr req hup
  refine ⟨?_, fun hcap => ?_, fun hneg => ?_, fun hready => ⟨?_, ?_, ?_, ?_⟩⟩
  · obtain ⟨v, body, heq, hout, hstage, htr⟩ :=
      answerSpdm_takes (code := spdmGetVersion) (stage := 1) (req := req) (given := fun _ => []) hup (Nat.zero_le _)
    exact ⟨v, body, congrArg Host.Outcome.next heq, hout, hstage, htr⟩
  · obtain ⟨v, body, heq, hout, hstage, _⟩ := answerSpdm_takes (code := spdmGetCapabilities) (stage := 2) (req := req) (given := fun _ => []) hup hcap
    exact ⟨v, body, congrArg Host.Outcome.next heq, hout, hstage⟩
  · obtain ⟨v, body, heq, hout, hstage, _⟩ := answerSpdm_takes (code := spdmNegotiate) (stage := 3) (req := req) (given := fun _ => []) hup hneg
    exact ⟨v, body, congrArg Host.Outcome.next heq, hout, hstage⟩
  · obtain ⟨v, body, heq, hout, _, htr⟩ := answerSpdm_takes (code := spdmGetDigests) (stage := 3) (req := req) hup hready
    exact ⟨v, body, congrArg Host.Outcome.next heq, hout, htr⟩
  · obtain ⟨v, body, heq, hout, _, htr⟩ := answerSpdm_takes (code := spdmGetCertificate) (stage := 3) (req := req) hup hready
    exact ⟨v, body, congrArg Host.Outcome.next heq, hout, htr⟩
  · obtain ⟨v, body, h, heq, hout, htr, hhash⟩ := signSpdm_takes (code := spdmChallenge) (req := req) hup hready
    exact ⟨v, body, h, congrArg Host.Outcome.next heq, hout, htr, hhash⟩
  · obtain ⟨v, body, h, heq, hout, htr, hhash⟩ := signSpdm_takes (code := spdmGetMeasurements) (req := req) hup hready
    exact ⟨v, body, h, congrArg Host.Outcome.next heq, hout, htr, hhash⟩

/-! ## The exit from a low-power state (R471-R474, R480) -/

/-- The refused accesses are recorded and forgotten. -/
theorem pwr_logRefused (s : State) : (logRefused s).pwr = { s.pwr with refused := [] } := by
  unfold logRefused
  exact forEach_keeps State.pwr (fun r t => hostAccess_does.frame .pwr (by decide)) _ _

/-- What falls due starts: nothing else of power changes. -/
theorem pwr_startDue (s : State) : (startDue s).pwr = { s.pwr with due := [] } := by
  unfold startDue
  refine forEach_keeps State.pwr (fun d t => ?_) _ _
  split
  · exact startCkpt_does.frame .pwr (by decide)
  · exact deviceJob_does.frame .pwr (by decide)

/-- An exit with no access held. -/
theorem endWake_takes {s : State} (hheld : s.pwr.held = []) : (endWake s).pwr.waking = false ∧ (endWake s).mbx.quiet = false ∧
    (endWake s).pwr.refused = [] ∧ (endWake s).pwr.due = [] := by
  have heq : endWake s = startDue (logRefused { s with
      mbx := { s.mbx with quiet := false }, pwr := { s.pwr with waking := false, wakeStep := 0, held := [] } }) := by
    unfold endWake
    rw [hheld]
    rfl
  rw [heq, pwr_startDue, pwr_logRefused]
  refine ⟨rfl, ?_, rfl, rfl⟩
  exact congrArg (·.quiet) ((startDue_does.frame .mbx (by decide)).trans (logRefused_does.frame .mbx (by decide)))

/-- One domain before the last returns. -/
theorem wakeExit_early {s : State} {d : Nat} (hwake : s.pwr.waking = true) (hd : d = s.pwr.wakeStep + 1) (hlast : d ≤ 4) :
    execWakeExit d s = .next (if d = 4 then trainPorts false (raiseReady d { s with pwr := { s.pwr with wakeStep := d } })
      else raiseReady d { s with pwr := { s.pwr with wakeStep := d } }) := by
  have hcomes : (s.pwr.waking && decide (d = s.pwr.wakeStep + 1) && decide (d ≤ 5)) = true := by
    simp [hwake, ← hd]; omega
  exact congrArg Host.Outcome.next ((if_pos hcomes).trans (if_neg (by omega)))

/-! ## The power arbiter and the fatals (R485, R490) -/

/-- The arbiter's block of power with a new measure. -/
def arbiterMeasured (power : Nat) (s : State) : Pwr :=
  { s.pwr with power := BitVec.ofNat 16 (min power 0xFFFF), sinceMove := min 10 (s.pwr.sinceMove + 1) }

/-- It with the arbiter's action. -/
def arbiterActed (power : Nat) (s : State) : Pwr :=
  if 16 * (arbiterMeasured power s).capW < power then { (arbiterMeasured power s).tighten (!s.maint.bistRound.isEmpty) with belowTicks := 0 }
  else
    let p := { arbiterMeasured power s with capExceeded := false }
    if 100 * power < 95 * (16 * (arbiterMeasured power s).capW) then
      (if p.belowTicks + 1 < 10 then { p with belowTicks := p.belowTicks + 1 } else { p.loosen with belowTicks := 0 })
    else { p with belowTicks := 0 }

/-- It with what the ms saw. -/
def arbiterPwr (power : Nat) (s : State) : Pwr :=
  { arbiterActed power s with
    capSeen := (arbiterActed power s).capSeen || bit (arbiterActed power s).limit 0
    pulseSeen := (arbiterActed power s).pulseSeen || decide (0 < (arbiterActed power s).halvings) }

theorem execPowerArbiterTick_run {s : State} (power : Nat) (h : s.pwr.state = .run) :
    execPowerArbiterTick power s = .next (retarget (countMs { s with pwr := arbiterPwr power s })) :=
  congrArg Host.Outcome.next (if_neg (Classical.not_not.mpr h))

theorem power_tighten (p : Pwr) (bist : Bool) : (p.tighten bist).power = p.power := by
  unfold Pwr.tighten
  split
  · rfl
  split
  · rfl
  split
  · split <;> rfl
  · split <;> rfl

theorem loosen_keeps (p : Pwr) : p.loosen.power = p.power ∧ p.loosen.capExceeded = p.capExceeded := by
  unfold Pwr.loosen
  split
  · exact ⟨rfl, rfl⟩
  · split <;> exact ⟨rfl, rfl⟩

/-- The measure is taken, and an average within the cap clears the cap's flag. -/
theorem arbiterActed_takes (power : Nat) (s : State) : (arbiterActed power s).power = BitVec.ofNat 16 (min power 0xFFFF) ∧
    (power ≤ 16 * s.pwr.capW → (arbiterActed power s).capExceeded = false) := by
  unfold arbiterActed
  split
  next hover => exact ⟨power_tighten _ _, fun hle => absurd hover (Nat.not_lt.mpr hle)⟩
  next =>
    extract_lets +onlyGivenNames _ p
    split
    · split
      · exact ⟨rfl, fun _ => rfl⟩
      · exact ⟨(loosen_keeps p).1, fun _ => (loosen_keeps p).2⟩
    · exact ⟨rfl, fun _ => rfl⟩

/-- The counting of what a ms saw leaves the measure and the cap's flag alone. -/
theorem pwr_countMs (s : State) : (countMs s).pwr.power = s.pwr.power ∧ (countMs s).pwr.capExceeded = s.pwr.capExceeded := by
  have hcount (off : Nat) (t : State) : (count off t).pwr = t.pwr := count_does.frame .pwr (by decide)
  unfold countMs
  extract_lets +onlyGivenNames p t u v
  split
  · exact ⟨rfl, rfl⟩
  · have hu : u.pwr = t.pwr := by
      simp only [u]
      split
      · exact hcount _ _
      · rfl
    have hv : v.pwr = u.pwr := by
      simp only [v]
      split
      · exact hcount _ _
      · rfl
    split
    · rw [hcount, hv, hu]
      exact ⟨rfl, rfl⟩
    · rw [hv, hu]
      exact ⟨rfl, rfl⟩

/-- The block of power at or above 100 degrees. -/
def hotPwr (tj : Int) (s : State) : Pwr :=
  { s.pwr with tj := BitVec.ofNat 16 (twos 16 tj), thermLimit := min 3 (s.pwr.thermLimit + 1), coolMs := 0 }

theorem execThermalLimitTick_hot {s : State} {tj : Int} (h : 1600 ≤ tj) : execThermalLimitTick tj s =
    .next (retarget (if bit (hotPwr tj s).limit 1 then count 0x30034 { s with pwr := hotPwr tj s } else { s with pwr := hotPwr tj s })) := by
  unfold execThermalLimitTick
  simp only [if_pos (show tj ≥ 1600 from h)]
  rfl

theorem deviceFatal_takes (s : State) (code : Nat) :
    (deviceFatal code s).err.fatalDev = true ∧ (deviceFatal code s).maint.bist = [] ∧ (deviceFatal code s).slate.relocs = [] := by
  unfold deviceFatal
  extract_lets t u cmds v
  refine ⟨?_, ?_, ?_⟩
  · rw [forEach_keeps State.err (fun id t => finish_does.frame .err (by decide))]
    exact fatalDev_record ..
  · rw [forEach_keeps State.maint (fun id t => finish_does.frame .maint (by decide))]
    exact congrArg Maint.bist (record_does.frame .maint (by decide))
  · rw [forEach_keeps State.slate (fun id t => finish_does.frame .slate (by decide))]
    exact congrArg Slate.relocs (record_does.frame .slate (by decide))

/-- Settles O47: what each row leaves of power. -/
theorem powerEventsComplete : Obligations.PowerEventsComplete := by
  refine ⟨fun s e d he => ?_, fun s e he => ?_, fun s d hwake hd hlast => ?_, fun s hwake hstep => ?_, fun s hheld => endWake_takes hheld,
    fun s power => ?_, fun s w hw => ?_, fun s tj htj => ?_, fun s htrip => ?_, fun s => ⟨_, rfl, rfl, rfl, rfl, rfl⟩, fun s hrun => ?_,
    fun s => ⟨rfl, rfl⟩, deviceFatal_takes⟩
  · refine congrArg Host.Outcome.next ?_
    simp only [he]
  · refine congrArg Host.Outcome.next ?_
    simp only [he]
  · rw [show exec (.wakeExit d) s = execWakeExit d s from rfl, wakeExit_early hwake hd hlast]
    have hpwr : (if d = 4 then trainPorts false (raiseReady d { s with pwr := { s.pwr with wakeStep := d } })
        else raiseReady d { s with pwr := { s.pwr with wakeStep := d } }).pwr = { s.pwr with wakeStep := d } := by
      split
      · exact trainPorts_does.frame .pwr (by decide)
      · rfl
    refine ⟨_, rfl, ?_, ?_, ?_, ?_⟩
    · rw [hpwr]
    · rintro rfl
      exact ⟨rfl, rfl⟩
    · rintro rfl
      rfl
    · rintro rfl
      exact ⟨rfl, rfl⟩
  · have hcomes : (s.pwr.waking && decide (5 = s.pwr.wakeStep + 1) && decide (5 ≤ 5)) = true := by simp [hwake, hstep]
    exact congrArg Host.Outcome.next (if_pos hcomes)
  · by_cases hrun : s.pwr.state = .run
    · obtain ⟨ramp, pstate, hpwr⟩ := pwr_retarget (countMs { s with pwr := arbiterPwr power s })
      obtain ⟨hpower, hcap⟩ := arbiterActed_takes power s
      obtain ⟨hpower', hcap'⟩ := pwr_countMs { s with pwr := arbiterPwr power s }
      refine ⟨_, execPowerArbiterTick_run power hrun, ?_, fun _ hle => ?_⟩
      · rw [hpwr]
        exact hpower'.trans hpower
      · rw [hpwr]
        exact hcap'.trans (hcap hle)
    · exact ⟨_, congrArg Host.Outcome.next (if_pos hrun), rfl, fun h => absurd h hrun⟩
  · refine congrArg Host.Outcome.next ?_
    simp only [hw]
  · obtain ⟨ramp, pstate, hpwr⟩ := pwr_retarget (if bit (hotPwr tj s).limit 1 then count 0x30034 { s with pwr := hotPwr tj s }
      else { s with pwr := hotPwr tj s })
    have hcount : (if bit (hotPwr tj s).limit 1 then count 0x30034 { s with pwr := hotPwr tj s }
        else { s with pwr := hotPwr tj s }).pwr = hotPwr tj s := by
      split
      · exact count_does.frame .pwr (by decide)
      · rfl
    rw [hcount] at hpwr
    exact ⟨_, execThermalLimitTick_hot htj, by rw [hpwr]; rfl, by rw [hpwr]; rfl, by rw [hpwr]; rfl⟩
  · exact ⟨_, congrArg Host.Outcome.next (if_neg (by simp [htrip])), rfl, rfl, rfl, rfl, rfl⟩
  · exact ⟨congrArg Host.Outcome.next (if_pos hrun), congrArg Host.Outcome.next (if_pos hrun)⟩

end Sys2Proof.Proofs
end

section
/-! Proofs about the Slate's reads (chapter 05). -/

namespace Sys2Proof.Proofs

open Sys2Proof Sys2Proof.Machine Sys2Proof.Safety Sys2Proof.Laws

/-! ## What leaves the slot counter alone (R145, R147, R504) -/

/-- The Slate's slot counter stands as it did. -/
def SameSlot (s t : State) : Prop := t.slate.slot = s.slate.slot

theorem SameSlot.trans {s t v : State} (h : SameSlot s t) (h' : SameSlot t v) : SameSlot s v := Eq.trans h' h

theorem sameSlot_of_slate {s t : State} (h : t.slate = s.slate) : SameSlot s t := congrArg Slate.slot h

theorem sameSlot_record (cls : ErrClass) (code : Nat) (i : RecInfo) (s : State) : SameSlot s (record cls code i s) :=
  sameSlot_of_slate (record_does.frame .slate (by decide))

theorem sameSlot_count (off : Nat) (s : State) : SameSlot s (count off s) := sameSlot_of_slate (count_does.frame .slate (by decide))

theorem sameSlot_noteBlocked (g : Nat) (s : State) : SameSlot s (noteBlocked g s) := by
  unfold noteBlocked
  split
  · rfl
  · exact Eq.trans (sameSlot_record _ _ _ _) (sameSlot_count _ _)

theorem sameSlot_countGroup (a k lb : Nat) (s : State) : SameSlot s (countGroup a k lb s) := by
  unfold countGroup
  extract_lets g
  split
  · rfl
  · exact sameSlot_noteBlocked _ _

theorem sameSlot_copyReads {s : State} {a k : Nat} {p : Reloc → Bool} : ∀ x ∈ s.copyReads a k p, ∀ t, SameSlot t (x.2 t) := by
  intro x hx t
  obtain ⟨r, _, hx⟩ := List.mem_flatMap.mp hx
  obtain ⟨c, _, rfl⟩ := List.mem_map.mp hx
  exact SameSlot.trans (show SameSlot t (updReloc _ _ t) from rfl) (sameSlot_countGroup _ _ _ _)

theorem sameSlot_passReads {s : State} {a k : Nat} : ∀ x ∈ s.passReads a k, ∀ t, SameSlot t (x.2 t) := by
  intro x hx t
  unfold State.passReads at hx
  split at hx
  · cases hx
  · obtain ⟨c, _, rfl⟩ := List.mem_map.mp hx
    exact sameSlot_countGroup _ _ _ _

theorem sameSlot_copyPulses {s : State} {a k : Nat} {p : Reloc → Bool} : ∀ x ∈ s.copyPulses a k p, ∀ t, SameSlot t (x.2 t) := by
  intro x hx t
  obtain ⟨r, _, hx⟩ := List.mem_flatMap.mp hx
  obtain ⟨c, _, rfl⟩ := List.mem_map.mp hx
  rfl

theorem sameSlot_stagePulses {s : State} {a k : Nat} : ∀ x ∈ s.stagePulses a k, ∀ t, SameSlot t (x.2 t) := by
  intro x hx t
  unfold State.stagePulses at hx
  split at hx
  · cases hx
  · split at hx
    · cases hx
    · obtain ⟨b, _, rfl⟩ := List.mem_map.mp hx
      rfl

theorem sameSlot_erasePulses {s : State} {a k : Nat} : ∀ x ∈ s.erasePulses a k, ∀ t, SameSlot t (x.2 t) := by
  intro x hx t
  obtain ⟨b, _, rfl⟩ := List.mem_map.mp hx
  rfl

theorem sameSlot_maintUses {s : State} {a k n : Nat} : ∀ x ∈ s.maintUses a k n, ∀ t, SameSlot t (x.2 t) := by
  intro x hx
  unfold State.maintUses at hx
  extract_lets urgent other at hx
  simp only [List.mem_append] at hx
  rcases hx with ((hx | hx) | hx) | hx
  · exact sameSlot_copyReads x hx
  · exact sameSlot_passReads x hx
  · exact sameSlot_copyReads x hx
  · split at hx
    · simp only [List.mem_append] at hx
      rcases hx with ((hx | hx) | hx) | hx
      · exact sameSlot_copyPulses x hx
      · exact sameSlot_stagePulses x hx
      · exact sameSlot_copyPulses x hx
      · exact sameSlot_erasePulses x hx
    · cases hx

/-- What every use of a list keeps, their serving keeps. -/
theorem sameSlot_serveUses {l : List (Nat × (State → State))} (hl : ∀ x ∈ l, ∀ t, SameSlot t (x.2 t)) (busy : List Nat) (s : State) :
    SameSlot s (serveUses busy l s) := by
  unfold serveUses
  induction l generalizing busy s with
  | nil => rfl
  | cons x l ih =>
    rw [List.foldl_cons]
    have hrest : ∀ y ∈ l, ∀ t, SameSlot t (y.2 t) := fun y hy => hl y (List.mem_cons_of_mem _ hy)
    split
    · exact ih hrest busy s
    · exact (hl x List.mem_cons_self s).trans (ih hrest _ _)

theorem sameSlot_updStack (i : Nat) (f : Stack → Stack) (s : State) : SameSlot s (updStack i f s) := by
  unfold updStack
  split <;> rfl

theorem sameSlot_serveMaint (a k n : Nat) (busy : List Nat) (s : State) : SameSlot s (serveMaint a k n busy s) := by
  unfold serveMaint
  split
  · rfl
  · extract_lets reads
    split
    · exact sameSlot_updStack _ _ s
    · exact sameSlot_serveUses sameSlot_maintUses busy s

theorem sameSlot_stripeRead (k ends : Nat) (r : Recon) (s : State) : SameSlot s (stripeRead k ends r s) := by
  unfold stripeRead
  extract_lets +onlyGivenNames r' _ t
  have ht : SameSlot s t := sameSlot_countGroup r.array k r.lblock _
  split
  · exact ht
  · exact ht

theorem sameSlot_issueRead (a : Nat) (e : SweepLine) (s : State) : SameSlot s (issueRead a e s) := by
  unfold issueRead
  extract_lets +onlyGivenNames d p t
  have ht : SameSlot s t := by
    simp only [t]
    split
    · exact sameSlot_countGroup _ _ _ s
    · rfl
  refine ht.trans (sameSlot_of_slate ?_)
  exact (updProg_does.frame .slate (by decide)).trans (updArr_does.frame .slate (by decide))

theorem sameSlot_settleLatch (a t n : Nat) (s : State) : SameSlot s (settleLatch a t n (reachClock t s)) :=
  SameSlot.trans (show SameSlot s (reachClock t s) from rfl) (sameSlot_of_slate (settleLatch_does.frame .slate (by decide)))

/-- What a slot of sub-bank `k` is given to. -/
def slotServed (a k : Nat) (s : State) : State :=
  let n := s.slate.slot - 1
  let t := slotStart n k
  let s := settleLatch a t 4 (reachClock t s)
  let maint := decide (k = 8) || decide (16 - (s.arr a).maintM ≤ n % 16)
  let stripes := s.stripeReads a k t maint
  let s := forEach stripes (stripeRead k (t + slotLen)) s
  if maint then serveMaint a k n (stripes.map (·.cell)) s
  else if stripes ≠ [] then s
  else match s.nextRead a k (t + slotLen) with
    | some e => issueRead a e s
    | none => serveMaint a k n [] s

theorem execSlateSlotStart_eq (a k : Nat) (s : State) : execSlateSlotStart a k s = .next (ifMounted a (slotServed a k)
    (if a = 0 && decide (k = 0) && (s.slate.stackW.mounted || s.slate.stackE.mounted) then
      { s with slate := { s.slate with slot := s.slate.slot + 1 } } else s)) := rfl

theorem sameSlot_slotServed (a k : Nat) (s : State) : SameSlot s (slotServed a k s) := by
  unfold slotServed
  extract_lets n t v maint stripes w
  have hv : SameSlot s v := sameSlot_settleLatch a t 4 s
  have hw : SameSlot v w := forEach_keeps (fun t => t.slate.slot) (fun r t => sameSlot_stripeRead k _ r t) stripes v
  refine (hv.trans hw).trans ?_
  split
  · exact sameSlot_serveMaint a k n _ w
  split
  · rfl
  split
  · exact sameSlot_issueRead a _ w
  · exact sameSlot_serveMaint a k n [] w

theorem slot_slateSlotStart {s : State} (a k : Nat) (hup : s.slate.stackW.mounted = true ∨ s.slate.stackE.mounted = true) :
    ∃ v, execSlateSlotStart a k s = .next v ∧ v.slate.slot = s.slate.slot + (if a = 0 ∧ k = 0 then 1 else 0) := by
  refine ⟨_, execSlateSlotStart_eq a k s, ?_⟩
  have hstep : ∀ t, SameSlot t (ifMounted a (slotServed a k) t) := by
    intro t
    unfold ifMounted
    split
    · exact sameSlot_slotServed a k t
    · rfl
  refine Eq.trans (hstep _) ?_
  have hup' : (s.slate.stackW.mounted || s.slate.stackE.mounted) = true := by simpa using hup
  by_cases hfirst : a = 0 ∧ k = 0
  · rw [if_pos (by simp [hfirst, hup']), if_pos hfirst]
  · rw [if_neg (by simpa [hup'] using hfirst), if_neg hfirst]
    rfl

/-- A slot that does not advance the counter, of a mounted array. -/
theorem slateSlotStart_of_later {s : State} {a k : Nat} (hlater : 0 < a + k) (hup : s.mountedAt a = true) :
    execSlateSlotStart a k s = .next (slotServed a k s) := by
  have hfirst : ¬ (a = 0 && decide (k = 0) && (s.slate.stackW.mounted || s.slate.stackE.mounted)) = true := by
    simp; omega
  rw [execSlateSlotStart_eq, if_neg hfirst, ifMounted, if_pos hup]

/-- When the slot of sub-bank `k` begins, the latch with all that is complete by then freed, whether it is a maintenance slot, and the
stripe reads that take it. -/
def slotFrom (k : Nat) (s : State) : Nat := slotStart (s.slate.slot - 1) k

def slotSettled (a k : Nat) (s : State) : State := settleLatch a (slotFrom k s) 4 (reachClock (slotFrom k s) s)

def slotIsMaint (a k : Nat) (s : State) : Bool := decide (k = 8) || decide (16 - ((slotSettled a k s).arr a).maintM ≤ (s.slate.slot - 1) % 16)

def slotStripes (a k : Nat) (s : State) : List Recon := (slotSettled a k s).stripeReads a k (slotFrom k s) (slotIsMaint a k s)

theorem slotServed_maint {a k : Nat} {s : State} (hm : slotIsMaint a k s = true) : slotServed a k s = serveMaint a k (s.slate.slot - 1)
    ((slotStripes a k s).map (·.cell)) (forEach (slotStripes a k s) (stripeRead k (slotFrom k s + slotLen)) (slotSettled a k s)) :=
  if_pos hm

theorem slotServed_stripes {a k : Nat} {s : State} (hm : slotIsMaint a k s = false) (hl : slotStripes a k s ≠ []) : slotServed a k s =
    forEach (slotStripes a k s) (stripeRead k (slotFrom k s + slotLen)) (slotSettled a k s) :=
  (if_neg (ne_true_of_eq_false hm)).trans (if_pos hl)

/-- A slot that no stripe read takes goes to the next line of the sweep, else to maintenance. -/
theorem slotServed_left {a k : Nat} {s : State} (hm : slotIsMaint a k s = false) (hl : slotStripes a k s = []) : slotServed a k s =
    match (slotSettled a k s).nextRead a k (slotFrom k s + slotLen) with
    | some e => issueRead a e (slotSettled a k s)
    | none => serveMaint a k (s.slate.slot - 1) [] (slotSettled a k s) := by
  have hnone : forEach (slotStripes a k s) (stripeRead k (slotFrom k s + slotLen)) (slotSettled a k s) = slotSettled a k s := by rw [hl]; rfl
  refine ((if_neg (ne_true_of_eq_false hm)).trans (if_neg (Classical.not_not.mpr hl))).trans ?_
  rw [← hnone]
  rfl

/-! ## Line reads (R148, R151-R161) -/

/-- What an outcome of R148 sets off where the line is that of its place and no scrub rereads it. -/
theorem actOnRead_of_good {s : State} {a c k lb ln errs : Nat} {kind : ReadKind} {l : SLine} (hl : s.stored a c k lb ln = some l)
    (hplace : misdirected (l.meta k) k lb = false) (hfresh : rereadKey a c k lb ln ∉ s.slate.rereads) (hfew : errs ≤ 8) :
    actOnRead a c k lb ln kind errs false s =
      if s.slate.relocBits.toNat ≤ errs then queueReloc 3 .scrub a (some c) k lb none (if errs = 0 then s else count (sltCnt a 0) s)
      else if errs = 0 then s else count (sltCnt a 0) s := by
  have hright : s.wrongLine a c k lb ln = false := by simp [State.wrongLine, hl, hplace]
  have hagain : (decide (kind = .maint) && decide (rereadKey a c k lb ln ∈ s.slate.rereads)) = false := by simp [hfresh]
  have hgood : (decide (errs ≤ 8) && !s.wrongLine a c k lb ln) = true := by simp [hfew, hright]
  have hcount : (count (sltCnt a 0) s).slate = s.slate := count_does.frame .slate (by decide)
  have hbits : (if errs = 0 then s else count (sltCnt a 0) s).slate = s.slate := by
    split
    · rfl
    · exact hcount
  unfold actOnRead
  simp only [hagain, Bool.false_eq_true, if_false, Bool.false_or, decide_eq_true_eq, hbits]
  rw [if_pos hgood]

/-- What an outcome past R148's 8 errors sets off. -/
theorem actOnRead_of_bad {s : State} {a c k lb ln errs : Nat} {kind : ReadKind} (hfresh : rereadKey a c k lb ln ∉ s.slate.rereads) (hmany : 8 < errs) :
    actOnRead a c k lb ln kind errs false s = match kind with
      | .stripe => s
      | .plan => if k = 8 then s else beginRecon a c k lb ln true s
      | .maint => if k = 8 then parityFix a c lb ln s else beginRecon a c k lb ln false s := by
  have hagain : (decide (kind = .maint) && decide (rereadKey a c k lb ln ∈ s.slate.rereads)) = false := by simp [hfresh]
  have hbad : ¬ (decide (errs ≤ 8) && !(false || s.wrongLine a c k lb ln)) = true := by simp; omega
  unfold actOnRead
  simp only [hagain, hbad, Bool.false_eq_true, if_false] <;> rfl

/-- Settles O56: each row's guards in turn, and the slot counter left alone by all that takes a slot. -/
theorem slateReadsComplete : Obligations.SlateReadsComplete := by
  refine ⟨fun s a k hlater hup => ?_, fun s a k hup => slot_slateSlotStart a k hup, fun s a c k lb ln kind errs mis hup => ?_,
    fun s a c k lb ln kind errs l hl hplace hfresh => ?_, fun s a => ?_, fun s a c k lb ln bad r hr => ?_⟩
  · intro n t v maint l
    have hexec : exec (.slateSlotStart a k) s = .next (slotServed a k s) := slateSlotStart_of_later hlater hup
    rw [hexec]
    refine ⟨fun e hl hm he => ?_, fun hl hm => ?_, fun hl hm => ?_, fun hm => ?_⟩
    · refine congrArg _ ((slotServed_left hm hl).trans ?_)
      rw [show (slotSettled a k s).nextRead a k (slotFrom k s + slotLen) = some e from he]
      rfl
    · refine congrArg _ ?_
      by_cases hmaint : maint = true
      · refine (slotServed_maint hmaint).trans ?_
        rw [show slotStripes a k s = [] from hl]
        rfl
      · refine (slotServed_left (eq_false_of_ne_true hmaint) hl).trans ?_
        rw [show (slotSettled a k s).nextRead a k (slotFrom k s + slotLen) = none from hm.resolve_left hmaint]
        rfl
    · exact congrArg _ (slotServed_stripes hm hl)
    · exact congrArg _ (slotServed_maint hm)
  · intro v b
    have hexec : exec (.lineReadComplete a c k lb ln kind errs mis) s =
        .next (if !mhas b.map lb || b.failed || decide (lb * 256 + ln ∈ b.lost) || decide (c ∈ (v.arr a).excl) then v
          else actOnRead a c k lb ln kind errs mis v) := congrArg Host.Outcome.next (if_pos hup)
    rw [hexec]
    refine ⟨fun hmap hgood hlost hexcl => congrArg _ (if_neg ?_), fun h => congrArg _ (if_pos ?_)⟩
    · simp [hmap, hgood, hlost, hexcl]
    · obtain h | h | h | h := h <;> simp [h]
  · refine ⟨fun hbits => ?_, fun hpos hfew hbits => ?_, fun hpos hfew hbits => ?_, fun hmany => actOnRead_of_bad hfresh hmany,
      fun hmany hk => ⟨?_, ?_⟩, fun hmany hk => ⟨?_, ?_⟩⟩
    · rw [actOnRead_of_good hl hplace hfresh (Nat.zero_le 8), if_neg (by omega), if_pos rfl]
    · rw [actOnRead_of_good hl hplace hfresh hfew, if_neg (by omega), if_neg (by omega)]
    · rw [actOnRead_of_good hl hplace hfresh hfew, if_pos hbits, if_neg (by omega)]
    · exact (actOnRead_of_bad hfresh hmany).trans (if_neg (by omega))
    · exact (actOnRead_of_bad hfresh hmany).trans (if_neg (by omega))
    · exact (actOnRead_of_bad hfresh hmany).trans (if_pos hk)
    · exact (actOnRead_of_bad hfresh hmany).trans (if_pos hk)
  · intro v
    refine ⟨fun e l f hhead hfin => ?_, fun i hempty happ hport hfreed => ?_⟩
    · refine congrArg Host.Outcome.next ?_
      simp only [show (applyHead a s).arr a = v.arr a from rfl, hhead, hfin]
      rfl
    · refine congrArg Host.Outcome.next ?_
      have hnext : (wPort i.word && decide (i.freed < i.order.length)) = true := by simp [hport, hfreed]
      simp only [show (applyHead a s).arr a = v.arr a from rfl, hempty, show (applyHead a s).applying a = v.applying a from rfl, happ]
      exact if_pos hnext
  · intro v x w comes
    refine ⟨?_, ?_, ?_⟩
    · refine congrArg Host.Outcome.next ?_
      simp only [hr]
      rfl
    · intro b hb
      simp only [w, endRecon]
      rw [show v.rebuilt a c k lb ln bad = some b from hb]
    · intro hb
      simp only [w, endRecon]
      rw [show v.rebuilt a c k lb ln bad = none from hb]

end Sys2Proof.Proofs
end

section
/-! Proofs about the Slate's writes and upkeep (chapter 05). -/

namespace Sys2Proof.Proofs

open Sys2Proof Sys2Proof.Machine Sys2Proof.Safety Sys2Proof.Laws

/-! ## Physical blocks and maps (R165-R172) -/

theorem pb_of_slate {s t : State} (h : t.slate = s.slate) (key : Nat) : t.pb key = s.pb key := by rw [State.pb, State.pb, h]

theorem sb_of_slate {s t : State} (h : t.slate = s.slate) (key : Nat) : t.sb key = s.sb key := by rw [State.sb, State.sb, h]

theorem slate_deviceJob (act scope : Nat) (s : State) : (deviceJob act scope s).slate = s.slate := deviceJob_does.frame .slate (by decide)

theorem slate_endJob (act scope st : Nat) (s : State) : (endJob act scope st s).slate = s.slate := rfl

theorem mem_addOnce (l : List Nat) (x : Nat) : x ∈ addOnce l x := by
  unfold addOnce
  split
  next h => exact h
  next => simp

/-- A block that a program or an erase retires: its sub-bank names it, and the physical blocks are as they were. -/
theorem retireBlock_takes (a c k pb lb : Nat) (s : State) :
    pb ∈ ((retireBlock a c k pb lb s).sb (sbKey a c k)).retired ∧ (retireBlock a c k pb lb s).slate.pbs = s.slate.pbs := by
  have hslate : (retireBlock a c k pb lb s).slate = (updSb (sbKey a c k) (fun b => { b with retired := addOnce b.retired pb }) s).slate :=
    (record_does.frame .slate (by decide)).trans (count_does.frame .slate (by decide))
  refine ⟨?_, by rw [hslate]; rfl⟩
  rw [sb_of_slate hslate, sb_updSb]
  exact mem_addOnce _ _

/-- Trying the relocations again leaves the physical blocks as they were. -/
theorem pbs_retryTargets (s : State) : (retryTargets s).slate.pbs = s.slate.pbs := by
  unfold retryTargets
  refine forEach_keeps (fun t => t.slate.pbs) (fun r t => ?_) _ s
  rfl

theorem relocs_updReloc (i : Nat) (f : Reloc → Reloc) (s : State) :
    (updReloc i f s).slate.relocs = s.slate.relocs.mapIdx (fun j r => if j = i then f r else r) := rfl

theorem relocs_programBlock (sb pb : Nat) (f : Nat → SLine) (s : State) : (programBlock sb pb f s).slate.relocs = s.slate.relocs := by
  unfold programBlock
  generalize List.foldl _ _ _ = lines
  rfl

theorem pb_of_pbs {s t : State} (h : t.slate.pbs = s.slate.pbs) (key : Nat) : t.pb key = s.pb key := by rw [State.pb, State.pb, h]

theorem relocsOf_nil {s : State} (a : Nat) (p : Reloc → Bool) (h : s.slate.relocs = []) : s.relocsOf a p = [] := by
  unfold State.relocsOf
  rw [h]
  rfl

/-! ## Programs and erases (R165-R172) -/

/-- What the end of a program does on a mounted stack. -/
def programEnds (a c k pb : Nat) (ok : Bool) (s : State) : State :=
  if a ∈ s.maint.bistRound then s
  else
    match (s.relocsOf a (fun r => decide (r.k = k) && decide (mget r.target c = some pb) && !decide (c ∈ r.copied))).head? with
    | some x =>
      if x.2.copyRead c && decide (0 < mgetD x.2.pulses c 0) && !s.reconIn a c k x.2.lblock then relocProgrammed a c k pb ok x.1 x.2 s else s
    | none => match s.models.stage.bind (fun g => g.blocks.find? (fun b => decide (b.sb = sbKey a c k) && decide (b.pb = pb))) with
      | some x =>
        if (s.pb (pbKey (sbKey a c k) pb)).programming && decide (0 < (s.pb (pbKey (sbKey a c k) pb)).pulses) && s.jobRunning 4 2 then
          stageProgrammed a c k ok x s
        else s
      | none => s

theorem execBlockProgramComplete_eq {s : State} (a c k pb : Nat) (ok : Bool) (hup : s.mountedAt a = true) :
    execBlockProgramComplete a c k pb ok s = .next (programEnds a c k pb ok s) := by
  refine congrArg Host.Outcome.next ((if_pos hup).trans ?_)
  rfl

/-- The block whose erase has ended is free, or retired. -/
def eraseEnded (a c k pb : Nat) (ok : Bool) (s : State) : State :=
  if ok then retryTargets (eraseBlock (sbKey a c k) pb s)
  else retireBlock a c k pb 0xFF (updPb (pbKey (sbKey a c k) pb) (fun p => { p with erasing := false, pulses := 0 }) s)

/-- The end of an erase: its job ends with the last. -/
theorem execBlockEraseComplete_takes {s : State} {a c k pb : Nat} (ok : Bool) (hup : s.mountedAt a = true)
    (herase : (s.pb (pbKey (sbKey a c k) pb)).erasing = true) :
    ∃ v, execBlockEraseComplete a c k pb ok s = .next v ∧ v.slate = (eraseEnded a c k pb ok s).slate := by
  have hgo : ¬ (!(s.pb (pbKey (sbKey a c k) pb)).erasing) = true := by simp [herase]
  refine ⟨_, congrArg Host.Outcome.next ((if_pos hup).trans (if_neg hgo)), ?_⟩
  show (if (eraseEnded a c k pb ok s).erasingIn (a / 32) then eraseEnded a c k pb ok s else endJob 3 (a / 32) 2 (eraseEnded a c k pb ok s)).slate = _
  split
  · rfl
  · exact slate_endJob _ _ _ _

theorem eraseEnded_good (a c k pb : Nat) (s : State) : (eraseEnded a c k pb true s).pb (pbKey (sbKey a c k) pb) =
    { s.pb (pbKey (sbKey a c k) pb) with erases := (s.pb (pbKey (sbKey a c k) pb)).erases + 1, erasing := false, pulses := 0 } :=
  (pb_of_pbs (pbs_retryTargets _) _).trans (pb_updPb _ _ _)

theorem eraseEnded_bad (a c k pb : Nat) (s : State) : pb ∈ ((eraseEnded a c k pb false s).sb (sbKey a c k)).retired ∧
    ((eraseEnded a c k pb false s).pb (pbKey (sbKey a c k) pb)).erasing = false := by
  obtain ⟨hretired, hpbs⟩ := retireBlock_takes a c k pb 0xFF (updPb (pbKey (sbKey a c k) pb) (fun p => { p with erasing := false, pulses := 0 }) s)
  exact ⟨hretired, congrArg PbSt.erasing ((pb_of_pbs hpbs _).trans (pb_updPb _ _ _))⟩

/-- A parity block is taken: its program begins, and the session lists it. -/
theorem beginParity_takes {g : Stage} {a c lb pb : Nat} {s : State} (hpb : s.stageBlock (sbKey a c 8) = some pb) :
    ((beginParity g a c lb s).pb (pbKey (sbKey a c 8) pb)).programming = true ∧
      ∃ x, (beginParity g a c lb s).models.stage = some { g with blocks := g.blocks ++ [x] } ∧ x.sb = sbKey a c 8 ∧ x.lb = lb ∧ x.pb = pb := by
  unfold beginParity
  extract_lets sb
  have hpb' : s.stageBlock sb = some pb := hpb
  simp only [hpb']
  refine ⟨?_, _, rfl, rfl, rfl, rfl⟩
  exact congrArg PbSt.programming (pb_updPb _ _ _)

/-- Settles O57: each row's guards in turn. -/
theorem slateWritesComplete : Obligations.SlateWritesComplete := by
  refine ⟨fun s a c k pb ok i r hup hbist hr hread hpulse hrecon => ⟨?_, ?_⟩, fun s a c k pb g x ok hup hbist hnone hstage hx hprog hpulse hjob => ?_,
    fun s a c k pb hup herase => ?_, fun s a ok r hup hr hleft => ?_, fun s a c lb bad g hup hbist hstage hready hread => ?_⟩
  · refine (execBlockProgramComplete_eq a c k pb ok hup).trans (congrArg _ ?_)
    have hgo : (r.copyRead c && decide (0 < mgetD r.pulses c 0) && !s.reconIn a c k r.lblock) = true := by simp [hread, hpulse, hrecon]
    unfold programEnds
    rw [if_neg hbist]
    simp only [hr]
    exact if_pos hgo
  · intro v hok hkept
    have hv : relocProgrammed a c k pb ok i r s = v := by
      refine (if_pos hok).trans ?_
      by_cases hk : k = 8
      · exact if_pos hk
      · refine (if_neg hk).trans ?_
        rw [show (updReloc i (fun x => { x with copied := x.copied ++ [c] })
          (programBlock (sbKey a c k) pb (fun ln => s.copyLine r c pb ln) s)).copyLoses r c = [] from hkept.resolve_left hk]
        rfl
    rw [hv, relocs_updReloc, relocs_programBlock]
  · intro v
    have hx' : x.sb = sbKey a c k ∧ x.pb = pb := by simpa using List.find?_some hx
    have hgo : ((s.pb (pbKey (sbKey a c k) pb)).programming && decide (0 < (s.pb (pbKey (sbKey a c k) pb)).pulses) && s.jobRunning 4 2) = true := by
      simp [hprog, hpulse, hjob]
    refine (execBlockProgramComplete_eq a c k pb ok hup).trans (congrArg _ ?_)
    unfold programEnds
    rw [if_neg hbist, relocsOf_nil _ _ hnone]
    simp only [List.head?_nil, hstage, Option.bind_some, hx]
    rw [if_pos hgo, stageProgrammed, hx'.1, hx'.2]
  · obtain ⟨v, hv, hvs⟩ := execBlockEraseComplete_takes true hup herase
    obtain ⟨w, hw, hws⟩ := execBlockEraseComplete_takes false hup herase
    obtain ⟨hretired, herasing⟩ := eraseEnded_bad a c k pb s
    refine ⟨v, w, hv, ?_, ?_, hw, ?_, ?_⟩
    · rw [pb_of_slate hvs, eraseEnded_good]
    · rw [pb_of_slate hvs, eraseEnded_good]
    · rw [sb_of_slate hws]
      exact hretired
    · rw [pb_of_slate hws]
      exact herasing
  · refine ⟨_, congrArg Host.Outcome.next (if_pos hup), ?_⟩
    simp only [hr]
    rw [if_neg (Nat.not_le.mpr hleft)]
    exact ⟨_, mget_mset _ _ _⟩
  · intro broken
    have hgo : ¬ (decide (a ∈ s.maint.bistRound) || !s.parityReady g a c lb || !s.parityRead g a c lb) = true := by simp [hbist, hready, hread]
    refine ⟨fun hb => ?_, fun hb => ⟨?_, fun pb hpb => beginParity_takes hpb⟩⟩
    · refine congrArg Host.Outcome.next ((if_pos hup).trans ?_)
      simp only [hstage]
      exact (if_neg hgo).trans (if_pos hb)
    · refine congrArg Host.Outcome.next ((if_pos hup).trans ?_)
      simp only [hstage]
      exact (if_neg hgo).trans (if_neg (Classical.not_not.mpr hb))

/-! ## Upkeep (R160, R163, R168, R175, R181-R185, R474) -/

theorem wakeEvent_awake {s : State} (h : s.pwr.state = .run ∨ s.pwr.state = .deepSleep) : wakeEvent false s = s := by
  refine if_neg ?_
  obtain h | h := h <;> simp [h]

/-- Maintenance that falls due in RUN starts, with no activation at hand. -/
theorem fallDue_run {act stack : Nat} {k : State → State} {s : State} (hrun : s.pwr.state = .run) (hact : s.activating = false) :
    fallDue act stack k s = k s := by
  unfold fallDue
  rw [wakeEvent_awake (.inl hrun)]
  exact (if_pos hrun).trans (if_neg (ne_true_of_eq_false hact))

/-- Maintenance that falls due in DEEP_SLEEP waits for the exit. -/
theorem fallDue_deepSleep {act stack : Nat} {k : State → State} {s : State} (hdeep : s.pwr.state = .deepSleep) :
    fallDue act stack k s = { s with pwr := { s.pwr with due := addOnce s.pwr.due (act, stack) } } := by
  unfold fallDue
  rw [wakeEvent_awake (.inr hdeep)]
  exact (if_neg (by simp [hdeep])).trans (if_pos hdeep)

/-- Settles O58: each row's guards in turn. -/
theorem slateUpkeepCompletes : Obligations.SlateUpkeepCompletes := by
  refine ⟨fun s i hi hup => ?_, fun s i k hi hk hbist hfirst => ?_, fun s i k hi hk hbist hfirst => ?_, fun s a k lb hup hread => ?_,
    fun s a hup hfree => ?_, fun s a c lb ln errs hrun hact hup hbist hwait => ?_,
    fun s a c k m f hup hstage hact hbist hgood hm hf hworn hnone => ?_, fun s a c k pb hup hpb hact hbist hmay => ?_⟩
  · have hgo : ¬ (decide (2 ≤ i) || !(s.stack i).mounted) = true := by simp [hup]; omega
    refine ⟨fun hrun hsw hact => congrArg Host.Outcome.next ((if_neg hgo).trans ?_),
      fun hdeep => congrArg Host.Outcome.next ((if_neg hgo).trans (fallDue_deepSleep hdeep))⟩
    exact (fallDue_run hrun hact).trans (if_neg (ne_true_of_eq_false hsw))
  · refine congrArg Host.Outcome.next ((if_neg (Nat.not_le.mpr hi)).trans ?_)
    simp only [hk, hbist, hfirst]
    rfl
  · intro v
    refine congrArg Host.Outcome.next ((if_neg (Nat.not_le.mpr hi)).trans ?_)
    simp only [hk, hbist, hfirst]
    rfl
  · exact congrArg Host.Outcome.next ((if_pos hup).trans (if_pos hread))
  · exact congrArg Host.Outcome.next ((if_pos hup).trans (if_neg (by simp [hfree])))
  · intro v w x
    have hgo : ¬ (decide (a ∈ s.maint.bistRound) || s.scrubWaits a c) = true := by simp [hbist, hwait]
    exact congrArg Host.Outcome.next ((fallDue_run hrun hact).trans ((if_pos hup).trans (if_neg hgo)))
  · have hgo : ¬ (s.models.stage.isSome || s.activating || decide (a ∈ s.maint.bistRound) || (s.sb (sbKey a c k)).failed) = true := by
      simp [hstage, hact, hbist, hgood]
    refine ⟨_, congrArg Host.Outcome.next ((if_pos hup).trans (if_neg hgo)), ?_⟩
    simp only [hm, hf]
    rw [if_pos (by simp [hworn, hnone]), slate_deviceJob]
    simp only [hnone, List.nil_append]
  · have hgo : (decide (pb < physBlocks s.part.variant) && !s.activating && !decide (a ∈ s.maint.bistRound) && s.gcMay a (sbKey a c k) pb) = true := by
      simp [hpb, hact, hbist, hmay]
    refine ⟨_, congrArg Host.Outcome.next ((if_pos hup).trans (if_pos hgo)), ?_⟩
    rw [pb_of_slate (slate_deviceJob _ _ _), pb_updPb]

end Sys2Proof.Proofs
end

section
/-! Proofs about the moments of a staged swap and of tuning (chapter 10). -/

namespace Sys2Proof.Proofs

open Sys2Proof Sys2Proof.Machine Sys2Proof.Safety Sys2Proof.Laws

/-! ## Commit (R322) -/

/-- The switch phase of a commit with its session: the slot is COMMITTING, and the decision stands. -/
theorem beginSwitch_takes {s : State} {c : Commit} {g : Stage} (hc : s.models.commit = some c) (hg : s.models.stage = some g) :
    ((beginSwitch s).slot c.slot).st = .committing ∧
      ∃ c', (beginSwitch s).models.commit = some c' ∧ c'.tc = c.tc ∧ c'.epoch = c.epoch ∧ c'.decided = true := by
  simp only [beginSwitch, hc, hg]
  refine ⟨?_, _, rfl, rfl, rfl, rfl⟩
  exact congrArg Slot.st (slot_updSlot _ _ _)

/-- The commit that a worker's decision begins. -/
def decidedCommit (tc epoch : Nat) (g : Stage) (s : State) : Commit :=
  { cmd := none, slot := g.slot, tc := tc, epoch := epoch, unit := if g.layered then some g.committed else none
    acked := [s.spar.member], durable := [], decided := true, switched := [], ckpt := false, seq := 0, lostMember := false }

/-! ## Tuning (R327, R328) -/

/-- Applying the copy leaves a session's work and steps as they were. -/
theorem applyCopy_tune {i : Nat} {s : State} {t : Tune} (ht : mget s.models.tunes i = some t) :
    ∃ t', mget (applyCopy i s).models.tunes i = some t' ∧ t'.stepT = t.stepT ∧ t'.work = t.work := by
  unfold applyCopy
  simp -zeta only [ht]
  split
  · exact ⟨t, ht, rfl, rfl⟩
  · extract_lets bl v
    have hv : v.models = s.models := forEach_keeps State.models (fun x v =>
      (tuneNans_does.frame .models (by decide)).trans ((models_writeDva _ _ _).trans (models_writeDva _ _ _))) _ s
    refine ⟨{ t with apply := false }, ?_, rfl, rfl⟩
    refine (mget_mupd _ _ _).trans ?_
    rw [hv, ht]
    rfl

/-- The oldest update of a session is taken off, and its steps rise. -/
theorem finishUpdate_takes {i : Nat} {s : State} {t : Tune} {a : Adapter} {sum : List Word} {rest : List (List Word)}
    (ht : mget s.models.tunes i = some t) (ha : s.adapter t.adapter = some a) (hwork : t.work = sum :: rest) :
    ∃ t', mget (finishUpdate i s).models.tunes i = some t' ∧ t'.stepT = t.stepT + 1 ∧ t'.work = rest := by
  unfold finishUpdate
  simp -zeta only [ht, ha, hwork]
  extract_lets +onlyGivenNames n m v ws new q bf s1 s2 s3 s4 s5 _ s6 s7
  have h3 : s3.models = s.models := (models_writeDva _ _ _).trans ((models_writeDva _ _ _).trans (models_writeDva _ _ _))
  have h5 : s5.models = s4.models := (stick_does.frame .models (by decide)).trans (countBy_does.frame .models (by decide))
  have h4 : s4.models = s3.models := tuneNans_does.frame .models (by decide)
  have h6 : s6.models = { s5.models with tuneGen := q.2.2.2 } := bf16Sats_does.frame .models (by decide)
  have h7 : mget s7.models.tunes i = some { t with work := rest, stepT := t.stepT + 1, apply := true } := by
    refine (mget_mupd _ _ _).trans ?_
    simp only [h6, h5, h4, h3, ht]
    rfl
  clear_value s7
  have hcopy := applyCopy_tune h7
  split
  · split
    · exact ⟨_, h7, rfl, rfl⟩
    · exact hcopy
  · exact hcopy

/-- Settles O59: each row's guards in turn. -/
theorem swapMomentsComplete : Obligations.SwapMomentsComplete := by
  refine ⟨fun s b g => ?_, fun s m g hg hst hm => ⟨fun layer idx => ?_, ?_, fun floor => ?_⟩, fun s tc epoch g hg hst hc hm => ?_,
    fun s t c hc hdec hlate => ?_, fun s a t c g => ?_, fun s c g hc hg hck hw he => ?_, fun s m c hc hst => ⟨?_, ?_⟩,
    fun s i t a sum rest ht ha hwork => ?_⟩
  · intro key hg hok hid hdata hnew
    have hbad : ¬ (!shardOk b || decide (u b 4 2 ≠ g.id)) = true := by simp [hok, hid]
    refine congrArg Host.Outcome.next ?_
    unfold receiveShard
    simp only [hg]
    exact (if_neg hbad).trans ((if_pos hdata).trans (if_neg hnew))
  · refine congrArg Host.Outcome.next ?_
    simp only [hg]
    exact if_neg (by simp [hst, hm])
  · refine congrArg Host.Outcome.next ?_
    simp only [hg]
    exact if_neg (by simp [hst, hm])
  · refine congrArg Host.Outcome.next ?_
    simp only [hg]
    exact if_neg (by simp [hst, hm])
  · have hgo : ¬ (s.spar.st ≠ 2 || s.models.commit.isSome || decide (g.slot ≠ g.slot) || !decide (s.spar.member ∈ g.staged)) = true := by
      simp [hst, hc, hm]
    refine ⟨beginSwitch { s with models := { s.models with commit := some (decidedCommit tc epoch g s) } }, ?_,
      beginSwitch_takes (c := decidedCommit tc epoch g s) rfl hg⟩
    refine congrArg Host.Outcome.next ?_
    simp only [hg]
    exact if_neg hgo
  · refine congrArg Host.Outcome.next ?_
    have hc' : (reachTime t s).models.commit = some c := hc
    simp only [hc']
    exact if_pos (by rw [hdec, decide_eq_true hlate]; rfl)
  · intro v hc hg hdec hdue ha hnew hpast c' w
    have hgo : (c.decided && decide (c.tc ≤ v.tbu.now) && decide (a < 64) && !decide (a ∈ c.switched) && v.pastSteps a c.tc) = true := by
      simp [hdec, hdue, ha, hnew, hpast]
    refine congrArg Host.Outcome.next ?_
    have hc' : (reachTime t s).models.commit = some c := hc
    have hg' : (reachTime t s).models.stage = some g := hg
    simp only [hc', hg']
    exact if_pos hgo
  · refine congrArg Host.Outcome.next ?_
    simp only [hc, hg]
    exact if_pos (by simp [hck, hw, he])
  · refine congrArg Host.Outcome.next ?_
    simp only [hc]
    exact if_neg (Classical.not_not.mpr hst)
  · refine congrArg Host.Outcome.next ?_
    simp only [hc]
    exact if_neg (Classical.not_not.mpr hst)
  · obtain ⟨t', h⟩ := finishUpdate_takes ht ha hwork
    exact ⟨_, t', rfl, h⟩

end Sys2Proof.Proofs
end
